-- ==== Sys2Proof/Word.lean ====
section
/-! DEFINITION. Word types of the THZ-9420 (R2, R63, R68): bytes, 32-bit lane registers, 64-bit scalar
registers, and the register numbers that instruction fields name. -/

namespace Sys2Proof

abbrev Byte := BitVec 8
abbrev W16 := BitVec 16
abbrev W32 := BitVec 32
abbrev W64 := BitVec 64

/-- Scalar register number (R64). -/
abbrev SReg := Fin 64
/-- Lane register number (R71). -/
abbrev VReg := Fin 256
/-- k register number (R39). -/
abbrev KReg := Fin 16
/-- Condition register number (R64). -/
abbrev CReg := Fin 8
/-- Reply register number (R41). -/
abbrev YReg := Fin 8
/-- Predicate register number: seven predicates (R71). -/
abbrev PReg := Fin 7

/-- Lanes of a group (R24 and the opening of chapter 2). -/
abbrev lanes : Nat := 32

/-- The 32 lane numbers, ascending. -/
def laneList : List Nat := List.range 32

end Sys2Proof
end

