-- ==== Sys2Proof/Syntax.lean ====
section
/-! DEFINITION. The instruction set as data: every row of the opcode table is one constructor of `Instr`.
The rows are of three kinds: words of the two instruction streams (R63 to R78, Tables ASM-4 to ASM-12), words
of queue programs (R327), and steps of the device's own agents (packets, fabric packets, engine events,
releases of waits, platform events), whose operands say which object the step is about. -/

namespace Sys2Proof

/-- Binding-time field of every word (R79, Table FMT-7). -/
inductive Bt where
  | dyn | fold | static
  deriving DecidableEq, Repr

/-- A guard code (Table SCOPE-2): always, a predicate, or its complement. -/
inductive Guard where
  | always
  | pos (p : PReg)
  | neg (p : PReg)
  deriving DecidableEq, Repr

/-- A source selector of a lane word (R70, Table FMT-3). The immediates themselves stand in the word's header. -/
inductive Sel where
  | v (r : VReg)
  | k (r : KReg)
  | inl (n : Fin 32)
  | imm16
  | ext32
  | ext64
  deriving DecidableEq, Repr

/-- What every lane word carries beside its operation and operands (Table FMT-2): binding time, guards, cache
hint, lookahead, scheduling control, the imm16 field where a selector names it, and the extension slot of a
double-slot word (R75), zero where the word has none. -/
structure LaneHdr where
  bt : Bt
  ga : Guard
  gb : Guard
  ch : Fin 5
  la : Fin 16
  sc : Fin 16
  imm : W16
  ext : W64
  deriving DecidableEq, Repr

/-- Type codes of lane forms (Table ASM-10). -/
inductive LType where
  | i8 | i16 | i32 | i64 | n8 | n16 | n32 | n64 | b32 | b64 | f32 | f16 | bf16
  | e4m3 | e5m2 | e2m1 | i4 | dpt8
  deriving DecidableEq, Repr

/-- Conditions of `SCMP` (Table ASM-5). -/
inductive SCond where
  | eq | ne | lt | le | gt | ge | ltu | leu | gtu | geu
  deriving DecidableEq, Repr

/-- Conditions of `ISETP` (Table ASM-9). -/
inductive ICond where
  | eq | ne | lt | le | gt | ge
  deriving DecidableEq, Repr

/-- Types of `ISETP` (Table ASM-9). -/
inductive SetpTy where
  | i32 | n32 | i64 | n64 | i16 | n16 | i8 | n8
  deriving DecidableEq, Repr

/-- Conditions of `FSETP` (Table ASM-9). -/
inductive FCond where
  | eq | ne | lt | le | gt | ge | num | nan
  deriving DecidableEq, Repr

/-- Types of `FSETP` and `FCLASS` (Table ASM-9). -/
inductive FTy where
  | f32 | f16 | bf16
  deriving DecidableEq, Repr

/-- Sizes of `SLD` (Table ASM-5); `SST` takes the first four. -/
inductive SSize where
  | n8 | n16 | n32 | b64 | i8 | i16 | i32
  deriving DecidableEq, Repr

/-- Widths of the lane memory forms (Table ASM-12). -/
inductive MWidth where
  | i8 | n8 | i16 | n16 | b32 | b64 | b128
  deriving DecidableEq, Repr

/-- Tag modes of scratch accesses (Table ASM-12). -/
inductive TagMode where
  | none | f | fk | e
  deriving DecidableEq, Repr

/-- The fn of a lane memory form (Table ASM-12). -/
structure MemFn where
  width : MWidth
  atomic : Bool
  tag : TagMode
  deriving DecidableEq, Repr

/-- Atomic operations (Table ASM-11). -/
inductive AOp where
  | add | mins | maxs | minu | maxu | and | or | xor | xch | cas | fadd
  deriving DecidableEq, Repr

/-- Width of an atomic: 32 or 64 bits (R112). -/
inductive AWidth where
  | w32 | w64
  deriving DecidableEq, Repr

/-- Timeline classes (Table ASM-5, `WAITTL`). -/
inductive TlClass where
  | ce | kv | co | mx
  deriving DecidableEq, Repr

/-- Path classes of `WAITP` (Table ASM-9). -/
inductive PathClass where
  | gl | sl | st | rm
  deriving DecidableEq, Repr

/-- Modes of `SHFL`. -/
inductive ShflMode where
  | idx | up | down | xor
  deriving DecidableEq, Repr

/-- Operations of `REDUX` (Table ASM-9); `SCAN` takes the first three. -/
inductive RedOp where
  | add | min | max | and | or | xor
  deriving DecidableEq, Repr

/-- Modes of `VOTE` (Table ASM-9). -/
inductive VoteMode where
  | all | any | uni | ballot
  deriving DecidableEq, Repr

/-- Predicate operand of `SEL` and `VOTE`: a predicate and its inversion. -/
structure PSel where
  p : PReg
  inv : Bool
  deriving DecidableEq, Repr

/-- Bit-field placement of `BFE` and `BFI`: fixed in imm16, or taken from selector B (`.V`). -/
inductive BfPos where
  | fixed (pos : Fin 32) (len : Fin 33)
  | var (b : Sel)
  deriving DecidableEq, Repr

/-- Target operand of `LCALL`: a line delta, or a k register that holds a lane code address. -/
inductive LCallTgt where
  | near (delta : W16)
  | far (k : KReg)
  deriving DecidableEq, Repr

/-- The near target of an SB word (R65): a signed line delta and a slot. -/
structure SOff where
  delta : BitVec 9
  slot : Fin 32
  deriving DecidableEq, Repr

/-- Register of a queue program (R327). -/
abbrev QReg := Fin 16
/-- Window of a queue program: the packet, or WIN1 to WIN3 (R327). -/
abbrev QWin := Fin 4

/-- The last operand of a queue ALU word: a register, or the sign-extended immediate (I = 1). -/
inductive QVal where
  | reg (b : QReg)
  | imm (i : W32)
  deriving DecidableEq, Repr

/-- Conditions of `QCMP` (Table HQ-7). -/
inductive QCond where
  | eq | ne | ltu | geu | lt | ge
  deriving DecidableEq, Repr

/-- Why a word is no instruction, in the terms of step 3 of Table FMT-10. -/
inductive Reject where
  /-- Binding-time field 0b11 (R79), or nonzero in a handler form (R387). -/
  | badBindingTime
  /-- An op that no table assigns (R113). -/
  | undefinedOp
  /-- An fn value or type code not listed for the op (R113). -/
  | undefinedFn
  /-- A nonzero reserved or unused field (R67, R70, R110). -/
  | reservedField
  /-- Guard code 0b1111 (R69), or a guard on a form that takes none (R407, R409, R412). -/
  | badGuard
  /-- A reserved selector value, or a selector the form does not take (R70, R73, R74, R75). -/
  | badSelector
  /-- A register pair, quad, fragment or predicate that R71 forbids. -/
  | badRegister
  /-- Lookahead outside the classes of R80. -/
  | badLookahead
  /-- A cache hint outside R76. -/
  | badCacheHint
  /-- An immediate outside the limits of its form. -/
  | badImmediate
  deriving DecidableEq, Repr

/-- One constructor for every row of the opcode table. Constructors with operands come first: the compiler gives
every constructor with fields a tag below 245. -/
inductive Instr where
  -- Words of queue programs (Table HQ-7), scalar words (Tables ASM-4 to ASM-7) and lane words (Tables ASM-8 to ASM-12).
  | qmovi (d : QReg) (imm : W32)
  | qld (d : QReg) (w : QWin) (a : QReg) (imm : W32)
  | qldw (d : QReg) (w : QWin) (a : QReg) (imm : W32)
  | qstw (w : QWin) (a b : QReg) (imm : W32)
  | qadd (d a : QReg) (v : QVal)
  | qsub (d a : QReg) (v : QVal)
  | qand (d a : QReg) (v : QVal)
  | qor (d a : QReg) (v : QVal)
  | qshl (d a : QReg) (v : QVal)
  | qshr (d a : QReg) (v : QVal)
  | qcmp (d a b : QReg) (cond : QCond)
  | qbr (a : QReg) (always : Bool) (imm : W32)
  | qloop (d : QReg) (n len : Byte)
  | qlaunch (d : QReg) (w : QWin) (a : QReg) (imm : W32)
  | qcopy (w : QWin) (d : QReg) (w2 : QWin) (a : QReg) (n : W16)
  | qsignal (w : QWin) (a b : QReg) (imm : W32)
  | qwaitv (w : QWin) (a b : QReg) (imm : W32)
  | qwaitvRelease (slot : Nat)
  | qcallf (d : QReg) (w : QWin) (a : QReg) (kind : Byte) (off : BitVec 24)
  | qdone (a : QReg)
  | qfail (code : Byte)
  | saddReg (bt : Bt) (d a b : SReg)
  | ssubReg (bt : Bt) (d a b : SReg)
  | smulReg (bt : Bt) (d a b : SReg)
  | sdivReg (bt : Bt) (uns rem : Bool) (d a b : SReg)
  | sandReg (bt : Bt) (d a b : SReg)
  | sorReg (bt : Bt) (d a b : SReg)
  | sxorReg (bt : Bt) (d a b : SReg)
  | sshlReg (bt : Bt) (d a b : SReg)
  | sshrReg (bt : Bt) (d a b : SReg)
  | ssarReg (bt : Bt) (d a b : SReg)
  | sminReg (bt : Bt) (uns : Bool) (d a b : SReg)
  | smaxReg (bt : Bt) (uns : Bool) (d a b : SReg)
  | saddImm (bt : Bt) (d a : SReg) (imm : BitVec 12)
  | ssubImm (bt : Bt) (d a : SReg) (imm : BitVec 12)
  | smulImm (bt : Bt) (d a : SReg) (imm : BitVec 12)
  | sdivImm (bt : Bt) (d a : SReg) (imm : BitVec 12)
  | sandImm (bt : Bt) (d a : SReg) (imm : BitVec 12)
  | sorImm (bt : Bt) (d a : SReg) (imm : BitVec 12)
  | sxorImm (bt : Bt) (d a : SReg) (imm : BitVec 12)
  | sshlImm (bt : Bt) (d a : SReg) (n : Fin 64)
  | sshrImm (bt : Bt) (d a : SReg) (n : Fin 64)
  | ssarImm (bt : Bt) (d a : SReg) (n : Fin 64)
  | sminImm (bt : Bt) (d a : SReg) (imm : BitVec 12)
  | smaxImm (bt : Bt) (d a : SReg) (imm : BitVec 12)
  | scmp (bt : Bt) (cond : SCond) (a b : SReg) (c : CReg)
  | scmpImm (bt : Bt) (cond : SCond) (a : SReg) (i : Fin 64) (c : CReg)
  | ssel (bt : Bt) (d a b : SReg) (c : CReg)
  | smov (bt : Bt) (d a : SReg)
  | smovFromC (bt : Bt) (d : SReg) (c : CReg)
  | smovToC (bt : Bt) (c : CReg) (a : SReg)
  | sli (bt : Bt) (d : SReg) (imm : W64)
  | sld (bt : Bt) (size : SSize) (d a : SReg) (off : BitVec 9)
  | sst (bt : Bt) (size : SSize) (d a : SReg) (off : BitVec 9)
  | satom (bt : Bt) (op : AOp) (w : AWidth) (a b : SReg) (c : Fin 16)
  | sbr (bt : Bt) (inv : Bool) (c : CReg) (off : SOff)
  | sjmp (bt : Bt) (off : SOff)
  | sjmpFar (bt : Bt) (imm : W64)
  | scall (bt : Bt) (l : SReg) (off : SOff)
  | scallFar (bt : Bt) (l : SReg) (imm : W64)
  | sloop (bt : Bt) (a : SReg) (off : SOff)
  | lrun (bt : Bt) (a : SReg) (imm : BitVec 12)
  | kset (bt : Bt) (k : KReg) (a : SReg)
  | yget (bt : Bt) (d : SReg) (y : YReg)
  | srd (bt : Bt) (d : SReg) (idx : Byte)
  | swr (bt : Bt) (d : SReg) (idx : Byte)
  | setfmt (bt : Bt) (a : SReg)
  | waittl (bt : Bt) (cls : TlClass) (a : SReg)
  | tlget (bt : Bt) (cls : TlClass) (b : SReg)
  | cpy (bt : Bt) (a b : SReg)
  | gath (bt : Bt) (a b : SReg)
  | coll (bt : Bt) (a b : SReg)
  | kvalloc (bt : Bt) (a b : SReg)
  | kvref (bt : Bt) (a b : SReg)
  | kvunref (bt : Bt) (a b : SReg)
  | kvcow (bt : Bt) (a b : SReg)
  | kvtierCi (bt : Bt) (a b : SReg)
  | kvtierAq (bt : Bt) (a b : SReg)
  | kvsend (bt : Bt) (a b : SReg)
  | rqget (bt : Bt) (word : Fin 32) (a b : SReg)
  | rqset (bt : Bt) (word : Fin 32) (a b : SReg)
  | rqemit (bt : Bt) (a b : SReg)
  | barinit (bt : Bt) (a b : SReg)
  | bararr (bt : Bt) (a : SReg)
  | bararrDrop (bt : Bt) (a : SReg)
  | barwait (bt : Bt) (a b : SReg)
  | barxpct (bt : Bt) (a b : SReg)
  | ringinit (bt : Bt) (a b : SReg)
  | ringacqP (bt : Bt) (a b : SReg)
  | ringacqC (bt : Bt) (a b : SReg)
  | ringrelP (bt : Bt) (a b : SReg)
  | ringrelC (bt : Bt) (a b : SReg)
  | spawn (bt : Bt) (a b : SReg)
  | join (bt : Bt) (a b : SReg)
  | pwrq (bt : Bt) (a b : SReg)
  | snop (bt : Bt)
  | lsync (bt : Bt)
  | yield (bt : Bt)
  | exit (bt : Bt)
  | sret (bt : Bt) (a : SReg)
  | brkpt (bt : Bt)
  | trap (bt : Bt) (code : Fin 64)
  | fence (bt : Bt)
  | fenceSys (bt : Bt)
  | fenceSurv (bt : Bt)
  | hread (a b : SReg)
  | hwrite (a b : SReg)
  | hresume (a : SReg)
  | hkill (a : SReg)
  | iadd (h : LaneHdr) (t : LType) (sat : Bool) (d : VReg) (a b : Sel)
  | isub (h : LaneHdr) (t : LType) (sat : Bool) (d : VReg) (a b : Sel)
  | imul (h : LaneHdr) (t : LType) (hi : Bool) (d : VReg) (a b : Sel)
  | imad (h : LaneHdr) (t : LType) (sat : Bool) (d : VReg) (a b c : Sel)
  | imin (h : LaneHdr) (t : LType) (d : VReg) (a b : Sel)
  | imax (h : LaneHdr) (t : LType) (d : VReg) (a b : Sel)
  | iabs (h : LaneHdr) (t : LType) (sat : Bool) (d : VReg) (a : Sel)
  | ineg (h : LaneHdr) (t : LType) (sat : Bool) (d : VReg) (a : Sel)
  | shl (h : LaneHdr) (t : LType) (wrap : Bool) (d : VReg) (a b : Sel)
  | shr (h : LaneHdr) (t : LType) (wrap : Bool) (d : VReg) (a b : Sel)
  | sar (h : LaneHdr) (t : LType) (wrap : Bool) (d : VReg) (a b : Sel)
  | and (h : LaneHdr) (t : LType) (d : VReg) (a b : Sel)
  | or (h : LaneHdr) (t : LType) (d : VReg) (a b : Sel)
  | xor (h : LaneHdr) (t : LType) (d : VReg) (a b : Sel)
  | logic (h : LaneHdr) (t : LType) (g1 g2 : Fin 8) (inv sel : Bool) (d : VReg) (a b c : Sel)
  | popc (h : LaneHdr) (t : LType) (d : VReg) (a : Sel)
  | clz (h : LaneHdr) (t : LType) (d : VReg) (a : Sel)
  | brev (h : LaneHdr) (t : LType) (d : VReg) (a : Sel)
  | bfe (h : LaneHdr) (t : LType) (pos : BfPos) (d : VReg) (a : Sel)
  | bfi (h : LaneHdr) (pos : BfPos) (d : VReg) (a c : Sel)
  | prmt (h : LaneHdr) (d : VReg) (a b c : Sel)
  -- Scalar words (Tables ASM-4 to ASM-7).
  | isetp (h : LaneHdr) (t : SetpTy) (cond : ICond) (d : PReg) (a b : Sel)
  | sel (h : LaneHdr) (t : LType) (q : PSel) (d : VReg) (a b : Sel)
  | idot4 (h : LaneHdr) (t : LType) (sat : Bool) (d : VReg) (a b c : Sel)
  | fadd (h : LaneHdr) (d : VReg) (a b : Sel)
  | fmul (h : LaneHdr) (d : VReg) (a b : Sel)
  | ffma (h : LaneHdr) (d : VReg) (a b c : Sel)
  | fmin (h : LaneHdr) (nan : Bool) (d : VReg) (a b : Sel)
  | fmax (h : LaneHdr) (nan : Bool) (d : VReg) (a b : Sel)
  | fsetp (h : LaneHdr) (t : FTy) (cond : FCond) (d : PReg) (a b : Sel)
  | fclass (h : LaneHdr) (t : FTy) (mask : BitVec 10) (d : PReg) (a : Sel)
  | frnd (h : LaneHdr) (t : FTy) (rtz : Bool) (d : VReg) (a : Sel)
  | hadd2 (h : LaneHdr) (t : FTy) (d : VReg) (a b : Sel)
  | hmul2 (h : LaneHdr) (t : FTy) (d : VReg) (a b : Sel)
  | hfma2 (h : LaneHdr) (t : FTy) (d : VReg) (a b c : Sel)
  | cvt (h : LaneHdr) (dst src : LType) (d : VReg) (a : Sel)
  | pack (h : LaneHdr) (t : LType) (d : VReg) (a b c e : Sel)
  | unpk (h : LaneHdr) (t : LType) (i : Fin 8) (d : VReg) (a : Sel)
  | rcp (h : LaneHdr) (d : VReg) (a : Sel)
  | rsq (h : LaneHdr) (d : VReg) (a : Sel)
  | sqrt (h : LaneHdr) (d : VReg) (a : Sel)
  | ex2 (h : LaneHdr) (d : VReg) (a : Sel)
  | lg2 (h : LaneHdr) (d : VReg) (a : Sel)
  | sin (h : LaneHdr) (d : VReg) (a : Sel)
  | cos (h : LaneHdr) (d : VReg) (a : Sel)
  | tanh (h : LaneHdr) (d : VReg) (a : Sel)
  | mov (h : LaneHdr) (t : LType) (d : VReg) (a : Sel)
  | shfl (h : LaneHdr) (t : LType) (mode : ShflMode) (d a : VReg) (b : Sel)
  | bcast (h : LaneHdr) (t : LType) (d a : VReg) (b : Sel)
  | getl (h : LaneHdr) (d : VReg)
  | vote (h : LaneHdr) (mode : VoteMode) (q : PSel) (d : VReg)
  | matchLanes (h : LaneHdr) (t : LType) (all : Bool) (d : VReg) (a : Sel)
  | redux (h : LaneHdr) (t : LType) (op : RedOp) (y : YReg) (wy : Bool) (d : VReg) (a : Sel)
  | scan (h : LaneHdr) (t : LType) (op : RedOp) (excl : Bool) (d : VReg) (a : Sel)
  | gsort (h : LaneHdr) (t : LType) (desc : Bool) (d : VReg) (a b : Sel)
  | elect (h : LaneHdr) (d : PReg)
  | exmget (h : LaneHdr) (d : VReg)
  | exmset (h : LaneHdr) (a : Sel)
  | regroup (h : LaneHdr) (d : VReg) (n : Fin 32)
  | lbr (h : LaneHdr) (tdelta : BitVec 12) (tslot : Fin 16) (jdelta : BitVec 14) (jslot : Fin 16)
  | ljoin (h : LaneHdr)
  | lend (h : LaneHdr)
  | lnop (h : LaneHdr)
  | lcall (h : LaneHdr) (tgt : LCallTgt)
  | lret (h : LaneHdr)
  | ldg (h : LaneHdr) (fn : MemFn) (d : VReg) (a b : Sel) (off : W16)
  | stg (h : LaneHdr) (fn : MemFn) (a b c : Sel) (off : W16)
  | lds (h : LaneHdr) (fn : MemFn) (d : VReg) (a b : Sel) (off : W16)
  | sts (h : LaneHdr) (fn : MemFn) (a b c : Sel) (off : W16)
  | ldx (h : LaneHdr) (fn : MemFn) (d : VReg) (a b : Sel) (off : W16)
  | stx (h : LaneHdr) (fn : MemFn) (a b c : Sel) (off : W16)
  | rld (h : LaneHdr) (fn : MemFn) (d : VReg) (a rank : Sel) (off : W16)
  | rst (h : LaneHdr) (fn : MemFn) (a rank c : Sel) (off : W16)
  | ratom (h : LaneHdr) (op : AOp) (w : AWidth) (nr : Bool) (d : VReg) (a rank c e : Sel) (off : W16)
  | atom (h : LaneHdr) (op : AOp) (w : AWidth) (nr : Bool) (d : VReg) (a b c e : Sel) (off : W16)
  | red (h : LaneHdr) (op : AOp) (w : AWidth) (a b c : Sel) (off : W16)
  | tagset (h : LaneHdr) (full : Bool) (a b : Sel) (off : W16)
  | tagget (h : LaneHdr) (d : VReg) (a b : Sel) (off : W16)
  | waitp (h : LaneHdr) (path : PathClass) (a : Sel)
  | pref (h : LaneHdr) (l2 : Bool) (a b : Sel) (off : W16)
  | mma (h : LaneHdr) (s : Bool) (a : VReg) (b : Sel) (c : KReg) (e : Sel)
  | mxzero (h : LaneHdr) (k : KReg)
  | mxread (h : LaneHdr) (t : LType) (d : VReg) (k : KReg) (b : Sel)
  | mxflush (h : LaneHdr) (tile : Option KReg)
  | rand (h : LaneHdr) (d : VReg) (a b : Sel)
  -- Steps of the device that are about an object or carry an input (R23 to R342).
  | hostDeviceMemoryAccess (write : Bool) (addr : Nat) (n : Nat) (data : Nat)
  | poisonedTlp (pa : Nat)
  | registerWrite (func : Nat) (off : Nat) (width : Nat) (data : Nat)
  | doorbellTail (slot : Nat) (tail : Nat)
  | queueEnable (slot : Nat) (desc : Nat)
  | queueDisable (slot : Nat)
  | queueDisabled (slot : Nat)
  | contextOwnerWrite (idx : Nat) (word : Nat)
  | coreRetirement (core : Nat)
  | bankStatusClear (bank : Nat) (bits : Nat)
  | queueSwitchOut (slot : Nat)
  | queueSwitchIn (slot : Nat)
  | packetTake (slot : Nat)
  | completionEntryWrite (slot : Nat)
  | dependenceMet (n : Nat)
  | teamPlace (core : Nat)
  | teamRetire (core : Nat) (slot : Nat)
  | gridComplete (n : Nat)
  | joinPark (core : Nat) (slot : Nat)
  | laneBlockStart (core : Nat) (slot : Nat) (gid : Nat)
  | laneQueueRefill (core : Nat) (slot : Nat) (gid : Nat)
  | lsyncRelease (core : Nat) (slot : Nat) (gid : Nat)
  | groupExitEnd (core : Nat) (slot : Nat) (gid : Nat)
  | waittlRelease (core : Nat) (slot : Nat) (gid : Nat)
  | waitpRelease (core : Nat) (slot : Nat) (gid : Nat)
  | pathCompletion (core : Nat) (slot : Nat) (gid : Nat)
  -- Lane words (Tables ASM-8 to ASM-12).
  | accessPerformedAtHome (core : Nat) (slot : Nat) (gid : Nat) (host : Nat)
  | uPartialFlush (n : Nat)
  | fenceComplete (core : Nat) (slot : Nat) (gid : Nat)
  | fenceSurvComplete (core : Nat) (slot : Nat) (gid : Nat)
  | grantIdleTimeout (core : Nat) (slot : Nat) (gid : Nat)
  | stagingCombine (core : Nat) (slot : Nat) (gid : Nat) (n : Nat)
  | stagingSend (core : Nat) (n : Nat)
  | tileAdd (i : Nat) (e : Nat)
  | ceUnitLand (core : Nat) (slot : Nat) (n : Nat) (u : Nat)
  | ceCommandComplete (core : Nat) (slot : Nat) (n : Nat)
  | kvCommandPerform (core : Nat) (slot : Nat)
  | kvsendComplete (core : Nat) (slot : Nat)
  | coCommandComplete (core : Nat) (slot : Nat) (n : Nat)
  | selfTestDue (core : Nat)
  | selfTestSlot (core : Nat)
  | pcSample (core : Nat) (c : Nat)
  | handlerActivation (core : Nat)
  | handlerWatchdog (core : Nat)
  | tagWatchdog (core : Nat) (slot : Nat) (gid : Nat) (n : Nat)
  | park (core : Nat) (slot : Nat)
  | parkRecordValid (core : Nat) (slot : Nat)
  | parkAutoResume (n : Nat) (slot : Nat)
  | preemptPark (c : Nat)
  | preemptReset (c : Nat)
  | preemptOff (c : Nat)
  -- Words without operands, and steps of the device whose object the state or a free choice gives.
  | hpark
  | eret
  | powerOnReset
  | configurationRequest
  | nop
  | link
  | launch
  | load
  | flush
  | inval
  | invalidationComplete
  | context
  | preempt
  | resume
  | serveStart
  | serveStop
  | serveResume
  | serveRefusedAction
  | checkpoint
  | checkpointComplete
  | restore
  | program
  | queueProgramKind
  | firnBuild
  | reservation
  | rdcRecallReturn
  | powerGrant
  | powerInterval
  | kvsendReceive
  | migrationLock
  | migrationSwitch
  | fabricRead
  | fabricWrite
  | fabricAtomic
  | fabricAtomicNoReturn
  | delta
  | collective
  | readReply
  | acknowledgement
  | atomicReply
  | deltaAcknowledgement
  | collectiveData
  | lost
  | rebuild
  | rebuildFrame
  | resync
  | recall
  | recallReply
  | fabricTimeout
  | replyCacheExpiry
  | scrub
  | iterationBegin
  | planEntryLaunch
  | retirement
  | hbmChannelRetrain
  | fabricPortRetrain
  | pldmFirmwareUpdate
  | pldmMonitoring
  | spdmRequest
  | boundaryScan
  -- The clock, and the word that is no instruction.
  | logicalClockRise
  | undefinedEncoding
  deriving DecidableEq, Repr

end Sys2Proof
end

