-- ==== Sys2Proof/Machine/Forms.lean ====
section
/-! DEFINITION. Operand forms: which operands every word takes (R71, R73 to R76, R80, Tables ASM-9 to ASM-12 and
the reference entries). `Instr.check` names the first rule a word's operands break. The allotment, the role and
the place of the word in its line are checked when the word issues, since they need its group and its address. -/

namespace Sys2Proof

/-- The first reason whose condition is broken. -/
def firstReject : List (Bool × Reject) → Option Reject
  | [] => none
  | (ok, r) :: rest => if ok then firstReject rest else some r

/-- The width a selector is read at, for the forms of Table FMT-5: a 32-bit operand or a 64-bit one. -/
inductive OpW where
  | w32 | w64
  deriving DecidableEq, Repr

/-- A selector is allowed at a width: 0x1FD only at 64 bits, and a v selector then names an even pair (R71, R73). -/
def Sel.okAt (w : OpW) (s : Sel) : Bool :=
  match w, s with
  | .w32, .ext64 => false
  | .w64, .v r => r.val % 2 == 0
  | _, _ => true

/-- Register number 0, the encoding of an unused selector field. -/
def Sel.zero : Sel := .v 0

def Sel.isV : Sel → Bool
  | .v _ => true
  | _ => false

def Sel.isK : Sel → Bool
  | .k _ => true
  | _ => false

/-- Header classes of a form: it is a memory form (CH applies, R76), its LA applies (R80), imm16 has a meaning of
its own (R74). -/
structure FormClass where
  mem : Bool
  look : Bool
  own : Bool
  deriving DecidableEq, Repr

def FormClass.plain : FormClass := ⟨false, false, false⟩
def FormClass.lookahead : FormClass := ⟨false, true, false⟩
def FormClass.ownImm : FormClass := ⟨false, false, true⟩
def FormClass.lookOwn : FormClass := ⟨false, true, true⟩
def FormClass.memory : FormClass := ⟨true, false, true⟩

/-- The header agrees with the form's class and with the selectors in use. -/
def LaneHdr.check (h : LaneHdr) (c : FormClass) (sels : List (Sel × OpW)) : List (Bool × Reject) :=
  let ss := sels.map (·.1)
  [ (c.mem || h.ch == 0, .badCacheHint),
    (c.look || h.la == 0, .badLookahead),
    (sels.all (fun p => p.1.okAt p.2), .badSelector),
    (!(c.own && ss.contains .imm16), .badSelector),
    (ss.contains .imm16 || h.imm == 0, .reservedField),
    (!(ss.contains .ext32 && ss.contains .ext64), .badSelector),
    (ss.contains .ext32 || ss.contains .ext64 || h.ext == 0, .reservedField),
    (!(ss.contains .ext32) || decide (h.ext.toNat < 2 ^ 32), .reservedField) ]

/-- A pair destination has an even first register (R71). -/
def pairOk (d : VReg) : Bool := d.val % 2 == 0
/-- A quad has a first register that is a multiple of 4 (R111). -/
def quadOk (d : VReg) : Bool := d.val % 4 == 0

def LType.isInt : LType → Bool
  | .i8 | .i16 | .i32 | .i64 | .n8 | .n16 | .n32 | .n64 => true
  | _ => false

def LType.isWord : LType → Bool
  | .i32 | .n32 | .i64 | .n64 => true
  | _ => false

def LType.isSigned : LType → Bool
  | .i8 | .i16 | .i32 | .i64 | .i4 => true
  | _ => false

def LType.isB : LType → Bool
  | .b32 | .b64 => true
  | _ => false

/-- Types that take a register pair. -/
def LType.wide : LType → Bool
  | .i64 | .n64 | .b64 => true
  | _ => false

def LType.opw (t : LType) : OpW := if t.wide then .w64 else .w32

/-- Types of `CVT` in either field (R363). -/
def LType.isCvt : LType → Bool
  | .b32 | .b64 => false
  | _ => true

/-- Types of `PACK` and `UNPK` (R423, R463). -/
def LType.isPack : LType → Bool
  | .i8 | .n8 | .i4 | .e4m3 | .e5m2 | .e2m1 | .dpt8 | .f16 | .bf16 => true
  | _ => false

/-- Elements of a packed type in one 32-bit source (R463). -/
def LType.packCount : LType → Nat
  | .i4 | .e2m1 => 8
  | .f16 | .bf16 => 2
  | _ => 4

def SetpTy.opw : SetpTy → OpW
  | .i64 | .n64 => .w64
  | _ => .w32

def MWidth.bytes : MWidth → Nat
  | .i8 | .n8 => 1
  | .i16 | .n16 => 2
  | .b32 => 4
  | .b64 => 8
  | .b128 => 16

/-- The register operand of a memory width: pair for `.B64`, quad for `.B128` (R111). -/
def MWidth.regOk (w : MWidth) (d : VReg) : Bool :=
  match w with
  | .b64 => pairOk d
  | .b128 => quadOk d
  | _ => true

/-- fn of Table ASM-12: atomicity only with `.B64` or `.B128`, and a tag mode only with `.B32`. -/
def MemFn.ok (fn : MemFn) (tags : List TagMode) : Bool :=
  (!fn.atomic || fn.width == .b64 || fn.width == .b128) &&
  (fn.tag == .none || (fn.width == .b32 && tags.contains fn.tag))

def MWidth.storeOk : MWidth → Bool
  | .i8 | .i16 => false
  | _ => true

/-- Selectors of an address: base is k or v (a pair for global memory), index is v or the inline zero (R97, R405). -/
def addrOk (global : Bool) (a b : Sel) : Bool :=
  (match a with
   | .k _ => true
   | .v r => !global || r.val % 2 == 0
   | _ => false) &&
  (match b with
   | .v _ => true
   | .inl n => n == 0
   | _ => false)

/-- The data selector of a store (R459). -/
def storeDataOk (w : MWidth) (c : Sel) : Bool :=
  match c with
  | .v r => w.regOk r
  | .k _ => w.bytes ≤ 8
  | .inl _ => w.bytes ≤ 4
  | .ext32 => w.bytes ≤ 4
  | .imm16 => false
  | .ext64 => false

/-- Rank selector of the fabric forms: v, k or inline (R429). -/
def rankOk : Sel → Bool
  | .v _ | .k _ | .inl _ => true
  | _ => false

/-- Base selector of the fabric forms, which take no index (R429). -/
def baseOk : Sel → Bool
  | .k _ => true
  | .v r => r.val % 2 == 0
  | _ => false

def AWidth.opw : AWidth → OpW
  | .w32 => .w32
  | .w64 => .w64

/-- Operand and comparand rules shared by `ATOM`, `RATOM` (R345, R347, R429). -/
def atomOk (op : AOp) (w : AWidth) (nr : Bool) (d : VReg) (e : Sel) : List (Bool × Reject) :=
  [ (!(op == .fadd && w == .w64), .undefinedFn),
    (!nr || d == 0, .reservedField),
    (nr || w == .w32 || pairOk d, .badRegister),
    (op == .cas || e == Sel.zero, .reservedField) ]

/-- Selectors an atomic reads beyond its address. -/
def atomSels (op : AOp) (w : AWidth) (c e : Sel) : List (Sel × OpW) :=
  if op == .cas then [(c, w.opw), (e, w.opw)] else [(c, w.opw)]

/-- Guards fixed at 0b0111 (R407, R409, R412). -/
def LaneHdr.unguarded (h : LaneHdr) : Bool := h.ga == .always && h.gb == .always

/-- Position and length of `BFE` and `BFI`: `.V` reads selector B. -/
def BfPos.sels : BfPos → List (Sel × OpW)
  | .fixed _ _ => []
  | .var b => [(b, .w32)]

/-- The checks of one integer form with operands of its type. -/
def typedCheck (h : LaneHdr) (c : FormClass) (tyOk : Bool) (t : LType) (d : VReg) (sels : List Sel) :
    Option Reject :=
  firstReject ((tyOk, .undefinedFn) :: (!t.wide || pairOk d, .badRegister) ::
    h.check c (sels.map (fun x => (x, t.opw))))

/-- Forms of 32-bit floating operands. -/
def f32Check (h : LaneHdr) (c : FormClass) (sels : List Sel) : Option Reject :=
  firstReject (h.check c (sels.map (fun x => (x, OpW.w32))))

/-- The rule that the operands of a word break, or none. Rows that are no words of an instruction stream have no
operand rules here. -/
def Instr.check : Instr → Option Reject
  -- scalar words
  | .sst _ size _ _ _ => firstReject [(size == .n8 || size == .n16 || size == .n32 || size == .b64, .undefinedFn)]
  | .satom _ op _ _ _ c => firstReject [(op != .fadd, .undefinedFn), (op == .cas || c == 0, .reservedField)]
  | .sloop _ a _ => firstReject [(a != 0, .reservedField)]
  | .srd _ _ idx => firstReject [(decide (idx.toNat ≤ 0x16) || (decide (0x20 ≤ idx.toNat) && decide (idx.toNat ≤ 0x26)), .undefinedFn)]
  | .swr _ _ idx => firstReject [(decide (0x0C ≤ idx.toNat) && decide (idx.toNat ≤ 0x0E), .undefinedFn)]
  -- integer lane words
  | .iadd h t _ d a b | .isub h t _ d a b => typedCheck h .plain t.isInt t d [a, b]
  | .imul h t hi d a b => typedCheck h .plain (t.isWord && (!hi || !t.wide)) t d [a, b]
  | .imad h t sat d a b c => typedCheck h .plain (t.isWord && (!sat || !t.wide)) t d [a, b, c]
  | .imin h t d a b | .imax h t d a b => typedCheck h .plain t.isInt t d [a, b]
  | .iabs h t _ d a | .ineg h t _ d a => typedCheck h .plain (t.isInt && t.isSigned) t d [a]
  | .shl h t _ d a b | .shr h t _ d a b =>
    firstReject ((t.isB, .undefinedFn) :: (!t.wide || pairOk d, .badRegister) ::
      h.check .plain [(a, t.opw), (b, .w32)])
  | .sar h t _ d a b =>
    firstReject ((t == .i32 || t == .i64, .undefinedFn) :: (!t.wide || pairOk d, .badRegister) ::
      h.check .plain [(a, t.opw), (b, .w32)])
  | .and h t d a b | .or h t d a b | .xor h t d a b => typedCheck h .plain t.isB t d [a, b]
  | .logic h t g1 g2 _ bsel d a b c =>
    if bsel && !(g1 == 0 && g2 == 0) then some .reservedField else typedCheck h .ownImm t.isB t d [a, b, c]
  | .popc h t _ a | .clz h t _ a =>
    firstReject ((t.isB, .undefinedFn) :: h.check .plain [(a, t.opw)])
  | .brev h t d a => typedCheck h .plain t.isB t d [a]
  | .mov h t d a => typedCheck h .plain t.isB t d [a]
  | .bfe h t pos _ a =>
    firstReject ((t == .i32 || t == .n32, .undefinedFn) :: h.check .ownImm ((a, .w32) :: pos.sels))
  | .bfi h pos _ a c => firstReject (h.check .ownImm ((a, .w32) :: (c, .w32) :: pos.sels))
  | .prmt h _ a b c => f32Check h .plain [a, b, c]
  | .isetp h t _ _ a b => firstReject (h.check .plain [(a, t.opw), (b, t.opw)])
  | .sel h t _ d a b => typedCheck h .ownImm t.isB t d [a, b]
  | .idot4 h t _ d a b c => typedCheck h .plain (t == .i32 || t == .n32) t d [a, b, c]
  -- floating lane words
  | .fadd h _ a b | .fmul h _ a b | .fmin h _ _ a b | .fmax h _ _ a b | .fsetp h _ _ _ a b =>
    f32Check h .plain [a, b]
  | .ffma h _ a b c => f32Check h .plain [a, b, c]
  | .fclass h _ _ _ a => f32Check h .ownImm [a]
  | .frnd h _ _ _ a => f32Check h .plain [a]
  | .hadd2 h t _ a b | .hmul2 h t _ a b =>
    if t == .f32 then some .undefinedFn else f32Check h .plain [a, b]
  | .hfma2 h t _ a b c => if t == .f32 then some .undefinedFn else f32Check h .plain [a, b, c]
  | .cvt h dst src d a =>
    firstReject ((dst.isCvt && src.isCvt, .undefinedFn) :: (!dst.wide || pairOk d, .badRegister) ::
      h.check .lookOwn [(a, src.opw)])
  | .pack h t _ a b c e =>
    if !t.isPack then some .undefinedFn
    else if t == .f16 || t == .bf16 then
      firstReject ((c == Sel.zero && e == Sel.zero, .reservedField) :: h.check .plain [(a, .w32), (b, .w32)])
    else f32Check h .plain [a, b, c, e]
  | .unpk h t i _ a =>
    firstReject ((t.isPack, .undefinedFn) :: (decide (i.val < t.packCount), .badImmediate) ::
      h.check .ownImm [(a, .w32)])
  | .rcp h _ a | .rsq h _ a | .sqrt h _ a | .ex2 h _ a | .lg2 h _ a | .sin h _ a | .cos h _ a | .tanh h _ a =>
    f32Check h .lookahead [a]
  -- cross-lane words
  | .shfl h t _ d a b =>
    firstReject ((t.isB, .undefinedFn) :: (!t.wide || (pairOk d && pairOk a), .badRegister) ::
      h.check .lookOwn [(b, .w32)])
  | .bcast h t d a b =>
    firstReject ((t.isB, .undefinedFn) :: (!t.wide || (pairOk d && pairOk a), .badRegister) ::
      h.check .lookahead [(b, .w32)])
  | .getl h _ | .exmget h _ | .elect h _ => f32Check h .plain []
  | .vote h mode _ d =>
    firstReject ((mode == .ballot || decide (d.val < 7), .badRegister) :: h.check .lookOwn [])
  | .matchLanes h t _ _ a => firstReject ((t.isB, .undefinedFn) :: h.check .lookahead [(a, t.opw)])
  | .redux h t op _ _ _ a =>
    firstReject ((match t, op with
      | .b32, .and | .b32, .or | .b32, .xor => true
      | .i32, .add | .i32, .min | .i32, .max => true
      | .n32, .add | .n32, .min | .n32, .max => true
      | .f32, .add | .f32, .min | .f32, .max => true
      | _, _ => false, .undefinedFn) :: h.check .lookOwn [(a, .w32)])
  | .scan h t op _ _ a =>
    firstReject (((t == .i32 || t == .n32 || t == .f32) && (op == .add || op == .min || op == .max), .undefinedFn) ::
      h.check .lookOwn [(a, .w32)])
  | .gsort h t _ d a b =>
    firstReject ((t == .i32 || t == .n32 || t == .f32, .undefinedFn) :: (pairOk d, .badRegister) ::
      h.check .lookahead [(a, .w32), (b, .w32)])
  | .exmset h a => f32Check h .plain [a]
  | .regroup h _ _ => f32Check h .ownImm []
  -- control lane words
  | .lbr h _ _ _ _ => f32Check h .ownImm []
  | .lcall h _ => f32Check h .ownImm []
  | .ljoin h | .lend h | .lret h => if h.unguarded then f32Check h .plain [] else some .badGuard
  | .lnop h => f32Check h .plain []
  -- memory lane words
  | .ldg h fn d a b _ =>
    firstReject ((fn.ok [], .undefinedFn) :: (fn.width.regOk d, .badRegister) :: (addrOk true a b, .badSelector) ::
      h.check .memory [])
  | .lds h fn d a b _ | .ldx h fn d a b _ =>
    firstReject ((fn.ok [.f, .fk], .undefinedFn) :: (fn.width.regOk d, .badRegister) ::
      (addrOk false a b, .badSelector) :: h.check .memory [])
  | .stg h fn a b c _ =>
    firstReject ((fn.ok [] && fn.width.storeOk, .undefinedFn) :: (storeDataOk fn.width c, .badSelector) ::
      (addrOk true a b, .badSelector) :: h.check .memory [(if c == .ext32 then c else Sel.zero, .w32)])
  | .sts h fn a b c _ | .stx h fn a b c _ =>
    firstReject ((fn.ok [.e] && fn.width.storeOk, .undefinedFn) :: (storeDataOk fn.width c, .badSelector) ::
      (addrOk false a b, .badSelector) :: h.check .memory [(if c == .ext32 then c else Sel.zero, .w32)])
  | .rld h fn d a r _ =>
    firstReject ((fn.ok [], .undefinedFn) :: (fn.width.regOk d, .badRegister) ::
      (baseOk a && rankOk r, .badSelector) :: h.check .memory [])
  | .rst h fn a r c _ =>
    firstReject ((fn.ok [] && fn.width.storeOk, .undefinedFn) :: (storeDataOk fn.width c, .badSelector) ::
      (baseOk a && rankOk r, .badSelector) :: h.check .memory [(if c == .ext32 then c else Sel.zero, .w32)])
  | .ratom h op w nr d a r c e _ =>
    firstReject (atomOk op w nr d e ++ (baseOk a && rankOk r, .badSelector) ::
      h.check .memory (atomSels op w c e))
  | .atom h op w nr d a b c e _ =>
    firstReject (atomOk op w nr d e ++ (addrOk true a b, .badSelector) :: h.check .memory (atomSels op w c e))
  | .red h op w a b c _ =>
    firstReject ((op != .xch && op != .cas && !(op == .fadd && w == .w64), .undefinedFn) ::
      (addrOk true a b, .badSelector) :: h.check .memory [(c, w.opw)])
  | .tagset h _ a b _ | .tagget h _ a b _ =>
    firstReject ((addrOk false a b, .badSelector) :: h.check .memory [])
  | .pref h _ a b _ => firstReject ((addrOk true a b, .badSelector) :: h.check .memory [])
  | .waitp h _ a =>
    firstReject ((!a.isV && a != .ext64, .badSelector) :: h.check .plain [(a, .w32)])
  -- matrix lane words
  | .mma h s a b _ e =>
    firstReject ((a.val % 8 == 0, .badRegister) ::
      (match b with
       | .v r => !s && r.val % 8 == 0
       | _ => s, .badSelector) ::
      (match e with
       | .ext64 => false
       | _ => true, .badSelector) :: h.check .lookahead [(b, .w32), (e, .w32)])
  | .mxzero h _ | .mxflush h _ => f32Check h .plain []
  | .mxread h t _ _ b =>
    firstReject ((t == .f32 || t == .f16 || t == .bf16 || t == .i32, .undefinedFn) :: h.check .plain [(b, .w32)])
  | .rand h _ a b => firstReject (h.check .plain [(a, .w64), (b, .w64)])
  -- queue words (R327)
  | .qbr _ _ imm => firstReject [(imm != 0, .badImmediate)]
  | .qloop _ n len => firstReject [(decide (1 ≤ n.toNat ∧ n.toNat ≤ 64), .badImmediate), (len != 0, .badImmediate)]
  | .qcopy _ _ _ _ n => firstReject [(n.toNat % 4 == 0, .badImmediate)]
  | .qfail code => firstReject [(code != 0, .badImmediate)]
  | _ => none

end Sys2Proof
end

