-- ==== Sys2Proof/WellFormed.lean ====
section
/-! DEFINITION. Well-formed instructions: those whose operands break no rule of their form. -/

namespace Sys2Proof

/-- A word meets every operand rule of its form (`Instr.check` names the rule otherwise). -/
abbrev Instr.WellFormed (i : Instr) : Prop := i.check = none

end Sys2Proof
end

