-- ==== Sys2Proof/Decode.lean ====
section
/-! DEFINITION. Decoding and encoding of the three kinds of word: scalar words of 32 bits with the two immediate
slots of the SL format (R63 to R67), lane words of 96 bits with an extension slot (R68 to R75), and words of queue
programs of 64 bits (R327). Decoding is total and rejects by name; what it accepts is well formed. Words and
immediates are numbers here; bits are taken out by division, as R2 numbers them. -/

namespace Sys2Proof

/-- Bits `lo + n - 1 : lo` of a number. -/
def field (w lo n : Nat) : Nat := w / 2 ^ lo % 2 ^ n

/-! Code points of the enumerated fields -/

def Bt.code : Bt → Nat
  | .dyn => 0 | .fold => 1 | .static => 2

/-- Table FMT-7; 0b11 is ILLEGAL (R79). -/
def Bt.ofCode : Nat → Except Reject Bt
  | 0 => .ok .dyn | 1 => .ok .fold | 2 => .ok .static
  | _ => .error .badBindingTime

def Guard.code : Guard → Nat
  | .always => 7
  | .pos p => p.val
  | .neg p => 8 + p.val

/-- Table SCOPE-2, `Guard(g, l)`. -/
def Guard.ofCode (n : Nat) : Except Reject Guard :=
  if h : n < 7 then .ok (.pos ⟨n, h⟩)
  else if n = 7 then .ok .always
  else if h : n - 8 < 7 then .ok (.neg ⟨n - 8, h⟩)
  else .error .badGuard

def Sel.code : Sel → Nat
  | .v r => r.val
  | .k r => 0x100 + r.val
  | .inl n => 0x120 + n.val
  | .ext64 => 0x1FD
  | .ext32 => 0x1FE
  | .imm16 => 0x1FF

/-- Table FMT-3. -/
def Sel.ofCode (n : Nat) : Except Reject Sel :=
  if h : n < 256 then .ok (.v ⟨n, h⟩)
  else if h : n - 0x100 < 16 then .ok (.k ⟨n - 0x100, h⟩)
  else if n < 0x120 then .error .badSelector
  else if h : n - 0x120 < 32 then .ok (.inl ⟨n - 0x120, h⟩)
  else if n = 0x1FD then .ok .ext64
  else if n = 0x1FE then .ok .ext32
  else if n = 0x1FF then .ok .imm16
  else .error .badSelector

def LType.code : LType → Nat
  | .i8 => 0
  | .i16 => 1
  | .i32 => 2
  | .i64 => 3
  | .n8 => 4
  | .n16 => 5
  | .n32 => 6
  | .n64 => 7
  | .b32 => 8
  | .b64 => 9
  | .f32 => 10
  | .f16 => 11
  | .bf16 => 12
  | .e4m3 => 13
  | .e5m2 => 14
  | .e2m1 => 15
  | .i4 => 16
  | .dpt8 => 17

/-- Table ASM-10. -/
def LType.ofCode : Nat → Except Reject LType
  | 0 => .ok .i8
  | 1 => .ok .i16
  | 2 => .ok .i32
  | 3 => .ok .i64
  | 4 => .ok .n8
  | 5 => .ok .n16
  | 6 => .ok .n32
  | 7 => .ok .n64
  | 8 => .ok .b32
  | 9 => .ok .b64
  | 10 => .ok .f32
  | 11 => .ok .f16
  | 12 => .ok .bf16
  | 13 => .ok .e4m3
  | 14 => .ok .e5m2
  | 15 => .ok .e2m1
  | 16 => .ok .i4
  | 17 => .ok .dpt8
  | _ => .error .undefinedFn

def SCond.code : SCond → Nat
  | .eq => 0
  | .ne => 1
  | .lt => 2
  | .le => 3
  | .gt => 4
  | .ge => 5
  | .ltu => 6
  | .leu => 7
  | .gtu => 8
  | .geu => 9

/-- Conditions of `SCMP`, Table ASM-5. -/
def SCond.ofCode : Nat → Except Reject SCond
  | 0 => .ok .eq
  | 1 => .ok .ne
  | 2 => .ok .lt
  | 3 => .ok .le
  | 4 => .ok .gt
  | 5 => .ok .ge
  | 6 => .ok .ltu
  | 7 => .ok .leu
  | 8 => .ok .gtu
  | 9 => .ok .geu
  | _ => .error .undefinedFn

def ICond.code : ICond → Nat
  | .eq => 0
  | .ne => 1
  | .lt => 2
  | .le => 3
  | .gt => 4
  | .ge => 5

/-- Conditions of `ISETP`, Table ASM-9. -/
def ICond.ofCode : Nat → Except Reject ICond
  | 0 => .ok .eq
  | 1 => .ok .ne
  | 2 => .ok .lt
  | 3 => .ok .le
  | 4 => .ok .gt
  | 5 => .ok .ge
  | _ => .error .undefinedFn

def SetpTy.code : SetpTy → Nat
  | .i32 => 0
  | .n32 => 1
  | .i64 => 2
  | .n64 => 3
  | .i16 => 4
  | .n16 => 5
  | .i8 => 6
  | .n8 => 7

/-- Types of `ISETP`, Table ASM-9. -/
def SetpTy.ofCode : Nat → Except Reject SetpTy
  | 0 => .ok .i32
  | 1 => .ok .n32
  | 2 => .ok .i64
  | 3 => .ok .n64
  | 4 => .ok .i16
  | 5 => .ok .n16
  | 6 => .ok .i8
  | 7 => .ok .n8
  | _ => .error .undefinedFn

def FCond.code : FCond → Nat
  | .eq => 0
  | .ne => 1
  | .lt => 2
  | .le => 3
  | .gt => 4
  | .ge => 5
  | .num => 6
  | .nan => 7

/-- Conditions of `FSETP`, Table ASM-9. -/
def FCond.ofCode : Nat → Except Reject FCond
  | 0 => .ok .eq
  | 1 => .ok .ne
  | 2 => .ok .lt
  | 3 => .ok .le
  | 4 => .ok .gt
  | 5 => .ok .ge
  | 6 => .ok .num
  | 7 => .ok .nan
  | _ => .error .undefinedFn

def FTy.code : FTy → Nat
  | .f32 => 0
  | .f16 => 1
  | .bf16 => 2

/-- Types of `FSETP` and `FCLASS`, Table ASM-9. -/
def FTy.ofCode : Nat → Except Reject FTy
  | 0 => .ok .f32
  | 1 => .ok .f16
  | 2 => .ok .bf16
  | _ => .error .undefinedFn

def SSize.code : SSize → Nat
  | .n8 => 0
  | .n16 => 1
  | .n32 => 2
  | .b64 => 3
  | .i8 => 4
  | .i16 => 5
  | .i32 => 6

/-- Sizes of `SLD` and `SST`, R450. -/
def SSize.ofCode : Nat → Except Reject SSize
  | 0 => .ok .n8
  | 1 => .ok .n16
  | 2 => .ok .n32
  | 3 => .ok .b64
  | 4 => .ok .i8
  | 5 => .ok .i16
  | 6 => .ok .i32
  | _ => .error .undefinedFn

def MWidth.code : MWidth → Nat
  | .i8 => 0
  | .n8 => 1
  | .i16 => 2
  | .n16 => 3
  | .b32 => 4
  | .b64 => 5
  | .b128 => 6

/-- fn[2:0] of Table ASM-12. -/
def MWidth.ofCode : Nat → Except Reject MWidth
  | 0 => .ok .i8
  | 1 => .ok .n8
  | 2 => .ok .i16
  | 3 => .ok .n16
  | 4 => .ok .b32
  | 5 => .ok .b64
  | 6 => .ok .b128
  | _ => .error .undefinedFn

def AOp.code : AOp → Nat
  | .add => 0
  | .mins => 1
  | .maxs => 2
  | .minu => 3
  | .maxu => 4
  | .and => 5
  | .or => 6
  | .xor => 7
  | .xch => 8
  | .cas => 9
  | .fadd => 10

/-- Table ASM-11. -/
def AOp.ofCode : Nat → Except Reject AOp
  | 0 => .ok .add
  | 1 => .ok .mins
  | 2 => .ok .maxs
  | 3 => .ok .minu
  | 4 => .ok .maxu
  | 5 => .ok .and
  | 6 => .ok .or
  | 7 => .ok .xor
  | 8 => .ok .xch
  | 9 => .ok .cas
  | 10 => .ok .fadd
  | _ => .error .undefinedFn

def TlClass.code : TlClass → Nat
  | .ce => 0
  | .kv => 1
  | .co => 2
  | .mx => 3

/-- Classes of `WAITTL` and `TLGET`, Table ASM-5. -/
def TlClass.ofCode : Nat → Except Reject TlClass
  | 0 => .ok .ce
  | 1 => .ok .kv
  | 2 => .ok .co
  | 3 => .ok .mx
  | _ => .error .undefinedFn

def PathClass.code : PathClass → Nat
  | .gl => 0
  | .sl => 1
  | .st => 2
  | .rm => 3

/-- Paths of `WAITP`, Table ASM-9. -/
def PathClass.ofCode : Nat → Except Reject PathClass
  | 0 => .ok .gl
  | 1 => .ok .sl
  | 2 => .ok .st
  | 3 => .ok .rm
  | _ => .error .undefinedFn

def ShflMode.code : ShflMode → Nat
  | .idx => 0
  | .up => 1
  | .down => 2
  | .xor => 3

/-- Modes of `SHFL`, Table ASM-9. -/
def ShflMode.ofCode : Nat → Except Reject ShflMode
  | 0 => .ok .idx
  | 1 => .ok .up
  | 2 => .ok .down
  | 3 => .ok .xor
  | _ => .error .undefinedFn

def RedOp.code : RedOp → Nat
  | .add => 0
  | .min => 1
  | .max => 2
  | .and => 3
  | .or => 4
  | .xor => 5

/-- Operations of `REDUX` and `SCAN`, Table ASM-9. -/
def RedOp.ofCode : Nat → Except Reject RedOp
  | 0 => .ok .add
  | 1 => .ok .min
  | 2 => .ok .max
  | 3 => .ok .and
  | 4 => .ok .or
  | 5 => .ok .xor
  | _ => .error .undefinedFn

def VoteMode.code : VoteMode → Nat
  | .all => 0
  | .any => 1
  | .uni => 2
  | .ballot => 3

/-- Modes of `VOTE`, Table ASM-9. -/
def VoteMode.ofCode : Nat → Except Reject VoteMode
  | 0 => .ok .all
  | 1 => .ok .any
  | 2 => .ok .uni
  | 3 => .ok .ballot
  | _ => .error .undefinedFn

def QCond.code : QCond → Nat
  | .eq => 0
  | .ne => 1
  | .ltu => 2
  | .geu => 3
  | .lt => 4
  | .ge => 5

/-- Conditions of `QCMP`, Table HQ-7. -/
def QCond.ofCode : Nat → Except Reject QCond
  | 0 => .ok .eq
  | 1 => .ok .ne
  | 2 => .ok .ltu
  | 3 => .ok .geu
  | 4 => .ok .lt
  | 5 => .ok .ge
  | _ => .error .badImmediate

def AWidth.code : AWidth → Nat
  | .w32 => 0 | .w64 => 1

def AWidth.ofCode (n : Nat) : AWidth := if n = 0 then .w32 else .w64

def boolCode (b : Bool) : Nat := if b then 1 else 0
def boolOf (n : Nat) : Bool := n != 0

/-- A field that must be zero. -/
def zeroField (n : Nat) : Except Reject Unit := if n = 0 then .ok () else .error .reservedField

/-- The outcome of parsing, with the operand rules of `Instr.check` applied. -/
def checked (i : Instr) : Except Reject Instr :=
  match i.check with
  | none => .ok i
  | some r => .error r

def fin (n k : Nat) [NeZero k] : Fin k := Fin.ofNat k n

/-! Scalar formats (Table FMT-1) -/

def encSR (op bt d a b fn : Nat) : Nat := ((((op * 4 + bt) * 64 + d) * 64 + a) * 64 + b) * 64 + fn
def encSI (op bt d a imm : Nat) : Nat := (((op * 4 + bt) * 64 + d) * 64 + a) * 4096 + imm
def encSB (op bt cond a off : Nat) : Nat := (((op * 4 + bt) * 16 + cond) * 64 + a) * 16384 + off
def encSX (op bt fn a b c : Nat) : Nat := ((((op * 4 + bt) * 256 + fn) * 64 + a) * 64 + b) * 16 + c

/-- The fields of a scalar word in its four formats (Table FMT-1). -/
structure ScalarFields where
  d : Nat
  a : Nat
  b : Nat
  fn : Nat
  imm : Nat
  cond : Nat
  ba : Nat
  off : Nat
  xfn : Nat
  xa : Nat
  xb : Nat
  xc : Nat
  deriving DecidableEq, Repr

def scalarFields (w : Nat) : ScalarFields where
  d := field w 18 6
  a := field w 12 6
  b := field w 6 6
  fn := field w 0 6
  imm := field w 0 12
  cond := field w 20 4
  ba := field w 14 6
  off := field w 0 14
  xfn := field w 16 8
  xa := field w 10 6
  xb := field w 4 6
  xc := field w 0 4

def sreg (n : Nat) : SReg := fin n 64

def SOff.code (o : SOff) : Nat := o.delta.toNat * 32 + o.slot.val

def SOff.ofCode (n : Nat) : SOff := ⟨BitVec.ofNat 9 (n / 32), fin n 32⟩

/-- op 0x01: the register ALU forms, told apart by fn (Table ASM-6, R440). -/
def decodeAlu (bt : Bt) (f : ScalarFields) : Except Reject Instr :=
  let d := sreg f.d
  let a := sreg f.a
  let b := sreg f.b
  let uns := boolOf (field f.fn 4 1)
  let rem := boolOf (field f.fn 5 1)
  let plain (i : Instr) : Except Reject Instr := if f.fn < 16 then .ok i else .error .undefinedFn
  match f.fn % 16 with
  | 0 => plain (.saddReg bt d a b)
  | 1 => plain (.ssubReg bt d a b)
  | 2 => plain (.smulReg bt d a b)
  | 3 => .ok (.sdivReg bt uns rem d a b)
  | 4 => plain (.sandReg bt d a b)
  | 5 => plain (.sorReg bt d a b)
  | 6 => plain (.sxorReg bt d a b)
  | 7 => plain (.sshlReg bt d a b)
  | 8 => plain (.sshrReg bt d a b)
  | 9 => plain (.ssarReg bt d a b)
  | 10 => if rem then .error .undefinedFn else .ok (.sminReg bt uns d a b)
  | 11 => if rem then .error .undefinedFn else .ok (.smaxReg bt uns d a b)
  | _ => .error .undefinedFn

/-- op 0x39 and 0x3A: the grouped forms of Table ASM-7. -/
def decodeGroup39 (bt : Bt) (f : ScalarFields) : Except Reject Instr := do
  zeroField f.xc
  match f.xfn with
  | 0 => do zeroField f.xa; zeroField f.xb; .ok (.snop bt)
  | 1 => do zeroField f.xa; zeroField f.xb; .ok (.lsync bt)
  | 2 => do zeroField f.xa; zeroField f.xb; .ok (.yield bt)
  | 3 => do zeroField f.xa; zeroField f.xb; .ok (.exit bt)
  | 5 => do zeroField f.xa; zeroField f.xb; .ok (.brkpt bt)
  | 16 => do zeroField f.xa; zeroField f.xb; .ok (.fence bt)
  | 17 => do zeroField f.xa; zeroField f.xb; .ok (.fenceSys bt)
  | 18 => do zeroField f.xa; zeroField f.xb; .ok (.fenceSurv bt)
  | 4 => do zeroField f.xb; .ok (.sret bt (sreg f.xa))
  | 6 => do zeroField f.xa; .ok (.trap bt (fin f.xb 64))
  | _ => .error .undefinedFn

def decodeGroup3A (bt : Bt) (f : ScalarFields) : Except Reject Instr := do
  zeroField f.xc
  if bt ≠ .dyn then .error .badBindingTime else
  match f.xfn with
  | 0 => .ok (.hread (sreg f.xa) (sreg f.xb))
  | 1 => .ok (.hwrite (sreg f.xa) (sreg f.xb))
  | 2 => do zeroField f.xb; .ok (.hresume (sreg f.xa))
  | 3 => do zeroField f.xb; .ok (.hkill (sreg f.xa))
  | 4 => do zeroField f.xa; zeroField f.xb; .ok .hpark
  | 5 => do zeroField f.xa; zeroField f.xb; .ok .eret
  | _ => .error .undefinedFn

/-- The scalar word `w` with the 64-bit value of its two immediate slots, which only SL words read (Tables ASM-4,
ASM-5). -/
def decodeScalarOp (bt : Bt) (op imm64 : Nat) (f : ScalarFields) : Except Reject Instr :=
  let d := sreg f.d
  let a := sreg f.a
  let xa := sreg f.xa
  let xb := sreg f.xb
  let off := SOff.ofCode f.off
  match op with
  | 0x01 => decodeAlu bt f
  | 0x2 => .ok (.saddImm bt d a (BitVec.ofNat 12 f.imm))
  | 0x3 => .ok (.ssubImm bt d a (BitVec.ofNat 12 f.imm))
  | 0x4 => .ok (.smulImm bt d a (BitVec.ofNat 12 f.imm))
  | 0x5 => .ok (.sdivImm bt d a (BitVec.ofNat 12 f.imm))
  | 0x6 => .ok (.sandImm bt d a (BitVec.ofNat 12 f.imm))
  | 0x7 => .ok (.sorImm bt d a (BitVec.ofNat 12 f.imm))
  | 0x8 => .ok (.sxorImm bt d a (BitVec.ofNat 12 f.imm))
  | 0x9 => do zeroField f.b; .ok (.sshlImm bt d a (fin f.fn 64))
  | 0xa => do zeroField f.b; .ok (.sshrImm bt d a (fin f.fn 64))
  | 0xb => do zeroField f.b; .ok (.ssarImm bt d a (fin f.fn 64))
  | 0xc => .ok (.sminImm bt d a (BitVec.ofNat 12 f.imm))
  | 0xd => .ok (.smaxImm bt d a (BitVec.ofNat 12 f.imm))
  | 0x0E => do
    let c ← SCond.ofCode (f.xfn % 16)
    zeroField (f.xfn / 32)
    zeroField (f.xc / 8)
    if field f.xfn 4 1 = 1 then .ok (.scmpImm bt c xa (fin f.xb 64) (fin f.xc 8))
    else .ok (.scmp bt c xa xb (fin f.xc 8))
  | 0x0F => do zeroField (f.fn / 8); .ok (.ssel bt d a (sreg f.b) (fin f.fn 8))
  | 0x10 => do
    zeroField f.b
    match f.fn with
    | 0 => .ok (.smov bt d a)
    | 1 => do zeroField (f.a / 8); .ok (.smovFromC bt d (fin f.a 8))
    | 2 => do zeroField (f.d / 8); .ok (.smovToC bt (fin f.d 8) a)
    | _ => .error .undefinedFn
  | 0x11 => do zeroField f.imm; zeroField f.a; .ok (.sli bt d (BitVec.ofNat 64 imm64))
  | 0x12 => do .ok (.sld bt (← SSize.ofCode (f.imm % 8)) d a (BitVec.ofNat 9 (f.imm / 8)))
  | 0x13 => do .ok (.sst bt (← SSize.ofCode (f.imm % 8)) d a (BitVec.ofNat 9 (f.imm / 8)))
  | 0x14 => do
    zeroField (f.xfn % 8)
    .ok (.satom bt (← AOp.ofCode (f.xfn / 16)) (AWidth.ofCode (field f.xfn 3 1)) xa xb (fin f.xc 16))
  | 0x15 => do zeroField f.ba; .ok (.sbr bt (boolOf (f.cond / 8)) (fin f.cond 8) off)
  | 0x16 => do zeroField f.cond; zeroField f.ba; .ok (.sjmp bt off)
  | 0x17 => do zeroField f.d; zeroField f.a; zeroField f.imm; .ok (.sjmpFar bt (BitVec.ofNat 64 imm64))
  | 0x18 => do zeroField f.cond; .ok (.scall bt (sreg f.ba) off)
  | 0x19 => do zeroField f.a; zeroField f.imm; .ok (.scallFar bt d (BitVec.ofNat 64 imm64))
  | 0x1A => do zeroField f.cond; .ok (.sloop bt (sreg f.ba) off)
  | 0x1B => do zeroField f.d; .ok (.lrun bt a (BitVec.ofNat 12 f.imm))
  | 0x1C => do zeroField f.imm; zeroField (f.d / 16); .ok (.kset bt (fin f.d 16) a)
  | 0x1D => do zeroField f.imm; zeroField (f.a / 8); .ok (.yget bt d (fin f.a 8))
  | 0x1E => do zeroField f.a; zeroField (f.imm / 256); .ok (.srd bt d (BitVec.ofNat 8 f.imm))
  | 0x1F => do zeroField f.a; zeroField (f.imm / 256); .ok (.swr bt d (BitVec.ofNat 8 f.imm))
  | 0x20 => do zeroField f.d; zeroField f.imm; .ok (.setfmt bt a)
  | 0x21 => do
    zeroField (f.xfn / 4)
    zeroField f.xb
    zeroField f.xc
    .ok (.waittl bt (← TlClass.ofCode (f.xfn % 4)) xa)
  | 0x22 => do
    zeroField (f.xfn / 4)
    zeroField f.xa
    zeroField f.xc
    .ok (.tlget bt (← TlClass.ofCode (f.xfn % 4)) xb)
  | 0x23 => do zeroField f.xfn; zeroField f.xc; .ok (.cpy bt xa xb)
  | 0x24 => do zeroField f.xfn; zeroField f.xc; .ok (.gath bt xa xb)
  | 0x25 => do zeroField f.xfn; zeroField f.xc; .ok (.coll bt xa xb)
  | 0x26 => do zeroField f.xfn; zeroField f.xc; .ok (.kvalloc bt xa xb)
  | 0x27 => do zeroField f.xfn; zeroField f.xc; .ok (.kvref bt xa xb)
  | 0x28 => do zeroField f.xfn; zeroField f.xc; .ok (.kvunref bt xa xb)
  | 0x29 => do zeroField f.xfn; zeroField f.xc; .ok (.kvcow bt xa xb)
  | 0x2b => do zeroField f.xfn; zeroField f.xc; .ok (.kvsend bt xa xb)
  | 0x2e => do zeroField f.xfn; zeroField f.xc; .ok (.rqemit bt xa xb)
  | 0x2f => do zeroField f.xfn; zeroField f.xc; .ok (.barinit bt xa xb)
  | 0x31 => do zeroField f.xfn; zeroField f.xc; .ok (.barwait bt xa xb)
  | 0x32 => do zeroField f.xfn; zeroField f.xc; .ok (.barxpct bt xa xb)
  | 0x33 => do zeroField f.xfn; zeroField f.xc; .ok (.ringinit bt xa xb)
  | 0x36 => do zeroField f.xfn; zeroField f.xc; .ok (.spawn bt xa xb)
  | 0x37 => do zeroField f.xfn; zeroField f.xc; .ok (.join bt xa xb)
  | 0x38 => do zeroField f.xfn; zeroField f.xc; .ok (.pwrq bt xa xb)
  | 0x2a => do
    zeroField (f.xfn / 2)
    zeroField f.xc
    if f.xfn = 0 then .ok (.kvtierCi bt xa xb) else .ok (.kvtierAq bt xa xb)
  | 0x34 => do
    zeroField (f.xfn / 2)
    zeroField f.xc
    if f.xfn = 0 then .ok (.ringacqP bt xa xb) else .ok (.ringacqC bt xa xb)
  | 0x35 => do
    zeroField (f.xfn / 2)
    zeroField f.xc
    if f.xfn = 0 then .ok (.ringrelP bt xa xb) else .ok (.ringrelC bt xa xb)
  | 0x2c => do zeroField (f.xfn / 32); zeroField f.xc; .ok (.rqget bt (fin f.xfn 32) xa xb)
  | 0x2d => do zeroField (f.xfn / 32); zeroField f.xc; .ok (.rqset bt (fin f.xfn 32) xa xb)
  | 0x30 => do
    zeroField (f.xfn / 2)
    zeroField f.xb
    zeroField f.xc
    if f.xfn = 0 then .ok (.bararr bt xa) else .ok (.bararrDrop bt xa)
  | 0x39 => decodeGroup39 bt f
  | 0x3A => decodeGroup3A bt f
  | _ => .error .undefinedOp

/-- Decode a scalar word. -/
def decodeScalar (w imm64 : Nat) : Except Reject Instr := do
  let bt ← Bt.ofCode (field w 24 2)
  let i ← decodeScalarOp bt (field w 26 6) imm64 (scalarFields w)
  checked i

/-- A head word of the SL format, which the two immediate slots follow (R66). -/
def isSlWord (w : Nat) : Bool :=
  field w 26 6 == 0x11 || field w 26 6 == 0x17 || field w 26 6 == 0x19

/-- The word of a scalar instruction and the value of its immediate slots (zero where it has none). -/
def encodeScalar : Instr → Option (Nat × Nat)
  | .saddReg bt d a b => some (encSR 1 bt.code d a b 0, 0)
  | .ssubReg bt d a b => some (encSR 1 bt.code d a b 1, 0)
  | .smulReg bt d a b => some (encSR 1 bt.code d a b 2, 0)
  | .sdivReg bt u r d a b => some (encSR 1 bt.code d a b (3 + 16 * boolCode u + 32 * boolCode r), 0)
  | .sandReg bt d a b => some (encSR 1 bt.code d a b 4, 0)
  | .sorReg bt d a b => some (encSR 1 bt.code d a b 5, 0)
  | .sxorReg bt d a b => some (encSR 1 bt.code d a b 6, 0)
  | .sshlReg bt d a b => some (encSR 1 bt.code d a b 7, 0)
  | .sshrReg bt d a b => some (encSR 1 bt.code d a b 8, 0)
  | .ssarReg bt d a b => some (encSR 1 bt.code d a b 9, 0)
  | .sminReg bt u d a b => some (encSR 1 bt.code d a b (10 + 16 * boolCode u), 0)
  | .smaxReg bt u d a b => some (encSR 1 bt.code d a b (11 + 16 * boolCode u), 0)
  | .saddImm bt d a imm => some (encSI 0x2 bt.code d a imm.toNat, 0)
  | .ssubImm bt d a imm => some (encSI 0x3 bt.code d a imm.toNat, 0)
  | .smulImm bt d a imm => some (encSI 0x4 bt.code d a imm.toNat, 0)
  | .sdivImm bt d a imm => some (encSI 0x5 bt.code d a imm.toNat, 0)
  | .sandImm bt d a imm => some (encSI 0x6 bt.code d a imm.toNat, 0)
  | .sorImm bt d a imm => some (encSI 0x7 bt.code d a imm.toNat, 0)
  | .sxorImm bt d a imm => some (encSI 0x8 bt.code d a imm.toNat, 0)
  | .sshlImm bt d a n => some (encSI 0x9 bt.code d a n, 0)
  | .sshrImm bt d a n => some (encSI 0xa bt.code d a n, 0)
  | .ssarImm bt d a n => some (encSI 0xb bt.code d a n, 0)
  | .sminImm bt d a imm => some (encSI 0xc bt.code d a imm.toNat, 0)
  | .smaxImm bt d a imm => some (encSI 0xd bt.code d a imm.toNat, 0)
  | .scmp bt cond a b c => some (encSX 0x0E bt.code cond.code a b c, 0)
  | .scmpImm bt cond a i c => some (encSX 0x0E bt.code (16 + cond.code) a i c, 0)
  | .ssel bt d a b c => some (encSR 0x0F bt.code d a b c, 0)
  | .smov bt d a => some (encSR 0x10 bt.code d a 0 0, 0)
  | .smovFromC bt d c => some (encSR 0x10 bt.code d c 0 1, 0)
  | .smovToC bt c a => some (encSR 0x10 bt.code c a 0 2, 0)
  | .sli bt d imm => some (encSR 0x11 bt.code d 0 0 0, imm.toNat)
  | .sld bt sz d a off => some (encSI 0x12 bt.code d a (off.toNat * 8 + sz.code), 0)
  | .sst bt sz d a off => some (encSI 0x13 bt.code d a (off.toNat * 8 + sz.code), 0)
  | .satom bt op wd a b c => some (encSX 0x14 bt.code (op.code * 16 + wd.code * 8) a b c, 0)
  | .sbr bt inv c off => some (encSB 0x15 bt.code (boolCode inv * 8 + c) 0 off.code, 0)
  | .sjmp bt off => some (encSB 0x16 bt.code 0 0 off.code, 0)
  | .sjmpFar bt imm => some (encSR 0x17 bt.code 0 0 0 0, imm.toNat)
  | .scall bt l off => some (encSB 0x18 bt.code 0 l off.code, 0)
  | .scallFar bt l imm => some (encSR 0x19 bt.code l 0 0 0, imm.toNat)
  | .sloop bt a off => some (encSB 0x1A bt.code 0 a off.code, 0)
  | .lrun bt a imm => some (encSI 0x1B bt.code 0 a imm.toNat, 0)
  | .kset bt k a => some (encSR 0x1C bt.code k a 0 0, 0)
  | .yget bt d y => some (encSR 0x1D bt.code d y 0 0, 0)
  | .srd bt d idx => some (encSI 0x1E bt.code d 0 idx.toNat, 0)
  | .swr bt d idx => some (encSI 0x1F bt.code d 0 idx.toNat, 0)
  | .setfmt bt a => some (encSR 0x20 bt.code 0 a 0 0, 0)
  | .waittl bt cls a => some (encSX 0x21 bt.code cls.code a 0 0, 0)
  | .tlget bt cls b => some (encSX 0x22 bt.code cls.code 0 b 0, 0)
  | .cpy bt a b => some (encSX 0x23 bt.code 0 a b 0, 0)
  | .gath bt a b => some (encSX 0x24 bt.code 0 a b 0, 0)
  | .coll bt a b => some (encSX 0x25 bt.code 0 a b 0, 0)
  | .kvalloc bt a b => some (encSX 0x26 bt.code 0 a b 0, 0)
  | .kvref bt a b => some (encSX 0x27 bt.code 0 a b 0, 0)
  | .kvunref bt a b => some (encSX 0x28 bt.code 0 a b 0, 0)
  | .kvcow bt a b => some (encSX 0x29 bt.code 0 a b 0, 0)
  | .kvsend bt a b => some (encSX 0x2b bt.code 0 a b 0, 0)
  | .rqemit bt a b => some (encSX 0x2e bt.code 0 a b 0, 0)
  | .barinit bt a b => some (encSX 0x2f bt.code 0 a b 0, 0)
  | .barwait bt a b => some (encSX 0x31 bt.code 0 a b 0, 0)
  | .barxpct bt a b => some (encSX 0x32 bt.code 0 a b 0, 0)
  | .ringinit bt a b => some (encSX 0x33 bt.code 0 a b 0, 0)
  | .spawn bt a b => some (encSX 0x36 bt.code 0 a b 0, 0)
  | .join bt a b => some (encSX 0x37 bt.code 0 a b 0, 0)
  | .pwrq bt a b => some (encSX 0x38 bt.code 0 a b 0, 0)
  | .kvtierCi bt a b => some (encSX 0x2a bt.code 0 a b 0, 0)
  | .kvtierAq bt a b => some (encSX 0x2a bt.code 1 a b 0, 0)
  | .ringacqP bt a b => some (encSX 0x34 bt.code 0 a b 0, 0)
  | .ringacqC bt a b => some (encSX 0x34 bt.code 1 a b 0, 0)
  | .ringrelP bt a b => some (encSX 0x35 bt.code 0 a b 0, 0)
  | .ringrelC bt a b => some (encSX 0x35 bt.code 1 a b 0, 0)
  | .rqget bt wd a b => some (encSX 0x2c bt.code wd a b 0, 0)
  | .rqset bt wd a b => some (encSX 0x2d bt.code wd a b 0, 0)
  | .bararr bt a => some (encSX 0x30 bt.code 0 a 0 0, 0)
  | .bararrDrop bt a => some (encSX 0x30 bt.code 1 a 0 0, 0)
  | .snop bt => some (encSX 0x39 bt.code 0 0 0 0, 0)
  | .lsync bt => some (encSX 0x39 bt.code 1 0 0 0, 0)
  | .yield bt => some (encSX 0x39 bt.code 2 0 0 0, 0)
  | .exit bt => some (encSX 0x39 bt.code 3 0 0 0, 0)
  | .brkpt bt => some (encSX 0x39 bt.code 5 0 0 0, 0)
  | .fence bt => some (encSX 0x39 bt.code 16 0 0 0, 0)
  | .fenceSys bt => some (encSX 0x39 bt.code 17 0 0 0, 0)
  | .fenceSurv bt => some (encSX 0x39 bt.code 18 0 0 0, 0)
  | .sret bt a => some (encSX 0x39 bt.code 4 a 0 0, 0)
  | .trap bt code => some (encSX 0x39 bt.code 6 0 code 0, 0)
  | .hread a b => some (encSX 0x3A 0 0 a b 0, 0)
  | .hwrite a b => some (encSX 0x3A 0 1 a b 0, 0)
  | .hresume a => some (encSX 0x3A 0 2 a 0 0, 0)
  | .hkill a => some (encSX 0x3A 0 3 a 0 0, 0)
  | .hpark => some (encSX 0x3A 0 4 0 0 0, 0)
  | .eret => some (encSX 0x3A 0 5 0 0 0, 0)
  | _ => none

/-! Lane words (Table FMT-2) -/

/-- The fields of a lane word that its form uses, beside the header. -/
structure LaneFields where
  d : Nat
  a : Nat
  b : Nat
  c : Nat
  e : Nat
  fn : Nat
  imm : Nat
  deriving DecidableEq, Repr

def laneFields (w : Nat) : LaneFields where
  d := field w 58 8
  a := field w 49 9
  b := field w 40 9
  c := field w 31 9
  e := field w 22 9
  fn := field w 16 6
  imm := field w 0 16

def laneOp (w : Nat) : Nat := field w 88 8

/-- Header of a lane word; `own` says that imm16 is a field of the form, so that the header holds none. -/
def laneHdr (w ext : Nat) (own : Bool) : Except Reject LaneHdr := do
  let bt ← Bt.ofCode (field w 86 2)
  let ga ← Guard.ofCode (field w 82 4)
  let gb ← Guard.ofCode (field w 78 4)
  if field w 74 4 < 5 then
    .ok { bt := bt, ga := ga, gb := gb, ch := fin (field w 74 4) 5, la := fin (field w 70 4) 16, sc := fin (field w 66 4) 16,
          imm := if own then 0 else BitVec.ofNat 16 (field w 0 16), ext := BitVec.ofNat 64 ext }
  else .error .badCacheHint

/-- The ops whose imm16 is a field of their own (Table ASM-9). -/
def ownImmOp (op : Nat) : Bool :=
  op == 0x0F || op == 0x13 || op == 0x14 || op == 0x17 || op == 0x26 || op == 0x2B || op == 0x2D || op == 0x41 ||
  op == 0x44 || op == 0x46 || op == 0x47 || op == 0x4C || op == 0x50 || op == 0x54 ||
  (decide (0x60 ≤ op) && decide (op ≤ 0x6C)) || op == 0x6E

def vreg (n : Nat) : VReg := fin n 256

/-- A predicate destination: D[7:3] reserved and D[2:0] below 7 (R71). -/
def predDest (n : Nat) : Except Reject PReg :=
  if h : n < 7 then .ok ⟨n, h⟩ else .error .badRegister

/-- Predicate source in imm16[3:0]; the bits above are reserved. -/
def predSel (imm : Nat) : Except Reject PSel := do
  zeroField (imm / 16)
  if h : imm % 8 < 7 then .ok ⟨⟨imm % 8, h⟩, boolOf (imm / 8)⟩ else .error .badRegister

def PSel.code (q : PSel) : Nat := q.p.val + 8 * boolCode q.inv

/-- fn of Table ASM-12; `store` selects the tag modes of the store forms. -/
def TagMode.ofCode (store : Bool) : Nat → Except Reject TagMode
  | 0 => .ok .none
  | 1 => .ok (if store then .e else .f)
  | 2 => if store then .error .undefinedFn else .ok .fk
  | _ => .error .undefinedFn

def TagMode.code : TagMode → Nat
  | .none => 0 | .f => 1 | .e => 1 | .fk => 2

def MemFn.ofCode (store : Bool) (fn : Nat) : Except Reject MemFn := do
  let wd ← MWidth.ofCode (fn % 8)
  let tag ← TagMode.ofCode store (fn / 16)
  .ok ⟨wd, boolOf (fn / 8 % 2), tag⟩

def MemFn.code (fn : MemFn) : Nat := fn.width.code + 8 * boolCode fn.atomic + 16 * fn.tag.code

/-- Position and length of the bit-field forms (R351). -/
def BfPos.ofFields (v : Bool) (f : LaneFields) : Except Reject BfPos := do
  if v then
    zeroField f.imm
    .ok (.var (← Sel.ofCode f.b))
  else
    zeroField f.b
    zeroField (f.imm / 2048)
    if h : f.imm / 32 % 64 < 33 then .ok (.fixed (fin f.imm 32) ⟨f.imm / 32 % 64, h⟩) else .error .badImmediate

def BfPos.immCode : BfPos → Nat
  | .fixed p l => p.val + 32 * l.val
  | .var _ => 0

def BfPos.bCode : BfPos → Nat
  | .fixed _ _ => 0
  | .var b => b.code

def BfPos.isVar : BfPos → Bool
  | .fixed _ _ => false
  | .var _ => true

/-- Type code fn[4:0] and modifier fn[5] (R109). -/
def typeM (fn : Nat) : Except Reject (LType × Bool) := do
  .ok (← LType.ofCode (fn % 32), boolOf (fn / 32))

def typeOnly (fn : Nat) : Except Reject LType := do
  if fn < 32 then LType.ofCode fn else .error .undefinedFn

/-- fn fixed by the form. -/
def fnIs (fn k : Nat) : Except Reject Unit := if fn = k then .ok () else .error .undefinedFn
def fnBelow (fn k : Nat) : Except Reject Unit := if fn < k then .ok () else .error .undefinedFn

def FTy.typeCode : FTy → Nat
  | .f32 => 10 | .f16 => 11 | .bf16 => 12

def FTy.ofTypeCode : Nat → Except Reject FTy
  | 10 => .ok .f32 | 11 => .ok .f16 | 12 => .ok .bf16
  | _ => .error .undefinedFn

/-- A selector that must be a k register. -/
def kSel (n : Nat) : Except Reject KReg :=
  if h : n - 0x100 < 16 then if 0x100 ≤ n then .ok ⟨n - 0x100, h⟩ else .error .badSelector
  else .error .badSelector

def LCallTgt.fnCode : LCallTgt → Nat
  | .near _ => 0
  | .far _ => 1
def LCallTgt.aCode : LCallTgt → Nat
  | .near _ => 0
  | .far k => 0x100 + k.val
def LCallTgt.immCode : LCallTgt → Nat
  | .near x => x.toNat
  | .far _ => 0

def mxflushFn : Option KReg → Nat
  | some _ => 0
  | none => 1
def mxflushA : Option KReg → Nat
  | some k => 0x100 + k.val
  | none => 0

/-- Decode a lane word by its op (Tables ASM-8, ASM-9). -/
def decodeLaneOp (op : Nat) (h : LaneHdr) (f : LaneFields) : Except Reject Instr :=
  let d := vreg f.d
  match op with
  | 0x01 => do
    let (t, m) ← typeM f.fn
    zeroField f.c
    zeroField f.e
    .ok (.iadd h t m d (← Sel.ofCode f.a) (← Sel.ofCode f.b))
  | 0x02 => do
    let (t, m) ← typeM f.fn
    zeroField f.c
    zeroField f.e
    .ok (.isub h t m d (← Sel.ofCode f.a) (← Sel.ofCode f.b))
  | 0x03 => do
    let (t, m) ← typeM f.fn
    zeroField f.c
    zeroField f.e
    .ok (.imul h t m d (← Sel.ofCode f.a) (← Sel.ofCode f.b))
  | 0x04 => do
    let (t, m) ← typeM f.fn
    zeroField f.e
    .ok (.imad h t m d (← Sel.ofCode f.a) (← Sel.ofCode f.b) (← Sel.ofCode f.c))
  | 0x05 => do
    let t ← typeOnly f.fn
    zeroField f.c
    zeroField f.e
    .ok (.imin h t d (← Sel.ofCode f.a) (← Sel.ofCode f.b))
  | 0x06 => do
    let t ← typeOnly f.fn
    zeroField f.c
    zeroField f.e
    .ok (.imax h t d (← Sel.ofCode f.a) (← Sel.ofCode f.b))
  | 0x07 => do
    let (t, m) ← typeM f.fn
    zeroField f.b
    zeroField f.c
    zeroField f.e
    .ok (.iabs h t m d (← Sel.ofCode f.a))
  | 0x08 => do
    let (t, m) ← typeM f.fn
    zeroField f.b
    zeroField f.c
    zeroField f.e
    .ok (.ineg h t m d (← Sel.ofCode f.a))
  | 0x09 => do
    let (t, m) ← typeM f.fn
    zeroField f.c
    zeroField f.e
    .ok (.shl h t m d (← Sel.ofCode f.a) (← Sel.ofCode f.b))
  | 0x0A => do
    let (t, m) ← typeM f.fn
    zeroField f.c
    zeroField f.e
    .ok (.shr h t m d (← Sel.ofCode f.a) (← Sel.ofCode f.b))
  | 0x0B => do
    let (t, m) ← typeM f.fn
    zeroField f.c
    zeroField f.e
    .ok (.sar h t m d (← Sel.ofCode f.a) (← Sel.ofCode f.b))
  | 0x0C => do
    let t ← typeOnly f.fn
    zeroField f.c
    zeroField f.e
    .ok (.and h t d (← Sel.ofCode f.a) (← Sel.ofCode f.b))
  | 0x0D => do
    let t ← typeOnly f.fn
    zeroField f.c
    zeroField f.e
    .ok (.or h t d (← Sel.ofCode f.a) (← Sel.ofCode f.b))
  | 0x0E => do
    let t ← typeOnly f.fn
    zeroField f.c
    zeroField f.e
    .ok (.xor h t d (← Sel.ofCode f.a) (← Sel.ofCode f.b))
  | 0x0F => do
    let t ← typeOnly f.fn
    zeroField f.e
    zeroField (f.imm / 256)
    .ok (.logic h t (fin f.imm 8) (fin (f.imm / 8) 8) (boolOf (f.imm / 64 % 2)) (boolOf (f.imm / 128)) d (← Sel.ofCode f.a) (← Sel.ofCode f.b) (← Sel.ofCode f.c))
  | 0x10 => do
    let t ← typeOnly f.fn
    zeroField f.b
    zeroField f.c
    zeroField f.e
    .ok (.popc h t d (← Sel.ofCode f.a))
  | 0x11 => do
    let t ← typeOnly f.fn
    zeroField f.b
    zeroField f.c
    zeroField f.e
    .ok (.clz h t d (← Sel.ofCode f.a))
  | 0x12 => do
    let t ← typeOnly f.fn
    zeroField f.b
    zeroField f.c
    zeroField f.e
    .ok (.brev h t d (← Sel.ofCode f.a))
  | 0x13 => do
    let (t, v) ← typeM f.fn
    zeroField f.c
    zeroField f.e
    .ok (.bfe h t (← BfPos.ofFields v f) d (← Sel.ofCode f.a))
  | 0x14 => do
    let (t, v) ← typeM f.fn
    zeroField f.e
    if t = .b32 then .ok (.bfi h (← BfPos.ofFields v f) d (← Sel.ofCode f.a) (← Sel.ofCode f.c)) else .error .undefinedFn
  | 0x15 => do
    fnIs f.fn 8
    zeroField f.e
    .ok (.prmt h d (← Sel.ofCode f.a) (← Sel.ofCode f.b) (← Sel.ofCode f.c))
  | 0x16 => do
    zeroField f.c
    zeroField f.e
    .ok (.isetp h (← SetpTy.ofCode (f.fn % 8)) (← ICond.ofCode (f.fn / 8)) (← predDest f.d) (← Sel.ofCode f.a) (← Sel.ofCode f.b))
  | 0x17 => do
    let t ← typeOnly f.fn
    zeroField f.c
    zeroField f.e
    .ok (.sel h t (← predSel f.imm) d (← Sel.ofCode f.a) (← Sel.ofCode f.b))
  | 0x18 => do
    let (t, m) ← typeM f.fn
    zeroField f.e
    .ok (.idot4 h t m d (← Sel.ofCode f.a) (← Sel.ofCode f.b) (← Sel.ofCode f.c))
  | 0x20 => do fnIs f.fn 10; zeroField f.c; zeroField f.e; .ok (.fadd h d (← Sel.ofCode f.a) (← Sel.ofCode f.b))
  | 0x21 => do fnIs f.fn 10; zeroField f.c; zeroField f.e; .ok (.fmul h d (← Sel.ofCode f.a) (← Sel.ofCode f.b))
  | 0x22 => do
    fnIs f.fn 10
    zeroField f.e
    .ok (.ffma h d (← Sel.ofCode f.a) (← Sel.ofCode f.b) (← Sel.ofCode f.c))
  | 0x23 => do
    let (t, m) ← typeM f.fn
    zeroField f.c
    zeroField f.e
    if t = .f32 then .ok (.fmin h m d (← Sel.ofCode f.a) (← Sel.ofCode f.b)) else .error .undefinedFn
  | 0x24 => do
    let (t, m) ← typeM f.fn
    zeroField f.c
    zeroField f.e
    if t = .f32 then .ok (.fmax h m d (← Sel.ofCode f.a) (← Sel.ofCode f.b)) else .error .undefinedFn
  | 0x25 => do
    zeroField f.c
    zeroField f.e
    .ok (.fsetp h (← FTy.ofCode (f.fn % 8)) (← FCond.ofCode (f.fn / 8)) (← predDest f.d) (← Sel.ofCode f.a) (← Sel.ofCode f.b))
  | 0x26 => do
    fnBelow f.fn 8
    zeroField f.b
    zeroField f.c
    zeroField f.e
    zeroField (f.imm / 1024)
    .ok (.fclass h (← FTy.ofCode f.fn) (BitVec.ofNat 10 f.imm) (← predDest f.d) (← Sel.ofCode f.a))
  | 0x27 => do
    zeroField f.b
    zeroField f.c
    zeroField f.e
    .ok (.frnd h (← FTy.ofTypeCode (f.fn % 32)) (boolOf (f.fn / 32)) d (← Sel.ofCode f.a))
  | 0x28 => do
    zeroField f.c
    zeroField f.e
    .ok (.hadd2 h (← FTy.ofTypeCode f.fn) d (← Sel.ofCode f.a) (← Sel.ofCode f.b))
  | 0x29 => do
    zeroField f.c
    zeroField f.e
    .ok (.hmul2 h (← FTy.ofTypeCode f.fn) d (← Sel.ofCode f.a) (← Sel.ofCode f.b))
  | 0x2A => do
    zeroField f.e
    .ok (.hfma2 h (← FTy.ofTypeCode f.fn) d (← Sel.ofCode f.a) (← Sel.ofCode f.b) (← Sel.ofCode f.c))
  | 0x2B => do
    zeroField f.b
    zeroField f.c
    zeroField f.e
    zeroField (f.imm / 32)
    .ok (.cvt h (← typeOnly f.fn) (← LType.ofCode f.imm) d (← Sel.ofCode f.a))
  | 0x2C => do
    let t ← typeOnly f.fn
    .ok (.pack h t d (← Sel.ofCode f.a) (← Sel.ofCode f.b) (← Sel.ofCode f.c) (← Sel.ofCode f.e))
  | 0x2D => do
    let t ← typeOnly f.fn
    zeroField f.b
    zeroField f.c
    zeroField f.e
    zeroField (f.imm / 8)
    .ok (.unpk h t (fin f.imm 8) d (← Sel.ofCode f.a))
  | 0x30 => do fnIs f.fn 10; zeroField f.b; zeroField f.c; zeroField f.e; .ok (.rcp h d (← Sel.ofCode f.a))
  | 0x31 => do fnIs f.fn 10; zeroField f.b; zeroField f.c; zeroField f.e; .ok (.rsq h d (← Sel.ofCode f.a))
  | 0x32 => do fnIs f.fn 10; zeroField f.b; zeroField f.c; zeroField f.e; .ok (.sqrt h d (← Sel.ofCode f.a))
  | 0x33 => do fnIs f.fn 10; zeroField f.b; zeroField f.c; zeroField f.e; .ok (.ex2 h d (← Sel.ofCode f.a))
  | 0x34 => do fnIs f.fn 10; zeroField f.b; zeroField f.c; zeroField f.e; .ok (.lg2 h d (← Sel.ofCode f.a))
  | 0x35 => do fnIs f.fn 10; zeroField f.b; zeroField f.c; zeroField f.e; .ok (.sin h d (← Sel.ofCode f.a))
  | 0x36 => do fnIs f.fn 10; zeroField f.b; zeroField f.c; zeroField f.e; .ok (.cos h d (← Sel.ofCode f.a))
  | 0x37 => do fnIs f.fn 10; zeroField f.b; zeroField f.c; zeroField f.e; .ok (.tanh h d (← Sel.ofCode f.a))
  | 0x40 => do
    let t ← typeOnly f.fn
    zeroField f.b
    zeroField f.c
    zeroField f.e
    .ok (.mov h t d (← Sel.ofCode f.a))
  | 0x41 => do
    let t ← typeOnly f.fn
    zeroField f.c
    zeroField f.e
    zeroField (f.imm / 4)
    if f.a < 256 then .ok (.shfl h t (← ShflMode.ofCode f.imm) d (vreg f.a) (← Sel.ofCode f.b)) else .error .badSelector
  | 0x42 => do
    let t ← typeOnly f.fn
    zeroField f.c
    zeroField f.e
    if f.a < 256 then .ok (.bcast h t d (vreg f.a) (← Sel.ofCode f.b)) else .error .badSelector
  | 0x43 => do fnIs f.fn 0; zeroField f.a; zeroField f.b; zeroField f.c; zeroField f.e; .ok (.getl h d)
  | 0x44 => do
    fnBelow f.fn 4
    zeroField f.a
    zeroField f.b
    zeroField f.c
    zeroField f.e
    .ok (.vote h (← VoteMode.ofCode f.fn) (← predSel f.imm) d)
  | 0x45 => do
    let (t, m) ← typeM f.fn
    zeroField f.b
    zeroField f.c
    zeroField f.e
    .ok (.matchLanes h t m d (← Sel.ofCode f.a))
  | 0x46 => do
    let t ← typeOnly f.fn
    zeroField f.b
    zeroField f.c
    zeroField f.e
    zeroField (f.imm / 256)
    zeroField (f.imm / 8 % 2)
    .ok (.redux h t (← RedOp.ofCode (f.imm % 8)) (fin (f.imm / 16) 8) (boolOf (f.imm / 128)) d (← Sel.ofCode f.a))
  | 0x47 => do
    let (t, m) ← typeM f.fn
    zeroField f.b
    zeroField f.c
    zeroField f.e
    zeroField (f.imm / 8)
    .ok (.scan h t (← RedOp.ofCode f.imm) m d (← Sel.ofCode f.a))
  | 0x48 => do
    let (t, m) ← typeM f.fn
    zeroField f.c
    zeroField f.e
    .ok (.gsort h t m d (← Sel.ofCode f.a) (← Sel.ofCode f.b))
  | 0x49 => do
    fnIs f.fn 0
    zeroField f.a
    zeroField f.b
    zeroField f.c
    zeroField f.e
    .ok (.elect h (← predDest f.d))
  | 0x4A => do fnIs f.fn 0; zeroField f.a; zeroField f.b; zeroField f.c; zeroField f.e; .ok (.exmget h d)
  | 0x4B => do
    fnIs f.fn 0
    zeroField f.d
    zeroField f.b
    zeroField f.c
    zeroField f.e
    .ok (.exmset h (← Sel.ofCode f.a))
  | 0x4C => do
    fnIs f.fn 0
    zeroField f.a
    zeroField f.b
    zeroField f.c
    zeroField f.e
    zeroField (f.imm / 32)
    .ok (.regroup h d (fin f.imm 32))
  | 0x50 => do
    fnIs f.fn 0
    zeroField f.d
    zeroField f.a
    zeroField f.b
    let j := f.c * 512 + f.e
    .ok (.lbr h (BitVec.ofNat 12 (f.imm / 16)) (fin f.imm 16) (BitVec.ofNat 14 (j / 16)) (fin j 16))
  | 0x51 => do
    fnIs f.fn 0
    zeroField f.d
    zeroField f.a
    zeroField f.b
    zeroField f.c
    zeroField f.e
    .ok (.ljoin h)
  | 0x52 => do
    fnIs f.fn 0
    zeroField f.d
    zeroField f.a
    zeroField f.b
    zeroField f.c
    zeroField f.e
    .ok (.lend h)
  | 0x53 => do
    fnIs f.fn 0
    zeroField f.d
    zeroField f.a
    zeroField f.b
    zeroField f.c
    zeroField f.e
    .ok (.lnop h)
  | 0x54 => do
    fnBelow f.fn 2
    zeroField f.d
    zeroField f.b
    zeroField f.c
    zeroField f.e
    if f.fn = 0 then
      zeroField f.a
      .ok (.lcall h (.near (BitVec.ofNat 16 f.imm)))
    else
      zeroField f.imm
      match ← Sel.ofCode f.a with
      | .k r => .ok (.lcall h (.far r))
      | _ => .error .badSelector
  | 0x55 => do
    fnIs f.fn 0
    zeroField f.d
    zeroField f.a
    zeroField f.b
    zeroField f.c
    zeroField f.e
    .ok (.lret h)
  | 0x60 => do
    zeroField f.c
    zeroField f.e
    .ok (.ldg h (← MemFn.ofCode false f.fn) d (← Sel.ofCode f.a) (← Sel.ofCode f.b) (BitVec.ofNat 16 f.imm))
  | 0x61 => do
    zeroField f.d
    zeroField f.e
    .ok (.stg h (← MemFn.ofCode true f.fn) (← Sel.ofCode f.a) (← Sel.ofCode f.b) (← Sel.ofCode f.c) (BitVec.ofNat 16 f.imm))
  | 0x62 => do
    zeroField f.c
    zeroField f.e
    .ok (.lds h (← MemFn.ofCode false f.fn) d (← Sel.ofCode f.a) (← Sel.ofCode f.b) (BitVec.ofNat 16 f.imm))
  | 0x63 => do
    zeroField f.d
    zeroField f.e
    .ok (.sts h (← MemFn.ofCode true f.fn) (← Sel.ofCode f.a) (← Sel.ofCode f.b) (← Sel.ofCode f.c) (BitVec.ofNat 16 f.imm))
  | 0x64 => do
    zeroField f.c
    zeroField f.e
    .ok (.ldx h (← MemFn.ofCode false f.fn) d (← Sel.ofCode f.a) (← Sel.ofCode f.b) (BitVec.ofNat 16 f.imm))
  | 0x65 => do
    zeroField f.d
    zeroField f.e
    .ok (.stx h (← MemFn.ofCode true f.fn) (← Sel.ofCode f.a) (← Sel.ofCode f.b) (← Sel.ofCode f.c) (BitVec.ofNat 16 f.imm))
  | 0x66 => do
    zeroField f.c
    zeroField f.e
    .ok (.rld h (← MemFn.ofCode false f.fn) d (← Sel.ofCode f.a) (← Sel.ofCode f.b) (BitVec.ofNat 16 f.imm))
  | 0x67 => do
    zeroField f.d
    zeroField f.e
    .ok (.rst h (← MemFn.ofCode true f.fn) (← Sel.ofCode f.a) (← Sel.ofCode f.b) (← Sel.ofCode f.c) (BitVec.ofNat 16 f.imm))
  | 0x68 => do
    let aop ← AOp.ofCode (f.fn % 16)
    .ok (.ratom h aop (AWidth.ofCode (f.fn / 16 % 2)) (boolOf (f.fn / 32)) d (← Sel.ofCode f.a) (← Sel.ofCode f.b) (← Sel.ofCode f.c) (← Sel.ofCode f.e) (BitVec.ofNat 16 f.imm))
  | 0x69 => do
    let aop ← AOp.ofCode (f.fn % 16)
    .ok (.atom h aop (AWidth.ofCode (f.fn / 16 % 2)) (boolOf (f.fn / 32)) d (← Sel.ofCode f.a) (← Sel.ofCode f.b) (← Sel.ofCode f.c) (← Sel.ofCode f.e) (BitVec.ofNat 16 f.imm))
  | 0x6A => do
    fnBelow f.fn 32
    zeroField f.d
    zeroField f.e
    .ok (.red h (← AOp.ofCode (f.fn % 16)) (AWidth.ofCode (f.fn / 16)) (← Sel.ofCode f.a) (← Sel.ofCode f.b) (← Sel.ofCode f.c) (BitVec.ofNat 16 f.imm))
  | 0x6B => do
    fnBelow f.fn 2
    zeroField f.d
    zeroField f.c
    zeroField f.e
    .ok (.tagset h (boolOf f.fn) (← Sel.ofCode f.a) (← Sel.ofCode f.b) (BitVec.ofNat 16 f.imm))
  | 0x6C => do
    fnIs f.fn 0
    zeroField f.c
    zeroField f.e
    .ok (.tagget h d (← Sel.ofCode f.a) (← Sel.ofCode f.b) (BitVec.ofNat 16 f.imm))
  | 0x6D => do
    fnBelow f.fn 4
    zeroField f.d
    zeroField f.b
    zeroField f.c
    zeroField f.e
    .ok (.waitp h (← PathClass.ofCode f.fn) (← Sel.ofCode f.a))
  | 0x6E => do
    fnBelow f.fn 2
    zeroField f.d
    zeroField f.c
    zeroField f.e
    .ok (.pref h (boolOf f.fn) (← Sel.ofCode f.a) (← Sel.ofCode f.b) (BitVec.ofNat 16 f.imm))
  | 0x70 => do
    fnBelow f.fn 2
    zeroField f.d
    if f.a < 256 then .ok (.mma h (boolOf f.fn) (vreg f.a) (← Sel.ofCode f.b) (← kSel f.c) (← Sel.ofCode f.e)) else .error .badSelector
  | 0x71 => do
    fnIs f.fn 0
    zeroField f.d
    zeroField f.b
    zeroField f.c
    zeroField f.e
    .ok (.mxzero h (← kSel f.a))
  | 0x72 => do
    let t ← typeOnly f.fn
    zeroField f.c
    zeroField f.e
    .ok (.mxread h t d (← kSel f.a) (← Sel.ofCode f.b))
  | 0x73 => do
    fnBelow f.fn 2
    zeroField f.d
    zeroField f.b
    zeroField f.c
    zeroField f.e
    if f.fn = 0 then .ok (.mxflush h (some (← kSel f.a)))
    else if f.a = 0 then .ok (.mxflush h none) else .error .badSelector
  | 0x74 => do fnIs f.fn 0; zeroField f.c; zeroField f.e; .ok (.rand h d (← Sel.ofCode f.a) (← Sel.ofCode f.b))
  | _ => .error .undefinedOp

/-- Decode a lane word with the low 64 bits of its extension slot (zero where it has none). -/
def decodeLane (w ext : Nat) : Except Reject Instr := do
  let h ← laneHdr w ext (ownImmOp (laneOp w))
  let i ← decodeLaneOp (laneOp w) h (laneFields w)
  checked i

/-- A lane word that an extension slot follows: some selector field holds 0x1FD or 0x1FE (R75). `LBR` and `LCALL`
hold offsets in C and E, and no selector in a field that they leave zero. -/
def isDoubleSlot (w : Nat) : Bool :=
  let f := laneFields w
  let x (n : Nat) : Bool := n == 0x1FD || n == 0x1FE
  if laneOp w == 0x50 || laneOp w == 0x54 then x f.a || x f.b else x f.a || x f.b || x f.c || x f.e

/-- A lane word put together from its op, header and fields; imm16 holds the header's value or the form's own. -/
def encLane (op : Nat) (h : LaneHdr) (d a b c e fn imm : Nat) : Nat × Nat :=
  ((((((((((((((op * 4 + h.bt.code) * 16 + h.ga.code) * 16 + h.gb.code) * 16 + h.ch.val) * 16 + h.la.val) * 16 + h.sc.val)
    * 256 + d) * 512 + a) * 512 + b) * 512 + c) * 512 + e) * 64 + fn) * 65536 + (if ownImmOp op then imm else h.imm.toNat)),
    h.ext.toNat)

/-- The word of a lane instruction and its extension slot (zero where it has none). -/
def encodeLane : Instr → Option (Nat × Nat)
  | .iadd h t sat d a b => some (encLane 0x01 h d a.code b.code 0 0 (t.code + 32 * boolCode sat) 0)
  | .isub h t sat d a b => some (encLane 0x02 h d a.code b.code 0 0 (t.code + 32 * boolCode sat) 0)
  | .imul h t hi d a b => some (encLane 0x03 h d a.code b.code 0 0 (t.code + 32 * boolCode hi) 0)
  | .imad h t sat d a b c => some (encLane 0x04 h d a.code b.code c.code 0 (t.code + 32 * boolCode sat) 0)
  | .imin h t d a b => some (encLane 0x05 h d a.code b.code 0 0 t.code 0)
  | .imax h t d a b => some (encLane 0x06 h d a.code b.code 0 0 t.code 0)
  | .iabs h t sat d a => some (encLane 0x07 h d a.code 0 0 0 (t.code + 32 * boolCode sat) 0)
  | .ineg h t sat d a => some (encLane 0x08 h d a.code 0 0 0 (t.code + 32 * boolCode sat) 0)
  | .shl h t wrap d a b => some (encLane 0x09 h d a.code b.code 0 0 (t.code + 32 * boolCode wrap) 0)
  | .shr h t wrap d a b => some (encLane 0x0A h d a.code b.code 0 0 (t.code + 32 * boolCode wrap) 0)
  | .sar h t wrap d a b => some (encLane 0x0B h d a.code b.code 0 0 (t.code + 32 * boolCode wrap) 0)
  | .and h t d a b => some (encLane 0x0C h d a.code b.code 0 0 t.code 0)
  | .or h t d a b => some (encLane 0x0D h d a.code b.code 0 0 t.code 0)
  | .xor h t d a b => some (encLane 0x0E h d a.code b.code 0 0 t.code 0)
  | .logic h t g1 g2 inv sel d a b c => some (encLane 0x0F h d a.code b.code c.code 0 t.code (g1.val + 8 * g2.val + 64 * boolCode inv + 128 * boolCode sel))
  | .popc h t d a => some (encLane 0x10 h d a.code 0 0 0 t.code 0)
  | .clz h t d a => some (encLane 0x11 h d a.code 0 0 0 t.code 0)
  | .brev h t d a => some (encLane 0x12 h d a.code 0 0 0 t.code 0)
  | .bfe h t pos d a => some (encLane 0x13 h d a.code pos.bCode 0 0 (t.code + 32 * boolCode pos.isVar) pos.immCode)
  | .bfi h pos d a c => some (encLane 0x14 h d a.code pos.bCode c.code 0 (8 + 32 * boolCode pos.isVar) pos.immCode)
  | .prmt h d a b c => some (encLane 0x15 h d a.code b.code c.code 0 8 0)
  | .isetp h t cond d a b => some (encLane 0x16 h d a.code b.code 0 0 (t.code + 8 * cond.code) 0)
  | .sel h t q d a b => some (encLane 0x17 h d a.code b.code 0 0 t.code q.code)
  | .idot4 h t sat d a b c => some (encLane 0x18 h d a.code b.code c.code 0 (t.code + 32 * boolCode sat) 0)
  | .fadd h d a b => some (encLane 0x20 h d a.code b.code 0 0 10 0)
  | .fmul h d a b => some (encLane 0x21 h d a.code b.code 0 0 10 0)
  | .ffma h d a b c => some (encLane 0x22 h d a.code b.code c.code 0 10 0)
  | .fmin h nan d a b => some (encLane 0x23 h d a.code b.code 0 0 (10 + 32 * boolCode nan) 0)
  | .fmax h nan d a b => some (encLane 0x24 h d a.code b.code 0 0 (10 + 32 * boolCode nan) 0)
  | .fsetp h t cond d a b => some (encLane 0x25 h d a.code b.code 0 0 (t.code + 8 * cond.code) 0)
  | .fclass h t mask d a => some (encLane 0x26 h d a.code 0 0 0 t.code mask.toNat)
  | .frnd h t rtz d a => some (encLane 0x27 h d a.code 0 0 0 (t.typeCode + 32 * boolCode rtz) 0)
  | .hadd2 h t d a b => some (encLane 0x28 h d a.code b.code 0 0 t.typeCode 0)
  | .hmul2 h t d a b => some (encLane 0x29 h d a.code b.code 0 0 t.typeCode 0)
  | .hfma2 h t d a b c => some (encLane 0x2A h d a.code b.code c.code 0 t.typeCode 0)
  | .cvt h dst src d a => some (encLane 0x2B h d a.code 0 0 0 dst.code src.code)
  | .pack h t d a b c e => some (encLane 0x2C h d a.code b.code c.code e.code t.code 0)
  | .unpk h t i d a => some (encLane 0x2D h d a.code 0 0 0 t.code i)
  | .rcp h d a => some (encLane 0x30 h d a.code 0 0 0 10 0)
  | .rsq h d a => some (encLane 0x31 h d a.code 0 0 0 10 0)
  | .sqrt h d a => some (encLane 0x32 h d a.code 0 0 0 10 0)
  | .ex2 h d a => some (encLane 0x33 h d a.code 0 0 0 10 0)
  | .lg2 h d a => some (encLane 0x34 h d a.code 0 0 0 10 0)
  | .sin h d a => some (encLane 0x35 h d a.code 0 0 0 10 0)
  | .cos h d a => some (encLane 0x36 h d a.code 0 0 0 10 0)
  | .tanh h d a => some (encLane 0x37 h d a.code 0 0 0 10 0)
  | .mov h t d a => some (encLane 0x40 h d a.code 0 0 0 t.code 0)
  | .shfl h t mode d a b => some (encLane 0x41 h d a b.code 0 0 t.code mode.code)
  | .bcast h t d a b => some (encLane 0x42 h d a b.code 0 0 t.code 0)
  | .getl h d => some (encLane 0x43 h d 0 0 0 0 0 0)
  | .vote h mode q d => some (encLane 0x44 h d 0 0 0 0 mode.code q.code)
  | .matchLanes h t all d a => some (encLane 0x45 h d a.code 0 0 0 (t.code + 32 * boolCode all) 0)
  | .redux h t op y wy d a => some (encLane 0x46 h d a.code 0 0 0 t.code (op.code + 16 * y.val + 128 * boolCode wy))
  | .scan h t op excl d a => some (encLane 0x47 h d a.code 0 0 0 (t.code + 32 * boolCode excl) op.code)
  | .gsort h t desc d a b => some (encLane 0x48 h d a.code b.code 0 0 (t.code + 32 * boolCode desc) 0)
  | .elect h d => some (encLane 0x49 h d 0 0 0 0 0 0)
  | .exmget h d => some (encLane 0x4A h d 0 0 0 0 0 0)
  | .exmset h a => some (encLane 0x4B h 0 a.code 0 0 0 0 0)
  | .regroup h d n => some (encLane 0x4C h d 0 0 0 0 0 n)
  | .lbr h td ts jd js => some (encLane 0x50 h 0 0 0 ((jd.toNat * 16 + js.val) / 512) ((jd.toNat * 16 + js.val) % 512) 0 (td.toNat * 16 + ts.val))
  | .ljoin h => some (encLane 0x51 h 0 0 0 0 0 0 0)
  | .lend h => some (encLane 0x52 h 0 0 0 0 0 0 0)
  | .lnop h => some (encLane 0x53 h 0 0 0 0 0 0 0)
  | .lcall h tgt => some (encLane 0x54 h 0 tgt.aCode 0 0 0 tgt.fnCode tgt.immCode)
  | .lret h => some (encLane 0x55 h 0 0 0 0 0 0 0)
  | .ldg h fn d a b off => some (encLane 0x60 h d a.code b.code 0 0 fn.code off.toNat)
  | .stg h fn a b c off => some (encLane 0x61 h 0 a.code b.code c.code 0 fn.code off.toNat)
  | .lds h fn d a b off => some (encLane 0x62 h d a.code b.code 0 0 fn.code off.toNat)
  | .sts h fn a b c off => some (encLane 0x63 h 0 a.code b.code c.code 0 fn.code off.toNat)
  | .ldx h fn d a b off => some (encLane 0x64 h d a.code b.code 0 0 fn.code off.toNat)
  | .stx h fn a b c off => some (encLane 0x65 h 0 a.code b.code c.code 0 fn.code off.toNat)
  | .rld h fn d a rank off => some (encLane 0x66 h d a.code rank.code 0 0 fn.code off.toNat)
  | .rst h fn a rank c off => some (encLane 0x67 h 0 a.code rank.code c.code 0 fn.code off.toNat)
  | .ratom h op wd nr d a rank c e off => some (encLane 0x68 h d a.code rank.code c.code e.code (op.code + 16 * wd.code + 32 * boolCode nr) off.toNat)
  | .atom h op wd nr d a b c e off => some (encLane 0x69 h d a.code b.code c.code e.code (op.code + 16 * wd.code + 32 * boolCode nr) off.toNat)
  | .red h op wd a b c off => some (encLane 0x6A h 0 a.code b.code c.code 0 (op.code + 16 * wd.code) off.toNat)
  | .tagset h full a b off => some (encLane 0x6B h 0 a.code b.code 0 0 (boolCode full) off.toNat)
  | .tagget h d a b off => some (encLane 0x6C h d a.code b.code 0 0 0 off.toNat)
  | .waitp h path a => some (encLane 0x6D h 0 a.code 0 0 0 path.code 0)
  | .pref h l2 a b off => some (encLane 0x6E h 0 a.code b.code 0 0 (boolCode l2) off.toNat)
  | .mma h s a b c e => some (encLane 0x70 h 0 a b.code (0x100 + c.val) e.code (boolCode s) 0)
  | .mxzero h k => some (encLane 0x71 h 0 (0x100 + k.val) 0 0 0 0 0)
  | .mxread h t d k b => some (encLane 0x72 h d (0x100 + k.val) b.code 0 0 t.code 0)
  | .mxflush h tile => some (encLane 0x73 h 0 (mxflushA tile) 0 0 0 (mxflushFn tile) 0)
  | .rand h d a b => some (encLane 0x74 h d a.code b.code 0 0 0 0)
  | _ => none

/-! Words of queue programs (R327, Table HQ-7). The fields a form does not use are not read. -/

def encQ (op d a b w i imm : Nat) : Nat :=
  (((((op * 16 + d) * 16 + a) * 16 + b) * 4 + w) * 2 + i) * 2 ^ 41 + imm

/-- Decode a word of a queue program. -/
def decodeQueue (w : Nat) : Except Reject Instr := do
  let d : QReg := fin (field w 52 4) 16
  let a : QReg := fin (field w 48 4) 16
  let b : QReg := fin (field w 44 4) 16
  let win : QWin := fin (field w 42 2) 4
  let ib := boolOf (field w 41 1)
  let imm := field w 0 32
  let immw := BitVec.ofNat 32 imm
  let v : QVal := if ib then .imm immw else .reg b
  zeroField (field w 32 9)
  match field w 56 8 with
  | 0x01 => checked (.qmovi d immw)
  | 0x02 => checked (.qld d win a immw)
  | 0x03 => checked (.qldw d win a immw)
  | 0x04 => checked (.qstw win a b immw)
  | 0x05 => checked (.qadd d a v)
  | 0x06 => checked (.qsub d a v)
  | 0x07 => checked (.qand d a v)
  | 0x08 => checked (.qor d a v)
  | 0x09 => checked (.qshl d a v)
  | 0x0A => checked (.qshr d a v)
  | 0x0B => if ib then .error .reservedField else do checked (.qcmp d a b (← QCond.ofCode (imm % 8)))
  | 0x0C => checked (.qbr a ib immw)
  | 0x0D => checked (.qloop d (BitVec.ofNat 8 imm) (BitVec.ofNat 8 (imm / 2 ^ 16)))
  | 0x0E => checked (.qlaunch d win a immw)
  | 0x0F => checked (.qcopy win d (fin (imm / 2 ^ 20) 4) a (BitVec.ofNat 16 imm))
  | 0x10 => checked (.qsignal win a b immw)
  | 0x11 => checked (.qwaitv win a b immw)
  | 0x12 => checked (.qcallf d win a (BitVec.ofNat 8 (imm / 2 ^ 24)) (BitVec.ofNat 24 imm))
  | 0x13 => checked (.qdone a)
  | 0x14 => checked (.qfail (BitVec.ofNat 8 imm))
  | _ => .error .undefinedOp

def QVal.bCode : QVal → Nat
  | .reg b => b.val
  | .imm _ => 0
def QVal.iCode : QVal → Nat
  | .reg _ => 0
  | .imm _ => 1
def QVal.immCode : QVal → Nat
  | .reg _ => 0
  | .imm x => x.toNat

/-- The word of a queue instruction. -/
def encodeQueue : Instr → Option Nat
  | .qmovi d imm => some (encQ 0x01 d 0 0 0 0 imm.toNat)
  | .qld d w a imm => some (encQ 0x02 d a 0 w 0 imm.toNat)
  | .qldw d w a imm => some (encQ 0x03 d a 0 w 0 imm.toNat)
  | .qstw w a b imm => some (encQ 0x04 0 a b w 0 imm.toNat)
  | .qadd d a v => some (encQ 0x05 d a v.bCode 0 v.iCode v.immCode)
  | .qsub d a v => some (encQ 0x06 d a v.bCode 0 v.iCode v.immCode)
  | .qand d a v => some (encQ 0x07 d a v.bCode 0 v.iCode v.immCode)
  | .qor d a v => some (encQ 0x08 d a v.bCode 0 v.iCode v.immCode)
  | .qshl d a v => some (encQ 0x09 d a v.bCode 0 v.iCode v.immCode)
  | .qshr d a v => some (encQ 0x0A d a v.bCode 0 v.iCode v.immCode)
  | .qcmp d a b cond => some (encQ 0x0B d a b 0 0 cond.code)
  | .qbr a always imm => some (encQ 0x0C 0 a 0 0 (boolCode always) imm.toNat)
  | .qloop d n len => some (encQ 0x0D d 0 0 0 0 (len.toNat * 2 ^ 16 + n.toNat))
  | .qlaunch d w a imm => some (encQ 0x0E d a 0 w 0 imm.toNat)
  | .qcopy w d w2 a n => some (encQ 0x0F d a 0 w 0 (w2.val * 2 ^ 20 + n.toNat))
  | .qsignal w a b imm => some (encQ 0x10 0 a b w 0 imm.toNat)
  | .qwaitv w a b imm => some (encQ 0x11 0 a b w 0 imm.toNat)
  | .qcallf d w a kind off => some (encQ 0x12 d a 0 w 0 (kind.toNat * 2 ^ 24 + off.toNat))
  | .qdone a => some (encQ 0x13 0 a 0 0 0 0)
  | .qfail code => some (encQ 0x14 0 0 0 0 0 code.toNat)
  | _ => none

/-- The instruction that the decoder reads from the bits of one opcode-table row: 32 bits are a scalar word (its
immediate slots zero), 96 bits a lane word (its extension slot zero), 64 bits a word of a queue program. -/
def decodeTableWord (nbits w : Nat) : Option Instr :=
  let r := if nbits = 32 then decodeScalar w 0 else if nbits = 96 then decodeLane w 0
    else if nbits = 64 then decodeQueue w else .error .undefinedOp
  match r with
  | .ok i => some i
  | .error _ => none

end Sys2Proof
end

