-- ==== Sys2Proof/Machine/Moves.lean ====
section
/-! DEFINITION. Places and moves: the names of teams and groups by where they stand, the stream that a word belongs
to, and the moves of which a run of the package is made (DESIGN CHOICE, log entry 1). -/

namespace Sys2Proof.Machine

/-- A team's place: core and team slot (R33, Table TRAP-3). -/
structure TRef where
  core : Nat
  slot : Nat
  deriving DecidableEq, Repr

/-- A group's place: core, team slot and GID. Slot 16 is the handler group slot of the core (R10). -/
structure GRef where
  core : Nat
  slot : Nat
  gid : Nat
  deriving DecidableEq, Repr

/-- The stream or queue that the present word belongs to. -/
inductive Who where
  | scalar (g : GRef)
  | lane (g : GRef)
  | queue (slot : Nat)
  deriving DecidableEq, Repr

/-- One move of the machine: a unit issues a word, or an agent of the device makes a step of its own. -/
inductive Move where
  | scalar (core quarter : Nat)
  | lane (core quarter : Nat)
  | handlerScalar (core : Nat)
  | handlerLane (core : Nat)
  | queueWord (slot : Nat)
  | event (i : Instr)
  deriving DecidableEq, Repr, Inhabited

end Sys2Proof.Machine
end

