-- ==== Sys2Proof/Config.lean ====
section
/-! DEFINITION. What the spec leaves open, as constants without a body: nothing can be proved of their values, so
every statement about the model holds whatever they are. -/

namespace Sys2Proof.Config

/-- A free choice of the device, one for every value of the model's counter (DESIGN CHOICE, log entry 2). -/
opaque free (tick : Nat) : Nat

/-- The move that the package makes next where the schedule lists none (DESIGN CHOICE, log entry 1). -/
opaque freeMove (tick : Nat) : Machine.Move

/-- How far a core's clock count stands from the package's (Table REF-7: not comparable between cores). -/
opaque cycleSkew (core : Nat) : Nat

/-- How many nanoseconds a core's TIMENS stands from the package clock, below 20 (Table REF-7). -/
opaque timeSkew (core : Nat) : Nat

/-- Which of the results that Table NUM-5 allows a special-function operation returns for an input: a fixed function
of the operation, the input bits and `sel`, which holds FTZ in bit 0 and the rounding mode above it for SIN, COS and
TANH, the operations whose row does not say that RM is ignored (R129; DESIGN CHOICE, log entry 12). -/
opaque sfuPick (op input sel : Nat) : Nat

/-- The channel of the HBM, of all stacks together, that holds a line: the spec does not map lines to channels (R341; log
entry 32). -/
opaque hbmChannel (line : Nat) : Nat

/-- The digest SHA3-512 of a byte string (R341): the spec names the function and does not define it (DESIGN CHOICE, log entry 13). -/
opaque sha3 (bytes : List Byte) : Nat

/-- Whether a signature of an image is accepted (R341; DESIGN CHOICE, log entry 13). -/
opaque signatureValid (image : List Byte) (signature : List Byte) : Bool

end Sys2Proof.Config
end

