-- ==== Sys2Proof/Machine/Store.lean ====
section
/-! DEFINITION. Sparse storage in one canonical form: pairs of a key and a word, keys strictly rising, no pair whose
word is zero. A key that is not listed reads zero (R172; DESIGN CHOICE, log entry 4). Memories, scratchpads, tags and register
files are all held so; finite maps from names to records are association lists. -/

namespace Sys2Proof

/-- A sparse map from numbers to words. -/
abbrev Store (w : Nat) := List (Nat × BitVec w)

namespace Machine

/-- The word at a key; zero where nothing is listed. -/
def sget {w : Nat} : Store w → Nat → BitVec w
  | [], _ => 0
  | (k, x) :: m, a => if k = a then x else sget m a

/-- The store without a key. -/
def sdel {w : Nat} : Store w → Nat → Store w
  | [], _ => []
  | (k, x) :: m, a => if k = a then sdel m a else (k, x) :: sdel m a

/-- Insert a pair before the first larger key. -/
def sins {w : Nat} : Store w → Nat → BitVec w → Store w
  | [], a, v => [(a, v)]
  | (k, x) :: m, a, v => if a < k then (a, v) :: (k, x) :: m else (k, x) :: sins m a v

/-- Write a word at a key, keeping the canonical form: zero is written by listing nothing. -/
def sset {w : Nat} (m : Store w) (a : Nat) (v : BitVec w) : Store w :=
  if v = 0 then sdel m a else sins (sdel m a) a v

/-- All keys are above a bound and strictly rising, and no word is zero. -/
def wfAbove {w : Nat} : Option Nat → Store w → Bool
  | _, [] => true
  | lo, (k, x) :: m => (match lo with | none => true | some l => decide (l < k)) && x != 0 && wfAbove (some k) m

/-- The canonical form. -/
def swf {w : Nat} (m : Store w) : Bool := wfAbove none m

/-- Remove the keys from `lo` to `lo + n - 1`. -/
def sclear {w : Nat} (m : Store w) (lo n : Nat) : Store w :=
  m.filter (fun p => p.1 < lo || lo + n ≤ p.1)

/-- The n bytes from a key on as one little-endian number (R2). -/
def sgetLE (m : Store 8) : Nat → Nat → Nat
  | _, 0 => 0
  | a, n + 1 => (sget m a).toNat + 256 * sgetLE m (a + 1) n

/-- Write n bytes of a number, lowest first. -/
def ssetLE (m : Store 8) : Nat → Nat → Nat → Store 8
  | _, 0, _ => m
  | a, n + 1, x => ssetLE (sset m a (BitVec.ofNat 8 x)) (a + 1) n (x / 256)

/-- A finite map as a list of pairs; the first pair of a key counts. -/
abbrev Assoc (κ α : Type) := List (κ × α)

def aget {κ α : Type} [DecidableEq κ] : Assoc κ α → κ → Option α
  | [], _ => none
  | (k, x) :: m, a => if k = a then some x else aget m a

/-- Put a value at a key: in place where the key is listed, else at the end. -/
def aput {κ α : Type} [DecidableEq κ] : Assoc κ α → κ → α → Assoc κ α
  | [], a, v => [(a, v)]
  | (k, x) :: m, a, v => if k = a then (a, v) :: m else (k, x) :: aput m a v

def adel {κ α : Type} [DecidableEq κ] (m : Assoc κ α) (a : κ) : Assoc κ α := m.filter (fun p => !(decide (p.1 = a)))

end Machine

/-- Device memory: bytes by physical address (R154). -/
abbrev Memory := List Host.Cell

/-- Device memory is in its canonical form. -/
def Memory.wf (m : Memory) : Bool := Machine.swf (w := 8) m

end Sys2Proof
end

