-- ==== Sys2Proof/Machine/State.lean ====
section
/-! DEFINITION. The state of the package as plain data: everything the spec gives the machine, the reasons a step can
stop, and the state after reset. Word-sized contents are bit vectors; counts, identifiers and addresses used as keys
are numbers; register files, memories and tags are sparse stores whose unlisted keys read zero. -/

namespace Sys2Proof.Machine

/-- Why a step of the model stops. -/
inductive Fault where
  /-- Raised by every meaning of a word when `cur` names no stream or queue that could run it: no such step exists in
  the machine (safe). -/
  | noStream
  deriving DecidableEq, Repr

/-- Why the model has no meaning for an instruction. -/
inductive Refusal where
  /-- Raised by `exec` for a constructor that has no meaning yet, with its mnemonic (safe). -/
  | notModelled (mnemonic : String)
  deriving DecidableEq, Repr

/-- Roles of groups (R25). -/
inductive Role where
  | copy | matrix | vector | control
  deriving DecidableEq, Repr

/-- Trap causes (Table TRAP-1). -/
inductive Cause where
  | hold | illegal | control | role | convergence | translation | protection | alignment | accumulator
  | tagWatchdog | watchpoint | breakpoint | trapInsn | quota | stack | remote | check
  deriving DecidableEq, Repr

/-- A trap as its registers show it (R269, Table TRAP-2). -/
structure Trap where
  cause : Cause
  info : W32
  eng : Bool
  ln : Bool
  addr : W64
  lanes : W32
  orig : W64
  deriving DecidableEq, Repr

/-! Groups -/

/-- Kinds of reconvergence-stack entries (R45). -/
inductive StackKind where
  | diverge | call | regroup
  deriving DecidableEq, Repr

/-- A reconvergence-stack entry (R45, R403). -/
structure StackEntry where
  kind : StackKind
  mask : W32
  lpc : W64
  fmt : W32
  pnd : Bool
  deriving DecidableEq, Repr

/-- A lane-queue entry: target and snapshot (R37). -/
structure LaneEntry where
  target : W64
  k : Store 64
  fmt : W32
  exm : W32
  deriving DecidableEq, Repr

/-- The block the lane stream is running: its snapshot and the stack depth at its start (R37, R40). -/
structure Run where
  k : Store 64
  depth : Nat
  deriving DecidableEq, Repr

/-- What a stream waits for (R214, Table OBS-3): each wait with what its end needs to know. -/
inductive Wait where
  /-- Blocks enqueued so far must have ended: `LSYNC`, `EXIT`, `SWR` of GF with its value. -/
  | lsync
  | exitWait
  | swrGf (value : W64)
  /-- A fence: 0 `FENCE`, 1 `.SYS`, 2 `.SURV`, with the CE, KV and CO issue counts at its issue (R193). -/
  | fence (kind ce kv co : Nat)
  | timeline (cls : TlClass) (n : Nat)
  | path (p : PathClass) (limit : Nat)
  | waitp (p : PathClass) (limit slots : Nat)
  | barrier (obj : W64) (phase : Bool) (dst : SReg)
  | ring (obj : W64) (consumer : Bool) (ticket : W32) (slots : Nat)
  | tag
  | join (handle : W64) (dst : SReg)
  | regroup
  | regroupJoin
  | power (dst : SReg)
  | specialise (grid : Nat) (dst : SReg)
  /-- `LEND` until earlier words have completed, an access until a page's lock is released, a matrix word until the
  matrix engine takes it. -/
  | blockEnd
  | locked
  | matrix
  /-- `LRUN` until its entry has been written to the group's sump ring (R38). -/
  | spill
  deriving DecidableEq, Repr

/-- A ticket that a group has taken and waits for: where its `RINGACQ` stands, the ring and the number (R228). -/
structure Ticket where
  pc : W64
  obj : W64
  num : W32
  deriving DecidableEq, Repr

/-- An entry of a group's object list (R222). -/
structure ObjEntry where
  addr : W64
  ring : Bool
  phase : Bool
  deriving DecidableEq, Repr

/-- Where a unit of a lane access lands (R147). -/
inductive Space where
  | global
  | host
  | scratch (t : TRef)
  | fabric (rank : Nat)
  deriving DecidableEq, Repr

/-- What a unit does at its place in the order (R175). -/
inductive UKind where
  | load (sext : Bool)
  | store
  | rmw (op : AOp)
  | tagSet (full : Bool)
  | tagGet
  deriving DecidableEq, Repr

/-- One access unit of a lane instruction (Table ORD-1), with the cache hint of its word (R76). -/
structure AUnit where
  space : Space
  kind : UKind
  va : Nat
  pa : Nat
  bytes : Nat
  lane : Nat
  phys : Nat
  data : Nat
  cmp : Nat
  dst : List (Option Nat)
  mor : Bool
  hint : Nat := 0
  deriving DecidableEq, Repr

/-- A pass of a fabric word: its rank, its lanes, and the offset of its lowest lane (R295). -/
structure Pass where
  rank : Nat
  lanes : W32
  low : Nat
  deriving DecidableEq, Repr

/-- An outstanding lane memory instruction: the units it has still to perform, in program order (R163, R176). `sent`
holds the tag of the fabric request that its head unit waits for. -/
structure OutOp where
  id : Nat
  path : PathClass
  ret : Bool
  units : List AUnit
  allLanes : W32
  pc : W64
  sent : Option Nat
  passes : List Pass := []
  deriving DecidableEq, Repr

/-- An old value that a read may still return (R81, R165): of a lane register, or of a predicate bit; `path` is that of
the load that wrote the new value, none for a word with a lookahead window. -/
structure Alt where
  path : Option PathClass
  pred : Bool
  reg : Nat
  phys : Nat
  old : W32
  id : Nat
  deriving DecidableEq, Repr

/-- A lookahead window: the word's number and the lane words it still covers (R80). -/
structure Look where
  id : Nat
  left : Nat
  deriving DecidableEq, Repr

/-- Kinds of MX commands (R185). -/
inductive MxKind where
  | mma | zero | flush (all : Bool)
  deriving DecidableEq, Repr

/-- An MX command that has issued and not completed: its number, tile, fragments as 256-bit numbers by lane, scales;
of `MMA.S`, the offset of its scratch operand and the words of it taken so far; whether its operands are consumed, or its
entries sent; the elements still to zero; the tiles that a flush covers; and its place among the commands of its core
(R199 to R201, R207, R208, R211). -/
structure MxCmd where
  num : Nat
  kind : MxKind
  va : Nat
  pa : Nat
  mor : Bool
  rowsA : List Nat
  colsB : List Nat
  scales : List Nat
  fmt : W32
  scr : Option Nat
  captured : Store 32
  begun : Bool
  toZero : List Nat
  tiles : List Nat
  seq : Nat := 0
  deriving DecidableEq, Repr

/-- Group states of Table EXE-5, READY and WAITING being told apart by the streams' waits. -/
inductive GStatus where
  | active | trapped | exited
  deriving DecidableEq, Repr

/-- What the first issue at a stopping point leaves out (R283, R334, R354, R462). -/
structure Skip where
  nop : Bool
  bp : Bool
  wp : Bool
  deriving DecidableEq, Repr

/-- A resident group (R30, R36 to R46), or the group of a handler activation (R275). `grant` is the level and the charge
of a power grant in state HELD (R212, R340); words numbered below `syncId` precede the scalar stream's accesses (R42);
`mxFence` is the MX issue count that a waiting fence has captured (R193); `tagLeft` names the lanes that a stopped tagged word
has left (R215); `stopping` is the trap of a group whose issued words have still to complete (R82). -/
structure Group where
  role : Role
  allot : Nat
  quarter : Nat
  age : Nat
  s : Store 64
  c : Store 1
  k : Store 64
  yS : Store 64
  yL : Store 64
  exmS : W32
  exmL : W32
  fmtS : W32
  fmtL : W32
  gfS : W32
  gfL : W32
  v : Store 32
  p : Store 32
  remap : List Nat
  stack : List StackEntry
  spc : W64
  lpc : W64
  sMarks : Bool
  lMarks : Bool
  laneBase : W64
  run : Option Run
  laneQ : List LaneEntry
  spilled : List LaneEntry
  enq : Nat
  ended : Nat
  waitS : Option Wait
  waitL : Option Wait
  sinceS : Nat
  sinceL : Nat
  status : GStatus
  trap : Option Trap
  eng : List Trap
  killed : Bool
  obj : List ObjEntry
  out : List OutOp
  nextId : Nat
  alt : List Alt
  look : List Look
  tagDone : W32
  tagPend : List AUnit
  tagRet : Bool
  tagSlots : Nat
  mxIssued : Nat
  mxDone : Nat
  mxEnded : Nat
  mxSeen : Nat
  mx : List MxCmd
  unflushed : List (Nat × Nat)
  grant : Option (Nat × Nat)
  lastMma : Nat
  skipS : Skip
  skipL : Skip
  lastNs : Nat
  ticket : Option Ticket
  survDeg : Bool
  morFrames : List Nat
  syncId : Nat
  mxFence : Nat := 0
  tagLeft : W32 := 0
  stopping : Option Trap := none
  deriving DecidableEq, Repr

/-! Teams, engine commands, regrouped regions -/

/-- Engine command forms. -/
inductive EngOp where
  | cpy | gath | coll | kvalloc | kvref | kvunref | kvcow | kvtierCi | kvtierAq | kvsend
  deriving DecidableEq, Repr

/-- Engine classes with one context per team (R182). -/
inductive EngCls where
  | ce | kv | co
  deriving DecidableEq, Repr

/-- A command of an engine context that has issued and not completed: its descriptor as read at issue, the units that
have landed, and the position a stopped paged gather continues from (R183, R266). `pages` holds, by row, where the entry that a
paged gather has read places the row; a KV move between tiers that has marked its pages has 1 in `landed` (R263, R265). -/
structure EngCmd where
  cls : EngCls
  num : Nat
  gid : Nat
  op : EngOp
  descAddr : W64
  desc : List Nat
  landed : List Nat
  stopped : Option Nat
  pages : List (Nat × Nat) := []
  deriving DecidableEq, Repr

/-- A child handle of a team (R53, R455). -/
structure Child where
  handle : W64
  grid : Option Nat
  joined : Bool
  deriving DecidableEq, Repr

/-- A participant's saved values for a regrouped region (R49, R50). -/
structure RegSave where
  gid : Nat
  exm : W32
  fmt : W32
  v : Store 32
  p : Store 32
  lanes : List (Nat × Nat)
  host : Bool
  atJoin : Bool
  deriving DecidableEq, Repr

/-- A regrouping of one role: arrivals, and once gathered the participants and the lane list (R48 to R52). -/
structure Region where
  role : Role
  addr : W64
  first : Nat
  count : Nat
  arrived : List Nat
  gathered : Bool
  saves : List RegSave
  join : Option W64
  deriving DecidableEq, Repr

/-- A resident team (R24 to R30). HANDLER, HNDWD and TAGWD are those of its context when it was placed (R326). `parkPresent` is
the group whose activation its park has abandoned (R279), `joining` the child grid for which it is parked (R58). -/
structure Team where
  ctx : Nat
  grid : Nat
  teamId : Nat
  tx : Nat
  ty : Nat
  tz : Nat
  nroles : List Nat
  scrSize : Nat
  cluster : Bool
  coresident : Bool
  argBase : W64
  seqBase : W64
  step : W64
  codeId : W64
  residual : Option Nat
  depth : Nat
  placedAt : Nat
  handler : W64
  hndwd : Nat
  tagwd : Nat
  scratch : Store 8
  tags : Store 1
  issuedCe : Nat
  issuedKv : Nat
  issuedCo : Nat
  doneCe : Nat
  doneKv : Nat
  doneCo : Nat
  finCe : List Nat
  finKv : List Nat
  finCo : List Nat
  cmds : List EngCmd
  children : List Child
  regions : List Region
  parkWanted : Option Nat
  parkGid : Option Nat
  parkSlot : Option Nat
  survBad : List Nat
  mor : List (Nat × Nat)
  parkPresent : Option Nat := none
  joining : Option Nat := none
  deriving DecidableEq, Repr

/-! Cores -/

/-- A handler activation (R275): the team it acts for, the presented group and trap, and when it began. -/
structure Activation where
  slot : Nat
  gid : Nat
  trap : Option Trap
  since : Nat
  ctx : Nat
  deriving DecidableEq, Repr

/-- A staging entry (R205): contributions by element, and the groups whose `MMA`s it holds, with their grids. -/
structure Staging where
  ctx : Nat
  pa : Nat
  mor : Bool
  cells : Store 64
  from_ : List GRef
  grids : List Nat := []
  deriving DecidableEq, Repr

/-- An entry on its way to the home slice: elements not yet added (R206, R209). -/
structure TileSend where
  core : Nat
  ctx : Nat
  pa : Nat
  mor : Bool
  cells : Store 64
  from_ : List GRef
  grids : List Nat := []
  deriving DecidableEq, Repr

/-- A live counter (Table OBS-4). -/
structure Counter where
  ctl : W64
  value : BitVec 48
  deriving DecidableEq, Repr

/-- A core (R9, R157, R272, R311, R336). -/
structure Core where
  inService : Bool
  pts : Nat
  trapQ : List (Nat × Nat)
  act : Option Activation
  staging : List Staging
  lastS : List (Nat × (Nat × Nat))
  lastL : List (Nat × (Nat × Nat))
  observed : Option Nat
  counters : Assoc Nat Counter
  samples : Assoc Nat (Nat × Nat)
  testDue : Bool
  testAt : Nat
  errTimes : List Nat
  mxSeq : Nat := 0
  deriving DecidableEq, Repr

/-! Memory system -/

/-- Timestamps of a line at its home (R157). -/
structure Lease where
  wts : Nat
  rts : Nat
  deriving DecidableEq, Repr

/-- A leased copy of a line (R156, R157): which core or die holds it, its nonzero bytes and its timestamps; of a line of a
peer's window, the rank and the context that name it; and the cache hint under which it was allocated (R76). -/
structure Copy where
  holder : Nat
  line : Nat
  data : Store 8
  lease : Lease
  rank : Option Nat := none
  ctx : Nat := 0
  hint : Nat := 0
  deriving DecidableEq, Repr

/-- An exclusive RDC copy (R158). -/
structure Excl where
  die : Nat
  line : Nat
  deriving DecidableEq, Repr

/-- Who holds a partial in state U (R159): a core's L1, or a die's RDC; or, at the home of a line, another package. -/
inductive UHolder where
  | core (n : Nat)
  | rdc (die : Nat)
  deriving DecidableEq, Repr

/-- A partial held in state U (R159): for one operation and width, values by address; for a line of another package, the
rank and the context whose window it lies in. -/
structure UPart where
  holder : UHolder
  line : Nat
  rank : Option Nat
  ctx : Nat
  op : AOp
  w : AWidth
  mor : Bool
  cells : Assoc Nat Nat
  owners : List GRef
  grids : List Nat := []
  deriving DecidableEq, Repr

/-- A remote holder registered at a home; or, seen from the other side, a line for which the home has accepted a die of this
package (R159). -/
structure RemoteHolder where
  line : Nat
  rank : Nat
  die : Nat
  deriving DecidableEq, Repr

/-- A translation cache (R169): a core's, a die's for small pages, or a die's last level. -/
inductive TlbRoom where
  | core (n : Nat)
  | small (die : Nat)
  | last (die : Nat)
  deriving DecidableEq, Repr

/-- A cached translation (R169): context, virtual page base, size in bits, the entry, and the cache that holds it. -/
structure Tlb where
  ctx : Nat
  base : Nat
  lg : Nat
  pte : W64
  room : TlbRoom := .last 0
  deriving DecidableEq, Repr

/-- The last owner of a range of physical memory (R172): its context, and the virtual address at which it maps the range, where
the range came to it through its page tables. -/
structure FrameOwn where
  pa : Nat
  bytes : Nat
  ctx : Nat
  va : Option Nat
  deriving DecidableEq, Repr

/-- A line of a core's lane or scalar instruction cache (R9): its context and virtual address. -/
structure ILine where
  core : Nat
  ln : Bool
  ctx : Nat
  line : Nat
  deriving DecidableEq, Repr

/-- A page being moved (R171): frames, size, and the context and address whose entry is switched. -/
structure Migration where
  old : Nat
  new : Nat
  bytes : Nat
  ctx : Nat
  va : Nat
  deriving DecidableEq, Repr

/-- An invalidation in progress (R170): context, range, and the queue packet that it completes. -/
structure Inval where
  ctx : Nat
  base : Nat
  bytes : Nat
  queue : Nat
  seq : Nat
  deriving DecidableEq, Repr

/-! Contexts, grids, launches, firn -/

/-- Where a pre-emption stands (R284). -/
inductive Phase where
  | running
  | drain (parkAt : Nat) (resetAfter : Nat)
  | park (resetAt : Nat)
  | off
  deriving DecidableEq, Repr

/-- A context (Table HQ-6). -/
structure Ctx where
  ptRoot : Nat
  ageq : Nat
  tagwd : Nat
  handler : W64
  hndwd : Nat
  parkN : Nat
  parkBase : W64
  sumpBase : W64
  sumpQ : Nat
  resBase : W64
  resLen : Nat
  expBase : W64
  expLen : Nat
  frep : W64
  phase : Phase
  preemptQ : List (Nat × Nat)
  usedSlots : List Nat
  lastRecord : Option Trap
  deriving DecidableEq, Repr

/-- A role entry of a team header (R26, R101). -/
structure RoleEntry where
  groups : Nat
  allot : Nat
  entry : W64
  base : W64
  deriving DecidableEq, Repr

/-- How a grid stands (R57, R62). -/
inductive GridStatus where
  | running
  | done
  | faulted (team : Nat) (cause : Cause)
  | killed
  deriving DecidableEq, Repr

/-- Who is told of a grid's completion (R62). -/
inductive Issuer where
  | queue (slot : Nat) (seq : Nat)
  | spawn (grid team : Nat)
  | plan (inst : Nat)
  | none
  deriving DecidableEq, Repr

/-- Where a launch stands before its teams are placed (R31, R234, R324). -/
inductive LaunchPhase where
  | dependence
  | specialise
  | ready
  | placed
  deriving DecidableEq, Repr

/-- A parked team: its slot, and what its record does not hold (R281, R282; DESIGN CHOICE, log entry 14). -/
structure Parked where
  slot : Nat
  teamId : Nat
  reason : Nat
  wantResume : Bool
  team : Team
  groups : List (Nat × Group)
  deriving DecidableEq, Repr

/-- A grid that has been launched and has not been forgotten (R24, R31, R57, R62, Table HQ-5). -/
structure Grid where
  ctx : Nat
  x : Nat
  y : Nat
  z : Nat
  krec : W64
  codeId : W64
  roles : List RoleEntry
  origRoles : List RoleEntry
  scratch : Nat
  cluster : Bool
  coresident : Bool
  fmt : W32
  level : Nat
  entered : Nat
  zeroSince : Option Nat
  policy : Nat
  phase : LaunchPhase
  complete : Bool
  depAddr : W64
  depVal : W64
  sigAddr : W64
  sigVal : W64
  sigLost : Bool
  argCopy : W64
  argBytes : Nat
  issuer : Issuer
  depth : Nat
  next : Nat
  ended : Nat
  residual : Option Nat
  rejected : Bool
  missed : Bool
  status : GridStatus
  seqBase : W64
  step : W64
  inst : Option Nat
  parked : List Parked
  deriving DecidableEq, Repr

/-- States of a firn index entry (R234). -/
inductive FirnState where
  | building | valid | rejected
  deriving DecidableEq, Repr

/-- A firn index entry (R233, R234): key bytes, state, place and size of the residual, and its role entries. -/
structure FirnEntry where
  id : Nat
  ctx : Nat
  key : List Nat
  codeId : W64
  krec : W64
  state : FirnState
  base : Nat
  lines : Nat
  mapAt : Nat
  roles : List RoleEntry
  lastHit : Nat
  matching : Bool
  deriving DecidableEq, Repr

/-- A loaded kernel (R323, LOAD). -/
structure Kernel where
  ctx : Nat
  image : Nat
  krec : W64
  codeId : W64
  deriving DecidableEq, Repr

/-! Host queues -/

/-- States of a queue slot (R321). -/
inductive QState where
  | idle | running | error | disabled
  deriving DecidableEq, Repr

/-- A packet whose program has begun and whose completion entry is not yet written (R318): `status` is what its program
ended with, or what a kind that it performs has completed with; `waitOther` says that a kind is in progress, and `callGrid`
its grid; `dropped` is the status of a launch of `QLAUNCH` that placed no team. -/
structure Packet where
  seq : Nat
  kind : Nat
  status : Option Nat
  value : W64
  word3 : W64
  rej : Bool
  miss : Bool
  sigf : Bool
  failCode : Nat
  waitGrids : List Nat
  waitOther : Bool
  callGrid : Option Nat
  dropped : Option Nat
  linkFrom : Option Nat
  deriving DecidableEq, Repr

/-- A `QLOOP` in progress (Table HQ-7). -/
structure QLoop where
  reg : Nat
  first : Nat
  len : Nat
  iter : Nat
  count : Nat
  deriving DecidableEq, Repr

/-- A queue slot (R315 to R322, R327): its doorbell page, its descriptor as read, and its interpreter. -/
structure Queue where
  desc : Nat
  func : Nat
  state : QState
  disabling : Bool
  ctx : Nat
  level : Nat
  seg : Nat
  segBytes : Nat
  offset : Nat
  seq : Nat
  tail : Nat
  progress : Nat
  resident : Bool
  shadowTail : Option Nat
  cseq : Nat
  comp : Nat
  ccap : Nat
  ctail : Nat
  free : Nat
  fcap : Nat
  ftail : Nat
  prog : Nat
  newProg : Option (Nat × List Nat)
  words : List Nat
  wins : List (Nat × Nat × Nat)
  packets : List Packet
  body : List Nat
  pc : Nat
  q : Store 64
  loop : Option QLoop
  ran : Nat
  busy : Bool
  waitv : Option (Nat × Nat × Nat)
  tailAt : Nat
  deriving DecidableEq, Repr

/-! Wellhead and KPE -/

/-- Where a serving iteration stands (R254, R260, R481): the next `ITERATION_BEGIN` starts at a phase, a plan entry's grid
runs, or so many batch entries have been retired. -/
inductive StepPhase where
  | start (phase : Nat)
  | grids (entry grid : Nat)
  | retiring (done : Nat)
  deriving DecidableEq, Repr

/-- Instance status (Table SRV-1); a stopped instance is none. -/
inductive InstStatus where
  | running | halted
  deriving DecidableEq, Repr

/-- A batch entry (R256): record, position, length, SAMPLE, and whether its record was in DECODE, has emitted, has its KVLEN
advanced, and has had its end emitted. -/
structure BEntry where
  idx : Nat
  pos : Nat
  len : Nat
  sample : Bool
  dec : Bool
  emitted : Bool
  counted : Bool
  ended : Bool
  deriving DecidableEq, Repr

/-- A serving instance (R249 to R260): number, context, descriptor with its words as read at start, ring counts, plan
entries and launch packets as read at start, and where its iteration stands; `idle` holds ATAIL and EHEAD as an admission
left them before an empty batch, and whether it stopped for room; `stops` the packets of stops that wait; `freed` the
records that only a later admission may use. -/
structure Inst where
  num : Nat
  ctx : Nat
  desc : Nat
  words : List Nat
  status : InstStatus
  ahead : Nat
  etail : Nat
  step : Nat
  phase : StepPhase
  batch : List BEntry
  plan : List (List Nat)
  packets : List Nat
  idle : Option (Nat × Nat × Bool)
  stops : List (Nat × Nat)
  freed : List Nat
  deriving DecidableEq, Repr

/-- A request record (Table SRV-2): index, owner instance and its thirty-two words; `sends` names the `KVSEND` commands that wait
for a peer's answer about it, each by core, slot and number (R267). -/
structure Rec where
  idx : Nat
  inst : Nat
  words : Store 64
  sends : List (Nat × Nat × Nat) := []
  deriving DecidableEq, Repr

/-- A configured pool of KV pages of an instance as its KPE keeps it (R263): the descriptor's words as read at start,
granted ids, and frames in use by tier and number. -/
structure Pool where
  inst : Nat
  pool : Nat
  desc : List Nat
  ids : List Nat
  frames : List (Nat × Nat)
  deriving DecidableEq, Repr

/-! Fabric and parity -/

/-- A fabric packet (Table FAB-2), CRCs and flits left out. -/
structure FabPkt where
  opc : Nat
  vc : Nat
  dst : Nat
  src : Nat
  tag : Nat
  gen : Nat
  ogen : Nat
  rty : Bool
  status : Nat
  offset : Nat
  time : Nat
  attr : Nat
  opnd : Nat
  cmp : Nat
  ctx : Nat
  seq : Nat
  data : List Nat
  deriving DecidableEq, Repr

/-- An access that a page locked for a move holds (R171): the next unit of a group's lane stream, the word of its scalar
stream, or a request of another package, with its source die, its bytes and the code of its operation. -/
inductive Held where
  | lane (g : GRef)
  | scalar (g : GRef)
  | request (die : Nat) (pkt : FabPkt) (bytes op : Nat)
  deriving DecidableEq, Repr

/-- What a fabric request was sent for. -/
inductive ReqFor where
  | lane (g : GRef)
  | delta (die : Nat)
  | partial_ (owners : List GRef)
  | other
  deriving DecidableEq, Repr

/-- A tag in use (R292). -/
structure FabTag where
  die : Nat
  tag : Nat
  gen : Nat
  ogen : Nat
  pkt : FabPkt
  sentAt : Nat
  retries : Nat
  busy : Bool
  why : ReqFor
  grids : List Nat := []
  deriving DecidableEq, Repr

/-- A kept reply of the target side (R293). -/
structure KeptReply where
  src : Nat
  tag : Nat
  ogen : Nat
  reply : FabPkt
  expiry : Nat
  deriving DecidableEq, Repr

/-- A parity delta not yet acknowledged (R302): the groups whose store it comes from (a team's engines count as a GID
from 64 up, one for each class and command) and the set-table entry of the frame. -/
structure Delta where
  die : Nat
  holder : Nat
  frame : Nat
  offset : Nat
  xor_ : Nat
  bytes : Nat
  tag : Option Nat
  owners : List GRef
  entry : Nat
  deriving DecidableEq, Repr

/-- A collective contribution of a member (R298). -/
structure CollData where
  collid : Nat
  rank : Nat
  hdr : List Nat
  elems : List Nat
  ranks : List Nat
  ctx : Nat
  fault : Option Nat
  deriving DecidableEq, Repr

/-- A machine-check bank (R309, Table FAB-6). -/
structure Bank where
  status : W64
  addr : W64
  ctx : W64
  synd : W64
  time : W64
  deriving DecidableEq, Repr

/-- A rebuild in progress (R304). -/
structure Rebuild where
  lost : Nat
  spare : Nat
  frames : List Nat
  deriving DecidableEq, Repr

/-- A message that leaves the package (R307, R310, R338, R284). -/
inductive Msg where
  | msix (func vector : Nat)
  | bank (n : Nat)
  | mctp (n : Nat)
  | pcieFatal
  | retryStatus
  | completerAbort
  | reply (bytes : List Nat)
  | handoff (rank inst : Nat) (record pages : List Nat)
  | handoffAnswer (rank status : Nat)
  deriving DecidableEq, Repr

/-- A function's observation page of a context index (Table OBS-1), with the physical pages that its home-side
watchpoints resolved to (R335). -/
structure ObsPage where
  trBase : W64
  trCap : Nat
  trTail : Nat
  trHead : Nat
  drops : Nat
  trMask : Nat
  lsPer : Nat
  bp : List W64
  wp : List (W64 × Nat)
  hw : List (W64 × Nat)
  hwPages : List (Nat × Nat × Nat)
  deriving DecidableEq, Repr

/-- The device control page (Table HQ-10). -/
structure Ctl where
  fto : Nat
  fretry : Nat
  setTab : Nat
  setLen : Nat
  joined : Bool
  rank : Nat
  deriving DecidableEq, Repr

/-- A checkpoint in progress (R312). -/
structure Checkpoint where
  queue : Nat
  seq : Nat
  ctxs : List Nat
  deriving DecidableEq, Repr

/-- A chunk of a checkpoint as its target holds it (R312): a piece of a page, with the poisoned lines that its header
records, or the Wellhead records of a context; and its digest. -/
structure Chunk where
  ctx : Nat
  pa : Option Nat
  bytes : Nat
  data : Store 8
  recs : List Rec
  poison : List Nat
  digest : Nat
  deriving DecidableEq, Repr

/-- The whole package. -/
structure State where
  -- the model's own: schedule, free choices and the stream at work (DESIGN CHOICE, log entries 1 and 2)
  agenda : List Move
  choices : List Nat
  tick : Nat
  cur : Option Who
  -- package
  clock : Nat
  endpointUp : Bool
  inReset : Bool
  fatal : Bool
  mem : Memory
  hostMem : Memory
  poison : List Nat
  leases : Assoc Nat Lease
  l1 : List Copy
  rdc : List Copy
  excl : List Excl
  upart : List UPart
  remoteHolders : List RemoteHolder
  accepted : List RemoteHolder
  tlb : List Tlb
  invals : List Inval
  migrations : List Migration
  frameOwner : List FrameOwn
  sends : List TileSend
  code : Assoc (Nat × Bool × Nat) (Store 8)
  icache : List ILine
  holds : List Held
  -- execution
  ctxs : Assoc Nat Ctx
  cores : Assoc Nat Core
  teams : Assoc TRef Team
  groups : Assoc GRef Group
  grids : Assoc Nat Grid
  reservation : Option Nat
  kernels : List Kernel
  firn : List FirnEntry
  builds : List Nat
  nextFirn : Nat
  -- host link
  queues : Assoc Nat Queue
  owners : Assoc Nat W64
  ctl : Ctl
  thresholds : Assoc Nat Nat
  testPeriods : Assoc Nat Nat
  obs : Assoc Nat ObsPage
  saved : Assoc (Nat × Nat × Nat) Counter
  weights : Store 16
  weightsNow : Store 16
  bankSel : Store 8
  banks : Assoc Nat Bank
  msgs : List Msg
  nextCodeId : Nat
  -- serving
  insts : List Inst
  recs : List Rec
  pools : List Pool
  -- fabric and parity
  fabTags : List FabTag
  fabSeq : Assoc (Nat × Nat) Nat
  fabIn : Assoc Nat Nat
  kept : List KeptReply
  fabOut : List FabPkt
  lost : List Nat
  unreachable : List Nat
  portsDown : List Nat
  deltas : List Delta
  colls : List CollData
  rebuilds : List Rebuild
  checkpoints : List Checkpoint
  vault : List Chunk
  powerAsks : List GRef
  secVersion : Assoc Nat Nat
  image : Assoc Nat (List Byte × List Byte)
  chanDown : List Nat
  deriving DecidableEq, Repr

/-- The control page after reset (Table HQ-10). -/
def Ctl.reset : Ctl :=
  { fto := 20, fretry := 3, setTab := 0, setLen := 0, joined := false, rank := 0 }

/-- The machine right after reset: every core idle, every cache, TLB and index invalid, no record, no context, no
team, every counter zero (R23). -/
def State.reset : State :=
  { agenda := [], choices := [], tick := 0, cur := none,
    clock := 0, endpointUp := false, inReset := false, fatal := false, mem := [], hostMem := [], poison := [],
    leases := [], l1 := [], rdc := [], excl := [], upart := [], remoteHolders := [], accepted := [], tlb := [], invals := [],
    migrations := [], frameOwner := [], sends := [], code := [], icache := [], holds := [],
    ctxs := [], cores := [], teams := [], groups := [], grids := [], reservation := none, kernels := [], firn := [],
    builds := [], nextFirn := 0,
    queues := [], owners := [], ctl := Ctl.reset, thresholds := [], testPeriods := [], obs := [], saved := [],
    weights := [], weightsNow := [], bankSel := [], banks := [], msgs := [], nextCodeId := 1,
    insts := [], recs := [], pools := [],
    fabTags := [], fabSeq := [], fabIn := [], kept := [], fabOut := [], lost := [], unreachable := [], portsDown := [],
    deltas := [], colls := [], rebuilds := [], checkpoints := [], vault := [], powerAsks := [], secVersion := [],
    image := [], chanDown := [] }

end Sys2Proof.Machine
end

