-- ==== Sys2Proof/Machine/Access.lean ====
section
/-! DEFINITION. Reading and replacing parts of the state: free choices, cores, teams, groups, contexts, grids,
queues; the codes of roles and causes; clocks. -/

namespace Sys2Proof.Machine

/-! Free choices (DESIGN CHOICE, log entry 2) -/

/-- One free number: the next listed choice, or the next value of the opaque sequence. -/
def State.draw (s : State) : Nat × State :=
  match s.choices with
  | [] => (Config.free s.tick, { s with tick := s.tick + 1 })
  | c :: cs => (c, { s with choices := cs })

/-- A free choice among n outcomes; nothing is drawn where there is only one. -/
def State.pick (s : State) (n : Nat) : Nat × State :=
  if n ≤ 1 then (0, s) else let d := s.draw; (d.1 % n, d.2)

/-- A free element of a list. -/
def State.pickOf {α : Type} (s : State) (l : List α) (dflt : α) : α × State :=
  let d := s.pick l.length
  (l.getD d.1 dflt, d.2)

/-! Codes -/

/-- Role codes (R25). -/
def Role.code : Role → Nat
  | .copy => 0 | .matrix => 1 | .vector => 2 | .control => 3

def Role.ofCode (n : Nat) : Role :=
  match n with
  | 0 => .copy | 1 => .matrix | 2 => .vector | _ => .control

/-- Cause codes (Table TRAP-1). -/
def Cause.code : Cause → Nat
  | .hold => 0x00 | .illegal => 0x01 | .control => 0x02 | .role => 0x03 | .convergence => 0x04
  | .translation => 0x05 | .protection => 0x06 | .alignment => 0x07 | .accumulator => 0x08
  | .tagWatchdog => 0x09 | .watchpoint => 0x0A | .breakpoint => 0x0B | .trapInsn => 0x0C | .quota => 0x0D
  | .stack => 0x0E | .remote => 0x0F | .check => 0x10

def Cause.ofCode (n : Nat) : Cause :=
  match n with
  | 0x01 => .illegal | 0x02 => .control | 0x03 => .role | 0x04 => .convergence | 0x05 => .translation
  | 0x06 => .protection | 0x07 => .alignment | 0x08 => .accumulator | 0x09 => .tagWatchdog | 0x0A => .watchpoint
  | 0x0B => .breakpoint | 0x0C => .trapInsn | 0x0D => .quota | 0x0E => .stack | 0x0F => .remote | 0x10 => .check
  | _ => .hold

/-- The default of a cause without a handler: true is P, park; false is K, kill (Table TRAP-1). -/
def Cause.parks : Cause → Bool
  | .translation | .watchpoint | .breakpoint | .trapInsn | .quota => true
  | _ => false

/-- TCAUSE (Table TRAP-2). -/
def Trap.tcause (t : Trap) : W64 :=
  (t.info.setWidth 64 <<< 32) ||| (if t.eng then 0x200#64 else 0) ||| (if t.ln then 0x100#64 else 0) |||
    BitVec.ofNat 64 t.cause.code

/-- A trap from its registers. -/
def Trap.ofRegs (tcause addr : W64) (lanes : W32) (orig : W64) : Trap :=
  { cause := Cause.ofCode (tcause.toNat % 256), info := BitVec.ofNat 32 (tcause.toNat / 2 ^ 32),
    eng := tcause.getLsbD 9, ln := tcause.getLsbD 8, addr := addr, lanes := lanes, orig := orig }

/-- TGROUP (Table TRAP-3). -/
def tgroupWord (teamId slot gid : Nat) : W64 := BitVec.ofNat 64 (teamId * 2 ^ 32 + slot * 2 ^ 8 + gid)

/-! Numbering (R7) -/

def coreDie (core : Nat) : Nat := core / 192
def coreCluster (core : Nat) : Nat := core / 32

/-! Places -/

/-- The slot number that stands for the handler group of a core (R10). -/
def handlerSlot : Nat := 16

def GRef.team (g : GRef) : TRef := ⟨g.core, g.slot⟩
def GRef.isHandler (g : GRef) : Bool := g.slot == handlerSlot
def TRef.group (t : TRef) (gid : Nat) : GRef := ⟨t.core, t.slot, gid⟩
/-- The handler group of a core. -/
def handlerGroup (core : Nat) : GRef := ⟨core, handlerSlot, 0⟩

/-- A core that nothing has been recorded of: in service and idle (R23). -/
def Core.fresh : Core :=
  { inService := true, pts := 0, trapQ := [], act := none, staging := [], lastS := [], lastL := [], observed := none,
    counters := [], samples := [], testDue := false, testAt := 0, errTimes := [] }

def State.core (s : State) (n : Nat) : Core := (aget s.cores n).getD Core.fresh
def State.setCore (s : State) (n : Nat) (c : Core) : State := { s with cores := aput s.cores n c }
def State.onCore (s : State) (n : Nat) (f : Core → Core) : State := s.setCore n (f (s.core n))

def State.group (s : State) (g : GRef) : Option Group := aget s.groups g
def State.setGroup (s : State) (g : GRef) (gr : Group) : State := { s with groups := aput s.groups g gr }
def State.onGroup (s : State) (g : GRef) (f : Group → Group) : State :=
  match s.group g with
  | none => s
  | some gr => s.setGroup g (f gr)

def State.team (s : State) (t : TRef) : Option Team := aget s.teams t
def State.setTeam (s : State) (t : TRef) (tm : Team) : State := { s with teams := aput s.teams t tm }
def State.onTeam (s : State) (t : TRef) (f : Team → Team) : State :=
  match s.team t with
  | none => s
  | some tm => s.setTeam t (f tm)

def State.ctx (s : State) (c : Nat) : Option Ctx := aget s.ctxs c
def State.setCtx (s : State) (c : Nat) (x : Ctx) : State := { s with ctxs := aput s.ctxs c x }
def State.onCtx (s : State) (c : Nat) (f : Ctx → Ctx) : State :=
  match s.ctx c with
  | none => s
  | some x => s.setCtx c (f x)

def State.grid (s : State) (n : Nat) : Option Grid := aget s.grids n
def State.setGrid (s : State) (n : Nat) (x : Grid) : State := { s with grids := aput s.grids n x }
def State.onGrid (s : State) (n : Nat) (f : Grid → Grid) : State :=
  match s.grid n with
  | none => s
  | some x => s.setGrid n (f x)

def State.queue (s : State) (n : Nat) : Option Queue := aget s.queues n
def State.setQueue (s : State) (n : Nat) (x : Queue) : State := { s with queues := aput s.queues n x }
def State.onQueue (s : State) (n : Nat) (f : Queue → Queue) : State :=
  match s.queue n with
  | none => s
  | some x => s.setQueue n (f x)

def State.setMem (s : State) (m : Memory) : State := { s with mem := m }

/-- The groups of a team, in ascending GID as placed. -/
def State.teamGroups (s : State) (t : TRef) : List (GRef × Group) :=
  s.groups.filter (fun p => p.1.core == t.core && p.1.slot == t.slot)

/-- The teams resident on a core. -/
def State.coreTeams (s : State) (core : Nat) : List (TRef × Team) := s.teams.filter (fun p => p.1.core == core)

/-- The team that a group belongs to, or that a handler group acts for (R275). -/
def State.teamRefOf (s : State) (g : GRef) : TRef :=
  if g.isHandler then
    match (s.core g.core).act with
    | some a => ⟨g.core, a.slot⟩
    | none => g.team
  else g.team

/-- The context that a group runs in. -/
def State.ctxOf (s : State) (g : GRef) : Nat :=
  if g.isHandler then
    match (s.core g.core).act with
    | some a => a.ctx
    | none => 0
  else
    match s.team g.team with
    | some t => t.ctx
    | none => 0

/-- TEAMID of the team that a group acts for. -/
def State.teamIdOf (s : State) (g : GRef) : Nat := ((s.team (s.teamRefOf g)).map (·.teamId)).getD 0

/-- CTX of a bank's record about a group (R309). -/
def State.ctxTeam (s : State) (g : GRef) : Option (Nat × Nat) := some (s.ctxOf g, s.teamIdOf g)

/-- A replaced element of a list, at an index. -/
def listSet {α : Type} (l : List α) (i : Nat) (x : α) : List α := l.set i x

/-! Clocks: 1.8 GHz arithmetic clock (R1), microsecond periods of system software -/

/-- Clocks in n microseconds. -/
def usClocks (us : Nat) : Nat := us * 1800

/-- TIMENS on a core (Table REF-7). -/
def State.timeNs (s : State) (core : Nat) : Nat := s.clock * 5 / 9 + Config.timeSkew core % 20

/-- Nanoseconds on the package clock. -/
def State.packageNs (s : State) : Nat := s.clock * 5 / 9

/-- Bits of a number as a field. -/
def bitsOf (x hi lo : Nat) : Nat := x / 2 ^ lo % 2 ^ (hi + 1 - lo)

end Sys2Proof.Machine
end

