-- ==== Sys2Proof/Machine/Float.lean ====
section
/-! DEFINITION. Floating-point arithmetic (R119 to R134): exact values as signed dyadic numbers, one rounding into
every format, the operations of R125, comparisons of R128, special functions of R129 and conversions of R130. -/

namespace Sys2Proof

/-- Rounding directions of FMT.RM (Table NUM-2). -/
inductive Rm where
  | rne | rtz | rdn | rup
  deriving DecidableEq, Repr

def Rm.code : Rm → Nat
  | .rne => 0 | .rtz => 1 | .rdn => 2 | .rup => 3

/-- A floating format (Table NUM-1): mantissa bits, exponent bits, bias, and how its top codes are used. -/
structure FFmt where
  mb : Nat
  eb : Nat
  bias : Nat
  hasInf : Bool
  hasNan : Bool
  deriving DecidableEq, Repr

def FFmt.f32 : FFmt := ⟨23, 8, 127, true, true⟩
def FFmt.bf16 : FFmt := ⟨7, 8, 127, true, true⟩
def FFmt.f16 : FFmt := ⟨10, 5, 15, true, true⟩
def FFmt.e5m2 : FFmt := ⟨2, 5, 15, true, true⟩
def FFmt.e4m3 : FFmt := ⟨3, 4, 7, false, true⟩
def FFmt.e2m1 : FFmt := ⟨1, 2, 1, false, false⟩

/-- Bits of the magnitude: exponent and mantissa. -/
def FFmt.magBits (f : FFmt) : Nat := f.mb + f.eb
/-- Code of infinity, in the formats that have one. -/
def FFmt.infCode (f : FFmt) : Nat := (2 ^ f.eb - 1) * 2 ^ f.mb
/-- Code of the largest finite magnitude (Table NUM-1). -/
def FFmt.maxCode (f : FFmt) : Nat :=
  if f.hasInf then f.infCode - 1 else if f.hasNan then 2 ^ f.magBits - 2 else 2 ^ f.magBits - 1
/-- The canonical NaN (R120). -/
def FFmt.canonNan (f : FFmt) : Nat :=
  if f.hasInf then f.infCode + 2 ^ (f.mb - 1) else 2 ^ f.magBits - 1

/-- An exact value: NaN, an infinity, or ±m·2^e, zero keeping its sign. -/
inductive FVal where
  | nan
  | inf (neg : Bool)
  | fin (neg : Bool) (m : Nat) (e : Int)
  deriving DecidableEq, Repr

/-- The value of a bit pattern of a format (R119). -/
def FFmt.unpack (f : FFmt) (bits : Nat) : FVal :=
  let neg := bits / 2 ^ f.magBits % 2 == 1
  let mag := bits % 2 ^ f.magBits
  let e := mag / 2 ^ f.mb
  let m := mag % 2 ^ f.mb
  if mag > f.maxCode then (if f.hasInf && m == 0 then .inf neg else .nan)
  else .fin neg (if e = 0 then m else 2 ^ f.mb + m) ((max e 1 : Nat) - (f.bias + f.mb : Nat))

def FVal.isNan : FVal → Bool
  | .nan => true
  | _ => false

/-- num/den rounded to an integer in a direction, the sign being apart (R130 step 2; ties of RNE to even). -/
def roundNat (rm : Rm) (neg : Bool) (num den : Nat) : Nat :=
  let q := num / den
  let r := num % den
  let up := match rm with
    | .rne => decide (2 * r > den) || (decide (2 * r = den) && q % 2 == 1)
    | .rtz => false
    | .rdn => neg && r != 0
    | .rup => !neg && r != 0
  if up then q + 1 else q

/-- floor(log2(num/den)) for positive arguments. -/
def floorLog2 (num den : Nat) : Int :=
  let g : Int := (Nat.log2 num : Int) - (Nat.log2 den : Int)
  let below := if 0 ≤ g then decide (num < den * 2 ^ g.toNat) else decide (num * 2 ^ (-g).toNat < den)
  if below then g - 1 else g

/-- num·2^(-q)/den as a fraction. -/
def scaleFrac (num den : Nat) (q : Int) : Nat × Nat :=
  if 0 ≤ q then (num, den * 2 ^ q.toNat) else (num * 2 ^ (-q).toNat, den)

/-- The magnitude code that num/den rounds to, as if the exponent were unbounded above; a code above the format's
largest finite one means overflow (R125, R130). -/
def FFmt.roundMag (f : FFmt) (rm : Rm) (neg : Bool) (num den : Nat) : Nat :=
  if num = 0 then 0 else
  let emin : Int := 1 - (f.bias : Int)
  let ex := max (floorLog2 num den) emin
  let p := scaleFrac num den (ex - f.mb)
  let q := roundNat rm neg p.1 p.2
  (ex - emin).toNat * 2 ^ f.mb + q

/-- Whether a directed rounding stops an overflow at the largest finite value (IEEE 754). -/
def Rm.stopsAtMax (rm : Rm) (neg : Bool) : Bool :=
  match rm with
  | .rne => false
  | .rtz => true
  | .rdn => !neg
  | .rup => neg

/-- A result delivered in a format: its bits, and what the flags of R126 need. -/
structure FRes where
  bits : Nat
  nan : Bool
  sat : Bool
  deriving DecidableEq, Repr

def FFmt.signBit (f : FFmt) (neg : Bool) : Nat := if neg then 2 ^ f.magBits else 0

/-- FTZ applies to F32, F16 and BF16 only (R127). -/
def FFmt.ftzApplies (f : FFmt) : Bool := f.hasInf && f.mb != 2

/-- A magnitude code with subnormals flushed under FTZ. -/
def FFmt.flush (f : FFmt) (ftz : Bool) (mag : Nat) : Nat :=
  if ftz && f.ftzApplies && decide (mag < 2 ^ f.mb) then 0 else mag

/-- An arithmetic result delivered under IEEE 754 and FTZ (R125, R127). -/
def FFmt.deliver (f : FFmt) (rm : Rm) (ftz : Bool) (num den : Nat) (neg : Bool) : FRes :=
  let mag := f.roundMag rm neg num den
  if mag > f.maxCode then
    ⟨f.signBit neg + (if rm.stopsAtMax neg then f.maxCode else f.infCode), false, false⟩
  else ⟨f.signBit neg + f.flush ftz mag, false, false⟩

/-- ±m·2^e as a fraction. -/
def dyFrac (m : Nat) (e : Int) : Nat × Nat := if 0 ≤ e then (m * 2 ^ e.toNat, 1) else (m, 2 ^ (-e).toNat)

def FFmt.deliverVal (f : FFmt) (rm : Rm) (ftz : Bool) : FVal → FRes
  | .nan => ⟨f.canonNan, true, false⟩
  | .inf neg => ⟨f.signBit neg + f.infCode, false, false⟩
  | .fin neg m e => let p := dyFrac m e; f.deliver rm ftz p.1 p.2 neg

/-- An operand: its value, subnormals being zero under FTZ (R127). -/
def FFmt.operand (f : FFmt) (ftz : Bool) (bits : Nat) : FVal :=
  let mag := bits % 2 ^ f.magBits
  f.unpack (bits / 2 ^ f.magBits % 2 * 2 ^ f.magBits + (if mag ≤ f.maxCode then f.flush ftz mag else mag))

def signedMant (neg : Bool) (m : Nat) : Int := if neg then -(m : Int) else m

/-- Exact sum; an exact zero sum is +0, or −0 under RDN, unless both operands are zeros of one sign (R125). -/
def FVal.add (rm : Rm) : FVal → FVal → FVal
  | .nan, _ => .nan
  | _, .nan => .nan
  | .inf a, .inf b => if a == b then .inf a else .nan
  | .inf a, _ => .inf a
  | _, .inf b => .inf b
  | .fin na ma ea, .fin nb mb eb =>
    let e := min ea eb
    let s := signedMant na (ma * 2 ^ (ea - e).toNat) + signedMant nb (mb * 2 ^ (eb - e).toNat)
    if s = 0 then .fin (if na == nb then na else rm == .rdn) 0 0 else .fin (decide (s < 0)) s.natAbs e

/-- Exact product; infinity times zero is invalid. -/
def FVal.mul : FVal → FVal → FVal
  | .nan, _ => .nan
  | _, .nan => .nan
  | .inf a, .inf b => .inf (a != b)
  | .inf a, .fin b m _ => if m = 0 then .nan else .inf (a != b)
  | .fin a m _, .inf b => if m = 0 then .nan else .inf (a != b)
  | .fin a ma ea, .fin b mb eb => .fin (a != b) (ma * mb) (ea + eb)

/-- `FADD`, `FMUL`, `FFMA` and their packed forms on one element (R125). -/
def fAdd (f : FFmt) (rm : Rm) (ftz : Bool) (a b : Nat) : FRes :=
  f.deliverVal rm ftz ((f.operand ftz a).add rm (f.operand ftz b))
def fMul (f : FFmt) (rm : Rm) (ftz : Bool) (a b : Nat) : FRes :=
  f.deliverVal rm ftz ((f.operand ftz a).mul (f.operand ftz b))
def fFma (f : FFmt) (rm : Rm) (ftz : Bool) (a b c : Nat) : FRes :=
  f.deliverVal rm ftz (((f.operand ftz a).mul (f.operand ftz b)).add rm (f.operand ftz c))

/-- A number that orders non-NaN patterns with −0 below +0. -/
def FFmt.orderKey (f : FFmt) (bits : Nat) : Int :=
  let mag := bits % 2 ^ f.magBits
  if bits / 2 ^ f.magBits % 2 = 1 then -(mag : Int) - 1 else mag

/-- A number that orders non-NaN patterns with −0 equal to +0. -/
def FFmt.valueKey (f : FFmt) (bits : Nat) : Int :=
  let mag := bits % 2 ^ f.magBits
  if bits / 2 ^ f.magBits % 2 = 1 then -(mag : Int) else mag

def FFmt.isNan (f : FFmt) (bits : Nat) : Bool := (f.unpack bits).isNan

/-- A pattern with a subnormal replaced by the zero of its sign under FTZ. -/
def FFmt.flushBits (f : FFmt) (ftz : Bool) (bits : Nat) : Nat :=
  bits / 2 ^ f.magBits % 2 * 2 ^ f.magBits + f.flush ftz (bits % 2 ^ f.magBits)

/-- `FMIN` and `FMAX` (R128, R375). -/
def fMinMax (f : FFmt) (isMax nanForm : Bool) (ftz : Bool) (a b : Nat) : FRes :=
  let a := f.flushBits ftz a
  let b := f.flushBits ftz b
  match f.isNan a, f.isNan b with
  | true, true => ⟨f.canonNan, true, false⟩
  | true, false => if nanForm then ⟨f.canonNan, true, false⟩ else ⟨b, false, false⟩
  | false, true => if nanForm then ⟨f.canonNan, true, false⟩ else ⟨a, false, false⟩
  | false, false =>
    let aBelow := decide (f.orderKey a ≤ f.orderKey b)
    ⟨if aBelow != isMax then a else b, false, false⟩

/-- `FSETP` (R128, R377). -/
def fCompare (f : FFmt) (c : FCond) (ftz : Bool) (a b : Nat) : Bool :=
  let a := f.flushBits ftz a
  let b := f.flushBits ftz b
  let unordered := f.isNan a || f.isNan b
  let x := f.valueKey a
  let y := f.valueKey b
  match c with
  | .eq => !unordered && decide (x = y)
  | .ne => unordered || decide (x ≠ y)
  | .lt => !unordered && decide (x < y)
  | .le => !unordered && decide (x ≤ y)
  | .gt => !unordered && decide (x > y)
  | .ge => !unordered && decide (x ≥ y)
  | .num => !unordered
  | .nan => unordered

/-- The class number of R372. -/
def fClass (f : FFmt) (bits : Nat) : Nat :=
  let neg := bits / 2 ^ f.magBits % 2 == 1
  let mag := bits % 2 ^ f.magBits
  if mag > f.infCode then (if mag / 2 ^ (f.mb - 1) % 2 = 1 then 9 else 8)
  else
    let k := if mag = f.infCode then 3 else if mag ≥ 2 ^ f.mb then 2 else if mag > 0 then 1 else 0
    if neg then 3 - k else 4 + k

/-- `FRND`: round to an integral value of the same format (R376). -/
def fRound (f : FFmt) (rm : Rm) (ftz : Bool) (bits : Nat) : FRes :=
  match f.operand ftz bits with
  | .nan => ⟨f.canonNan, true, false⟩
  | .inf neg => ⟨f.signBit neg + f.infCode, false, false⟩
  | .fin neg m e =>
    let p := dyFrac m e
    f.deliver .rtz false (roundNat rm neg p.1 p.2) 1 neg

/-! Formats by type code -/

/-- Types with a floating format. -/
def LType.ffmt : LType → Option FFmt
  | .f32 => some .f32
  | .f16 => some .f16
  | .bf16 => some .bf16
  | .e4m3 => some .e4m3
  | .e5m2 => some .e5m2
  | .e2m1 => some .e2m1
  | _ => none

def FTy.ffmt : FTy → FFmt
  | .f32 => .f32
  | .f16 => .f16
  | .bf16 => .bf16

/-- Bits of an integer type. -/
def LType.intBits : LType → Nat
  | .i8 | .n8 => 8
  | .i16 | .n16 => 16
  | .i64 | .n64 => 64
  | .i4 => 4
  | _ => 32

/-! DPT8 (R132 to R134) -/

/-- 64 times one term of a DPT8 byte. -/
def dptTerm (nib : Nat) : Int :=
  let k := nib % 8
  if k = 7 then 0 else (if nib / 8 % 2 = 1 then -1 else 1) * (2 ^ (6 - k) : Nat)

/-- 64 times the value of a DPT8 byte. -/
def dptVal (byte : Nat) : Int := dptTerm (byte / 16 % 16) + dptTerm (byte % 16)

/-- The numerically smallest byte of a nonzero value, 0x77 for zero. -/
def dptCode (v : Int) : Nat :=
  if v = 0 then 0x77 else ((List.range 256).find? (fun b => dptVal b == v)).getD 0x77

/-- Largest DPT8 magnitude at or below x/d (64ths), and smallest at or above it. -/
def dptFloor (num den : Nat) : Nat :=
  (List.range 256).foldl (fun best b =>
    let v := (dptVal b).toNat
    if v * den ≤ num * 64 ∧ best < v then v else best) 0

def dptCeil (num den : Nat) : Nat :=
  (List.range 256).foldl (fun best b =>
    let v := (dptVal b).toNat
    if num * 64 ≤ v * den ∧ v < best then v else best) 128

/-- A conversion to DPT8 (R134). -/
def toDpt8 (rm : Rm) : FVal → FRes
  | .nan => ⟨0x77, true, false⟩
  | .inf neg => ⟨dptCode (signedMant neg 128), false, true⟩
  | .fin neg m e =>
    let p := dyFrac m e
    if p.1 > 2 * p.2 then ⟨dptCode (signedMant neg 128), false, !rm.stopsAtMax neg⟩
    else
      let lo := dptFloor p.1 p.2
      let hi := dptCeil p.1 p.2
      let up := match rm with
        | .rne => decide (2 * p.1 * 64 > (lo + hi) * p.2)
        | .rtz => false
        | .rdn => neg
        | .rup => !neg
      ⟨dptCode (signedMant neg (if up then hi else lo)), false, false⟩

/-! Conversions (R130, R131, Table NUM-4) -/

/-- A conversion to a floating format under a SAT mode. A result is a NaN where the value delivered is one, or where
a NaN was lost (R126). -/
def toFloat (f : FFmt) (rm : Rm) (ftz : Bool) (sat : Nat) (v : FVal) : FRes :=
  let infinite (neg : Bool) : FRes :=
    if !f.hasNan then ⟨f.signBit neg + f.maxCode, false, true⟩
    else if sat = 0 then
      (if f.hasInf then ⟨f.signBit neg + f.infCode, false, false⟩ else ⟨f.canonNan, true, false⟩)
    else ⟨f.signBit neg + f.maxCode, false, true⟩
  match v with
  | .nan => ⟨if !f.hasNan || sat = 2 then 0 else f.canonNan, true, false⟩
  | .inf neg => infinite neg
  | .fin neg m e =>
    let p := dyFrac m e
    let mag := f.roundMag rm neg p.1 p.2
    if mag > f.maxCode then
      (if rm.stopsAtMax neg then ⟨f.signBit neg + f.maxCode, false, sat ≠ 0 || !f.hasNan⟩ else infinite neg)
    else ⟨f.signBit neg + f.flush ftz mag, false, false⟩

/-- Range of an integer type (R114, R121). -/
def LType.intMin (t : LType) : Int := if t.isSigned then -((2 ^ (t.intBits - 1) : Nat) : Int) else 0
def LType.intMax (t : LType) : Int :=
  if t.isSigned then ((2 ^ (t.intBits - 1) : Nat) : Int) - 1 else ((2 ^ t.intBits : Nat) : Int) - 1

/-- An integer clamped to a type, and whether it was (R116). -/
def LType.clamp (t : LType) (x : Int) : Int × Bool :=
  if x > t.intMax then (t.intMax, true) else if x < t.intMin then (t.intMin, true) else (x, false)

/-- An integer as the bits of a destination of a type: extended to 32 bits for narrow types (R115), two's complement
at 64 bits for wide ones. -/
def LType.intBitsOf (t : LType) (x : Int) : Nat :=
  if t.intBits = 64 then (x % 2 ^ 64).toNat
  else if t.isSigned then (((x + 2 ^ (t.intBits - 1)) % 2 ^ t.intBits - 2 ^ (t.intBits - 1)) % 2 ^ 32).toNat
  else (x % 2 ^ t.intBits).toNat

/-- The integer that the low bits of a source hold at a type (R115). -/
def LType.intVal (t : LType) (bits : Nat) : Int :=
  let u := bits % 2 ^ t.intBits
  if t.isSigned && decide (2 ^ (t.intBits - 1) ≤ u) then (u : Int) - (2 ^ t.intBits : Nat) else u

/-- A conversion to an integer type (Table NUM-4). -/
def toInt (t : LType) (rm : Rm) : FVal → FRes
  | .nan => ⟨0, true, false⟩
  | .inf neg => ⟨t.intBitsOf (if neg then t.intMin else t.intMax), false, true⟩
  | .fin neg m e =>
    let p := dyFrac m e
    let c := t.clamp (signedMant neg (roundNat rm neg p.1 p.2))
    ⟨t.intBitsOf c.1, false, c.2⟩

/-- The exact value of a source of a type, read from the low bits of its operand (R121, R363). -/
def LType.value (t : LType) (ftz : Bool) (bits : Nat) : FVal :=
  match t.ffmt with
  | some f => f.operand ftz (bits % 2 ^ (f.magBits + 1))
  | none =>
    if t == .dpt8 then let v := dptVal bits; .fin (decide (v < 0)) v.natAbs (-6)
    else let v := t.intVal bits; .fin (decide (v < 0)) v.natAbs 0

/-- A conversion from an exact value to a type (R130, R131). -/
def convertVal (dst : LType) (rm : Rm) (ftz : Bool) (sat : Nat) (v : FVal) : FRes :=
  match dst.ffmt with
  | some f => toFloat f rm ftz sat v
  | none => if dst == .dpt8 then toDpt8 rm v else toInt dst rm v

/-- `CVT`: from a type to itself it applies FTZ and canonicalises NaNs, and changes nothing else (R363). -/
def convert (dst src : LType) (rm : Rm) (ftz : Bool) (sat : Nat) (bits : Nat) : FRes :=
  if dst = src then
    match dst.ffmt with
    | some f =>
      let x := bits % 2 ^ (f.magBits + 1)
      if f.isNan x then ⟨f.canonNan, true, false⟩ else ⟨f.flushBits ftz x, false, false⟩
    | none =>
      if dst == .dpt8 then ⟨bits % 256, false, false⟩ else ⟨dst.intBitsOf (dst.intVal bits), false, false⟩
  else convertVal dst rm ftz sat (src.value ftz bits)

/-- An F32 pattern rounded to a 16-bit format by RNE, as the inline constants are (R73). -/
def inlineTo16 (f : FFmt) (bits : Nat) : Nat := (toFloat f .rne false 0 (FFmt.f32.unpack bits)).bits

/-! Special functions (R129, R358, Table NUM-5). A reference value is computed in fixed point of `sfPrec` bits; the
free pick of `Config` then selects among the results that the accuracy allows. -/

/-- Fraction bits of the fixed-point reference. -/
def sfPrec : Nat := 256
def sfOne : Nat := 2 ^ sfPrec
/-- π and ln 2 to 382 and 256 fraction bits. -/
def piFix : Nat := 0x3243f6a8885a308d313198a2e03707344a4093822299f31d0082efa98ec4e6c89452821e638d01377be5466cf34e90c6c
def piBits : Nat := 384
def ln2Fix : Nat := 0xb17217f7d1cf79abc9e3b39803f2f6af40f343267298b62d8a0d175b8baafa2b

/-- Sum of the Taylor terms of e^y for 0 ≤ y < 1, in fixed point. -/
def expSeries : Nat → Nat → Nat → Nat → Nat
  | 0, _, _, _ => 0
  | n + 1, k, y, term => term + expSeries n (k + 1) y (term * y / sfOne / (k + 1))

/-- 2^x for a fraction x in [0, 1), in fixed point. -/
def exp2Frac (x : Nat) : Nat := expSeries 60 0 (x * ln2Fix / sfOne) sfOne

/-- Sum of z^(2k+1)/(2k+1). -/
def atanhSeries : Nat → Nat → Nat → Nat → Nat
  | 0, _, _, _ => 0
  | n + 1, k, z2, zp => zp / (2 * k + 1) + atanhSeries n (k + 1) z2 (zp * z2 / sfOne)

/-- log2 of num/den in [1, 2), in fixed point. -/
def log2Frac (num den : Nat) : Nat :=
  let z := (num - den) * sfOne / (num + den)
  2 * atanhSeries 90 0 (z * z / sfOne) z * sfOne / ln2Fix

/-- Alternating sine or cosine series; `term` is the current term, `k` its order. -/
def trigSeries : Nat → Nat → Nat → Nat → Int
  | 0, _, _, _ => 0
  | n + 1, k, x2, term => (term : Int) - trigSeries n (k + 2) x2 (term * x2 / sfOne / ((k + 1) * (k + 2)))

/-- sin (quarter = 0) or cos (quarter = 1) of the nonnegative m·2^e, in signed fixed point. -/
def trigRef (quarter : Nat) (m : Nat) (e : Int) : Int :=
  let p := dyFrac m e
  let quad := p.1 * 2 ^ (piBits + 1) / (p.2 * piFix)
  let r := (p.1 * 2 ^ piBits - quad * piFix * p.2 / 2) * 2 ^ sfPrec / (p.2 * 2 ^ piBits)
  let k := (quad + quarter) % 4
  let x2 := r * r / sfOne
  let s := if k % 2 = 0 then trigSeries 40 1 x2 r else trigSeries 40 0 x2 sfOne
  if k / 2 = 1 then -s else s

/-- A result of a special function: one of the floats from `lo` ulps below to `hi` ulps above the reference rounded toward zero.
Table NUM-5 does not say what one ulp is where such results lie on both sides of a power of two: the model counts neighbouring
F32 values (DESIGN CHOICE, log entry 12). `sel` holds FTZ in bit 0 and, for an operation that may depend on it, the rounding mode
above. -/
def nearResult (op input sel : Nat) (neg : Bool) (num den : Nat) (lo hi : Nat) : Nat :=
  let f := FFmt.f32
  let at_ := f.roundMag .rtz false num den + Config.sfuPick op input sel % (lo + hi + 1)
  f.signBit (neg != decide (at_ < lo)) + f.flush (sel % 2 == 1) (min (max at_ lo - min at_ lo) f.maxCode)

/-- The special-function operations. -/
inductive SfOp where
  | rcp | rsq | sqrt | ex2 | lg2 | sin | cos | tanh
  deriving DecidableEq, Repr

def SfOp.code : SfOp → Nat
  | .rcp => 0 | .rsq => 1 | .sqrt => 2 | .ex2 => 3 | .lg2 => 4 | .sin => 5 | .cos => 6 | .tanh => 7

/-- Largest q of n bits with q·q·den ≤ num. -/
def sqrtBits (num den : Nat) : Nat → Nat → Nat
  | 0, q => q
  | n + 1, q => let c := q + 2 ^ n; sqrtBits num den n (if c * c * den ≤ num then c else q)

/-- floor of the square root of a number, and whether it is exact. -/
def sqrtParts (num : Nat) : Nat × Bool :=
  let q := sqrtBits num 1 (Nat.log2 num / 2 + 1) 0
  (q, decide (q * q = num))

/-- The square root of m·2^e in F32, correctly rounded: the root of a scaled integer with an odd last bit standing for
any inexact remainder. -/
def sqrtF32 (rm : Rm) (ftz : Bool) (m : Nat) (e : Int) : FRes :=
  let e2 := (e - 64) - (e - 64) % 2
  let num := m * 2 ^ (e - e2).toNat
  let r := sqrtParts num
  let p := dyFrac (2 * r.1 + (if r.2 then 0 else 1)) (e2 / 2 - 1)
  FFmt.f32.deliver rm ftz p.1 p.2 false

def nanRes : FRes := ⟨FFmt.f32.canonNan, true, false⟩
def exactRes (bits : Nat) : FRes := ⟨bits, false, false⟩

/-- An integer as an F32 pattern. -/
def intF32 (x : Int) : Nat :=
  (FFmt.f32.deliver .rne false x.natAbs 1 (decide (x < 0))).bits

/-- EX2 of a finite value (R367). -/
def ex2Fin (bits : Nat) (ftz : Bool) (neg : Bool) (m : Nat) (e : Int) : FRes :=
  let ftzN := if ftz then 1 else 0
  let p := dyFrac m e
  let fl : Int := if neg then -((p.1 + p.2 - 1) / p.2 : Nat) else (p.1 / p.2 : Nat)
  let exact := p.1 % p.2 == 0
  if fl ≥ 128 then exactRes FFmt.f32.infCode
  else if exact then
    if fl < -149 then (if fl ≤ -151 then exactRes 0 else ⟨nearResult 3 bits ftzN false 1 (2 ^ 150) 0 1, false, false⟩)
    else
      let q := dyFrac 1 fl
      FFmt.f32.deliver .rne ftz q.1 q.2 false
  else if fl < -151 then exactRes 0
  else
    let frac := if neg then (p.2 - p.1 % p.2) % p.2 else p.1 % p.2
    let v := exp2Frac (frac * sfOne / p.2)
    let q := if 0 ≤ fl then (v * 2 ^ fl.toNat, sfOne) else (v, sfOne * 2 ^ (-fl).toNat)
    ⟨nearResult 3 bits ftzN false q.1 q.2 0 1, false, false⟩

/-- LG2 of a positive finite value (R408). -/
def lg2Fin (bits : Nat) (ftz : Bool) (m : Nat) (e : Int) : FRes :=
  let p := dyFrac m e
  let ex := floorLog2 p.1 p.2
  let q := scaleFrac p.1 p.2 ex
  if q.1 = q.2 then exactRes (intF32 ex)
  else
    let v : Int := ex * sfOne + log2Frac q.1 q.2
    ⟨nearResult 4 bits (if ftz then 1 else 0) (decide (v < 0)) v.natAbs sfOne 0 1, false, false⟩

/-- A number just below num/den, which it stands for where num/den is the least bound that fixed point can tell. -/
def justBelow (num den : Nat) : Nat × Nat := (num * 2 ^ 64 - 1, den * 2 ^ 64)

/-- SIN and COS of a finite nonzero value (Table NUM-5): 2 ulp up to 2^20, an absolute error of 2^−22 beyond. The reference of
a small SIN lies just below x, and that of a small COS just below 1. -/
def trigFin (op : SfOp) (bits sel : Nat) (neg : Bool) (m : Nat) (e : Int) : FRes :=
  let s0 := trigRef (if op = .cos then 1 else 0) m e
  let s := if neg && op == .sin then -s0 else s0
  let p := dyFrac m e
  if op == .sin && decide (p.1 * 2 ^ 40 ≤ p.2) then
    let q := justBelow p.1 p.2
    ⟨nearResult op.code bits sel neg q.1 q.2 1 2, false, false⟩
  else if p.1 ≤ p.2 * 2 ^ 20 then
    ⟨nearResult op.code bits sel (decide (s < 0)) (min s.natAbs (sfOne - 1)) sfOne 1 2, false, false⟩
  else
    let span : Nat := 2 ^ 40 - 1
    let d : Int := (Config.sfuPick op.code bits sel % (2 * span + 1) : Nat) - (span : Int)
    let t := s + d * 2 ^ (sfPrec - 62)
    -- rounded toward the exact value, so that the rounding never leaves the bound
    FFmt.f32.deliver (if d < 0 then .rup else .rdn) (sel % 2 == 1) t.natAbs sfOne (decide (t < 0))

/-- TANH of a finite nonzero value (R449). -/
def tanhFin (bits sel : Nat) (neg : Bool) (m : Nat) (e : Int) : FRes :=
  let p := dyFrac m e
  if p.1 ≥ 9 * p.2 then exactRes (FFmt.f32.signBit neg + 0x3F800000)
  else
    let y := 2 * p.1 * sfOne / p.2
    -- e^y − 1 over e^y + 1, the exponential by its own series after halving the argument four times
    let t := expSeries 60 0 (y / 32) sfOne
    let sq (x : Nat) : Nat := x * x / sfOne
    let ey := sq (sq (sq (sq (sq t))))
    let small := p.1 * 2 ^ 40 ≤ p.2
    let q := if small then justBelow p.1 p.2 else (ey - sfOne, ey + sfOne)
    ⟨nearResult 7 bits sel neg q.1 q.2 1 2, false, false⟩

/-- A special-function operation on an F32 pattern (R358). -/
def specialFn (op : SfOp) (rm : Rm) (ftz : Bool) (bits : Nat) : FRes :=
  let f := FFmt.f32
  let sel := 2 * rm.code + (if ftz then 1 else 0)
  match op, f.operand ftz bits with
  | _, .nan => nanRes
  | .rcp, .inf neg => exactRes (f.signBit neg)
  | .rcp, .fin neg m e =>
    if m = 0 then exactRes (f.signBit neg + f.infCode)
    else let p := dyFrac m e; f.deliver rm ftz p.2 p.1 neg
  | .sqrt, .inf neg => if neg then nanRes else exactRes f.infCode
  | .sqrt, .fin neg m e =>
    if m = 0 then exactRes (f.signBit neg) else if neg then nanRes else sqrtF32 rm ftz m e
  | .rsq, .inf neg => if neg then nanRes else exactRes 0
  | .rsq, .fin neg m e =>
    if m = 0 then exactRes (f.signBit neg + f.infCode) else if neg then nanRes else
    -- 1/√x as the root of the reciprocal, scaled by 2^(2·64 + even shift)
    let p := dyFrac m e
    let sh : Nat := 2 * ((Nat.log2 p.1 - Nat.log2 p.2) / 2) + 128
    let num := p.2 * 2 ^ sh / p.1
    let q := sqrtBits num 1 (Nat.log2 num / 2 + 1) 0
    let ex := floorLog2 p.1 p.2
    let pw := scaleFrac p.1 p.2 ex
    if pw.1 = pw.2 && ex % 2 == 0 then let r := dyFrac 1 (-(ex / 2)); f.deliver .rne ftz r.1 r.2 false
    else ⟨nearResult 1 bits (if ftz then 1 else 0) false q (2 ^ (sh / 2)) 0 1, false, false⟩
  | .ex2, .inf neg => exactRes (if neg then 0 else f.infCode)
  | .ex2, .fin neg m e => if m = 0 then exactRes 0x3F800000 else ex2Fin bits ftz neg m e
  | .lg2, .inf neg => if neg then nanRes else exactRes f.infCode
  | .lg2, .fin neg m e =>
    if m = 0 then exactRes (f.signBit true + f.infCode) else if neg then nanRes else lg2Fin bits ftz m e
  | .sin, .inf _ | .cos, .inf _ => nanRes
  | .sin, .fin neg m e => if m = 0 then exactRes (f.signBit neg) else trigFin .sin bits sel neg m e
  | .cos, .fin neg m e => if m = 0 then exactRes 0x3F800000 else trigFin .cos bits sel neg m e
  | .tanh, .inf neg => exactRes (f.signBit neg + 0x3F800000)
  | .tanh, .fin neg m e => if m = 0 then exactRes (f.signBit neg) else tanhFin bits sel neg m e

end Sys2Proof
end

