-- ==== Sys2Proof/Machine/Atomic.lean ====
section
/-! DEFINITION. Atomic operations on 32-bit and 64-bit words (R346, Table ASM-11, Table NUM-8). -/

namespace Sys2Proof

/-- The integer of w bits that a bit pattern stands for. -/
def toSigned (bits x : Nat) : Int := if x < 2 ^ (bits - 1) then (x : Int) else (x : Int) - 2 ^ bits

def AWidth.bits : AWidth → Nat
  | .w32 => 32
  | .w64 => 64
def AWidth.bytes : AWidth → Nat
  | .w32 => 4
  | .w64 => 8

/-- The new value of an atomic operation (R346). -/
def AOp.apply (op : AOp) (w : AWidth) (old x cmp : Nat) : Nat :=
  match op with
  | .add => (old + x) % 2 ^ w.bits
  | .mins => if toSigned w.bits x < toSigned w.bits old then x else old
  | .maxs => if toSigned w.bits old < toSigned w.bits x then x else old
  | .minu => min old x
  | .maxu => max old x
  | .and => old &&& x
  | .or => old ||| x
  | .xor => old ^^^ x
  | .xch => x
  | .cas => if old = cmp then x else old
  | .fadd => (fAdd .f32 .rne false old x).bits

/-- Operation codes of Table ASM-11. -/
def AOp.opNum : AOp → Nat
  | .add => 0 | .mins => 1 | .maxs => 2 | .minu => 3 | .maxu => 4 | .and => 5 | .or => 6 | .xor => 7 | .xch => 8
  | .cas => 9 | .fadd => 10

def AOp.ofNum (n : Nat) : AOp :=
  match n with
  | 0 => .add | 1 => .mins | 2 => .maxs | 3 => .minu | 4 => .maxu | 5 => .and | 6 => .or | 7 => .xor | 8 => .xch
  | 9 => .cas | _ => .fadd

/-- Codes 0 to 7, which may be gathered (R159). -/
def AOp.gathers : AOp → Bool
  | .xch | .cas | .fadd => false
  | _ => true

/-- Identity of a gathered operation (Table NUM-8). -/
def AOp.identity (op : AOp) (w : AWidth) : Nat :=
  match op with
  | .mins => 2 ^ (w.bits - 1) - 1
  | .maxs => 2 ^ (w.bits - 1)
  | .minu | .and => 2 ^ w.bits - 1
  | _ => 0

end Sys2Proof
end

