-- ==== Sys2Proof/Machine/Mem.lean ====
section
/-! DEFINITION. The memory system: physical addresses and homes, page walks and cached translations, leases and L1
and RDC copies, update-only partials, parity deltas, machine-check and trace records, counter events. -/

namespace Sys2Proof.Machine

/-! Physical addresses (R154, R155) -/

/-- First address above Table MEM-3. -/
def memTop : Nat := 0x18000000000

/-- The address lies in HBM or the aquifer. -/
def memExists (pa : Nat) : Bool := decide (pa < memTop)

/-- Home die of an address (Table MEM-3). -/
def dieOfPa (pa : Nat) : Nat :=
  if pa < 0x8000000000 then pa / 0x4000000000 else (pa - 0x8000000000) / 0x8000000000

/-- XOR of the eight 5-bit chunks of a granule number (R155). -/
def fold5 (n : Nat) : Nat :=
  (List.range 8).foldl (fun acc i => acc ^^^ (n / 2 ^ (5 * i) % 32)) 0

/-- Home slice of an address on its die (R155). -/
def sliceOf (pa : Nat) : Nat := let n := pa / 8192; 32 * (n % 3) + fold5 n

/-- 128-byte line number of an address. -/
def lineOf (pa : Nat) : Nat := pa / 128

/-- Machine-check bank of the memory that holds an address (R308). -/
def memBank (pa : Nat) : Nat := if pa < 0x8000000000 then 626 + pa / 0x1000000000 else 634 + dieOfPa pa

/-! Parity arithmetic (R145, R146) -/

/-- Doubling in GF(2^8). -/
def gdouble (a : Nat) : Nat := if a * 2 < 256 then a * 2 else (a * 2) ^^^ 0x11D

/-- `gmul` of R145: n more bits of b. -/
def gmulLoop : Nat → Nat → Nat → Nat → Nat
  | 0, _, _, p => p
  | n + 1, a, b, p => gmulLoop n (gdouble a) (b / 2) (if b % 2 = 1 then p ^^^ a else p)

def gmul (a b : Nat) : Nat := gmulLoop 8 a b 0

def gpow : Nat → Nat
  | 0 => 1
  | n + 1 => gdouble (gpow n)

/-- A map over the n bytes of a number. -/
def mapBytes (f : Nat → Nat) : Nat → Nat → Nat
  | 0, _ => 0
  | n + 1, x => f (x % 256) + 256 * mapBytes f n (x / 256)

/-! Machine-check banks and messages (R307 to R310) -/

def Bank.zero : Bank := ⟨0, 0, 0, 0, 0⟩

/-- What an error record says: bank, class (Table FAB-6), source, sub-unit, address, context and team. -/
structure ErrInfo where
  bank : Nat
  cls : Nat
  source : Nat
  unit : Nat
  addr : Option Nat
  ctx : Option (Nat × Nat)
  synd : Option Nat

/-- The record of an error of the memory that holds an address; the sub-unit is the channel of an HBM address (R309). -/
def memError (pa cls source : Nat) (ctx : Option (Nat × Nat)) : ErrInfo :=
  { bank := memBank pa, cls := cls, source := source,
    unit := if pa < 0x8000000000 then Config.hbmChannel (lineOf pa) % 65536 else 0, addr := some pa, ctx := ctx, synd := none }

/-- STATUS of a new record over the old one (R309). -/
def Bank.record (b : Bank) (e : ErrInfo) (time : Nat) : Bank :=
  let st := b.status.toNat
  let corr := st / 2 ^ 32 % 2 ^ 16
  let corr' := if e.cls = 0 then min 65535 (corr + 1) else corr
  if st / 2 ^ 63 = 1 ∧ e.cls ≤ st / 2 ^ 60 % 4 then
    { b with status := BitVec.ofNat 64 (st - corr * 2 ^ 32 + corr' * 2 ^ 32 - st / 2 ^ 62 % 2 * 2 ^ 62 + 2 ^ 62) }
  else
    { status := BitVec.ofNat 64 (2 ^ 63 + st / 2 ^ 62 % 2 * 2 ^ 62 + e.cls * 2 ^ 60
        + (if e.addr.isSome then 2 ^ 59 else 0) + (if e.synd.isSome then 2 ^ 58 else 0)
        + (if e.ctx.isSome then 2 ^ 57 else 0) + corr' * 2 ^ 32 + e.source * 2 ^ 24 + e.unit),
      addr := BitVec.ofNat 64 (e.addr.getD 0),
      ctx := BitVec.ofNat 64 ((e.ctx.getD (0, 0)).2 * 2 ^ 32 + (e.ctx.getD (0, 0)).1),
      synd := BitVec.ofNat 64 (e.synd.getD 0), time := BitVec.ofNat 64 time }

/-- Record an error and report it: a CONTAINED or FATAL record, or a CORRECTED one that reaches its threshold, is
told to the host and the management controller; FATAL stops every context (R307, R310). -/
def State.recordError (s : State) (e : ErrInfo) : State :=
  let old := (aget s.banks e.bank).getD Bank.zero
  let b := old.record e s.packageNs
  let limit := (aget s.thresholds e.bank).getD 65535
  let tell := e.cls != 0 || (b.status.toNat / 2 ^ 32 % 2 ^ 16 == limit && old.status.toNat / 2 ^ 32 % 2 ^ 16 != limit)
  let s := { s with banks := aput s.banks e.bank b,
                    msgs := if tell then s.msgs ++ [.bank e.bank, .mctp e.bank] else s.msgs }
  if e.cls = 2 then { s with fatal := true, msgs := s.msgs ++ [.pcieFatal] } else s

/-! Translation (R166 to R170) -/

/-- A translated address: physical or bus address and the rights of its page. -/
structure Xl where
  pa : Nat
  r : Bool
  w : Bool
  x : Bool
  host : Bool
  mor : Bool
  deriving DecidableEq, Repr

/-- Levels of Table MEM-6 from the root: first VA bit, index bits, leaf allowed. -/
def walkLevels : List (Nat × Nat × Bool) :=
  [(48, 9, false), (39, 9, false), (30, 9, true), (21, 9, true), (16, 5, true)]

/-- A leaf entry at a level whose page is 2^lg bytes is one R167 allows. -/
def leafOk (e lg : Nat) : Bool :=
  let addr := e / 2 ^ 16 % 2 ^ 36 * 2 ^ 16
  e / 2 ^ 12 % 16 == 0 && addr % 2 ^ lg == 0 && !(e.testBit 7 && e.testBit 6) &&
    (e.testBit 6 || memExists addr)

/-- The walk of R166 from a table: the leaf entry and the size of its page, or none for a TRANSLATION cause. -/
def walkFrom (m : Memory) (va : Nat) : List (Nat × Nat × Bool) → Nat → Option (Nat × Nat)
  | [], _ => none
  | (sh, bits, leaf) :: rest, tbl =>
    if !memExists tbl then none else
    let e := sgetLE m (tbl + va / 2 ^ sh % 2 ^ bits * 8) 8
    if !e.testBit 0 || e / 2 ^ 52 != 0 || e / 2 ^ 9 % 8 != 0 || e.testBit 2 then none
    else if e.testBit 1 then (if leaf && leafOk e sh then some (e, sh) else none)
    else walkFrom m va rest (e / 2 ^ 16 % 2 ^ 36 * 2 ^ 16 + e / 2 ^ 12 % 16 * 2 ^ 12)

/-- The sixteen leaves of a coalesced run agree (R169): the first one's entry, else none. -/
def coalesced (m : Memory) (root va : Nat) : Option Nat :=
  let base := va / 2 ^ 25 * 2 ^ 25
  let leaf (i : Nat) := walkFrom m (base + i * 2 ^ 21) walkLevels root
  match leaf 0 with
  | some (e0, 21) =>
    let ok := (List.range 16).all (fun i =>
      match leaf i with
      | some (e, 21) => e.testBit 8 && e / 2 ^ 16 == e0 / 2 ^ 16 + i * 32 && e % 2 ^ 16 == e0 % 2 ^ 16
      | _ => false)
    if ok then some e0 else none
  | _ => none

/-- Physical place of a launch's copy of its argument block, apart from everything that page tables can name (R232; log
entry 19). -/
def argPlace (grid : Nat) : Nat := 2 ^ 51 + 65536 * grid

/-- The translation of a launch-owned area of a context, mapped without W (R232). -/
def State.argArea (s : State) (c va : Nat) : Option Tlb :=
  (s.grids.find? (fun p => p.2.ctx == c && p.2.argBytes != 0 && p.2.argCopy.toNat / 65536 == va / 65536)).map
    (fun p => { ctx := c, base := va / 65536 * 65536, lg := 16, pte := BitVec.ofNat 64 (argPlace p.1 + 0xB) })

/-- What a translation cache would hold for the page of an address after a walk of its tables (R169). -/
def State.walk (s : State) (c va : Nat) : Option Tlb :=
  match s.argArea c va with
  | some t => some t
  | none =>
  match s.ctx c with
  | none => none
  | some x =>
    match walkFrom s.mem va walkLevels x.ptRoot with
    | none => none
    | some (e, lg) =>
      if lg = 30 then
        let off := va / 2 ^ 25 * 2 ^ 25 - va / 2 ^ 30 * 2 ^ 30
        some { ctx := c, base := va / 2 ^ 25 * 2 ^ 25, lg := 25, pte := BitVec.ofNat 64 (e + off) }
      else if lg = 21 ∧ e.testBit 8 then
        match coalesced s.mem x.ptRoot va with
        | some e0 => some { ctx := c, base := va / 2 ^ 25 * 2 ^ 25, lg := 25, pte := BitVec.ofNat 64 e0 }
        | none => some { ctx := c, base := va / 2 ^ 21 * 2 ^ 21, lg := 21, pte := BitVec.ofNat 64 e }
      else some { ctx := c, base := va / 2 ^ lg * 2 ^ lg, lg := lg, pte := BitVec.ofNat 64 e }

def Tlb.covers (t : Tlb) (c va : Nat) : Bool := t.ctx == c && va / 2 ^ t.lg * 2 ^ t.lg == t.base

/-- The translation that an entry gives an address. -/
def Tlb.at_ (t : Tlb) (va : Nat) : Xl :=
  let e := t.pte.toNat
  { pa := e / 2 ^ 16 % 2 ^ 36 * 2 ^ 16 + (va - t.base), r := e.testBit 3, w := e.testBit 4, x := e.testBit 5,
    host := e.testBit 6, mor := e.testBit 7 }

/-! Bytes of memory -/

/-- Write bytes at a physical address, without any other effect; a whole-line write clears poison (R306). -/
def State.putBytes (s : State) (pa n x : Nat) : State :=
  let s := s.setMem (ssetLE s.mem pa n x)
  if n = 128 ∧ pa % 128 = 0 then { s with poison := s.poison.filter (· != pa / 128) } else s

/-! Fabric requests (R288, R289, R292) -/

/-- Fabric timeout in clocks. -/
def State.fto (s : State) : Nat := usClocks s.ctl.fto

/-- The first free tag of a die at or after a start, none when all are in use or not yet reusable. -/
def firstFreeTag (s : State) (die : Nat) : Nat → Nat → Option Nat
  | 0, _ => none
  | n + 1, t =>
    match s.fabTags.find? (fun x => x.die == die && x.tag == t) with
    | none => some t
    | some x =>
      if !x.busy && decide (x.sentAt + 2 * s.fto ≤ s.clock) then some t
      else firstFreeTag s die n ((t + 1) % 4096)

/-- The generation that a tag's next send carries: it rises by one at every send (R292). -/
def State.nextGen (s : State) (die tag : Nat) : Nat :=
  match s.fabTags.find? (fun x => x.die == die && x.tag == tag) with
  | none => 1
  | some x => (x.gen + 1) % 16

/-- Send a request from a die under a free tag, with the next sequence number to its target (R289, R292). -/
def State.sendReq (s : State) (die : Nat) (p : FabPkt) (why : ReqFor) : Option Nat × State :=
  let d := s.draw
  match firstFreeTag d.2 die 4096 (d.1 % 4096) with
  | none => (none, d.2)
  | some t =>
    let s := d.2
    let gen := s.nextGen die t
    let sq := (aget s.fabSeq (die, p.dst)).getD 0
    let p := { p with tag := t, gen := gen, ogen := gen, seq := sq, src := s.ctl.rank }
    let e : FabTag := { die := die, tag := t, gen := gen, ogen := gen, pkt := p, sentAt := s.clock, retries := 0,
                        busy := true, why := why }
    (some t, { s with fabTags := e :: s.fabTags.filter (fun x => !(x.die == die && x.tag == t)),
                      fabSeq := aput s.fabSeq (die, p.dst) ((sq + 1) % 2 ^ 32), fabOut := s.fabOut ++ [p] })

/-! Moraine parity (R301, R302) -/

/-- A valid set-table entry of a moraine frame: its index, member number, DEG, holders and parity address. -/
structure SetEnt where
  idx : Nat
  member : Nat
  deg : Bool
  p : Nat
  q : Nat
  parity : Nat
  offset : Nat

/-- The valid set-table entry for an address of the moraine region (R301). -/
def State.setEntry (s : State) (pa : Nat) : Option SetEnt :=
  if s.ctl.setTab = 0 || s.ctl.setLen = 0 then none else
  let base := sgetLE s.mem s.ctl.setTab 8
  let len := sgetLE s.mem (s.ctl.setTab + 8) 8
  if pa < base || base + len ≤ pa then none else
  let f := (pa - base) / 65536
  if s.ctl.setLen ≤ f + 1 then none else
  let w0 := sgetLE s.mem (s.ctl.setTab + 16 * (f + 1)) 8
  let w1 := sgetLE s.mem (s.ctl.setTab + 16 * (f + 1) + 8) 8
  let p := w0 / 2 ^ 38 % 2 ^ 10
  let q := w0 / 2 ^ 48 % 2 ^ 10
  let i := w0 / 2 ^ 32 % 16
  if w0.testBit 37 || w0 / 2 ^ 58 != 0 || 13 < i || p == q || p == s.ctl.rank || q == s.ctl.rank then none
  else some ⟨f + 1, i, w0.testBit 36, p, q, w1, (pa - base) % 65536⟩

/-- Set DEG in a set-table entry (R302). -/
def State.setDeg (s : State) (idx : Nat) : State :=
  let a := s.ctl.setTab + 16 * idx
  let w0 := sgetLE s.mem a 8
  s.putBytes a 8 (if w0.testBit 36 then w0 else w0 + 2 ^ 36)

/-- A moraine unit's set cannot be covered any more: DEG, and the mark on the groups whose unit it is, where GIDs from 64 up stand
for a team's engine commands (R193, R302). -/
def State.deltaLost (s : State) (idx : Nat) (owners : List GRef) : State :=
  let s := s.setDeg idx
  owners.foldl (fun s g =>
    if 64 ≤ g.gid then s.onTeam g.team (fun t => { t with survBad := g.gid :: t.survBad })
    else s.onGroup g (fun gr => { gr with survDeg := true })) s

/-- A request packet of an opcode to a rank, every other field zero (Table FAB-2). -/
def reqPacket (opc dst : Nat) : FabPkt :=
  { opc := opc, vc := 0, dst := dst, src := 0, tag := 0, gen := 0, ogen := 0, rty := false, status := 0, offset := 0,
    time := 0, attr := 0, opnd := 0, cmp := 0, ctx := 0, seq := 0, data := [] }

/-- Words of n bytes of data. -/
def dataWords (n x : Nat) : List Nat := (List.range ((n + 7) / 8)).map (fun i => x / 2 ^ (64 * i) % 2 ^ 64)

/-- A packet with n bytes: up to 8 in OPND, more as data flits (Table FAB-2). -/
def FabPkt.carry (p : FabPkt) (n x : Nat) : FabPkt :=
  if n ≤ 8 then { p with opnd := x % 256 ^ n } else { p with data := dataWords n x }

/-- The bytes that a packet carries. -/
def FabPkt.value (p : FabPkt) : Nat :=
  if p.data.isEmpty then p.opnd else p.data.foldr (fun w n => w % 2 ^ 64 + 2 ^ 64 * n) 0

/-- A DELTA packet (R302, Table FAB-2): up to 8 bytes in OPND, more as one data flit, whose further bytes are zero. -/
def deltaPacket (d : Delta) : FabPkt :=
  { reqPacket 5 d.holder with vc := 2, offset := d.offset }.carry (if d.bytes ≤ 8 then d.bytes else 64) d.xor_

/-- Send one parity delta to a holder, or find the holder gone (R302, R303). It waits behind one of its die that waits for
a tag (R194). -/
def State.sendDelta (s : State) (d : Delta) : State :=
  if s.lost.contains d.holder || s.unreachable.contains d.holder then s.deltaLost d.entry d.owners
  else if s.deltas.any (fun x => x.die == d.die && x.holder == d.holder && x.tag.isNone) then
    { s with deltas := s.deltas ++ [{ d with tag := none }] }
  else
    let r := s.sendReq d.die (deltaPacket d) (.delta d.die)
    { r.2 with deltas := r.2.deltas ++ [{ d with tag := r.1 }] }

/-- Note that a group, or a team's engines, has written to a moraine frame. -/
def State.touchFrame (s : State) (owners : List GRef) (idx : Nat) : State :=
  owners.foldl (fun s g =>
    if 64 ≤ g.gid then
      s.onTeam g.team (fun t => if t.mor.contains (g.gid, idx) then t else { t with mor := (g.gid, idx) :: t.mor })
    else s.onGroup g (fun r => if r.morFrames.contains idx then r else { r with morFrames := idx :: r.morFrames })) s

/-- P and Q deltas of a change of n bytes at an address (R146, R302). -/
def State.sendDeltas (s : State) (pa n diff : Nat) (owners : List GRef) : State :=
  match s.setEntry pa with
  | none => s
  | some e =>
    let s := s.touchFrame owners e.idx
    let mk (holder x : Nat) : Delta :=
      { die := dieOfPa pa, holder := holder, frame := e.parity, offset := e.parity + e.offset, xor_ := x, bytes := n,
        tag := none, owners := owners, entry := e.idx }
    (s.sendDelta (mk e.p diff)).sendDelta (mk e.q (mapBytes (gmul (gpow e.member)) n diff))

/-! Translation caches and the owners of frames (R169, R170, R172) -/

/-- Parity deltas of a change of a range: one for every piece of at most 64 bytes of it that has changed (R302). -/
def State.rangeDeltas (s : State) (old : Memory) (pa n : Nat) (owners : List GRef) : State :=
  if s.ctl.setTab = 0 then s else
  ((List.range (n / 64 + 2)).map (fun i => let a := max pa ((pa / 64 + i) * 64); (a, min (pa + n) ((pa / 64 + i + 1) * 64) - a))).foldl
    (fun s p =>
      let diff := sgetLE old p.1 p.2 ^^^ sgetLE s.mem p.1 p.2
      if diff = 0 then s else s.sendDeltas p.1 p.2 diff owners) s

/-- A line shares a byte with a range. -/
def lineMeets (line pa n : Nat) : Bool := decide (pa < line * 128 + 128) && decide (line * 128 < pa + n)

/-- Zero a range for a new owner (R172): its bytes, every copy and partial of its lines, the code fetched from it, and the
poison of the lines it covers; remote holders of its lines are told to give them up. -/
def State.zeroRange (s : State) (pa n : Nat) : State :=
  let far := s.remoteHolders.filter (fun h => lineMeets h.line pa n)
  let old := s.mem
  { s with
    mem := sclear s.mem pa n,
    l1 := s.l1.filter (fun c => c.rank.isSome || !lineMeets c.line pa n),
    rdc := s.rdc.filter (fun c => c.rank.isSome || !lineMeets c.line pa n),
    excl := s.excl.filter (fun e => !lineMeets e.line pa n),
    upart := s.upart.filter (fun u => u.rank.isSome || !lineMeets u.line pa n),
    remoteHolders := s.remoteHolders.filter (fun h => !lineMeets h.line pa n),
    code := s.code.filter (fun k => k.1.2.1 || !lineMeets k.1.2.2 pa n),
    poison := s.poison.filter (fun l => !(decide (pa ≤ l * 128) && decide (l * 128 + 128 ≤ pa + n))),
    fabOut := s.fabOut ++ far.map (fun (h : RemoteHolder) =>
      { reqPacket 0x86 h.rank with vc := 4, src := s.ctl.rank, offset := h.line * 128 }) }.rangeDeltas old pa n []

/-- What is left of an owner's range outside another range. -/
def FrameOwn.outside (f : FrameOwn) (pa n : Nat) : List FrameOwn :=
  if f.pa + f.bytes ≤ pa || pa + n ≤ f.pa then [f] else
  (if f.pa < pa then [{ f with bytes := pa - f.pa }] else []) ++
  (if pa + n < f.pa + f.bytes then
    [{ f with pa := pa + n, bytes := f.pa + f.bytes - (pa + n), va := f.va.map (· + (pa + n - f.pa)) }] else [])

/-- The owner's page tables still name the place of a physical address of its range. -/
def State.stillMaps (s : State) (f : FrameOwn) (pa : Nat) : Bool :=
  match f.va with
  | none => false
  | some va =>
    let va := va + (pa - f.pa)
    match s.walk f.ctx va with
    | some t => (t.at_ va).pa == pa && !(t.at_ va).host
    | none => false

/-- Ranges of other contexts that share a byte with a range and that their owners have given up. -/
def State.leftBy (s : State) (c : Option Nat) (pa n : Nat) : List FrameOwn :=
  s.frameOwner.filter (fun f => some f.ctx != c && decide (f.pa < pa + n) && decide (pa < f.pa + f.bytes) &&
    !s.stillMaps f (max f.pa pa))

/-- A range passes to a context, or to the host: what another context owned of it last and has given up is zeroed before its
first access (R172; DESIGN CHOICE, log entry 74). -/
def State.takeOver (s : State) (c : Option Nat) (pa n : Nat) (va : Option Nat) : State :=
  if memTop ≤ pa || (match c with
      | some x => s.frameOwner.any (fun f => f.ctx == x && decide (f.pa ≤ pa) && decide (pa + n ≤ f.pa + f.bytes))
      | none => s.frameOwner.isEmpty) then s else
  let gone := s.leftBy c pa n
  let s := gone.foldl (fun s f =>
    let lo := max f.pa pa
    s.zeroRange lo (min (f.pa + f.bytes) (pa + n) - lo)) s
  let kept := s.frameOwner.flatMap (fun f => if gone.contains f || some f.ctx == c then f.outside pa n else [f])
  { s with frameOwner := (match c with
    | some x => ⟨pa, n, x, va⟩ :: kept
    | none => kept) }

/-- Entries that a translation cache holds (R169). -/
def TlbRoom.size : TlbRoom → Nat
  | .core _ => 512
  | .small _ => 4096
  | .last _ => 16384

/-- The caches that an access uses: its core's and those of the core's die; those of die 0 for the package's other agents. -/
def TlbRoom.serves (core : Option Nat) : TlbRoom → Bool
  | .core n => core == some n
  | .small d => d == (match core with
    | some n => coreDie n
    | none => 0)
  | .last d => d == (match core with
    | some n => coreDie n
    | none => 0)

/-- An entry enters its cache; a full cache first gives up one of its entries, of its own choice. -/
def State.cacheTlb (s : State) (t : Tlb) : State :=
  if s.tlb.contains t then s else
  let held := s.tlb.filter (fun x => x.room == t.room)
  let d := if held.length < t.room.size then (none, s) else s.pickOf (held.map some) none
  { d.2 with tlb := t :: d.2.tlb.filter (fun x => some x != d.1) }

/-- What a walk found is cached: a 64 KiB page in the small-page cache of the die, another in its last level, and either in the
core's own cache (R169). A frame that the entry names passes to the context (R172). -/
def State.fillTlb (s : State) (core : Option Nat) (t : Tlb) : State :=
  let die := match core with
    | some n => coreDie n
    | none => 0
  let s := s.cacheTlb { t with room := if t.lg = 16 then .small die else .last die }
  let s := match core with
    | some n => s.cacheTlb { t with room := .core n }
    | none => s
  let x := t.at_ t.base
  if x.host then s else s.takeOver (some t.ctx) x.pa (2 ^ t.lg) (some t.base)

/-- Results that an access to an address may translate to: the tables' own, and those of entries cached before an
invalidation of them has completed (R170). -/
def State.xlates (s : State) (c va : Nat) (core : Option Nat := none) : List (Option Xl) :=
  let fresh := (s.walk c va).map (·.at_ va)
  let old := ((s.tlb.filter (fun t => t.covers c va && t.room.serves core)).map (fun t => some (t.at_ va))).eraseDups
  fresh :: old.filter (· != fresh)

/-- Translate an address of a context: none is a TRANSLATION cause. What is walked is cached (R169); a cached older
entry may serve the access (R170). -/
def State.translate (s : State) (c va : Nat) (core : Option Nat := none) : Option Xl × State :=
  if va ≥ 2 ^ 57 then (none, s) else
  let l := s.xlates c va core
  let d := s.pick l.length
  let s := d.2
  let res := l.getD d.1 none
  let s := match d.1, s.walk c va with
    | 0, some t => s.fillTlb core t
    | _, _ => s
  (res, s)

/-! Trace records (R332) -/

/-- What a trace record says beside its time. -/
structure TraceInfo where
  kind : Nat
  detail : Nat
  orig : W64
  w2 : W64
  teamId : Nat
  core : Nat
  qtr : Nat
  gid : Nat
  stall : Nat

def TraceInfo.word3 (t : TraceInfo) : Nat :=
  t.teamId * 2 ^ 32 + t.core * 2 ^ 23 + t.qtr * 2 ^ 21 + t.gid * 2 ^ 16 + t.stall * 2 ^ 11 + t.kind * 2 ^ 8 + t.detail

/-- Write a trace record to the ring of a context, or drop it (R332). -/
def State.trace (s : State) (c : Nat) (t : TraceInfo) : State :=
  match aget s.obs (c % 4096) with
  | none => s
  | some p =>
    if p.trCap = 0 || !p.trMask.testBit t.kind then s
    else if (p.trTail + 2 ^ 32 - p.trHead) % 2 ^ 32 = p.trCap then
      { s with obs := aput s.obs (c % 4096) { p with drops := (p.drops + 1) % 2 ^ 48 } }
    else
      let x := s.translate c (p.trBase.toNat + 32 * (p.trTail % p.trCap))
      match x.1 with
      | some xl =>
        if xl.w && !xl.host then
          let s := x.2.putBytes xl.pa 32
            (s.timeNs t.core + t.orig.toNat * 2 ^ 64 + t.w2.toNat * 2 ^ 128 + t.word3 * 2 ^ 192)
          { s with obs := aput s.obs (c % 4096) { p with trTail := (p.trTail + 1) % 2 ^ 32 } }
        else { x.2 with obs := aput x.2.obs (c % 4096) { p with drops := (p.drops + 1) % 2 ^ 48 } }
      | none => { x.2 with obs := aput x.2.obs (c % 4096) { p with drops := (p.drops + 1) % 2 ^ 48 } }

/-! Counters (R336 to R338) -/

/-- The function that owns a context (Table HQ-11); the PF where no entry is valid. -/
def State.funcOf (s : State) (c : Nat) : Nat :=
  let e := ((aget s.owners (c % 4096)).getD 0).toNat
  if e / 2 ^ 63 = 1 then e / 2 ^ 32 % 32 else 0

/-- Contexts of a function whose observation page has a trace bit set. -/
def State.tracing (s : State) (func kind : Nat) : List Nat :=
  (s.ctxs.map (·.1)).filter (fun c => s.funcOf c == func &&
    (match aget s.obs (c % 4096) with
     | some p => p.trMask.testBit kind
     | none => false))

/-- One counter after n more events; the flag says that it wrapped with INT set. -/
def Counter.add (k : Counter) (n : Nat) : Counter × Bool :=
  let v := k.value.toNat + n
  if v < 2 ^ 48 then ({ k with value := BitVec.ofNat 48 v }, false)
  else ({ ctl := k.ctl ||| 0x10000, value := BitVec.ofNat 48 v }, k.ctl.getLsbD 17)

/-- Count n events of a context on a core: only where the core's observed function owns the context (R337). A wrap
with INT set tells the owning function alone (R338). -/
def State.count (s : State) (core c ev n : Nat) : State :=
  let k := s.core core
  if k.observed != some (s.funcOf c) then s else
  let hit (x : Nat × Counter) : Bool := x.2.ctl.getLsbD 15 && x.2.ctl.toNat % 256 == ev
  if !k.counters.any hit then s else
  let gone := (k.counters.filter (fun x => hit x && (x.2.add n).2)).map (·.1)
  let s := s.setCore core { k with counters := k.counters.map (fun x => if hit x then (x.1, (x.2.add n).1) else x) }
  gone.foldl (fun s m =>
    let f := s.funcOf c
    let s := (s.tracing f 7).foldl (fun s c => s.trace c
      { kind := 7, detail := m, orig := 0, w2 := 0, teamId := 0, core := core, qtr := 0, gid := 0, stall := 0 }) s
    { s with msgs := s.msgs ++ [.msix f 1] }) s

/-! Pages that move (R171; DESIGN CHOICE, log entry 36) -/

/-- A page that is locked for a move holds stores to it (R171). -/
def State.locked (s : State) (pa : Nat) : Bool :=
  s.migrations.any (fun m => decide (m.old ≤ pa) && decide (pa < m.old + m.bytes)) ||
  s.rebuilds.any (fun r => r.frames.any (fun f => decide (f ≤ pa) && decide (pa < f + 65536)))

/-- A logical time past every write that has been performed: that of the package's own agents (DESIGN CHOICE, log entry 17). -/
def State.nowPts (s : State) : Nat := s.leases.foldl (fun m l => max m l.2.wts) 0

/-- A frame of the moraine region that this package, a spare, has still to rebuild (R304). -/
def State.unbuilt (s : State) (pa : Nat) : Bool :=
  s.rebuilds.any (fun r => r.spare == s.ctl.rank && r.frames.any (fun f => decide (f ≤ pa) && decide (pa < f + 65536)))

/-- Replace n bytes at an address by those of a block from an offset on, without any other effect. -/
def splice (m : Memory) (pa n off : Nat) (r : Store 8) : Memory :=
  let piece := (r.filter (fun p => decide (off ≤ p.1) && decide (p.1 < off + n))).map (fun p => (p.1 - off + pa, p.2))
  m.filter (fun p => decide (p.1 < pa)) ++ piece ++ m.filter (fun p => decide (pa + n ≤ p.1))

/-- The leaf entry of an address: where it lies, its value and the size of its page. -/
def leafAt (m : Memory) (va : Nat) : List (Nat × Nat × Bool) → Nat → Option (Nat × Nat × Nat)
  | [], _ => none
  | (sh, bits, leaf) :: rest, tbl =>
    if !memExists tbl then none else
    let a := tbl + va / 2 ^ sh % 2 ^ bits * 8
    let e := sgetLE m a 8
    if !e.testBit 0 || e / 2 ^ 52 != 0 || e / 2 ^ 9 % 8 != 0 || e.testBit 2 then none
    else if e.testBit 1 then (if leaf && leafOk e sh then some (a, e, sh) else none)
    else leafAt m va rest (e / 2 ^ 16 % 2 ^ 36 * 2 ^ 16 + e / 2 ^ 12 % 16 * 2 ^ 12)

/-- The address lies in the old copy of a page that moves. -/
def Migration.inOld (m : Migration) (pa : Nat) : Bool := decide (m.old ≤ pa) && decide (pa < m.old + m.bytes)

/-- An address after the move. -/
def Migration.move (m : Migration) (pa : Nat) : Nat := if m.inOld pa then pa - m.old + m.new else pa

/-- A line after the move. -/
def Migration.moveLine (m : Migration) (l : Nat) : Nat := lineOf (m.move (l * 128))

/-- What a group has outstanding goes to the new copy. -/
def Group.relocated (gr : Group) (f : Nat → Nat) : Group :=
  { gr with
    out := gr.out.map (fun o => { o with units := o.units.map (fun u => if u.space = .global then { u with pa := f u.pa } else u) }),
    mx := gr.mx.map (fun c => { c with pa := f c.pa, tiles := c.tiles.map f }),
    unflushed := gr.unflushed.map (fun p => (p.1, f p.2)) }

/-- The entry of a page that has moved names the new place (R171). -/
def State.rewriteEntry (s : State) (m : Migration) : State :=
  let root := match s.ctx m.ctx with
    | some x => x.ptRoot
    | none => memTop
  match leafAt s.mem m.va walkLevels root with
  | some (a, e, _) =>
    if e / 2 ^ 16 % 2 ^ 36 * 2 ^ 16 = m.old then s.putBytes a 8 (e % 2 ^ 16 + m.new) else s
  | none => s

/-- The switch of a page's move, as one step: its bytes, with the timestamps of its lines and the code fetched from it, are at the
new place, with deltas where that is a moraine frame (R302); the entry is rewritten and every cached translation of the page is
dropped; what was held goes to the new copy. -/
def State.switchPage (s : State) (m : Migration) : State :=
  let s := s.takeOver (some m.ctx) m.new m.bytes (some (m.va / m.bytes * m.bytes))
  let old := s.mem
  let s := (s.setMem (splice s.mem m.new m.bytes m.old s.mem)).rangeDeltas old m.new m.bytes []
  let s := s.rewriteEntry m
  { s with
    migrations := s.migrations.filter (· != m),
    tlb := s.tlb.filter (fun t => !(decide (t.pte.toNat / 2 ^ 16 % 2 ^ 36 * 2 ^ 16 < m.old + m.bytes) &&
      decide (m.old < t.pte.toNat / 2 ^ 16 % 2 ^ 36 * 2 ^ 16 + 2 ^ t.lg))),
    leases := s.leases.foldl (fun l x => if m.inOld (x.1 * 128) then aput l (m.moveLine x.1) x.2 else l) s.leases,
    poison := s.poison.map m.moveLine,
    code := s.code.map (fun k => (if k.1.2.1 then k.1 else (k.1.1, false, m.moveLine k.1.2.2), k.2)),
    groups := s.groups.map (fun p => (p.1, p.2.relocated m.move)),
    sends := s.sends.map (fun t => { t with pa := m.move t.pa }),
    cores := s.cores.map (fun c => (c.1, { c.2 with staging := c.2.staging.map (fun e => { e with pa := m.move e.pa }) })),
    obs := s.obs.map (fun p => (p.1, { p.2 with hwPages := p.2.hwPages.map (fun w => (w.1, m.move w.2.1, w.2.2)) })) }

/-- A write of an agent that the model does not hold back meets a locked page: the move ends, or the frame is released, before
the write, which then goes to where the page is: the address, with the state (R171; DESIGN CHOICE, log entry 36). -/
def State.unlock (s : State) (pa : Nat) : Nat × State :=
  match s.migrations.find? (·.inOld pa) with
  | some m => (m.move pa, s.switchPage m)
  | none =>
    if s.locked pa && !s.unbuilt pa then
      (pa, { s with rebuilds := s.rebuilds.map (fun r =>
        { r with frames := r.frames.filter (fun f => !(decide (f ≤ pa) && decide (pa < f + 65536))) }) })
    else (pa, s)

/-! The home of a line (R156 to R159) -/

/-- Who writes: its logical time, the agent word of a home-side watchpoint record, and the groups it writes for. -/
structure Writer where
  pts : Nat
  agent : W64
  owners : List GRef

def State.leaseOf (s : State) (line : Nat) : Lease := (aget s.leases line).getD ⟨0, 0⟩

/-- A write at the home raises the line's timestamps (R157). -/
def State.leaseWrite (s : State) (pts line : Nat) : State :=
  let w := max pts ((s.leaseOf line).rts + 1)
  { s with leases := aput s.leases line ⟨w, w⟩ }

/-- KIND 6 records of the home-side watchpoints that a write unit hits (R335). -/
def State.homeWatch (s : State) (pa n : Nat) (agent : W64) : State :=
  (s.obs.foldl (fun acc p =>
    let hit := p.2.hwPages.any (fun w =>
      (p.2.hw.getD w.1 (0, 0)).1.getLsbD 63 && (p.2.hw.getD w.1 (0, 0)).1.getLsbD 61 && decide (pa < w.2.1 + w.2.2) && decide (w.2.1 < pa + n))
    if hit then acc ++ [p.1] else acc) ([] : List Nat)).foldl (fun s i =>
      match s.ctxs.find? (fun c => c.1 % 4096 == i) with
      | none => s
      | some c => s.trace c.1 { kind := 6, detail := 0, orig := BitVec.ofNat 64 pa, w2 := agent, teamId := 0,
                                core := if agent.toNat / 2 ^ 60 = 0 then agent.toNat % 2 ^ 32 else 0,
                                qtr := 0, gid := 0, stall := 0 }) s

/-- A write unit performed at its home: bytes, timestamps, parity deltas, home-side watchpoints. -/
def State.homePut (s : State) (wr : Writer) (pa n x : Nat) (mor : Bool) : State :=
  let u := s.unlock pa
  let pa := u.1
  let s := u.2
  let old := sgetLE s.mem pa n
  let s := (s.putBytes pa n x).leaseWrite wr.pts (lineOf pa)
  let s := if mor then s.sendDeltas pa n (old ^^^ (x % 256 ^ n)) wr.owners else s
  s.homeWatch pa n wr.agent

/-- Apply a partial of state U at the line's home (R159). -/
def State.applyPartial (s : State) (u : UPart) : State :=
  let agent : W64 := match u.holder with
    | .core n => BitVec.ofNat 64 n
    | .rdc d => BitVec.ofNat 64 (d * 192)
  u.cells.foldl (fun s c =>
    s.homePut ⟨0, agent, u.owners⟩ c.1 u.w.bytes (u.op.apply u.w (sgetLE s.mem c.1 u.w.bytes) c.2 0) u.mor) s

/-- The tag of a request notes the grids whose accesses it carries. -/
def State.noteGrids (s : State) (die : Nat) (tag : Option Nat) (grids : List Nat) : State :=
  { s with fabTags := s.fabTags.map (fun (x : FabTag) =>
      if x.die == die && some x.tag == tag then { x with grids := grids } else x) }

/-- A partial of a line of another package goes there as no-return atomics (R159), as far as there are tags; one of this
package is applied. -/
def State.sendPartial (s : State) (u : UPart) : State :=
  match u.rank with
  | none => s.applyPartial u
  | some r =>
    let die := match u.holder with
      | .core n => coreDie n
      | .rdc d => d
    u.cells.foldl (fun s c =>
      let q := s.sendReq die { reqPacket 4 r with
                       offset := c.1, attr := (if u.w = .w64 then 0x105 else 4) + u.op.opNum * 16, opnd := c.2, ctx := u.ctx }
        (.partial_ u.owners)
      if q.1.isSome then q.2.noteGrids die q.1 u.grids else { q.2 with upart := q.2.upart ++ [{ u with cells := [c] }] }) s

/-- n free numbers. -/
def draws : Nat → State → List Nat × State
  | 0, s => ([], s)
  | n + 1, s => let d := s.draw; let r := draws n d.2; (d.1 :: r.1, r.2)

/-- A remote holder returns its partial of a line, whose operation, width and values only it knows; a lost package returns
none (R159). -/
def State.takeRemote (s : State) (h : RemoteHolder) : State :=
  let s := { s with remoteHolders := s.remoteHolders.filter (· != h) }
  if s.lost.contains h.rank then s else
  let d := draws 34 s
  let op := AOp.ofNum (d.1.getD 0 0 % 8)
  let w : AWidth := if d.1.getD 1 0 % 2 = 0 then .w32 else .w64
  let cells := (List.range (128 / w.bytes)).filterMap (fun i =>
    let x := d.1.getD (i + 2) 0
    if x % 2 = 0 then none else some (h.line * 128 + w.bytes * i, x / 2 % 2 ^ w.bits))
  cells.foldl (fun s c =>
    s.homePut ⟨0, BitVec.ofNat 64 (5 * 2 ^ 60 + h.rank), []⟩ c.1 w.bytes (op.apply w (sgetLE s.mem c.1 w.bytes) c.2 0) true) d.2

/-- The home takes an exclusive copy of a line back from every die but one, for which the access is made (R158, R296). Its bytes
are in the model's memory, so only the snoop filter's record changes (log entry 15). -/
def State.recallExcl (s : State) (by_ : Option Nat) (line : Nat) : State :=
  { s with excl := s.excl.filter (fun e => !(e.line == line && some e.die != by_)) }

/-- Recall every partial of a line homed here, and its exclusive copy unless the access is one of that die, before the line is
served (R158, R159, R296). -/
def State.flushLine (s : State) (line : Nat) (by_ : Option Nat := none) : State :=
  let s := s.recallExcl by_ line
  let far := s.remoteHolders.filter (fun h => h.line == line)
  let s : State := { s with fabOut := s.fabOut ++ far.map (fun (h : RemoteHolder) =>
    { reqPacket 0x86 h.rank with vc := 4, src := s.ctl.rank, offset := line * 128 }) }
  let s := far.foldl (fun s h => s.takeRemote h) s
  let mine := s.upart.filter (fun u => u.rank.isNone && u.line == line)
  if mine.isEmpty then s else
  let s := { s with upart := s.upart.filter (fun u => !(u.rank.isNone && u.line == line)) }
  mine.foldl (fun s u => s.applyPartial u) s

/-- Partials and exclusive copies of lines in a range go home. -/
def State.recallRange (s : State) (pa n : Nat) : State :=
  ((s.upart.filter (fun u => u.rank.isNone && lineMeets u.line pa n)).map (·.line) ++
    (s.remoteHolders.filter (fun h => lineMeets h.line pa n)).map (·.line) ++
    (s.excl.filter (fun e => lineMeets e.line pa n)).map (·.line)).eraseDups.foldl (fun s l => s.flushLine l) s

/-- A read unit served by the home, for a die where one of its cores makes it. -/
def State.homeGet (s : State) (pa n : Nat) (by_ : Option Nat := none) : Nat × State :=
  let s := s.flushLine (lineOf pa) by_
  (sgetLE s.mem pa n, s)

/-- A write unit served by the home, or by an exclusive RDC copy of the writer's die, which acts for it: the model keeps the
bytes and the timestamps in one place (R158, R159; DESIGN CHOICE, log entry 15). -/
def State.homeSet (s : State) (wr : Writer) (pa n x : Nat) (mor : Bool) (by_ : Option Nat := none) : State :=
  (s.flushLine (lineOf pa) by_).homePut wr pa n x mor

/-- Lines that hold a byte of a range. -/
def linesOf (pa n : Nat) : List Nat := (List.range ((pa % 128 + n + 127) / 128)).map (lineOf pa + ·)

/-- A read at the home at a logical time: no later write of the lines is placed before it (R157, R177). -/
def State.leaseRead (s : State) (pts pa n : Nat) : State :=
  (linesOf pa n).foldl (fun s line =>
    let l := s.leaseOf line
    { s with leases := aput s.leases line ⟨l.wts, max l.rts pts⟩ }) s

/-- A read of a range by an agent that is no core, at its place after every write performed so far (R174, R177, R183; log
entry 17). -/
def State.agentGet (s : State) (pa n : Nat) : Nat × State :=
  let s := s.recallRange pa n
  let s := s.leaseRead s.nowPts pa n
  (sgetLE s.mem pa n, s)

/-- Writes of a range at a logical time raise the timestamps of its lines: of those with timestamps, and where asked of every
line. -/
def State.leaseRange (s : State) (all : Bool) (t pa n : Nat) : State :=
  let old := s.leases.map (fun l =>
    if lineMeets l.1 pa n then (l.1, (⟨max t (l.2.rts + 1), max t (l.2.rts + 1)⟩ : Lease)) else l)
  let have_ := (old.filter (fun l => lineMeets l.1 pa n)).map (·.1)
  { s with leases := old ++
      (if all then ((linesOf pa n).filter (fun l => !have_.contains l)).map (fun l => (l, (⟨max t 1, max t 1⟩ : Lease))) else []) }

/-- Replace n bytes at a physical address by those of a block from an offset on: the home takes partials back first, cached
copies age as by any write, and each piece of a moraine frame that changes yields its deltas (R157, R159, R302). -/
def State.putRange (s : State) (pa n off : Nat) (r : Store 8) (owners : List GRef := []) (all : Bool := false) : State :=
  let u := s.unlock pa
  let pa := u.1
  let s := u.2.recallRange pa n
  let old := s.mem
  let s := (s.setMem (splice s.mem pa n off r)).leaseRange all s.nowPts pa n
  { s with poison := s.poison.filter (fun l => !(decide (pa ≤ l * 128) && decide (l * 128 + 128 ≤ pa + n))) }.rangeDeltas
    old pa n owners

/-- Copy n bytes between physical addresses, as accesses of an agent of the package (R174, R302). -/
def State.copyRange (s : State) (src dst n : Nat) (owners : List GRef := []) : State :=
  let s := (s.recallRange src n).leaseRead s.nowPts src n
  s.putRange dst n src s.mem owners true

/-! Copies in L1 and the RDC (R157, R158) -/

/-- The bytes of a line. -/
def lineBytes (m : Memory) (line : Nat) : Store 8 :=
  m.filter (fun p => decide (line * 128 ≤ p.1) && decide (p.1 < line * 128 + 128))

def State.setPts (s : State) (core : Nat) (p : Nat) : State := s.onCore core (fun c => { c with pts := p })

/-- Two cores meet at one point of the order outside the leases, as on a scratch word of one of them: both go on at the
later logical time (R177; DESIGN CHOICE, log entry 17). -/
def State.meetCores (s : State) (a b : Nat) : State :=
  if a = b then s else
  let p := max (s.core a).pts (s.core b).pts
  (s.setPts a p).setPts b p

/-- Everything performed so far precedes what a core does next: its logical time passes every write (R184, R187; log
entry 17). -/
def State.acquire (s : State) (core : Nat) : State :=
  s.setPts core (s.leases.foldl (fun m l => max m l.2.wts) (s.core core).pts)

/-- Read from a copy: the core's logical time rises to the copy's wts. -/
def State.readCopy (s : State) (core : Nat) (cp : Copy) (pa n : Nat) : Nat × State :=
  (sgetLE cp.data pa n, s.setPts core (max (s.core core).pts cp.lease.wts))

/-- Two copies are of the same line. -/
def Copy.same (a b : Copy) : Bool := a.line == b.line && a.rank == b.rank && (a.rank.isNone || a.ctx == b.ctx)

def putCopy (l : List Copy) (cp : Copy) : List Copy :=
  cp :: l.filter (fun x => !(x.holder == cp.holder && x.same cp))

/-! Room in a core's L1 and in a die's RDC (R1, R9, R13, R76) -/

/-- Lines of 128 bytes: 128 KiB of a core's L1, 32 MiB of a die's RDC. -/
def UHolder.room : UHolder → Nat
  | .core _ => 1024
  | .rdc _ => 262144

/-- The leased copies that a cache holds. -/
def State.copiesAt (s : State) : UHolder → List Copy
  | .core n => s.l1.filter (·.holder == n)
  | .rdc d => s.rdc.filter (·.holder == d)

/-- The exclusive copies that a cache holds. -/
def State.exclAt (s : State) : UHolder → List Excl
  | .core _ => []
  | .rdc d => s.excl.filter (·.die == d)

/-- Copies that leave first: those allocated as first to evict; those allocated as last to evict go last (R76). -/
def evictable (l : List Copy) : List Copy :=
  let first := l.filter (·.hint == 1)
  let mid := l.filter (·.hint != 2)
  if !first.isEmpty then first else if !mid.isEmpty then mid else l

/-- A full cache gives up a line: a copy is dropped, an exclusive copy returns to its home, or a partial is sent (R158, R159).
Which one it is, among those that the hints put first, is its choice. -/
def State.makeRoom (s : State) (h : UHolder) : State :=
  let cs := s.copiesAt h
  let es := s.exclAt h
  let us := s.upart.filter (·.holder == h)
  if cs.length + es.length + us.length < h.room then s else
  let ev := evictable cs
  let d := s.pick (ev.length + es.length + us.length)
  match ev[d.1]?, es[d.1 - ev.length]?, us[d.1 - ev.length - es.length]? with
  | some c, _, _ => { d.2 with l1 := d.2.l1.filter (· != c), rdc := d.2.rdc.filter (· != c) }
  | none, some e, _ => { d.2 with excl := d.2.excl.filter (· != e) }
  | none, none, some u => { d.2 with upart := d.2.upart.filter (· != u) }.sendPartial u
  | none, none, none => d.2

/-- Keep a copy in a core's L1, unless the hint bypasses it (R76). -/
def State.keepL1 (s : State) (cp : Copy) : State :=
  if cp.hint = 3 || cp.hint = 4 then s else
  let s := { s with l1 := s.l1.filter (fun x => !(x.holder == cp.holder && x.same cp)) }.makeRoom (.core cp.holder)
  { s with l1 := putCopy s.l1 cp }

/-- Keep a copy in a die's RDC, unless the hint allocates nothing there (R76). -/
def State.keepRdc (s : State) (cp : Copy) : State :=
  if cp.hint = 4 then s else
  let s := { s with rdc := s.rdc.filter (fun x => !(x.holder == cp.holder && x.same cp)) }.makeRoom (.rdc cp.holder)
  { s with rdc := putCopy s.rdc cp }

/-! Loads of a core -/

/-- The home grants a lease to a reader at logical time pts and returns the line (R157). -/
def State.grantCopy (s : State) (holder pts line : Nat) (by_ : Option Nat := none) : Copy × State :=
  let s := s.flushLine line by_
  let l := s.leaseOf line
  let l' : Lease := ⟨l.wts, max l.rts (max (l.wts + 32) (pts + 32))⟩
  ({ holder := holder, line := line, data := lineBytes s.mem line, lease := l' }, { s with leases := aput s.leases line l' })

/-- A die's RDC may take an exclusive copy of a line homed on the other die at any access of its cores; the home gives up the
line's partials and any leased copy of the RDC with it (R158; DESIGN CHOICE, log entry 15). -/
def State.takeExcl (s : State) (die line : Nat) (hint : Nat := 0) : State :=
  if dieOfPa (line * 128) = die || hint = 4 || s.locked (line * 128) then s else
  let d := s.pick 2
  if d.1 = 0 || s.excl.contains ⟨die, line⟩ then d.2 else
  let s := (d.2.flushLine line (some die)).makeRoom (.rdc die)
  { s with excl := ⟨die, line⟩ :: s.excl, rdc := s.rdc.filter (fun c => !(c.holder == die && c.line == line && c.rank.isNone)) }

/-- A load that L1 does not serve: from a leased RDC copy where the line's home is the other die and one stands, else
from the home, or the exclusive copy that acts for it; the home also leaves a leased copy in the RDC. -/
def State.fillCopy (s : State) (core line : Nat) (hint : Nat := 0) : Copy × State :=
  let die := coreDie core
  let pts := (s.core core).pts
  if dieOfPa (line * 128) = die then
    let g := s.grantCopy core pts line
    ({ g.1 with hint := hint }, g.2)
  else
    let s := s.takeExcl die line hint
    let fetch (s : State) : Copy × State :=
      let g := s.grantCopy core pts line (some die)
      let cp := { g.1 with hint := hint }
      (cp, if g.2.excl.contains ⟨die, line⟩ then g.2 else g.2.keepRdc { cp with holder := die })
    match s.rdc.find? (fun c => c.holder == die && c.rank.isNone && c.line == line && decide (pts ≤ c.lease.rts)) with
    | none => fetch s
    | some cp =>
      let d := s.pick 2
      if d.1 = 0 then ({ cp with holder := core, hint := hint }, d.2) else fetch d.2

/-- A load unit of a core from device memory (R157). A copy may have been dropped, which is a free choice. A load that
finds no copy is an L1 miss (Table OBS-4). -/
def State.coreGet (s : State) (g : GRef) (pa n : Nat) (hint : Nat := 0) : Nat × State :=
  let line := lineOf pa
  let core := g.core
  let fill (s : State) : Nat × State :=
    let f := (s.count core (s.ctxOf g) 0x06 1).fillCopy core line hint
    (f.2.keepL1 f.1).readCopy core f.1 pa n
  match s.l1.find? (fun c => c.holder == core && c.rank.isNone && c.line == line && decide ((s.core core).pts ≤ c.lease.rts)) with
  | none => fill s
  | some cp => let d := s.pick 2; if d.1 = 0 then d.2.readCopy core cp pa n else fill d.2

/-- A copy of a line of a peer's window that serves a load of a core now: its own L1's, or its die's RDC's (R14, R156, R158,
R290). -/
def State.peerCopy (s : State) (g : GRef) (rank line : Nat) : Option Copy :=
  let c := s.ctxOf g
  let fits (holder : Nat) (x : Copy) : Bool := x.holder == holder && x.rank == some rank && x.ctx == c && x.line == line &&
    decide ((s.core g.core).pts ≤ x.lease.rts)
  match s.l1.find? (fits g.core) with
  | some x => some x
  | none => s.rdc.find? (fits (coreDie g.core))

/-- A core's L1 copy of a peer's line follows what the core has stored there (R156). -/
def State.patchPeer (s : State) (g : GRef) (rank off n x : Nat) : State :=
  let c := s.ctxOf g
  { s with l1 := s.l1.map (fun (k : Copy) =>
      if k.holder == g.core && k.rank == some rank && k.ctx == c && k.line == lineOf off then { k with data := ssetLE k.data off n x }
      else k) }

/-- Copies of a peer's line that a die holds are dropped. -/
def State.dropPeer (s : State) (die rank c line : Nat) : State :=
  let mine (d : Nat) (x : Copy) : Bool := x.rank == some rank && x.ctx == c && x.line == line && d == die
  { s with l1 := s.l1.filter (fun x => !mine (coreDie x.holder) x), rdc := s.rdc.filter (fun x => !mine x.holder x) }

/-- The writer that a group's core is. -/
def State.coreWriter (s : State) (g : GRef) : Writer := ⟨(s.core g.core).pts, BitVec.ofNat 64 g.core, [g]⟩

/-- A store unit of a core: performed at the home, or at an exclusive copy of its die's RDC, with the core's own L1 copy updated (R156, R157). -/
def State.coreSet (s : State) (g : GRef) (pa n x : Nat) (mor : Bool) (hint : Nat := 0) : State :=
  let line := lineOf pa
  let s := s.takeExcl (coreDie g.core) line hint
  let s := s.homeSet (s.coreWriter g) pa n x mor (some (coreDie g.core))
  let s := { s with l1 := s.l1.map (fun (c : Copy) =>
    if c.holder == g.core && c.rank.isNone && c.line == line then { c with data := ssetLE c.data pa n x } else c) }
  s.setPts g.core (s.leaseOf line).wts

/-- An atomic unit of a core: one point for the read and the write (R178). -/
def State.coreRmw (s : State) (g : GRef) (op : AOp) (w : AWidth) (pa x cmp : Nat) (mor : Bool) (hint : Nat := 0) :
    Nat × State :=
  let r := s.homeGet pa w.bytes (some (coreDie g.core))
  (r.1, r.2.coreSet g pa w.bytes (op.apply w r.1 x cmp) mor hint)

/-- The grid of a group. -/
def State.gridsOf (s : State) (g : GRef) : List Nat :=
  match s.team (s.teamRefOf g) with
  | some t => [t.grid]
  | none => []

/-- A reduction takes its place in the order as it issues, gathered or not (R178): the line's timestamps rise as by a write of
the core, whose logical time follows, so that no older copy serves what comes after it. Of a line of another package, whose
timestamps are not here, the die's copies are dropped (DESIGN CHOICE, log entry 15). -/
def State.placeReduction (s : State) (g : GRef) (rank : Option Nat) (line : Nat) : State :=
  match rank with
  | some r => s.dropPeer (coreDie g.core) r (s.ctxOf g) line
  | none =>
    let s := (s.recallExcl (some (coreDie g.core)) line).leaseWrite (s.core g.core).pts line
    s.setPts g.core (s.leaseOf line).wts

/-- A partial of a line to which a lane's value goes. -/
def UPart.add (u : UPart) (g : GRef) (grids : List Nat) (pa x : Nat) : UPart :=
  { u with cells := aput u.cells pa (u.op.apply u.w ((aget u.cells pa).getD (u.op.identity u.w)) x 0),
           owners := if u.owners.contains g then u.owners else g :: u.owners,
           grids := (u.grids ++ grids).eraseDups }

/-- Gather a reduction in state U in the issuing core's L1 or its die's RDC (R159). A partial of another operation or
width held there goes home first; and so do those of the line's other holders, which the home recalls before it takes a
reduction of another kind. -/
def State.gather (s : State) (g : GRef) (holder : UHolder) (rank : Option Nat) (op : AOp) (w : AWidth) (pa x : Nat)
    (mor : Bool) : State :=
  let line := lineOf pa
  let c := s.ctxOf g
  let mine (u : UPart) : Bool := u.holder == holder && u.rank == rank && u.line == line && (rank.isNone || u.ctx == c)
  let here (u : UPart) : Bool := u.rank.isNone && u.line == line
  let s := if rank.isNone && (s.upart.any (fun u => here u && !(u.op == op && u.w == w)) ||
      s.remoteHolders.any (fun h => h.line == line)) then s.flushLine line (some (coreDie g.core)) else s
  let s := s.placeReduction g rank line
  let blank : UPart := { holder := holder, line := line, rank := rank, ctx := c, op := op, w := w, mor := mor, cells := [], owners := [] }
  let start (s : State) : State :=
    let s := s.makeRoom holder
    { s with upart := s.upart ++ [blank.add g (s.gridsOf g) pa x] }
  match s.upart.find? mine with
  | some u =>
    if u.op = op ∧ u.w = w then
      { s with upart := s.upart.map (fun v => if mine v then u.add g (s.gridsOf g) pa x else v) }
    else start ({ s with upart := s.upart.filter (fun v => !mine v) }.sendPartial u)
  | none => start s

/-- A reduction of codes 0 to 7 on device memory: gathered in L1 or the RDC, or performed at the home, as the device
chooses; a hint that bypasses a cache gathers nothing in it (R76, R159). -/
def State.coreReduce (s : State) (g : GRef) (op : AOp) (w : AWidth) (pa x : Nat) (mor : Bool) (hint : Nat := 0) : State :=
  let d := s.pick 3
  let home (s : State) : State := (s.coreRmw g op w pa x 0 mor hint).2
  match d.1 with
  | 0 => home d.2
  | 1 => if hint = 3 || hint = 4 then home d.2 else d.2.gather g (.core g.core) none op w pa x mor
  | _ => if dieOfPa pa = coreDie g.core || hint = 4 then home d.2
         else d.2.gather g (.rdc (coreDie g.core)) none op w pa x mor

/-- Every partial that a group has a share in goes home: at a fence, or when its team leaves its core (R159). An access of
another kind needs no rule of its own, since every access through the home recalls the line's partials first. -/
def State.flushGroup (s : State) (g : GRef) : State :=
  let mine := s.upart.filter (·.owners.contains g)
  mine.foldl (fun s u => s.sendPartial u) { s with upart := s.upart.filter (fun u => !u.owners.contains g) }

/-- A die's partials of a line of another package go there ahead of an access of another kind (R159). -/
def State.flushPeerLine (s : State) (die rank c line : Nat) : State :=
  let mine (u : UPart) : Bool := u.holder == .rdc die && u.rank == some rank && u.ctx == c && u.line == line
  (s.upart.filter mine).foldl (fun s u => s.sendPartial u) { s with upart := s.upart.filter (fun u => !mine u) }

/-! Host memory (R152, R191) -/

def State.hostGet (s : State) (a n : Nat) : Nat := sgetLE s.hostMem a n
def State.hostSet (s : State) (a n x : Nat) : State := { s with hostMem := ssetLE s.hostMem a n x }

/-- Some byte of the range lies in a poisoned line, or in a channel of the HBM that is offline (R306, R341). -/
def State.poisoned (s : State) (pa n : Nat) : Bool :=
  s.poison.any (fun l => decide (l * 128 < pa + n) && decide (pa < l * 128 + 128)) ||
  (!s.chanDown.isEmpty && (List.range (n / 128 + 2)).any (fun i =>
    decide ((lineOf pa + i) * 128 < pa + n) && s.chanDown.contains (Config.hbmChannel (lineOf pa + i))))

/-- An access that a locked page held is still to be performed: its stream has not been stopped meanwhile. -/
def State.stillHeld (s : State) : Held → Bool
  | .lane g => match s.group g with
    | some gr => gr.out.any (fun o => !o.units.isEmpty)
    | none => false
  | .scalar g => match s.group g with
    | some gr => gr.status == .active && gr.waitS == some .locked
    | none => false
  | .request _ _ _ _ => true

/-- The held access whose turn it is: the one held longest (R171). -/
def State.turn (s : State) : Option Held := s.holds.find? s.stillHeld

/-- An access to an address has to wait: the page is locked, or it was held and others were held before it (R171). -/
def State.mustHold (s : State) (h : Held) (pa : Nat) : Bool :=
  s.locked pa || (s.holds.contains h && s.turn != some h)

/-- Note a held access, behind those that are held already. -/
def State.hold (s : State) (h : Held) : State := if s.holds.contains h then s else { s with holds := s.holds ++ [h] }

/-- An access that was held is performed. -/
def State.unhold (s : State) (h : Held) : State := { s with holds := s.holds.filter (· != h) }

end Sys2Proof.Machine
end

