-- ==== Sys2Proof/Machine/Path.lean ====
section
/-! DEFINITION. Outstanding accesses of a group: the units that its words have still to make, in program order, how one
unit is performed at its home, scratch and tags, the exported window of a rank, path counters, and pending register
values (R81, R163, R165, R175, R176). -/

namespace Sys2Proof.Machine

/-! Lane registers by physical lane -/

/-- Key of lane register r in physical lane j. -/
def vkey (r phys : Nat) : Nat := r * 32 + phys

/-- Units of pending loads no longer write a register that a later word has written (R165). -/
def cancelDst (r phys : Nat) (u : AUnit) : AUnit :=
  if u.phys = phys then { u with dst := u.dst.map (fun d => if d = some r then none else d) } else u

/-- Write a lane register of a physical lane: the later word's value stands (R81, R165). -/
def Group.putV (gr : Group) (r phys : Nat) (x : W32) : Group :=
  { gr with v := sset gr.v (vkey r phys) x,
            alt := gr.alt.filter (fun a => !(!a.pred && a.reg == r && a.phys == phys)),
            out := gr.out.map (fun o => { o with units := o.units.map (cancelDst r phys) }) }

/-- A predicate bit of a physical lane. -/
def Group.predBit (gr : Group) (r phys : Nat) : Bool := (sget gr.p r).getLsbD phys

def setBit (x : W32) (i : Nat) (b : Bool) : W32 :=
  if b then x ||| (1#32 <<< i) else x &&& ~~~(1#32 <<< i)

/-- Write a predicate bit of a physical lane. -/
def Group.putP (gr : Group) (r phys : Nat) (b : Bool) : Group :=
  { gr with p := sset gr.p r (setBit (sget gr.p r) phys b),
            alt := gr.alt.filter (fun a => !(a.pred && a.reg == r && a.phys == phys)) }

/-- Deliver loaded words to the registers of a unit; until a covering wait, a read may still see the old word. A group that has
stopped reads every register with interlock when it goes on (R82). -/
def Group.deliver (gr : Group) (path : PathClass) (id phys : Nat) : List (Option Nat) → Nat → Group
  | [], _ => gr
  | none :: rest, x => gr.deliver path id phys rest (x / 2 ^ 32)
  | some r :: rest, x =>
    let old := sget gr.v (vkey r phys)
    let kept := gr.alt.filter (fun a => !(!a.pred && a.reg == r && a.phys == phys))
    let gr := { gr with v := sset gr.v (vkey r phys) (BitVec.ofNat 32 x),
                        alt := if gr.stopping.isSome then kept else ⟨some path, false, r, phys, old, id⟩ :: kept }
    gr.deliver path id phys rest (x / 2 ^ 32)

/-! Scratch (R149, R161) -/

/-- The tag of the scratch word that holds an offset: FULL or not. -/
def Team.tag (t : Team) (off : Nat) : Bool := sget t.tags (off / 4) == 1

def Team.setTag (t : Team) (off : Nat) (full : Bool) : Team :=
  { t with tags := sset t.tags (off / 4) (if full then 1 else 0) }

/-- Extension of a loaded value of n bytes to a 32-bit register (R406); wider values are as they are. -/
def extendLoad (sext : Bool) (n x : Nat) : Nat :=
  if sext && decide (n < 4) then (BitVec.signExtend 32 (BitVec.ofNat (8 * n) x)).toNat else x

/-! The exported window (R151, R430) -/

/-- The translation of n bytes at an offset of the window that a context exports, or the reply status of a target
fault (Table FAB-2). -/
def State.window (s : State) (c off n : Nat) (rd wr : Bool) (core : Option Nat := none) : (Nat × Option Xl) × State :=
  match s.ctx c with
  | none => ((1, none), s)
  | some x =>
    if x.expLen < off + n then ((1, none), s) else
    let t := s.translate c (x.expBase.toNat + off) core
    match t.1 with
    | none => ((2, none), t.2)
    | some xl =>
      if (rd && !xl.r) || (wr && !xl.w) then ((3, none), t.2)
      else if wr && xl.mor && (t.2.setEntry xl.pa).isNone then ((3, none), t.2)
      else if !xl.host && t.2.unbuilt xl.pa then ((4, none), t.2)
      else if rd && !xl.host && t.2.poisoned xl.pa n then
        ((3, none), t.2.recordError { bank := 384 + dieOfPa xl.pa * 96 + sliceOf xl.pa, cls := 1, source := 6, unit := 0,
                                      addr := some xl.pa, ctx := some (c, 0), synd := none })
      else ((0, some xl), t.2)

/-! One unit -/

/-- How a unit fared: performed with what it read, or it must wait, or a target-side fault of a fabric unit. -/
inductive UnitRes where
  | done (data : Nat)
  | wait
  | remote (status : Nat)
  deriving DecidableEq, Repr

/-- Atomics that a host page takes (R152). -/
def hostAtomic (op : AOp) : Bool := op == .add || op == .xch || op == .cas

/-- A unit on device memory. A locked page holds what writes to it (R171); a frame that a spare has still to rebuild answers
with STATUS 4 (R304). -/
def State.globalUnit (s : State) (g : GRef) (u : AUnit) : UnitRes × State :=
  if s.unbuilt u.pa then (.remote 4, s) else
  match u.kind with
  | .load sext => let r := s.coreGet g u.pa u.bytes u.hint; (.done (extendLoad sext u.bytes r.1), r.2)
  | .store =>
    if s.mustHold (.lane g) u.pa then (.wait, s.hold (.lane g))
    else (.done 0, (s.unhold (.lane g)).coreSet g u.pa u.bytes u.data u.mor u.hint)
  | .rmw op =>
    if s.mustHold (.lane g) u.pa then (.wait, s.hold (.lane g)) else
    let r := (s.unhold (.lane g)).coreRmw g op (if u.bytes = 8 then .w64 else .w32) u.pa u.data u.cmp u.mor u.hint
    (.done r.1, r.2)
  | _ => (.done 0, s)

/-- A unit on host memory (R152). -/
def State.hostUnit (s : State) (u : AUnit) : UnitRes × State :=
  match u.kind with
  | .load sext => (.done (extendLoad sext u.bytes (s.hostGet u.pa u.bytes)), s)
  | .store => (.done 0, s.hostSet u.pa u.bytes u.data)
  | .rmw op =>
    if !hostAtomic op then (.remote 3, s) else
    let old := s.hostGet u.pa u.bytes
    (.done old, s.hostSet u.pa u.bytes (op.apply (if u.bytes = 8 then .w64 else .w32) old u.data u.cmp))
  | _ => (.done 0, s)

/-- A unit on the scratch of a team; scratch of a team that is gone reads zero (R172). -/
def State.scratchUnit (s : State) (g : GRef) (t : TRef) (u : AUnit) : UnitRes × State :=
  let s := (s.meetCores g.core t.core).count g.core (s.ctxOf g) 0x07 1
  match s.team t with
  | none => (.done 0, s)
  | some tm =>
    match u.kind with
    | .load sext => (.done (extendLoad sext u.bytes (sgetLE tm.scratch u.pa u.bytes)), s)
    | .store => (.done 0, s.setTeam t { tm with scratch := ssetLE tm.scratch u.pa u.bytes u.data })
    | .tagSet full => (.done 0, s.setTeam t (tm.setTag u.pa full))
    | .tagGet => (.done (if tm.tag u.pa then 1 else 0), s)
    | .rmw _ => (.done 0, s)

/-- Reads and writes of a unit's kind. -/
def UKind.reads : UKind → Bool
  | .load _ | .rmw _ | .tagGet => true
  | _ => false
def UKind.writes : UKind → Bool
  | .store | .rmw _ => true
  | _ => false

/-- A fabric unit on the issuer's own rank: its own exported window (R151). -/
def State.ownWindowUnit (s : State) (g : GRef) (u : AUnit) : UnitRes × State :=
  let w := s.window (s.ctxOf g) u.va u.bytes u.kind.reads u.kind.writes (some g.core)
  match w.1.2 with
  | none => (.remote w.1.1, w.2)
  | some xl =>
    let u := { u with pa := xl.pa, mor := xl.mor }
    if xl.host then w.2.hostUnit u else w.2.globalUnit g u

/-- Perform a unit that needs no reply from another package. -/
def State.performUnit (s : State) (g : GRef) (u : AUnit) : UnitRes × State :=
  match u.space with
  | .global => s.globalUnit g u
  | .host => s.hostUnit u
  | .scratch t => s.scratchUnit g t u
  | .fabric _ => s.ownWindowUnit g u

/-! The outstanding list -/

def AUnit.isHost (u : AUnit) : Bool := u.space == .host

/-- The first unit of a list of outstanding words, of host memory or of the domain, with its word. -/
def firstUnit (host : Bool) : List OutOp → Option (OutOp × AUnit)
  | [] => none
  | o :: rest =>
    match o.units.find? (fun u => u.isHost == host) with
    | some u => some (o, u)
    | none => firstUnit host rest

/-- Remove the first unit of a class from a list of units. -/
def dropUnit (host : Bool) : List AUnit → List AUnit
  | [] => []
  | u :: rest => if u.isHost == host then rest else u :: dropUnit host rest

/-- Remove the first unit of a class from the word of that number. -/
def Group.popUnit (gr : Group) (host : Bool) (id : Nat) : Group :=
  { gr with out := gr.out.map (fun o => if o.id = id then { o with units := dropUnit host o.units, sent := none } else o) }

/-- Note that the word's head unit waits for the reply to a request. -/
def Group.markSent (gr : Group) (id tag : Nat) : Group :=
  { gr with out := gr.out.map (fun o => if o.id = id then { o with sent := some tag } else o) }

/-- A word's remaining units are given up. -/
def Group.dropOp (gr : Group) (id : Nat) : Group :=
  { gr with out := gr.out.map (fun o => if o.id = id then { o with units := [], sent := none } else o) }

/-- Width code of Table ASM-12 in a request's ATTR. -/
def AUnit.widthCode (u : AUnit) : Nat :=
  match u.kind with
  | .load true => if u.bytes = 1 then 0 else 2
  | _ => if u.bytes = 1 then 1 else if u.bytes = 2 then 3 else if u.bytes = 4 then 4 else if u.bytes = 8 then 5 else 6

/-- The request packet of a fabric unit (Tables FAB-2 and FAB-3). -/
def AUnit.request (u : AUnit) (rank pts ctx : Nat) (ret : Bool) : FabPkt :=
  let base := { reqPacket 1 rank with offset := u.va, time := pts, ctx := ctx, attr := u.widthCode }
  match u.kind with
  | .store => { base with opc := 2 }.carry u.bytes u.data
  | .rmw op => { base with opc := if ret then 3 else 4, opnd := u.data, cmp := u.cmp,
                           attr := op.opNum * 16 + (if u.bytes = 8 then 0x100 else 0) + u.widthCode }
  | _ => base

/-- The unit goes to another package. -/
def State.peerOf (s : State) (u : AUnit) : Option Nat :=
  match u.space with
  | .fabric r => if r = s.ctl.rank then none else some r
  | _ => none

/-- The operation of an atomic unit. -/
def AUnit.redOp (u : AUnit) : AOp :=
  match u.kind with
  | .rmw op => op
  | _ => .add

/-- A no-return atomic of codes 0 to 7 to a line for which the peer has accepted the die as a holder (R159). -/
def State.mayGather (s : State) (g : GRef) (u : AUnit) (r : Nat) : Bool :=
  (match u.kind with
   | .rmw op => op.gathers
   | _ => false) && u.dst.isEmpty && s.accepted.contains ⟨lineOf u.va, r, coreDie g.core⟩

/-- A load of a line of a peer's window may be served from a leased copy (R158, R290): the copy. -/
def State.peerHit (s : State) (g : GRef) (u : AUnit) (rank : Nat) : Option Copy :=
  match u.kind with
  | .load _ => s.peerCopy g rank (lineOf u.va)
  | _ => none

/-- A unit is performed with what it read: its word goes on, and its registers are written. -/
def State.unitDone (s : State) (g : GRef) (host : Bool) (o : OutOp) (u : AUnit) (x : Nat) : State :=
  s.onGroup g (fun gr => (gr.popUnit host o.id).deliver o.path o.id u.phys u.dst x)

/-- A load of a peer's line from a leased copy: the core's logical time rises to the copy's wts (R157, R290). -/
def State.readPeer (s : State) (g : GRef) (host : Bool) (o : OutOp) (u : AUnit) (cp : Copy) : State :=
  let r := s.readCopy g.core cp u.va u.bytes
  (r.2.keepL1 { cp with holder := g.core, hint := u.hint }).unitDone g host o u (match u.kind with
    | .load sext => extendLoad sext u.bytes r.1
    | _ => r.1)

/-- A unit goes to a peer: an access of another kind than its die's partial of the line goes behind it (R159). -/
def State.sendUnit (s : State) (g : GRef) (o : OutOp) (u : AUnit) (rank : Nat) : Option State :=
  let s := s.flushPeerLine (coreDie g.core) rank (s.ctxOf g) (lineOf u.va)
  let q := s.sendReq (coreDie g.core) (u.request rank (s.core g.core).pts (s.ctxOf g) (u.dst != [])) (.lane g)
  q.1.map (fun t => (q.2.count g.core (q.2.ctxOf g) 0x08 1).onGroup g (·.markSent o.id t))

/-- One step of the first unit of a class of a group: performed, sent to its peer, or nothing (none) where it must
wait. A REMOTE fault is reported with the word, its pass's rank and the status. -/
inductive OneRes where
  | stuck
  | ok (s : State)
  | remote (s : State) (o : OutOp) (rank : Nat)

def State.performOne (s : State) (g : GRef) (host : Bool) : OneRes :=
  match s.group g with
  | none => .stuck
  | some gr =>
    match firstUnit host gr.out with
    | none => .stuck
    | some (o, u) =>
      match s.peerOf u with
      | some r =>
        if s.lost.contains r then .remote s o r
        else if o.sent.isSome then .stuck
        else if s.mayGather g u r && (s.pick 2).1 = 1 then
          let d := s.pick 2
          .ok ((d.2.gather g (.rdc (coreDie g.core)) (some r) u.redOp (if u.bytes = 8 then .w64 else .w32) u.va u.data false).onGroup
            g (fun gr => gr.popUnit host o.id))
        else
          let send (s : State) : OneRes := match s.sendUnit g o u r with
            | some s => .ok s
            | none => .stuck
          match s.peerHit g u r with
          | some cp => let d := s.pick 2; if d.1 = 0 then .ok (d.2.readPeer g host o u cp) else send d.2
          | none => send (if s.mayGather g u r then (s.pick 2).2 else s)
      | none =>
        let r := s.performUnit g u
        match r.1 with
        | .wait => .ok r.2
        | .remote _ => .remote r.2 o s.ctl.rank
        | .done x => .ok (r.2.unitDone g host o u x)

/-- Perform units of a class while the first can be performed without a reply; stops at one that goes to a peer, waits
or faults. What a performed unit sets off (a wait that ends) is `post`. -/
def drainClass (post : State → State) (g : GRef) (host : Bool) : Nat → State → State
  | 0, s => s
  | n + 1, s =>
    match s.group g with
    | none => s
    | some gr =>
      match firstUnit host gr.out with
      | none => s
      | some (o, u) =>
        if (s.peerOf u).isSome then s else
        let r := s.performUnit g u
        match r.1 with
        | .done x =>
          drainClass post g host n (post (r.2.unitDone g host o u x))
        | .wait => r.2
        | .remote _ => s

def Group.unitCount (gr : Group) : Nat := (gr.out.map (fun o => o.units.length)).sum

/-- Words of a path whose results are all in, oldest first, no longer count (R163). -/
def dropDone (p : PathClass) : List OutOp → List OutOp
  | [] => []
  | o :: rest =>
    if o.path = p then (if o.units.isEmpty then dropDone p rest else o :: rest) else o :: dropDone p rest

/-- Every path counter falls as far as its completed words allow (R163). -/
def Group.settlePaths (gr : Group) : Group :=
  { gr with out := dropDone .rm (dropDone .st (dropDone .sl (dropDone .gl gr.out))) }

/-- Words outstanding on a path (R163). -/
def Group.pathCount (gr : Group) (p : PathClass) : Nat :=
  (gr.out.filter (fun o => o.path == p)).length

/-- Units of a group on device memory, scratch or the fabric that are outstanding. -/
def Group.domainUnits (gr : Group) : Nat := (gr.out.map (fun o => (o.units.filter (fun u => !u.isHost)).length)).sum

/-- Host units up to the last one that returns a value: host accesses reach the host in program order (R191). -/
def Group.hostOwed (gr : Group) : Nat :=
  (((gr.out.flatMap (fun o => o.units.filter AUnit.isHost)).reverse).dropWhile (fun u => u.dst == [])).length

/-- Which outstanding units an event waits for: those of the domain; with them the host units that return values; or all. -/
inductive Owed where
  | domain | results | all
  deriving DecidableEq, Repr

/-- Perform every outstanding unit of a group that can be performed now, of those that an event waits for. -/
def drainWith (post : State → State) (w : Owed) (s : State) (g : GRef) : State :=
  match s.group g with
  | none => s
  | some gr =>
    if gr.out.isEmpty then s else
    let n := match w with
      | .domain => 0
      | .results => gr.hostOwed
      | .all => gr.unitCount
    (drainClass post g true n (drainClass post g false gr.unitCount s)).onGroup g (·.settlePaths)

/-- Old values are no longer offered for words that are no longer outstanding (R165). -/
def Group.clearAlts (gr : Group) : Group := { gr with alt := [] }

/-- A pass of a fabric word after its first is under way (R295). -/
def Group.replaying (gr : Group) : Bool :=
  gr.out.any (fun o =>
    match o.passes, o.units with
    | p :: _, u :: _ => u.space != .fabric p.rank
    | _, _ => false)

/-- Requests to more than one package are outstanding or still to be sent: those to the next wait for the acknowledgement of
those to the one before (R289). -/
def State.crossing (s : State) (gr : Group) : Bool :=
  decide (1 < ((gr.out.flatMap (fun o => o.units.filterMap s.peerOf)).eraseDups).length)

/-- The lane stream is held by its fabric requests. -/
def State.laneHeld (s : State) (gr : Group) : Bool := gr.replaying || s.crossing gr

end Sys2Proof.Machine
end

