-- ==== Sys2Proof/Machine/Check.lean ====
section
/-! DEFINITION. Address formation and the access checks of Table MEM-2, core-side watchpoints, places of scratch and
cluster-window addresses, residual maps and original addresses. -/

namespace Sys2Proof.Machine

/-! Residual maps and original addresses (R245, R246) -/

/-- Bytes at a virtual address of a context by its tables, without effect. -/
def State.peek (s : State) (c va n : Nat) : Option Nat :=
  match s.walk c va with
  | none => none
  | some t => some (sgetLE s.mem (t.at_ va).pa n)

/-- The line address and slot of a code address (R84). -/
def codeLine (ln : Bool) (pc : Nat) : Nat := if ln then pc / 16 * 128 else pc / 32 * 128
def codeSlot (ln : Bool) (pc : Nat) : Nat := if ln then pc % 16 else pc % 32

/-- The firn entry whose residual holds a line of a context. -/
def State.residualAt (s : State) (c line : Nat) : Option FirnEntry :=
  s.firn.find? (fun e => e.ctx == c && decide (e.base ≤ line) && decide (line < e.base + 128 * e.lines) &&
    e.state == .valid)

/-- The map record of a residual line (R245). -/
def State.mapRecord (s : State) (c : Nat) (ln : Bool) (e : FirnEntry) (line : Nat) : Nat :=
  if ln then ((s.peek c line 8).getD 0) / 2 ^ 32 % 2 ^ 16 else (line - e.base) / 128

/-- The valid map entry at or before a slot of a record. -/
def State.mapBack (s : State) (c : Nat) (e : FirnEntry) (rec : Nat) : Nat → Option Nat
  | 0 =>
    let w := (s.peek c (e.mapAt + rec * 256) 8).getD 0
    if w.testBit 63 then some w else none
  | n + 1 =>
    let w := (s.peek c (e.mapAt + rec * 256 + 8 * (n + 1)) 8).getD 0
    if w.testBit 63 then some w else s.mapBack c e rec n

/-- The report of a code address (Table FIRN-4). -/
def State.origWord (s : State) (c : Nat) (ln : Bool) (pc : W64) : W64 :=
  let lnBit := if ln then 2 ^ 62 else 0
  let plain := BitVec.ofNat 64 (lnBit + pc.toNat % 2 ^ 54)
  let line := codeLine ln pc.toNat
  match s.residualAt c line with
  | none => plain
  | some e =>
    match s.mapBack c e (s.mapRecord c ln e line) (codeSlot ln pc.toNat) with
    | none => plain
    | some w => BitVec.ofNat 64 (2 ^ 63 + lnBit + w % 2 ^ 62)

/-- The original address that an address breakpoint is compared with: none in a residual slot without a valid entry or
with M = 1 (R334, R246). -/
def State.bpAddr (s : State) (c : Nat) (ln : Bool) (pc : Nat) : Option Nat :=
  let line := codeLine ln pc
  match s.residualAt c line with
  | none => some pc
  | some e =>
    let w := (s.peek c (e.mapAt + s.mapRecord c ln e line * 256 + 8 * codeSlot ln pc) 8).getD 0
    if w.testBit 63 && !w.testBit 62 then some (w % 2 ^ 54) else none

/-! Checks (Table MEM-2) -/

/-- A cause an access meets, with its INFO. -/
structure Meet where
  cause : Cause
  info : Nat
  deriving DecidableEq, Repr

/-- The lowest core-side watchpoint of a context that an access matches (R335). -/
def State.watchHit (s : State) (c va n : Nat) (rd wr : Bool) : Option Nat :=
  match aget s.obs (c % 4096) with
  | none => none
  | some p =>
    (List.range 4).find? (fun i =>
      match p.wp[i]? with
      | none => false
      | some (w, lg) =>
        let base := w.toNat % 2 ^ 57 / 2 ^ lg * 2 ^ lg
        w.getLsbD 63 && ((rd && w.getLsbD 62) || (wr && w.getLsbD 61)) && lg != 0 &&
          decide (va < base + 2 ^ lg) && decide (base < va + n))

/-- A page's rights forbid an access: R and W of R168, a host page where the access takes none, a moraine frame without a
valid entry (step 3 of Table MEM-2). -/
def State.pageForbids (s : State) (xl : Xl) (rd wr host : Bool) : Bool :=
  (rd && !xl.r) || (wr && !xl.w) || (xl.host && !host) || (wr && xl.mor && (s.setEntry xl.pa).isNone)

/-- Checks of an access to the global space, in the order of Table MEM-2, then poison (R306): the translation, and that of the
page of the access's last byte, or the cause. An access of 4-byte units may lie in two pages (R153, R175); both are checked.
`mult` is what the address must be a multiple of; `host` allows host pages; `watch` makes step 5. A frame that this package has
still to rebuild takes REMOTE (R304). -/
def State.checkSpan (s : State) (c va n mult : Nat) (rd wr host watch : Bool) (core : Option Nat := none)
    (team : Nat := 0) : Except Meet (Xl × Xl) × State :=
  if va % mult != 0 then (.error ⟨.alignment, 0⟩, s) else
  let t := s.translate c va core
  match t.1 with
  | none => (.error ⟨.translation, 0⟩, t.2)
  | some xl =>
    let last := va + n - 1
    let t2 := if last / 65536 = va / 65536 then (some { xl with pa := xl.pa + (n - 1) }, t.2) else t.2.translate c last core
    match t2.1 with
    | none => (.error ⟨.translation, 0⟩, t2.2)
    | some xl2 =>
      let s := t2.2
      if s.pageForbids xl rd wr host || s.pageForbids xl2 rd wr host then (.error ⟨.protection, 0⟩, s)
      else if (!xl.host && s.unbuilt xl.pa) || (!xl2.host && s.unbuilt xl2.pa) then (.error ⟨.remote, s.ctl.rank⟩, s)
      else
        match (if watch then s.watchHit c va n rd wr else none) with
        | some i => (.error ⟨.watchpoint, i⟩, s)
        | none =>
          let bad := if rd && !xl.host && s.poisoned xl.pa (min n (65536 - va % 65536)) then some xl.pa
            else if rd && !xl2.host && s.poisoned xl2.pa 1 then some xl2.pa else none
          match bad with
          | some pa => (.error ⟨.check, memBank pa⟩,
              s.recordError (memError pa 1 6 (some (c, team))))
          | none => (.ok (xl, xl2), s)

/-- Checks of an access that lies in one page. -/
def State.checkGlobal (s : State) (c va n mult : Nat) (rd wr host watch : Bool) (core : Option Nat := none)
    (team : Nat := 0) : Except Meet Xl × State :=
  let r := s.checkSpan c va n mult rd wr host watch core team
  (r.1.map (·.1), r.2)

/-- The translation of the byte at an offset of an access of n bytes at an address, from those of its first and last bytes. -/
def spanAt (x : Xl × Xl) (va n o : Nat) : Xl :=
  if (va + o) / 65536 = va / 65536 then { x.1 with pa := x.1.pa + o } else { x.2 with pa := x.2.pa - (n - 1 - o) }

/-- Checks of a team-scratch access (R149). -/
def State.checkScratch (s : State) (t : TRef) (off n mult : Nat) : Except Meet TRef :=
  if off % mult != 0 then .error ⟨.alignment, 0⟩
  else
    match s.team t with
    | none => .error ⟨.protection, 0⟩
    | some tm => if tm.scrSize < off + n then .error ⟨.protection, 0⟩ else .ok t

/-- The team of the issuing team's grid that is resident on a core of the cluster (R150). -/
def State.siblingOn (s : State) (t : TRef) (core : Nat) : Option TRef :=
  if core = t.core then some t else
  match s.team t with
  | none => none
  | some tm =>
    if !tm.cluster then none
    else (s.teams.find? (fun p => p.1.core == core && p.2.grid == tm.grid)).map (·.1)

/-- Checks of a cluster-window access: the team reached, with the offset in the address's low 18 bits (R150). -/
def State.checkWindow (s : State) (t : TRef) (a n mult : Nat) : Except Meet TRef :=
  if a % mult != 0 then .error ⟨.alignment, 0⟩
  else if a / 2 ^ 23 != 0 then .error ⟨.protection, 0⟩
  else
    match s.siblingOn t (coreCluster t.core * 32 + a / 2 ^ 18 % 32) with
    | none => .error ⟨.protection, 0⟩
    | some t' =>
      match s.team t' with
      | none => .error ⟨.protection, 0⟩
      | some tm => if tm.scrSize < a % 2 ^ 18 + n then .error ⟨.protection, 0⟩ else .ok t'

/-- What the issuer checks of a fabric access (R151, R430): alignment, then rank, joining, and its own window, whose pages must
lie in device memory where the operation is none that a host page takes (R152). -/
def State.checkFabric (s : State) (c rank off n mult : Nat) (rd wr hostOk : Bool)
    (core : Option Nat := none) : Except Meet Unit × State :=
  if off % mult != 0 then (.error ⟨.alignment, 0⟩, s)
  else if 575 < rank || !s.ctl.joined || s.lost.contains rank then (.error ⟨.remote, rank⟩, s)
  else if rank = s.ctl.rank then
    let w := s.window c off n rd wr core
    let v := if (off + n - 1) / 65536 = off / 65536 && w.1.2.isSome then w else w.2.window c (off + n - 1) 1 rd wr core
    match w.1.2, v.1.2 with
    | some x, some y => (if (x.host || y.host) && !hostOk then .error ⟨.remote, rank⟩ else .ok (), v.2)
    | _, _ => (.error ⟨.remote, rank⟩, v.2)
  else (.ok (), s)

end Sys2Proof.Machine
end

