-- ==== Sys2Proof/Machine/Flags.lean ====
section
/-! DEFINITION. GF flags and FMT fields (Table REF-8, Table NUM-2): which bits an instruction's result sets, and how the
numeric settings are read out of FMT. -/

namespace Sys2Proof.Machine

/-! GF (Table REF-8) -/

def gfEmpty : W32 := 1
def gfNan : W32 := 2
def gfSat : W32 := 4
def gfClip : W32 := 8
def gfBroken : W32 := 16

/-- A flag where a condition holds. -/
def gfIf (b : Bool) (f : W32) : W32 := if b then f else 0

/-! FMT (Table NUM-2) -/

def fmtRm (fmt : W32) : Rm :=
  match fmt.toNat / 2 ^ 10 % 4 with
  | 0 => .rne
  | 1 => .rtz
  | 2 => .rdn
  | _ => .rup

def fmtFtz (fmt : W32) : Bool := fmt.getLsbD 12
def fmtSat (fmt : W32) : Nat := fmt.toNat / 2 ^ 13 % 8
def fmtScale (fmt : W32) : Nat := fmt.toNat / 2 ^ 8 % 4
def fmtA (fmt : W32) : Nat := fmt.toNat % 16
def fmtB (fmt : W32) : Nat := fmt.toNat / 2 ^ 4 % 16
/-- E as a signed number. -/
def fmtE (fmt : W32) : Int := toSigned 8 (fmt.toNat / 2 ^ 16 % 256)

/-- Values that `SETFMT` and `SWR` of FMT accept (R123). -/
def fmtOk (x : W32) : Bool :=
  x.toNat / 2 ^ 24 == 0 && decide (fmtScale x < 2) && decide (fmtA x < 9) && decide (fmtB x < 9) && decide (fmtSat x < 3)

/-- Flags of a result: a NaN result or a NaN lost in conversion, and saturation (R126). -/
def resGf (r : FRes) : W32 := gfIf r.nan gfNan ||| gfIf r.sat gfSat

end Sys2Proof.Machine
end

