-- ==== Sys2Proof/Machine/Operands.lean ====
section
/-! DEFINITION. Operands and completion of words: scalar registers, the selectors of lane words by operand type
(Tables FMT-3 to FMT-5), the lanes that act (R44), and the advance of a stream past its word (R77 to R85). -/

namespace Sys2Proof.Machine

/-! Scalar registers (R63, R64) -/

/-- A scalar register: s0 reads zero. -/
def Group.sreg (gr : Group) (r : SReg) : W64 := if r = 0 then 0 else sget gr.s r.val
/-- A write of s0 is discarded. -/
def Group.setS (gr : Group) (r : SReg) (x : W64) : Group := if r = 0 then gr else { gr with s := sset gr.s r.val x }
def Group.creg (gr : Group) (c : CReg) : Bool := sget gr.c c.val == 1
def Group.setC (gr : Group) (c : CReg) (b : Bool) : Group := { gr with c := sset gr.c c.val (if b then 1 else 0) }
def Group.kreg (gr : Group) (k : KReg) : W64 := sget gr.k k.val
def Group.setK (gr : Group) (k : KReg) (x : W64) : Group := { gr with k := sset gr.k k.val x }
def Group.yScalar (gr : Group) (y : YReg) : W64 := sget gr.yS y.val

/-! The advance of a stream -/

def noSkip : Skip := ⟨false, false, false⟩

/-- The scalar code address n slots on; line ends wrap to slot 0 of the next line (R85). -/
def nextSPc (pc : W64) (n : Nat) : W64 :=
  let p := pc.toNat
  if p % 32 + n < 30 then BitVec.ofNat 64 (p + n)
  else BitVec.ofNat 64 ((p / 32 + 1) * 32 + (p % 32 + n - 30))

/-- The lane code address n slots on. -/
def nextLPc (pc : W64) (n : Nat) : W64 :=
  let p := pc.toNat
  if p % 16 + n < 10 then BitVec.ofNat 64 (p + n)
  else BitVec.ofNat 64 ((p / 16 + 1) * 16 + (p % 16 + n - 10))

/-- The scalar stream stands at a new word; `marks` says that its target mark is still to be checked (R86). -/
def Group.atS (gr : Group) (pc : W64) (marks : Bool) : Group :=
  { gr with spc := pc, sMarks := marks, waitS := none, skipS := noSkip }

/-- The lane stream stands at a new word. -/
def Group.atL (gr : Group) (pc : W64) (marks : Bool) : Group :=
  { gr with lpc := pc, lMarks := marks, waitL := none, skipL := noSkip, tagLeft := 0 }

/-- Lookahead windows after one more lane word: a window that is used up offers no old value any more (R80, R81). -/
def Group.stepLook (gr : Group) : Group :=
  if gr.look.isEmpty then gr else
  let gone := (gr.look.filter (fun w => decide (w.left ≤ 1))).map (·.id)
  { gr with look := (gr.look.filter (fun w => decide (1 < w.left))).map (fun w => { w with left := w.left - 1 }),
            alt := gr.alt.filter (fun a => !gone.contains a.id) }

/-- Every lookahead window ends (R80). -/
def Group.endLook (gr : Group) : Group :=
  if gr.look.isEmpty then gr else
  { gr with look := [], alt := gr.alt.filter (fun a => !(gr.look.map (·.id)).contains a.id) }

/-- A scalar word of n slots has issued: the group as it leaves it goes on at the next word. -/
def State.scalarDone (s : State) (g : GRef) (gr : Group) (n : Nat) : State :=
  (s.setGroup g (gr.atS (nextSPc gr.spc n) false)).count g.core (s.ctxOf g) 0x02 1

/-- A one-slot scalar word has acted, and its group may have changed with it: the stream goes on at the next word. -/
def State.scalarNext (s : State) (g : GRef) : State :=
  match s.group g with
  | none => s
  | some gr => s.scalarDone g gr 1

/-- A scalar word that transfers control has issued (R85). -/
def State.scalarJump (s : State) (g : GRef) (gr : Group) (pc : W64) (marks : Bool) : State :=
  (s.setGroup g (gr.atS pc marks)).count g.core (s.ctxOf g) 0x02 1

/-- A lane word of n slots has issued. -/
def State.laneDone (s : State) (g : GRef) (gr : Group) (n : Nat) : State :=
  (s.setGroup g (gr.stepLook.atL (nextLPc gr.lpc n) false)).count g.core (s.ctxOf g) 0x03 1

/-- A lane word that transfers control, or ends windows, has issued. -/
def State.laneJump (s : State) (g : GRef) (gr : Group) (pc : W64) (marks : Bool) : State :=
  (s.setGroup g (gr.endLook.atL pc marks)).count g.core (s.ctxOf g) 0x03 1

/-- Hold the scalar stream at its word; the time of the first hold is kept (R214, R216). -/
def State.holdS (s : State) (g : GRef) (gr : Group) (w : Wait) : State :=
  s.setGroup g { gr with waitS := some w, sinceS := if gr.waitS.isSome then gr.sinceS else s.clock }

/-- Hold the lane stream at its word. -/
def State.holdL (s : State) (g : GRef) (gr : Group) (w : Wait) : State :=
  s.setGroup g { gr with waitL := some w, sinceL := if gr.waitL.isSome then gr.sinceL else s.clock }

/-! Running a word of a stream -/

/-- The meaning of a scalar word, given its group. -/
def onScalar (s : State) (k : GRef → Group → State) : Host.Outcome State Fault Refusal :=
  match s.cur with
  | some (.scalar g) =>
    match s.group g with
    | some gr => .next (k g gr)
    | none => .fault .noStream
  | _ => .fault .noStream

/-- The meaning of a lane word, given its group. -/
def onLane (s : State) (k : GRef → Group → State) : Host.Outcome State Fault Refusal :=
  match s.cur with
  | some (.lane g) =>
    match s.group g with
    | some gr => .next (k g gr)
    | none => .fault .noStream
  | _ => .fault .noStream

/-- A scalar word of one slot that only changes its own group. -/
def scalarWord (s : State) (f : Group → Group) : Host.Outcome State Fault Refusal :=
  onScalar s (fun g gr => s.scalarDone g (f gr) 1)

/-! Lane operands -/

/-- What a lane word reads: registers as this word sees them, the block's k values, the remap table, EXM and FMT. -/
structure LaneView where
  v : Store 32
  p : Store 32
  k : Store 64
  remap : List Nat
  exm : W32
  fmt : W32

/-- One old-or-new choice of R81 and R165 in a view. -/
def LaneView.offer (w : LaneView) (a : Alt) (old : Bool) : LaneView :=
  if !old then w
  else if a.pred then { w with p := sset w.p a.reg (setBit (sget w.p a.reg) a.phys (a.old == 1)) }
  else { w with v := sset w.v (vkey a.reg a.phys) a.old }

/-- The view of a word: each pending register shows its old or its new value, chosen for each lane and register. -/
def State.view (s : State) (gr : Group) : LaneView × State :=
  let w : LaneView := { v := gr.v, p := gr.p, k := (match gr.run with
                                                   | some r => r.k
                                                   | none => []),
                        remap := gr.remap, exm := gr.exmL, fmt := gr.fmtL }
  gr.alt.foldl (fun (x : LaneView × State) a => let d := x.2.pick 2; (x.1.offer a (d.1 == 1), d.2)) (w, s)

/-- `Phys(l)` (R47). -/
def LaneView.phys (w : LaneView) (l : Nat) : Nat := w.remap.getD l l
/-- `ReadV(r, l)`. -/
def LaneView.reg (w : LaneView) (r l : Nat) : Nat := (sget w.v (vkey r (w.phys l))).toNat
/-- Predicate r of virtual lane l. -/
def LaneView.pred (w : LaneView) (r l : Nat) : Bool := (sget w.p r).getLsbD (w.phys l)

def LaneView.guard (w : LaneView) (gd : Guard) (l : Nat) : Bool :=
  match gd with
  | .always => true
  | .pos p => w.pred p.val l
  | .neg p => !w.pred p.val l

/-- `ActiveLanes()` (Table SCOPE-2). -/
def LaneView.active (w : LaneView) (h : LaneHdr) : List Nat :=
  laneList.filter (fun l => w.exm.getLsbD l && w.guard h.ga l && w.guard h.gb l)

/-- A set of lanes as a mask. -/
def laneMask (ls : List Nat) : W32 := ls.foldl (fun m l => setBit m l true) 0

/-- Columns of Table FMT-5. -/
inductive OTy where
  | int | nat | f32 | half (f : FFmt) | i64 | n64

def otyOf : LType → OTy
  | .i8 | .i16 | .i32 | .i4 => .int
  | .f32 => .f32
  | .f16 => .half .f16
  | .bf16 => .half .bf16
  | .i64 => .i64
  | .n64 | .b64 => .n64
  | _ => .nat

/-- Table FMT-4. -/
def inlineTable : List Nat :=
  [0, 1, 2, 3, 4, 8, 16, 31, 32, 0xFFFFFFFF, 255, 65535, 0x7FFFFFFF, 0x80000000, 0x0F0F0F0F, 0x55555555,
   0x3F000000, 0x3F800000, 0x40000000, 0x40800000, 0xBF800000, 0x3E800000, 0x3F317218, 0x3FB8AA3B,
   0x40490FDB, 0x3EA2F983, 0x40C90FDB, 0x7F800000, 0xFF800000, 0x7FC00000, 0x7F7FFFFF, 0x00800000]

def inlineBits (n : Fin 32) : Nat := inlineTable.getD n.val 0

def both (x : Nat) : Nat := x % 2 ^ 16 * 65537
def sext32to64 (x : Nat) : Nat := (BitVec.signExtend 64 (BitVec.ofNat 32 x)).toNat
def sext16to64 (x : W16) : Nat := (BitVec.signExtend 64 x).toNat
def sext16to32 (x : W16) : Nat := (BitVec.signExtend 32 x).toNat

/-- A source operand by its type (Table FMT-5); 64-bit columns give 64 bits, the others 32. -/
def LaneView.src (w : LaneView) (h : LaneHdr) (t : OTy) (x : Sel) (l : Nat) : Nat :=
  match t with
  | .i64 | .n64 =>
    let signed := match t with
      | .i64 => true
      | _ => false
    match x with
    | .v r => w.reg r.val l + 2 ^ 32 * w.reg (r.val + 1) l
    | .k r => (sget w.k r.val).toNat
    | .inl n => if signed && decide (n.val < 16) then sext32to64 (inlineBits n) else inlineBits n
    | .imm16 => if signed then sext16to64 h.imm else h.imm.toNat
    | .ext32 => if signed then sext32to64 (h.ext.toNat % 2 ^ 32) else h.ext.toNat % 2 ^ 32
    | .ext64 => h.ext.toNat
  | _ =>
    match x with
    | .v r => w.reg r.val l
    | .k r => (sget w.k r.val).toNat % 2 ^ 32
    | .inl n =>
      match t with
      | .half f => if n.val < 16 then both (inlineBits n) else both (inlineTo16 f (inlineBits n))
      | _ => inlineBits n
    | .imm16 =>
      match t with
      | .int => sext16to32 h.imm
      | .f32 => h.imm.toNat * 2 ^ 16
      | .half _ => both h.imm.toNat
      | _ => h.imm.toNat
    | .ext32 => h.ext.toNat % 2 ^ 32
    | .ext64 => h.ext.toNat % 2 ^ 32

/-- Slots of a lane word: two where a selector names the extension slot (R75). -/
def laneSlots (sels : List Sel) : Nat := if sels.contains .ext32 || sels.contains .ext64 then 2 else 1

/-! Lane results -/

/-- What one lane word writes: registers and predicates by virtual lane, and flags. -/
structure LaneOut where
  regs : List (Nat × Nat × Nat)
  preds : List (Nat × Nat × Bool)
  gf : W32

/-- Write one register of one physical lane; a word with a lookahead window leaves its old value on offer (R81). -/
def Group.writeLane (gr : Group) (la : Bool) (id r phys x : Nat) : Group :=
  let old := sget gr.v (vkey r phys)
  let gr := gr.putV r phys (BitVec.ofNat 32 x)
  if la then { gr with alt := ⟨none, false, r, phys, old, id⟩ :: gr.alt } else gr

def Group.writePred (gr : Group) (la : Bool) (id r phys : Nat) (b : Bool) : Group :=
  let old := gr.predBit r phys
  let gr := gr.putP r phys b
  if la then { gr with alt := ⟨none, true, r, phys, if old then 1 else 0, id⟩ :: gr.alt } else gr

/-- Apply what a lane word writes. -/
def Group.commit (gr : Group) (la : Bool) (o : LaneOut) : Group :=
  let phys (l : Nat) := gr.remap.getD l l
  let gr1 := o.regs.foldl (fun gr' x => gr'.writeLane la gr.nextId x.1 (phys x.2.1) x.2.2) gr
  let gr2 := o.preds.foldl (fun gr' x => gr'.writePred la gr.nextId x.1 (phys x.2.1) x.2.2) gr1
  { gr2 with gfL := gr2.gfL ||| o.gf, nextId := if la then gr.nextId + 1 else gr.nextId }

/-- Finish a lane word with its results: the word is counted, earlier windows step, and its own window opens. -/
def State.laneFinish (s : State) (g : GRef) (gr : Group) (h : LaneHdr) (sels : List Sel) (o : LaneOut) : State :=
  let la := h.la != 0
  let gr' := gr.stepLook.commit la o
  let gr' := if la then { gr' with look := ⟨gr.nextId, h.la.val⟩ :: gr'.look } else gr'
  (s.setGroup g (gr'.atL (nextLPc gr.lpc (laneSlots sels)) false)).count g.core (s.ctxOf g) 0x03 1

/-- The old values that a word may read which writes some registers and predicates: not those of a long-latency word that writes
one of them too, with which it is interlocked (R81). -/
def Group.interlockRegs (gr : Group) (regs preds : List Nat) : Group :=
  let both (a : Alt) : Bool := a.path.isNone && (if a.pred then preds.contains a.reg else regs.contains a.reg)
  let ids := (gr.alt.filter both).map (·.id)
  { gr with alt := gr.alt.filter (fun a => a.path.isSome || !ids.contains a.id) }

/-- The same for a word whose results are a function of what it reads. -/
def Group.interlock (gr : Group) (f : LaneView → List Nat → LaneOut) : Group :=
  let o := f { v := gr.v, p := gr.p, k := [], remap := gr.remap, exm := gr.exmL, fmt := gr.fmtL } laneList
  if gr.alt.all (fun a => a.path.isSome) then gr else gr.interlockRegs (o.regs.map (·.1)) (o.preds.map (·.1))

/-- A lane word whose results are a function of what it reads and of the lanes that act. -/
def laneWord (s : State) (h : LaneHdr) (sels : List Sel) (f : LaneView → List Nat → LaneOut) :
    Host.Outcome State Fault Refusal :=
  onLane s (fun g gr => let w := s.view (gr.interlock f); w.2.laneFinish g gr h sels (f w.1 (w.1.active h)))

/-- One 32-bit result, or a pair, for each lane. -/
def pairRegs (d : VReg) (wide : Bool) (l x : Nat) : List (Nat × Nat × Nat) :=
  if wide then [(d.val, l, x % 2 ^ 32), (d.val + 1, l, x / 2 ^ 32 % 2 ^ 32)] else [(d.val, l, x % 2 ^ 32)]

/-- One result in each active lane. -/
def mapOut (d : VReg) (wide : Bool) (f : LaneView → Nat → Nat × W32) (w : LaneView) (act : List Nat) : LaneOut :=
  { regs := act.flatMap (fun l => pairRegs d wide l (f w l).1), preds := [],
    gf := act.foldl (fun m l => m ||| (f w l).2) 0 }

/-- A lane word that computes one result in each active lane. -/
def laneMap (s : State) (h : LaneHdr) (sels : List Sel) (d : VReg) (wide : Bool) (f : LaneView → Nat → Nat × W32) :
    Host.Outcome State Fault Refusal :=
  laneWord s h sels (mapOut d wide f)

/-- A lane word that writes one predicate in each active lane. -/
def lanePred (s : State) (h : LaneHdr) (sels : List Sel) (d : PReg) (f : LaneView → Nat → Bool) :
    Host.Outcome State Fault Refusal :=
  laneWord s h sels (fun w act => { regs := [], preds := act.map (fun l => (d.val, l, f w l)), gf := 0 })

end Sys2Proof.Machine
end

