-- ==== Sys2Proof/Machine/Objects.lean ====
section
/-! DEFINITION. Barriers, stage rings and tagged waits (R214 to R230): where an object lies, how its words change, and
the waits that a change ends. -/

namespace Sys2Proof.Machine

/-! Places of objects (R219) -/

/-- Where an object lies: in a team's scratch, or in device memory. -/
inductive Place where
  | scratch (t : TRef) (off : Nat)
  | mem (pa : Nat) (mor : Bool)
  deriving DecidableEq, Repr

/-- Find the n bytes of an object from its address, with the checks of R219. Only a word of the scalar stream that finds its
object asks for the core-side watchpoints (R335). -/
def State.objPlace (s : State) (g : GRef) (a : W64) (n : Nat) (ring : Bool) (watch : Bool := false) :
    Except Meet Place × State :=
  let form := a.toNat / 2 ^ 62
  let mid := a.toNat / 2 ^ 32 % 2 ^ 30
  let low := a.toNat % 2 ^ 32
  if a.toNat % 16 != 0 then (.error ⟨.alignment, 0⟩, s)
  else if form = 0 then
    if ring then
      let t := s.translate (s.ctxOf g) a.toNat (some g.core)
      (.error ⟨if t.1.isNone then .translation else .protection, 0⟩, t.2)
    else
      let r := s.checkGlobal (s.ctxOf g) a.toNat n 16 true true false watch (some g.core) (s.teamIdOf g)
      match r.1 with
      | .error m => (.error m, r.2)
      | .ok xl => (.ok (.mem xl.pa xl.mor), r.2)
  else if form = 1 || mid != 0 then (.error ⟨.protection, 0⟩, s)
  else if form = 2 then
    match s.checkScratch (s.teamRefOf g) low n 16 with
    | .error m => (.error m, s)
    | .ok t => (.ok (.scratch t low), s)
  else
    match s.checkWindow (s.teamRefOf g) low n 16 with
    | .error m => (.error m, s)
    | .ok t => (.ok (.scratch t (low % 2 ^ 18)), s)

/-- Read n bytes of an object from an offset. -/
def State.placeGet (s : State) (p : Place) (off n : Nat) : Nat × State :=
  match p with
  | .scratch t o =>
    (match s.team t with
     | some tm => sgetLE tm.scratch (o + off) n
     | none => 0, s)
  | .mem pa _ => s.homeGet (pa + off) n

/-- The core of a group meets an object: its logical time is not below the object's, and no later write of the object is placed
before it (R177, R226; DESIGN CHOICE, log entry 17). -/
def State.placeMeet (s : State) (g : GRef) (p : Place) : State :=
  match p with
  | .scratch t _ => s.meetCores g.core t.core
  | .mem pa _ =>
    let pts := max (s.core g.core).pts (s.leaseOf (lineOf pa)).wts
    (s.setPts g.core pts).leaseRead pts pa 16

/-- An update of an object by a word has to wait: it lies in a page that is locked for a move (R171). -/
def State.placeHeld (s : State) (g : GRef) (p : Place) : Bool :=
  match p with
  | .scratch _ _ => false
  | .mem pa _ => s.mustHold (.scalar g) pa

/-- Write n bytes of an object at an offset, for a group. -/
def State.placeSet (s : State) (g : GRef) (p : Place) (off n x : Nat) : State :=
  match p with
  | .scratch t o => s.onTeam t (fun tm => { tm with scratch := ssetLE tm.scratch (o + off) n x })
  | .mem pa mor => s.coreSet g (pa + off) n x mor

def State.placeTag (s : State) (p : Place) (off : Nat) : Bool :=
  match p with
  | .scratch t o =>
    match s.team t with
    | some tm => tm.tag (o + off)
    | none => false
  | .mem _ _ => false

def State.placeSetTag (s : State) (p : Place) (off : Nat) (full : Bool) : State :=
  match p with
  | .scratch t o => s.onTeam t (fun tm => tm.setTag (o + off) full)
  | .mem _ _ => s

/-! Barriers (R220, R223) -/

/-- A barrier's sixteen bytes as one number: word 0 lowest. -/
abbrev BarBits := Nat

def barExp (b : BarBits) : Nat := b % 2 ^ 16
def barArr (b : BarBits) : Nat := b / 2 ^ 16 % 2 ^ 16
def barPh (b : BarBits) : Bool := b.testBit 32
def barBrk (b : BarBits) : Bool := b.testBit 33
def barPend (b : BarBits) : Nat := b / 2 ^ 64 % 2 ^ 48

/-- A number with bits lo to lo + n - 1 replaced. -/
def putField (x lo n v : Nat) : Nat := x - x / 2 ^ lo % 2 ^ n * 2 ^ lo + v % 2 ^ n * 2 ^ lo

def barSetExp (b : BarBits) (v : Nat) : BarBits := putField b 0 16 v
def barSetArr (b : BarBits) (v : Nat) : BarBits := putField b 16 16 (min v 65535)
def barSetPend (b : BarBits) (v : Nat) : BarBits := putField b 64 48 v
def barSetPh (b : BarBits) (v : Bool) : BarBits := putField b 32 1 (if v then 1 else 0)
def barSetBrk (b : BarBits) : BarBits := putField b 33 1 1

/-- The completion test of R223. -/
def barTest (b : BarBits) : BarBits :=
  if !barBrk b && decide (barExp b ≤ barArr b) && barPend b == 0 then barSetArr (barSetPh b (!barPh b)) 0 else b

/-- An arrival. -/
def barArrive (b : BarBits) : BarBits := if barBrk b then b else barSetArr b (barArr b + 1)

/-- A drop of a group: `arrived` says that its entry's phase is the present one, so that its arrival is taken back. -/
def barDrop (arrived : Bool) (b : BarBits) : BarBits :=
  if barBrk b then b
  else
    let b := if arrived then barSetArr b (barArr b - 1) else b
    barSetExp b (barExp b - 1)

/-- Bytes expected, and bytes landed. -/
def barExpect (n : Nat) (b : BarBits) : BarBits := if barBrk b then b else barSetPend b ((barPend b + n) % 2 ^ 48)
def barLand (n : Nat) (b : BarBits) : BarBits :=
  if barBrk b then b else barSetPend b ((barPend b + 2 ^ 48 - n % 2 ^ 48) % 2 ^ 48)

/-! Waits on objects -/

/-- The end of a `BARWAIT` or `RINGACQ` that finds the object broken: c0 := 1 and GF.BROKEN (R224). -/
def Group.brokenEnd (gr : Group) : Group := { gr.setC 0 true with gfS := gr.gfS ||| gfBroken, ticket := none }

/-- A `BARWAIT` that may end: the group as it ends, or none (R224). -/
def barwaitEnd (gr : Group) (dst : SReg) (phase : Bool) (b : BarBits) : Option Group :=
  if barBrk b then some gr.brokenEnd
  else if barPh b != phase then some ((gr.setS dst (if barPh b then 1 else 0)).setC 0 false)
  else none

/-- Slot counts of a ring (Table SYN-4). -/
def ringCountOk (n : Nat) : Bool := [1, 2, 4, 8, 16, 32, 64].contains n

/-- The count in a ring's word 0: bits 6:0. -/
def ringN (w0 : Nat) : Nat := w0 % 128

/-- The state of a ring's slot: its tag, and its phase bit. -/
def State.ringSlot (s : State) (p : Place) (i : Nat) : Bool × Bool :=
  (s.placeTag p (16 + 4 * i), (s.placeGet p (16 + 4 * i) 4).1 % 2 == 1)

/-- Slot and lap phase of a ticket (R228). -/
def ringIndex (n t : Nat) : Nat := t % n
def ringLap (n t : Nat) : Bool := t / n % 2 == 1

/-- A `RINGACQ` that may end: the group as it ends, or none (R228). The consumer waits for FULL, the producer for EMPTY,
in the phase of the ticket's lap; n is the slot count that the word read when it issued. -/
def State.ringEnd (s : State) (p : Place) (gr : Group) (consumer : Bool) (t : W32) (n : Nat) : Option Group :=
  if ((s.placeGet p 4 4).1).testBit 1 then some gr.brokenEnd
  else
    let sl := s.ringSlot p (ringIndex n t.toNat)
    if sl.1 == consumer && sl.2 == ringLap n t.toNat then some { gr.setC 0 false with ticket := none } else none

/-- End one scalar wait on an object if it may end. -/
def State.wakeObject (s : State) (g : GRef) : State :=
  match s.group g with
  | none => s
  | some gr =>
    match gr.waitS with
    | some (.barrier a ph dst) =>
      let r := s.objPlace g a 16 false
      match r.1 with
      | .error _ => s
      | .ok p =>
        let b := r.2.placeGet p 0 16
        match barwaitEnd gr dst ph b.1 with
        | some gr' => (b.2.placeMeet g p).scalarDone g gr' 1
        | none => s
    | some (.ring a consumer t n) =>
      let r := s.objPlace g a 16 true
      match r.1 with
      | .error _ => s
      | .ok p =>
        match r.2.ringEnd p gr consumer t n with
        | some gr' => (r.2.placeMeet g p).scalarDone g gr' 1
        | none => s
    | _ => s

def Group.waitsOnObject (gr : Group) : Bool :=
  gr.status == .active &&
  match gr.waitS with
  | some (.barrier _ _ _) => true
  | some (.ring _ _ _ _) => true
  | _ => false

/-- End every scalar wait on an object that may end (R224, R228). -/
def State.wakeObjects (s : State) : State :=
  let ws := (s.groups.filter (fun p => p.2.waitsOnObject)).map (·.1)
  ws.foldl (fun s g => s.wakeObject g) s

/-- Change a barrier at one point of the order, run the completion test where asked, and end the waits it ends. -/
def State.barUpdate (s : State) (g : GRef) (p : Place) (test : Bool) (f : BarBits → BarBits) : State :=
  let b := (s.placeMeet g p).placeGet p 0 16
  let b' := f b.1
  (b.2.placeSet g p 0 16 (if test then barTest b' else b')).wakeObjects

/-! Tagged waits (R161, R162, R215) -/

/-- What a tagged unit needs: loads FULL, stores EMPTY. -/
def State.tagReady (s : State) (u : AUnit) : Bool :=
  match u.space with
  | .scratch t =>
    match s.team t with
    | none => false
    | some tm => tm.tag u.pa == u.kind.reads
  | _ => false

/-- Perform one tagged unit at its point: `.F` empties, `.FK` keeps, `.E` fills (Table MEM-4). `cmp` of the unit says
which tag it leaves. -/
def State.tagUnit (s : State) (g : GRef) (u : AUnit) : State :=
  match u.space with
  | .scratch t =>
    let r := s.scratchUnit g t u
    let s := r.2.onTeam t (fun tm => tm.setTag u.pa (u.cmp == 1))
    s.onGroup g (fun gr =>
      let gr := { gr with tagDone := setBit gr.tagDone u.lane true, tagPend := gr.tagPend.filter (fun x => x.lane != u.lane) }
      match r.1 with
      | .done x => gr.deliver .sl gr.nextId u.phys u.dst x
      | _ => gr)
  | _ => s

/-- The core whose scratch a unit reaches. -/
def AUnit.coreOf (u : AUnit) : Option Nat :=
  match u.space with
  | .scratch t => some t.core
  | _ => none

def AUnit.onCore (u : AUnit) (core : Nat) : Bool := u.coreOf == some core

/-- The cores whose scratch some units reach. -/
def tagCores (units : List AUnit) : List Nat := (units.filterMap AUnit.coreOf).eraseDups

/-- The first unit of a tagged wait on a core's scratch that can be performed: no earlier lane of the word waits on the same
scratch word. -/
def State.firstTag (s : State) (core : Nat) : List AUnit → List (Space × Nat) → Option AUnit
  | [], _ => none
  | u :: rest, blocked =>
    if u.onCore core && !blocked.contains (u.space, u.pa) && s.tagReady u then some u
    else s.firstTag core rest ((u.space, u.pa) :: blocked)

/-- The tagged word of a group has performed all its lanes: it is counted on its path until the path's counter falls,
and the lane stream goes on. -/
def State.tagFinish (s : State) (g : GRef) (gr : Group) : State :=
  match gr.waitL with
  | some .tag =>
    let path : PathClass := if gr.tagRet then .sl else .st
    let o : OutOp := { id := gr.nextId, path := path, ret := gr.tagRet, units := [], allLanes := gr.tagDone,
                       pc := gr.lpc, sent := none }
    s.laneDone g { gr with out := gr.out ++ [o], nextId := gr.nextId + 1, tagDone := 0 } gr.tagSlots
  | _ => s

/-- Groups with a tagged wait, in the order of R162 for the scratch of a core: its own quarters, then others by core. -/
def tagOrder (core : Nat) (a b : GRef × Group) : Bool :=
  let ka := if a.1.core = core then 0 else a.1.core + 1
  let kb := if b.1.core = core then 0 else b.1.core + 1
  decide (ka < kb) || (ka == kb && (decide (a.2.quarter < b.2.quarter) ||
    (a.2.quarter == b.2.quarter && decide (a.1.gid < b.1.gid))))

/-- Insert by an order. -/
def insertBy {α : Type} (lt : α → α → Bool) (x : α) : List α → List α
  | [] => [x]
  | y :: ys => if lt x y then x :: y :: ys else y :: insertBy lt x ys

def sortBy {α : Type} (lt : α → α → Bool) (l : List α) : List α := l.foldr (insertBy lt) []

/-- One unit of the tagged waits on a core's scratch that can be performed, in the order of R162: the group and the unit. -/
def State.nextTag (s : State) (core : Nat) : Option (GRef × AUnit) :=
  (sortBy (tagOrder core) (s.groups.filter (fun p => p.2.status == .active && !p.2.tagPend.isEmpty))).findSome?
    (fun p => (s.firstTag core p.2.tagPend []).map (fun u => (p.1, u)))

/-- Perform tagged waits until none can go on. -/
def State.wakeTagLoop (core : Nat) : Nat → State → State
  | 0, s => s
  | n + 1, s =>
    match s.nextTag core with
    | none => s
    | some (g, u) =>
      let s := s.tagUnit g u
      let s := match s.group g with
        | some gr => if gr.tagPend.isEmpty then s.tagFinish g gr else s
        | none => s
      State.wakeTagLoop core n s

/-- End every tagged wait whose condition holds, after a change on a core's scratch (R218). -/
def State.wakeTags (s : State) (core : Nat) : State :=
  let n := (s.groups.map (fun p => p.2.tagPend.length)).sum
  if n = 0 then s else State.wakeTagLoop core n s

/-- What a performed unit sets off: waits on objects re-read their words after every store (R349), and a changed tag may
end a tagged wait. -/
def State.settle (s : State) (core : Nat) : State := (s.wakeObjects).wakeTags core

/-- Perform what a group owes, of those units that an event waits for. -/
def State.drainOf (w : Owed) (s : State) (g : GRef) : State := drainWith (fun s => s.settle g.core) w s g

/-- Every outstanding unit (R82). -/
def State.drain (s : State) (g : GRef) : State := s.drainOf .all g

end Sys2Proof.Machine
end

