-- ==== Sys2Proof/Machine/Virtual.lean ====
section
/-! DEFINITION. Reads and writes of whole ranges of a context's address space by the agents of the package: the dispatcher,
the queues, the Wellhead and the engines. -/

namespace Sys2Proof.Machine

/-! Accesses that may meet a cause -/

/-- An access that may meet a cause: what it gives, with the state. -/
abbrev Acc (α : Type) := Except (Meet × Nat) α × State

/-- Go on unless a cause was met. -/
def Acc.go {α β : Type} (r : Acc α) (f : α → State → Acc β) : Acc β :=
  match r.1 with
  | .error e => (.error e, r.2)
  | .ok x => f x r.2

/-- Go on over a list, each element in turn, unless a cause is met. -/
def accFold {α β : Type} (f : β → α → State → Acc β) : List α → β → State → Acc β
  | [], b, s => (.ok b, s)
  | x :: rest, b, s => (f b x s).go (fun b s => accFold f rest b s)

/-- The parts of n bytes at an address that lie in one 64 KiB page each. -/
def pieces : Nat → Nat → Nat → List (Nat × Nat)
  | 0, _, _ => []
  | f + 1, va, n =>
    if n = 0 then [] else
    let k := min n (65536 - va % 65536)
    (va, k) :: pieces f (va + k) (n - k)

/-- Number of parts of n bytes, at most. -/
def pieceFuel (n : Nat) : Nat := n / 65536 + 2

/-- Read parts in turn: one little-endian number, or the first cause with its address. -/
def readPieces (c : Nat) (host : Bool) : List (Nat × Nat) → State → Except (Meet × Nat) Nat × State
  | [], s => (.ok 0, s)
  | (va, k) :: rest, s =>
    let t := s.checkGlobal c va k 1 true false host false
    match t.1 with
    | .error m => (.error (m, va), t.2)
    | .ok xl =>
      let r := if xl.host then (t.2.hostGet xl.pa k, t.2) else t.2.agentGet xl.pa k
      let rs := readPieces c host rest r.2
      match rs.1 with
      | .error e => (.error e, rs.2)
      | .ok x => (.ok (r.1 + 256 ^ k * x), rs.2)

/-- Read n bytes of a context's space. -/
def State.vread (s : State) (c va n : Nat) (host : Bool) : Acc Nat :=
  readPieces c host (pieces (pieceFuel n) va n) s

/-- Translate the parts of a write in turn. -/
def checkPieces (c : Nat) (host : Bool) : List (Nat × Nat) → State → Except (Meet × Nat) (List (Xl × Nat)) × State
  | [], s => (.ok [], s)
  | (va, k) :: rest, s =>
    let t := s.checkGlobal c va k 1 false true host false
    match t.1 with
    | .error m => (.error (m, va), t.2)
    | .ok xl =>
      let rs := checkPieces c host rest t.2
      match rs.1 with
      | .error e => (.error e, rs.2)
      | .ok l => (.ok ((xl, k) :: l), rs.2)

/-- Write parts in turn, in units of at most some bytes (Table ORD-1): 8, or 4 for an engine's list of page ids. -/
def writeUnits (wr : Writer) (mor : Bool) (unit : Nat) : Nat → Nat → Nat → Nat → State → State
  | 0, _, _, _, s => s
  | f + 1, pa, n, x, s =>
    if n = 0 then s else
    let k := min n (unit - pa % unit)
    writeUnits wr mor unit f (pa + k) (n - k) (x / 256 ^ k) (s.homeSet wr pa k (x % 256 ^ k) mor)

def writePieces (wr : Writer) (unit : Nat) : List (Xl × Nat) → Nat → State → State
  | [], _, s => s
  | (xl, k) :: rest, x, s =>
    let s := if xl.host then s.hostSet xl.pa k (x % 256 ^ k) else writeUnits wr xl.mor unit (k / unit + 2) xl.pa k (x % 256 ^ k) s
    writePieces wr unit rest (x / 256 ^ k) s

/-- Write n bytes of a context's space, all of it or nothing. -/
def State.vwrite (s : State) (wr : Writer) (c va n x : Nat) (host : Bool) (unit : Nat := 8) : Acc Unit :=
  let t := checkPieces c host (pieces (pieceFuel n) va n) s
  match t.1 with
  | .error e => (.error e, t.2)
  | .ok l => (.ok (), (writePieces wr unit l x t.2).wakeObjects)

/-- The package's own agents as writers: kind of R335 and number (DESIGN CHOICE, log entry 20). -/
def State.agent (s : State) (kind num : Nat) : Writer := ⟨s.nowPts, BitVec.ofNat 64 (kind * 2 ^ 60 + num), []⟩

/-- Field of n bytes at an offset of a block read as a number. -/
def byteField (x off n : Nat) : Nat := x / 256 ^ off % 256 ^ n

end Sys2Proof.Machine
end

