-- ==== Sys2Proof/Machine/Region.lean ====
section
/-! DEFINITION. The reconvergence stack with its spill (R45, R330) and regrouped regions (R47 to R52, R434, R435). -/

namespace Sys2Proof.Machine

/-! Sump quota (R330) -/

/-- Entries of the reconvergence stack held in the core (R45). -/
def stackHeld : Nat := 32
/-- Deepest stack (R45). -/
def stackDepth : Nat := 1024
/-- Commands of one class that a team's engine queue holds (R330). -/
def engineQueue : Nat := 32

/-- Bytes a group has spilled: stack entries of 16 bytes, lane-queue entries of 144. -/
def Group.spillBytes (gr : Group) : Nat := 16 * (gr.stack.length - stackHeld) + 144 * gr.spilled.length

/-- Bytes a team's engine queues have spilled, 64 a command. -/
def Team.spillBytes (t : Team) : Nat :=
  let n (c : EngCls) := (t.cmds.filter (fun x => x.cls == c)).length - engineQueue
  64 * (n .ce + n .kv + n .co)

/-- Bytes a context has spilled now, parked teams included. -/
def State.sumpUsed (s : State) (c : Nat) : Nat :=
  let here := s.teams.filter (fun p => p.2.ctx == c)
  let live := (s.groups.filter (fun p => (here.map (·.1)).contains p.1.team)).map (fun p => p.2.spillBytes)
  let parked := (s.grids.filter (fun p => p.2.ctx == c)).map (fun p =>
    (p.2.parked.map (fun k => k.team.spillBytes + (k.groups.map (fun q => q.2.spillBytes)).sum)).sum)
  live.sum + (here.map (fun p => p.2.spillBytes)).sum + parked.sum

/-- A spill of n more bytes stays within the context's quota. -/
def State.sumpFits (s : State) (c n : Nat) : Bool :=
  match s.ctx c with
  | none => false
  | some x => decide (s.sumpUsed c + n ≤ x.sumpQ)

/-! What a spill writes (R38, R45, R330) -/

def StackKind.code : StackKind → Nat
  | .diverge => 0 | .call => 1 | .regroup => 2
def StackKind.ofCode (n : Nat) : StackKind := match n with
  | 1 => .call
  | 2 => .regroup
  | _ => .diverge

/-- A stack entry as 16 bytes: PND is bit 31 of its FMT (R403). -/
def StackEntry.word (e : StackEntry) : Nat :=
  e.mask.toNat + (e.fmt.toNat % 2 ^ 31 + if e.pnd then 2 ^ 31 else 0) * 2 ^ 32 +
    (e.lpc.toNat % 2 ^ 54 + e.kind.code * 2 ^ 62) * 2 ^ 64

/-- A lane-queue entry as 144 bytes. -/
def LaneEntry.word (e : LaneEntry) : Nat :=
  e.k.foldl (fun n p => n + p.2.toNat * 2 ^ (128 + 64 * p.1)) (e.target.toNat + e.exm.toNat * 2 ^ 64 + e.fmt.toNat * 2 ^ 96)

/-- An entry of n bytes is written to a ring in the context's sump area. Where it lies there, and its form, are the device's
own: it takes a free place of the area in the form of Table TRAP-7 (DESIGN CHOICE, log entry 113). -/
def State.spillTo (s : State) (core c n x : Nat) : State :=
  match s.ctx c with
  | none => s
  | some k =>
    let d := s.pick (k.sumpQ / n)
    (d.2.vwrite (d.2.agent 0 core) c (k.sumpBase.toNat + n * d.1) n x false).2

/-! Reconvergence stack -/

/-- Whether an entry can be pushed: STACK beyond the depth, QUOTA where the spill of the oldest entry passes the
quota. -/
def State.pushMeet (s : State) (g : GRef) (gr : Group) : Option Meet :=
  if stackDepth ≤ gr.stack.length then some ⟨.stack, 0⟩
  else if stackHeld ≤ gr.stack.length && !s.sumpFits (s.ctxOf g) 16 then some ⟨.quota, 1⟩
  else none

/-- EXM and lane-side FMT of a popped entry: bits 23:0 of its FMT (R403). -/
def Group.restore (gr : Group) (e : StackEntry) : Group :=
  { gr with exmL := e.mask, fmtL := e.fmt &&& 0xFFFFFF }

/-! Regions -/

/-- The region under way of a role in a team. -/
def Team.region (t : Team) (r : Role) : Option Region := t.regions.find? (fun x => x.role == r)

def Team.putRegion (t : Team) (x : Region) : Team :=
  { t with regions := x :: t.regions.filter (fun y => y.role != x.role) }
def Team.dropRegion (t : Team) (r : Role) : Team := { t with regions := t.regions.filter (fun y => y.role != r) }

/-- The groups that take part: resident, of the role, not exited (R48). -/
def State.participants (s : State) (t : TRef) (r : Role) : List (GRef × Group) :=
  sortBy (fun a b => decide (a.1.gid < b.1.gid))
    ((s.teamGroups t).filter (fun p => p.2.role == r && p.2.status != .exited))

/-- Every participant has arrived. -/
def State.regionFull (s : State) (t : TRef) (x : Region) : Bool :=
  (s.participants t x.role).all (fun p => x.arrived.contains p.1.gid)

/-- A free arrangement of a list. -/
def permute : Nat → List Nat → State → List Nat × State
  | 0, _, s => ([], s)
  | n + 1, l, s =>
    let d := s.pick l.length
    let x := l.getD d.1 0
    let r := permute n (l.filter (· != x)) d.2
    (x :: r.1, r.2)

/-- The named registers of a region. -/
def Region.regs (x : Region) : List Nat := (List.range x.count).map (· + x.first)

/-- Saved value of a named register of a lane in a participant's save. -/
def RegSave.reg (sv : RegSave) (r l : Nat) : W32 := sget sv.v (vkey r l)

/-- Save what a participant holds at its arrival: its mask, FMT, named registers and predicates, and active lanes. -/
def saveOf (x : Region) (gid : Nat) (gr : Group) (act : List Nat) : RegSave :=
  { gid := gid, exm := gr.exmL, fmt := gr.fmtL,
    v := gr.v.filter (fun p => x.regs.contains (p.1 / 32)), p := gr.p,
    lanes := act.map (fun l => (gid, l)), host := false, atJoin := false }

/-- Write one physical lane's named registers and predicates. -/
def putLane (x : Region) (gr : Group) (phys : Nat) (v : Nat → W32) (p : Nat → Bool) : Group :=
  let gr := x.regs.foldl (fun gr r => gr.putV r phys (v r)) gr
  (List.range 7).foldl (fun gr r => gr.putP r phys (p r)) gr

/-- The lane list L (R49). -/
def laneSeq (saves : List RegSave) : List (Nat × Nat) :=
  (sortBy (fun a b => decide (a.gid < b.gid)) saves).flatMap (·.lanes)

def saveFor (saves : List RegSave) (gid : Nat) : Option RegSave := saves.find? (fun sv => sv.gid == gid)

/-- A host takes its share of L: its physical lanes, mask, FMT and remap table change together, and it goes on (R49,
R50). -/
def State.makeHost (s : State) (t : TRef) (x : Region) (gid : Nat) (share : List (Nat × Nat)) (fmt : W32) : State :=
  match s.group (t.group gid) with
  | none => s
  | some gr =>
    let pm := permute 32 laneList s
    let remap := pm.1
    let blank := laneList.foldl (fun gr j => putLane x gr j (fun _ => 0) (fun _ => false)) gr
    let filled := share.zipIdx.foldl (fun gr y =>
      let phys := remap.getD y.2 y.2
      match saveFor x.saves y.1.1 with
      | none => gr
      | some sv => putLane x gr phys (fun r => sv.reg r y.1.2) (fun r => (sget sv.p r).getLsbD y.1.2)) blank
    pm.2.laneJump (t.group gid)
      { filled with exmL := BitVec.ofNat 32 (2 ^ share.length - 1), fmtL := fmt, remap := remap }
      (nextLPc gr.lpc 1) false

/-- The gathering (R49): every participant's entry is pushed at its arrival; hosts go on, the others wait for the
join. -/
def State.gatherRegion (s : State) (t : TRef) (x : Region) : State :=
  let ps := s.participants t x.role
  let saves := sortBy (fun (a b : RegSave) => decide (a.gid < b.gid))
    (x.saves.filter (fun sv => (ps.map (·.1.gid)).contains sv.gid))
  let x := { x with saves := saves }
  let l := laneSeq saves
  let nh := (l.length + 31) / 32
  let fmt := match saves.head? with
    | some sv => sv.fmt
    | none => 0
  let share (j : Nat) := (l.drop (32 * j)).take 32
  let hosts := ((saves.map (·.gid)).take nh).zipIdx
  let saves' := saves.map (fun sv =>
    match hosts.find? (fun h => h.1 == sv.gid) with
    | some h => { sv with host := true, lanes := share h.2 }
    | none => { sv with lanes := [] })
  let s := saves.foldl (fun s sv => s.onGroup (t.group sv.gid) (fun gr =>
    { gr with stack := { kind := .regroup, mask := sv.exm, lpc := 0, fmt := sv.fmt, pnd := false } :: gr.stack,
              waitL := some .regroupJoin })) s
  let s := hosts.foldl (fun s h => s.makeHost t x h.1 (share h.2) fmt) s
  s.onTeam t (fun tm => tm.putRegion { x with gathered := true, saves := saves' })

/-- The values that a lane of L has at the join, from the host that carries it. -/
def State.carried (s : State) (t : TRef) (saves : List RegSave) (gid l : Nat) : Option (Group × Nat) :=
  saves.findSome? (fun sv =>
    if !sv.host then none else
    match sv.lanes.zipIdx.find? (fun y => y.1 == (gid, l)) with
    | none => none
    | some y => (s.group (t.group sv.gid)).map (fun gr => (gr, gr.remap.getD y.2 y.2)))

/-- One participant leaves the region: lanes of L come back with their values, the others are restored, its entry is
popped, and it goes on after the join (R51). -/
def State.leaveRegion (s old : State) (t : TRef) (x : Region) (pc : W64) (sv : RegSave) : State :=
  match s.group (t.group sv.gid) with
  | none => s
  | some gr =>
    if gr.status == .exited then s else
    let gr := laneList.foldl (fun gr l =>
      match old.carried t x.saves sv.gid l with
      | some (hgr, phys) =>
        putLane x gr l (fun r => sget hgr.v (vkey r phys)) (fun r => hgr.predBit r phys)
      | none => putLane x gr l (fun r => sv.reg r l) (fun r => (sget sv.p r).getLsbD l)) gr
    let top := gr.stack.head?
    let gr := { gr with stack := gr.stack.tail }
    let gr := match top with
      | some e => gr.restore e
      | none => gr
    s.laneJump (t.group sv.gid) { gr with remap := laneList } (nextLPc pc 1) false

/-- The team-wide join, once every host has reached it (R51). -/
def State.joinRegion (s : State) (t : TRef) (x : Region) (pc : W64) : State :=
  let s' := x.saves.foldl (fun s' sv => s'.leaveRegion s t x pc sv) s
  s'.onTeam t (fun tm => tm.dropRegion x.role)

/-- Every host that can still come has reached the join. -/
def State.joinFull (s : State) (t : TRef) (x : Region) : Bool :=
  x.saves.all (fun sv => !sv.host || sv.atJoin ||
    match s.group (t.group sv.gid) with
    | none => true
    | some gr => gr.status == .exited)

/-- A region after a participant has exited or been killed (R51, R52). -/
def State.checkRegion (s : State) (t : TRef) (r : Role) : State :=
  match s.team t with
  | none => s
  | some tm =>
    match tm.region r with
    | none => s
    | some x =>
      if !x.gathered then (if s.regionFull t x && !(s.participants t r).isEmpty then s.gatherRegion t x else s)
      else
        match x.join with
        | some pc => if s.joinFull t x then s.joinRegion t x pc else s
        | none => s

/-- A group that stops before its `REGROUP` or its matching `LJOIN` has not arrived there (R43, R52). -/
def State.unarrive (s : State) (g : GRef) : State :=
  match s.group g with
  | none => s
  | some gr =>
    s.onTeam g.team (fun tm =>
      match tm.region gr.role with
      | none => tm
      | some x =>
        if x.gathered then
          tm.putRegion { x with saves := x.saves.map (fun sv => if sv.gid = g.gid then { sv with atJoin := false } else sv) }
        else
          tm.putRegion { x with arrived := x.arrived.filter (· != g.gid), saves := x.saves.filter (fun sv => sv.gid != g.gid) })

/-- A group runs as a host of a regrouped region, or waits in one. -/
def State.hostOf (s : State) (g : GRef) (gr : Group) : Bool :=
  match s.team g.team with
  | none => false
  | some tm =>
    match tm.region gr.role with
    | none => false
    | some x => x.gathered && x.saves.any (fun sv => sv.gid == g.gid && sv.host)

end Sys2Proof.Machine
end

