-- ==== Sys2Proof/Machine/Staging.lean ====
section
/-! DEFINITION. Matrix contributions (R132 to R139, R199 to R201), the staging buffer of a core, tiles on their way home,
and the steps of the MX commands of a group (R185, R203 to R211). -/

namespace Sys2Proof.Machine

/-! Contributions -/

/-- Formats of Table NUM-3: type, element width and K. -/
def mxFormat (code : Nat) : LType × Nat × Nat :=
  match code with
  | 0 => (.f32, 32, 8)
  | 1 => (.f16, 16, 16)
  | 2 => (.bf16, 16, 16)
  | 3 => (.e4m3, 8, 32)
  | 4 => (.e5m2, 8, 32)
  | 5 => (.i8, 8, 32)
  | 6 => (.dpt8, 8, 32)
  | 7 => (.e2m1, 4, 64)
  | _ => (.i4, 4, 64)

/-- Step 1 of Table MX-1: one width class, and scales only with narrow classes (R137). -/
def mxFmtOk (fmt : W32) : Bool :=
  (mxFormat (fmtA fmt)).2.1 == (mxFormat (fmtB fmt)).2.1 &&
    (fmtScale fmt == 0 || decide ((mxFormat (fmtA fmt)).2.1 ≤ 8))

/-- The value of an E5M3 block scale (R135). -/
def scaleVal (b : Nat) : FVal :=
  if b = 255 then .nan else if b / 8 = 0 then .fin false (b % 8) (-17)
  else .fin false (8 + b % 8) ((b / 8 : Nat) - (18 : Int))

/-- The exact values of a fragment (R199). -/
def fragVals (code frag : Nat) : List FVal :=
  let f := mxFormat code
  (List.range f.2.2).map (fun k => f.1.value false (frag / 2 ^ (k * f.2.1) % 2 ^ f.2.1))

/-- The exact sum of the scaled products of a row and a column, without rounding (R138). -/
def dotVal (scaled : Bool) (sa sb : Nat) (row col : List FVal) : FVal :=
  ((row.zip col).zipIdx).foldl (fun acc x =>
    let p := x.1.1.mul x.1.2
    let p := if scaled then
        (p.mul (scaleVal (sa / 256 ^ (x.2 / 32) % 256))).mul (scaleVal (sb / 256 ^ (2 + x.2 / 32) % 256))
      else p
    acc.add .rne p) (.fin false 0 0)

/-- Largest contribution (R138). -/
def clipMax : Nat := 2 ^ 62 - 1

/-- A contribution from the exact sum, with its flags (R138). -/
def contribution (e : Int) : FVal → Int × W32
  | .nan => (0, gfNan)
  | .inf neg => (signedMant neg clipMax, gfClip)
  | .fin neg m x =>
    let p := dyFrac m (x - e)
    let q := roundNat .rne neg p.1 p.2
    if clipMax < q then (signedMant neg clipMax, gfClip) else (signedMant neg q, 0)

/-- The contributions of an `MMA` by element, 32 i + j, those that are zero left out, and its flags. -/
def MxCmd.contribs (c : MxCmd) : Store 64 × W32 :=
  let rows := c.rowsA.map (fragVals (fmtA c.fmt))
  let cols := c.colsB.map (fragVals (fmtB c.fmt))
  let scaled := fmtScale c.fmt == 1
  let all := (List.range 1024).map (fun n =>
    (n, contribution (fmtE c.fmt) (dotVal scaled (c.scales.getD (n / 32) 0) (c.scales.getD (n % 32) 0)
      (rows.getD (n / 32) []) (cols.getD (n % 32) []))))
  ((all.map (fun x => (x.1, BitVec.ofInt 64 x.2.1))).filter (fun x => x.2 != 0), all.foldl (fun m x => m ||| x.2.2) 0)

/-! Staging and sends (R205, R206) -/

/-- Entries of a core's staging buffer. -/
def stagingLen : Nat := 8

/-- Add contributions by element, modulo 2^64 (R139). -/
def addCells (a b : Store 64) : Store 64 := b.foldl (fun a x => sset a x.1 (sget a x.1 + x.2)) a

/-- Send the staging entries of a core that meet a condition to their home slices. -/
def State.sendStaging (s : State) (core : Nat) (p : Staging → Bool) : State :=
  let c := s.core core
  let out := c.staging.filter p
  if out.isEmpty then s else
  let s := s.setCore core { c with staging := c.staging.filter (fun e => !p e) }
  { s with sends := s.sends ++ out.map (fun e =>
    { core := core, ctx := e.ctx, pa := e.pa, mor := e.mor, cells := e.cells, from_ := e.from_, grids := e.grids }) }

/-- Combine contributions into a core's staging, the entries most recently used first; without a free entry the least
recently used one is sent. -/
def State.combine (s : State) (g : GRef) (ctx pa : Nat) (mor : Bool) (cells : Store 64) : State :=
  let mine (e : Staging) : Bool := e.ctx == ctx && e.pa == pa
  let k := s.core g.core
  match k.staging.find? mine with
  | some e =>
    let e := { e with cells := addCells e.cells cells, from_ := if e.from_.contains g then e.from_ else g :: e.from_,
                      grids := (e.grids ++ s.gridsOf g).eraseDups }
    s.setCore g.core { k with staging := e :: k.staging.filter (fun x => !mine x) }
  | none =>
    let s := if k.staging.length < stagingLen then s
      else match k.staging.getLast? with
        | some old => s.sendStaging g.core (fun e => e.ctx == old.ctx && e.pa == old.pa)
        | none => s
    let e : Staging := { ctx := ctx, pa := pa, mor := mor, cells := cells, from_ := [g], grids := s.gridsOf g }
    s.onCore g.core (fun k => { k with staging := e :: k.staging })

/-- The MX adders of a tile's die as the writer of a unit (R335). -/
def State.adder (s : State) (core pa : Nat) (owners : List GRef) : Writer :=
  ⟨(s.core core).pts, BitVec.ofNat 64 (4 * 2 ^ 60 + dieOfPa pa), owners⟩

/-- Add one element of a sent tile at its home: one 8-byte unit (R204). -/
def State.addElem (s : State) (t : TileSend) (x : Nat × W64) : State :=
  let a := t.pa + 8 * x.1
  let r := s.homeGet a 8
  r.2.homeSet (s.adder t.core t.pa t.from_) a 8 ((r.1 + x.2.toNat) % 2 ^ 64) t.mor

/-- Add everything that is left of the sent tiles that meet a condition. -/
def State.landSends (s : State) (p : TileSend → Bool) : State :=
  let now := s.sends.filter p
  let s := { s with sends := s.sends.filter (fun t => !p t) }
  now.foldl (fun s t => t.cells.foldl (fun s x => s.addElem t x) s) s

/-- Every contribution to tiles in a range of physical memory goes home now (R171, R206). -/
def State.homeTiles (s : State) (pa n : Nat) : State :=
  let here (a : Nat) : Bool := decide (a < pa + n) && decide (pa < a + 8192)
  let s := (s.cores.map (·.1)).foldl (fun s k => s.sendStaging k (fun e => here e.pa)) s
  if s.sends.any (fun t => here t.pa) then s.landSends (fun t => here t.pa) else s

/-! MX commands -/

/-- The scratch operand of `MMA.S` as its team's scratch stands: 256 words. -/
def State.scrOperand (s : State) (g : GRef) (off : Nat) : Store 32 :=
  match s.team g.team with
  | none => []
  | some t => ((List.range 256).map (fun i => (i, BitVec.ofNat 32 (sgetLE t.scratch (off + 4 * i) 4)))).filter
      (fun x => x.2 != 0)

/-- Each word of the operand keeps the value taken before or takes its present one (R211). -/
def State.capture (s : State) (g : GRef) (c : MxCmd) : MxCmd × State :=
  match c.scr with
  | none => (c, s)
  | some off =>
    let now := s.scrOperand g off
    let r := (List.range 256).foldl (fun (x : Store 32 × State) i =>
      if sget x.1 i = sget now i then x else
      let d := x.2.pick 2
      (if d.1 = 0 then sset x.1 i (sget now i) else x.1, d.2)) (c.captured, s)
    ({ c with captured := r.1 }, r.2)

/-- Columns of B from the words taken (R200). -/
def capturedCols (w : Store 32) : List Nat :=
  laneList.map (fun j => (List.range 8).foldl (fun n i => n + (sget w (8 * j + i)).toNat * 2 ^ (32 * i)) 0)

/-- Replace an MX command of a group. -/
def Group.putMx (gr : Group) (c : MxCmd) : Group := { gr with mx := gr.mx.map (fun x => if x.num = c.num then c else x) }

/-- The operands-consumed point of a command by itself (R211): B is complete, and the flags of `MMA.S` are set. -/
def State.consumeOne (s : State) (g : GRef) (c : MxCmd) : MxCmd × State :=
  if c.begun || c.kind != .mma then (c, s) else
  match c.scr with
  | none => ({ c with begun := true }, s.onGroup g (·.putMx { c with begun := true }))
  | some _ =>
    let r := s.capture g c
    let c := { r.1 with colsB := capturedCols r.1.captured, begun := true }
    (c, r.2.onGroup g (fun gr => { gr.putMx c with gfL := gr.gfL ||| c.contribs.2 }))

/-- `MMA`s that other groups of a quarter issued before a command and whose operands have still to be read, in issue order
(R211). -/
def State.readBefore (s : State) (g : GRef) (c : MxCmd) : List (GRef × MxCmd) :=
  match s.group g with
  | none => []
  | some gr =>
    let others := s.groups.filter (fun p => p.1.core == g.core && p.1 != g && p.2.quarter == gr.quarter)
    sortBy (fun a b => decide (a.2.seq < b.2.seq))
      ((others.flatMap (fun p => p.2.mx.map (fun x => (p.1, x)))).filter (fun x =>
        x.2.kind == .mma && !x.2.begun && decide (x.2.seq < c.seq)))

/-- The operands-consumed point of a command, after those of the `MMA`s that its quarter issued before it (R211). -/
def State.consume (s : State) (g : GRef) (c : MxCmd) : MxCmd × State :=
  if c.begun || c.kind != .mma then (c, s) else
  ((s.readBefore g c).foldl (fun s x => (s.consumeOne x.1 x.2).2) s).consumeOne g c

/-- Every command of a group consumes its operands: its flags stand before a block ends (R407, R417). -/
def State.consumeMx (s : State) (g : GRef) : State :=
  match s.group g with
  | none => s
  | some gr => gr.mx.foldl (fun s c => (s.consume g c).2) s

/-- The first MX command of a group is complete: the counter reaches its number (R182, R185). -/
def State.mxComplete (s : State) (g : GRef) (num : Nat) : State :=
  s.onGroup g (fun gr => { gr with mx := gr.mx.filter (fun c => c.num != num), mxDone := num })

/-- Sends with contributions of a group to some tiles. -/
def sendsOf (g : GRef) (tiles : List Nat) (t : TileSend) : Bool := t.from_.contains g && tiles.contains t.pa

/-- Tiles that a command sends home: those of a flush, or that of an `MXZERO`. -/
def MxCmd.covers (c : MxCmd) : List Nat := match c.kind with
  | .zero => [c.pa]
  | _ => c.tiles

/-- Write zero to one element (R208). -/
def State.zeroElem (s : State) (g : GRef) (c : MxCmd) (e : Nat) : State :=
  s.homeSet (s.adder g.core c.pa [g]) (c.pa + 8 * e) 8 0 c.mor

/-- One step of the first MX command of a group. An `MMA` consumes its operands and is combined, or (n odd) only takes some
words of its scratch operand; `MXZERO` and `MXFLUSH` send their entries, wait for the additions of the group's own
contributions, and then zero their elements in any order or complete. -/
def State.mxStep (s : State) (g : GRef) (n : Nat) : State :=
  match s.group g with
  | none => s
  | some gr =>
    match gr.mx with
    | [] => s
    | c :: _ =>
      let ctx := s.ctxOf g
      if c.kind == .mma then
        if n % 2 = 1 && !c.begun && (s.readBefore g c).isEmpty then let r := s.capture g c; r.2.onGroup g (·.putMx r.1)
        else
          let r := s.consume g c
          (r.2.combine g ctx c.pa c.mor r.1.contribs.1).mxComplete g c.num
      else if !c.begun then
        (s.sendStaging g.core (fun e => e.ctx == ctx && c.covers.contains e.pa)).onGroup g (·.putMx { c with begun := true })
      else if s.sends.any (sendsOf g c.covers) then s
      else
        match c.kind, c.toZero with
        | .zero, e0 :: es =>
          if s.locked c.pa then s else
          let e := (e0 :: es).getD (n % (e0 :: es).length) e0
          let left := (e0 :: es).filter (· != e)
          let s := (s.zeroElem g c e).onGroup g (·.putMx { c with toZero := left })
          if left.isEmpty then s.mxComplete g c.num else s
        | _, _ => s.mxComplete g c.num

/-- A command is carried to its end at once. -/
def State.mxFinish (s : State) (g : GRef) (c : MxCmd) : State :=
  let ctx := s.ctxOf g
  if c.kind == .mma then
    let r := s.consume g c
    (r.2.combine g ctx c.pa c.mor r.1.contribs.1).mxComplete g c.num
  else
    let s := (s.sendStaging g.core (fun e => e.ctx == ctx && c.covers.contains e.pa)).landSends (sendsOf g c.covers)
    (c.toZero.foldl (fun s e => s.zeroElem g c e) s).mxComplete g c.num

/-- Every MX command of a group that has issued completes (R82, R213). -/
def State.finishMx (s : State) (g : GRef) : State :=
  match s.group g with
  | none => s
  | some gr => gr.mx.foldl (fun s c => s.mxFinish g c) s

/-- The sum of what staging and the sends of a core hold for an element: P of R209. -/
def State.stagedFor (s : State) (core ctx pa e : Nat) : W64 :=
  ((s.core core).staging.filter (fun x => x.ctx == ctx && x.pa == pa)).foldl (fun n x => n + sget x.cells e)
    ((s.sends.filter (fun x => x.core == core && x.ctx == ctx && x.pa == pa)).foldl (fun n x => n + sget x.cells e) 0)

end Sys2Proof.Machine
end

