-- ==== Sys2Proof/Machine/Ops.lean ====
section
/-! DEFINITION. Taking a trap, as one operation, and the return from it beside it (R43, R82, R268 to R278, R283); kills
of groups, teams and grids (R57, R60, R277); leaving a core (R61, R337). -/

namespace Sys2Proof.Machine

/-- The trap of a paged gather that meets an unmapped entry (R266). -/
def Trap.ofGather (t : Trap) : Bool := t.eng && t.cause == .translation && t.info == 2

/-! Reports -/

/-- A trace record about a group (R332). -/
def State.traceGroup (s : State) (g : GRef) (kind detail stall : Nat) (orig : W64) : State :=
  match s.team (s.teamRefOf g), s.group g with
  | some t, some gr =>
    s.trace t.ctx { kind := kind, detail := detail, orig := orig, w2 := t.codeId, teamId := t.teamId, core := g.core,
                    qtr := gr.quarter, gid := g.gid, stall := stall }
  | _, _ => s

/-- A trace record about a team (KINDs 1, 2 and 4); its ORIG, for which these kinds have no code address, is 0 (DESIGN CHOICE, log
entry 122). -/
def State.traceTeam (s : State) (t : TRef) (kind detail : Nat) : State :=
  match s.team t with
  | none => s
  | some tm => s.trace tm.ctx { kind := kind, detail := detail, orig := 0, w2 := tm.codeId, teamId := tm.teamId,
                                core := t.core, qtr := 0, gid := 0, stall := 0 }

/-! Stopping (R43, R82) -/

/-- A group that stops while its `SPAWN` waits for a build has launched nothing (R43, R234; DEDUCED, log entry 22). -/
def State.cancelSpawn (s : State) (g : GRef) : State :=
  match s.group g with
  | none => s
  | some gr =>
    match gr.waitS with
    | some (.specialise n _) =>
      { s with grids := adel s.grids n, mem := sclear s.mem (argPlace n) 65536 }.onTeam g.team
        (fun t => { t with children := t.children.filter (fun c => c.grid != some n) })
    | _ => s

/-- The group as it stops: pending values stand, and a wait is left before its word, but for an `LRUN` whose entry is already on
its way to the sump ring. A tagged word keeps note of the lanes that it has left (R38, R214, R215). -/
def Group.halted (gr : Group) : Group :=
  let gr := if gr.waitS == some .spill then gr.atS (nextSPc gr.spc 1) false else gr
  { gr with alt := [], look := [], waitS := none, waitL := none,
            tagLeft := if gr.tagPend.isEmpty then gr.tagLeft else laneMask (gr.tagPend.map (·.lane)), tagPend := [] }

/-- A group stops in both streams: every issued word that can complete now does (R43, R82). -/
def State.stopGroup (s : State) (g : GRef) : State :=
  let s := ((((s.drain g).finishMx g).unarrive g).cancelSpawn g).onGroup g Group.halted
  { s with powerAsks := s.powerAsks.filter (· != g), holds := s.holds.filter (· != .scalar g) }

/-- Take a group's entries out of its core's trap queue. -/
def State.dropTrapEntries (s : State) (g : GRef) : State :=
  s.onCore g.core (fun c => { c with trapQ := c.trapQ.filter (fun e => e != (g.slot, g.gid)) })

/-- Enter a group at the tail of its core's trap queue (R272). -/
def State.enterTrapQ (s : State) (g : GRef) : State :=
  s.onCore g.core (fun c =>
    if c.trapQ.contains (g.slot, g.gid) then c else { c with trapQ := c.trapQ ++ [(g.slot, g.gid)] })

/-! Kills (R57, R60, R225, R230, R277) -/

/-- Break one object: set BRK, wherever it lies; an address that no longer translates is left. -/
def State.breakObject (s : State) (g : GRef) (o : ObjEntry) : State :=
  let r := s.objPlace g o.addr 16 o.ring
  match r.1 with
  | .error _ => r.2
  | .ok p => let w := r.2.placeGet p 4 4; w.2.placeSet g p 4 4 (w.1 ||| 2)

/-- The counter of a context rises over every completed number that follows it (R182). -/
def riseOver (fin : List Nat) : Nat → Nat → Nat
  | 0, d => d
  | f + 1, d => if fin.contains (d + 1) then riseOver fin f (d + 1) else d

/-- Note that a command number of a class has completed. -/
def Team.finish (t : Team) (cls : EngCls) (num : Nat) : Team :=
  let t := { t with cmds := t.cmds.filter (fun c => !(c.cls == cls && c.num == num)) }
  match cls with
  | .ce =>
    let fin := num :: t.finCe
    let d := riseOver fin fin.length t.doneCe
    { t with finCe := fin.filter (fun n => decide (d < n)), doneCe := d }
  | .kv =>
    let fin := num :: t.finKv
    let d := riseOver fin fin.length t.doneKv
    { t with finKv := fin.filter (fun n => decide (d < n)), doneKv := d }
  | .co =>
    let fin := num :: t.finCo
    let d := riseOver fin fin.length t.doneCo
    { t with finCo := fin.filter (fun n => decide (d < n)), doneCo := d }

/-- The stopped paged gathers of a group that is killed count as completed, since nothing will resume them (R266, R273, R277). -/
def State.endGathers (s : State) (g : GRef) : State :=
  s.onTeam g.team (fun t => (t.cmds.filter (fun c => c.gid == g.gid && c.stopped.isSome)).foldl (fun t c => t.finish c.cls c.num) t)

/-- Release a group's power grant. -/
def Group.dropGrant (gr : Group) : Group := { gr with grant := none }

/-- End a group by a kill: its barriers and rings break, its issued words complete, and its contributions are sent. -/
def State.killGroup (s : State) (g : GRef) : State :=
  match s.group g with
  | none => s
  | some gr0 =>
    if gr0.status == .exited then (s.onGroup g (fun gr => { gr with trap := none, eng := [] })).dropTrapEntries g else
    let s := s.stopGroup g
    let s := gr0.obj.foldl (fun s o => s.breakObject g o) s
    let s := s.onGroup g (fun gr => { gr.dropGrant with status := .exited, killed := true, trap := none, laneQ := [],
                                                        spilled := [], run := none, obj := [], eng := [], stopping := none })
    let s := (s.endGathers g).dropTrapEntries g
    let s := s.sendStaging g.core (fun e => e.from_.contains g)
    (s.wakeObjects).checkRegion g.team gr0.role

/-- End the activation of a core's handler group (R275). -/
def State.endActivation (s : State) (core : Nat) : State :=
  let s := s.onCore core (fun c => { c with act := none })
  { s with groups := adel s.groups (handlerGroup core) }

/-- The activation of a core ends by a fault, its watchdog or a kill: the objects that its group lists are broken (R225). -/
def State.breakActivation (s : State) (core : Nat) : State :=
  let g := handlerGroup core
  match s.group g with
  | none => s.endActivation core
  | some gr =>
    let s := (s.drain g).flushGroup g
    ((gr.obj.foldl (fun s o => s.breakObject g o) s).endActivation core).wakeObjects

/-- An activation for a team ends. -/
def State.endActivationOf (s : State) (t : TRef) : State :=
  match (s.core t.core).act with
  | some a => if a.slot = t.slot then s.breakActivation t.core else s
  | none => s

/-- Kill every group of a team; an activation for it ends, and so does a park that is under way, whose slot is free again
(R277, R284). -/
def State.killTeam (s : State) (t : TRef) : State :=
  let s := ((s.teamGroups t).map (·.1)).foldl (fun s g => s.killGroup g) (s.endActivationOf t)
  match s.team t with
  | none => s
  | some tm =>
    (s.setTeam t { tm with parkWanted := none, parkGid := none, parkSlot := none, parkPresent := none }).onCtx tm.ctx
      (fun x => { x with usedSlots := x.usedSlots.filter (fun i => some i != tm.parkSlot) })

/-- Clear VALID of a park record and free its slot (R280, R282). -/
def State.freeSlot (s : State) (c slot : Nat) : State :=
  match s.ctx c with
  | none => s
  | some x =>
    let t := s.translate c (x.parkBase.toNat + 2 ^ 20 * slot + 0x27)
    let s := match t.1 with
      | some xl => t.2.putBytes xl.pa 1 (sgetLE t.2.mem xl.pa 1 % 128)
      | none => t.2
    s.onCtx c (fun x => { x with usedSlots := x.usedSlots.filter (· != slot) })

/-- Grids spawned by the teams of a grid. -/
def State.childGrids (s : State) (n : Nat) : List Nat :=
  (s.grids.filter (fun p => match p.2.issuer with
    | .spawn g _ => g == n
    | _ => false)).map (·.1)

/-- End a grid early: its status is recorded if it still ran, its resident teams are killed, its parked teams' records
are discarded, no further team is placed, and its child grids are killed (R57, R277, R284). -/
def endGrid : Nat → GridStatus → State → Nat → State
  | 0, _, s, _ => s
  | n + 1, st, s, gid =>
    match s.grid gid with
    | none => s
    | some gr =>
      let s := s.setGrid gid { gr with status := if gr.status == .running then st else gr.status, parked := [] }
      let s := gr.parked.foldl (fun s k => s.freeSlot gr.ctx k.slot) s
      let s := ((s.teams.filter (fun p => p.2.grid == gid)).map (·.1)).foldl (fun s t => s.killTeam t) s
      (s.childGrids gid).foldl (fun s c => endGrid n .killed s c) s

/-- Kill a grid, its children with it, to the deepest spawn depth (R53). -/
def State.killGrid (s : State) (gid : Nat) (st : GridStatus) : State := endGrid 8 st s gid

/-- A fault of a team that nothing resolves: its grid ends FAULTED with the team and cause (R57). -/
def State.faultTeam (s : State) (t : TRef) (cause : Cause) : State :=
  match s.team t with
  | none => s
  | some tm => s.killGrid tm.grid (.faulted tm.teamId cause)

/-- The status word of Table EXE-4. -/
def GridStatus.word : GridStatus → W64
  | .running | .done => 0
  | .faulted team cause => BitVec.ofNat 64 (team * 2 ^ 32 + cause.code * 2 ^ 8 + 1)
  | .killed => 2

/-! Traps -/

/-- A team is to be parked for a reason, with the GID of the trap that causes it (R279, R283); a park that is already
due stands. -/
def State.wantPark (s : State) (t : TRef) (reason gid : Nat) : State :=
  s.onTeam t (fun tm =>
    match tm.parkWanted with
    | some _ => tm
    | none => { tm with parkWanted := some reason, parkGid := some gid })

/-- HANDLER for a team, as its context had it when the team was placed: 0 where it has none (R274, R326). -/
def State.handlerOf (s : State) (t : TRef) : W64 :=
  match s.team t with
  | some x => x.handler
  | none => 0

/-- Handler code traps, or its watchdog ends it: the fault report takes the trap's TCAUSE, and the team is killed with
the presented cause (R278; DEDUCED, log entry 16). -/
def State.handlerFault (s : State) (core : Nat) (own : Option Trap) : State :=
  match (s.core core).act with
  | none => s
  | some a =>
    let s := match own, s.ctx a.ctx with
      | some t, some x =>
        if x.frep = 0 then s else
        let tr := s.translate a.ctx x.frep.toNat
        match tr.1 with
        | some xl => if xl.w && !xl.host then tr.2.putBytes xl.pa 8 t.tcause.toNat else tr.2
        | none => tr.2
      | _, _ => s
    let cause := match a.trap with
      | some t => t.cause
      | none => .hold
    (s.breakActivation core).faultTeam ⟨core, a.slot⟩ cause

/-- The default of a cause where the team's context has no handler: its team is parked, or its grid ends FAULTED (R274, R283). -/
def State.takeDefault (s : State) (g : GRef) (cause : Cause) : State :=
  if cause.parks then s.wantPark g.team 0 g.gid else s.faultTeam g.team cause

/-- The stop of a trapped group is recorded: its trap registers hold the trap, and it enters the trap queue of its core; where
its context has no handler the cause's default is taken. A trap that arises while the team is being parked stays pending in
its record. A lane word that a hold stops while it waits on tags leaves its lanes in TLANES; a trap of the scalar stream has TLANES 0
(R43, R215, R268, R269, R272, R274, R279). -/
def State.enterTrap (s : State) (g : GRef) (t : Trap) : State :=
  match s.group g with
  | none => s
  | some gr =>
    let c := s.ctxOf g
    let t := { t with orig := s.origWord c t.ln (if t.ln then gr.lpc else gr.spc), lanes := if t.ln || t.cause != .hold then t.lanes else gr.tagLeft }
    let s := s.setGroup g { gr with status := .trapped, trap := some t, stopping := none }
    let due := match s.team g.team with
      | some tm => tm.parkWanted.isSome
      | none => false
    if t.cause == .hold then (if due then s else s.enterTrapQ g)
    else
      let s := (s.count g.core c 0x09 1).traceGroup g 3 t.cause.code 0 t.orig
      if due then s else if s.handlerOf g.team != 0 then s.enterTrapQ g else s.takeDefault g t.cause

/-- A stopped group's trap takes effect: that of handler code ends its activation. -/
def State.trapNow (s : State) (g : GRef) (t : Trap) : State :=
  if g.isHandler then s.handlerFault g.core (some t) else s.enterTrap g t

/-- Taking a trap: the group stops before the trapping word with both stopping points kept. Every word that it has issued
completes before the stop is recorded; while one still waits for a peer or a locked page the group does not go on (R43, R82). -/
def State.takeTrap (s : State) (g : GRef) (t : Trap) : State :=
  let s := s.stopGroup g
  match s.group g with
  | none => s
  | some gr => if gr.unitCount != 0 then s.setGroup g { gr with stopping := some t } else s.trapNow g t

/-- A group that is stopping goes on with its stop once its words have completed. -/
def State.tryStop (s : State) (g : GRef) (t : Trap) : State :=
  let s := s.drain g
  match s.group g with
  | none => s
  | some gr => if gr.unitCount != 0 then s else s.trapNow g t

/-- A trap of the scalar stream, before any effect of its word. -/
def State.trapS (s : State) (g : GRef) (cause : Cause) (info : Nat) (addr : Nat) : State :=
  s.takeTrap g { cause := cause, info := BitVec.ofNat 32 info, eng := false, ln := false, addr := BitVec.ofNat 64 addr,
                 lanes := 0, orig := 0 }

/-- A trap of the lane stream, with the lanes that meet the cause. -/
def State.trapL (s : State) (g : GRef) (cause : Cause) (info : Nat) (addr : Nat) (lanes : W32) : State :=
  s.takeTrap g { cause := cause, info := BitVec.ofNat 32 info, eng := false, ln := true, addr := BitVec.ofNat 64 addr,
                 lanes := lanes, orig := 0 }

/-- The cause of a group that is trapped with one other than 0, or of an exited one whose engine fault is presented (R273). -/
def Group.caused (gr : Group) : Option Cause :=
  match gr.status, gr.trap with
  | .active, _ => none
  | _, some t => if t.cause == .hold then none else some t.cause
  | _, none => none

/-- Return from a trap: the group is READY and both streams restart at their stopping points. The first issue at each
checks no address breakpoint and passes a `BRKPT` or `TRAP`; after WATCHPOINT the stopping word's access is made without
a core-side check; a stopped gather of the group continues (R266, R282, R283, R334, R354, R366, R389, R462). -/
def State.resumeGroup (s : State) (g : GRef) : State :=
  (s.onTeam g.team (fun t => { t with cmds := t.cmds.map (fun c => if c.gid = g.gid then { c with stopped := none } else c) })).onGroup g (fun gr =>
    let wp (ln : Bool) : Bool := match gr.trap with
      | some t => t.cause == .watchpoint && t.ln == ln
      | none => false
    { gr with status := .active, trap := none, waitS := none, waitL := none,
              skipS := ⟨true, true, wp false⟩, skipL := ⟨true, true, wp true⟩ })

/-- An engine fault of an exited group is presented, or takes its default; one that comes while another is presented waits
(R273). -/
def State.presentExited (s : State) (g : GRef) (gr : Group) (t : Trap) : State :=
  if gr.trap.isSome then s.setGroup g { gr with eng := gr.eng ++ [t] } else
  let c := s.ctxOf g
  let t := { t with orig := s.origWord c false gr.spc }
  let s := ((s.setGroup g { gr with trap := some t }).count g.core c 0x09 1).traceGroup g 3 t.cause.code 0 t.orig
  if s.handlerOf g.team != 0 then s.enterTrapQ g else s.takeDefault g t.cause

/-- A fault of an engine command is raised for its issuing group (R273): it waits there for an instruction boundary; an
exited group's fault is presented at once, or takes its default. -/
def State.raiseEngine (s : State) (g : GRef) (cause : Cause) (info addr : Nat) : State :=
  let t : Trap := { cause := cause, info := BitVec.ofNat 32 info, eng := true, ln := false, addr := BitVec.ofNat 64 addr,
                    lanes := 0, orig := 0 }
  match s.group g with
  | none => s
  | some gr =>
    if gr.killed then s
    else if gr.status == .exited then s.presentExited g gr t
    else s.setGroup g { gr with eng := gr.eng ++ [t] }

/-- The fault presented for an exited group is done with; one that waited behind it is presented (R273, R366). -/
def State.clearExited (s : State) (g : GRef) : State :=
  match s.group g with
  | none => s
  | some gr =>
    match gr.eng with
    | [] => s.setGroup g { gr with trap := none }
    | t :: rest => s.presentExited g { gr with trap := none, eng := rest } t

/-! Leaving a core (R61, R337) -/

/-- Live counters of a core that a function's bank holds, saved or cleared. -/
def State.switchBank (s : State) (core : Nat) (dst : Option Nat) : State :=
  let k := s.core core
  if k.observed = dst then s else
  let s := match k.observed with
    | none => s
    | some f => k.counters.foldl (fun (s : State) (x : Nat × Counter) => { s with saved := aput s.saved (f, core, x.1) x.2 }) s
  let live := match dst with
    | none => []
    | some f => (List.range 8).filterMap (fun m => (aget s.saved (f, core, m)).map (fun x => (m, x)))
  s.setCore core { k with observed := dst, counters := live }

/-- The observed function of a core after its residents have changed (R337). -/
def State.observe (s : State) (core : Nat) : State :=
  let ts := s.coreTeams core
  let fs := ts.map (fun p => s.funcOf p.2.ctx)
  match (s.core core).observed with
  | some f =>
    if fs.contains f then s
    else
      match sortBy (fun a b => decide (a.2.placedAt < b.2.placedAt)) ts with
      | [] => s
      | p :: _ => s.switchBank core (some (s.funcOf p.2.ctx))
  | none =>
    match ts with
    | [] => s
    | p :: _ => s.switchBank core (some (s.funcOf p.2.ctx))

/-- Groups of other cores that wait on a tag in a team's scratch (R217). -/
def State.windowWaiters (s : State) (t : TRef) : List (GRef × AUnit) :=
  s.groups.filterMap (fun p =>
    if p.1.team == t then none else
    (p.2.tagPend.find? (fun u => u.space == .scratch t)).map (fun u => (p.1, u)))

/-- A team's place on its core is freed: slots, registers and scratch (R61, R279). -/
def State.freeTeam (s : State) (t : TRef) : State :=
  let s := (s.windowWaiters t).foldl (fun s p =>
    match s.group p.1 with
    | some gr => s.trapL p.1 .protection 0 p.2.va (laneMask (gr.tagPend.map (·.lane)))
    | none => s) s
  let s := s.endActivationOf t
  let s := { s with teams := adel s.teams t, groups := s.groups.filter (fun p => p.1.team != t),
                    powerAsks := s.powerAsks.filter (fun g => g.team != t) }
  let s := s.onCore t.core (fun c => { c with trapQ := c.trapQ.filter (fun e => e.1 != t.slot) })
  s.observe t.core

end Sys2Proof.Machine
end

