-- ==== Sys2Proof/Machine/Fetch.lean ====
section
/-! DEFINITION. Fetch and the decode checks of Table FMT-10 (R83 to R89), the checks of a transfer (R84 to R86), and
the choice of the group that issues (R33). -/

namespace Sys2Proof

/-! Registers a lane word names, against the allotment (R71) -/

/-- One past the highest lane register of a selector that covers n registers. -/
def Sel.top (n : Nat) (x : Sel) : Nat :=
  match x with
  | .v r => r.val + n
  | _ => 0

def maxOf (l : List Nat) : Nat := l.foldl max 0

/-- Registers of a value of a type. -/
def LType.regs (t : LType) : Nat := if t.wide then 2 else 1
def MWidth.regs (w : MWidth) : Nat := (w.bytes + 3) / 4
def SetpTy.regs (t : SetpTy) : Nat := match t.opw with
  | .w32 => 1
  | .w64 => 2
def AWidth.regs (w : AWidth) : Nat := match w with
  | .w32 => 1
  | .w64 => 2

def BfPos.top : BfPos → Nat
  | .fixed _ _ => 0
  | .var b => b.top 1

/-- Registers of a store's data. -/
def storeTop (fn : MemFn) (c : Sel) : Nat := c.top fn.width.regs

/-- One past the highest lane register that a word names. -/
def Instr.regTop : Instr → Nat
  | .iadd _ t _ d a b | .isub _ t _ d a b | .imul _ t _ d a b | .imin _ t d a b | .imax _ t d a b
  | .and _ t d a b | .or _ t d a b | .xor _ t d a b | .sel _ t _ d a b =>
    maxOf [d.val + t.regs, a.top t.regs, b.top t.regs]
  | .imad _ t _ d a b c | .logic _ t _ _ _ _ d a b c | .idot4 _ t _ d a b c =>
    maxOf [d.val + t.regs, a.top t.regs, b.top t.regs, c.top t.regs]
  | .iabs _ t _ d a | .ineg _ t _ d a | .brev _ t d a | .mov _ t d a => maxOf [d.val + t.regs, a.top t.regs]
  | .shl _ t _ d a b | .shr _ t _ d a b | .sar _ t _ d a b => maxOf [d.val + t.regs, a.top t.regs, b.top 1]
  | .popc _ t d a | .clz _ t d a | .matchLanes _ t _ d a => maxOf [d.val + 1, a.top t.regs]
  | .bfe _ _ pos d a => maxOf [d.val + 1, a.top 1, pos.top]
  | .bfi _ pos d a c => maxOf [d.val + 1, a.top 1, c.top 1, pos.top]
  | .prmt _ d a b c | .ffma _ d a b c | .hfma2 _ _ d a b c => maxOf [d.val + 1, a.top 1, b.top 1, c.top 1]
  | .isetp _ t _ _ a b => maxOf [a.top t.regs, b.top t.regs]
  | .fadd _ d a b | .fmul _ d a b | .fmin _ _ d a b | .fmax _ _ d a b | .hadd2 _ _ d a b | .hmul2 _ _ d a b =>
    maxOf [d.val + 1, a.top 1, b.top 1]
  | .fsetp _ _ _ _ a b => maxOf [a.top 1, b.top 1]
  | .fclass _ _ _ _ a => a.top 1
  | .frnd _ _ _ d a | .unpk _ _ _ d a | .rcp _ d a | .rsq _ d a | .sqrt _ d a | .ex2 _ d a | .lg2 _ d a | .sin _ d a
  | .cos _ d a | .tanh _ d a | .redux _ _ _ _ _ d a | .scan _ _ _ _ d a => maxOf [d.val + 1, a.top 1]
  | .cvt _ dst src d a => maxOf [d.val + dst.regs, a.top src.regs]
  | .pack _ _ d a b c e => maxOf [d.val + 1, a.top 1, b.top 1, c.top 1, e.top 1]
  | .shfl _ t _ d a b | .bcast _ t d a b => maxOf [d.val + t.regs, a.val + t.regs, b.top 1]
  | .getl _ d | .exmget _ d => d.val + 1
  | .vote _ mode _ d => if mode = .ballot then d.val + 1 else 0
  | .gsort _ _ _ d a b => maxOf [d.val + 2, a.top 1, b.top 1]
  | .exmset _ a => a.top 1
  | .regroup _ d n => d.val + n.val + 1
  | .ldg _ fn d a b _ => maxOf [d.val + fn.width.regs, a.top 2, b.top 1]
  | .lds _ fn d a b _ | .ldx _ fn d a b _ => maxOf [d.val + fn.width.regs, a.top 1, b.top 1]
  | .stg _ fn a b c _ => maxOf [storeTop fn c, a.top 2, b.top 1]
  | .sts _ fn a b c _ | .stx _ fn a b c _ => maxOf [storeTop fn c, a.top 1, b.top 1]
  | .rld _ fn d a r _ => maxOf [d.val + fn.width.regs, a.top 2, r.top 1]
  | .rst _ fn a r c _ => maxOf [storeTop fn c, a.top 2, r.top 1]
  | .ratom _ _ w nr d a r c e _ =>
    maxOf [if nr then 0 else d.val + w.regs, a.top 2, r.top 1, c.top w.regs, e.top w.regs]
  | .atom _ _ w nr d a b c e _ => maxOf [if nr then 0 else d.val + w.regs, a.top 2, b.top 1, c.top w.regs, e.top w.regs]
  | .red _ _ w a b c _ => maxOf [a.top 2, b.top 1, c.top w.regs]
  | .tagset _ _ a b _ => maxOf [a.top 1, b.top 1]
  | .tagget _ d a b _ => maxOf [d.val + 1, a.top 1, b.top 1]
  | .waitp _ _ a => a.top 1
  | .pref _ _ a b _ => maxOf [a.top 2, b.top 1]
  | .mma _ s a b _ e => maxOf [a.val + 8, if s then 0 else b.top 8, e.top 1]
  | .mxread _ _ d _ b => maxOf [d.val + 1, b.top 1]
  | .rand _ d a b => maxOf [d.val + 1, a.top 2, b.top 2]
  | _ => 0

/-! Privilege and roles (R28, R387) -/

/-- Roles that may issue a word; none where every role may (Table EXE-2). -/
def Instr.roles : Instr → Option (List Machine.Role)
  | .cpy _ _ _ | .gath _ _ _ | .coll _ _ _ => some [.copy]
  | .kvalloc _ _ _ | .kvref _ _ _ | .kvunref _ _ _ | .kvcow _ _ _ | .kvtierCi _ _ _ | .kvtierAq _ _ _
  | .kvsend _ _ _ => some [.copy, .control]
  | .mma _ _ _ _ _ _ | .mxzero _ _ | .mxflush _ _ => some [.matrix]
  | .mxread _ _ _ _ _ => some [.matrix, .vector]
  | .rqget _ _ _ _ | .rqset _ _ _ _ | .rqemit _ _ _ => some [.control]
  | _ => none

/-- Handler-only words (R28). -/
def Instr.handlerOnly : Instr → Bool
  | .hread _ _ | .hwrite _ _ | .hresume _ | .hkill _ | .hpark | .eret => true
  | _ => false

/-- Steps 4 and 5 of Table FMT-10 for a group: a handler-only word elsewhere, then the role; handler code is
role-free (R275). -/
def Instr.roleCause (i : Instr) (handler : Bool) (role : Machine.Role) : Option Machine.Cause :=
  if i.handlerOnly && !handler then some .illegal
  else
    match i.roles with
    | none => none
    | some rs => if handler || !rs.contains role then some .role else none

end Sys2Proof

namespace Sys2Proof.Machine

/-! Lines (R83, R84, R87, R88) -/

/-- Slots of a line: 30 scalar, 10 lane. -/
def lineSlots (ln : Bool) : Nat := if ln then 10 else 30
def slotBytes (ln : Bool) : Nat := if ln then 12 else 4

/-- The line of code at a translated address: a context, HOST memory or not, and the line's number there. -/
def codeKey (c : Nat) (xl : Xl) : Nat × Bool × Nat := (c, xl.host, xl.pa / 128)

/-- Bytes of a line of code: as the context has fetched it since its code was last loaded, else as memory holds them (R88; DESIGN
CHOICE, log entry 11). -/
def State.codeBytes (s : State) (c : Nat) (xl : Xl) (off n : Nat) : Nat :=
  match aget s.code (codeKey c xl) with
  | some m => sgetLE m off n
  | none => if xl.host then sgetLE s.hostMem (xl.pa + off) n else sgetLE s.mem (xl.pa + off) n

/-- A line of code is fetched: from now on a store into it does not change what the context fetches (R88). -/
def State.keepCode (s : State) (c : Nat) (xl : Xl) : State :=
  if (aget s.code (codeKey c xl)).isSome then s
  else { s with code := aput s.code (codeKey c xl) (ssetLE ([] : Store 8) 0 128 (s.codeBytes c xl 0 128)) }

/-- The code that a context has fetched is read from memory again: a reload of code (R88), a reset of the context. -/
def State.dropCode (s : State) (c : Nat) : State := { s with code := s.code.filter (fun k => k.1.1 != c) }

/-- Lines of a core's instruction caches: 64 KiB of lane code, 16 KiB of scalar code (R9). -/
def icacheLines (ln : Bool) : Nat := if ln then 512 else 128

/-- A line enters an instruction cache of a core; a full one first gives up one of its lines, of its own choice. -/
def State.fillCode (s : State) (core : Nat) (ln : Bool) (c line : Nat) : State :=
  let x : ILine := ⟨core, ln, c, line⟩
  if s.icache.contains x then s else
  let held := s.icache.filter (fun y => y.core == core && y.ln == ln)
  let d := if held.length < icacheLines ln then (none, s) else s.pickOf (held.map some) none
  { d.2 with icache := x :: d.2.icache.filter (fun y => some y != d.1) }

/-- Reserved bits of a line header (Tables FMT-8, FMT-9). -/
def headerOk (ln : Bool) (hd : Nat) : Bool :=
  if ln then
    hd / 2 ^ 48 % 2 ^ 15 == 0 && hd / 2 ^ 26 % 2 ^ 6 == 0 && hd / 2 ^ 10 % 2 ^ 6 == 0 &&
      (hd.testBit 63 || hd / 2 ^ 32 % 2 ^ 16 == 0)
  else hd / 2 ^ 62 % 2 == 0 && hd / 2 ^ 30 % 4 == 0

/-- Start and target marks of a slot. -/
def startMark (hd k : Nat) : Bool := hd.testBit k
def targetMark (ln : Bool) (hd k : Nat) : Bool := hd.testBit ((if ln then 16 else 32) + k)

/-- The line lies in the context's residual-code region (R245). -/
def State.inResidual (s : State) (c line : Nat) : Bool :=
  match s.ctx c with
  | none => false
  | some x => decide (x.resBase.toNat ≤ line) && decide (line < x.resBase.toNat + x.resLen)

/-- Fetch a line of code: its translation and header, or the cause (R88). The line stays as it is fetched first. -/
def State.fetchLine (s : State) (c line : Nat) : Except Meet (Xl × Nat) × State :=
  let t := s.translate c line
  match t.1 with
  | none => (.error ⟨.translation, 1⟩, t.2)
  | some xl => if !xl.x then (.error ⟨.protection, 0⟩, t.2)
    else (.ok (xl, t.2.codeBytes c xl 0 8), t.2.keepCode c xl)

/-! Transfers (R85, R86) -/

/-- How a transfer's target stands: good, a breach of R84 or R85, or a line that cannot be fetched now. -/
inductive Reach where
  | good | breach | unread
  deriving DecidableEq, Repr

/-- Check a transfer target: slot range, a line below 2^56, start and target marks, and slot 0 for a call. -/
def State.checkTarget (s : State) (c : Nat) (ln call : Bool) (pc : Nat) : Reach × State :=
  let k := codeSlot ln pc
  let line := codeLine ln pc
  if lineSlots ln ≤ k || 2 ^ 56 ≤ line || (call && k != 0) then (.breach, s) else
  let f := s.fetchLine c line
  match f.1 with
  | .error _ => (.unread, f.2)
  | .ok (_, hd) => (if startMark hd k && targetMark ln hd k then .good else .breach, f.2)

/-- A scalar transfer: made with its effect (the group as given), or CONTROL at the transferring word (R86). -/
def State.transferS (s : State) (g : GRef) (gr : Group) (pc : W64) (call : Bool) : State :=
  let t := s.checkTarget (s.ctxOf g) false call pc.toNat
  match t.1 with
  | .breach => t.2.trapS g .control 0 pc.toNat
  | .good => t.2.scalarJump g gr pc false
  | .unread => t.2.scalarJump g gr pc true

/-- A lane transfer. -/
def State.transferL (s : State) (g : GRef) (gr : Group) (pc : W64) (call : Bool) : State :=
  let t := s.checkTarget (s.ctxOf g) true call pc.toNat
  match t.1 with
  | .breach => t.2.trapL g .control 0 pc.toNat 0
  | .good => t.2.laneJump g gr pc false
  | .unread => t.2.laneJump g gr pc true

/-! The decode checks of a word (Table FMT-10) -/

/-- What stands at a code address: the instruction to issue, or the first cause with its INFO and TADDR. -/
inductive Fetched where
  | word (i : Instr)
  | trap (cause : Cause) (info addr : Nat)
  deriving DecidableEq, Repr

/-- Decode the word in a slot of a fetched line, with the placement rules of SL and double-slot words (R66, R75). -/
def State.decodeAt (s : State) (c : Nat) (ln : Bool) (xl : Xl) (hd k : Nat) : Option Instr :=
  let w := s.codeBytes c xl (8 + k * slotBytes ln) (slotBytes ln)
  if ln then
    if isDoubleSlot w then
      if k = 9 || startMark hd (k + 1) then none else
      let e := s.codeBytes c xl (8 + (k + 1) * 12) 12
      if 2 ^ 64 ≤ e then none else (decodeLane w e).toOption
    else (decodeLane w 0).toOption
  else if isSlWord w then
    if 27 < k || startMark hd (k + 1) || startMark hd (k + 2) then none
    else (decodeScalar w (s.codeBytes c xl (8 + (k + 1) * 4) 8)).toOption
  else (decodeScalar w 0).toOption

/-- The near target of an SB word: slot and signed line delta from the word's own line (R65). -/
def nearTarget (pc : W64) (o : SOff) : W64 :=
  ((pc >>> 5) + o.delta.signExtend 64) * 32#64 + BitVec.ofNat 64 o.slot.val

/-- An `SLOOP` whose head lies above its own address is ILLEGAL at decode (R452). -/
def badHead (pc : W64) : Instr → Bool
  | .sloop _ _ off => decide (0 < off.delta.toInt) || (off.delta == 0 && decide (pc.toNat % 32 < off.slot.val))
  | _ => false

/-- Steps 0 to 5 of Table FMT-10 at the stopping point of a stream. A resumption or a fall-through needs the start mark,
a transfer whose marks are still unread the target mark as well (R85, R86). -/
def State.fetchWord (s : State) (g : GRef) (gr : Group) (ln : Bool) : Fetched × State :=
  let pc := (if ln then gr.lpc else gr.spc).toNat
  let k := codeSlot ln pc
  let line := codeLine ln pc
  let c := s.ctxOf g
  if lineSlots ln ≤ k || 2 ^ 56 ≤ line then (.trap .control 0 pc, s) else
  let f := s.fetchLine c line
  match f.1 with
  | .error m => (.trap m.cause m.info line, f.2)
  | .ok (xl, hd) =>
    let f := (f.1, f.2.fillCode g.core ln c line)
    let marks := if ln then gr.lMarks else gr.sMarks
    if hd.testBit 63 != s.inResidual c line || !headerOk ln hd || !startMark hd k || (marks && !targetMark ln hd k) then
      (.trap .control 0 pc, f.2)
    else
      match f.2.decodeAt c ln xl hd k with
      | none => (.trap .illegal 0 0, f.2)
      | some i =>
        if gr.allot < i.regTop || badHead gr.spc i then (.trap .illegal 0 0, f.2)
        else
          match i.roleCause g.isHandler gr.role with
          | some cause => (.trap cause 0 0, f.2)
          | none => (.word i, f.2)

/-! Address breakpoints (R334) -/

/-- The lowest enabled address breakpoint of the context that matches a stream's word. -/
def State.bpHit (s : State) (c : Nat) (ln : Bool) (pc : Nat) : Option Nat :=
  match aget s.obs (c % 4096), s.bpAddr c ln pc with
  | some p, some a =>
    (List.range 8).find? (fun i =>
      match p.bp[i]? with
      | none => false
      | some w => w.getLsbD 63 && w.getLsbD 62 == ln && w.toNat % 2 ^ 54 == a)
  | _, _ => none

end Sys2Proof.Machine
end

