-- ==== Sys2Proof/Machine/Engines.lean ====
section
/-! DEFINITION. Copy and gather commands: the checks of `CPY` and `GATH` at issue (R360, R362, R378 to R380, R266), the
landing of one unit (R361, R381), and the end of a command with its ring release (R182, R229, R273). -/

namespace Sys2Proof.Machine

/-! Issue of engine commands (R182, R330) -/

def Team.issuedOf (t : Team) : EngCls → Nat
  | .ce => t.issuedCe
  | .kv => t.issuedKv
  | .co => t.issuedCo

/-- The bytes that a spilled command takes. -/
def engineSpill : Nat := 64

/-- A command as the 64 bytes of its entry: number, group, class and descriptor address (DESIGN CHOICE, log entry 113). -/
def EngCmd.entry (c : EngCmd) : Nat :=
  c.num + c.gid * 2 ^ 64 + (match c.cls with
    | .ce => 0
    | .kv => 1
    | .co => 2) * 2 ^ 96 + c.descAddr.toNat * 2 ^ 128

/-- A command takes the next number of its context, which goes to the destination; past 32 queued commands it spills, or
takes QUOTA before any effect. -/
def State.engIssue (s : State) (g : GRef) (b : SReg) (cls : EngCls) (op : EngOp) (addr : W64) (desc : List Nat) : State :=
  match s.team g.team, s.group g with
  | some t, some gr =>
    let spills := decide (engineQueue ≤ (t.cmds.filter (fun c => c.cls == cls)).length)
    if spills && !s.sumpFits t.ctx engineSpill then s.trapS g .quota 1 0
    else
      let n := t.issuedOf cls + 1
      let c : EngCmd := { cls := cls, num := n, gid := g.gid, op := op, descAddr := addr, desc := desc, landed := [],
                          stopped := none }
      let t := { t with cmds := t.cmds ++ [c] }
      let t := match cls with
        | .ce => { t with issuedCe := n }
        | .kv => { t with issuedKv := n }
        | .co => { t with issuedCo := n }
      let s := s.setTeam g.team t
      (if spills then s.spillTo g.core t.ctx engineSpill c.entry else s).scalarDone g (gr.setS b (BitVec.ofNat 64 n)) 1
  | _, _ => s

/-- Words of a block read as a number. -/
def wordsOf (x n : Nat) : List Nat := (List.range n).map (fun i => byteField x (8 * i) 8)

/-- Read a descriptor of n bytes: 8-aligned, with R, and with W where asked, on pages that are not HOST (Table MEM-2). -/
def State.readDesc (s : State) (c va n : Nat) (wr : Bool) : Except Meet (List Nat) × State :=
  if va % 8 != 0 then (.error ⟨.alignment, 0⟩, s) else
  let w := if wr then checkPieces c false (pieces (pieceFuel n) va n) s else (.ok [], s)
  match w.1 with
  | .error e => (.error e.1, w.2)
  | .ok _ =>
    let r := w.2.vread c va n false
    match r.1 with
    | .error e => (.error e.1, r.2)
    | .ok x => (.ok (wordsOf x (n / 8)), r.2)

/-- The meaning of an engine word: its descriptor is read, checked, and the command issued; a cause is a precise trap
that takes no number. -/
def engineWord (s : State) (a b : SReg) (n : Nat) (wr : Bool) (cls : EngCls) (op : EngOp)
    (check : GRef → Nat → List Nat → State → Option (Meet × Nat) × State) : Host.Outcome State Fault Refusal :=
  onScalar s (fun g gr =>
    let va := (gr.sreg a).toNat
    let d := s.readDesc (s.ctxOf g) va n wr
    match d.1 with
    | .error m => d.2.trapS g m.cause m.info va
    | .ok w =>
      let k := check g va w d.2
      match k.1 with
      | some (m, addr) => k.2.trapS g m.cause m.info addr
      | none => k.2.engIssue g b cls op (BitVec.ofNat 64 va) w)

/-! Fields of copy and gather descriptors (Tables REF-1 and REF-2, R266) -/

def lo32 (w : Nat) : Nat := w % 2 ^ 32
def hi32 (w : Nat) : Nat := w / 2 ^ 32

/-- A count within limits. -/
def within (lo hi n : Nat) : Bool := decide (lo ≤ n) && decide (n ≤ hi)

def EngCmd.w (c : EngCmd) (i : Nat) : Nat := c.desc.getD i 0

/-- KIND of a gather. -/
def EngCmd.kind (c : EngCmd) : Nat := c.w 0 % 16

/-- Bytes a row, rows, and 4-byte units of a command. -/
def EngCmd.rowBytes (c : EngCmd) : Nat := lo32 (c.w 3)
def EngCmd.rows (c : EngCmd) : Nat :=
  match c.op with
  | .gath => if c.kind = 2 then hi32 (c.w 2) else hi32 (c.w 3)
  | _ => hi32 (c.w 3)
def EngCmd.units (c : EngCmd) : Nat := c.rows * (c.rowBytes / 4)

/-- BAR, RING and TICKET. -/
def EngCmd.bar (c : EngCmd) : W64 := BitVec.ofNat 64 (c.w 5)
def EngCmd.ring (c : EngCmd) : W64 := BitVec.ofNat 64 (c.w 6)
def EngCmd.ticket (c : EngCmd) : Nat := lo32 (c.w 7)

/-- The causes of R219 for the objects a descriptor names. -/
def State.namedObjects (s : State) (g : GRef) (bar ring : Nat) : Option (Meet × Nat) × State :=
  let one (a : Nat) (ring : Bool) (s : State) : Option (Meet × Nat) × State :=
    if a = 0 then (none, s) else
    let p := s.objPlace g (BitVec.ofNat 64 a) 16 ring
    match p.1 with
    | .error m => (some (m, a), p.2)
    | .ok pl =>
      let n := ringN (p.2.placeGet pl 0 4).1
      match (if ring && ringCountOk n then p.2.objPlace g (BitVec.ofNat 64 a) (16 + 4 * n) ring else p).1 with
      | .error m => (some (m, a), p.2)
      | .ok _ => if ring && !ringCountOk n then (some (⟨.illegal, 0⟩, a), p.2) else (none, p.2)
  let r := one bar false s
  match r.1 with
  | some x => (some x, r.2)
  | none => one ring true r.2

/-- Parts of a row in the cluster window that lie in one core's scratch each. -/
def windowParts : Nat → Nat → Nat → List (Nat × Nat)
  | 0, _, _ => []
  | f + 1, a, n =>
    if n = 0 then [] else
    let k := min n (2 ^ 18 - a % 2 ^ 18)
    (a, k) :: windowParts f (a + k) (n - k)

/-- Rows of a copy on one side lie within the scratch or window they name (R149, R150). -/
def State.sideOk (s : State) (t : TRef) (space base pitch rows rowBytes : Nat) : Bool :=
  match space with
  | 0 => true
  | 1 => (match s.checkScratch t base ((rows - 1) * pitch + rowBytes) 1 with
    | .ok _ => true
    | .error _ => false)
  | _ => (List.range rows).all (fun r =>
      (windowParts (rowBytes / 2 ^ 18 + 2) (base + r * pitch) rowBytes).all (fun p =>
        match s.checkWindow t p.1 p.2 1 with
        | .ok _ => true
        | .error _ => false))

/-- A copy descriptor breaks a limit of Table REF-1 (R362). -/
def cpyIllegal (w : List Nat) : Bool :=
  let f (i : Nat) := w.getD i 0
  let ssp := f 0 % 4
  let dsp := f 0 / 4 % 4
  let rows := hi32 (f 3)
  let rb := lo32 (f 3)
  let dp := hi32 (f 4)
  let sp := lo32 (f 4)
  f 0 / 16 != 0 || ssp == 3 || dsp == 3 || !within 1 65536 rows || !within 4 16777216 rb || rb % 4 != 0 ||
    dp % 4 != 0 || sp % 4 != 0 || (decide (1 < rows) && (decide (dp < rb) || decide (sp < rb))) || f 1 % 4 != 0 ||
    f 2 % 4 != 0 || (ssp != 0 && hi32 (f 1) != 0) || (dsp != 0 && hi32 (f 2) != 0) || hi32 (f 7) != 0 ||
    (lo32 (f 7) != 0 && f 6 == 0)

/-- The checks of `CPY` at issue (R362). -/
def cpyCheck (g : GRef) (va : Nat) (w : List Nat) (s : State) : Option (Meet × Nat) × State :=
  let f (i : Nat) := w.getD i 0
  let rows := hi32 (f 3)
  let rb := lo32 (f 3)
  if cpyIllegal w then (some (⟨.illegal, 0⟩, va), s)
  else if !s.sideOk g.team (f 0 % 4) (f 1) (lo32 (f 4)) rows rb then (some (⟨.protection, 0⟩, f 1), s)
  else if !s.sideOk g.team (f 0 / 4 % 4) (f 2) (hi32 (f 4)) rows rb then (some (⟨.protection, 0⟩, f 2), s)
  else s.namedObjects g (f 5) (f 6)

/-- `CPY` (R360). -/
def execCpy (_bt : Bt) (a b : SReg) (s : State) : Host.Outcome State Fault Refusal :=
  engineWord s a b 64 false .ce .cpy cpyCheck

/-- A gather descriptor breaks a limit of Table REF-2 or R266 (R380). -/
def gathIllegal (w : List Nat) : Bool :=
  let f (i : Nat) := w.getD i 0
  let kind := f 0 % 16
  let n := if kind = 2 then hi32 (f 2) else hi32 (f 3)
  let rb := lo32 (f 3)
  decide (3 ≤ kind) || hi32 (f 7) != 0 || (lo32 (f 7) != 0 && f 6 == 0) || !within 1 65536 n || !within 4 65536 rb ||
    rb % 4 != 0 || hi32 (f 4) % 4 != 0 || decide (hi32 (f 4) < rb) || lo32 (f 4) % 4 != 0 ||
    (match kind with
     | 0 => f 0 / 16 % 2 ^ 28 != 0 || hi32 (f 0) % 4 != 0 || f 2 % 4 != 0
     | 1 => f 0 / 16 != 0 || f 1 != 0 || f 2 % 8 != 0
     | _ => hi32 (f 0) != 0 || hi32 (f 3) != 0)

/-- The checks of `GATH` at issue, all with the descriptor's address (R380). -/
def gathCheck (g : GRef) (va : Nat) (w : List Nat) (s : State) : Option (Meet × Nat) × State :=
  let f (i : Nat) := w.getD i 0
  let n := if f 0 % 16 = 2 then hi32 (f 2) else hi32 (f 3)
  if gathIllegal w then (some (⟨.illegal, 0⟩, va), s)
  else if !s.sideOk g.team 1 (lo32 (f 4)) (hi32 (f 4)) n (lo32 (f 3)) then (some (⟨.protection, 0⟩, va), s)
  else
    let o := s.namedObjects g (f 5) (f 6)
    (o.1.map (fun x => (x.1, va)), o.2)

/-- `GATH` (R378). -/
def execGath (_bt : Bt) (a b : SReg) (s : State) : Host.Outcome State Fault Refusal :=
  engineWord s a b 64 false .ce .gath gathCheck

/-! Ends of commands (R182, R273) -/

def State.engDone (s : State) (t : TRef) (c : EngCmd) : State := s.onTeam t (·.finish c.cls c.num)

/-- A team's engine as a writer: a logical time past what its command has observed, the agent of R335, and the mark of the command
(R183, R193; log entry 17). -/
def State.engWriter (s : State) (t : TRef) (c : EngCmd) : Writer :=
  let k := match c.cls with
    | .ce => 0
    | .kv => 1
    | .co => 2
  let agent := match c.cls with
    | .ce => 2 ^ 60 + t.core
    | .kv => 2 * 2 ^ 60 + coreDie t.core
    | .co => 3 * 2 ^ 60 + coreDie t.core
  ⟨s.nowPts, BitVec.ofNat 64 agent, [t.group (64 + 4 * c.num + k)]⟩

/-- Write n bytes of an object for an engine. -/
def State.engPlaceSet (s : State) (wr : Writer) (p : Place) (off n x : Nat) : State :=
  match p with
  | .scratch t o => s.onTeam t (fun tm => { tm with scratch := ssetLE tm.scratch (o + off) n x })
  | .mem pa mor => s.homeSet wr (pa + off) n x mor

/-- The core of a place passes every write performed so far, so that who meets the object there sees them (R186; log
entry 17). -/
def State.engPublish (s : State) (wr : Writer) (p : Place) : Writer × State :=
  match p with
  | .scratch t _ => (wr, s.acquire t.core)
  | .mem _ _ => ({ wr with pts := s.nowPts }, s)

/-- n landed bytes leave PEND of a named barrier (R223). -/
def State.engLanded (s : State) (t : TRef) (c : EngCmd) (bar : W64) (n : Nat) : State :=
  if bar = 0 then s else
  let p := s.objPlace (t.group c.gid) bar 16 false
  match p.1 with
  | .error _ => p.2
  | .ok pl =>
    let b := p.2.placeGet pl 0 16
    let w := b.2.engPublish (b.2.engWriter t c) pl
    (w.2.engPlaceSet w.1 pl 0 16 (barTest (barLand n b.1))).wakeObjects

/-- Break the ring that a command names (R229, R230): BRK, where word 1 still lies in the scratch of a resident team. -/
def State.engBreak (s : State) (t : TRef) (c : EngCmd) : State :=
  if c.op != .cpy && c.op != .gath || c.ring = 0 then s else
  let p := s.objPlace (t.group c.gid) c.ring 8 true
  match p.1 with
  | .error _ => p.2
  | .ok pl =>
    let w := p.2.placeGet pl 4 4
    (w.2.engPlaceSet (w.2.engWriter t c) pl 4 4 (w.1 ||| 2)).wakeObjects

/-- A command ends in a fault, which is raised for its issuing group; its number counts as completed (R273). -/
def State.engFault (s : State) (t : TRef) (c : EngCmd) (cause : Cause) (info addr : Nat) : State :=
  (((s.engBreak t c).engDone t c).raiseEngine (t.group c.gid) cause info addr)

/-! Units of copies and gathers -/

/-- Read 4 bytes for an engine. -/
def State.engGet (s : State) (t : TRef) (space a : Nat) : Except Meet Nat × State :=
  match space with
  | 0 =>
    let r := s.checkGlobal (s.ctxOf (t.group 0)) a 4 4 true false true false (some t.core) (s.teamIdOf (t.group 0))
    match r.1 with
    | .error m => (.error m, r.2)
    | .ok xl => if xl.host then (.ok (r.2.hostGet xl.pa 4), r.2) else let v := r.2.agentGet xl.pa 4; (.ok v.1, v.2)
  | 1 =>
    match s.team t with
    | some tm => (.ok (sgetLE tm.scratch a 4), s)
    | none => (.ok 0, s)
  | _ =>
    match s.checkWindow t a 4 4 with
    | .error m => (.error m, s)
    | .ok t' =>
      match s.team t' with
      | some tm => (.ok (sgetLE tm.scratch (a % 2 ^ 18) 4), s)
      | none => (.ok 0, s)

/-- A word lands in a team's scratch and becomes FULL (R161). Who finds it there sees what the engine had seen (R186; log entry
17), and waits on objects re-read their words (R349). -/
def State.landScratch (s : State) (t : TRef) (off x : Nat) : State :=
  ((s.acquire t.core).onTeam t (fun tm => { tm with scratch := ssetLE tm.scratch off 4 x }.setTag off true)).settle t.core

/-- How a unit fared. -/
inductive Landed where
  | done (s : State)
  | wait (s : State)
  | fault (m : Meet) (s : State)

/-- Write 4 bytes for an engine; a page locked for a move holds them (R171). -/
def State.engPut (s : State) (t : TRef) (c : EngCmd) (space a x : Nat) : Landed :=
  match space with
  | 0 =>
    let r := s.checkGlobal (s.ctxOf (t.group 0)) a 4 4 false true true false (some t.core) (s.teamIdOf (t.group 0))
    match r.1 with
    | .error m => .fault m r.2
    | .ok xl =>
      if xl.host then .done (r.2.hostSet xl.pa 4 x)
      else if r.2.locked xl.pa then .wait r.2
      else .done ((r.2.homeSet (r.2.engWriter t c) xl.pa 4 x xl.mor).wakeObjects)
  | 1 => .done (s.landScratch t a x)
  | _ =>
    match s.checkWindow t a 4 4 with
    | .error m => .fault m s
    | .ok t' => .done (s.landScratch t' (a % 2 ^ 18) x)

/-- The source of a unit: an address of a space, zeros, a byte of a row whose place in a KV page is known, a fault
with its address, an unmapped table entry, or a page that is being moved. -/
inductive Source where
  | addr (space a : Nat)
  | zero
  | phys (base k : Nat)
  | bad (m : Meet) (a : Nat)
  | unmapped (entry : Nat)
  | moving
  deriving DecidableEq, Repr

/-- An address in 64 bits. -/
def a64 (n : Nat) : Nat := n % 2 ^ 64

/-! Pools as gathers and KV commands see them (R263, R382) -/

/-- The instance whose pools a team's commands name (R382). -/
def State.instOf (s : State) (t : TRef) : Option Inst :=
  match s.team t with
  | none => none
  | some tm =>
    match (s.grid tm.grid).bind (·.inst) with
    | some n => s.insts.find? (fun x => x.num == n)
    | none => (sortBy (fun (a b : Inst) => decide (a.num < b.num))
        (s.insts.filter (fun x => x.ctx == tm.ctx && x.status == .running))).head?

/-- A configured pool: its descriptor's fields (Table SRV-6). -/
structure PoolDesc where
  inst : Nat
  pool : Nat
  ctx : Nat
  table : Nat
  lgT : Nat
  nids : Nat
  layers : Nat
  rowb : Nat
  cbase : Nat
  cfr : Nat
  abase : Nat
  afr : Nat
  deriving DecidableEq, Repr

/-- The fields of a pool descriptor's eight words. -/
def PoolDesc.ofWords (inst pool ctx : Nat) (w : List Nat) : PoolDesc :=
  let f (i : Nat) := w.getD i 0
  { inst := inst, pool := pool, ctx := ctx, table := f 0, lgT := f 1 / 2 ^ 32 % 16, nids := f 1 % 2 ^ 32,
    layers := f 2 / 2 ^ 32 % 2 ^ 16, rowb := f 2 % 2 ^ 32, cbase := f 3, cfr := f 4, abase := f 5, afr := f 6 }

/-- Tokens of a page, and bytes of a frame. -/
def PoolDesc.tokens (p : PoolDesc) : Nat := 2 ^ p.lgT
def PoolDesc.frameBytes (p : PoolDesc) : Nat := (p.layers * p.tokens * p.rowb + 4095) / 4096 * 4096

/-- The pool of an instance, where it is configured. -/
def State.poolOf (s : State) (x : Inst) (pool : Nat) : Option (Pool × PoolDesc) :=
  (s.pools.find? (fun p => p.inst == x.num && p.pool == pool)).map (fun p => (p, PoolDesc.ofWords x.num pool x.ctx p.desc))

/-- Address of a page descriptor. -/
def PoolDesc.entry (p : PoolDesc) (id : Nat) : Nat := p.table + 32 * id

/-- The first two words of a page's descriptor (Table SRV-7). -/
def State.pageWords (s : State) (p : PoolDesc) (id : Nat) : Option (Nat × Nat) × State :=
  let r := s.vread p.ctx (p.entry id) 16 false
  match r.1 with
  | .error _ => (none, r.2)
  | .ok x => (some (x % 2 ^ 64, x / 2 ^ 64), r.2)

/-- The page is granted and belongs to the pool's context. -/
def pageOk (k : Pool) (p : PoolDesc) (id w1 : Nat) : Bool :=
  decide (id < p.nids) && k.ids.contains id && w1 / 2 ^ 32 == p.ctx

/-! Sources -/

/-- The source of a paged gather's position (R266): its entry is read once, and its row stays where that entry has placed it
(R265). -/
def State.pagedSource (s : State) (t : TRef) (c : EngCmd) (r k : Nat) : Source × State :=
  match c.pages.find? (fun x => x.1 == r) with
  | some x => (.phys x.2 k, s)
  | none =>
  let bad (a : Nat) (s : State) : Source × State := (.bad ⟨.protection, 0⟩ a, s)
  match s.instOf t with
  | none => bad c.descAddr.toNat s
  | some x =>
    match s.poolOf x (c.w 0 / 16 % 256) with
    | none => bad c.descAddr.toNat s
    | some (pl, p) =>
      let lgT := c.w 0 / 2 ^ 12 % 16
      let layer := c.w 0 / 2 ^ 16 % 2 ^ 16
      if lgT != p.lgT || c.rowBytes != p.rowb || decide (p.layers ≤ layer) then bad c.descAddr.toNat s
      else
        let pos := lo32 (c.w 2) + r
        let e := a64 (c.w 1 + 4 * (pos / p.tokens))
        let q := s.engGet t 0 e
        match q.1 with
        | .error m => (.bad m e, q.2)
        | .ok id =>
          if id = 0xFFFFFFFF then (.unmapped e, q.2)
          else
            let w := q.2.pageWords p id
            match w.1 with
            | none => bad e w.2
            | some (w0, w1) =>
              if !pageOk pl p id w1 then bad e w.2
              else if w1.testBit 18 then (.moving, w.2)
              else (.phys (w0 % 2 ^ 52 + (layer * p.tokens + pos % p.tokens) * p.rowb) k, w.2)

/-- The source of byte k of row r (R361, R381). -/
def State.unitSource (s : State) (t : TRef) (c : EngCmd) (r k : Nat) : Source × State :=
  match c.op, c.kind with
  | .gath, 0 =>
    let a := a64 (c.w 2 + 4 * r)
    let i := s.engGet t 0 a
    (match i.1 with
     | .error m => (.bad m a, i.2)
     | .ok x => if x = 0xFFFFFFFF then (.zero, i.2) else (.addr 0 (a64 (c.w 1 + x * hi32 (c.w 0) + k)), i.2))
  | .gath, 1 =>
    let a := a64 (c.w 2 + 8 * r)
    let lo := s.engGet t 0 a
    (match lo.1 with
     | .error m => (.bad m a, lo.2)
     | .ok l =>
       let hi := lo.2.engGet t 0 (a + 4)
       match hi.1 with
       | .error m => (.bad m a, hi.2)
       | .ok h =>
         let x := h * 2 ^ 32 + l
         if x = 0 then (.zero, hi.2)
         else if x % 4 != 0 then (.bad ⟨.alignment, 0⟩ x, hi.2)
         else (.addr 0 (a64 (x + k)), hi.2))
  | .gath, _ => s.pagedSource t c r k
  | _, _ => (.addr (c.w 0 % 4) (if c.w 0 % 4 = 0 then a64 (c.w 1 + r * lo32 (c.w 4) + k) else c.w 1 + r * lo32 (c.w 4) + k), s)

/-- The destination of byte k of row r: space and address. -/
def EngCmd.dest (c : EngCmd) (r k : Nat) : Nat × Nat :=
  match c.op with
  | .gath => (1, lo32 (c.w 4) + r * hi32 (c.w 4) + k)
  | _ =>
    let sp := c.w 0 / 4 % 4
    let a := c.w 2 + r * hi32 (c.w 4) + k
    (sp, if sp = 0 then a64 a else a)

/-- Replace a command of a team. -/
def Team.putCmd (t : Team) (c : EngCmd) : Team :=
  { t with cmds := t.cmds.map (fun x => if x.cls = c.cls ∧ x.num = c.num then c else x) }

/-- A unit's value is written, and the unit counts out of a named barrier. -/
def State.landUnit (s : State) (t : TRef) (c : EngCmd) (u r k x : Nat) : State :=
  let d := c.dest r k
  match s.engPut t c d.1 d.2 x with
  | .wait s => s
  | .fault m s => s.engFault t c m.cause m.info d.2
  | .done s => (s.onTeam t (·.putCmd { c with landed := u :: c.landed })).engLanded t c c.bar 4

/-- `CE_UNIT_LAND`: one unit of a copy or gather, in any order (R183, R361, R381). A paged gather stops at an unmapped
entry once every position below has landed (R266). -/
def execCeUnitLand (core slot n u : Nat) (s : State) : Host.Outcome State Fault Refusal :=
  let t : TRef := ⟨core, slot⟩
  .next (match (s.team t).bind (fun tm => tm.cmds.find? (fun c => c.cls == .ce && c.num == n)) with
    | none => s
    | some c =>
      if c.stopped.isSome || decide (c.units ≤ u) || c.landed.contains u then s else
      let r := u / (c.rowBytes / 4)
      let k := u % (c.rowBytes / 4) * 4
      let src := s.unitSource t c r k
      match src.1 with
      | .zero => src.2.landUnit t c u r k 0
      | .moving => src.2
      | .phys base o =>
        if src.2.poisoned (base + o) 4 then
          let pa := base + o
          (src.2.recordError (memError pa 1 6 (src.2.ctxTeam (t.group 0)))).engFault t c .check (memBank pa) pa
        else
          let c := if c.pages.any (fun x => x.1 == r) then c else { c with pages := (r, base) :: c.pages }
          let v := src.2.agentGet (base + o) 4
          v.2.landUnit t c u r k v.1
      | .bad m a => src.2.engFault t c m.cause m.info a
      | .addr sp a =>
        let v := src.2.engGet t sp a
        (match v.1 with
         | .error m => v.2.engFault t c m.cause m.info a
         | .ok x => v.2.landUnit t c u r k x)
      | .unmapped e =>
        if (List.range (r * (c.rowBytes / 4))).all (fun i => c.landed.contains i) then
          (if ((src.2.group (t.group c.gid)).map (·.killed)).getD true then src.2.engDone t c
           else (src.2.onTeam t (·.putCmd { c with stopped := some (lo32 (c.w 2) + r) })).raiseEngine (t.group c.gid) .translation 2 e)
        else src.2)

/-- The release of a ring that a finished command names (R229): the slot becomes FULL in the ticket's phase. -/
def State.engRelease (s : State) (t : TRef) (c : EngCmd) : State :=
  if c.ring = 0 then s.engDone t c else
  let g := t.group c.gid
  let p := s.objPlace g c.ring 8 true
  match p.1 with
  | .error _ => (p.2.engDone t c).raiseEngine g .protection 0 c.ring.toNat
  | .ok pl =>
    let n := ringN (p.2.placeGet pl 0 4).1
    if !ringCountOk n then p.2.engFault t c .illegal 0 c.ring.toNat
    else
      match (p.2.objPlace g c.ring (16 + 4 * n) true).1 with
      | .error _ => p.2.engFault t c .protection 0 c.ring.toNat
      | .ok _ =>
        let w := p.2.engPublish (p.2.engWriter t c) pl
        let s := w.2
        if ((s.placeGet pl 4 4).1).testBit 1 then s.engDone t c
        else
          let off := 16 + 4 * ringIndex n c.ticket
          let x := (s.placeGet pl off 4).1
          let s := (s.engPlaceSet w.1 pl off 4 (x - x % 2 + if ringLap n c.ticket then 1 else 0)).placeSetTag pl off true
          ((s.engDone t c).wakeObjects).wakeTags t.core

/-- `CE_COMMAND_COMPLETE`: every unit has landed; the ring is released and the counter rises in order (R182, R229). -/
def execCeCommandComplete (core slot n : Nat) (s : State) : Host.Outcome State Fault Refusal :=
  let t : TRef := ⟨core, slot⟩
  .next (match (s.team t).bind (fun tm => tm.cmds.find? (fun c => c.cls == .ce && c.num == n)) with
    | none => s
    | some c => if c.landed.length < c.units then s else s.engRelease t c)

end Sys2Proof.Machine
end

