-- ==== Sys2Proof/Machine/FabricHeader.lean ====
section
/-! DEFINITION. Packets of the Kamter fabric as words (R287, R288, R291, Tables FAB-1 to FAB-3): the header flit with its CRC, the
data flits, and what a receiver does with a packet that arrives. -/

namespace Sys2Proof.Machine

/-! The header flit (Table FAB-2) -/

/-- One step of CRC-32C, bit by bit from the least significant. -/
def crcBits : Nat → Nat → Nat
  | 0, c => c
  | n + 1, c => crcBits n (if c % 2 = 1 then (c / 2) ^^^ 0x82F63B78 else c / 2)

/-- CRC-32C of bytes. -/
def crc32c (bytes : List Nat) : Nat := (bytes.foldl (fun c b => crcBits 8 (c ^^^ b)) 0xFFFFFFFF) ^^^ 0xFFFFFFFF

/-- The eight bytes of a word, the least significant first. -/
def wordBytes (w : Nat) : List Nat := (List.range 8).map (fun i => w / 2 ^ (8 * i) % 256)

/-- Words of 64 bits in a flit. -/
def flitWords : Nat := 8

/-- Data flits of a packet. -/
def FabPkt.ndata (p : FabPkt) : Nat := (p.data.length + flitWords - 1) / flitWords

/-- Words 0 to 6 of a header. -/
def FabPkt.words (p : FabPkt) : List Nat :=
  ([p.opc % 2 ^ 8 + p.vc % 2 ^ 3 * 2 ^ 8 + (if p.rty then 2 ^ 11 else 0) + p.dst % 2 ^ 10 * 2 ^ 12 + p.src % 2 ^ 10 * 2 ^ 22 +
      p.tag % 2 ^ 12 * 2 ^ 32 + p.gen % 2 ^ 4 * 2 ^ 44 + p.ogen % 2 ^ 4 * 2 ^ 48 + p.ndata % 2 ^ 3 * 2 ^ 52 +
      p.status % 2 ^ 8 * 2 ^ 56,
    p.offset, p.time, p.attr, p.opnd, p.cmp, p.seq % 2 ^ 32 + p.ctx % 2 ^ 32 * 2 ^ 32]).map (· % 2 ^ 64)

/-- HCRC: CRC-32C of words 0 to 6. -/
def hcrc (w : List Nat) : Nat := crc32c ((w.take 7).flatMap wordBytes)

/-- The eight words of a header. -/
def FabPkt.header (p : FabPkt) : List Nat := p.words ++ [hcrc p.words]

/-- Opcodes of Table FAB-3. -/
def fabOpcodes : List Nat := [0x01, 0x02, 0x03, 0x04, 0x05, 0x06, 0x81, 0x82, 0x83, 0x84, 0x85, 0x86]

/-- Bits of ATTR that a request leaves zero: those of READ, WRITE and ATOMIC beside width, operation and bit 8. -/
def attrReserved (opc attr : Nat) : Nat := if 1 ≤ opc ∧ opc ≤ 4 then attr / 2 ^ 9 + attr / 2 ^ 3 % 2 else 0

/-- A receiver keeps a packet: a defined opcode, every reserved field zero (bit 55 of word 0, channels 5 to 7, more than four data
flits, bits of ATTR, the high half of word 7), and the HCRC of its words (R288). -/
def headerSound (w : List Nat) : Bool :=
  let f (i : Nat) := w.getD i 0
  let opc := f 0 % 2 ^ 8
  fabOpcodes.contains opc && f 0 / 2 ^ 55 % 2 == 0 && decide (f 0 / 2 ^ 8 % 2 ^ 3 ≤ 4) && decide (f 0 / 2 ^ 52 % 2 ^ 3 ≤ 4) &&
    attrReserved opc (f 3) == 0 && f 7 == hcrc w

/-- The packet that a header's words name, with its data. -/
def FabPkt.ofHeader (w : List Nat) (data : List Nat) : FabPkt :=
  let f (i : Nat) := w.getD i 0
  let b (lo n : Nat) : Nat := f 0 / 2 ^ lo % 2 ^ n
  { opc := b 0 8, vc := b 8 3, rty := b 11 1 == 1, dst := b 12 10, src := b 22 10, tag := b 32 12, gen := b 44 4, ogen := b 48 4,
    status := b 56 8, offset := f 1, time := f 2, attr := f 3, opnd := f 4, cmp := f 5, ctx := f 6 / 2 ^ 32 % 2 ^ 32,
    seq := f 6 % 2 ^ 32, data := data }

/-! Data (R287) -/

/-- Words that a packet carries as data, at most. -/
def packetWords : Nat := 4 * flitWords

/-- Packets that carry a list of words, four data flits each; OFFSET counts the bytes before a packet's own (DESIGN CHOICE, log
entry 54). -/
def FabPkt.split (p : FabPkt) : Nat → Nat → List Nat → List FabPkt
  | 0, _, _ => []
  | n + 1, off, data =>
    { p with offset := off, data := data.take packetWords } ::
      (if data.length ≤ packetWords then [] else p.split n (off + 8 * packetWords) (data.drop packetWords))

/-! Arrival (R287, R288, R291) -/

/-- A corrected error in a port's bank. -/
def State.portError (s : State) (port : Nat) : State :=
  s.recordError { bank := 582 + port % 36, cls := 0, source := 4, unit := 0, addr := none, ctx := none, synd := none }

/-- A flit has failed eight replays: its port goes down, a corrected error where another plane carries the traffic. -/
def State.portDown (s : State) (port : Nat) : State :=
  let s := { s with portsDown := if s.portsDown.contains port then s.portsDown else port :: s.portsDown }
  if (List.range 36).all (fun p => s.portsDown.contains p) then s else s.portError port

/-- A packet reaches a port. On its way it may be damaged, or it may have been sent with words of its own making: its header is
then what a free difference makes of it, and is tested (R288). It may end end-bad (R291), or come whole as its port goes down
(R287). The packet is what is received; a discarded one is counted. -/
def State.linkArrival (s : State) (p : FabPkt) : Option FabPkt × State :=
  let d := s.pick 4
  let q := d.2.draw
  let port := q.1 % 36
  match d.1 with
  | 0 => (some p, q.2)
  | 1 =>
    let m := draws 8 q.2
    let w := (p.header.zip m.1).map (fun x => x.1 ^^^ (x.2 % 2 ^ 64))
    if !headerSound w then (none, m.2.portError port)
    else
      let p' := FabPkt.ofHeader w p.data
      (if p'.opc = p.opc then some p' else none, m.2)
  | 2 => (none, q.2.portError port)
  | _ => (some p, q.2.portDown port)

end Sys2Proof.Machine
end

