-- ==== Sys2Proof/Machine/Coll.lean ====
section
/-! DEFINITION. Collectives (R297 to R300, R356, R357): `COLL`, a member's contribution on its way, the canonical tree, and
the end of a member's command. -/

namespace Sys2Proof.Machine

/-! Descriptors (Table FAB-4) -/

def collCount (w : List Nat) : Nat := w.getD 0 0 / 2 ^ 32
def collRoot (w : List Nat) : Nat := w.getD 0 0 / 2 ^ 16 % 2 ^ 8
def collRed (w : List Nat) : Nat := w.getD 0 0 / 2 ^ 12 % 16
def collType (w : List Nat) : Nat := w.getD 0 0 / 2 ^ 8 % 16
def collOp (w : List Nat) : Nat := w.getD 0 0 % 16
def collRanks (w : List Nat) : Nat := w.getD 4 0 % 2 ^ 32
/-- Bytes of an element. -/
def collWidth (w : List Nat) : Nat := if collType w = 2 ∨ collType w = 3 then 8 else 4
/-- Bytes at SRC and at DST. -/
def collSrcBytes (w : List Nat) : Nat := collCount w * collWidth w
def collDstBytes (w : List Nat) : Nat := if collOp w = 3 then collRanks w * collSrcBytes w else collSrcBytes w

/-- Two byte ranges share a byte. -/
def overlaps (a n b m : Nat) : Bool := decide (a < b + m) && decide (b < a + n)

/-- The descriptor breaks R356. -/
def collIllegal (w : List Nat) : Bool :=
  let f (i : Nat) := w.getD i 0
  let op := collOp w
  let same := f 1 == f 2 && collSrcBytes w == collDstBytes w
  f 0 / 2 ^ 24 % 2 ^ 8 != 0 || f 0 / 2 ^ 4 % 16 != 0 || f 7 != 0 || decide (3 < op) || decide (4 < collType w) ||
    (decide (op ≤ 1) && decide (2 < collRed w)) || collCount w == 0 || !within 1 576 (collRanks w) ||
    ((op == 1 || op == 2) && decide (collRanks w ≤ collRoot w)) || f 1 % collWidth w != 0 || f 2 % collWidth w != 0 ||
    f 3 % 4 != 0 ||
    (overlaps (f 1) (collSrcBytes w) (f 2) (collDstBytes w) && (!same || op == 2 || op == 3))

/-- BAR has a form of R219 and is aligned. -/
def barForm (a : Nat) : Bool :=
  a == 0 || (a % 16 == 0 && (a / 2 ^ 62 == 0 || (a / 2 ^ 63 == 1 && a / 2 ^ 32 % 2 ^ 30 == 0)))

/-- The checks of `COLL` at issue (R356). -/
def collCheck (_g : GRef) (va : Nat) (w : List Nat) (s : State) : Option (Meet × Nat) × State :=
  (if collIllegal w || !barForm (w.getD 6 0) then some (⟨.illegal, 0⟩, va) else none, s)

/-- `COLL` (R297). -/
def execColl (_bt : Bt) (a b : SReg) (s : State) : Host.Outcome State Fault Refusal :=
  engineWord s a b 64 false .co .coll collCheck

/-! The canonical tree (R299) -/

/-- One operation on two elements. -/
def collCombine (type red a b : Nat) : Nat :=
  match type, red with
  | 4, 0 => (fAdd .f32 .rne false a b).bits
  | 4, 1 => (fMinMax .f32 false false false a b).bits
  | 4, _ => (fMinMax .f32 false true false a b).bits
  | t, 0 => (a + b) % 2 ^ (if t < 2 then 32 else 64)
  | t, r =>
    let bits := if t < 2 then 32 else 64
    let less := if t % 2 = 0 then decide (toSigned bits a < toSigned bits b) else decide (a < b)
    if r = 1 then (if less then a else b) else (if less then b else a)

/-- One level: consecutive groups of four become one value each. -/
def treeLevel (f : Nat → Nat → Nat) : List Nat → List Nat
  | a :: b :: c :: d :: rest => f (f a b) (f c d) :: treeLevel f rest
  | [a, b, c] => [f (f a b) c]
  | [a, b] => [f a b]
  | l => l

/-- Levels until one value remains. -/
def tree (f : Nat → Nat → Nat) : Nat → List Nat → Nat
  | 0, l => l.headD 0
  | n + 1, l => if l.length ≤ 1 then l.headD 0 else tree f n (treeLevel f l)

/-- Elements of all members, in list order, combined element by element. -/
def treeAll (type red count : Nat) (members : List (List Nat)) : List Nat :=
  (List.range count).map (fun i => tree (collCombine type red) 6 (members.map (fun m => m.getD i 0)))

/-! Members -/

/-- Elements of a block read as a number, and 4-byte words of elements. -/
def elemsOf (x width count : Nat) : List Nat := (List.range count).map (fun i => byteField x (width * i) width)
def unitWords (width : Nat) (l : List Nat) : List Nat :=
  if width = 4 then l else l.flatMap (fun x => [x % 2 ^ 32, x / 2 ^ 32])

/-- The first rank of a list that is not above the one before it. -/
def firstDescent : List Nat → Option Nat
  | a :: b :: rest => if b ≤ a then some b else firstDescent (b :: rest)
  | _ => none

/-- STATUS of a collective packet that tells of a fault. -/
def faultStatus : Cause → Nat
  | .translation => 2
  | .remote => 5
  | _ => 3

/-- Send every other member that is not lost the packets of a collective: COLLID in OPND, a rank in CMP (R303; DESIGN CHOICE, log
entry 54). -/
def State.tellMembers (s : State) (ranks : List Nat) (opc status : Nat) (ctx collid info : Nat) (data : List Nat) : State :=
  { s with fabOut := s.fabOut ++ (ranks.filter (fun r => r != s.ctl.rank && !s.lost.contains r)).flatMap (fun r =>
      { reqPacket opc r with vc := 3, src := s.ctl.rank, status := status, ctx := ctx, opnd := collid, cmp := info }.split
        (data.length + 1) 0 data) }

/-- A member's command ends in a fault, of which the others are told: of a mismatch or a loss with the rank that it names, of
another fault with this member's own (R298, R357). -/
def State.collFault (s : State) (t : TRef) (c : EngCmd) (ranks : List Nat) (cause : Cause) (info addr : Nat)
    (status : Nat := faultStatus cause) : State :=
  let ctx := s.ctxOf (t.group 0)
  let s := s.tellMembers ranks 0x85 status ctx (c.w 5) (if cause == .remote then info else s.ctl.rank) []
  { s with colls := s.colls.filter (fun d => !(d.collid == c.w 5 && d.ctx == ctx)) }.engFault t c cause info addr

/-- A member's command begins: its list, its own elements, and the packet to the others. -/
def State.collStart (s : State) (t : TRef) (c : EngCmd) : State :=
  let ctx := s.ctxOf (t.group 0)
  let l := s.vread ctx (c.w 3) (4 * collRanks c.desc) false
  match l.1 with
  | .error e => l.2.collFault t c [] e.1.cause e.1.info e.2
  | .ok x =>
    let s := l.2
    let ranks := unpackList x (collRanks c.desc)
    match firstDescent ranks with
    | some r => s.collFault t c ranks .remote r 0
    | none =>
      if !ranks.contains s.ctl.rank || !s.ctl.joined then s.collFault t c ranks .remote s.ctl.rank 0 else
      match ranks.find? (fun r => s.lost.contains r) with
      | some r => s.collFault t c ranks .remote r 0 4
      | none =>
        let mine := collOp c.desc != 2 || ranks.getD (collRoot c.desc) 0 == s.ctl.rank
        let d := if mine then s.vread ctx (c.w 1) (collSrcBytes c.desc) false else (.ok 0, s)
        match d.1 with
        | .error e => d.2.collFault t c ranks e.1.cause e.1.info e.2
        | .ok y =>
          let elems := if mine then elemsOf y (collWidth c.desc) (collCount c.desc) else []
          let s := d.2.tellMembers ranks 6 0 ctx (c.w 5) 0 (c.w 0 :: ranks.length :: ranks ++ elems)
          { s.onTeam t (·.putCmd { c with landed := [0] }) with
            colls := s.colls ++ [{ collid := c.w 5, rank := s.ctl.rank, hdr := [c.w 0], elems := elems, ranks := ranks,
                                   ctx := ctx, fault := none }] }
where
  /-- 32-bit ranks of a list. -/
  unpackList (x n : Nat) : List Nat := (List.range n).map (fun i => byteField x (4 * i) 4)

/-- Commands that have not begun. -/
def State.newColls (s : State) : List (TRef × EngCmd) :=
  s.teams.flatMap (fun p => (p.2.cmds.filter (fun c => c.cls == .co && c.landed.isEmpty)).map (fun c => (p.1, c)))

/-- A packet of a collective arrives from a member on VC 3: whether it is received (R288). -/
def State.collPacket (s : State) (opc src : Nat) : Bool × State :=
  let a := s.linkArrival { reqPacket opc s.ctl.rank with vc := 3, src := src }
  (a.1.isSome, a.2)

/-- `COLLECTIVE`: the CO takes a member's command of this package, or the request of another: its rank, context, COLLID,
word 0 and member list. -/
def execCollective (s : State) : Host.Outcome State Fault Refusal :=
  let l := s.newColls
  let d := s.pick (l.length + 1)
  .next (match l[d.1]? with
    | some (t, c) => d.2.collStart t c
    | none =>
      let h := draws 5 d.2
      let r := draws (h.1.getD 4 0 % 577) h.2
      let a := r.2.collPacket 6 (h.1.getD 0 0 % 576)
      if !a.1 then a.2 else
      { a.2 with colls := a.2.colls ++ [{ collid := h.1.getD 2 0 % 2 ^ 64, rank := h.1.getD 0 0 % 576,
                                          hdr := [h.1.getD 3 0 % 2 ^ 64], elems := [], ranks := r.1.map (· % 2 ^ 32),
                                          ctx := h.1.getD 1 0 % 2 ^ 32, fault := none }] })

/-- `COLLECTIVE_DATA`: another member's elements arrive, or word of its fault. -/
def execCollectiveData (s : State) : Host.Outcome State Fault Refusal :=
  let open_ (x : CollData) : Bool := x.rank != s.ctl.rank && x.elems.isEmpty && x.fault.isNone
  let l := s.colls.filter open_
  let d := s.pick l.length
  .next (match l[d.1]? with
    | none => s
    | some x =>
      let a := d.2.collPacket 0x85 x.rank
      if !a.1 then a.2 else
      let f := a.2.pick 2
      let width := collWidth x.hdr
      let e := if f.1 = 1 then draws 1 f.2 else draws (collCount x.hdr) f.2
      let x' := if f.1 = 1 then { x with fault := some (e.1.headD 0 % 576) } else { x with elems := e.1.map (· % 256 ^ width) }
      { e.2 with colls := e.2.colls.map (fun y => if y = x then x' else y) })

/-- Why a command cannot end well, with the rank that its fault names and STATUS: a lost member, one of another header or list, or
the rank that a failed member tells of (R298, R303). -/
def State.collBad (s : State) (c : EngCmd) (ranks : List Nat) (parts : List (Nat × Option CollData)) : Option (Nat × Nat) :=
  parts.findSome? (fun p =>
    if s.lost.contains p.1 then some (p.1, 4) else
    match p.2 with
    | none => none
    | some d =>
      match d.fault with
      | some r => some (r, 5)
      | none => if d.hdr != [c.w 0] || d.ranks != ranks then some (p.1, 5) else none)

/-- What is written at DST (R299). -/
def collResult (w : List Nat) (members : List (List Nat)) : List Nat :=
  match collOp w with
  | 2 => members.getD (collRoot w) []
  | 3 => members.flatten
  | _ => treeAll (collType w) (collRed w) (collCount w) members

/-- Write the units of DST from one on; a page locked for a move holds the rest. The spec leaves any order, and any interleaving
with other accesses; here the units of one result land in one step, in ascending address (R183; DESIGN CHOICE, log entry 115). -/
def collWrite (t : TRef) (c : EngCmd) (ranks : List Nat) : List Nat → Nat → State → Bool × State
  | [], _, s => (true, s)
  | x :: rest, i, s =>
    let a := a64 (c.w 2 + 4 * i)
    match s.engPut t c 0 a x with
    | .wait s => (false, s.onTeam t (·.putCmd { c with landed := [i] }))
    | .fault m s => (false, s.collFault t c ranks m.cause m.info a)
    | .done s => collWrite t c ranks rest (i + 1) (s.engLanded t c (BitVec.ofNat 64 (c.w 6)) 4)

/-- `CO_COMMAND_COMPLETE`: with every member's contribution the result is written and the CO counter rises; a mismatch, a
member's fault or loss ends the command (R298, R300, R357). -/
def execCoCommandComplete (core slot n : Nat) (s : State) : Host.Outcome State Fault Refusal :=
  let t : TRef := ⟨core, slot⟩
  .next (match (s.team t).bind (fun tm => tm.cmds.find? (fun c => c.cls == .co && c.num == n && !c.landed.isEmpty)) with
    | none => s
    | some c =>
      let ctx := s.ctxOf (t.group 0)
      let all := s.colls.filter (fun d => d.collid == c.w 5 && d.ctx == ctx)
      match all.find? (fun d => d.rank == s.ctl.rank) with
      | none => s
      | some own =>
        let parts := own.ranks.map (fun r => (r, all.find? (fun d => d.rank == r)))
        match s.collBad c own.ranks parts with
        | some (r, status) => s.collFault t c own.ranks .remote r 0 status
        | none =>
          let needed (i : Nat) : Bool := collOp c.desc != 2 || i == collRoot c.desc
          let ready := parts.zipIdx.all (fun p => match p.1.2 with
            | some d => !needed p.2 || d.elems.length == collCount c.desc
            | none => false)
          if !ready then s else
          let members := parts.map (fun p => match p.2 with
            | some d => d.elems
            | none => [])
          let root := own.ranks.getD (collRoot c.desc) 0 == s.ctl.rank
          let units := if collOp c.desc = 1 && !root then [] else unitWords (collWidth c.desc) (collResult c.desc members)
          let at_ := c.landed.headD 0
          let w := collWrite t c own.ranks (units.drop at_) at_ s
          if !w.1 then w.2
          else { w.2 with colls := w.2.colls.filter (fun d => !(d.collid == c.w 5 && d.ctx == ctx)) }.engDone t c)

end Sys2Proof.Machine
end

