-- ==== Sys2Proof/Machine/Place.lean ====
section
/-! DEFINITION. New groups, teams, contexts and queues as placement leaves them (R30, R275, R321), and the placing of one
instruction for the next step (DESIGN CHOICE, log entry 18). -/

namespace Sys2Proof.Machine

/-- A group at its first placement (R30), or of an activation (R275). -/
def Group.fresh (role : Role) (allot quarter age : Nat) (fmt : W32) (spc laneBase : W64) : Group :=
  { role := role, allot := allot, quarter := quarter, age := age, s := [], c := [], k := [], yS := [], yL := [],
    exmS := 0xFFFFFFFF, exmL := 0xFFFFFFFF, fmtS := fmt, fmtL := fmt, gfS := 0, gfL := 0, v := [], p := [],
    remap := laneList, stack := [], spc := spc, lpc := 0, sMarks := true, lMarks := false, laneBase := laneBase,
    run := none, laneQ := [], spilled := [], enq := 0, ended := 0, waitS := none, waitL := none, sinceS := 0, sinceL := 0,
    status := .active, trap := none, eng := [], killed := false, obj := [], out := [], nextId := 0, alt := [], look := [],
    tagDone := 0, tagPend := [], tagRet := false, tagSlots := 0, mxIssued := 0, mxDone := 0, mxEnded := 0, mxSeen := 0,
    mx := [], unflushed := [], grant := none, lastMma := 0, skipS := noSkip, skipL := noSkip, lastNs := 0, ticket := none,
    survDeg := false, morFrames := [], syncId := 0 }

/-- A team without scratch, tags or commands. -/
def Team.fresh (ctx grid teamId : Nat) : Team :=
  { ctx := ctx, grid := grid, teamId := teamId, tx := 0, ty := 0, tz := 0, nroles := [0, 0, 0, 0], scrSize := 0,
    cluster := false, coresident := false, argBase := 0, seqBase := 0, step := 0, codeId := 0, residual := none, depth := 0,
    placedAt := 0, handler := 0, hndwd := 100, tagwd := 1000000, scratch := [], tags := [], issuedCe := 0, issuedKv := 0, issuedCo := 0, doneCe := 0, doneKv := 0,
    doneCo := 0, finCe := [], finKv := [], finCo := [], cmds := [], children := [], regions := [], parkWanted := none,
    parkGid := none, parkSlot := none, survBad := [], mor := [] }

/-- A context as its descriptor's zero fields leave it, with the values after reset (R31, R274). -/
def Ctx.fresh (root : Nat) : Ctx :=
  { ptRoot := root, ageq := 50, tagwd := 1000000, handler := 0, hndwd := 100, parkN := 0, parkBase := 0, sumpBase := 0,
    sumpQ := 0, resBase := 0, resLen := 0, expBase := 0, expLen := 0, frep := 0, phase := .running, preemptQ := [],
    usedSlots := [], lastRecord := none }

/-- A disabled queue slot (R321). -/
def Queue.fresh : Queue :=
  { desc := 0, func := 0, state := .disabled, disabling := false, ctx := 0, level := 0, seg := 0, segBytes := 0, offset := 0,
    seq := 0, tail := 0, progress := 0, resident := false, shadowTail := none, cseq := 0, comp := 0,
    ccap := 0, ctail := 0, free := 0, fcap := 0, ftail := 0, prog := 0, newProg := none, words := [], wins := [],
    packets := [], body := [], pc := 0, q := [], loop := none, ran := 0, busy := false, waitv := none, tailAt := 0 }

/-! Placing one instruction -/

/-- Page tables that map the first GiB of a context onto itself, and a code line with a word in slot 0. -/
def placeCode (m : Memory) (nbits w : Nat) : Memory :=
  let m := ssetLE m 0x10000 8 0x11001
  let m := ssetLE m 0x11000 8 0x12001
  let m := ssetLE m 0x12000 8 0x3B
  let m := ssetLE m 0x20000 8 (if nbits = 96 then 0x10001 else 0x100000001)
  ssetLE m 0x20008 24 w

/-- The role of a group that may issue an instruction. -/
def issuerOf (i : Instr) : Role :=
  match i.roles with
  | some (r :: _) => r
  | _ => .control

/-- The group that stands at the placed word. -/
def placedGroup (role : Role) (lane : Bool) : Group :=
  let g := Group.fresh role 256 0 0 0 0x8000 0
  if lane then { g with lpc := 0x4000, run := some ⟨[], 0⟩ } else g

/-- A queue whose program is one word (R327). -/
def placedQueue (w : Nat) : Queue :=
  { Queue.fresh with state := .running, ctx := 1, resident := true, words := [w], busy := true, body := [], prog := 8,
                     packets := [{ seq := 0, kind := 0x40, status := none, value := 0, word3 := 0, rej := false,
                                   miss := false, sigf := false, failCode := 0, waitGrids := [], waitOther := false, callGrid := none, dropped := none,
                                   linkFrom := none }], seq := 1, tail := 1 }

/-- A state whose next step runs one instruction (DESIGN CHOICE, log entry 18). -/
def State.placeWord (s : State) (nbits w : Nat) : State :=
  let i := (decodeTableWord nbits w).getD .undefinedEncoding
  let lane := nbits = 96
  let g : GRef := ⟨0, 0, 0⟩
  let main := placedGroup (issuerOf i) lane
  let others := s.groups.filter (fun p => p.1.core != 0)
  let s := { s with
    fatal := false, inReset := false, cur := none, migrations := [], holds := [], code := [], icache := [], tlb := s.tlb.filter (fun t => t.ctx != 1), obs := adel s.obs 1,
    mem := placeCode s.mem nbits w, ctxs := aput s.ctxs 1 (Ctx.fresh 0x10000),
    cores := aput s.cores 0 Core.fresh, teams := (⟨0, 0⟩, Team.fresh 1 0 0) :: s.teams.filter (fun p => p.1.core != 0),
    groups := (g, main) :: others }
  if nbits = 64 then { s with queues := aput s.queues 0 (placedQueue w), agenda := [.queueWord 0] }
  else if i.handlerOnly then
    { s with groups := (handlerGroup 0, { main with allot := 32 }) :: (g, { main with status := .trapped }) :: others,
             cores := aput s.cores 0 { Core.fresh with act := some ⟨0, 0, none, 0, 1⟩ }, agenda := [.handlerScalar 0] }
  else { s with agenda := [if lane then .lane 0 0 else .scalar 0 0] }

end Sys2Proof.Machine
end

