-- ==== Sys2Proof/Machine/Launch.lean ====
section
/-! DEFINITION. Launches: kernel records and team headers (R26, R27, R101), argument copies (R232), keys and the firn index
(R233, R234, R247), the entry of a launch, and the placing of teams (R29 to R32, R35). -/

namespace Sys2Proof.Machine

/-! Kernel records (R101) -/

/-- A kernel record. -/
structure KRec where
  codeId : Nat
  flags : Nat
  scratch : Nat
  fmt : Nat
  grow : Nat
  unroll : Nat
  argBytes : Nat
  roles : List RoleEntry
  args : List (Nat × Nat × Nat)
  raw : Nat
  deriving DecidableEq, Repr

/-- A role entry of 32 bytes. -/
def roleOf (x : Nat) : RoleEntry :=
  { groups := byteField x 0 1, allot := 8 * byteField x 1 1, entry := BitVec.ofNat 64 (byteField x 8 8),
    base := BitVec.ofNat 64 (byteField x 16 8) }

/-- A record from its bytes: arguments as offset, size and binding class. -/
def recOf (x : Nat) : KRec :=
  { codeId := byteField x 8 8, flags := byteField x 0x10 4, scratch := byteField x 0x14 4, fmt := byteField x 0x18 4,
    grow := byteField x 0x1C 1, unroll := byteField x 0x1E 2, argBytes := byteField x 0x20 2,
    roles := (List.range 4).map (fun i => roleOf (byteField x (0x28 + 32 * i) 32)),
    args := (List.range (byteField x 0x22 2)).map (fun i =>
      let d := byteField x (0xA8 + 16 * i) 16
      (byteField d 0 2, byteField d 2 2, byteField d 4 1)),
    raw := x }

/-- Bytes of a record's name up to its end or 64 of them: an offset within the record (R99, R101). -/
def KRec.nameAt (r : KRec) : Nat × Nat :=
  let at_ := byteField r.raw 0x24 4
  (at_, min 64 (byteField r.raw 4 4 - at_))

/-- The alignment of an argument: its size rounded up to a power of two, or 8 if that is smaller (R100). -/
def argAlign (n : Nat) : Nat := if n ≤ 1 then 1 else if n ≤ 2 then 2 else if n ≤ 4 then 4 else 8

/-- Arguments lie as R100 lays them out, from an offset on: in order, aligned and apart. The loader refuses what R100 cannot lay out;
space left unused between them it lets pass (log entry 63). -/
def argsLaid : List (Nat × Nat × Nat) → Nat → Bool
  | [], _ => true
  | a :: rest, off => decide (off ≤ a.1) && a.1 % argAlign a.2.1 == 0 && argsLaid rest (a.1 + a.2.1)

/-- Read the record at an address: its fixed part gives the number of argument descriptors. -/
def State.readRecord (s : State) (c va : Nat) : Acc KRec :=
  let h := s.vread c va 0xA8 true
  match h.1 with
  | .error e => (.error e, h.2)
  | .ok x =>
    let r := h.2.vread c va (0xA8 + 16 * byteField x 0x22 2) true
    match r.1 with
    | .error e => (.error e, r.2)
    | .ok y => (.ok (recOf y), r.2)

/-- The context has loaded a kernel whose record lies at an address (R323). -/
def State.loadedAt (s : State) (c : Nat) (krec : W64) : Option Kernel :=
  s.kernels.find? (fun k => k.ctx == c && k.krec == krec)

/-! Fit (R29) -/

/-- Lane registers of a quarter (R8). -/
def quarterRegs : Nat := 768
/-- Scratch of a core (R9). -/
def coreScratch : Nat := 262144

/-- Groups of a team header, in ascending GID (R25). -/
def groupsOf (roles : List RoleEntry) : List (Nat × RoleEntry) :=
  roles.zipIdx.flatMap (fun r => List.replicate r.1.groups (r.2, r.1))

/-- Of the quarters with fewer than twelve groups, the one with the most free registers, the lowest first. -/
def bestQuarter (q : List (Nat × Nat)) : Option Nat :=
  (q.zipIdx.foldl (fun (best : Option (Nat × Nat)) x =>
    if 12 ≤ x.1.1 then best
    else match best with
      | none => some (x.1.2, x.2)
      | some b => if b.1 < x.1.2 then some (x.1.2, x.2) else best) none).map (·.2)

/-- The assignment to quarters of R29, over groups held and free registers of each. -/
def assign : List Nat → List (Nat × Nat) → Option (List Nat)
  | [], _ => some []
  | a :: rest, q =>
    match bestQuarter q with
    | none => none
    | some i =>
      match q[i]? with
      | none => none
      | some (n, free) => if free < a then none else (assign rest (q.set i (n + 1, free - a))).map (i :: ·)

/-- Groups held and free registers of each quarter of a core. -/
def State.quarters (s : State) (core : Nat) : List (Nat × Nat) :=
  let gs := s.groups.filter (fun p => p.1.core == core && !p.1.isHandler)
  (List.range 4).map (fun q =>
    let here := gs.filter (fun p => p.2.quarter == q)
    (here.length, quarterRegs - (here.map (fun p => p.2.allot)).sum))

/-- The quarters that a team's groups take on a core, if it fits (R29). -/
def State.fit (s : State) (core : Nat) (roles : List RoleEntry) (scratch : Nat) : Option (List Nat) :=
  let teams := s.coreTeams core
  let gs := groupsOf roles
  let held := (s.groups.filter (fun p => p.1.core == core && !p.1.isHandler)).length
  if 16 ≤ teams.length || 48 < held + gs.length || coreScratch < (teams.map (fun p => p.2.scrSize)).sum + scratch then none
  else assign (gs.map (fun x => x.2.allot)) (s.quarters core)

/-- The quarters taken on an empty core. -/
def fitEmpty (roles : List RoleEntry) (scratch : Nat) : Option (List Nat) :=
  let gs := groupsOf roles
  if 48 < gs.length || coreScratch < scratch then none
  else assign (gs.map (fun x => x.2.allot)) (List.replicate 4 (0, quarterRegs))

/-- How many teams of one shape an empty core can hold, n at most. -/
def emptyRoom (allots : List Nat) (scratch : Nat) : Nat → List (Nat × Nat) → Nat → Nat → Nat
  | 0, _, _, _ => 0
  | n + 1, q, held, scr =>
    if 48 < held + allots.length || coreScratch < scr + scratch then 0 else
    match assign allots q with
    | none => 0
    | some qs =>
      let q' := (qs.zip allots).foldl (fun q x =>
        q.zipIdx.map (fun y => if y.2 = x.1 then (y.1.1 + 1, y.1.2 - x.2) else y.1)) q
      1 + emptyRoom allots scratch n q' (held + allots.length) (scr + scratch)

/-- Cores in service. -/
def State.inService (s : State) : List Nat := (List.range 384).filter (fun c => (s.core c).inService)

/-- A CORESIDENT launch can be resident whole on the cores in service (R35). -/
def State.coresidentFits (s : State) (roles : List RoleEntry) (scratch teams : Nat) : Bool :=
  decide (teams ≤ s.inService.length *
    emptyRoom ((groupsOf roles).map (fun x => x.2.allot)) scratch 16 (List.replicate 4 (0, quarterRegs)) 0 0)

/-- Some cluster has cores 0 to n - 1 in service (R12). -/
def State.clusterFits (s : State) (n : Nat) : Bool :=
  (List.range 12).any (fun k => (List.range n).all (fun i => (s.core (32 * k + i)).inService))

/-! The header of a launch (R26, R27, R325) -/

/-- A launch body (Table HQ-5), 128 bytes as a number. -/
def bodyWord (b i : Nat) : Nat := byteField b (8 * i) 8

def Role.byte (b : Nat) (i : Nat) : Nat := b / 2 ^ (8 * i) % 256

/-- Role entries after a role-split launch (R325), or none where the split is refused. -/
def splitRoles (roles : List RoleEntry) (word3 : Nat) : Option (List RoleEntry) :=
  if !word3.testBit 3 then some roles else
  let n := word3 / 2 ^ 32
  let rs : List RoleEntry := roles.zipIdx.map (fun r => if Role.byte n r.2 = 0 then r.1 else { r.1 with groups := Role.byte n r.2 })
  if roles.zipIdx.any (fun r => decide (32 < Role.byte n r.2) || (Role.byte n r.2 != 0 && r.1.groups == 0)) ||
      decide (32 < (rs.map (fun r => r.groups)).sum) then none
  else some rs

/-- The limits of R27 that need no fetch. -/
def headerBad (r : KRec) (roles : List RoleEntry) : Bool :=
  let total := (roles.map (·.groups)).sum
  total == 0 || decide (32 < total) || decide (2 ^ 24 ≤ r.fmt) ||
    roles.any (fun e => e.groups != 0 && (e.allot == 0 || decide (256 < e.allot))) ||
    (fitEmpty roles r.scratch).isNone

/-- A role's entry breaks R84 or R85 on a line that can be fetched; `call` says that it must be slot 0 of its line, as those of a
`SPAWN` must. -/
def State.entriesBad (s : State) (c : Nat) (call : Bool) : List RoleEntry → Bool × State
  | [] => (false, s)
  | e :: rest =>
    if e.groups = 0 then s.entriesBad c call rest else
    let t := s.checkTarget c false call e.entry.toNat
    if t.1 = .breach then (true, t.2) else t.2.entriesBad c call rest

/-- Grid dimensions within R24. -/
def dimsOk (x y z : Nat) : Bool :=
  let ok (n : Nat) := decide (1 ≤ n) && decide (n ≤ 65536)
  ok x && ok y && ok z && decide (x * y * z ≤ 2 ^ 32 - 1)

/-! Keys (R233) -/

/-- Bytes of the static and key arguments, in declaration order: a number and its length. -/
def keyBytes (args : List (Nat × Nat × Nat)) (block : Nat) : Nat × Nat :=
  args.foldl (fun acc a =>
    if a.2.2 = 0 then acc else (acc.1 + byteField block a.1 a.2.1 * 256 ^ acc.2, acc.2 + a.2.1)) (0, 0)

/-- The 128-byte key as sixteen words (Table FIRN-1). -/
def keyOf (r : KRec) (x y z block : Nat) : List Nat :=
  let k := keyBytes r.args block
  let n := r.codeId + x * 2 ^ 64 + y * 2 ^ 96 + z * 2 ^ 128 + r.fmt * 2 ^ 160 + k.2 * 2 ^ 192 + k.1 % 256 ^ 96 * 2 ^ 256
  (List.range 16).map (fun i => n / 2 ^ (64 * i) % 2 ^ 64)

/-! The firn index (R234, R247) -/

/-- Entries of the index (Table ORG-1). -/
def firnIndexLen : Nat := 2048

/-- Some grid still runs an entry's residual. -/
def State.firnInUse (s : State) (id : Nat) : Bool := s.grids.any (fun p => p.2.residual == some id && !p.2.complete)

/-- An entry takes no more launches; its lines are freed once no grid runs them (R247). -/
def State.invalidateEntry (s : State) (e : FirnEntry) : State :=
  let s := { s with builds := s.builds.filter (· != e.id),
                    firn := if e.state = .valid ∧ s.firnInUse e.id
                      then s.firn.map (fun x => if x.id = e.id then { x with matching := false } else x)
                      else s.firn.filter (fun x => x.id != e.id) }
  s

/-- The entry of a context that capacity pressure takes: least recently hit, VALID or REJECTED, not run by a grid. -/
def State.firnVictim (s : State) (c : Nat) : Option FirnEntry :=
  (sortBy (fun (a b : FirnEntry) => decide (a.lastHit < b.lastHit))
    (s.firn.filter (fun e => e.ctx == c && e.matching && e.state != .building && !s.firnInUse e.id))).head?

/-- Bytes of the device's residual-code region (R1). -/
def residualRegion : Nat := 2 ^ 26

/-- The first free place of n bytes in a context's share of the residual region; the shares of all contexts hold no more than the
region (R1; DESIGN CHOICE, log entry 117). -/
def State.firnPlace (s : State) (c n : Nat) : Option Nat :=
  match s.ctx c with
  | none => none
  | some x =>
    if residualRegion < (s.firn.map (fun e => 384 * e.lines)).sum + n then none else
    let lo := (x.resBase.toNat + 127) / 128 * 128
    let held := (s.firn.filter (fun e => e.ctx == c && decide (0 < e.lines))).map (fun e => (e.base, e.base + 384 * e.lines))
    ((lo :: sortBy (fun a b => decide (a < b)) (held.map (·.2))).find? (fun a =>
      decide (lo ≤ a) && decide (a + n ≤ x.resBase.toNat + x.resLen) &&
        held.all (fun h => decide (a + n ≤ h.1) || decide (h.2 ≤ a))))

/-- A place, after the evictions of R247 where they are needed. -/
def State.firnRoom (c n : Nat) : Nat → State → Option Nat × State
  | 0, s => (s.firnPlace c n, s)
  | f + 1, s =>
    match s.firnPlace c n, s.firnVictim c with
    | some a, _ => (some a, s)
    | none, some v => State.firnRoom c n f (s.invalidateEntry v)
    | none, none => (none, s)


/-- The number of the latest hit: entries of a context are ordered by it. -/
def State.nextHit (s : State) : Nat := s.firn.foldl (fun m e => max m (e.lastHit + 1)) 0

/-- A new entry in state BUILDING with its build queued, after the eviction that a full index needs; none where no entry can be
freed, or not even the space of one line with its map record (R234; DESIGN CHOICE, log entry 117). -/
def State.newEntry (s : State) (c : Nat) (gr : Grid) (key : List Nat) : Option (Nat × State) :=
  let room (s : State) : Bool := decide (s.firn.length < firnIndexLen)
  let s' := if room s then some s else (s.firnVictim c).map s.invalidateEntry
  if (State.firnRoom c 384 s.firn.length s).1.isNone then none else
  match s' with
  | none => none
  | some s =>
    let e : FirnEntry := { id := s.nextFirn, ctx := c, key := key, codeId := gr.codeId, krec := gr.krec,
                           state := .building, base := 0, lines := 0, mapAt := 0, roles := gr.origRoles,
                           lastHit := s.nextHit, matching := true }
    some (s.nextFirn, { s with firn := s.firn ++ [e], builds := s.builds ++ [s.nextFirn], nextFirn := s.nextFirn + 1 })

/-- A launch goes on to dispatch with an entry's residual, or with the original code (R234, R235). -/
def Grid.dispatch (gr : Grid) (e : Option FirnEntry) : Grid :=
  match e with
  | none => { gr with phase := .ready }
  | some e =>
    match e.state with
    | .valid => { gr with phase := .ready, residual := some e.id,
                          roles := gr.origRoles.zipIdx.map (fun r =>
                            match e.roles[r.2]? with
                            | some x => { r.1 with entry := x.entry, base := x.base }
                            | none => r.1) }
    | .rejected => { gr with phase := .ready, residual := none, rejected := true }
    | .building => gr

/-- Note that an entry was hit. -/
def State.touchEntry (s : State) (id : Nat) : State :=
  { s with firn := s.firn.map (fun x => if x.id = id then { x with lastHit := s.nextHit } else x) }

/-- A launch looks up its key (R234); `key` none means that it runs the original code (R325). -/
def State.lookup (s : State) (n : Nat) (key : Option (List Nat)) : State :=
  match s.grid n, key with
  | none, _ => s
  | some gr, none => s.setGrid n { gr with phase := .ready }
  | some gr, some k =>
    match s.firn.find? (fun e => e.ctx == gr.ctx && e.matching && e.key == k) with
    | some e =>
      if e.state = .building then
        s.setGrid n { gr with phase := if gr.policy = 1 then .ready else .specialise, missed := true,
                              residual := if gr.policy = 1 then none else some e.id }
      else (s.touchEntry e.id).setGrid n (gr.dispatch (some e))
    | none =>
      match s.newEntry gr.ctx gr k with
      | none => s.setGrid n { gr with phase := .ready, missed := true }
      | some (id, s) =>
        s.setGrid n { gr with phase := if gr.policy = 1 then .ready else .specialise, missed := true,
                              residual := if gr.policy = 1 then none else some id }

/-! Entry of a launch -/

/-- How a launch fared at its entry. -/
inductive Entered where
  | grid (n : Nat)
  | refused
  | failed (m : Meet) (addr : Nat)
  deriving DecidableEq, Repr

/-- A free grid number: unique, of 32 bits, not all ones (R24, R55). -/
def freeGrid (s : State) : Nat → Nat → Nat
  | 0, n => n
  | f + 1, n => if (s.grid n).isSome || n = 2 ^ 32 - 1 then freeGrid s f ((n + 1) % 2 ^ 32) else n

/-- A free virtual place for the argument copy of a launch: one that the context's tables do not map. -/
def freeArgVa (s : State) (c : Nat) : Nat → Nat → Nat
  | 0, n => n
  | f + 1, n => if (s.walk c (65536 * n)).isSome then freeArgVa s c f ((n + 1) % 2 ^ 41) else n

/-- Where a launch comes from, and how (R31, R53, R260, R324). -/
structure LaunchBy where
  ctx : Nat
  level : Nat
  issuer : Issuer
  depth : Nat
  inst : Option Nat
  seqBase : W64
  step : W64

/-- The launch is a `SPAWN`'s. -/
def LaunchBy.spawns (b : LaunchBy) : Bool := match b.issuer with
  | .spawn _ _ => true
  | _ => false

/-- Enter a launch from its body (R27, R232, R324, R325): refused, failed by its argument block, or a grid in its launch
queue. -/
def State.enterLaunch (s : State) (b : LaunchBy) (body : Nat) : Entered × State :=
  let krec : W64 := BitVec.ofNat 64 (bodyWord body 1)
  let x := bodyWord body 2 % 2 ^ 32
  let y := bodyWord body 2 / 2 ^ 32
  let z := bodyWord body 4 % 2 ^ 32
  let w3 := bodyWord body 3
  match s.loadedAt b.ctx krec with
  | none => (.refused, s)
  | some kern =>
    let r := s.readRecord b.ctx krec.toNat
    match r.1 with
    | .error _ => (.refused, r.2)
    | .ok rec =>
      match splitRoles rec.roles w3 with
      | none => (.refused, r.2)
      | some roles =>
        let teams := x * y * z
        let cl := rec.flags.testBit 0
        let co := rec.flags.testBit 1
        let en := r.2.entriesBad b.ctx b.spawns roles
        let s := en.2
        if headerBad rec roles || en.1 || !dimsOk x y z || (cl && decide (32 < teams)) ||
            (co && !s.coresidentFits roles rec.scratch teams) then (.refused, s)
        else
          let a := s.vread b.ctx (bodyWord body 5) rec.argBytes true
          match a.1 with
          | .error e => (.failed e.1 e.2, a.2)
          | .ok block =>
            let d := a.2.draw
            let n := freeGrid d.2 (d.2.grids.length + 2) (d.1 % 2 ^ 32)
            let d2 := d.2.draw
            let va := freeArgVa d2.2 b.ctx 64 (d2.1 % 2 ^ 41)
            let s := d2.2
            let s := if rec.argBytes = 0 then s else s.setMem (ssetLE s.mem (argPlace n) rec.argBytes block)
            let gr : Grid :=
              { ctx := b.ctx, x := x, y := y, z := z, krec := krec, codeId := kern.codeId, roles := roles,
                origRoles := roles, scratch := rec.scratch, cluster := cl, coresident := co, fmt := BitVec.ofNat 32 rec.fmt,
                level := b.level, entered := s.clock, zeroSince := none, policy := bitsOf w3 2 2, phase := .dependence,
                complete := false, depAddr := BitVec.ofNat 64 (bodyWord body 6), depVal := BitVec.ofNat 64 (bodyWord body 7),
                sigAddr := BitVec.ofNat 64 (bodyWord body 8), sigVal := BitVec.ofNat 64 (bodyWord body 9), sigLost := false,
                argCopy := BitVec.ofNat 64 (65536 * va), argBytes := rec.argBytes, issuer := b.issuer, depth := b.depth,
                next := 0, ended := 0, residual := none, rejected := false, missed := false, status := .running,
                seqBase := b.seqBase, step := b.step, inst := b.inst, parked := [] }
            (.grid n, s.setGrid n gr)

/-- The key of a grid; none for a role-split launch whose counts differ from the record's (R325). -/
def State.keyFor (s : State) (n : Nat) (gr : Grid) : Option (List Nat) × State :=
  let r := s.readRecord gr.ctx gr.krec.toNat
  match r.1 with
  | .error _ => (none, r.2)
  | .ok rec =>
    if rec.roles.map (·.groups) != gr.origRoles.map (·.groups) then (none, r.2)
    else (some (keyOf { rec with codeId := gr.codeId.toNat } gr.x gr.y gr.z (sgetLE r.2.mem (argPlace n) gr.argBytes)), r.2)

/-! Ends of launches that place no team -/

/-- A line of the argument area of a grid. -/
def inArgs (n line : Nat) : Bool := lineOf (argPlace n) ≤ line && line < lineOf (argPlace n) + 512

/-- Free a launch's argument area, with the copies of its lines that caches keep (R232). -/
def State.freeArgs (s : State) (n : Nat) : State :=
  match s.grid n with
  | none => s
  | some gr =>
    { s with mem := if gr.argBytes = 0 then s.mem else sclear s.mem (argPlace n) 65536,
             l1 := s.l1.filter (fun x => !inArgs n x.line), rdc := s.rdc.filter (fun x => !inArgs n x.line),
             tlb := s.tlb.filter (fun t => !(t.ctx == gr.ctx && t.base == gr.argCopy.toNat)) }

/-- A queue's packet ends with a status (R318). -/
def Queue.endPacket (q : Queue) (seq status : Nat) (f : Packet → Packet) : Queue :=
  { q with packets := q.packets.map (fun p =>
      if p.seq = seq ∧ p.status.isNone then f { p with status := some status } else p) }

/-- A launch of a queue's packet placed no team: the kind that entered it completes with a status, or the packet of its
`QLAUNCH` commits with it (R27, R324). -/
def Queue.dropGrid (q : Queue) (seq n status : Nat) : Queue :=
  { q with packets := q.packets.map (fun p =>
      if p.seq != seq then p
      else if p.callGrid = some n then { p with callGrid := none, status := some status }
      else { p with waitGrids := p.waitGrids.filter (· != n), dropped := some status }) }

/-- The instance's iteration waits for a grid. -/
def Inst.runsGrid (x : Inst) (n : Nat) : Bool :=
  match x.phase with
  | .grids _ g => g == n
  | _ => false

/-- Replace an instance's record. -/
def State.onInst (s : State) (num : Nat) (f : Inst → Inst) : State :=
  { s with insts := s.insts.map (fun x => if x.num = num then f x else x) }

/-- The Wellhead as a writer. -/
def State.wellhead (s : State) : Writer := s.agent 7 0

/-- An instance halts (R260, R481): FAULT names the plan entry, or 0xFF, with bits 15:0 of a status word; a resume begins
again at a phase. A descriptor that no longer translates is left as it is. -/
def State.haltInst (s : State) (num entry : Nat) (word : W64) (resume : StepPhase) : State :=
  match s.insts.find? (fun x => x.num == num) with
  | none => s
  | some x =>
    let fault := entry % 256 + word.toNat % 2 ^ 16 * 2 ^ 16
    let s := (s.vwrite s.wellhead x.ctx (x.desc + 0x68) 8 (2 + fault * 2 ^ 32) false).2
    s.onInst num (fun x => { x with status := .halted, phase := resume })

/-- A step-plan grid that ended FAULTED or KILLED, or a plan launch that was refused or failed, halts its instance; a resume
repeats from phase 3 (R260). -/
def State.planFailed (s : State) (num grid : Nat) (word : W64) : State :=
  match s.insts.find? (fun x => x.num == num) with
  | none => s
  | some x =>
    match x.phase with
    | .grids entry n => if n = grid then s.haltInst num entry word (.start 3) else s
    | _ => s

/-- A child of a team has placed no team and never will: its handle reads KILLED (R53). -/
def Team.loseChild (t : Team) (n : Nat) : Team :=
  { t with children := t.children.map (fun ch => if ch.grid = some n then { ch with grid := none } else ch) }

/-- A launch that fails or is refused after its entry: its issuer is told and nothing of it stays (R27, R324). -/
def State.dropLaunch (s : State) (n status : Nat) : State :=
  match s.grid n with
  | none => s
  | some gr =>
    let s := s.freeArgs n
    let s := { s with grids := adel s.grids n, reservation := if s.reservation = some n then none else s.reservation }
    match gr.issuer with
    | .queue slot seq => s.onQueue slot (fun q => q.dropGrid seq n status)
    | .spawn g t =>
      { s with teams := s.teams.map (fun p => if p.2.grid = g ∧ p.2.teamId = t then (p.1, p.2.loseChild n) else p),
               grids := s.grids.map (fun p => if p.1 = g then (p.1, { p.2 with parked := p.2.parked.map (fun k =>
                 if k.teamId = t then { k with team := k.team.loseChild n } else k) }) else p) }
    | .plan inst => s.planFailed inst n GridStatus.killed.word
    | .none => s

/-! Order of launches (R31, R32) -/

/-- Ageing quantum of a context in clocks. -/
def State.ageClocks (s : State) (c : Nat) : Nat :=
  match s.ctx c with
  | some x => usClocks (max 1 x.ageq)
  | none => usClocks 50

/-- Effective level of a launch. -/
def State.effLevel (s : State) (gr : Grid) : Nat := gr.level - (s.clock - gr.entered) / s.ageClocks gr.ctx

/-- Teams of a grid. -/
def Grid.teams (gr : Grid) : Nat := gr.x * gr.y * gr.z

/-- A launch that has a team to offer: unplaced, or parked and due to resume; not of a context that drains. -/
def State.offers (s : State) (gr : Grid) : Bool :=
  (gr.phase == .ready || gr.phase == .placed) && gr.status == .running &&
    (decide (gr.next < gr.teams) || gr.parked.any (·.wantResume)) &&
    (match s.ctx gr.ctx with
     | some x => x.phase == .running
     | none => false)

/-- Launches in the order of R31; one that holds the reservation stands alone. Of launches with one effective level and one entry
time the one with the lower grid number comes first: the spec gives no order between them (DESIGN CHOICE, log entry 114). -/
def State.launchOrder (s : State) : List (Nat × Grid) :=
  let l := sortBy (fun a b =>
      decide (s.effLevel a.2 < s.effLevel b.2) ||
        (s.effLevel a.2 == s.effLevel b.2 && (decide (a.2.entered < b.2.entered) ||
          (a.2.entered == b.2.entered && decide (a.1 < b.1)))))
    (s.grids.filter (fun p => s.offers p.2))
  match s.reservation with
  | some n => if l.any (fun p => p.1 == n) then l.filter (fun p => p.1 == n) else l
  | none => l

/-! Placing (R30) -/

/-- The dispatcher of a core takes teams; while a launch holds a reservation, which may need the core, its test is deferred (R17,
R32, R311). -/
def State.takes (s : State) (core : Nat) : Bool :=
  (s.core core).inService && (!(s.core core).testDue || s.reservation.isSome)

/-- Free team slots of a core. -/
def State.freeSlots (s : State) (core : Nat) : List Nat :=
  (List.range 16).filter (fun i => (s.team ⟨core, i⟩).isNone)

/-- A grid's new team, at its first placement. -/
def newTeam (gr : Grid) (x : Ctx) (n teamId now : Nat) : Team :=
  { Team.fresh gr.ctx n teamId with
    tx := teamId % gr.x, ty := teamId / gr.x % gr.y, tz := teamId / (gr.x * gr.y),
    nroles := gr.roles.map (·.groups), scrSize := gr.scratch, cluster := gr.cluster, coresident := gr.coresident,
    argBase := gr.argCopy, seqBase := BitVec.ofNat 64 (teamId % gr.x) * gr.seqBase, step := gr.step, codeId := gr.codeId, residual := gr.residual,
    depth := gr.depth, placedAt := now, handler := x.handler, hndwd := x.hndwd, tagwd := x.tagwd }

/-- Place a team of a grid on a core, in quarters already found. What was performed before precedes its accesses (R187). The core of a
launch's first team counts its firn miss, which is of no core before (R336; DESIGN CHOICE, log entry 125). -/
def State.placeTeam (s : State) (n : Nat) (gr : Grid) (teamId core : Nat) (qs : List Nat) : State :=
  let d := s.pickOf (s.freeSlots core) 0
  let t : TRef := ⟨core, d.1⟩
  let s := d.2.setTeam t (newTeam gr ((s.ctx gr.ctx).getD (Ctx.fresh 0)) n teamId s.clock)
  let s := ((groupsOf gr.roles).zip qs).zipIdx.foldl (fun s x =>
    s.setGroup (t.group x.2)
      (Group.fresh (Role.ofCode x.1.1.1) x.1.1.2.allot x.1.2 s.clock gr.fmt x.1.1.2.entry x.1.1.2.base)) s
  let s := if s.reservation = some n then { s with reservation := none } else s
  let s := (s.observe core).acquire core
  (if gr.missed && teamId == 0 then s.count core gr.ctx 0x0A 1 else s).traceTeam t 1 0

/-- Note that a grid's next team has been placed. -/
def State.placedNext (s : State) (n : Nat) : State :=
  s.onGrid n (fun gr => { gr with next := gr.next + 1, phase := .placed, zeroSince := some s.clock })

/-- Place the next team of an ordinary launch on a core. -/
def State.placeOne (s : State) (n : Nat) (gr : Grid) (core : Nat) : Option State :=
  if !(decide (gr.next < gr.teams)) || !s.takes core then none else
  (s.fit core gr.roles gr.scratch).map (fun qs => (s.placeTeam n gr gr.next core qs).placedNext n)

/-- Place teams of a launch on cores in turn, as many as fit, up to a count. -/
def placeMany (n : Nat) (gr : Grid) : Nat → List Nat → State → Nat × State
  | _, [], s => (0, s)
  | 0, _, s => (0, s)
  | f + 1, core :: rest, s =>
    match s.grid n with
    | none => (0, s)
    | some g =>
      match s.placeOne n g core with
      | some s' => let r := placeMany n gr f (core :: rest) s'; (r.1 + 1, r.2)
      | none => placeMany n gr f rest s

/-- A CORESIDENT launch is placed only whole (R35). -/
def State.placeCoresident (s : State) (n : Nat) (gr : Grid) (core : Nat) : Option State :=
  let cores := (List.range 384).map (fun i => (i + core) % 384)
  let r := placeMany n gr (gr.teams + 384) cores s
  if r.1 = gr.teams then some r.2 else none

/-- A CLUSTER launch is placed whole, team t on core t of one cluster (R12). -/
def State.placeCluster (s : State) (n : Nat) (gr : Grid) (core : Nat) : Option State :=
  let k := coreCluster core * 32
  (List.range gr.teams).foldl (fun (o : Option State) t =>
    match o with
    | none => none
    | some s =>
      match s.grid n with
      | none => none
      | some g => s.placeOne n g (k + t)) (some s)

/-- Offer a core the next unplaced team of a launch. -/
def State.offerNew (s : State) (n : Nat) (gr : Grid) (core : Nat) : Option State :=
  if !(decide (gr.next < gr.teams)) then none
  else if gr.cluster then s.placeCluster n gr core
  else if gr.coresident && gr.next == 0 then s.placeCoresident n gr core
  else s.placeOne n gr core

end Sys2Proof.Machine
end

