-- ==== Sys2Proof/Machine/Record.lean ====
section
/-! DEFINITION. Park records (R281, Tables TRAP-6 and TRAP-7): their bytes from a team's state, and a team's state from
their bytes. -/

namespace Sys2Proof.Machine

/-! Bytes -/

/-- The n bytes of a number at an offset, zeros left out. -/
def chunk (off n x : Nat) : Store 8 :=
  (List.range n).filterMap (fun i => let b := x / 256 ^ i % 256; if b = 0 then none else some (off + i, BitVec.ofNat 8 b))

/-- The words of a register file at an offset, n bytes each. -/
def chunks {w : Nat} (off n : Nat) (m : Store w) : Store 8 := m.flatMap (fun p => chunk (off + n * p.1) n p.2.toNat)

/-- Read k words of n bytes each from an offset. -/
def unchunks (w : Nat) (r : Store 8) (off n k : Nat) : Store w :=
  ((List.range k).map (fun i => (i, BitVec.ofNat w (sgetLE r (off + n * i) n)))).filter (fun p => p.2 != 0)

/-- A mask of bits from a list of one-bit words. -/
def bitsTo (m : Store 1) : Nat := m.foldl (fun n p => n + 2 ^ p.1 * p.2.toNat) 0
def bitsFrom (n k : Nat) : Store 1 := ((List.range k).filter (fun i => n.testBit i)).map (fun i => (i, 1#1))

/-! Group sections (Table TRAP-7) -/

/-- Bytes of a group section. -/
def sectionBytes (allot : Nat) : Nat := 4096 + 128 * allot

/-- Offsets of the sections of groups with given allotments. -/
def sectionOffsets : Nat → List Nat → List Nat
  | _, [] => []
  | off, a :: rest => off :: sectionOffsets (off + sectionBytes a) rest

def StackEntry.ofWord (x : Nat) : StackEntry :=
  { kind := StackKind.ofCode (x / 2 ^ 126 % 4), mask := BitVec.ofNat 32 x, lpc := BitVec.ofNat 64 (x / 2 ^ 64 % 2 ^ 54),
    fmt := BitVec.ofNat 32 (x / 2 ^ 32 % 2 ^ 31), pnd := x.testBit 63 }

/-- An object-list entry as 16 bytes. -/
def ObjEntry.word (o : ObjEntry) : Nat :=
  o.addr.toNat + ((if o.phase then 1 else 0) + (if o.ring then 2 else 0) + 128) * 2 ^ 64

def ObjEntry.ofWord (x : Nat) : Option ObjEntry :=
  if x.testBit 71 then some { addr := BitVec.ofNat 64 x, ring := x.testBit 65, phase := x.testBit 64 } else none

/-- Chunks of 16 or more bytes in a row. -/
def rowOf (off n : Nat) (l : List Nat) : Store 8 := l.zipIdx.flatMap (fun x => chunk (off + n * x.2) n x.1)

/-- A lane-queue entry at an offset. -/
def LaneEntry.bytes (e : LaneEntry) (off : Nat) : Store 8 := chunk off 144 e.word

def LaneEntry.ofBytes (r : Store 8) (off : Nat) : LaneEntry :=
  { target := BitVec.ofNat 64 (sgetLE r off 8), exm := BitVec.ofNat 32 (sgetLE r (off + 8) 4),
    fmt := BitVec.ofNat 32 (sgetLE r (off + 12) 4), k := unchunks 64 r (off + 16) 8 16 }

/-- STATE of a group in a record; a waiting group is told from a ready one as Table EXE-5 tells them. -/
def Group.recState (gr : Group) : Nat :=
  match gr.status with
  | .trapped => 2
  | .exited => 3
  | .active => 0

/-- The trap a section shows: the presented one, or a pending one. -/
def Group.recTrap (gr : Group) : Option Trap := match gr.trap with
  | some t => some t
  | none => gr.eng.head?

/-- In-core stack entries, oldest first. -/
def Group.inCore (gr : Group) : List StackEntry := (gr.stack.take stackHeld).reverse

/-- A group's section at an offset (Table TRAP-7). -/
def Group.section (gr : Group) (off : Nat) (origS origL : W64) : Store 8 :=
  let tr := gr.recTrap
  chunks off 8 (gr.s.filter (fun p => p.1 != 0)) ++ chunks (off + 0x200) 8 gr.k ++ chunks (off + 0x280) 8 gr.yS ++
  chunks (off + 0x2C0) 8 gr.yL ++ chunk (off + 0x300) 8 gr.spc.toNat ++ chunk (off + 0x308) 8 gr.lpc.toNat ++
  chunk (off + 0x310) 8 origS.toNat ++ chunk (off + 0x318) 8 origL.toNat ++ chunk (off + 0x320) 4 gr.exmS.toNat ++
  chunk (off + 0x324) 4 gr.exmL.toNat ++ chunk (off + 0x328) 4 gr.fmtS.toNat ++ chunk (off + 0x32C) 4 gr.fmtL.toNat ++
  chunk (off + 0x330) 4 gr.gfS.toNat ++ chunk (off + 0x334) 4 gr.gfL.toNat ++ chunk (off + 0x338) 1 (bitsTo gr.c) ++
  chunk (off + 0x339) 1 gr.recState ++ chunk (off + 0x33A) 1 gr.role.code ++ chunk (off + 0x33B) 1 (gr.allot / 8) ++
  chunk (off + 0x33C) 1 gr.laneQ.length ++ chunk (off + 0x33D) 1 gr.inCore.length ++
  chunk (off + 0x33E) 1 (if gr.skipS.wp || gr.skipL.wp then 1 else 0) ++ chunk (off + 0x340) 8 gr.mxDone ++
  chunk (off + 0x348) 8 gr.mxIssued ++
  (match tr with
   | some t => chunk (off + 0x350) 8 t.tcause.toNat ++ chunk (off + 0x358) 8 t.addr.toNat ++
       chunk (off + 0x360) 4 t.lanes.toNat
   | none => chunk (off + 0x360) 4 gr.tagLeft.toNat) ++
  chunks (off + 0x380) 4 gr.p ++ rowOf (off + 0x3A0) 1 gr.remap ++ rowOf (off + 0x3C0) 16 (gr.obj.map (·.word)) ++
  rowOf (off + 0x440) 16 (gr.inCore.map (·.word)) ++
  gr.laneQ.zipIdx.flatMap (fun x => x.1.bytes (off + 0x640 + 144 * x.2)) ++
  (match gr.run with
   | some r => chunks (off + 0xF40) 8 r.k ++ chunk (off + 0xFC0) 1 1
   | none => []) ++
  chunks (off + 0x1000) 4 (gr.v.filter (fun p => decide (p.1 < 32 * gr.allot)))

/-- A group restored from its section (R282); what the section does not hold comes from the parked group. -/
def Group.restored (old : Group) (r : Store 8) (off quarter age : Nat) : Group :=
  let f (o n : Nat) := sgetLE r (off + o) n
  let w32 (o : Nat) : W32 := BitVec.ofNat 32 (f o 4)
  let w64 (o : Nat) : W64 := BitVec.ofNat 64 (f o 8)
  let st := f 0x339 1
  let tc := w64 0x350
  let tr := Trap.ofRegs tc (w64 0x358) (w32 0x360) (if tc.getLsbD 8 then w64 0x318 else w64 0x310)
  let wp := (f 0x33E 1) % 2 == 1
  let sk (mine other : Bool) : Skip := ⟨true, true, wp && (mine || !other)⟩
  let inCore := ((List.range (f 0x33D 1)).map (fun i => StackEntry.ofWord (f (0x440 + 16 * i) 16))).reverse
  { old with
    quarter := quarter, age := age, s := unchunks 64 r off 8 64, k := unchunks 64 r (off + 0x200) 8 16,
    yS := unchunks 64 r (off + 0x280) 8 8, yL := unchunks 64 r (off + 0x2C0) 8 8, spc := w64 0x300, lpc := w64 0x308,
    exmS := w32 0x320, exmL := w32 0x324, fmtS := w32 0x328, fmtL := w32 0x32C, gfS := w32 0x330, gfL := w32 0x334,
    c := bitsFrom (f 0x338 1) 8, status := if st = 3 then .exited else if st = 2 then .trapped else .active,
    laneQ := (List.range (f 0x33C 1)).map (fun i => LaneEntry.ofBytes r (off + 0x640 + 144 * i)),
    stack := inCore ++ old.stack.drop stackHeld, mxDone := f 0x340 8, mxIssued := f 0x348 8,
    trap := if st = 2 || (st = 3 && tc &&& 0xFF != 0) then some tr else none,
    p := unchunks 32 r (off + 0x380) 4 7, remap := laneList.map (fun l => f (0x3A0 + l) 1 % 32),
    obj := (List.range 8).filterMap (fun i => ObjEntry.ofWord (f (0x3C0 + 16 * i) 16)),
    run := if f 0xFC0 1 % 2 = 1
      then some ⟨unchunks 64 r (off + 0xF40) 8 16, match old.run with
        | some x => x.depth
        | none => 0⟩
      else none,
    v := unchunks 32 r (off + 0x1000) 4 (32 * old.allot),
    skipS := sk old.skipS.wp old.skipL.wp, skipL := sk old.skipL.wp old.skipS.wp, eng := old.eng.filter (fun t => !t.ofGather), waitS := none, waitL := none, grant := none, out := [], alt := [], look := [] }

/-! The record -/

/-- A park as it is saved: reason, TRAPGID, PRESENT, and the header's trap (R281, R283). -/
structure ParkInfo where
  reason : Nat
  trapGid : Option Nat
  present : Bool
  trap : Option Trap
  deriving DecidableEq, Repr

/-- Where the group sections begin. -/
def sectionsAt (scratch : Nat) : Nat := 0x200 + scratch + scratch / 32

/-- Tags as bytes: word w at bit w mod 8 of byte w div 8. -/
def tagBytes (off : Nat) (tags : Store 1) (words : Nat) : Store 8 :=
  (List.range (words / 8)).filterMap (fun i =>
    let b := (List.range 8).foldl (fun n j => n + 2 ^ j * (sget tags (8 * i + j)).toNat) 0
    if b = 0 then none else some (off + i, BitVec.ofNat 8 b))

def tagsFrom (r : Store 8) (off words : Nat) : Store 1 :=
  (List.range words).filterMap (fun w => if (sget r (off + w / 8)).getLsbD (w % 8) then some (w, 1#1) else none)

/-- The stopped paged gather of a team (R266). -/
def Team.stoppedGather (t : Team) : Option EngCmd := t.cmds.find? (fun c => c.stopped.isSome)

/-- Bytes of a record. -/
def recordLen (scratch : Nat) (allots : List Nat) : Nat := sectionsAt scratch + (allots.map sectionBytes).sum

/-- A record without VALID (Table TRAP-6). -/
def State.record (s : State) (t : Team) (gs : List (GRef × Group)) (i : ParkInfo) : Store 8 :=
  let allots := gs.map (fun p => p.2.allot)
  let flags := (if t.residual.isSome then 1 else 0) + (if t.cluster then 2 else 0) + (if t.coresident then 4 else 0) +
    (if i.present then 8 else 0)
  chunk 0 4 0x4B524150 ++ chunk 4 2 1 ++ chunk 6 2 gs.length ++ chunk 8 4 (recordLen t.scrSize allots) ++
  chunk 0xC 4 i.reason ++ chunk 0x10 8 t.codeId.toNat ++ chunk 0x18 4 t.ctx ++ chunk 0x1C 4 t.grid ++
  chunk 0x20 4 t.teamId ++ chunk 0x24 4 flags ++ chunk 0x28 4 t.scrSize ++ chunk 0x2C 4 (i.trapGid.getD 0xFFFFFFFF) ++
  chunk 0x30 8 t.doneCe ++ chunk 0x38 8 t.doneKv ++ chunk 0x40 8 t.doneCo ++ chunk 0x48 8 t.issuedCe ++
  chunk 0x50 8 t.issuedKv ++ chunk 0x58 8 t.issuedCo ++
  (match t.stoppedGather with
   | some c => rowOf 0x60 8 c.desc ++ chunk 0xA0 8 (c.stopped.getD 0) ++ chunk 0xA8 8 c.num
   | none => []) ++
  rowOf 0xB0 8 (((t.children.filter (fun c => !c.joined)).take 16).map (fun c => c.handle.toNat)) ++
  (match i.trap with
   | some x => chunk 0x130 8 x.tcause.toNat ++ chunk 0x138 8 x.addr.toNat ++ chunk 0x140 4 x.lanes.toNat
   | none => []) ++
  (t.scratch.map (fun p => (p.1 + 0x200, p.2))) ++ tagBytes (0x200 + t.scrSize) t.tags (t.scrSize / 4) ++
  (gs.zip (sectionOffsets (sectionsAt t.scrSize) allots)).flatMap (fun x =>
    x.1.2.section x.2 (s.origWord t.ctx false x.1.2.spc) (s.origWord t.ctx true x.1.2.lpc))

/-- Units of a paged gather for the positions below one. -/
def EngCmd.unitsBelow (c : EngCmd) (t : Nat) : Nat :=
  (t - c.desc.getD 2 0 % 2 ^ 32) * (c.desc.getD 3 0 % 2 ^ 32 / 4)

/-- A team restored from its record; the handles and what the record does not hold come from the parked team. -/
def Team.restored (old : Team) (r : Store 8) (now : Nat) : Team :=
  let f (o n : Nat) := sgetLE r o n
  let others := old.cmds.filter (fun c => c.stopped.isNone)
  let gather := match old.stoppedGather with
    | some c => if f 0xA8 8 = 0 then [] else
        [{ c with num := f 0xA8 8, desc := (List.range 8).map (fun i => f (0x60 + 8 * i) 8),
                  landed := (let n := c.unitsBelow (f 0xA0 8 % 2 ^ 32)
                            List.range n ++ c.landed.filter (fun u => decide (n ≤ u))), stopped := none }]
    | none => []
  { old with
    placedAt := now, scratch := (List.range old.scrSize).filterMap (fun i =>
      let b := sget r (0x200 + i); if b = 0 then none else some (i, b)),
    tags := tagsFrom r (0x200 + old.scrSize) (old.scrSize / 4), doneCe := f 0x30 8, doneKv := f 0x38 8, doneCo := f 0x40 8,
    issuedCe := f 0x48 8, issuedKv := f 0x50 8, issuedCo := f 0x58 8, cmds := others ++ gather, parkWanted := none,
    parkGid := none, parkSlot := none, parkPresent := none, joining := none }

/-! Ranges of device memory -/

/-- Write checked parts of a record. -/
def putPieces (r : Store 8) : List (Xl × Nat) → Nat → State → State
  | [], _, s => s
  | (xl, k) :: rest, off, s => putPieces r rest (off + k) (s.putRange xl.pa k off r)

/-- A record's bytes in canonical form. -/
def canonical (r : Store 8) : Store 8 := if swf r then r else r.foldr (fun b m => sset m b.1 b.2) []

/-- Write a record of n bytes at an address of a context, all of it or nothing. -/
def State.putRecord (s : State) (c va n : Nat) (r : Store 8) : Except (Meet × Nat) Unit × State :=
  let t := checkPieces c false (pieces (pieceFuel n) va n) s
  match t.1 with
  | .error e => (.error e, t.2)
  | .ok l => (.ok (), putPieces (canonical r) l 0 t.2)

/-- The bytes of n bytes at an address of a context, by offset, as a park record is read: poison in them is FATAL (R306). -/
def getPieces (c : Nat) : List (Nat × Nat) → Nat → State → Option (Store 8) × State
  | [], _, s => (some [], s)
  | (va, k) :: rest, off, s =>
    let t := s.translate c va
    match t.1 with
    | none => (none, t.2)
    | some xl =>
      let here := (t.2.mem.filter (fun p => decide (xl.pa ≤ p.1) && decide (p.1 < xl.pa + k))).map
        (fun p => (p.1 - xl.pa + off, p.2))
      let s := if t.2.poisoned xl.pa k then t.2.recordError (memError xl.pa 2 6 (some (c, 0))) else t.2
      let rs := getPieces c rest (off + k) s
      match rs.1 with
      | none => (none, rs.2)
      | some r => (some (here ++ r), rs.2)

def State.getRecord (s : State) (c va n : Nat) : Option (Store 8) × State :=
  getPieces c (pieces (pieceFuel n) va n) 0 s

end Sys2Proof.Machine
end

