-- ==== Sys2Proof/Machine/Kv.lean ====
section
/-! DEFINITION. KV pages: what the KPE does to pages, frames and page descriptors (R263, R264), the KV words (R265, R400),
and their commands other than `KVSEND` (R401). -/

namespace Sys2Proof.Machine

/-! Free ids and frames (R263) -/

/-- The first number from one on that is not in use, below a total, going round. -/
def freeNum (used : List Nat) (total : Nat) : Nat → Nat → Nat
  | 0, n => n
  | f + 1, n => if used.contains n then freeNum used total f ((n + 1) % total) else n

/-- A free number; which one is the KPE's choice. -/
def State.pickFree (s : State) (used : List Nat) (total : Nat) : Nat × State :=
  let d := s.draw
  (freeNum used total used.length (d.1 % total), d.2)

/-- The KPE's own state of a pool. -/
def State.kpe (s : State) (p : PoolDesc) : Pool :=
  (s.pools.find? (fun k => k.inst == p.inst && k.pool == p.pool)).getD ⟨p.inst, p.pool, [], [], []⟩

def State.onKpe (s : State) (p : PoolDesc) (f : Pool → Pool) : State :=
  { s with pools := s.pools.map (fun k => if k.inst = p.inst ∧ k.pool = p.pool then f k else k) }

/-- Frames in use of a tier. -/
def Pool.used (k : Pool) (tier : Nat) : List Nat := (k.frames.filter (fun x => x.1 == tier)).map (·.2)

def PoolDesc.base (p : PoolDesc) (tier : Nat) : Nat := if tier = 0 then p.cbase else p.abase
def PoolDesc.frames (p : PoolDesc) (tier : Nat) : Nat := if tier = 0 then p.cfr else p.afr

/-- Free frames of a tier, and free ids. -/
def State.freeFrames (s : State) (p : PoolDesc) (tier : Nat) : Nat := p.frames tier - ((s.kpe p).used tier).length
def State.freeIds (s : State) (p : PoolDesc) : Nat := p.nids - (s.kpe p).ids.length

/-- n new pages in the cistern can be granted. -/
def State.canGrant (s : State) (p : PoolDesc) (n : Nat) : Bool :=
  decide (n ≤ s.freeIds p) && decide (n ≤ s.freeFrames p 0)

/-- A frame passes to a context for KV pages: what the context has not owned last is zeroed (R172, R265). -/
def State.kvOwn (s : State) (c pa n : Nat) : State :=
  if s.frameOwner.any (fun f => f.ctx == c && decide (f.pa ≤ pa) && decide (pa + n ≤ f.pa + f.bytes)) then s else
  let s := s.zeroRange pa n
  { s with frameOwner := ⟨pa, n, c, none⟩ :: s.frameOwner.flatMap (fun f => f.outside pa n) }

/-- Take a frame of a tier: its physical address. -/
def State.takeFrame (s : State) (p : PoolDesc) (tier : Nat) : Nat × State :=
  let f := s.pickFree ((s.kpe p).used tier) (p.frames tier)
  let pa := p.base tier + f.1 * p.frameBytes
  let s := f.2.onKpe p (fun k => { k with frames := (tier, f.1) :: k.frames })
  (pa, s.kvOwn p.ctx pa p.frameBytes)

/-- A frame is free again. -/
def State.giveFrame (s : State) (p : PoolDesc) (tier pa : Nat) : State :=
  s.onKpe p (fun k => { k with frames := k.frames.filter (fun x => !(x.1 == tier && p.base tier + x.2 * p.frameBytes == pa)) })

/-! Page descriptors (Table SRV-7) -/

/-- The KPE that serves a pool as the writer of a unit: that of the die that homes CBASE (R263). -/
def PoolDesc.writer (p : PoolDesc) (wr : Writer) : Writer := { wr with agent := BitVec.ofNat 64 (2 * 2 ^ 60 + dieOfPa p.cbase) }

/-- Word 1 of a descriptor: COW is set while REFS is above 1. -/
def PoolDesc.word1 (p : PoolDesc) (refs tier : Nat) (pinned : Bool) : Nat :=
  refs + (if 1 < refs then 2 ^ 16 else 0) + (if pinned then 2 ^ 17 else 0) + tier * 2 ^ 19 + p.pool * 2 ^ 20 + p.ctx * 2 ^ 32

def pageRefs (w1 : Nat) : Nat := w1 % 2 ^ 16
def pagePinned (w1 : Nat) : Bool := w1.testBit 17
def pageTier (w1 : Nat) : Nat := w1 / 2 ^ 19 % 2
/-- The page is being moved between tiers. -/
def pageInflight (w1 : Nat) : Bool := w1.testBit 18

def State.setPage (s : State) (wr : Writer) (p : PoolDesc) (id w0 w1 : Nat) : State :=
  (s.vwrite (p.writer wr) p.ctx (p.entry id) 32 (w0 + w1 * 2 ^ 64) false).2

/-- The words of a granted page of the pool's context. -/
def State.pageOf (s : State) (p : PoolDesc) (id : Nat) : Option (Nat × Nat) × State :=
  let w := s.pageWords p id
  (w.1.bind (fun x => if pageOk (s.kpe p) p id x.2 then some x else none), w.2)

/-! Operations on pages -/

/-- The lowest id that is free. -/
def lowestId (used : List Nat) (n : Nat) : Nat := freeNum used n used.length 0

/-- Free ids for n pages, ascending: the lowest ones for the Wellhead's batch (R256), any for a command. -/
def pickIds (p : PoolDesc) (lowest : Bool) : Nat → State → List Nat × State
  | 0, s => ([], s)
  | n + 1, s =>
    let i := if lowest then (lowestId (s.kpe p).ids p.nids, s) else s.pickFree (s.kpe p).ids p.nids
    let r := pickIds p lowest n (i.2.onKpe p (fun k => { k with ids := i.1 :: k.ids }))
    (insertBy (fun a b => decide (a < b)) i.1 r.1, r.2)

/-- Grant n pages with cistern frames: ascending ids, each with REFS 1 (Table SRV-8). -/
def State.grantPages (s : State) (wr : Writer) (p : PoolDesc) (n : Nat) (lowest : Bool) : List Nat × State :=
  let ids := pickIds p lowest n s
  (ids.1, ids.1.foldl (fun s id => let f := s.takeFrame p 0; f.2.setPage wr p id f.1 (p.word1 1 0 false)) ids.2)

/-- One more reference. -/
def State.refPage (s : State) (wr : Writer) (p : PoolDesc) (id : Nat) : State :=
  let w := s.pageOf p id
  match w.1 with
  | none => w.2
  | some (w0, w1) => w.2.setPage wr p id w0 (p.word1 (pageRefs w1 + 1) (pageTier w1) (pagePinned w1))

/-- One reference less: at 0, unless PINNED, the id and its frame are free and the descriptor is zero. -/
def State.unrefPage (s : State) (wr : Writer) (p : PoolDesc) (id : Nat) : State :=
  let w := s.pageOf p id
  match w.1 with
  | none => w.2
  | some (w0, w1) =>
    let refs := pageRefs w1 - 1
    if refs = 0 && !pagePinned w1 then
      ((w.2.giveFrame p (pageTier w1) (w0 % 2 ^ 52)).onKpe p (fun k => { k with ids := k.ids.filter (· != id) })).setPage wr p id 0 0
    else w.2.setPage wr p id w0 (p.word1 refs (pageTier w1) (pagePinned w1))

/-- Copy-on-write of one page (R264): the id that stands in its place. -/
def State.cowPage (s : State) (wr : Writer) (p : PoolDesc) (id : Nat) (lowest : Bool) : Nat × State :=
  let w := s.pageOf p id
  match w.1 with
  | none => (id, w.2)
  | some (w0, w1) =>
    if pageRefs w1 ≤ 1 then (id, w.2.setPage wr p id w0 (p.word1 (pageRefs w1) (pageTier w1) (pagePinned w1)))
    else
      let g := w.2.grantPages wr p 1 lowest
      let new := g.1.headD id
      let n := g.2.pageOf p new
      match n.1 with
      | none => (id, n.2)
      | some (v0, _) => (new, ((n.2.homeTiles (w0 % 2 ^ 52) p.frameBytes).copyRange (w0 % 2 ^ 52) (v0 % 2 ^ 52) p.frameBytes wr.owners).unrefPage wr p id)

/-- A page's move begins: INFLIGHT is set in its descriptor (R263, R265). -/
def State.markPage (s : State) (wr : Writer) (p : PoolDesc) (id : Nat) : State :=
  let w := s.pageOf p id
  match w.1 with
  | none => w.2
  | some (w0, w1) => if pageInflight w1 then w.2 else w.2.setPage wr p id w0 (w1 + 2 ^ 18)

/-- Rows that a pending gather has placed in a frame follow the frame's move (R171, R266). -/
def EngCmd.follow (c : EngCmd) (old new n : Nat) : EngCmd :=
  { c with pages := c.pages.map (fun x => if old ≤ x.2 ∧ x.2 < old + n then (x.1, x.2 - old + new) else x) }

/-- The same for every pending gather of a team. -/
def entryFollow (old new n : Nat) (t : TRef × Team) : TRef × Team :=
  (t.1, { t.2 with cmds := t.2.cmds.map (·.follow old new n) })

/-- A page moves to a tier: its tiles go home, its bytes are copied, and its descriptor is switched, with INFLIGHT clear (R171,
R206). -/
def State.movePage (s : State) (wr : Writer) (p : PoolDesc) (tier id : Nat) : State :=
  let w := s.pageOf p id
  match w.1 with
  | none => w.2
  | some (w0, w1) =>
    if pageTier w1 = tier then w.2 else
    let old := w0 % 2 ^ 52
    let f := w.2.takeFrame p tier
    let s := (f.2.homeTiles old p.frameBytes).copyRange old f.1 p.frameBytes wr.owners
    let s := { s with teams := s.teams.map (entryFollow old f.1 p.frameBytes) }
    (s.giveFrame p (pageTier w1) old).setPage wr p id f.1 (p.word1 (pageRefs w1) tier (pagePinned w1))

/-! Commands (R265, R400, R401) -/

/-- Fields of an operand block. -/
def kvPool (w : List Nat) : Nat := w.getD 0 0 % 256
def kvCount (w : List Nat) : Nat := w.getD 0 0 / 2 ^ 16 % 2 ^ 16

/-- The block breaks R265 or R400. -/
def kvIllegal (send : Bool) (w : List Nat) : Bool :=
  let w0 := w.getD 0 0
  w0 / 2 ^ 32 != 0 || w0 / 2 ^ 8 % 2 ^ 8 != 0 || (!send && !within 1 4096 (kvCount w)) || (send == (w.getD 3 0 == 0))

def kvCheck (send : Bool) (_g : GRef) (va : Nat) (w : List Nat) (s : State) : Option (Meet × Nat) × State :=
  (if kvIllegal send w then some (⟨.illegal, 0⟩, va) else none, s)

def execKvalloc (_bt : Bt) (a b : SReg) (s : State) : Host.Outcome State Fault Refusal :=
  engineWord s a b 32 true .kv .kvalloc (kvCheck false)
def execKvref (_bt : Bt) (a b : SReg) (s : State) : Host.Outcome State Fault Refusal :=
  engineWord s a b 32 true .kv .kvref (kvCheck false)
def execKvunref (_bt : Bt) (a b : SReg) (s : State) : Host.Outcome State Fault Refusal :=
  engineWord s a b 32 true .kv .kvunref (kvCheck false)
def execKvcow (_bt : Bt) (a b : SReg) (s : State) : Host.Outcome State Fault Refusal :=
  engineWord s a b 32 true .kv .kvcow (kvCheck false)
def execKvtierCi (_bt : Bt) (a b : SReg) (s : State) : Host.Outcome State Fault Refusal :=
  engineWord s a b 32 true .kv .kvtierCi (kvCheck false)
def execKvtierAq (_bt : Bt) (a b : SReg) (s : State) : Host.Outcome State Fault Refusal :=
  engineWord s a b 32 true .kv .kvtierAq (kvCheck false)
def execKvsend (_bt : Bt) (a b : SReg) (s : State) : Host.Outcome State Fault Refusal :=
  engineWord s a b 32 true .kv .kvsend (kvCheck true)

/-- Status codes of R265. -/
def kvOk : Nat := 0
def kvNoSpace : Nat := 1
def kvRefLimit : Nat := 2
def kvBadPage : Nat := 3
def kvBusy : Nat := 5
def kvPeer : Nat := 6
def kvGeometry : Nat := 7
def kvPinned : Nat := 8

/-- Words 1 of the pages of a list, none where one is not a granted page of the context. -/
def pagesOf (p : PoolDesc) : List Nat → State → Option (List Nat) × State
  | [], s => (some [], s)
  | id :: rest, s =>
    let w := s.pageOf p id
    match w.1 with
    | none => (none, w.2)
    | some (_, w1) => let r := pagesOf p rest w.2; (r.1.map (w1 :: ·), r.2)

/-- Copies that a list of ids needs, each id's references falling as it is copied. -/
def cowNeeds : List (Nat × Nat) → List Nat → Nat
  | [], _ => 0
  | (id, refs) :: rest, before =>
    let left := refs - before.count id
    if 1 < left then 1 + cowNeeds rest (id :: before) else cowNeeds rest before

/-- What a command does once its list is known: its status, the ids to write back, and the state. Everything is checked
before anything changes. A move between tiers first marks its pages (`begun` false), and none is its status then. -/
def State.kvAct (s : State) (wr : Writer) (p : PoolDesc) (op : EngOp) (count : Nat) (ids : List Nat) (begun : Bool) :
    Option Nat × List Nat × State :=
  match op with
  | .kvalloc => if s.canGrant p count then let g := s.grantPages wr p count false; (some kvOk, g.1, g.2) else (some kvNoSpace, [], s)
  | _ =>
    let ws := pagesOf p ids s
    let s := ws.2
    match ws.1 with
    | none => (some kvBadPage, [], s)
    | some w1s =>
      let named := ids.zip w1s
      match op with
      | .kvref =>
        if named.any (fun x => decide (65535 < pageRefs x.2 + ids.count x.1)) then (some kvRefLimit, [], s)
        else (some kvOk, [], ids.foldl (fun s id => s.refPage wr p id) s)
      | .kvunref =>
        if named.any (fun x => decide (pageRefs x.2 < ids.count x.1)) then (some kvBadPage, [], s)
        else (some kvOk, [], ids.foldl (fun s id => s.unrefPage wr p id) s)
      | .kvcow =>
        if !s.canGrant p (cowNeeds (named.map (fun x => (x.1, pageRefs x.2))) []) then (some kvNoSpace, [], s)
        else
          let r := ids.foldl (fun (acc : List Nat × State) id => let c := acc.2.cowPage wr p id false; (acc.1 ++ [c.1], c.2)) ([], s)
          (some kvOk, r.1, r.2)
      | _ =>
        let tier := if op = .kvtierAq then 1 else 0
        let moved := named.filter (fun x => pageTier x.2 != tier)
        if moved.any (fun x => pagePinned x.2) then (some kvPinned, [], s)
        else if s.freeFrames p tier < (moved.map (·.1)).eraseDups.length then (some kvNoSpace, [], s)
        else if !begun then (none, [], (moved.map (·.1)).foldl (fun s id => s.markPage wr p id) s)
        else (some kvOk, [], ids.foldl (fun s id => s.movePage wr p tier id) s)

/-- A list of 32-bit ids as a number, and back. -/
def packIds (ids : List Nat) : Nat := ids.foldr (fun id n => id + 2 ^ 32 * n) 0
def unpackIds (x n : Nat) : List Nat := (List.range n).map (fun i => byteField x (4 * i) 4)

/-- A write that meets a moraine frame without a valid entry (R301). -/
def State.moraineBad (s : State) (c va : Nat) : Bool :=
  match (s.translate c va).1 with
  | some xl => xl.w && !xl.host && xl.mor && (s.setEntry xl.pa).isNone
  | none => false

/-- A command completes without a result word (BADADDR), or ends in an engine fault where it would write a moraine frame
without a valid entry (R301). -/
def State.kvBadAddr (s : State) (t : TRef) (c : EngCmd) (e : Meet × Nat) : State :=
  if e.1.cause == .protection && s.moraineBad (s.ctxOf (t.group 0)) e.2 then s.engFault t c .protection 0 e.2
  else s.engDone t c

/-- The KPE as the writer of a command's units. -/
def State.kvWriter (s : State) (t : TRef) (c : EngCmd) : Writer :=
  match (s.instOf t).bind (fun x => s.poolOf x (kvPool c.desc)) with
  | some (_, p) => p.writer (s.engWriter t c)
  | none => s.engWriter t c

/-- A command is a move between tiers whose pages are marked. -/
def EngCmd.moves (c : EngCmd) : Bool := (c.op == .kvtierCi || c.op == .kvtierAq) && !c.landed.isEmpty

/-- A move is under way in a pool that a test picks, but for a command of a team. -/
def State.movesIn (s : State) (mine : TRef × Nat → Bool) (pick : Pool → Bool) : Bool :=
  s.teams.any (fun x => x.2.cmds.any (fun k => k.moves && !mine (x.1, k.num) &&
    (match (s.instOf x.1).bind (fun i => s.poolOf i (kvPool k.desc)) with
     | some (q, _) => pick q
     | none => false)))

/-- Another command on a pool is under way: a move whose pages are marked (R265). -/
def State.poolMoves (s : State) (t : TRef) (c : EngCmd) (p : PoolDesc) : Bool :=
  s.movesIn (· == (t, c.num)) (fun q => q.inst == p.inst && q.pool == p.pool)

/-- The result word is the last unit, and the counter rises (R265). -/
def State.kvResult (s : State) (t : TRef) (c : EngCmd) (status : Nat) : State :=
  let x := status + (if status = kvOk then kvCount c.desc * 2 ^ 16 else 0)
  let r := s.vwrite (s.kvWriter t c) (s.ctxOf (t.group 0)) (c.w 2) 8 x true
  match r.1 with
  | .error e => r.2.kvBadAddr t c e
  | .ok () => r.2.engDone t c

/-- Perform a command whole: check its list and result, act, write back (R401). A move between tiers takes two steps: while its
pages are marked, no other command of the pool is performed (R265). -/
def State.kvPerform (s : State) (t : TRef) (c : EngCmd) : State :=
  let ctx := s.ctxOf (t.group 0)
  let n := kvCount c.desc
  let reads := c.op != .kvalloc
  let writes := c.op == .kvalloc || c.op == .kvcow
  if c.w 1 % 4 != 0 || c.w 2 % 8 != 0 then s.engDone t c else
  let l := if reads then s.vread ctx (c.w 1) (4 * n) true else (.ok 0, s)
  match l.1 with
  | .error e => l.2.kvBadAddr t c e
  | .ok x =>
    let k := if writes then checkPieces ctx true (pieces (pieceFuel (4 * n)) (c.w 1) (4 * n)) l.2 else (.ok [], l.2)
    match k.1 with
    | .error e => k.2.kvBadAddr t c e
    | .ok _ =>
      let q := checkPieces ctx true [(c.w 2, 8)] k.2
      match q.1 with
      | .error e => q.2.kvBadAddr t c e
      | .ok _ =>
        let s := q.2
        match (s.instOf t).bind (fun x => s.poolOf x (kvPool c.desc)) with
        | none => s.kvResult t c kvGeometry
        | some (_, p) =>
          if s.poolMoves t c p then s else
          let a := s.kvAct (s.kvWriter t c) p c.op n (unpackIds x n) (!c.landed.isEmpty)
          let s := a.2.2
          match a.1 with
          | none => s.onTeam t (·.putCmd { c with landed := [1] })
          | some status =>
            let s := if writes && status == kvOk
              then (s.vwrite (s.kvWriter t c) ctx (c.w 1) (4 * n) (packIds a.2.1) true 4).2 else s
            s.kvResult t c status

end Sys2Proof.Machine
end

