-- ==== Sys2Proof/Machine/Specialise.lean ====
section
/-! DEFINITION. Ends of waits for a specialisation: launches held under WAIT, the `SPAWN` words of such launches, and the
invalidation of index entries (R55, R234, R247). -/

namespace Sys2Proof.Machine

/-- The handle of a child: its low bits are the device's own (R55). -/
def handleOf (grid own : Nat) : W64 := BitVec.ofNat 64 (grid * 2 ^ 32 + own % 2 ^ 32)

/-! Launches and words that wait for a build (R234, R247) -/

/-- A grid that waits for an index entry goes on as the entry stands: with its residual, as rejected, or, where the entry is
no more or takes no launches, with the original code. -/
def Grid.released (gr : Grid) (e : Option FirnEntry) : Grid :=
  match e with
  | some e => if e.matching then gr.dispatch (some e) else { gr with phase := .ready, residual := none }
  | none => { gr with phase := .ready, residual := none }

/-- The `SPAWN` that waits for a grid's build writes its handle and completes. -/
def State.releaseSpawn (s : State) (p : GRef × Group) : State :=
  match p.2.waitS with
  | some (.specialise n dst) =>
    (match s.grid n with
     | some x => if x.phase == .specialise then s else
       let h := match (s.team p.1.team).bind (fun t => t.children.find? (fun c => c.grid == some n)) with
         | some c => c.handle
         | none => handleOf 0xFFFFFFFF 0
       s.scalarDone p.1 (p.2.setS dst h) 1
     | none => s)
  | _ => s

/-- An index entry has left BUILDING: what waited for it goes on. -/
def State.releaseEntry (s : State) (id : Nat) : State :=
  let e := s.firn.find? (fun e => e.id == id)
  let s := if s.grids.any (fun p => p.2.phase == LaunchPhase.specialise && p.2.residual == some id) && (match e with
    | some x => x.matching && x.state != .building
    | none => false) then s.touchEntry id else s
  let s := { s with grids := s.grids.map (fun (p : Nat × Grid) =>
    if p.2.phase = LaunchPhase.specialise ∧ p.2.residual = some id then (p.1, p.2.released e) else p) }
  s.groups.foldl (fun s p => s.releaseSpawn p) s

/-- Invalidate the index entries of a context, of one CODEID or of all (R247). -/
def State.flushEntries (s : State) (c : Nat) (codeId : Option W64) : State :=
  (s.firn.filter (fun e => e.ctx == c && e.matching && (match codeId with
    | some k => e.codeId == k
    | none => true))).foldl (fun s e => (s.invalidateEntry e).releaseEntry e.id) s

end Sys2Proof.Machine
end

