-- ==== Sys2Proof/Machine/Park.lean ====
section
/-! DEFINITION. Parking and resumption (R58, R279 to R283), handler activations and watchdogs (R216, R274, R275, R278),
retirement and completion (R57, R61, R62), placement (R29 to R32), and pre-emption (R284). -/

namespace Sys2Proof.Machine

/-! Parking -/

/-- The teams that park together with one: itself, or every resident team of a CLUSTER grid (R279). -/
def State.parkSet (s : State) (t : TRef) (tm : Team) : List TRef :=
  if tm.cluster then (s.teams.filter (fun p => p.2.grid == tm.grid)).map (·.1) else [t]

/-- Step 1: every group that runs stops before its next word, and the team's entries leave the trap queue. -/
def State.stopTeam (s : State) (t : TRef) : State :=
  (s.teamGroups t).foldl (fun s p =>
    let s := s.dropTrapEntries p.1
    if p.2.status != .active then s else
    match p.2.stopping with
    | some x => s.tryStop p.1 x
    | none => s.stopGroup p.1) s

/-- Step 1: an activation for the team is abandoned; its group's trap is presented again at resumption. -/
def State.abandon (s : State) (t : TRef) : State :=
  match (s.core t.core).act with
  | some a =>
    if a.slot = t.slot then
      (((s.drain (handlerGroup t.core)).flushGroup (handlerGroup t.core)).endActivation t.core).onTeam t
        (fun tm => { tm with parkPresent := some a.gid })
    else s
  | none => s

/-- Steps 2 and 4: nothing of the team is outstanding. -/
def State.quiet (s : State) (t : TRef) : Bool :=
  (s.teamGroups t).all (fun p => p.2.unitCount == 0 && p.2.mx.isEmpty && p.2.stopping.isNone) &&
    (match s.team t with
     | some tm => tm.cmds.all (fun c => c.stopped.isSome)
     | none => true)

/-- Step 3: partials and staging entries with the team's work go home, and reach it. -/
def State.sendTeam (s : State) (t : TRef) : State :=
  let gs := (s.teamGroups t).map (·.1)
  let s := gs.foldl (fun s g => s.flushGroup g) s
  (s.sendStaging t.core (fun e => e.from_.any (fun g => gs.contains g))).landSends
    (fun e => e.from_.any (fun g => gs.contains g))

/-- What the header of a park record says (R281, R283): a park by default P names its group and saves its trap in the
header; `HPARK` names the presented group (R390); an abandoned activation is PRESENT. -/
def parkInfo (tm : Team) (gs : List (GRef × Group)) (reason : Nat) : ParkInfo :=
  match tm.parkPresent with
  | some gid => ⟨reason, some gid, true, none⟩
  | none =>
    if reason = 0 then
      ⟨0, tm.parkGid, false,
        (gs.find? (fun p => some p.1.gid == tm.parkGid)).bind (fun p => match p.2.trap with
          | some t => some t
          | none => none)⟩
    else ⟨reason, tm.parkGid, false, none⟩

/-- The trapping group of a default P is saved READY at its stopping points; SKIPW is set after WATCHPOINT, for the word at the
stopping point of the stream that trapped (R283). -/
def Group.savedReady (gr : Group) : Group :=
  match gr.trap with
  | none => gr
  | some t =>
    let w := t.cause == .watchpoint
    { gr with status := if gr.status == .exited then .exited else .active, trap := none,
              skipS := { gr.skipS with wp := w && !t.ln }, skipL := { gr.skipL with wp := w && t.ln } }

/-- The lowest free park slot of a context. -/
def Ctx.freeSlot (x : Ctx) : Option Nat := (List.range x.parkN).find? (fun i => !x.usedSlots.contains i)

/-- Step 5 of a park: the record is written to a free slot, or the team is killed with QUOTA or the fault of the write
(R280). -/
def State.writeRecord (s : State) (t : TRef) (reason : Nat) : State :=
  match s.team t with
  | none => s
  | some tm =>
    match (s.ctx tm.ctx).bind Ctx.freeSlot, s.ctx tm.ctx with
    | some slot, some x =>
      let i := parkInfo tm (s.teamGroups t) reason
      let s := if reason = 0 ∧ tm.parkPresent.isNone then
          match tm.parkGid with
          | some gid => s.onGroup (t.group gid) Group.savedReady
          | none => s
        else s
      let gs := sortBy (fun a b => decide (a.1.gid < b.1.gid)) (s.teamGroups t)
      let r := s.record tm gs i
      let len := recordLen tm.scrSize (gs.map (fun p => p.2.allot))
      let w := s.putRecord tm.ctx (x.parkBase.toNat + 2 ^ 20 * slot) len r
      match w.1 with
      | .error e => w.2.faultTeam t e.1.cause
      | .ok () =>
        (w.2.onCtx tm.ctx (fun x => { x with usedSlots := slot :: x.usedSlots })).onTeam t
          (fun tm => { tm with parkSlot := some slot })
    | _, _ => s.faultTeam t .quota

/-- Step 1 for one team that parks: it is to be parked, and stops. -/
def State.beginPark (s : State) (reason : Nat) (t : TRef) : State :=
  ((s.onTeam t (fun tm => { tm with parkWanted := some (tm.parkWanted.getD reason) })).abandon t).stopTeam t

/-- Steps 3 and 5 for one team: its record is written, if the team is still to be parked. -/
def State.finishPark (s : State) (t : TRef) : State :=
  match s.team t with
  | none => s
  | some tm =>
    match tm.parkWanted, tm.parkSlot with
    | some reason, none => (s.sendTeam t).writeRecord t reason
    | _, _ => s

/-- `PARK`: a team that is to be parked stops, with every team of a CLUSTER grid; once nothing of any of them is outstanding, the
records are written (R279). -/
def execPark (core slot : Nat) (s : State) : Host.Outcome State Fault Refusal :=
  .next (match s.team ⟨core, slot⟩ with
    | none => s
    | some tm =>
      match tm.parkWanted with
      | none => s
      | some reason =>
        if tm.parkSlot.isSome then s else
        let set := s.parkSet ⟨core, slot⟩ tm
        let s := set.foldl (fun s t => s.beginPark reason t) s
        if set.all s.quiet then set.foldl State.finishPark s else s)

/-- Groups as a parked team keeps them. -/
def State.parkedOf (s : State) (t : TRef) (tm : Team) (slot reason : Nat) (resume : Bool) : Parked :=
  { slot := slot, teamId := tm.teamId, reason := reason, wantResume := resume, team := tm,
    groups := ((sortBy (fun a b => decide (a.1.gid < b.1.gid)) (s.teamGroups t)).map (fun p => (p.1.gid, p.2))) }

/-- `PARK_RECORD_VALID`: VALID is written and the core is freed; a team of a retired core resumes at once (R279, R282). Where the
write of VALID faults, no record is valid and the team is killed (R280). -/
def execParkRecordValid (core slot : Nat) (s : State) : Host.Outcome State Fault Refusal :=
  .next (match s.team ⟨core, slot⟩ with
    | none => s
    | some tm =>
      match tm.parkSlot, s.ctx tm.ctx with
      | some ps, some x =>
        let reason := tm.parkWanted.getD 0
        let tr := s.translate tm.ctx (x.parkBase.toNat + 2 ^ 20 * ps + 0x27)
        match tr.1 with
        | none => tr.2.faultTeam ⟨core, slot⟩ .translation
        | some xl =>
          if !xl.w || xl.host then tr.2.faultTeam ⟨core, slot⟩ .protection else
          let old := tr.2.agentGet xl.pa 1
          let s := old.2.homeSet (old.2.agent 0 core) xl.pa 1 (old.1 % 128 + 128) xl.mor
          let s := s.traceTeam ⟨core, slot⟩ 4 reason
          let s := s.onGrid tm.grid (fun gr =>
            { gr with parked := gr.parked ++ [s.parkedOf ⟨core, slot⟩ tm ps reason (reason == 3)] })
          s.freeTeam ⟨core, slot⟩
      | _, _ => s)

/-! Resumption (R282) -/

/-- Roles as a parked team had them. -/
def Parked.allots (p : Parked) : List Nat := p.groups.map (fun x => x.2.allot)

/-- Quarters for a parked team on a core. -/
def State.fitParked (s : State) (core : Nat) (p : Parked) : Option (List Nat) :=
  let teams := s.coreTeams core
  let held := (s.groups.filter (fun q => q.1.core == core && !q.1.isHandler)).length
  if 16 ≤ teams.length || 48 < held + p.groups.length ||
      coreScratch < (teams.map (fun q => q.2.scrSize)).sum + p.team.scrSize then none
  else assign p.allots (s.quarters core)

/-- The trap of a restored group enters the trap queue again, or takes its default. -/
def State.presentAgain (s : State) (t : TRef) (gid : Nat) : State :=
  match s.group (t.group gid) with
  | none => s
  | some gr =>
    match gr.caused with
    | none => s
    | some cause => if s.handlerOf t != 0 then s.enterTrapQ (t.group gid) else s.takeDefault (t.group gid) cause

/-- Restore a parked team of a grid on a core (R282); a stopped gather goes on where it stood (R266). -/
def State.restoreTeam (s : State) (n : Nat) (gr : Grid) (p : Parked) (core : Nat) (qs : List Nat) : State :=
  match s.ctx gr.ctx with
  | none => s
  | some x =>
    let r := s.getRecord gr.ctx (x.parkBase.toNat + 2 ^ 20 * p.slot) (recordLen p.team.scrSize p.allots)
    let rec_ := r.1.getD []
    let d := r.2.pickOf (r.2.freeSlots core) 0
    let t : TRef := ⟨core, d.1⟩
    let now := d.2.clock
    let s := d.2.setTeam t { p.team.restored rec_ now with handler := x.handler, hndwd := x.hndwd, tagwd := x.tagwd }
    let offs := sectionOffsets (sectionsAt p.team.scrSize) p.allots
    let s := ((p.groups.zip qs).zip offs).foldl (fun s y =>
      s.setGroup (t.group y.1.1.1) (y.1.1.2.restored rec_ y.2 y.1.2 now)) s
    let s := (s.freeSlot gr.ctx p.slot).onGrid n (fun g =>
      { g with parked := g.parked.filter (fun q => q.slot != p.slot), phase := .placed, zeroSince := some now })
    let s := if s.reservation = some n then { s with reservation := none } else s
    let s := ((s.observe core).acquire core).traceTeam t 1 0
    let present := sgetLE rec_ 0x24 1 / 8 % 2 == 1
    let first := sgetLE rec_ 0x2C 4
    let gids := p.groups.map (·.1)
    let again := (if present then [first] else []) ++ gids.filter (fun g => !(present && g == first))
    again.foldl (fun s g => s.presentAgain t g) s

/-- Offer a core a parked team that is due to resume, ahead of the unplaced ones; the teams of a CLUSTER grid go together
to the cores of one cluster (R282). Among several parked teams of a launch that are due, the one that was parked first is
offered: the spec gives no order among them (DESIGN CHOICE, log entry 114). -/
def State.offerParked (s : State) (n : Nat) (gr : Grid) (core : Nat) : Option State :=
  let due := gr.parked.filter (·.wantResume)
  match due with
  | [] => none
  | p :: _ =>
    if gr.cluster then
      if gr.parked.any (fun p => !p.wantResume) || s.teams.any (fun q => q.2.grid == n) then none else
      due.foldl (fun (o : Option State) p =>
        match o with
        | none => none
        | some s =>
          let c := coreCluster core * 32 + p.teamId
          if !s.takes c then none else (s.fitParked c p).map (fun qs => s.restoreTeam n gr p c qs)) (some s)
    else if !s.takes core then none
    else (s.fitParked core p).map (fun qs => s.restoreTeam n gr p core qs)

/-- The first launch of an order that a core can take a team of. -/
def offerFirst (core : Nat) (s : State) : List (Nat × Grid) → State
  | [] => s
  | (n, gr) :: rest =>
    match s.offerParked n gr core with
    | some s' => s'
    | none =>
      match s.offerNew n gr core with
      | some s' => s'
      | none => offerFirst core s rest

/-- `TEAM_PLACE` (R29 to R31). -/
def execTeamPlace (core : Nat) (s : State) : Host.Outcome State Fault Refusal :=
  .next (if s.takes core then offerFirst core s s.launchOrder else s)

/-- A launch can be placed on the cores now in service (R27, R32). -/
def State.placeable (s : State) (gr : Grid) : Bool :=
  !s.inService.isEmpty && (!gr.cluster || s.clusterFits gr.teams) &&
    (!gr.coresident || s.coresidentFits gr.roles gr.scratch gr.teams)

/-- `RESERVATION`: the launch at the head, after four ageing quanta at level 0 without a placement; one that can never be
placed holds none, and is refused where none of its teams has been placed (R32). -/
def execReservation (s : State) : Host.Outcome State Fault Refusal :=
  .next (match s.launchOrder with
    | [] => s
    | (n, gr) :: _ =>
      if !s.placeable gr then (if gr.next == 0 then s.dropLaunch n 4 else s)
      else
        let q := s.ageClocks gr.ctx
        let start := max (gr.entered + gr.level * q) (gr.zeroSince.getD 0)
        if start + 4 * q ≤ s.clock then { s with reservation := some n } else s)

/-- `DEPENDENCE_MET`: a launch tests its dependence (R324), and once it is met looks up its key (R234). -/
def State.testDependence (s : State) (n : Nat) : State :=
  match s.grid n with
  | none => s
  | some gr =>
    if gr.phase != .dependence then s else
    let go (s : State) : State := let k := s.keyFor n gr; k.2.lookup n k.1
    if gr.depAddr = 0 then go s
    else if gr.depAddr.toNat % 8 != 0 then s.dropLaunch n 1
    else
      let r := s.vread gr.ctx gr.depAddr.toNat 8 true
      match r.1 with
      | .error _ => r.2.dropLaunch n 1
      | .ok x => if gr.depVal.toNat ≤ x then go r.2 else r.2

def execDependenceMet (n : Nat) (s : State) : Host.Outcome State Fault Refusal := .next (s.testDependence n)

/-! Retirement and completion -/

/-- A team has nothing left to do (R61); a fault presented for an exited group holds it back (R273). -/
def State.retires (s : State) (t : TRef) (tm : Team) : Bool :=
  (s.teamGroups t).all (fun p => p.2.status == .exited && p.2.unitCount == 0 && p.2.mx.isEmpty && p.2.trap.isNone) &&
    tm.cmds.isEmpty && tm.parkWanted.isNone

/-- `TEAM_RETIRE` (R61): partials and staging go home, and the core is freed. -/
def execTeamRetire (core slot : Nat) (s : State) : Host.Outcome State Fault Refusal :=
  let t : TRef := ⟨core, slot⟩
  .next (match s.team t with
    | none => s
    | some tm =>
      if !s.retires t tm then s else
      let gs := (s.teamGroups t).map (·.1)
      let s := gs.foldl (fun s g => s.flushGroup g) s
      let s := s.sendStaging core (fun e => e.from_.any (fun g => gs.contains g))
      let s := (s.traceTeam t 2 0).onGrid tm.grid (fun gr => { gr with ended := gr.ended + 1 })
      s.freeTeam t)

/-- A grid's teams and children have all ended, and every access of it has been performed: its contributions and partials are home
(R62, R187). -/
def State.gridEnded (s : State) (n : Nat) (gr : Grid) : Bool :=
  !s.teams.any (fun p => p.2.grid == n) && gr.parked.isEmpty &&
    !s.sends.any (·.grids.contains n) && !s.upart.any (·.grids.contains n) &&
    !s.fabTags.any (fun t => t.busy && t.grids.contains n) &&
    (gr.status != .running || gr.ended == gr.teams) &&
    (s.childGrids n).all (fun c => match s.grid c with
      | some x => x.complete
      | none => true)

/-- Store SIGVAL after every access of a grid; the store is dropped where SIGADDR fails its check (R187, R324). -/
def State.signal (s : State) (n : Nat) (gr : Grid) : State :=
  if gr.sigAddr = 0 then s
  else if gr.sigAddr.toNat % 8 != 0 then s.onGrid n (fun g => { g with sigLost := true })
  else
    let r := s.vwrite (s.agent 6 0) gr.ctx gr.sigAddr.toNat 8 gr.sigVal.toNat true
    match r.1 with
    | .error _ => r.2.onGrid n (fun g => { g with sigLost := true })
    | .ok () => r.2

/-- STATUS of a launch from the status of its grid. -/
def GridStatus.queueStatus : GridStatus → Nat
  | .running | .done => 0
  | .faulted _ _ => 2
  | .killed => 3

/-- A packet as the completion of one of its grids leaves it (R318). -/
def Packet.noteGrid (p : Packet) (n : Nat) (gr : Grid) : Packet :=
  { p with waitGrids := p.waitGrids.filter (· != n), callGrid := if p.callGrid = some n then none else p.callGrid,
           status := if p.callGrid = some n ∧ p.status.isNone then some gr.status.queueStatus else p.status, rej := p.rej || gr.rejected, miss := p.miss || gr.missed,
           sigf := p.sigf || gr.sigLost, word3 := if p.callGrid = some n ∨ p.waitGrids.contains n then gr.status.word else p.word3 }

/-- Tell a queue of a completed grid. -/
def Queue.gridDone (q : Queue) (seq n : Nat) (gr : Grid) : Queue :=
  { q with packets := q.packets.map (fun p =>
      if p.seq = seq then p.noteGrid n gr else p) }

/-- `GRID_COMPLETE` (R57, R62): the grid's memory is freed, its issuer is told, and its children's handles end with it. -/
def execGridComplete (n : Nat) (s : State) : Host.Outcome State Fault Refusal :=
  .next (match s.grid n with
    | none => s
    | some gr =>
      if gr.complete || !s.gridEnded n gr then s else
      let s := (s.signal n gr).freeArgs n
      let s := s.onGrid n (fun g =>
        { g with complete := true, argBytes := 0, status := if g.status == .running then .done else g.status })
      let gr := (s.grid n).getD gr
      let s := { s with firn := s.firn.filter (fun e => e.matching || s.firnInUse e.id),
                        grids := s.grids.filter (fun p => !((s.childGrids n).contains p.1)),
                        reservation := if s.reservation = some n then none else s.reservation }
      match gr.issuer with
      | .queue slot seq => { s.onQueue slot (fun q => q.gridDone seq n gr) with grids := adel s.grids n }
      | .spawn _ _ => s
      | .plan num => if gr.status = .done && s.insts.any (fun x => x.runsGrid n) then s else { s.planFailed num n gr.status.word with grids := adel s.grids n }
      | .none => { s with grids := adel s.grids n })

/-! Waiting for a child (R58) -/

/-- A grid has a team that no core can take now: one still to be placed for the first time, or a parked one that is due. -/
def State.cannotPlace (s : State) (n : Nat) : Bool :=
  match s.grid n with
  | some g =>
    !g.complete && g.phase != .dependence && g.phase != .specialise &&
      ((decide (g.next < g.teams) && !(s.inService.any (fun c => s.takes c && (s.offerNew n g c).isSome))) ||
       (g.parked.any (·.wantResume) && !(s.inService.any (fun c => s.takes c && (s.offerParked n g c).isSome))))
  | none => false

/-- The child grid that a group waits for in `JOIN`. -/
def State.joins (s : State) (t : TRef) (gr : Group) : Option Nat :=
  match gr.waitS, s.team t with
  | some (.join h _), some tm => (tm.children.find? (fun ch => ch.handle == h)).bind (·.grid)
  | _, _ => none

/-- A team all of whose groups wait in `JOIN` or have exited: a joined child with a team that cannot be placed (R58). -/
def State.joinStuck (s : State) (t : TRef) : Option Nat :=
  let gs := s.teamGroups t
  if !gs.all (fun p => p.2.status == .exited || (s.joins t p.2).isSome) then none else
  gs.findSome? (fun p => match s.joins t p.2 with
    | some n => if s.cannotPlace n then some n else none
    | none => none)

/-- `JOIN_PARK` (R58). -/
def execJoinPark (core slot : Nat) (s : State) : Host.Outcome State Fault Refusal :=
  .next (match s.joinStuck ⟨core, slot⟩ with
    | none => s
    | some n => s.onTeam ⟨core, slot⟩ (fun t =>
        if t.parkWanted.isSome then t else { t with parkWanted := some 2, parkGid := none, joining := some n }))

/-- A parked team's condition to resume without a packet holds (R282). -/
def State.resumesAlone (s : State) (gr : Grid) (p : Parked) : Bool :=
  match p.reason with
  | 1 => match s.ctx gr.ctx with
    | some x => x.phase == .running
    | none => false
  | 2 => match p.team.joining.bind s.grid with
    | some g => g.complete
    | none => true
  | 3 => true
  | _ => false

/-- `PARK_AUTO_RESUME`: the team of a slot re-enters its launch queue (R282). -/
def execParkAutoResume (n slot : Nat) (s : State) : Host.Outcome State Fault Refusal :=
  .next (s.onGrid n (fun gr =>
    { gr with parked := gr.parked.map (fun p => if p.slot = slot ∧ s.resumesAlone gr p then { p with wantResume := true } else p) }))

/-! Handler activations -/

/-- The group of an activation (R275). -/
def activationGroup (handler : W64) (now : Nat) : Group := Group.fresh .control 32 0 now 0 handler 0

/-- `HANDLER_ACTIVATION`: the head of a core's trap queue is presented (R272, R275), or takes its default where its context
has no handler (R274). -/
def execHandlerActivation (core : Nat) (s : State) : Host.Outcome State Fault Refusal :=
  .next (match (s.core core).act, (s.core core).trapQ with
    | none, (slot, gid) :: rest =>
      let g : GRef := ⟨core, slot, gid⟩
      let s := s.onCore core (fun c => { c with trapQ := rest })
      match s.group g, s.team g.team with
      | some gr, some x =>
        if x.parkWanted.isSome then s
        else if x.handler = 0 then
          (match gr.trap with
           | none => s
           | some t => if t.cause == .hold then s else s.takeDefault g t.cause)
        else
          let a : Activation := { slot := slot, gid := gid, trap := gr.trap, since := s.clock, ctx := s.ctxOf g }
          let s := s.onCore core (fun c => { c with act := some a })
          s.setGroup (handlerGroup core) (activationGroup x.handler s.clock)
      | _, _ => s
    | _, _ => s)

/-- `HANDLER_WATCHDOG` (R278). -/
def execHandlerWatchdog (core : Nat) (s : State) : Host.Outcome State Fault Refusal :=
  .next (match (s.core core).act with
    | none => s
    | some a =>
      match s.team ⟨core, a.slot⟩ with
      | some x => if a.since + usClocks x.hndwd ≤ s.clock then s.handlerFault core none else s
      | none => s)

/-- `TAG_WATCHDOG`: a wait of Table SYN-1 that has lasted TAGWD (R216); n = 1 names the lane stream. -/
def execTagWatchdog (core slot gid n : Nat) (s : State) : Host.Outcome State Fault Refusal :=
  let g : GRef := ⟨core, slot, gid⟩
  .next (match s.group g, s.team (s.teamRefOf g) with
    | some gr, some x =>
      let due (since : Nat) : Bool := x.tagwd != 0 && decide (since + usClocks x.tagwd ≤ s.clock)
      if gr.status != .active then s
      else if n = 1 then
        (match gr.waitL with
         | some .tag => if due gr.sinceL then
             s.trapL g .tagWatchdog 0 ((gr.tagPend.head?.map (·.va)).getD 0) (laneMask (gr.tagPend.map (·.lane))) else s
         | _ => s)
      else
        (match gr.waitS with
         | some (.barrier a _ _) => if due gr.sinceS then s.trapS g .tagWatchdog 0 a.toNat else s
         | some (.ring a _ _ _) => if due gr.sinceS then s.trapS g .tagWatchdog 0 a.toNat else s
         | _ => s)
    | _, _ => s)

/-! Pre-emption (R284) -/

/-- Resident teams of a context. -/
def State.ctxTeams (s : State) (c : Nat) : List (TRef × Team) := s.teams.filter (fun p => p.2.ctx == c)

/-- `PREEMPT_PARK`: at DRAINDL, or once no team of the context is resident, the park of every resident team begins. -/
def execPreemptPark (c : Nat) (s : State) : Host.Outcome State Fault Refusal :=
  .next (match s.ctx c with
    | none => s
    | some x =>
      match x.phase with
      | .drain parkAt resetAfter =>
        let ts := s.ctxTeams c
        if parkAt ≤ s.clock || ts.isEmpty then
          let s := s.setCtx c { x with phase := .park (s.clock + resetAfter) }
          ts.foldl (fun s p => if s.retires p.1 p.2 then s else s.onTeam p.1 (fun t =>
            if t.parkWanted.isSome then t else { t with parkWanted := some 1, parkGid := none })) s
        else s
      | _ => s)

/-- `PREEMPT_RESET`: at PARKDL, grids with a park unfinished are killed whole; firn entries and park slots are kept (R284). -/
def execPreemptReset (c : Nat) (s : State) : Host.Outcome State Fault Refusal :=
  .next (match s.ctx c with
    | none => s
    | some x =>
      match x.phase with
      | .park resetAt =>
        if s.clock < resetAt then s else
        let ns := ((s.ctxTeams c).map (fun p => p.2.grid)).eraseDups
        ns.foldl (fun s n => s.killGrid n .killed) s
      | _ => s)

/-- `PREEMPT_OFF`: no team of the context is left; the pre-emption reports completion. -/
def execPreemptOff (c : Nat) (s : State) : Host.Outcome State Fault Refusal :=
  .next (match s.ctx c with
    | none => s
    | some x =>
      match x.phase with
      | .park _ =>
        if !(s.ctxTeams c).isEmpty then s else
        let s := s.setCtx c { x with phase := .off, preemptQ := [] }
        x.preemptQ.foldl (fun s p => s.onQueue p.1 (fun q => q.endPacket p.2 0 id)) s
      | _ => s)

end Sys2Proof.Machine
end

