-- ==== Sys2Proof/Machine/Serve.lean ====
section
/-! DEFINITION. Serving (R249 to R264, R480, R481): instances, request records, admission, swapping, batches, step buffers,
plans, retirement, and the record words `RQGET`, `RQSET` and `RQEMIT` (R262, R438). -/

namespace Sys2Proof.Machine

/-! Accesses of the Wellhead (R481) -/

def Inst.read (x : Inst) (va n : Nat) (s : State) : Acc Nat := s.vread x.ctx va n false
def Inst.write (x : Inst) (va n v : Nat) (s : State) : Acc Unit := s.vwrite s.wellhead x.ctx va n v false

/-! Instance descriptors (Table SRV-1) -/

/-- A field of n bytes at an offset of words. -/
def wordField (w : List Nat) (off n : Nat) : Nat := w.getD (off / 8) 0 / 2 ^ (8 * (off % 8)) % 256 ^ n

def Inst.field (x : Inst) (off n : Nat) : Nat := wordField x.words off n
def Inst.aring (x : Inst) : Nat := x.field 0 8
def Inst.acap (x : Inst) : Nat := x.field 8 4
def Inst.ering (x : Inst) : Nat := x.field 0x18 8
def Inst.ecap (x : Inst) : Nat := x.field 0x20 4
def Inst.stepBuf (x : Inst) : Nat := x.field 0x38 8
def Inst.tb (x : Inst) : Nat := x.field 0x40 4
def Inst.chunkMax (x : Inst) : Nat := x.field 0x44 4
def Inst.maxSeq (x : Inst) : Nat := x.field 0x48 2
def Inst.sgSize (x : Inst) : Nat := x.field 0x4A 1
def Inst.ageSteps (x : Inst) : Nat := x.field 0x4B 1
def Inst.recQuota (x : Inst) : Nat := x.field 0x4C 2
def Inst.level (x : Inst) : Nat := x.field 0x4E 1
def Inst.swapLow (x : Inst) : Nat := x.field 0x50 4
def Inst.swapHigh (x : Inst) : Nat := x.field 0x54 4

/-- A power of two within limits. -/
def powerIn (lo hi n : Nat) : Bool := within lo hi n && n == 2 ^ Nat.log2 n

/-- Bytes of a step buffer (R258). -/
def stepBytes (maxSeq tb : Nat) : Nat := (64 + 16 * maxSeq + 8 * tb + 127) / 128 * 128

/-- The descriptor's own limits (R249). -/
def descOk (w : List Nat) : Bool :=
  let f := wordField w
  powerIn 16 65536 (f 8 4) && powerIn 64 1048576 (f 0x20 4) && within 1 65536 (f 0x40 4) && within 1 (f 0x40 4) (f 0x44 4) &&
    within 1 4096 (f 0x48 2) && within 1 32 (f 0x4A 1) && within 1 255 (f 0x4B 1) && within 1 16384 (f 0x4C 2) &&
    within 0 3 (f 0x4E 1) && decide (f 0x50 4 ≤ f 0x54 4) && f 0xC 4 == 0 && f 0x24 4 == 0 && f 0x4F 1 == 0 &&
    f 0x70 8 == 0 && f 0x78 8 == 0 && f 0 8 % 64 == 0 && f 0x18 8 % 64 == 0 && f 0x30 8 % 64 == 0 && f 0x38 8 % 64 == 0

/-- Some page of a range is a HOST page. -/
def anyHost (c : Nat) : List (Nat × Nat) → State → Bool × State
  | [], s => (false, s)
  | (va, _) :: rest, s =>
    let t := s.translate c va
    match t.1 with
    | some xl => if xl.host then (true, t.2) else anyHost c rest t.2
    | none => anyHost c rest t.2

def State.rangeHost (s : State) (c va n : Nat) : Bool × State := anyHost c (pieces (pieceFuel n) va n) s

/-- A pool descriptor's limits (Table SRV-6). -/
def poolDescOk (w : List Nat) : Bool :=
  let f (i : Nat) := w.getD i 0
  let p := PoolDesc.ofWords 0 0 0 w
  f 1 / 2 ^ 36 == 0 && within 2 8 p.lgT && within 1 (2 ^ 31) p.nids && f 2 / 2 ^ 48 == 0 && within 1 1024 p.layers &&
    within 4 65536 p.rowb && p.rowb % 4 == 0 && p.cbase % 4096 == 0 &&
    decide (p.cbase + p.cfr * p.frameBytes ≤ 0x8000000000) && f 7 / 2 == 0 &&
    (p.afr == 0 || (p.abase % 4096 == 0 && decide (0x8000000000 ≤ p.abase) &&
      decide (p.abase + p.afr * p.frameBytes ≤ memTop)))

/-! Plans (R259) -/

/-- A patch: argument offset, size, source. -/
def patchesOf (e : List Nat) : List (Nat × Nat × Nat) :=
  ([e.getD 2 0 % 2 ^ 32, e.getD 2 0 / 2 ^ 32, e.getD 3 0 % 2 ^ 32, e.getD 3 0 / 2 ^ 32]).map (fun p =>
    (p % 2 ^ 12, if p.testBit 12 then 8 else 4, p / 2 ^ 16 % 16))

/-- Reserved bits of the patches are zero. -/
def patchBitsOk (e : List Nat) : Bool :=
  ([e.getD 2 0 % 2 ^ 32, e.getD 2 0 / 2 ^ 32, e.getD 3 0 % 2 ^ 32, e.getD 3 0 / 2 ^ 32]).all (fun p =>
    p / 2 ^ 13 % 8 == 0 && p / 2 ^ 20 == 0)

def xsrc (e : List Nat) : Nat := e.getD 1 0 % 4
def xdiv (e : List Nat) : Nat := e.getD 1 0 / 2 ^ 32

/-- A plan entry with its kernel's record keeps R259. -/
def planEntryOk (e : List Nat) (r : KRec) (last : Bool) : Bool :=
  e.getD 1 0 / 4 % 2 ^ 30 == 0 && (xsrc e != 3 || within 1 65536 (xdiv e)) && patchBitsOk e &&
    (patchesOf e).all (fun p => p.2.2 == 0 ||
      (decide (p.2.2 ≤ 8) && decide (p.1 + p.2.1 ≤ r.argBytes) && p.1 % p.2.1 == 0)) &&
    !(r.flags.testBit 0 && xsrc e != 0) &&
    (!last || (match r.roles[3]? with
      | some x => x.groups != 0
      | none => false))

/-- Read a plan with its packets: entries and packets, or none where it is refused. -/
def State.readPlan (s : State) (c va : Nat) : Acc (Option (List (List Nat) × List Nat)) :=
  (s.vread c va 16 false).go (fun h s =>
    let n := h % 256
    if h / 256 != 0 || !within 1 16 n then (.ok none, s) else
    (s.vread c (va + 16) (32 * n) false).go (fun x s =>
      let entries := (List.range n).map (fun i => wordsOf (byteField x (32 * i) 32) 4)
      accFold (fun (acc : Option (List (List Nat) × List Nat)) (e : List Nat × Nat) s =>
        match acc with
        | none => (.ok none, s)
        | some (es, ps) =>
          (s.vread c (e.1.getD 0 0) 128 false).go (fun body s =>
            match s.loadedAt c (BitVec.ofNat 64 (bodyWord body 1)) with
            | none => (.ok none, s)
            | some k =>
              (s.readRecord c k.krec.toNat).go (fun r s =>
                if planEntryOk e.1 r (e.2 + 1 == n) then (.ok (some (es ++ [e.1], ps ++ [body])), s) else (.ok none, s))))
        entries.zipIdx (some ([], [])) s))

/-! Records (Table SRV-2) -/

def Rec.get (r : Rec) (w lo n : Nat) : Nat := (sget r.words w).toNat / 2 ^ lo % 2 ^ n
def Rec.put (r : Rec) (w lo n v : Nat) : Rec :=
  { r with words := sset r.words w (BitVec.ofNat 64 (putField (sget r.words w).toNat lo n v)) }

def Rec.state (r : Rec) : Nat := r.get 1 0 3
def Rec.prio (r : Rec) : Nat := r.get 1 4 2
def Rec.prompt (r : Rec) : Nat := r.get 2 0 32
def Rec.maxNew (r : Rec) : Nat := r.get 2 32 32
def Rec.kvLen (r : Rec) : Nat := r.get 3 0 32
def Rec.gen (r : Rec) : Nat := r.get 3 32 32
def Rec.btable (r : Rec) : Nat := r.get 4 0 64
def Rec.nPages (r : Rec) : Nat := r.get 5 0 32
def Rec.pool (r : Rec) : Nat := r.get 5 32 8
def Rec.lastTok (r : Rec) : Nat := r.get 8 0 32
def Rec.setState (r : Rec) (v : Nat) : Rec := r.put 1 0 3 v

def recWaiting : Nat := 0
def recPrefill : Nat := 1
def recDecode : Nat := 2
def recSwapped : Nat := 3
def recDone : Nat := 4
def recAborted : Nat := 5

/-- A record of an instance. -/
def State.recOf (s : State) (num idx : Nat) : Option Rec := s.recs.find? (fun r => r.inst == num && r.idx == idx)
def State.onRec (s : State) (num idx : Nat) (f : Rec → Rec) : State :=
  { s with recs := s.recs.map (fun r => if r.inst = num ∧ r.idx = idx then f r else r) }
def State.recsOf (s : State) (num : Nat) : List Rec := s.recs.filter (fun r => r.inst == num)

/-- The instance as it stands. -/
def State.inst (s : State) (num : Nat) : Option Inst := s.insts.find? (fun x => x.num == num)

/-- The pool of a record. -/
def State.poolFor (s : State) (x : Inst) (r : Rec) : Option PoolDesc := (s.poolOf x r.pool).map (·.2)

/-! Emission (R253) -/

/-- Free places of the emission ring. -/
def Inst.room (x : Inst) (s : State) : Acc Nat :=
  (x.read (x.desc + 0x2C) 4 s).go (fun ehead s =>
    (.ok ((ehead + x.ecap + 2 ^ 32 - ((s.inst x.num).getD x).etail) % 2 ^ 32), s))

/-- Write an emission entry, and then advance ETAIL past it. -/
def Inst.emit (x : Inst) (reqId kind index token : Nat) (last : Bool) (s : State) : Acc Unit :=
  let etail := ((s.inst x.num).getD x).etail
  let w1 := token % 2 ^ 32 + index % 2 ^ 24 * 2 ^ 32 + kind * 2 ^ 56 + (if last then 2 ^ 60 else 0)
  (x.write (x.ering + 16 * (etail % x.ecap)) 16 (reqId + w1 * 2 ^ 64) s).go (fun _ s =>
    let n := (etail + 1) % 2 ^ 32
    x.write (x.desc + 0x28) 4 n (s.onInst x.num (fun x => { x with etail := n })))

/-- Release the pages of a record's block table: an entry that names no page of the context is skipped (R261). -/
def Inst.releasePages (x : Inst) (r : Rec) (s : State) : Acc Unit :=
  match s.poolFor x r with
  | none => (.ok (), s)
  | some p =>
    (x.read r.btable (4 * r.nPages) s).go (fun t s =>
      (.ok (), (unpackIds t r.nPages).foldl (fun s id => if id = 0xFFFFFFFF then s else s.unrefPage s.wellhead p id) s))

/-- Free a record: it is used again only from a later admission. -/
def State.freeRec (s : State) (num idx : Nat) : State :=
  { s with recs := s.recs.filter (fun r => !(r.inst == num && r.idx == idx)) }.onInst num
    (fun x => { x with freed := idx :: x.freed })

/-- End a record (R261): STATE and CAUSE, an emission entry, its pages, the record. -/
def Inst.endRec (x : Inst) (idx state cause kind : Nat) (s : State) : Acc Unit :=
  match s.recOf x.num idx with
  | none => (.ok (), s)
  | some r =>
    let s := s.onRec x.num idx (fun r => (r.setState state).put 1 32 32 cause)
    (x.emit (r.get 0 0 64) kind cause 0 true s).go (fun _ s =>
      let s := s.onInst x.num (fun x => { x with batch := x.batch.map (fun e => if e.idx = idx then { e with ended := true } else e) })
      (x.releasePages r s).go (fun _ s => (.ok (), s.freeRec x.num idx)))

/-! Admission (R251, R252, R264) -/

/-- The record that an entry's words make. -/
def recOfEntry (num idx step : Nat) (e : List Nat) : Rec :=
  let f (i : Nat) := e.getD i 0
  let keep := [0, 2, 4, 5, 6, 7, 10, 11, 12, 13, 14] ++ (List.range 8).map (· + 16)
  let w := (List.range 32).map (fun i =>
    if keep.contains i then f i
    else if i = 1 then f 1 / 2 ^ 4 % 4 * 2 ^ 4
    else if i = 3 then f 3 % 2 ^ 32
    else if i = 9 then step
    else 0)
  { idx := idx, inst := num,
    words := (w.zipIdx.filter (fun x => x.1 != 0)).map (fun x => (x.2, BitVec.ofNat 64 x.1)) }

/-- The checks of R252 that need no page. An entry whose PROMPT or MAXNEW is above the range of Table SRV-2, or whose BTABLE is not
4-byte aligned as that table has it, is refused too, which R252's list does not say (DESIGN CHOICE, log entry 123). -/
def entryOk (p : PoolDesc) (e : List Nat) : Bool :=
  let f (i : Nat) := e.getD i 0
  let prompt := f 2 % 2 ^ 32
  let maxNew := f 2 / 2 ^ 32
  let kv := f 3 % 2 ^ 32
  f 1 / 2 ^ 10 % 2 ^ 22 == 0 && f 1 / 8 % 2 == 0 && f 1 / 2 ^ 6 % 4 == 0 && f 5 / 2 ^ 40 == 0 && f 7 % 2 ^ 32 == 0 &&
    f 8 / 2 ^ 32 == 0 && f 15 == 0 && ((List.range 8).all (fun i => f (24 + i) == 0)) &&
    within 1 (2 ^ 31) prompt && within 1 (2 ^ 31) maxNew && decide (kv < prompt) &&
    decide (prompt + maxNew ≤ f 7 / 2 ^ 32 * p.tokens) && (kv + p.tokens - 1) / p.tokens == f 5 % 2 ^ 32 && f 4 % 4 == 0

/-- Reference a list of prefix pages as `KVREF` does, all or none. -/
def State.refPages (s : State) (p : PoolDesc) (ids : List Nat) : Bool × State :=
  let r := s.kvAct s.wellhead p .kvref ids.length ids true
  (r.1 == some kvOk, r.2.2)

/-- The lowest record index that is neither held nor just freed. -/
def State.freeRecIdx (s : State) : Option Nat :=
  (List.range 16384).find? (fun i => !s.recs.any (fun r => r.idx == i) && !s.insts.any (fun x => x.freed.contains i))

/-- Take a NEW entry: true where it became a record. -/
def Inst.accept (x : Inst) (e : List Nat) (idx : Nat) (s : State) : Acc Bool :=
  match (s.poolOf x (e.getD 5 0 / 2 ^ 32 % 256)).map (·.2) with
  | none => (.ok false, s)
  | some p =>
    if !entryOk p e then (.ok false, s) else
    let n := e.getD 5 0 % 2 ^ 32
    (x.read (e.getD 4 0) (4 * n) s).go (fun t s =>
      let r := s.refPages p (unpackIds t n)
      if r.1 then (.ok true, { r.2 with recs := r.2.recs ++ [recOfEntry x.num idx x.step e] }) else (.ok false, r.2))

/-- Advance AHEAD past an entry. -/
def Inst.taken (x : Inst) (ahead : Nat) (s : State) : Acc Unit :=
  let n := (ahead + 1) % 2 ^ 32
  x.write (x.desc + 0x14) 4 n (s.onInst x.num (fun x => { x with ahead := n }))

/-- Take entries while they last: true where admission stopped for want of emission room. -/
def Inst.admission (x : Inst) : Nat → State → Acc Bool
  | 0, s => (.ok false, s)
  | fuel + 1, s =>
    (x.read (x.desc + 0x10) 4 s).go (fun atail s =>
      let ahead := ((s.inst x.num).getD x).ahead
      if atail = ahead then (.ok false, s) else
      (x.read (x.aring + 256 * (ahead % x.acap)) 256 s).go (fun b s =>
        let e := wordsOf b 32
        let kind := e.getD 1 0 % 8
        (x.room s).go (fun room s =>
          let spare := room - 2 * x.maxSeq
          let next (s : State) : Acc Bool := (x.taken ahead s).go (fun _ s => x.admission fuel s)
          let refuse (s : State) : Acc Bool :=
            if spare < 1 then (.ok true, s) else (x.emit (e.getD 0 0) 2 7 0 true s).go (fun _ s => next s)
          if kind = 7 then
            let hit := sortBy (fun a b => decide (a < b)) (((s.recsOf x.num).filter (fun r =>
              r.get 0 0 64 == e.getD 0 0 && decide (r.state < recDone))).map (fun (r : Rec) => r.idx))
            (accFold (fun _ i s => x.endRec i recAborted 3 2 s) (hit.take spare) () s).go (fun _ s =>
              if spare < hit.length then (.ok true, s) else next s)
          else if kind != 0 then refuse s
          else
            match (if (s.recsOf x.num).length < x.recQuota then s.freeRecIdx else none) with
            | none => (.ok false, s)
            | some idx =>
              (x.accept e idx s).go (fun ok s => if ok then next s else refuse s))))

/-! Order of the active set, and swapping (R249, R255, R256) -/

/-- Rank of a state in the order. -/
def stateRank (st : Nat) : Nat := if st = recDecode then 0 else if st = recPrefill then 1 else 2

def Inst.effPrio (x : Inst) (r : Rec) : Nat := r.prio - (x.step - r.get 9 0 64) / x.ageSteps

/-- Keys 2 to 4 of R256. -/
def Inst.before (x : Inst) (a b : Rec) : Bool :=
  decide (x.effPrio a < x.effPrio b) || (x.effPrio a == x.effPrio b && (decide (a.get 9 0 64 < b.get 9 0 64) ||
    (a.get 9 0 64 == b.get 9 0 64 && decide (a.idx < b.idx))))

/-- Records of the active set in order, or the WAITING ones. -/
def State.active (s : State) (x : Inst) : List Rec :=
  sortBy (fun a b => decide (stateRank a.state < stateRank b.state) ||
      (stateRank a.state == stateRank b.state && x.before a b))
    ((s.recsOf x.num).filter (fun r => within recPrefill recSwapped r.state))
def State.waitingRecs (s : State) (x : Inst) : List Rec :=
  sortBy x.before ((s.recsOf x.num).filter (fun r => r.state == recWaiting))

/-- Members of the active set: records that are not WAITING (R252). -/
def State.members (s : State) (x : Inst) : Nat := ((s.recsOf x.num).filter (fun r => r.state != recWaiting)).length

/-- An instance's share of the active set (R249). -/
def State.share (s : State) (x : Inst) : Nat := 1 + 4080 * x.recQuota / (s.insts.map (·.recQuota)).sum

/-- Free cistern frames of an instance's pools. -/
def State.freeCistern (s : State) (x : Inst) : Nat :=
  ((s.pools.filter (fun p => p.inst == x.num)).map (fun k =>
    s.freeFrames (PoolDesc.ofWords x.num k.pool x.ctx k.desc) 0)).sum

/-- Pages of a record that a swap moves, by the tier they lie in: granted ones that are not pinned; on the way out, only those of
REFS 1. -/
def State.swapPages (s : State) (p : PoolDesc) (ids : List Nat) (tier : Nat) : List Nat :=
  ids.filter (fun id =>
    match (s.pageOf p id).1 with
    | some (_, w1) => pageTier w1 == tier && (tier == 1 || pageRefs w1 == 1) && !pagePinned w1
    | none => false)

/-- Move a record's pages to a tier where they fit: true where it was done. -/
def Inst.swap (x : Inst) (r : Rec) (tier : Nat) (s : State) : Acc Bool :=
  match s.poolFor x r with
  | none => (.ok false, s)
  | some p =>
    (x.read r.btable (4 * r.nPages) s).go (fun t s =>
      let ids := s.swapPages p (unpackIds t r.nPages) (1 - tier)
      if s.freeFrames p tier < ids.length then (.ok false, s)
      else
        let s := ids.foldl (fun s id => s.movePage s.wellhead p tier id) s
        (.ok true, s.onRec x.num r.idx (fun r =>
          if tier = 1 then (r.setState recSwapped).put 1 9 1 1 else (r.setState recDecode).put 1 9 1 0)))

/-- Swap out while free frames are below SWAPLOW. -/
def Inst.swapOut (x : Inst) : Nat → State → Acc Unit
  | 0, s => (.ok (), s)
  | fuel + 1, s =>
    if x.swapLow ≤ s.freeCistern x then (.ok (), s) else
    match (s.active x).drop 1 |>.filter (fun r => r.state == recDecode) |>.getLast? with
    | none => (.ok (), s)
    | some r => (x.swap r 1 s).go (fun ok s => if ok then x.swapOut fuel s else (.ok (), s))

/-- Swap in the records whose pages fit, where free frames are at or above SWAPHIGH. -/
def Inst.swapIn (x : Inst) (s : State) : Acc Unit :=
  if s.freeCistern x < x.swapHigh then (.ok (), s) else
  accFold (fun _ (r : Rec) s => (x.swap r 0 s).go (fun _ s => (.ok (), s)))
    ((s.active x).filter (fun r => r.state == recSwapped)) () s

def Inst.swapping (x : Inst) (s : State) : Acc Unit :=
  (x.swapOut (s.recsOf x.num).length s).go (fun _ s => x.swapIn s)

/-- A swap-in has become possible. -/
def Inst.canSwapIn (x : Inst) (s : State) : Bool :=
  (s.recsOf x.num).any (fun r => r.state == recSwapped) && decide (x.swapHigh ≤ s.freeCistern x)

/-! Batches (R256, R257) -/

/-- Consider one record for the batch: budget left, batch so far, and members of the active set. -/
structure Forming where
  budget : Nat
  batch : List BEntry
  active : Nat
  stop : Bool

def Inst.consider (x : Inst) (f : Forming) (r0 : Rec) (s : State) : Acc Forming :=
  match s.recOf x.num r0.idx with
  | none => (.ok f, s)
  | some r =>
    if f.stop || f.batch.length == x.maxSeq || f.budget == 0 then (.ok { f with stop := true }, s)
    else if r.state == recWaiting && decide (s.share x ≤ f.active) then (.ok { f with stop := true }, s)
    else
      match s.poolFor x r with
      | none => (.ok f, s)
      | some p =>
        let dec := r.state == recDecode
        let len := if dec then 1 else min (min (r.prompt - r.kvLen) x.chunkMax) f.budget
        let need := (r.kvLen + len + p.tokens - 1) / p.tokens - r.nPages
        let q := r.kvLen / p.tokens
        let old : Acc Nat := if q < r.nPages then x.read (r.btable + 4 * q) 4 s else (.ok 0xFFFFFFFF, s)
        old.go (fun id s =>
          let w := s.pageOf p id
          let cow : Nat := match w.1 with
            | some (_, w1) => if 1 < pageRefs w1 then 1 else 0
            | none => 0
          let s := w.2
          if !s.canGrant p (need + cow) then (.ok f, s)
          else
            let g := s.grantPages s.wellhead p need true
            (if need = 0 then (.ok (), g.2) else x.write (r.btable + 4 * r.nPages) (4 * need) (packIds g.1) g.2 : Acc Unit).go (fun _ s =>
              let s := s.onRec x.num r.idx (fun r => r.put 5 0 32 (r.nPages + need))
              let c := if cow = 1 then s.cowPage s.wellhead p id true else (id, s)
              (if cow = 1 then x.write (r.btable + 4 * q) 4 c.1 c.2 else (.ok (), c.2) : Acc Unit).go (fun _ s =>
                let s := if r.state = recWaiting then s.onRec x.num r.idx (fun r => r.setState recPrefill) else s
                let e : BEntry := { idx := r.idx, pos := r.kvLen, len := len, sample := dec || r.kvLen + len == r.prompt,
                                    dec := dec, emitted := false, counted := false, ended := false }
                (.ok { f with budget := f.budget - len, batch := f.batch ++ [e],
                              active := f.active + (if r.state = recWaiting then 1 else 0) }, s))))

/-- Form the batch. -/
def Inst.form (x : Inst) (s : State) : Acc (List BEntry) :=
  let act := s.active x
  (accFold x.consider ((act.filter (fun r => r.state != recSwapped)) ++ s.waitingRecs x)
    { budget := x.tb, batch := [], active := act.length, stop := false } s).go (fun f s => (.ok f.batch, s))

/-! Step buffers (R258) -/

/-- Addresses of a step buffer's parts: header, batch table, tokens, positions. -/
def Inst.bufAt (x : Inst) : Nat × Nat × Nat × Nat :=
  let b := x.stepBuf + x.step % 2 * stepBytes x.maxSeq x.tb
  (b, b + 64, b + 64 + 16 * x.maxSeq, b + 64 + 16 * x.maxSeq + 4 * x.tb)

def Inst.nTok (x : Inst) : Nat := (x.batch.map (·.len)).sum
def Inst.nSg (x : Inst) : Nat := (x.batch.length + x.sgSize - 1) / x.sgSize

/-- Write one batch entry with its tokens and positions; answers the tokens before the next entry. -/
def Inst.publishEntry (x : Inst) (toff : Nat) (e : BEntry × Nat) (s : State) : Acc Nat :=
  let a := x.bufAt
  let b := e.1
  let w0 := b.idx + (if b.sample then 2 ^ 14 else 0) + b.pos * 2 ^ 32
  let w1 := b.len + toff * 2 ^ 32
  (x.write (a.2.1 + 16 * e.2) 16 (w0 + w1 * 2 ^ 64) s).go (fun _ s =>
    match s.recOf x.num b.idx with
    | none => (.ok (toff + b.len), s)
    | some r =>
      (if b.dec then (.ok r.lastTok, s) else x.read (r.get 6 0 64 + 4 * b.pos) (4 * b.len) s : Acc Nat).go (fun toks s =>
        (x.write (a.2.2.1 + 4 * toff) (4 * b.len) toks s).go (fun _ s =>
          (x.write (a.2.2.2 + 4 * toff) (4 * b.len) (packIds ((List.range b.len).map (· + b.pos))) s).go (fun _ s =>
            (.ok (toff + b.len), s)))))

def Inst.publish (x : Inst) (s : State) : Acc Unit :=
  let a := x.bufAt
  let hdr := [x.step, x.batch.length + x.nTok * 2 ^ 32, a.2.1, a.2.2.1, a.2.2.2, x.nSg + x.sgSize * 2 ^ 32, 0, 0]
  (x.write a.1 64 (hdr.foldr (fun w n => w % 2 ^ 64 + 2 ^ 64 * n) 0) s).go (fun _ s =>
    (accFold x.publishEntry x.batch.zipIdx 0 s).go (fun _ s => (.ok (), s)))

/-! Plan entries (R259, R260) -/

/-- The value of a patch's source. -/
def Inst.source (x : Inst) (src : Nat) : Nat :=
  let a := x.bufAt
  match src with
  | 1 => x.step
  | 2 => x.batch.length
  | 3 => x.nTok
  | 4 => a.1
  | 5 => a.2.1
  | 6 => a.2.2.1
  | 7 => a.2.2.2
  | _ => x.nSg

/-- X of a plan entry's launch. -/
def Inst.dimX (x : Inst) (e : List Nat) (own : Nat) : Nat :=
  match xsrc e with
  | 0 => own
  | 1 => x.nSg
  | 2 => x.batch.length
  | _ => (x.nTok + xdiv e - 1) / xdiv e

/-- Launch plan entry i: its argument copy takes the patches, and the iteration waits for its grid. -/
def State.launchPlan (s : State) (x : Inst) (i : Nat) : State :=
  let e := x.plan.getD i []
  let body := x.packets.getD i 0
  let body := putField body 128 32 (x.dimX e (bodyWord body 2 % 2 ^ 32))
  let r := s.enterLaunch
    { ctx := x.ctx, level := x.level, issuer := .plan x.num, depth := 0, inst := some x.num,
      seqBase := BitVec.ofNat 64 (if xsrc e = 1 then x.sgSize else 0), step := BitVec.ofNat 64 x.step } body
  match r.1 with
  | .grid n =>
    let s := (patchesOf e).foldl (fun (s : State) p =>
      if p.2.2 = 0 then s else s.setMem (ssetLE s.mem (argPlace n + p.1) p.2.1 (x.source p.2.2))) r.2
    (s.onInst x.num (fun x => { x with phase := .grids i n })).testDependence n
  | _ => r.2.haltInst x.num i GridStatus.killed.word (.start 3)

/-! The iteration (R254) -/


/-- A fault of the Wellhead's own access in a phase (R481). -/
def State.ownFault (s : State) (num : Nat) (cause : Cause) (resume : StepPhase) : State :=
  s.haltInst num 0xFF (GridStatus.faulted 0 cause).word resume

/-- A phase that may fail, for the instance as it now stands. -/
def State.phase (s : State) (num : Nat) (at_ : StepPhase) (f : Inst → State → Acc Unit) (next : State → State) : State :=
  match s.inst num with
  | none => s
  | some x =>
    let r := f x s
    match r.1 with
    | .error e => r.2.ownFault num e.1.cause at_
    | .ok () => next r.2

/-- Phases 4 and 5: the step buffer, and the first plan entry. -/
def State.phase4 (s : State) (num : Nat) : State :=
  s.phase num (.start 4) (fun x s => x.publish s) (fun s =>
    match s.inst num with
    | none => s
    | some x => s.launchPlan x 0)

/-- Phase 3 on: an empty batch launches nothing and waits. -/
def State.phase3 (s : State) (num : Nat) (idle : Nat × Nat × Bool) : State :=
  s.phase num (.start 3)
    (fun x s => (x.form s).go (fun b s => (.ok (), s.onInst num (fun x => { x with batch := b })))) (fun s =>
      match s.inst num with
      | none => s
      | some x =>
        if x.batch.isEmpty then s.onInst num (fun x => { x with phase := .start 1, idle := some idle })
        else (s.onInst num (fun x => { x with idle := none })).phase4 num)

/-- Phases 1 and 2. -/
def State.phase1 (s : State) (num : Nat) : State :=
  let s := s.onInst num (fun x => { x with freed := [] })
  match s.inst num with
  | none => s
  | some x =>
    let a := (x.admission (x.acap + 1) s).go (fun full s =>
      (x.read (x.desc + 0x10) 4 s).go (fun atail s => (x.read (x.desc + 0x2C) 4 s).go (fun ehead s => (.ok (atail, ehead, full), s))))
    match a.1 with
    | .error e => a.2.ownFault num e.1.cause (.start 1)
    | .ok idle => a.2.phase num (.start 2) (fun x s => x.swapping s) (fun s => s.phase3 num idle)

/-- An instance between iterations has work and emission room (R253, R254). -/
def Inst.mayBegin (x : Inst) (s : State) : Acc Bool :=
  (x.room s).go (fun room s =>
    if room < 2 * x.maxSeq + 16 then (.ok false, s) else
    match x.idle with
    | none => (.ok true, s)
    | some (at0, eh0, full) =>
      (x.read (x.desc + 0x10) 4 s).go (fun atail s => (x.read (x.desc + 0x2C) 4 s).go (fun ehead s =>
        (.ok (atail != at0 || (full && ehead != eh0) || x.canSwapIn s), s))))

/-! Stops (R480) -/

/-- A page of the instance's pools is in flight: the Wellhead waits for its move (R255, R265). -/
def State.instMoves (s : State) (x : Inst) : Bool := s.movesIn (fun _ => false) (fun q => q.inst == x.num)

/-- A context lets the Wellhead begin a phase (R284), and no page of the instance's pools is in flight (R255). -/
def State.mayServe (s : State) (x : Inst) : Bool :=
  x.status == .running && !s.instMoves x && (match s.ctx x.ctx with
    | some c => c.phase == .running
    | none => true)

/-- End a stopping instance: its records without entries, STATUS, its number; the packet of the stop may commit. -/
def State.finishStop (s : State) (num : Nat) : State :=
  match s.inst num with
  | none => s
  | some x =>
    let s := (s.recsOf num).foldl (fun s r => (x.releasePages r s).2) s
    let s := (s.vwrite s.wellhead x.ctx (x.desc + 0x68) 8 0 false).2
    let s := { s with recs := s.recs.filter (fun r => r.inst != num), insts := s.insts.filter (fun x => x.num != num),
                      pools := s.pools.filter (fun p => p.inst != num) }
    x.stops.foldl (fun s p => s.onQueue p.1 (fun q => q.endPacket p.2 0 id)) s

/-- The instance's iteration has ended, or it has halted: a stop that waits takes effect. -/
def State.stopsNow (s : State) (x : Inst) : Bool :=
  !x.stops.isEmpty && (x.status == .halted || x.phase == .start 1) && !s.instMoves x

/-- A resumed iteration goes on from a phase (R260, R481). -/
def State.again (s : State) (num : Nat) : Nat → State
  | 2 => s.phase num (.start 2) (fun x s => x.swapping s) (fun s => s.phase3 num (0, 0, true))
  | 3 => s.phase3 num (0, 0, true)
  | 4 => s.phase4 num
  | _ =>
    match s.inst num with
    | some x => s.launchPlan x 0
    | none => s

/-- `ITERATION_BEGIN`: one instance begins, or takes up again, its iteration: admission, swapping, the batch, the step
buffer and the first plan entry. A repeated iteration waits for the places that its entries need (R253; DESIGN CHOICE, log entry
116). -/
def execIterationBegin (s : State) : Host.Outcome State Fault Refusal :=
  .next (match s.insts.find? (s.stopsNow ·) with
    | some x => s.finishStop x.num
    | none =>
      let ready := s.insts.filter (fun x => s.mayServe x && (match x.phase with
        | .start _ => true
        | _ => false))
      let d := s.pick ready.length
      match ready[d.1]? with
      | none => s
      | some x =>
        let s := d.2
        match x.phase with
        | .start 1 =>
          let r := x.mayBegin s
          (match r.1 with
           | .error e => r.2.ownFault x.num e.1.cause (.start 1)
           | .ok false => r.2
           | .ok true => r.2.phase1 x.num)
        | .start k =>
          let r := x.room s
          (match r.1 with
           | .error e => r.2.ownFault x.num e.1.cause x.phase
           | .ok room => if room < 2 * x.maxSeq then r.2 else r.2.again x.num k)
        | _ => s)

/-- The grid that an instance waits for has completed. -/
def State.planGridOver (s : State) (x : Inst) : Option Nat :=
  match x.phase with
  | .grids i n =>
    match s.grid n with
    | some gr => if gr.complete && gr.status == .done then some i else none
    | none => none
  | _ => none

/-- `PLAN_ENTRY_LAUNCH`: the next plan entry of an instance whose last entry's grid has completed (R260). -/
def execPlanEntryLaunch (s : State) : Host.Outcome State Fault Refusal :=
  let ready := s.insts.filterMap (fun x =>
    match s.planGridOver x with
    | some i => if s.mayServe x && decide (i + 1 < x.plan.length) then some (x, i) else none
    | none => none)
  let d := s.pick ready.length
  .next (match ready[d.1]? with
    | none => d.2
    | some (x, i) =>
      let n := match x.phase with
        | .grids _ n => n
        | _ => 0
      { d.2 with grids := adel d.2.grids n }.launchPlan x (i + 1))

/-! Retirement (R261) -/

/-- Retire one batch entry. -/
def Inst.retireEntry (x : Inst) (e : BEntry) (s : State) : Acc Unit :=
  match s.recOf x.num e.idx with
  | none => (.ok (), s)
  | some r0 =>
    let s := if e.counted then s else
      (s.onRec x.num e.idx (fun r => r.put 3 0 32 (r0.kvLen + e.len))).onInst x.num (fun x =>
        { x with batch := x.batch.map (fun b => if b.idx = e.idx then { b with counted := true } else b) })
    if e.ended then (x.releasePages r0 s).go (fun _ s => (.ok (), s.freeRec x.num e.idx)) else
    let r := (s.recOf x.num e.idx).getD r0
    if e.sample && !e.emitted then x.endRec e.idx recAborted 5 2 s
    else if r.get 1 8 1 = 1 then x.endRec e.idx recDone 1 1 s
    else if r.gen = r.maxNew then x.endRec e.idx recDone 2 1 s
    else if r.state = recPrefill ∧ r.kvLen = r.prompt then (.ok (), s.onRec x.num e.idx (fun r => r.setState recDecode))
    else (.ok (), s)

/-- Retire the batch from an entry on; a fault halts the instance at the entry it met. -/
def State.retireFrom (num : Nat) : Nat → Nat → State → State
  | 0, _, s => s
  | fuel + 1, k, s =>
    match s.inst num with
    | none => s
    | some x =>
      match x.batch[k]? with
      | none =>
        s.phase num (.retiring k) (fun x s => x.write (x.desc + 0x60) 8 (x.step + 1) s) (fun s =>
          let s := s.onInst num (fun x => { x with step := x.step + 1, phase := .start 1, batch := [] })
          match s.inst num with
          | some x => if s.stopsNow x then s.finishStop num else s
          | none => s)
      | some e =>
        let r := x.retireEntry e s
        match r.1 with
        | .error err => r.2.ownFault num err.1.cause (.retiring k)
        | .ok () => State.retireFrom num fuel (k + 1) r.2

/-- `RETIREMENT`: the records of a finished step, in batch order, and then STEP. -/
def execRetirement (s : State) : Host.Outcome State Fault Refusal :=
  let ready := s.insts.filterMap (fun x =>
    if !s.mayServe x then none else
    match x.phase, s.planGridOver x with
    | .retiring k, _ => some (x, k)
    | _, some i => if i + 1 = x.plan.length then some (x, 0) else none
    | _, none => none)
  let d := s.pick ready.length
  .next (match ready[d.1]? with
    | none => d.2
    | some (x, k) =>
      let s := match x.phase with
        | .grids _ n => { d.2 with grids := adel d.2.grids n }
        | _ => d.2
      State.retireFrom x.num (x.batch.length + 1) k (s.onInst x.num (fun x => { x with phase := .retiring k })))

/-! Starts and resumes (R249, R480) -/

/-- A range can be written by an agent of the package. -/
def State.canWrite (s : State) (ctx va n : Nat) : Acc Unit :=
  let t := checkPieces ctx false (pieces (pieceFuel n) va n) s
  match t.1 with
  | .error e => (.error e, t.2)
  | .ok _ => (.ok (), t.2)

/-- The pool that an instance keeps, as its KPE sees it. -/
def Pool.asDesc (k : Pool) (ctx : Nat) : PoolDesc := PoolDesc.ofWords k.inst k.pool ctx k.desc

/-- Read the configured pools of an instance; none where one is outside its limits. -/
def State.readPools (s : State) (num ctx va : Nat) : Acc (Option (List Pool)) :=
  (s.vread ctx va 1024 false).go (fun x s =>
    accFold (fun (acc : Option (List Pool)) i s =>
      let w := wordsOf (byteField x (64 * i) 64) 8
      match acc with
      | none => (.ok none, s)
      | some ps =>
        if w.getD 7 0 % 2 = 0 then (.ok acc, s)
        else if !poolDescOk w then (.ok none, s)
        else
          let k : Pool := ⟨num, i, w, [], []⟩
          let p := k.asDesc ctx
          (s.canWrite ctx p.table (32 * p.nids)).go (fun _ s => (.ok (some (ps ++ [k])), s)))
      (List.range 16) (some []) s)

/-- Make the descriptors of an instance's pools zero: each pool's KPE (R263). -/
def State.clearPools (s : State) (ctx : Nat) (ps : List Pool) : State :=
  ps.foldl (fun s k =>
    let p := k.asDesc ctx
    (s.vwrite (s.agent 2 (dieOfPa p.cbase)) ctx p.table (32 * p.nids) 0 false).2) s

/-- Bytes of the plan at an address. -/
def State.planBytes (s : State) (ctx va : Nat) : Acc Nat :=
  (s.vread ctx va 16 false).go (fun h s => (.ok (16 + 32 * (h % 256)), s))

/-- Start an instance: true where the start is accepted. All of it is checked before anything is written (R480). -/
def State.serveStart (s : State) (ctx desc num : Nat) : Bool × State :=
  if (s.inst num).isSome then (false, s) else
  let r : Acc (Option Inst × List Pool) :=
    (s.vread ctx desc 128 false).go (fun b s =>
      let w := wordsOf b 16
      let f := wordField w
      if !descOk w || decide (16384 < ((s.insts.filter (·.status == .running)).map (·.recQuota)).sum + f 0x4C 2) then (.ok (none, []), s) else
      let h1 := s.rangeHost ctx (f 0 8) (256 * f 8 4)
      let h2 := h1.2.rangeHost ctx (f 0x18 8) (16 * f 0x20 4)
      (h2.2.planBytes ctx (f 0x30 8)).go (fun bytes s =>
      let h3 := s.rangeHost ctx (f 0x30 8) bytes
      let h4 := h3.2.rangeHost ctx (f 0x38 8) (2 * stepBytes (f 0x48 2) (f 0x40 4))
      if h1.1 || h2.1 || h3.1 || h4.1 then (.ok (none, []), h4.2) else
      (h4.2.readPlan ctx (f 0x30 8)).go (fun pl s =>
        match pl with
        | none => (.ok (none, []), s)
        | some (es, ps) =>
          (s.readPools num ctx (f 0x58 8)).go (fun pools s =>
            match pools with
            | none => (.ok (none, []), s)
            | some pools =>
              (s.canWrite ctx (desc + 0x68) 8).go (fun _ s =>
                (.ok (some { num := num, ctx := ctx, desc := desc, words := w, status := .running, ahead := f 0x14 4,
                             etail := f 0x28 4, step := f 0x60 8, phase := .start 1, batch := [], plan := es, packets := ps,
                             idle := none, stops := [], freed := [] }, pools), s))))))
  match r.1 with
  | .ok (some x, pools) =>
    let s := ((r.2.clearPools ctx pools).vwrite r.2.wellhead ctx (desc + 0x68) 8 1 false).2
    (true, { s with insts := s.insts ++ [x], pools := s.pools ++ pools })
  | _ => (false, r.2)

/-- Resume a halted instance: true where the resume is accepted. -/
def State.serveResume (s : State) (ctx num : Nat) : Bool × State :=
  match s.inst num with
  | none => (false, s)
  | some x =>
    if x.status != .halted || x.ctx != ctx then (false, s) else
    let w := s.vwrite s.wellhead ctx (x.desc + 0x68) 8 1 false
    match w.1 with
    | .error _ => (false, w.2)
    | .ok () => (true, w.2.onInst num (fun x => { x with status := .running }))

/-! Record words (R262, R438) -/

/-- The instance whose sampling grid a team belongs to. -/
def State.sampler (s : State) (t : TRef) : Option Inst :=
  match s.team t with
  | none => none
  | some tm => s.insts.find? (fun x => x.phase == .grids (x.plan.length - 1) tm.grid)

/-- A record word: index bits, then the batch entry that the record must be. -/
def onRecord (s : State) (a : SReg) (k : GRef → Group → Inst → BEntry → Rec → State) : Host.Outcome State Fault Refusal :=
  onScalar s (fun g gr =>
    let va := (gr.sreg a).toNat
    if va / 2 ^ 14 != 0 then s.trapS g .illegal 0 va else
    match s.sampler (s.teamRefOf g) with
    | none => s.trapS g .protection 0 va
    | some x =>
      match x.batch.find? (fun e => e.idx == va), s.recOf x.num va with
      | some e, some r => k g gr x e r
      | _, _ => s.trapS g .protection 0 va)

/-- `RQGET`: one unit of the order, which every write performed before it precedes (R173, R262; log entry 17). -/
def execRqget (_bt : Bt) (word : Fin 32) (a b : SReg) (s : State) : Host.Outcome State Fault Refusal :=
  onRecord s a (fun g gr _ _ r => (s.acquire g.core).scalarDone g (gr.setS b (sget r.words word.val)) 1)

/-- Words that `RQSET` may write (Table SRV-2). -/
def recWritable (w : Nat) : Bool := within 10 14 w || within 16 23 w

/-- `RQSET`: one unit of the order, as `RQGET` is. -/
def execRqset (_bt : Bt) (word : Fin 32) (a b : SReg) (s : State) : Host.Outcome State Fault Refusal :=
  onRecord s a (fun g gr x _ r =>
    if !recWritable word.val then s.trapS g .protection 0 (gr.sreg a).toNat
    else ((s.acquire g.core).onRec x.num r.idx (fun r => { r with words := sset r.words word.val (gr.sreg b) })).scalarNext g)

/-- `RQEMIT`: the record as one unit, and then the emission entry; a fault on the ring is the Wellhead's own (R481). -/
def execRqemit (_bt : Bt) (a b : SReg) (s : State) : Host.Outcome State Fault Refusal :=
  onScalar s (fun g gr =>
    let va := (gr.sreg a).toNat
    let v := (gr.sreg b).toNat
    if va / 2 ^ 14 != 0 then s.trapS g .illegal 0 va
    else if v / 2 ^ 33 != 0 then s.trapS g .illegal 0 0
    else
      match s.sampler (s.teamRefOf g) with
      | none => s.trapS g .protection 0 va
      | some x =>
        match x.batch.find? (fun e => e.idx == va), s.recOf x.num va with
        | some e, some r =>
          if !e.sample || e.emitted then s.trapS g .protection 0 va
          else
            let gen := (r.gen + 1) % 2 ^ 32
            let stop := v.testBit 32
            let s := (s.acquire g.core).onRec x.num va (fun r => ((r.put 8 0 32 v).put 3 32 32 gen).put 1 8 1 (if stop then 1 else 0))
            let s := s.onInst x.num (fun x =>
              { x with batch := x.batch.map (fun b => if b.idx = va then { b with emitted := true } else b) })
            let m := x.emit (r.get 0 0 64) 0 r.gen v (stop || gen == r.maxNew) s
            (match m.1 with
             | .error err => (m.2.ownFault x.num err.1.cause (.start 5)).scalarNext g
             | .ok () => m.2.scalarNext g)
        | _, _ => s.trapS g .protection 0 va)

/-! `KVSEND` (R267) -/

/-- The send descriptor names a peer that can be reached. -/
def State.sendOk (s : State) (d : List Nat) : Bool :=
  let f (i : Nat) := d.getD i 0
  decide (f 0 ≤ 575) && s.ctl.joined && !s.lost.contains (f 0) && f 1 / 2 ^ 17 == 0 && f 1 / 2 ^ 14 % 4 == 0 &&
    f 2 / 16 == 0 && f 3 == 0

/-- Perform a `KVSEND`: its checks, and the record and pages on their way; the command waits for the peer. -/
def State.sendPerform (s : State) (t : TRef) (c : EngCmd) : State :=
  let ctx := s.ctxOf (t.group 0)
  if c.w 2 % 8 != 0 then s.engDone t c else
  let d := s.vread ctx (c.w 3) 32 true
  match d.1 with
  | .error e => d.2.kvBadAddr t c e
  | .ok y =>
    let w := wordsOf y 4
    let idx := w.getD 1 0 % 2 ^ 14
    let s := d.2
    match (s.instOf t).bind (fun x => (s.poolOf x (kvPool c.desc)).map (fun _ => x)) with
    | none => s.kvResult t c kvGeometry
    | some x =>
      if !s.sendOk w then s.kvResult t c kvPeer else
      match s.recOf x.num idx with
      | none => s.kvResult t c kvBadPage
      | some r =>
        if !within recPrefill recDecode r.state then s.kvResult t c kvBadPage
        else if x.batch.any (fun e => e.idx == idx) then s.kvResult t c kvBusy
        else
          match s.poolFor x r with
          | none => s.kvResult t c kvGeometry
          | some p =>
            let b := s.vread ctx r.btable (4 * r.nPages) false
            match b.1 with
            | .error _ => b.2.kvResult t c kvBadPage
            | .ok ids =>
              let pages := (unpackIds ids r.nPages).map (fun id =>
                match (b.2.pageOf p id).1 with
                | some (w0, _) => sgetLE b.2.mem (w0 % 2 ^ 52) p.frameBytes
                | none => 0)
              { (b.2.onTeam t (·.putCmd { c with landed := w })).onRec x.num idx (fun r => { r with sends := r.sends ++ [(t.core, t.slot, c.num)] }) with
                msgs := b.2.msgs ++ [.handoff (w.getD 0 0) (w.getD 2 0)
                  ((List.range 32).map (fun i => (sget r.words i).toNat)) pages] }

/-- `KV_COMMAND_PERFORM`: the oldest command of a team's KV context that has not reached the KPE is performed (R265). -/
def execKvCommandPerform (core slot : Nat) (s : State) : Host.Outcome State Fault Refusal :=
  let t : TRef := ⟨core, slot⟩
  .next (match (s.team t).bind (fun tm => tm.cmds.find? (fun c => c.cls == .kv && c.landed.isEmpty)) with
    | none => s
    | some c => if c.op = .kvsend then s.sendPerform t c else s.kvPerform t c)

/-- The record that a send of a command waits for, where it still stands: its index may have gone to another request since. -/
def State.sentRec (s : State) (num : Nat) (t : TRef) (c : EngCmd) : Option Rec :=
  (s.recsOf num).find? (fun r => r.sends.contains (t.core, t.slot, c.num))

/-- The send of a command is over: its record no longer waits for it. -/
def State.sendOver (s : State) (num : Nat) (t : TRef) (c : EngCmd) : State :=
  { s with recs := s.recs.map (fun r =>
      if r.inst = num then { r with sends := r.sends.filter (· != (t.core, t.slot, c.num)) } else r) }

/-- `KVSEND_COMPLETE`: the peer has acknowledged (0), refused or not answered (1), or has another geometry (2). With MOVE
and OK the local record ends as DONE with cause 6, once its MOVED entry has room. -/
def execKvsendComplete (core slot : Nat) (s : State) : Host.Outcome State Fault Refusal :=
  let t : TRef := ⟨core, slot⟩
  .next (match (s.team t).bind (fun tm => tm.cmds.find? (fun c => c.op == .kvsend && !c.landed.isEmpty)), s.instOf t with
    | some c, some x =>
      let d := s.pick 3
      let s := d.2
      let done (s : State) (status : Nat) : State := (s.sendOver x.num t c).kvResult t c status
      if d.1 = 1 then done s kvPeer
      else if d.1 = 2 then done s kvGeometry
      else
        (match (if (c.landed.getD 1 0).testBit 16 then s.sentRec x.num t c else none) with
         | none => done s kvOk
         | some r =>
           if x.batch.any (fun e => e.idx == r.idx) || s.instMoves x then s
           else
             let m := x.room s
             (match m.1 with
              | .error e => m.2.ownFault x.num e.1.cause x.phase
              | .ok room =>
                if room ≤ 2 * x.maxSeq then m.2
                else
                  let e := x.endRec r.idx recDone 6 3 m.2
                  match e.1 with
                  | .error err => done (e.2.ownFault x.num err.1.cause x.phase) kvOk
                  | .ok () => done e.2 kvOk))
    | some c, none => s.kvResult t c kvPeer
    | none, _ => s)

/-- Answer a peer's `KVSEND`. -/
def State.answerSend (s : State) (rank status : Nat) : State := { s with msgs := s.msgs ++ [.handoffAnswer rank status] }

/-- `KVSEND_RECEIVE`: a record comes from a peer, with the contents of its pages. An instance that runs, with a pool of the
same shape, a record and an active-set place within its quota and share (R249), and free pages, takes it and acknowledges; a
pool of another shape answers GEOMETRY, and anything else refuses. -/
def execKvsendReceive (s : State) : Host.Outcome State Fault Refusal :=
  let rank := s.pick 576
  let n := rank.2.pick 16
  let w := draws 32 n.2
  let shape := draws 3 w.2
  let s := shape.2
  .next (match s.inst n.1 with
    | none => s.answerSend rank.1 kvPeer
    | some x =>
      let r : Rec := { idx := 0, inst := n.1,
                       words := (w.1.zipIdx.filter (fun x => x.1 % 2 ^ 64 != 0)).map (fun x => (x.2, BitVec.ofNat 64 x.1)) }
      match x.status, s.poolFor x r, s.freeRecIdx with
      | .running, some p, some idx =>
        if shape.1 != [p.lgT, p.layers, p.rowb] then s.answerSend rank.1 kvGeometry
        else if !within recPrefill recDecode r.state || !s.canGrant p r.nPages || s.instMoves x ||
            decide (x.recQuota ≤ (s.recsOf x.num).length) || decide (s.share x ≤ s.members x) then s.answerSend rank.1 kvPeer
        else
          let g := s.grantPages s.wellhead p r.nPages true
          let s := g.1.foldl (fun (s : State) id =>
            match s.pageOf p id with
            | (some (w0, _), s) =>
              let d := s.draw
              d.2.putRange (w0 % 2 ^ 52) p.frameBytes 0 (ssetLE ([] : Store 8) 0 p.frameBytes d.1)
            | (none, s) => s) g.2
          let b := x.write r.btable (4 * r.nPages) (packIds g.1) s
          (match b.1 with
           | .error e => (b.2.ownFault x.num e.1.cause x.phase).answerSend rank.1 kvPeer
           | .ok () => { b.2 with recs := b.2.recs ++ [{ r with idx := idx }] }.answerSend rank.1 kvOk)
      | .running, none, _ => s.answerSend rank.1 kvGeometry
      | _, _, _ => s.answerSend rank.1 kvPeer)

end Sys2Proof.Machine
end

