-- ==== Sys2Proof/Machine/Queue.lean ====
section
/-! DEFINITION. Host queues (R315 to R323, R329): physical accesses, queue descriptors, the checks of queue programs, doorbells,
enabling and disabling, switching in and out, the taking of packets and their completion entries. -/

namespace Sys2Proof.Machine

/-- A request of the host reaches the device only through an enabled endpoint (R23). -/
def onLink (s : State) (s' : State) : Host.Outcome State Fault Refusal := .next (if s.endpointUp then s' else s)

/-! Physical accesses of the interpreter complex (DEDUCED, log entry 23) -/

/-- The bytes lie in device memory. -/
def inMemory (pa n : Nat) : Bool := decide (pa + n ≤ memTop)

/-- Read n bytes at a physical address, as units of the order. The spec gives the endpoint's accesses no width of unit: one access
is one unit here (DESIGN CHOICE, log entry 112). -/
def State.pread (s : State) (pa n : Nat) : Nat × State :=
  s.agentGet pa n

/-- Write n bytes at a physical address, as units of the order; those of a moraine frame send deltas (R302). What another
context left there is zeroed before (R172; log entry 74). -/
def State.pwrite (s : State) (pa n x : Nat) : State :=
  (writeUnits (s.agent 6 0) true 8 (n / 8 + 2) pa n x (s.takeOver none pa n none)).wakeObjects

/-! Windows and the verification of programs (R327) -/

/-- Bytes of the current packet's window. -/
def packetWindow : Nat := 1024

/-- Length of a window of a queue. -/
def windowLen (wins : List (Nat × Nat × Nat)) (w : QWin) : Nat :=
  if w.val = 0 then packetWindow else (wins.getD (w.val - 1) (0, 0, 0)).2.1

/-- A window may be read, or written. -/
def windowMay (wins : List (Nat × Nat × Nat)) (w : QWin) (write : Bool) : Bool :=
  if w.val = 0 then !write else (wins.getD (w.val - 1) (0, 0, 0)).2.2.testBit (if write then 1 else 0)

/-- Size code of a packet kind of Table HQ-4. -/
def kindLen (kind : Nat) : Option Nat :=
  if kind = 2 ∨ kind = 0x0A ∨ kind = 0x0B then some 1 else if kind = 6 then some 2 else if kind ≤ 0x0C then some 0 else none

/-- Bytes of a packet of a size code (R316). -/
def packetBytes (len : Nat) : Nat := 64 * 2 ^ len

/-- The window accesses of a word: window, whether it writes, offset and width. -/
def queueAccesses : Instr → List (QWin × Bool × Nat × Nat)
  | .qld _ w _ imm => [(w, false, imm.toNat, 8)]
  | .qldw _ w _ imm => [(w, false, imm.toNat, 4)]
  | .qstw w _ _ imm => [(w, true, imm.toNat, 4)]
  | .qlaunch _ w _ imm => [(w, false, imm.toNat, 128)]
  | .qcopy w _ w2 _ _ => [(w, true, 0, 4), (w2, false, 0, 4)]
  | .qsignal w _ _ imm => [(w, true, imm.toNat, 8)]
  | .qwaitv w _ _ imm => [(w, false, imm.toNat, 8)]
  | .qcallf _ w _ kind off => [(w, false, off.toNat, packetBytes ((kindLen kind.toNat).getD 0))]
  | _ => []

/-- A word of a program of n words, at a position, breaks none of the conditions of R327 that concern it alone. -/
def queueWordOk (wins : List (Nat × Nat × Nat)) (n pos : Nat) (i : Instr) : Bool :=
  (queueAccesses i).all (fun a =>
    windowMay wins a.1 a.2.1 && a.2.2.1 % a.2.2.2 == 0 && decide (a.2.2.1 < windowLen wins a.1)) &&
  (match i with
   | .qbr _ _ imm => decide (1 ≤ imm.toNat) && decide (pos + imm.toNat < n)
   | .qloop _ k len => within 1 64 k.toNat && decide (1 ≤ len.toNat) && decide (pos + 1 + len.toNat ≤ n)
   | .qcopy w _ w2 _ k => k.toNat % 4 == 0 && decide (k.toNat ≤ windowLen wins w) && decide (k.toNat ≤ windowLen wins w2)
   | .qfail code => code.toNat != 0
   | _ => true)

/-- The body of a loop at a position holds no other loop, and its branches reach at most one word past it. -/
def loopBodyOk (p : List Instr) (pos len : Nat) : Bool :=
  ((p.drop (pos + 1)).take len).zipIdx.all (fun x =>
    match x.1 with
    | .qloop _ _ _ => false
    | .qbr _ _ imm => decide (x.2 + imm.toNat ≤ len)
    | _ => true)

/-- A program that R327 accepts. -/
def programOk (wins : List (Nat × Nat × Nat)) (p : List Instr) : Bool :=
  p.zipIdx.all (fun x => queueWordOk wins p.length x.2 x.1 && (match x.1 with
    | .qloop _ _ len => loopBodyOk p x.2 len.toNat
    | _ => true)) &&
  (match p.getLast? with
   | some (.qdone _) | some (.qfail _) => true
   | _ => false)

/-- The words up to the first that is no instruction. -/
def queueWords : List Nat → List Instr
  | [] => []
  | w :: rest =>
    match decodeQueue w with
    | .ok i => i :: queueWords rest
    | .error _ => []

/-- Most words of a program. -/
def maxProgram : Nat := 1024

/-- How many words a program has: its least prefix that R327 accepts (DEDUCED, log entry 24). -/
def programLength (wins : List (Nat × Nat × Nat)) (words : List Nat) : Option Nat :=
  let p := queueWords words
  ((List.range p.length).map (· + 1)).find? (fun n => programOk wins (p.take n))

/-- Read and verify the program at an address: its words, or none where it is refused. -/
def State.loadProgram (s : State) (wins : List (Nat × Nat × Nat)) (pa : Nat) : Option (List Nat) × State :=
  let r := s.pread pa (8 * maxProgram)
  let ws := wordsOf r.1 maxProgram
  ((programLength wins ws).map (fun n => ws.take n), r.2)

/-! Queue descriptors (R315, Table HQ-1) -/

/-- The windows of a descriptor's 128 bytes. -/
def queueWindows (d : Nat) : List (Nat × Nat × Nat) :=
  [0x40, 0x50, 0x60].map (fun o => (byteField d o 8, byteField d (o + 8) 4, byteField d (o + 12) 4))

/-- No field lies outside its limits (DEDUCED, log entry 25). -/
def queueDescOk (d : Nat) : Bool :=
  let f := byteField d
  powerIn 4096 (2 ^ 20) (f 8 4) && f 0 8 % f 8 4 == 0 && inMemory (f 0 8) (f 8 4) &&
    powerIn 4 4096 (f 0x18 4) && inMemory (f 0x10 8) (8 * f 0x18 4) &&
    powerIn 64 65536 (f 0x28 4) && inMemory (f 0x20 8) (32 * f 0x28 4) &&
    decide (f 0x34 1 ≤ 3) && f 0x35 3 == 0 && f 0x74 12 == 0 &&
    (queueWindows d).all (fun w => w == (0, 0, 0) || (powerIn 8 (2 ^ 20) w.2.1 && decide (w.2.2 ≤ 3)))

/-- Queues that the interpreter complex can keep resident (R322). -/
def maxResident : Nat := 256

def State.residents (s : State) : Nat := (s.queues.filter (fun p => p.2.resident)).length

/-- A queue as its descriptor enables it (R315, R318, R321). -/
def Queue.enabled (q : Queue) (desc d : Nat) (prog : List Nat) (resident : Bool) (now : Nat) : Queue :=
  let f := byteField d
  { Queue.fresh with
    func := q.func, desc := desc, state := .idle, ctx := f 0x0C 4, level := f 0x34 1, seg := f 0 8, segBytes := f 8 4,
    seq := f 0x70 4, tail := f 0x70 4, progress := f 0x70 4, resident := resident, comp := f 0x20 8, ccap := f 0x28 4,
    ctail := f 0x2C 4, free := f 0x10 8, fcap := f 0x18 4, ftail := f 0x1C 4, prog := f 0x38 8, words := prog,
    wins := queueWindows d, tailAt := now }

/-- `QUEUE_ENABLE`: a nonzero DESC written to a DISABLED slot; refused where a field or the program is (R321). -/
def execQueueEnable (slot desc : Nat) (s : State) : Host.Outcome State Fault Refusal :=
  onLink s (
    let q := (s.queue slot).getD Queue.fresh
    if q.state != .disabled || desc == 0 || desc % 128 != 0 || !inMemory desc 128 || decide (4096 ≤ slot) then s else
    let r := s.pread desc 128
    if !queueDescOk r.1 then r.2 else
    let prog := byteField r.1 0x38 8
    let p := if prog = 0 then (some [], r.2) else r.2.loadProgram (queueWindows r.1) prog
    match p.1 with
    | none => p.2
    | some ws => p.2.setQueue slot (q.enabled desc r.1 ws (decide (p.2.residents < maxResident)) p.2.clock))

/-- `QUEUE_DISABLE`: 0 written to DESC of an enabled queue (R321). -/
def execQueueDisable (slot : Nat) (s : State) : Host.Outcome State Fault Refusal :=
  onLink s (s.onQueue slot (fun q => if q.state = .disabled then q else { q with disabling := true }))

/-- `QUEUE_DISABLED`: the last completion entry has been written; the descriptor takes CTAIL, FTAIL and NSEQ (R321). -/
def execQueueDisabled (slot : Nat) (s : State) : Host.Outcome State Fault Refusal :=
  .next (match s.queue slot with
    | none => s
    | some q =>
      if !q.disabling || !q.packets.isEmpty then s else
      let s := ((s.pwrite (q.desc + 0x2C) 4 q.ctail).pwrite (q.desc + 0x1C) 4 q.ftail).pwrite (q.desc + 0x70) 4 q.progress
      s.setQueue slot { Queue.fresh with func := q.func })

/-! Doorbells and residence (R320 to R322) -/

/-- IDLE or RUNNING, by what is pending. -/
def Queue.settled (q : Queue) : Queue :=
  { q with state := if q.state = .idle ∨ q.state = .running then
                      (if q.progress = q.tail ∧ q.packets.isEmpty then .idle else .running) else q.state }

/-- `DOORBELL_TAIL`: TAIL is taken, or captured in the shadow descriptor of a queue that is switched out; of a disabled
queue it is ignored. -/
def execDoorbellTail (slot tail : Nat) (s : State) : Host.Outcome State Fault Refusal :=
  onLink s (s.onQueue slot (fun q =>
    let t := tail % 2 ^ 32
    if q.state = .disabled then q
    else if q.resident then { q with tail := t, tailAt := s.clock }.settled
    else { q with shadowTail := some t, tailAt := s.clock }))

/-- The packet whose program runs. -/
def Queue.current (q : Queue) : Option Packet := if q.busy then q.packets.getLast? else none

/-- The oldest packet of a queue, where it may be committed: its program has ended and its grids have completed. -/
def Queue.committable (q : Queue) : Option Packet :=
  match q.packets with
  | [] => none
  | p :: rest =>
    if p.status.isSome && p.waitGrids.isEmpty && !(q.busy && rest.isEmpty) then some p else none

/-- There is room below CHEAD + CCAP (R318). -/
def State.completionRoom (s : State) (q : Queue) : Bool :=
  decide ((q.ctail + 2 ^ 32 - (s.pread (q.desc + 0x30) 4).1) % 2 ^ 32 < q.ccap)

/-- `QUEUE_SWITCH_OUT`: a queue is stopped at a packet boundary or inside `QWAITV`, once no packet waits to be committed. -/
def execQueueSwitchOut (slot : Nat) (s : State) : Host.Outcome State Fault Refusal :=
  .next (s.onQueue slot (fun q =>
    if q.resident && q.state != .disabled && (!q.busy || q.waitv.isSome) && (q.committable.isNone || !s.completionRoom q)
    then { q with resident := false } else q))

/-- What is switched in first: the lowest LEVEL, then the oldest pending TAIL (R322). -/
def switchFirst (a b : Nat × Queue) : Bool :=
  let key (q : Queue) : Nat := if q.shadowTail.isSome || q.seq != q.tail then q.tailAt else q.tailAt + 2 ^ 64
  decide (a.2.level < b.2.level) || (a.2.level == b.2.level && (decide (key a.2 < key b.2) ||
    (key a.2 == key b.2 && decide (a.1 < b.1))))

/-- `QUEUE_SWITCH_IN`: the first of the queues that are switched out becomes resident, and acts on a TAIL captured
meanwhile. -/
def execQueueSwitchIn (slot : Nat) (s : State) : Host.Outcome State Fault Refusal :=
  .next (match (sortBy switchFirst (s.queues.filter (fun p => !p.2.resident && p.2.state != .disabled))).head? with
    | some (n, q) =>
      if n = slot ∧ s.residents < maxResident then
        s.setQueue slot { q with resident := true, tail := q.shadowTail.getD q.tail, shadowTail := none }.settled
      else s
    | none => s)

/-! Packets (R316, R318, R323) -/

/-- A packet whose program begins. -/
def Packet.begin_ (seq kind : Nat) : Packet :=
  { seq := seq, kind := kind, status := none, value := 0, word3 := 0, rej := false, miss := false, sigf := false,
    failCode := 0, waitGrids := [], waitOther := false, callGrid := none, dropped := none, linkFrom := none }

/-- A packet that ends before its program begins. -/
def Packet.failed (seq kind status code : Nat) : Packet :=
  { Packet.begin_ seq kind with status := some status, failCode := code }

/-- Kinds that only the PF may issue (Table HQ-4). -/
def pfOnly (kind : Nat) : Bool := kind == 7 || kind == 0x0A || kind == 0x0B

/-- The queue's function may issue a kind, and reaches the queue's context (R313, R323; DEDUCED, log entry 26). -/
def State.mayIssueKind (s : State) (q : Queue) (kind : Nat) : Bool :=
  q.func == 0 || (!pfOnly kind && s.funcOf q.ctx == q.func)

/-- A header is in order at an offset of the segment (R316, Tables HQ-2 and HQ-4; DEDUCED, log entry 27). -/
def Queue.headerOk (q : Queue) (hd : Nat) : Bool :=
  let len := bitsOf hd 11 8
  let kind := hd % 256
  decide (len ≤ 4) && bitsOf hd 15 12 == 0 && decide (q.offset + packetBytes len ≤ q.segBytes) &&
    (match kindLen kind with
     | some l => l == len && bitsOf hd 31 16 == 0
     | none => decide (0x40 ≤ kind))

/-- The queue takes packets, and one is there for it. -/
def Queue.takes (q : Queue) : Bool :=
  (q.state == .idle || q.state == .running) && !q.disabling && q.resident && !q.busy && q.seq != q.tail &&
    decide (q.offset + 64 ≤ q.segBytes)

/-- A program begins on a packet: q1 holds SEQ, q2 KIND, and every other register zero (R327). -/
def Queue.startProgram (q : Queue) (seq kind : Nat) : Queue :=
  { q with busy := true, pc := 0, q := sset (sset [] 1 (BitVec.ofNat 64 seq)) 2 (BitVec.ofNat 64 kind), loop := none,
           ran := 0, waitv := none }

/-- The free list may be full, which is the host's to say: no field of the descriptor tells what it has consumed, so a queue that
comes to a LINK is held or not as a free choice (R317; DESIGN CHOICE, log entry 51). -/
def State.linkHeld (s : State) (kind : Nat) : Bool × State :=
  let d := s.pick (if kind = 1 then 2 else 1)
  (d.1 == 1, d.2)

/-- `PACKET_TAKE`. -/
def execPacketTake (slot : Nat) (s : State) : Host.Outcome State Fault Refusal :=
  .next (match s.queue slot with
    | none => s
    | some q =>
      if !q.takes then s else
      let q := match q.newProg with
        | some (pa, ws) => { q with prog := pa, words := ws, newProg := none }
        | none => q
      let h := s.pread (q.seg + q.offset) 8
      let seq := h.1 / 2 ^ 32
      let kind := h.1 % 256
      let bytes := packetBytes (min 4 (bitsOf h.1 11 8))
      let held := h.2.linkHeld kind
      if held.1 then held.2 else
      let h := (h.1, held.2)
      if seq != q.seq then
        h.2.setQueue slot { q with state := .error, packets := q.packets ++ [Packet.failed seq kind 5 0] }
      else
        let q' := { q with seq := (seq + 1) % 2 ^ 32, offset := q.offset + bytes, state := .running }
        if !q.headerOk h.1 || !s.mayIssueKind q kind then
          h.2.setQueue slot { q' with packets := q.packets ++ [Packet.failed seq kind 1 1] }
        else
          let b := h.2.pread (q.seg + q.offset) bytes
          b.2.setQueue slot
            ({ q' with packets := q.packets ++ [Packet.begin_ seq kind], body := wordsOf b.1 (bytes / 8) }.startProgram seq kind))

/-- A completion entry (R318). -/
def Packet.entry (p : Packet) (cseq : Nat) : Nat :=
  let b (x : Bool) : Nat := if x then 1 else 0
  let st := match p.status, p.dropped with
    | some 0, some d => d
    | some st, _ => st
    | none, _ => 0
  cseq + p.seq * 2 ^ 32 + (st + b p.rej * 2 ^ 8 + b p.miss * 2 ^ 9 + b p.sigf * 2 ^ 10 + p.failCode * 2 ^ 16) * 2 ^ 64 +
    p.value.toNat * 2 ^ 128 + p.word3.toNat * 2 ^ 192

/-- `COMPLETION_ENTRY_WRITE`: the oldest packet commits: its entry is written at CTAIL mod CCAP, PROGRESS passes it, and a
LINK gives back the segment that it ends (R317, R318). -/
def execCompletionEntryWrite (slot : Nat) (s : State) : Host.Outcome State Fault Refusal :=
  .next (match s.queue slot with
    | none => s
    | some q =>
      match q.committable with
      | none => s
      | some p =>
        if !q.resident || !s.completionRoom q then s else
        let s := s.pwrite (q.comp + 32 * (q.ctail % q.ccap)) 32 (p.entry q.cseq)
        let q' := { q with packets := q.packets.drop 1, ctail := (q.ctail + 1) % 2 ^ 32, cseq := (q.cseq + 1) % 2 ^ 32,
                           progress := if p.status = some 5 then q.progress else (p.seq + 1) % 2 ^ 32 }.settled
        match p.linkFrom with
        | none => s.setQueue slot q'
        | some seg =>
          (s.pwrite (q.free + 8 * (q.ftail % q.fcap)) 8 seg).setQueue slot { q' with ftail := (q.ftail + 1) % 2 ^ 32 })

/-! Ends of programs (R329) -/

/-- Change the packet whose program runs. -/
def Queue.onCurrent (q : Queue) (f : Packet → Packet) : Queue :=
  { q with packets := match q.packets.getLast? with
      | some p => q.packets.dropLast ++ [f p]
      | none => [] }

/-- The program ends with a status, a value and a code. -/
def Queue.endProgram (q : Queue) (status : Nat) (value : W64) (code : Nat) : Queue :=
  { q.onCurrent (fun p => { p with status := some status, value := value, failCode := code, waitOther := false }) with
    busy := false, waitv := none, loop := none }

/-- `QFAIL` (Table HQ-7). -/
def Queue.fail (q : Queue) (code : Nat) : Queue := q.endProgram 1 0 code

end Sys2Proof.Machine
end

