-- ==== Sys2Proof/Machine/Packets.lean ====
section
/-! DEFINITION. The packet kinds of Table HQ-4 (R317, R323 to R326, R170, R247, R282, R284, R312, R480), which the default
program and `QCALLF` perform. -/

namespace Sys2Proof.Machine

/-- How a kind fared: completed with a status, in progress, or one that the queue's function may not issue. -/
inductive KindRes where
  | done (status : Nat)
  | pending
  | forbidden
  deriving DecidableEq, Repr

/-- A kind to be performed: for which queue and packet, and on which body, word 0 being the header. -/
structure Job where
  slot : Nat
  q : Queue
  seq : Nat
  w : List Nat

def Job.word (j : Job) (i : Nat) : Nat := j.w.getD i 0

/-- Words as one number. -/
def wordsNum (w : List Nat) : Nat := w.foldr (fun x n => x % 2 ^ 64 + 2 ^ 64 * n) 0

/-- 0 where a condition holds, else 1. -/
def statusOf (ok : Bool) : KindRes := .done (if ok then 0 else 1)

/-- A kind in progress is about the packet that a queue runs. -/
def State.onJob (s : State) (j : Job) (f : Packet → Packet) : State := s.onQueue j.slot (fun q => q.onCurrent f)

/-- NOP (R323). -/
def kindNop (_j : Job) (s : State) : KindRes × State := (.done 0, s)

/-- LINK: the queue continues at the next segment (R317); one that breaks Table HQ-1 is not taken. -/
def kindLink (j : Job) (s : State) : KindRes × State :=
  let next := j.word 1
  if next % j.q.segBytes != 0 || !inMemory next j.q.segBytes then (.done 1, s)
  else (.done 0, s.onQueue j.slot (fun q =>
    { q.onCurrent (fun p => { p with linkFrom := some q.seg }) with seg := next, offset := 0 }))

/-- LAUNCH: refused, failed by its argument block, or entered; the packet commits when its grid completes (R318, R324). -/
def kindLaunch (j : Job) (s : State) : KindRes × State :=
  let e := s.enterLaunch
    { ctx := j.q.ctx, level := max (j.word 3 % 4) j.q.level, issuer := .queue j.slot j.seq, depth := 0, inst := none,
      seqBase := 0, step := 0 } (wordsNum j.w)
  match e.1 with
  | .refused => (.done 4, e.2)
  | .failed _ _ => (.done 1, e.2)
  | .grid n => (.pending, e.2.onJob j (fun p => { p with value := BitVec.ofNat 64 n, callGrid := some n }))

/-! LOAD (R88, R99 to R101, R247) -/

/-- A role entry of a record is within its limits. -/
def roleEntryOk (x : Nat) : Bool :=
  let g := byteField x 0 1
  if g = 0 then x == 0 else
    decide (g ≤ 32) && within 1 32 (byteField x 1 1) && byteField x 2 6 == 0 && byteField x 24 8 == 0

/-- An argument descriptor of a record is within its limits. -/
def argEntryOk (bytes x : Nat) : Bool :=
  byteField x 5 3 == 0 && byteField x 12 4 == 0 && within 1 256 (byteField x 2 2) && decide (byteField x 4 1 ≤ 2) &&
    decide (byteField x 0 2 + byteField x 2 2 ≤ bytes)

/-- The loader accepts a record (R101). A LEN that does not cover the argument descriptors is refused (DEDUCED, log entry
63). -/
def recordOk (r : KRec) : Bool :=
  let f := byteField r.raw
  let nargs := f 0x22 2
  let groups := (r.roles.map (·.groups)).sum
  f 0 4 == 0x4B594E31 && decide (0xA8 + 16 * nargs ≤ f 4 4) && decide (r.flags < 4) && r.scratch % 256 == 0 &&
    decide (r.scratch ≤ coreScratch) && decide (r.fmt < 2 ^ 24) && within 1 16 r.grow && f 0x1D 1 == 0 &&
    within 1 256 r.unroll && decide (r.argBytes ≤ 4096) && r.argBytes % 8 == 0 && within 1 32 groups &&
    (List.range 4).all (fun i => roleEntryOk (f (0x28 + 32 * i) 32)) &&
    (List.range nargs).all (fun i => argEntryOk r.argBytes (f (0xA8 + 16 * i) 16)) &&
    decide (((r.args.filter (fun a => a.2.2 != 0)).map (fun a => a.2.1)).sum ≤ 96) && argsLaid r.args 0

/-- A kernel's name, as its first bytes: 1 to 63 characters and a zero byte (R99). -/
def nameOk (x n : Nat) : Bool :=
  match (List.range n).find? (fun i => byteField x i 1 == 0) with
  | some i => decide (1 ≤ i)
  | none => false

/-- LOAD: the record is checked and takes a CODEID of its own; entries of the code it replaces are invalidated. -/
def kindLoad (j : Job) (s : State) : KindRes × State :=
  let c := j.q.ctx
  let krec := j.word 2
  let r := s.readRecord c krec
  match r.1 with
  | .error _ => (.done 1, r.2)
  | .ok rec =>
    if !recordOk rec then (.done 1, r.2) else
    let name := r.2.vread c (krec + rec.nameAt.1) rec.nameAt.2 true
    let r := (r.1, name.2)
    match name.1 with
    | .error _ => (.done 1, r.2)
    | .ok text =>
    if !nameOk text rec.nameAt.2 then (.done 1, r.2) else
    let id := r.2.nextCodeId
    let w := r.2.vwrite (r.2.agent 6 0) c (krec + 8) 8 id true
    match w.1 with
    | .error _ => (.done 1, w.2)
    | .ok () =>
      let old := w.2.kernels.filter (fun k => k.ctx == c && (k.krec.toNat == krec || k.image == j.word 1))
      let s := old.foldl (fun s k => s.flushEntries c (some k.codeId)) w.2
      (.done 0, { s.dropCode c with
        nextCodeId := id + 1,
        kernels := ⟨c, j.word 1, BitVec.ofNat 64 krec, BitVec.ofNat 64 id⟩ ::
          s.kernels.filter (fun k => !(k.ctx == c && k.krec.toNat == krec)) })

/-- FLUSH (R247). -/
def kindFlush (j : Job) (s : State) : KindRes × State :=
  if (s.ctx j.q.ctx).isNone then (.done 1, s) else
  (.done 0, s.flushEntries j.q.ctx (if j.word 1 = 0 then none else some (BitVec.ofNat 64 (j.word 1))))

/-- INVAL: the invalidation begins (R170). -/
def kindInval (j : Job) (s : State) : KindRes × State :=
  if (s.ctx j.q.ctx).isNone then (.done 1, s) else
  (.pending, { s with invals := s.invals ++ [⟨j.q.ctx, j.word 1, j.word 2, j.slot, j.seq⟩] })

/-! CONTEXT (R314, R326, Table HQ-6) -/

/-- The fields of a descriptor are within their limits. -/
def contextOk (w : List Nat) : Bool :=
  let f := wordField w
  f 0x0C 4 == 0 && (w.drop 14).all (· == 0) && f 0x10 8 % 4096 == 0 && within 1 1000 (f 0x18 4) &&
    within 1 1000000 (f 0x28 4) && f 0x48 8 % 128 == 0 && f 0x50 8 % 128 == 0 && decide (f 0x48 8 + f 0x50 8 ≤ 2 ^ 56)

/-- A context with the fields of a descriptor; PARKBASE is fixed while a team is parked. -/
def Ctx.described (x : Ctx) (w : List Nat) : Ctx :=
  let f := wordField w
  let f64 (o : Nat) : W64 := BitVec.ofNat 64 (f o 8)
  { x with ptRoot := f 0x10 8, ageq := f 0x18 4, tagwd := f 0x1C 4, handler := f64 0x20, hndwd := f 0x28 4,
           parkN := f 0x2C 4, parkBase := if x.usedSlots.isEmpty then f64 0x30 else x.parkBase, sumpBase := f64 0x38,
           sumpQ := f 0x40 8, resBase := f64 0x48, resLen := f 0x50 8, expBase := f64 0x58, expLen := f 0x60 8,
           frep := f64 0x68, phase := if x.phase = .off then .running else x.phase }

/-- CONTEXT: a context is created or changed; a second context of one index, or a field out of its limits, is refused. -/
def kindContext (j : Job) (s : State) : KindRes × State :=
  let c := wordField j.w 8 4
  if j.q.func != 0 && s.funcOf c != j.q.func then (.forbidden, s)
  else if !contextOk j.w || s.ctxs.any (fun p => p.1 % 4096 == c % 4096 && p.1 != c) then (.done 1, s)
  else
    let x := ((s.ctx c).getD (Ctx.fresh 0)).described j.w
    let s' := s.setCtx c x
    let h := s'.checkTarget c false true x.handler.toNat
    if x.handler != 0 && h.1 == .breach then (.done 1, s) else (.done 0, if x.handler = 0 then s' else h.2)

/-! PREEMPT and RESUME (R282, R284) -/

/-- PREEMPT: DRAIN begins; a context that is OFF is reported at once, and one that passes through the steps already keeps
its deadlines. -/
def kindPreempt (j : Job) (s : State) : KindRes × State :=
  if j.q.func != 0 then (.forbidden, s) else
  let c := j.word 1
  let d := lo32 (j.word 2)
  let p := hi32 (j.word 2)
  match s.ctx c with
  | none => (.done 1, s)
  | some x =>
    if 1000000 < d || 1000000 < p then (.done 1, s) else
    let asks := x.preemptQ ++ [(j.slot, j.seq)]
    match x.phase with
    | .off => (.done 0, s)
    | .running => (.pending, s.setCtx c { x with phase := .drain (s.clock + usClocks d) (usClocks p), preemptQ := asks })
    | _ => (.pending, s.setCtx c { x with preemptQ := asks })

/-- A park slot's record is marked VALID. -/
def State.slotValid (s : State) (c : Nat) (x : Ctx) (slot : Nat) : Bool :=
  match (s.vread c (x.parkBase.toNat + 2 ^ 20 * slot + 0x27) 1 true).1 with
  | .ok b => b.testBit 7
  | .error _ => false

/-- The team of a record can be placed under R27. -/
def State.placeAgain (s : State) (gr : Grid) (p : Parked) : Bool :=
  (assign p.allots (List.replicate 4 (0, quarterRegs))).isSome && decide (p.team.scrSize ≤ coreScratch) && s.placeable gr

/-- RESUME: the team of a slot re-enters its launch queue, with every parked team of a CLUSTER grid. -/
def kindResume (j : Job) (s : State) : KindRes × State :=
  match s.ctx j.q.ctx with
  | none => (.done 1, s)
  | some x =>
    let slot := j.word 1
    match s.grids.find? (fun g => g.2.ctx == j.q.ctx && g.2.parked.any (fun p => p.slot == slot)) with
    | none => (.done 1, s)
    | some (n, gr) =>
      match gr.parked.find? (fun p => p.slot == slot) with
      | none => (.done 1, s)
      | some p =>
        if x.parkN ≤ slot || !s.slotValid j.q.ctx x slot || !s.placeAgain gr p then (.done 1, s)
        else (.done 0, s.setGrid n { gr with parked := gr.parked.map (fun q =>
          if q.slot = slot ∨ gr.cluster then { q with wantResume := true } else q) })

/-! SERVE (R480) -/

/-- Bits of word 2 that a SERVE packet leaves zero. -/
def serveBitsOk (j : Job) : Bool := j.word 2 / 2 ^ 12 == 0 && j.word 2 / 4 % 2 ^ 6 == 0
def serveNum (j : Job) : Nat := j.word 2 / 2 ^ 8 % 16

def kindServeStart (j : Job) (s : State) : KindRes × State :=
  if !serveBitsOk j then (.done 1, s) else
  let r := s.serveStart j.q.ctx (j.word 1) (serveNum j)
  (statusOf r.1, r.2)

/-- A stop: at once where the instance is between iterations or halted, else when its iteration has ended; every stop accepted
by then commits with it. -/
def kindServeStop (j : Job) (s : State) : KindRes × State :=
  match s.inst (serveNum j) with
  | none => (.done 1, s)
  | some x =>
    if !serveBitsOk j || x.ctx != j.q.ctx || x.desc != j.word 1 then (.done 1, s) else
    let x' := { x with stops := x.stops ++ [(j.slot, j.seq)] }
    let s := s.onInst x.num (fun _ => x')
    (.pending, if s.stopsNow x' then s.finishStop x.num else s)

def kindServeResume (j : Job) (s : State) : KindRes × State :=
  if !serveBitsOk j then (.done 1, s) else
  let r := s.serveResume j.q.ctx (serveNum j)
  (statusOf r.1, r.2)

/-- Action code 3. -/
def kindServeRefused (_j : Job) (s : State) : KindRes × State := (.done 1, s)

/-! CHECKPOINT and RESTORE (R312; DESIGN CHOICE, log entry 29) -/

/-- Bytes of a chunk, at most. -/
def chunkBytes : Nat := 2 ^ 20

/-- The leaf entries of a table that name device memory, as a frame and its size. -/
def leavesFrom (m : Memory) : List (Nat × Nat × Bool) → Nat → List (Nat × Nat)
  | [], _ => []
  | (sh, bits, leaf) :: rest, tbl =>
    ((List.range (2 ^ bits)).filter (fun i => (sget m (tbl + 8 * i)).getLsbD 0)).flatMap (fun i =>
      let e := sgetLE m (tbl + 8 * i) 8
      if e.testBit 1 then (if leaf && leafOk e sh && !e.testBit 6 then [(e / 2 ^ 16 % 2 ^ 36 * 2 ^ 16, 2 ^ sh)] else [])
      else leavesFrom m rest (e / 2 ^ 16 % 2 ^ 36 * 2 ^ 16 + e / 2 ^ 12 % 16 * 2 ^ 12))

/-- The bytes of a chunk, as they are hashed. -/
def chunkList (m : Store 8) (pa n : Nat) : List Byte := (List.range n).map (fun i => sget m (pa + i))

/-- The chunks of a context: its page frames, those of its KV pools among them, and its Wellhead records. -/
def State.chunksOf (s : State) (c : Nat) : List Chunk :=
  let root := match s.ctx c with
    | some x => x.ptRoot
    | none => memTop
  let kv := (s.frameOwner.filter (fun f => f.ctx == c && f.va.isNone)).map (fun f => (f.pa, f.bytes))
  let frames := (leavesFrom s.mem walkLevels root ++ kv).eraseDups
  let pieces := frames.flatMap (fun f =>
    (List.range ((f.2 + chunkBytes - 1) / chunkBytes)).map (fun i => (f.1 + chunkBytes * i, min chunkBytes (f.2 - chunkBytes * i))))
  let recs := s.recs.filter (fun r => match s.inst r.inst with
    | some x => x.ctx == c
    | none => false)
  pieces.map (fun p =>
    { ctx := c, pa := some p.1, bytes := p.2, data := s.mem.filter (fun b => decide (p.1 ≤ b.1) && decide (b.1 < p.1 + p.2)),
      recs := [], poison := s.poison.filter (fun l => decide (p.1 ≤ l * 128) && decide (l * 128 < p.1 + p.2)),
      digest := Config.sha3 (chunkList s.mem p.1 p.2) }) ++
  (if recs.isEmpty then [] else
    [{ ctx := c, pa := none, bytes := 256 * recs.length, data := [], recs := recs, poison := [],
       digest := Config.sha3 (recs.flatMap (fun r =>
         (List.range 256).map (fun i => BitVec.ofNat 8 ((sget r.words (i / 8)).toNat / 2 ^ (8 * (i % 8)))))) }])

/-- The contexts that a packet names: its layout is not given, so which of the contexts they are is free. -/
def State.namedContexts (s : State) : List Nat × State :=
  let d := s.draw
  (((s.ctxs.map (·.1)).zipIdx.filter (fun c => d.1.testBit c.2)).map (·.1), d.2)

/-- Every context of a set is OFF. -/
def State.allOff (s : State) (cs : List Nat) : Bool :=
  cs.all (fun c => match s.ctx c with
    | some x => x.phase == .off
    | none => false)

/-- CHECKPOINT: the copy begins. -/
def kindCheckpoint (j : Job) (s : State) : KindRes × State :=
  if j.q.func != 0 then (.forbidden, s) else
  let n := s.namedContexts
  if !n.2.allOff n.1 then (.done 1, n.2)
  else (.pending, { n.2 with checkpoints := n.2.checkpoints ++ [⟨j.slot, j.seq, n.1⟩] })

/-- Put one chunk back. -/
def State.restoreChunk (s : State) (k : Chunk) : State :=
  match k.pa with
  | none => { s with recs := k.recs ++ s.recs.filter (fun r => !(k.recs.any (fun x => x.inst == r.inst))) }
  | some pa =>
    let s := (s.recallRange pa k.bytes).putRange pa k.bytes pa k.data [] true
    { s with poison := k.poison ++ s.poison }

/-- RESTORE: the chunks that the target gives back are those that it was given, or not (a free choice); a digest that fails
refuses the whole. -/
def kindRestore (j : Job) (s : State) : KindRes × State :=
  if j.q.func != 0 then (.forbidden, s) else
  let n := s.namedContexts
  let cs := n.2.vault.filter (fun k => n.1.contains k.ctx)
  let d := n.2.pick 2
  if !n.2.allOff n.1 || cs.isEmpty || d.1 = 1 then (.done 1, d.2)
  else (.done 0, cs.foldl (fun s k => s.restoreChunk k) d.2)

/-- PROGRAM: a new program is verified, and taken at the next packet boundary (R323, R327). -/
def kindProgram (j : Job) (s : State) : KindRes × State :=
  let pa := j.word 1
  if pa = 0 then (.done 0, s.onQueue j.slot (fun q => { q with newProg := some (0, []) })) else
  let r := s.loadProgram j.q.wins pa
  match r.1 with
  | none => (.done 1, r.2)
  | some ws => (.done 0, r.2.onQueue j.slot (fun q => { q with newProg := some (pa, ws) }))

/-! Performing a kind -/

/-- A kind of Table HQ-4 (R323); any other, as one that the queue's function may not issue, ends with `QFAIL` 1. -/
def performKind (kind : Nat) (j : Job) (s : State) : KindRes × State :=
  match kind with
  | 0x00 => kindNop j s
  | 0x01 => kindLink j s
  | 0x02 => kindLaunch j s
  | 0x03 => kindLoad j s
  | 0x04 => kindFlush j s
  | 0x05 => kindInval j s
  | 0x06 => kindContext j s
  | 0x07 => kindPreempt j s
  | 0x08 => kindResume j s
  | 0x09 => (match j.word 2 % 4 with
    | 0 => kindServeStart j s
    | 1 => kindServeStop j s
    | 2 => kindServeResume j s
    | _ => kindServeRefused j s)
  | 0x0A => kindCheckpoint j s
  | 0x0B => kindRestore j s
  | 0x0C => kindProgram j s
  | _ => (.forbidden, s)

/-- The instruction that a packet's kind is under the default program; none where that program runs `QFAIL` 1. -/
def kindInstr (kind word2 : Nat) : Option Instr :=
  match kind with
  | 0x00 => some .nop
  | 0x01 => some .link
  | 0x02 => some .launch
  | 0x03 => some .load
  | 0x04 => some .flush
  | 0x05 => some .inval
  | 0x06 => some .context
  | 0x07 => some .preempt
  | 0x08 => some .resume
  | 0x09 => some (match word2 % 4 with
    | 0 => .serveStart
    | 1 => .serveStop
    | 2 => .serveResume
    | _ => .serveRefusedAction)
  | 0x0A => some .checkpoint
  | 0x0B => some .restore
  | 0x0C => some .program
  | _ => none

/-- The program of the current packet ends as a kind leaves it; a kind in progress ends the packet when it completes. -/
def Queue.endKind (q : Queue) (r : KindRes) : Queue :=
  match r with
  | .done st => { q.onCurrent (fun p => { p with status := some st }) with busy := false }
  | .pending => { q.onCurrent (fun p => { p with waitOther := true }) with busy := false }
  | .forbidden => q.fail 1

/-- Run a kind on the current packet, as the default program does (R329). -/
def onPacket (s : State) (kind : Job → State → KindRes × State) : Host.Outcome State Fault Refusal :=
  match s.cur with
  | some (.queue slot) =>
    (match s.queue slot with
     | some q =>
       (match q.current with
        | some p =>
          let r := kind { slot := slot, q := q, seq := p.seq, w := q.body } s
          .next (r.2.onQueue slot (fun q => q.endKind r.1))
        | none => .fault .noStream)
     | none => .fault .noStream)
  | _ => .fault .noStream

def execNop (s : State) : Host.Outcome State Fault Refusal := onPacket s kindNop
def execLink (s : State) : Host.Outcome State Fault Refusal := onPacket s kindLink
def execLaunch (s : State) : Host.Outcome State Fault Refusal := onPacket s kindLaunch
def execLoad (s : State) : Host.Outcome State Fault Refusal := onPacket s kindLoad
def execFlush (s : State) : Host.Outcome State Fault Refusal := onPacket s kindFlush
def execInval (s : State) : Host.Outcome State Fault Refusal := onPacket s kindInval
def execContext (s : State) : Host.Outcome State Fault Refusal := onPacket s kindContext
def execPreempt (s : State) : Host.Outcome State Fault Refusal := onPacket s kindPreempt
def execResume (s : State) : Host.Outcome State Fault Refusal := onPacket s kindResume
def execServeStart (s : State) : Host.Outcome State Fault Refusal := onPacket s kindServeStart
def execServeStop (s : State) : Host.Outcome State Fault Refusal := onPacket s kindServeStop
def execServeResume (s : State) : Host.Outcome State Fault Refusal := onPacket s kindServeResume
def execServeRefusedAction (s : State) : Host.Outcome State Fault Refusal := onPacket s kindServeRefused
def execCheckpoint (s : State) : Host.Outcome State Fault Refusal := onPacket s kindCheckpoint
def execRestore (s : State) : Host.Outcome State Fault Refusal := onPacket s kindRestore
def execProgram (s : State) : Host.Outcome State Fault Refusal := onPacket s kindProgram

/-- `QUEUE_PROGRAM_KIND`: a packet of kind 0x40–0xFF is handed to the queue program's own code; the default program has
none and runs `QFAIL` 1 (R323, R329). -/
def execQueueProgramKind (s : State) : Host.Outcome State Fault Refusal :=
  match s.cur with
  | some (.queue slot) =>
    (match s.queue slot with
     | some q =>
       (match q.current with
        | some p => .next (s.setQueue slot (if q.prog = 0 then q.fail 1 else q.startProgram p.seq p.kind))
        | none => .fault .noStream)
     | none => .fault .noStream)
  | _ => .fault .noStream

/-! Later ends of kinds -/

/-- Nothing translated under an old entry of a range is outstanding (R170). -/
def State.rangeQuiet (s : State) (c base bytes : Nat) : Bool :=
  let hit (va : Nat) : Bool := decide (base ≤ va) && decide (va < base + bytes)
  s.groups.all (fun p => s.ctxOf p.1 != c ||
    (p.2.out.all (fun o => o.units.all (fun u => !(u.space == .global || u.isHost) || !hit u.va)) &&
     p.2.mx.all (fun m => !hit m.va)))

/-- Contributions and partials of a context on their way go home (R159, R206). -/
def State.sendContext (s : State) (c : Nat) : State :=
  let s := { s with upart := s.upart.filter (fun u => u.rank.isSome) } |> fun t =>
    (s.upart.filter (fun u => u.rank.isNone)).foldl (fun t u => t.applyPartial u) t
  let s := (s.cores.map (·.1)).foldl (fun s k => s.sendStaging k (fun e => e.ctx == c)) s
  s.landSends (fun t => t.ctx == c)

/-- Cached translations of a range are dropped. -/
def State.dropTlb (s : State) (c base bytes : Nat) : State :=
  { s with tlb := s.tlb.filter (fun t => !(t.ctx == c && decide (t.base < base + bytes) && decide (base < t.base + 2 ^ t.lg))) }

/-- `INVALIDATION_COMPLETE`: one of the invalidations in progress completes, once every access translated under the old
entries has been performed (R170, R206). -/
def execInvalidationComplete (s : State) : Host.Outcome State Fault Refusal :=
  .next (let d := s.pick s.invals.length
    match s.invals[d.1]? with
    | none => s
    | some v =>
      if !d.2.rangeQuiet v.ctx v.base v.bytes then s else
      let s := (d.2.sendContext v.ctx).dropTlb v.ctx v.base v.bytes
      { s with invals := s.invals.eraseIdx d.1 }.onQueue v.queue (fun q => q.endPacket v.seq 0 id))

/-- `CHECKPOINT_COMPLETE`: every chunk has been copied; one with poison leaves a CONTAINED record (R312). -/
def execCheckpointComplete (s : State) : Host.Outcome State Fault Refusal :=
  .next (match s.checkpoints with
    | [] => s
    | k :: rest =>
      let s := { s with checkpoints := rest }
      let s := (k.ctxs.foldl (fun s c => s.sendContext c) s)
      let cs := k.ctxs.flatMap (fun c => s.chunksOf c)
      let s := { s with vault := cs ++ s.vault.filter (fun (x : Chunk) => !k.ctxs.contains x.ctx) }
      let s := (cs.filter (fun x => !x.poison.isEmpty)).foldl (fun s x =>
        s.recordError { memError (x.pa.getD 0) 1 6 (some (x.ctx, 0)) with addr := x.pa }) s
      s.onQueue k.queue (fun q => q.endPacket k.seq 0 id))

end Sys2Proof.Machine
end

