-- ==== Sys2Proof/Machine/HostLink.lean ====
section
/-! DEFINITION. The host link (R23, R191, R313, R314, R331, R336): power-on reset and the endpoint, host accesses to device
memory, and the registers of BAR0 with the rules of their fields. -/

namespace Sys2Proof.Machine

/-! Power-on and the endpoint (R23) -/

/-- Firmware components; one of which nothing is stored has the image it was made with (DESIGN CHOICE, log entry 33). -/
def firmwareParts : Nat := 4

/-- The stored image and signature of a component. -/
def State.firmware (s : State) (i : Nat) : List Byte × List Byte := (aget s.image i).getD ([], [])

/-- The management controller's check of the firmware at start. -/
def State.firmwareOk (s : State) : Bool :=
  (List.range firmwareParts).all (fun i => Config.signatureValid (s.firmware i).1 (s.firmware i).2)

/-- What a reset leaves: the state after reset, with what is not the device's volatile state: host memory, firmware, the
messages already sent, and the model's schedule and free choices. -/
def State.afterReset (s : State) : State :=
  { State.reset with
    agenda := s.agenda, choices := s.choices, tick := s.tick, hostMem := s.hostMem, image := s.image,
    secVersion := s.secVersion, msgs := s.msgs }

/-- `POWER_ON_RESET`: every core idle, every cache invalid, no record, no context; the device may be held in reset a while
(R23, R342). -/
def execPowerOnReset (s : State) : Host.Outcome State Fault Refusal :=
  let d := s.pick 2
  .next { d.2.afterReset with inReset := d.1 == 1 }

/-- `CONFIGURATION_REQUEST`: answered with Configuration Request Retry Status until the firmware has been verified, the links
have been trained and the endpoint is enabled. -/
def execConfigurationRequest (s : State) : Host.Outcome State Fault Refusal :=
  .next (if s.endpointUp then s
    else if s.inReset || !s.firmwareOk then { s with msgs := s.msgs ++ [.retryStatus] }
    else
      let d := s.pick 2
      if d.1 = 0 then { d.2 with endpointUp := true } else { d.2 with msgs := d.2.msgs ++ [.retryStatus] })

/-! Device memory (R191, R313) -/

/-- `HOST_DEVICE_MEMORY_ACCESS`: n bytes at a physical address; an access elsewhere is answered by a completer abort. -/
def execHostDeviceMemoryAccess (write : Bool) (addr n data : Nat) (s : State) : Host.Outcome State Fault Refusal :=
  onLink s (
    if !inMemory addr n then { s with msgs := s.msgs ++ [.completerAbort] }
    else if write then s.pwrite addr n (data % 256 ^ n)
    else
      let r := s.pread addr n
      { r.2 with msgs := r.2.msgs ++ [.reply ((List.range n).map (fun i => byteField r.1 i 1))] })

/-- `POISONED_TLP` (R306, R313). -/
def execPoisonedTlp (pa : Nat) (s : State) : Host.Outcome State Fault Refusal :=
  onLink s (if inMemory pa 1 && !s.poison.contains (lineOf pa) then { s with poison := lineOf pa :: s.poison } else s)

/-! Registers (R314, Tables HQ-9 to HQ-11, OBS-1, OBS-4, FAB-6) -/

/-- An observation page after reset (Table OBS-1). -/
def ObsPage.fresh : ObsPage :=
  { trBase := 0, trCap := 0, trTail := 0, trHead := 0, drops := 0, trMask := 0, lsPer := 0, bp := List.replicate 8 0,
    wp := List.replicate 4 (0, 0), hw := List.replicate 4 (0, 0), hwPages := [] }

def State.obsPage (s : State) (idx : Nat) : ObsPage := (aget s.obs idx).getD ObsPage.fresh

/-- A function owns the page of an index (R331). -/
def State.ownsPage (s : State) (func idx : Nat) : Bool :=
  let e := ((aget s.owners idx).getD 0).toNat
  e / 2 ^ 63 == 1 && e / 2 ^ 32 % 32 == func

/-- A counter after reset. -/
def Counter.zero : Counter := ⟨0, 0⟩

/-- Counter m of a core in a function's bank: live while the bank is loaded, else the saved copy (R336). -/
def State.counterOf (s : State) (func core m : Nat) : Counter :=
  (if (s.core core).observed = some func then aget (s.core core).counters m else aget s.saved (func, core, m)).getD Counter.zero

def State.setCounter (s : State) (func core m : Nat) (k : Counter) : State :=
  if (s.core core).observed = some func then s.onCore core (fun c => { c with counters := aput c.counters m k })
  else { s with saved := aput s.saved (func, core, m) k }

/-- Read an 8-byte register of the control page. -/
def Ctl.read (c : Ctl) (off : Nat) : Nat :=
  match off with
  | 0x000 => c.fto
  | 0x008 => c.fretry
  | 0x010 => c.setTab
  | 0x018 => c.setLen
  | 0x020 => (if c.joined then 2 ^ 63 else 0) + c.rank
  | _ => 0

/-- Write an 8-byte register of the control page; a value outside a field's limits leaves the field (R314). -/
def Ctl.write (c : Ctl) (off x : Nat) : Ctl :=
  match off with
  | 0x000 => if within 1 1000 (lo32 x) then { c with fto := lo32 x } else c
  | 0x008 => { c with fretry := x % 8 }
  | 0x010 => if x % 16 = 0 ∧ x < 0x8000000000 then { c with setTab := x } else c
  | 0x018 => { c with setLen := lo32 x }
  | 0x020 =>
    let c' := if !c.joined && decide (x % 2 ^ 10 ≤ 575) then { c with rank := x % 2 ^ 10 } else c
    { c' with joined := decide (2 ^ 63 ≤ x) }
  | _ => c

/-- A watchpoint's words as read. -/
def watchWord (w : W64 × Nat) (second : Bool) : Nat := if second then w.2 else w.1.toNat

/-- Read an 8-byte register of an observation page. -/
def ObsPage.read (p : ObsPage) (off : Nat) : Nat :=
  if off = 0x000 then p.trBase.toNat
  else if off = 0x008 then p.trCap
  else if off = 0x010 then p.trTail
  else if off = 0x018 then p.trHead
  else if off = 0x020 then p.drops
  else if off = 0x028 then p.trMask * 2 ^ 8 + p.lsPer
  else if within 0x040 0x078 off then (p.bp.getD ((off - 0x040) / 8) 0).toNat
  else if within 0x080 0x0B8 off then watchWord (p.wp.getD ((off - 0x080) / 16) (0, 0)) (off % 16 == 8)
  else if within 0x0C0 0x0F8 off then watchWord (p.hw.getD ((off - 0x0C0) / 16) (0, 0)) (off % 16 == 8)
  else 0

/-- A watchpoint after a write of one of its words; `most` is its greatest LGLEN. -/
def watchWrite (w : W64 × Nat) (second : Bool) (most x : Nat) : W64 × Nat :=
  if second then (if within 2 most (x % 64) then (w.1, x % 64) else w)
  else (BitVec.ofNat 64 (x / 2 ^ 61 * 2 ^ 61 + x % 2 ^ 57), w.2)

/-- Write an 8-byte register of an observation page. -/
def ObsPage.write (p : ObsPage) (off x : Nat) : ObsPage :=
  if off = 0x000 then (if x % 32 = 0 then { p with trBase := BitVec.ofNat 64 x } else p)
  else if off = 0x008 then (if lo32 x = 0 ∨ powerIn 64 (2 ^ 20) (lo32 x) then { p with trCap := lo32 x } else p)
  else if off = 0x018 then { p with trHead := lo32 x }
  else if off = 0x028 then { p with trMask := x / 2 ^ 8 % 2 ^ 8, lsPer := if within 10 24 (x % 32) then x % 32 else 0 }
  else if within 0x040 0x078 off then
    { p with bp := p.bp.set ((off - 0x040) / 8) (BitVec.ofNat 64 (x / 2 ^ 62 * 2 ^ 62 + x % 2 ^ 54)) }
  else if within 0x080 0x0B8 off then
    let i := (off - 0x080) / 16
    { p with wp := p.wp.set i (watchWrite (p.wp.getD i (0, 0)) (off % 16 == 8) 30 x) }
  else if within 0x0C0 0x0F8 off then
    let i := (off - 0x0C0) / 16
    { p with hw := p.hw.set i (watchWrite (p.hw.getD i (0, 0)) (off % 16 == 8) 21 x) }
  else p

/-- The physical pages that a range of a context resolves to. -/
def resolvePages (c i : Nat) : List (Nat × Nat) → State → List (Nat × Nat × Nat) × State
  | [], s => ([], s)
  | (va, k) :: rest, s =>
    let t := s.translate c va
    let r := resolvePages c i rest t.2
    match t.1 with
    | some xl => (if xl.host then r.1 else (i, xl.pa, k) :: r.1, r.2)
    | none => r

/-- Home-side watchpoint i of a page is resolved when it is written (R335). -/
def State.resolveWatch (s : State) (idx i : Nat) : State :=
  let p := s.obsPage idx
  let c := ((aget s.owners idx).getD 0).toNat % 2 ^ 32
  let w := p.hw.getD i (0, 0)
  let kept := p.hwPages.filter (fun x => x.1 != i)
  if !w.1.getLsbD 63 || w.2 = 0 then { s with obs := aput s.obs idx { p with hwPages := kept } }
  else
    let base := w.1.toNat % 2 ^ 57 / 2 ^ w.2 * 2 ^ w.2
    let r := resolvePages c i (pieces (pieceFuel (2 ^ w.2)) base (2 ^ w.2)) s
    { r.2 with obs := aput r.2.obs idx { p with hwPages := kept ++ r.1 } }

/-- STATUS of a bank after a write of its read-write field, CORRCNT. -/
def Bank.setCount (b : Bank) (x : Nat) : Bank := { b with status := BitVec.ofNat 64 (putField b.status.toNat 32 16 (x / 2 ^ 32)) }

/-- STATUS after ones written to VAL and OVER (Table FAB-6). -/
def Bank.cleared (b : Bank) (bits : Nat) : Bank :=
  let st := b.status.toNat
  let st := if bits.testBit 62 then putField st 62 1 0 else st
  { b with status := BitVec.ofNat 64 (if bits.testBit 63 then putField st 57 7 0 else st) }

/-- The n-byte elements of an array that a write covers, from its first index on. -/
def elements (off width n data : Nat) : List (Nat × Nat) :=
  (List.range (width / n)).map (fun i => (off / n + i, byteField data (n * i) n))

/-- Bytes of machine-check banks, and of the counter area. -/
def bankArea : Nat := 644 * 64
def counterArea : Nat := 384 * 128

/-- An 8-byte register of a function's BAR0 as read (Table HQ-9). -/
def State.barWord (s : State) (func base : Nat) : Nat :=
  if within 0x1000000 0x1FFFFFF base then
    let idx := (base - 0x1000000) / 4096
    if s.ownsPage func idx then (s.obsPage idx).read (base % 4096) else 0
  else if 0x2000000 ≤ base ∧ base < 0x2000000 + counterArea then
    let o := base - 0x2000000
    let k := s.counterOf func (o / 128) (o / 16 % 8)
    if o % 16 = 0 then k.ctl.toNat else k.value.toNat
  else if func ≠ 0 then 0
  else if base < 0x1000 then s.ctl.read base
  else if 0x10000 ≤ base ∧ base < 0x10000 + bankArea then
    let b := (aget s.banks ((base - 0x10000) / 64)).getD Bank.zero
    (match base % 64 with
     | 0 => b.status.toNat
     | 8 => b.addr.toNat
     | 16 => b.ctx.toNat
     | 24 => b.synd.toNat
     | 32 => b.time.toNat
     | _ => 0)
  else if 0x20000 ≤ base ∧ base < 0x20000 + 1288 then
    (List.range 4).foldr (fun i n => (aget s.thresholds ((base - 0x20000) / 2 + i)).getD 65535 + 2 ^ 16 * n) 0
  else if 0x30000 ≤ base ∧ base < 0x30000 + 1536 then
    (List.range 2).foldr (fun i n => (aget s.testPeriods ((base - 0x30000) / 4 + i)).getD 0 + 2 ^ 32 * n) 0
  else if within 0x40000 0x4FFFF base then
    let q := (s.queue ((base - 0x40000) / 16)).getD Queue.fresh
    if base % 16 = 0 then (if q.disabling then 0 else q.desc) else q.func
  else if within 0x50000 0x57FFF base then ((aget s.owners ((base - 0x50000) / 8)).getD 0).toNat
  else if within 0x3000000 0x3000FFF base then
    (List.range 4).foldr (fun i n => (sget s.weights ((base - 0x3000000) / 2 + i)).toNat + 2 ^ 16 * n) 0
  else if within 0x3001000 0x3001FFF base then
    (List.range 8).foldr (fun i n => (sget s.bankSel (base - 0x3001000 + i)).toNat + 2 ^ 8 * n) 0
  else 0

/-- Bits of an 8-byte register that a written 1 clears: VAL and OVER of a bank's STATUS, OVF of a counter's CTL. -/
def clearBits (func base : Nat) : Nat :=
  if 0x2000000 ≤ base ∧ base < 0x2000000 + counterArea then (if base % 16 = 0 then 2 ^ 16 else 0)
  else if func = 0 ∧ 0x10000 ≤ base ∧ base < 0x10000 + bankArea ∧ base % 64 = 0 then 3 * 2 ^ 62
  else 0

/-- An access acts on registers only where it is 4 or 8 bytes wide and naturally aligned (R314). -/
def barAccessOk (off width : Nat) : Bool := (width == 4 || width == 8) && off % width == 0

/-- A read of BAR0. -/
def State.barRead (s : State) (func off width : Nat) : Nat :=
  if barAccessOk off width then byteField (s.barWord func (off / 8 * 8)) (off % 8) width else 0

/-- The doorbell page of a queue as read (Table HQ-3). -/
def Queue.doorbell (q : Queue) (off : Nat) : Nat :=
  match off with
  | 0x08 => q.progress + (if !q.resident && q.state != .disabled then 2 ^ 63 else 0)
  | 0x10 => (match q.state with
    | .idle => 0
    | .running => 1
    | .error => 2
    | .disabled => 3)
  | _ => 0

/-- A write of the energy tables (R339): weights of events 0x01 to 0x0A, and bank numbers 0 to 15. -/
def State.writeWeights (s : State) (off width data : Nat) : State :=
  if off < 0x1000 then
    (elements off width 2 data).foldl (fun (s : State) e =>
      if within 1 10 (e.1 % 128) then { s with weights := sset s.weights e.1 (BitVec.ofNat 16 e.2) } else s) s
  else
    (elements (off - 0x1000) width 1 data).foldl (fun (s : State) e =>
      if e.2 ≤ 15 then { s with bankSel := sset s.bankSel e.1 (BitVec.ofNat 8 e.2) } else s) s

/-- A write of self-test periods (R311): a period begins to run when it is set. -/
def State.writePeriods (s : State) (off width data : Nat) : State :=
  (elements off width 4 data).foldl (fun (s : State) e =>
    if e.1 < 384 ∧ (e.2 = 0 ∨ within 60 86400 e.2) then
      { s with testPeriods := aput s.testPeriods e.1 e.2 }.onCore e.1 (fun c => { c with testAt := s.clock })
    else s) s

/-- A write of an 8-byte register with no behaviour of its own, by its whole new value. -/
def State.writeWord (s : State) (func base x : Nat) : State :=
  if within 0x1000000 0x1FFFFFF base then
    let idx := (base - 0x1000000) / 4096
    if !s.ownsPage func idx then s else
    let o := base % 4096
    let s := { s with obs := aput s.obs idx ((s.obsPage idx).write o x) }
    if within 0x0C0 0x0F8 o then s.resolveWatch idx ((o - 0x0C0) / 16) else s
  else if 0x2000000 ≤ base ∧ base < 0x2000000 + counterArea then
    let o := base - 0x2000000
    let k := s.counterOf func (o / 128) (o / 16 % 8)
    s.setCounter func (o / 128) (o / 16 % 8)
      (if o % 16 = 0 then
        { k with ctl := BitVec.ofNat 64 (x % 2 ^ 8 + bitsOf x 15 15 * 2 ^ 15 + bitsOf x 17 17 * 2 ^ 17 +
                          (if bitsOf x 16 16 = 1 then 0 else bitsOf k.ctl.toNat 16 16) * 2 ^ 16) }
       else { k with value := BitVec.ofNat 48 x })
  else if func ≠ 0 then s
  else if base < 0x1000 then { s with ctl := s.ctl.write base x }
  else if 0x10000 ≤ base ∧ base < 0x10000 + bankArea then
    let n := (base - 0x10000) / 64
    if base % 64 = 0 then { s with banks := aput s.banks n ((((aget s.banks n).getD Bank.zero).setCount x).cleared x) } else s
  else if within 0x40000 0x4FFFF base then
    let slot := (base - 0x40000) / 16
    if base % 16 = 8 ∧ x % 32 ≤ 16 then s.setQueue slot { (s.queue slot).getD Queue.fresh with func := x % 32 } else s
  else s

/-- `REGISTER_WRITE`: a write to BAR0 of a function. An access of another width or alignment is ignored; a 4-byte write acts
on the half that it names, and writes no 1 to a write-one-to-clear bit of the other (R3, R314). Writes of DESC, of context owners
and of the retirement register are steps of their own. -/
def execRegisterWrite (func off width data : Nat) (s : State) : Host.Outcome State Fault Refusal :=
  onLink s (
    if !barAccessOk off width || decide (16 < func) then s
    else
      let data := data % 256 ^ width
      if func = 0 ∧ 0x20000 ≤ off ∧ off < 0x20000 + 1288 then
        (elements (off - 0x20000) width 2 data).foldl (fun (s : State) e =>
          if e.1 < 644 ∧ e.2 ≠ 0 then { s with thresholds := aput s.thresholds e.1 e.2 } else s) s
      else if func = 0 ∧ 0x30000 ≤ off ∧ off < 0x30000 + 1536 then s.writePeriods (off - 0x30000) width data
      else if func = 0 ∧ within 0x3000000 0x3001FFF off then s.writeWeights (off - 0x3000000) width data
      else
        let base := off / 8 * 8
        let w := s.barWord func base
        let old := w - (w &&& clearBits func base)
        s.writeWord func base (if width = 8 then data else putField old (8 * (off % 8)) 32 data))

/-- `CONTEXT_OWNER_WRITE`: a context-owner entry, whose observation page returns to its reset values (R331, Table HQ-11). -/
def execContextOwnerWrite (idx word : Nat) (s : State) : Host.Outcome State Fault Refusal :=
  onLink s (
    let f := word / 2 ^ 32 % 32
    if 4096 ≤ idx || 16 < f then s
    else { s with owners := aput s.owners idx (BitVec.ofNat 64 (word / 2 ^ 63 % 2 * 2 ^ 63 + f * 2 ^ 32 + lo32 word)),
                  obs := adel s.obs idx })

/-- `BANK_STATUS_CLEAR` (R309). -/
def execBankStatusClear (bank bits : Nat) (s : State) : Host.Outcome State Fault Refusal :=
  onLink s (match aget s.banks bank with
    | none => s
    | some b => { s with banks := aput s.banks bank (b.cleared bits) })

end Sys2Proof.Machine
end

