-- ==== Sys2Proof/Machine/LaneInt.lean ====
section
/-! DEFINITION. Integer lane words: arithmetic, shifts, logic, bit fields, comparison and selection (R344, R351 to R353,
R355, R391 to R397, R411, R424, R426, R441, R446). -/

namespace Sys2Proof.Machine

/-- Width of a type's registers: 32, or 64 for pairs. -/
def widthOf (t : LType) : Nat := if t.wide then 64 else 32

/-- The integer operand of a type (R115). -/
def LaneView.int (w : LaneView) (h : LaneHdr) (t : LType) (x : Sel) (l : Nat) : Int := t.intVal (w.src h (otyOf t) x l)

/-- The bits of an operand of a bitwise type. -/
def LaneView.bits (w : LaneView) (h : LaneHdr) (t : LType) (x : Sel) (l : Nat) : Nat := w.src h (otyOf t) x l

/-- A 32-bit count or index, whatever the type of the word (R441, R448). -/
def LaneView.cnt (w : LaneView) (h : LaneHdr) (x : Sel) (l : Nat) : Nat := w.src h .nat x l

/-- An exact integer as a result of a type, clamped with `.SAT` (R114 to R116). -/
def intResult (t : LType) (sat : Bool) (x : Int) : Nat × W32 :=
  if sat then let c := t.clamp x; (t.intBitsOf c.1, gfIf c.2 gfSat) else (t.intBitsOf x, 0)

def execIadd (h : LaneHdr) (t : LType) (sat : Bool) (d : VReg) (a b : Sel) (s : State) :=
  laneMap s h [a, b] d t.wide (fun w l => intResult t sat (w.int h t a l + w.int h t b l))

def execIsub (h : LaneHdr) (t : LType) (sat : Bool) (d : VReg) (a b : Sel) (s : State) :=
  laneMap s h [a, b] d t.wide (fun w l => intResult t sat (w.int h t a l - w.int h t b l))

/-- `IMUL` (R396): the low bits, or bits 63:32 of the product of 32-bit operands with `.HI`. -/
def execImul (h : LaneHdr) (t : LType) (hi : Bool) (d : VReg) (a b : Sel) (s : State) :=
  laneMap s h [a, b] d t.wide (fun w l =>
    let p := w.int h t a l * w.int h t b l
    if hi then ((p.fdiv (2 ^ 32) % 2 ^ 32).toNat, 0) else intResult t false p)

def execImad (h : LaneHdr) (t : LType) (sat : Bool) (d : VReg) (a b c : Sel) (s : State) :=
  laneMap s h [a, b, c] d t.wide (fun w l => intResult t sat (w.int h t a l * w.int h t b l + w.int h t c l))

def execImin (h : LaneHdr) (t : LType) (d : VReg) (a b : Sel) (s : State) :=
  laneMap s h [a, b] d t.wide (fun w l => intResult t false (min (w.int h t a l) (w.int h t b l)))

def execImax (h : LaneHdr) (t : LType) (d : VReg) (a b : Sel) (s : State) :=
  laneMap s h [a, b] d t.wide (fun w l => intResult t false (max (w.int h t a l) (w.int h t b l)))

def execIabs (h : LaneHdr) (t : LType) (sat : Bool) (d : VReg) (a : Sel) (s : State) :=
  laneMap s h [a] d t.wide (fun w l => intResult t sat ((w.int h t a l).natAbs : Int))

def execIneg (h : LaneHdr) (t : LType) (sat : Bool) (d : VReg) (a : Sel) (s : State) :=
  laneMap s h [a] d t.wide (fun w l => intResult t sat (-(w.int h t a l)))

/-- Directions of the lane shifts (R441). -/
inductive ShiftDir where
  | left | right | arith

/-- One shift of a w-bit value (R117, R441). -/
def shiftOp (dir : ShiftDir) (w : Nat) (wrap : Bool) (x n : Nat) : Nat :=
  let n := if wrap then n % w else n
  let neg := decide (2 ^ (w - 1) ≤ x)
  if w ≤ n then
    match dir with
    | .arith => if neg then 2 ^ w - 1 else 0
    | _ => 0
  else
    match dir with
    | .left => x * 2 ^ n % 2 ^ w
    | .right => x / 2 ^ n
    | .arith => if neg then 2 ^ w - 1 - (2 ^ w - 1 - x) / 2 ^ n else x / 2 ^ n

def shiftWord (dir : ShiftDir) (h : LaneHdr) (t : LType) (wrap : Bool) (d : VReg) (a b : Sel) (s : State) :
    Host.Outcome State Fault Refusal :=
  laneMap s h [a, b] d t.wide (fun w l => (shiftOp dir (widthOf t) wrap (w.bits h t a l) (w.cnt h b l), 0))

def execShl (h : LaneHdr) (t : LType) (wrap : Bool) (d : VReg) (a b : Sel) (s : State) :=
  shiftWord .left h t wrap d a b s
def execShr (h : LaneHdr) (t : LType) (wrap : Bool) (d : VReg) (a b : Sel) (s : State) :=
  shiftWord .right h t wrap d a b s
def execSar (h : LaneHdr) (t : LType) (wrap : Bool) (d : VReg) (a b : Sel) (s : State) :=
  shiftWord .arith h t wrap d a b s

/-- A bitwise word of two sources. -/
def bitWord (f : Nat → Nat → Nat) (h : LaneHdr) (t : LType) (d : VReg) (a b : Sel) (s : State) :
    Host.Outcome State Fault Refusal :=
  laneMap s h [a, b] d t.wide (fun w l => (f (w.bits h t a l) (w.bits h t b l), 0))

def execAnd (h : LaneHdr) (t : LType) (d : VReg) (a b : Sel) (s : State) := bitWord (· &&& ·) h t d a b s
def execOr (h : LaneHdr) (t : LType) (d : VReg) (a b : Sel) (s : State) := bitWord (· ||| ·) h t d a b s
def execXor (h : LaneHdr) (t : LType) (d : VReg) (a b : Sel) (s : State) := bitWord (· ^^^ ·) h t d a b s

/-- Complement in w bits. -/
def notBits (w x : Nat) : Nat := 2 ^ w - 1 - x

/-- The operations of Table REF-10 on w-bit values. -/
def logicOp (w : Nat) (g : Fin 8) (x y : Nat) : Nat :=
  match g.val with
  | 0 => x &&& y
  | 1 => x ||| y
  | 2 => x ^^^ y
  | 3 => x &&& notBits w y
  | 4 => x ||| notBits w y
  | 5 => notBits w (x ^^^ y)
  | 6 => notBits w (x &&& y)
  | _ => notBits w (x ||| y)

def execLogic (h : LaneHdr) (t : LType) (g1 g2 : Fin 8) (inv sel : Bool) (d : VReg) (a b c : Sel) (s : State) :=
  laneMap s h [a, b, c] d t.wide (fun v l =>
    let w := (widthOf t)
    let x := v.bits h t a l
    let y := v.bits h t b l
    let z := v.bits h t c l
    let r := if sel then (x &&& z) ||| (y &&& notBits w z) else logicOp w g2 (logicOp w g1 x y) z
    (if inv then notBits w r else r, 0))

/-- Ones among the low n bits. -/
def popcount : Nat → Nat → Nat
  | 0, _ => 0
  | n + 1, x => x % 2 + popcount n (x / 2)

/-- Leading zeros of a w-bit value. -/
def leadingZeros (w x : Nat) : Nat := if x = 0 then w else w - 1 - Nat.log2 x

/-- The low n bits in reverse order. -/
def reverseBits : Nat → Nat → Nat
  | 0, _ => 0
  | n + 1, x => x % 2 * 2 ^ n + reverseBits n (x / 2)

def execPopc (h : LaneHdr) (t : LType) (d : VReg) (a : Sel) (s : State) :=
  laneMap s h [a] d false (fun w l => (popcount (widthOf t) (w.bits h t a l), 0))
def execClz (h : LaneHdr) (t : LType) (d : VReg) (a : Sel) (s : State) :=
  laneMap s h [a] d false (fun w l => (leadingZeros (widthOf t) (w.bits h t a l), 0))
def execBrev (h : LaneHdr) (t : LType) (d : VReg) (a : Sel) (s : State) :=
  laneMap s h [a] d t.wide (fun w l => (reverseBits (widthOf t) (w.bits h t a l), 0))
def execMov (h : LaneHdr) (t : LType) (d : VReg) (a : Sel) (s : State) :=
  laneMap s h [a] d t.wide (fun w l => (w.bits h t a l, 0))

/-- Position and length of a bit field (R351). -/
def LaneView.field (w : LaneView) (h : LaneHdr) (p : BfPos) (l : Nat) : Nat × Nat :=
  match p with
  | .fixed pos len => (pos.val, len.val)
  | .var b => let x := w.cnt h b l; (x % 32, min (x / 32 % 64) 32)

/-- The extracted field: bits beyond 31 repeat the sign, or are 0 (R351). -/
def bfe (signed : Bool) (x pos len : Nat) : Nat :=
  let ext := if signed && decide (2 ^ 31 ≤ x) then x + (2 ^ 32 - 1) * 2 ^ 32 else x
  let f := ext / 2 ^ pos % 2 ^ len
  if signed && decide (0 < len) && decide (2 ^ (len - 1) ≤ f) then (f + 2 ^ 32 - 2 ^ len) % 2 ^ 32 else f

/-- The base with the field inserted; bits beyond 31 are dropped (R352). -/
def bfi (base x pos len : Nat) : Nat :=
  let mask := (2 ^ len - 1) * 2 ^ pos % 2 ^ 32
  (base &&& notBits 32 mask) ||| (x * 2 ^ pos % 2 ^ 32 &&& mask)

def execBfe (h : LaneHdr) (t : LType) (pos : BfPos) (d : VReg) (a : Sel) (s : State) :=
  laneMap s h (a :: pos.sels.map (·.1)) d false (fun w l =>
    let p := w.field h pos l
    (bfe (t == .i32) (w.cnt h a l) p.1 p.2, 0))

def execBfi (h : LaneHdr) (pos : BfPos) (d : VReg) (a c : Sel) (s : State) :=
  laneMap s h (a :: c :: pos.sels.map (·.1)) d false (fun w l =>
    let p := w.field h pos l
    (bfi (w.cnt h c l) (w.cnt h a l) p.1 p.2, 0))

/-- Byte i of the result of `PRMT` (R426). -/
def prmtByte (x c i : Nat) : Nat :=
  let n := c / 16 ^ i % 16
  let b := x / 256 ^ (n % 8) % 256
  if n < 8 then b else if 128 ≤ b then 255 else 0

def execPrmt (h : LaneHdr) (d : VReg) (a b c : Sel) (s : State) :=
  laneMap s h [a, b, c] d false (fun w l =>
    let x := w.cnt h a l + 2 ^ 32 * w.cnt h b l
    let n := w.cnt h c l
    (prmtByte x n 0 + 256 * prmtByte x n 1 + 256 ^ 2 * prmtByte x n 2 + 256 ^ 3 * prmtByte x n 3, 0))

/-- The type code of a comparison's type (Table ASM-9). -/
def setpType : SetpTy → LType
  | .i32 => .i32
  | .n32 => .n32
  | .i64 => .i64
  | .n64 => .n64
  | .i16 => .i16
  | .n16 => .n16
  | .i8 => .i8
  | .n8 => .n8

def icondHolds (c : ICond) (x y : Int) : Bool :=
  match c with
  | .eq => decide (x = y)
  | .ne => decide (x ≠ y)
  | .lt => decide (x < y)
  | .le => decide (x ≤ y)
  | .gt => decide (y < x)
  | .ge => decide (y ≤ x)

def execIsetp (h : LaneHdr) (t : SetpTy) (cond : ICond) (d : PReg) (a b : Sel) (s : State) :=
  lanePred s h [a, b] d (fun w l => icondHolds cond (w.int h (setpType t) a l) (w.int h (setpType t) b l))

/-- The value of a predicate operand with its inversion. -/
def LaneView.psel (w : LaneView) (q : PSel) (l : Nat) : Bool := w.pred q.p.val l != q.inv

def execSel (h : LaneHdr) (t : LType) (q : PSel) (d : VReg) (a b : Sel) (s : State) :=
  laneMap s h [a, b] d t.wide (fun w l => (w.bits h t (if w.psel q l then a else b) l, 0))

/-- Byte i of a word as an integer of a type's sign. -/
def byteVal (signed : Bool) (x i : Nat) : Int :=
  let b := x / 256 ^ i % 256
  if signed && decide (128 ≤ b) then (b : Int) - 256 else b

def execIdot4 (h : LaneHdr) (t : LType) (sat : Bool) (d : VReg) (a b c : Sel) (s : State) :=
  laneMap s h [a, b, c] d false (fun w l =>
    let x := w.cnt h a l
    let y := w.cnt h b l
    let sg := t == .i32
    intResult t sat (w.int h t c l + byteVal sg x 0 * byteVal sg y 0 + byteVal sg x 1 * byteVal sg y 1 +
      byteVal sg x 2 * byteVal sg y 2 + byteVal sg x 3 * byteVal sg y 3))

end Sys2Proof.Machine
end

