-- ==== Sys2Proof/Machine/LaneMem.lean ====
section
/-! DEFINITION. Lane memory words: global, scratch, window and fabric accesses, atomics, tags, `WAITP` and `PREF`
(R147 to R153, R161 to R165, R345 to R347, R405, R406, R425, R429, R430, R432, R459, R460, R465). -/

namespace Sys2Proof.Machine

/-! Addresses (R148 to R151) -/

/-- The 64-bit base of a global or fabric address. -/
def LaneView.base64 (w : LaneView) (a : Sel) (l : Nat) : Nat :=
  match a with
  | .v r => w.reg r.val l + 2 ^ 32 * w.reg (r.val + 1) l
  | .k r => (sget w.k r.val).toNat
  | _ => 0

/-- The index of a global address, 0 where there is none. -/
def LaneView.index (w : LaneView) (h : LaneHdr) (b : Sel) (l : Nat) : Nat := sext32to64 (w.cnt h b l)

/-- A global address of a lane (R148). -/
def LaneView.globalAddr (w : LaneView) (h : LaneHdr) (a b : Sel) (off : W16) (l : Nat) : Nat :=
  (w.base64 a l + w.index h b l + sext16to64 off) % 2 ^ 64

/-- A scratch or window address of a lane (R149, R150). -/
def LaneView.scratchAddr (w : LaneView) (h : LaneHdr) (a b : Sel) (off : W16) (l : Nat) : Nat :=
  (w.cnt h a l + w.cnt h b l + sext16to32 off) % 2 ^ 32

/-- An offset in a peer's window (R151). -/
def LaneView.fabricOff (w : LaneView) (a : Sel) (off : W16) (l : Nat) : Nat :=
  (w.base64 a l + sext16to64 off) % 2 ^ 64

/-! Checks of all lanes (R153) -/

/-- The step of Table MEM-2 that a cause belongs to; poison comes after them. -/
def causeStep : Cause → Nat
  | .alignment => 1
  | .translation => 2
  | .protection => 3
  | .remote => 4
  | .watchpoint => 5
  | _ => 6

/-- Check lanes one by one: what each passes to, or meets. -/
def checkLanes {α : Type} (f : State → Nat → Except Meet α × State) : List Nat → State →
    List (Nat × Except Meet α) × State
  | [], s => ([], s)
  | l :: ls, s => let r := f s l; let rs := checkLanes f ls r.2; ((l, r.1) :: rs.1, rs.2)

/-- The first cause any lane meets, with the lanes that meet it: INFO is that of the lowest; of a REMOTE cause the lowest
rank; of WATCHPOINT the lowest watchpoint, whose lanes alone are named (R335). -/
def firstCause {α : Type} (rs : List (Nat × Except Meet α)) : Option (Meet × List Nat) :=
  let bad := rs.filterMap (fun r => match r.2 with
    | .error m => some (r.1, m)
    | .ok _ => none)
  match bad with
  | [] => none
  | b :: _ =>
    let step := bad.foldl (fun n x => min n (causeStep x.2.cause)) (causeStep b.2.cause)
    match bad.filter (fun x => causeStep x.2.cause == step) with
    | [] => none
    | x :: xs =>
      let info := if step = 4 || step = 5 then (x :: xs).foldl (fun n y => min n y.2.info) x.2.info else x.2.info
      some (⟨x.2.cause, info⟩, ((x :: xs).filter (fun y => step != 5 || y.2.info == info)).map (·.1))

/-- What the lanes passed to. -/
def passed {α : Type} (rs : List (Nat × Except Meet α)) : List (Nat × α) :=
  rs.filterMap (fun r => match r.2 with
    | .ok a => some (r.1, a)
    | .error _ => none)

/-- Check every active lane: the trap that the word takes, or what each lane passes to. -/
def State.checkAll {α : Type} (s : State) (g : GRef) (act : List Nat) (addr : Nat → Nat)
    (f : State → Nat → Except Meet α × State) (k : List (Nat × α) → State → State) : State :=
  let rs := checkLanes f act s
  match firstCause rs.1 with
  | some (m, ls) => rs.2.trapL g m.cause m.info (addr (ls.headD 0)) (laneMask ls)
  | none => k (passed rs.1) rs.2

/-! Units (Table ORD-1) -/

/-- Bytes of each unit of an access, and how many. -/
def unitBytes (fn : MemFn) : Nat := if fn.atomic then fn.width.bytes else min fn.width.bytes 4
def unitCount (fn : MemFn) : Nat := fn.width.bytes / unitBytes fn

/-- What an address must be a multiple of (Table MEM-2 step 1). -/
def memMult (fn : MemFn) : Nat := unitBytes fn

def loadSext : MWidth → Bool
  | .i8 | .i16 => true
  | _ => false

/-- Registers that unit i of a load fills. -/
def unitDst (fn : MemFn) (d : VReg) (i : Nat) : List (Option Nat) :=
  let n := (unitBytes fn + 3) / 4
  (List.range n).map (fun j => some (d.val + n * i + j))

/-- The space of a translated page. -/
def xlSpace (xl : Xl) : Space := if xl.host then .host else .global

/-- Where the byte at an offset of an access lies: in one space at consecutive addresses, or in the pages that its first and last
bytes translate to. -/
def inSpace (space : Space) (pa o : Nat) : Space × Nat := (space, pa + o)
def inPages (x : Xl × Xl) (va n o : Nat) : Space × Nat :=
  let xl := spanAt x va n o
  (xlSpace xl, xl.pa)

/-- Registers that a load writes. -/
def loadRegs (fn : MemFn) (d : VReg) : List Nat := (List.range ((fn.width.bytes + 3) / 4)).map (d.val + ·)

/-- Units of a load by one lane. -/
def loadUnits (fn : MemFn) (d : VReg) (h : LaneHdr) (place : Nat → Space × Nat) (va l phys : Nat) : List AUnit :=
  (List.range (unitCount fn)).map (fun i =>
    let p := place (i * unitBytes fn)
    { space := p.1, kind := .load (loadSext fn.width), va := va + i * unitBytes fn, pa := p.2,
      bytes := unitBytes fn, lane := l, phys := phys, data := 0, cmp := 0, dst := unitDst fn d i, mor := false,
      hint := h.ch })

/-- Units of a store by one lane. -/
def storeUnits (fn : MemFn) (h : LaneHdr) (place : Nat → Space × Nat) (va l data : Nat) (mor : Nat → Bool) : List AUnit :=
  (List.range (unitCount fn)).map (fun i =>
    let p := place (i * unitBytes fn)
    { space := p.1, kind := .store, va := va + i * unitBytes fn, pa := p.2,
      bytes := unitBytes fn, lane := l, phys := l, data := data / 256 ^ (i * unitBytes fn) % 256 ^ unitBytes fn,
      cmp := 0, dst := [], mor := mor (i * unitBytes fn), hint := h.ch })

/-- The data operand of a store at its width (R459). -/
def LaneView.storeData (w : LaneView) (h : LaneHdr) (width : MWidth) (c : Sel) (l : Nat) : Nat :=
  match width, c with
  | .b128, .v r => w.reg r.val l + 2 ^ 32 * w.reg (r.val + 1) l + 2 ^ 64 * w.reg (r.val + 2) l +
      2 ^ 96 * w.reg (r.val + 3) l
  | .b64, _ => w.src h .n64 c l
  | _, _ => w.cnt h c l % 256 ^ width.bytes

/-! Issue -/

/-- A word that writes the destination of a pending load ends that load's write of it: the register ends with the later word's
value (R165). -/
def Group.overwritten (gr : Group) (units : List AUnit) : Group :=
  units.foldl (fun gr u => u.dst.foldl (fun gr d =>
    match d with
    | some r => { gr with out := gr.out.map (fun o => { o with units := o.units.map (cancelDst r u.phys) }) }
    | none => gr) gr) gr

/-- The word goes on to the outstanding list: its path's counter rises, and the lane stream goes on (R163). -/
def State.issueMem (s : State) (g : GRef) (gr : Group) (sels : List Sel) (path : PathClass) (ret : Bool)
    (act : List Nat) (units : List AUnit) (passes : List Pass := []) : State :=
  let o : OutOp := { id := gr.nextId, path := path, ret := ret, units := units, allLanes := laneMask act, pc := gr.lpc,
                     sent := none, passes := passes }
  let gr := gr.overwritten units
  s.laneDone g { gr with out := gr.out ++ [o], nextId := gr.nextId + 1 } (laneSlots sels)

/-- A word that would raise its counter above 63 is held (R163). -/
def State.withPath (s : State) (g : GRef) (path : PathClass) (k : GRef → Group → State → State) : State :=
  match s.group g with
  | none => s
  | some gr =>
    if gr.pathCount path < 63 then k g gr s
    else
      let s := s.drainOf .domain g
      match s.group g with
      | none => s
      | some gr => if gr.pathCount path < 63 then k g gr s else s.holdL g gr (.path path 62)

/-- A lane memory word: the path's limit, then the view, then the word itself; `dst` is the registers that it writes. -/
def memWord (s : State) (h : LaneHdr) (path : PathClass) (dst : List Nat)
    (k : GRef → Group → LaneView → List Nat → State → State) : Host.Outcome State Fault Refusal :=
  onLane s (fun g _ =>
    s.withPath g path (fun g gr s => let v := s.view (gr.interlockRegs dst []); k g gr v.1 (v.1.active h) v.2))

/-- `LDG` (R405, R406). -/
def execLdg (h : LaneHdr) (fn : MemFn) (d : VReg) (a b : Sel) (off : W16) (s : State) :=
  memWord s h .gl (loadRegs fn d) (fun g gr w act s =>
    let va := w.globalAddr h a b off
    s.checkAll g act va (fun s l =>
        s.checkSpan (s.ctxOf g) (va l) fn.width.bytes (memMult fn) true false true (!gr.skipL.wp) (some g.core) (s.teamIdOf g))
      (fun xs s => s.issueMem g gr [a, b] .gl true act
        (xs.flatMap (fun x => loadUnits fn d h (inPages x.2 (va x.1) fn.width.bytes) (va x.1) x.1 (w.phys x.1)))))

/-- `STG` (R459). -/
def execStg (h : LaneHdr) (fn : MemFn) (a b c : Sel) (off : W16) (s : State) :=
  memWord s h .st [] (fun g gr w act s =>
    let va := w.globalAddr h a b off
    s.checkAll g act va (fun s l =>
        s.checkSpan (s.ctxOf g) (va l) fn.width.bytes (memMult fn) false true true (!gr.skipL.wp) (some g.core) (s.teamIdOf g))
      (fun xs s => s.issueMem g gr [a, b, c] .st false act
        (xs.flatMap (fun x =>
          storeUnits fn h (inPages x.2 (va x.1) fn.width.bytes) (va x.1) x.1 (w.storeData h fn.width c x.1)
            (fun o => (spanAt x.2 (va x.1) fn.width.bytes o).mor)))))

/-! Scratch and window -/

/-- The check of a scratch access, or of a window access, with the offset it reaches. -/
def State.checkLocal (s : State) (window : Bool) (t : TRef) (a n mult : Nat) : Except Meet (TRef × Nat) × State :=
  if window then
    (match s.checkWindow t a n mult with
     | .ok t' => .ok (t', a % 2 ^ 18)
     | .error m => .error m, s)
  else
    (match s.checkScratch t a n mult with
     | .ok t' => .ok (t', a)
     | .error m => .error m, s)

/-- A tagged word waits, lane by lane: lanes already performed are not performed again (R161, R214, R215). -/
def State.issueTagged (s : State) (g : GRef) (sels : List Sel) (ret : Bool) (units : List AUnit) : State :=
  let s := s.drainOf .domain g
  match s.group g with
  | none => s
  | some gr =>
    if gr.domainUnits != 0 then s.holdL g gr .blockEnd
    else
      let gr := gr.overwritten units
      let todo := units.filter (fun u => !gr.tagDone.getLsbD u.lane)
      let s := s.holdL g { gr with tagPend := todo, tagRet := ret, tagSlots := laneSlots sels } .tag
      if todo.isEmpty then
        match s.group g with
        | none => s
        | some gr => s.tagFinish g gr
      else (tagCores todo).foldl (fun s core => s.wakeTags core) s

/-- A tagged unit leaves its word FULL or EMPTY (Table MEM-4): kept in the comparand field. -/
def leaveTag (full : Bool) (u : AUnit) : AUnit := { u with cmp := if full then 1 else 0 }

/-- Scratch and window loads (R405, R406). -/
def localLoad (window : Bool) (h : LaneHdr) (fn : MemFn) (d : VReg) (a b : Sel) (off : W16) (s : State) :
    Host.Outcome State Fault Refusal :=
  memWord s h .sl (loadRegs fn d) (fun g gr w act s =>
    let va := w.scratchAddr h a b off
    s.checkAll g act va (fun s l => s.checkLocal window (s.teamRefOf g) (va l) fn.width.bytes (memMult fn))
      (fun xs s =>
        let units := xs.flatMap (fun x => loadUnits fn d h (inSpace (.scratch x.2.1) x.2.2) (va x.1) x.1 (w.phys x.1))
        if fn.tag = .none then s.issueMem g gr [a, b] .sl true act units
        else s.issueTagged g [a, b] true (units.map (leaveTag (fn.tag == .fk)))))

/-- Scratch and window stores (R459). -/
def localStore (window : Bool) (h : LaneHdr) (fn : MemFn) (a b c : Sel) (off : W16) (s : State) :
    Host.Outcome State Fault Refusal :=
  memWord s h .st [] (fun g gr w act s =>
    let va := w.scratchAddr h a b off
    s.checkAll g act va (fun s l => s.checkLocal window (s.teamRefOf g) (va l) fn.width.bytes (memMult fn))
      (fun xs s =>
        let units := xs.flatMap (fun x =>
          storeUnits fn h (inSpace (.scratch x.2.1) x.2.2) (va x.1) x.1 (w.storeData h fn.width c x.1) (fun _ => false))
        if fn.tag = .none then s.issueMem g gr [a, b, c] .st false act units
        else s.issueTagged g [a, b, c] false (units.map (leaveTag true))))

def execLds (h : LaneHdr) (fn : MemFn) (d : VReg) (a b : Sel) (off : W16) (s : State) := localLoad false h fn d a b off s
def execLdx (h : LaneHdr) (fn : MemFn) (d : VReg) (a b : Sel) (off : W16) (s : State) := localLoad true h fn d a b off s
def execSts (h : LaneHdr) (fn : MemFn) (a b c : Sel) (off : W16) (s : State) := localStore false h fn a b c off s
def execStx (h : LaneHdr) (fn : MemFn) (a b c : Sel) (off : W16) (s : State) := localStore true h fn a b c off s

/-- A unit that sets or reads a tag (R218, R460). -/
def tagUnitOf (kind : UKind) (t : TRef) (a l phys : Nat) (dst : List (Option Nat)) : AUnit :=
  { space := .scratch t, kind := kind, va := a, pa := a, bytes := 4, lane := l, phys := phys, data := 0, cmp := 0,
    dst := dst, mor := false }

def execTagset (h : LaneHdr) (full : Bool) (a b : Sel) (off : W16) (s : State) :=
  memWord s h .st [] (fun g gr w act s =>
    let va := w.scratchAddr h a b off
    s.checkAll g act va (fun s l => s.checkLocal false (s.teamRefOf g) (va l) 4 4)
      (fun xs s => s.issueMem g gr [a, b] .st false act
        (xs.map (fun x => tagUnitOf (.tagSet full) x.2.1 x.2.2 x.1 x.1 []))))

def execTagget (h : LaneHdr) (d : VReg) (a b : Sel) (off : W16) (s : State) :=
  memWord s h .sl [d.val] (fun g gr w act s =>
    let va := w.scratchAddr h a b off
    s.checkAll g act va (fun s l => s.checkLocal false (s.teamRefOf g) (va l) 4 4)
      (fun xs s => s.issueMem g gr [a, b] .sl true act
        (xs.map (fun x => tagUnitOf .tagGet x.2.1 x.2.2 x.1 (w.phys x.1) [some d.val]))))

/-! Atomics (R345 to R347, R432) -/

/-- The type at which a 64-bit atomic reads its operands: signed minimum and maximum are of `.I64`, the others of `.N64` (Table
FMT-5, R345). The code of ADD, XCH and CAS carries no signedness and the spec does not say how their inline and immediate
operands extend; they are zero-extended here (DESIGN CHOICE, log entry 111). -/
def wideAtomType (op : AOp) : OTy :=
  match op with
  | .mins | .maxs => .i64
  | _ => .n64

/-- The operand of an atomic at its width. -/
def LaneView.atomSrc (w : LaneView) (h : LaneHdr) (op : AOp) (aw : AWidth) (x : Sel) (l : Nat) : Nat :=
  match aw with
  | .w32 => w.cnt h x l
  | .w64 => w.src h (wideAtomType op) x l

/-- The unit of an atomic by one lane. -/
def atomUnit (h : LaneHdr) (op : AOp) (aw : AWidth) (space : Space) (va pa l phys data cmp : Nat) (dst : List (Option Nat))
    (mor : Bool) : AUnit :=
  { space := space, kind := .rmw op, va := va, pa := pa, bytes := aw.bytes, lane := l, phys := phys, data := data,
    cmp := cmp, dst := dst, mor := mor, hint := h.ch }

/-- Registers that an old value fills. -/
def atomDst (nr : Bool) (aw : AWidth) (d : VReg) : List (Option Nat) :=
  if nr then [] else
  match aw with
  | .w32 => [some d.val]
  | .w64 => [some d.val, some (d.val + 1)]

/-- A reduction of codes 0 to 7 takes its place when it issues: what the group has outstanding is performed first, and
then each lane's reduction, gathered or not (R159, R178). -/
def State.reduceNow (s : State) (g : GRef) (units : List AUnit) : State :=
  (units.foldl (fun s u =>
    match u.kind with
    | .rmw op => s.coreReduce g op (if u.bytes = 8 then .w64 else .w32) u.pa u.data u.mor u.hint
    | _ => s) s).settle g.core

/-- Issue a global reduction: performed now where the group's earlier units can be, else in its place behind them. -/
def State.issueReduce (s : State) (g : GRef) (sels : List Sel) (act : List Nat) (units : List AUnit) : State :=
  let s := s.drainOf .domain g
  match s.group g with
  | none => s
  | some gr =>
    if gr.domainUnits != 0 || units.any (fun u => u.isHost || s.locked u.pa) then
      s.issueMem g gr sels .st false act units
    else (s.issueMem g gr sels .st false act []).reduceNow g units

/-- `ATOM`, `ATOM.NR` and `RED`: `red` needs W alone and takes no host page. -/
def globalAtomic (red : Bool) (h : LaneHdr) (op : AOp) (aw : AWidth) (nr : Bool) (d : VReg) (a b c e : Sel)
    (off : W16) (s : State) : Host.Outcome State Fault Refusal :=
  memWord s h (if nr then .st else .gl) ((atomDst nr aw d).filterMap id) (fun g gr w act s =>
    let va := w.globalAddr h a b off
    s.checkAll g act va (fun s l =>
        s.checkGlobal (s.ctxOf g) (va l) aw.bytes aw.bytes (!red) true (!red && hostAtomic op) (!gr.skipL.wp) (some g.core) (s.teamIdOf g))
      (fun xs s =>
        let units := xs.map (fun x =>
          atomUnit h op aw (xlSpace x.2) (va x.1) x.2.pa x.1 (w.phys x.1) (w.atomSrc h op aw c x.1)
            (if op = .cas then w.atomSrc h op aw e x.1 else 0) (atomDst nr aw d) x.2.mor)
        if nr && op.gathers then s.issueReduce g [a, b, c, e] act units
        else s.issueMem g gr [a, b, c, e] (if nr then .st else .gl) (!nr) act units))

def execAtom (h : LaneHdr) (op : AOp) (w : AWidth) (nr : Bool) (d : VReg) (a b c e : Sel) (off : W16) (s : State) :=
  globalAtomic false h op w nr d a b c e off s
def execRed (h : LaneHdr) (op : AOp) (w : AWidth) (a b c : Sel) (off : W16) (s : State) :=
  globalAtomic true h op w true 0 a b c (.inl 0) off s

/-! Fabric (R151, R429, R430) -/

/-- Ranks of the passes: distinct, ascending. -/
def passRanks (rs : List Nat) : List Nat := sortBy (fun a b => decide (a < b)) rs.eraseDups

/-- The passes of a fabric word with the lanes and the lowest lane's offset of each (R295). -/
def passesOf (xs : List (Nat × Nat)) (va : Nat → Nat) : List Pass :=
  (passRanks (xs.map (·.2))).map (fun r =>
    let ls := (xs.filter (fun x => x.2 == r)).map (·.1)
    ⟨r, laneMask ls, (ls.head?.map va).getD 0⟩)

/-- Units of every pass, in the order of R176. -/
def passUnits (xs : List (Nat × Nat)) (f : Nat → Nat → List AUnit) : List AUnit :=
  (passRanks (xs.map (·.2))).flatMap (fun r => (xs.filter (fun x => x.2 == r)).flatMap (fun x => f x.1 r))

/-- A fabric word: the issuer's checks of every lane, then the passes. -/
def fabricWord (s : State) (h : LaneHdr) (a rank : Sel) (off : W16) (n mult : Nat) (rd wr hostOk : Bool) (dst : List Nat)
    (sels : List Sel) (f : LaneView → Nat → Nat → Nat → List AUnit) : Host.Outcome State Fault Refusal :=
  memWord s h .rm dst (fun g gr w act s =>
    let va := w.fabricOff a off
    let rk (l : Nat) := w.cnt h rank l
    s.checkAll g act va (fun s l => s.checkFabric (s.ctxOf g) (rk l) (va l) n mult rd wr hostOk (some g.core))
      (fun _ s =>
        let xs := act.map (fun l => (l, rk l))
        s.issueMem g gr sels .rm rd act (passUnits xs (fun l r => f w l r (va l))) (passesOf xs va)))

def execRld (h : LaneHdr) (fn : MemFn) (d : VReg) (a rank : Sel) (off : W16) (s : State) :=
  fabricWord s h a rank off fn.width.bytes (memMult fn) true false true (loadRegs fn d) [a, rank]
    (fun w l r va => loadUnits fn d h (inSpace (.fabric r) va) va l (w.phys l))

def execRst (h : LaneHdr) (fn : MemFn) (a rank c : Sel) (off : W16) (s : State) :=
  fabricWord s h a rank off fn.width.bytes (memMult fn) false true true [] [a, rank, c]
    (fun w l r va => storeUnits fn h (inSpace (.fabric r) va) va l (w.storeData h fn.width c l) (fun _ => false))

def execRatom (h : LaneHdr) (op : AOp) (w : AWidth) (nr : Bool) (d : VReg) (a rank c e : Sel) (off : W16) (s : State) :=
  fabricWord s h a rank off w.bytes w.bytes true true (hostAtomic op) ((atomDst nr w d).filterMap id)
    [a, rank, c, e]
    (fun v l r va => [atomUnit h op w (.fabric r) va va l (v.phys l) (v.atomSrc h op w c l)
      (if op = .cas then v.atomSrc h op w e l else 0) (atomDst nr w d) false])

/-! `WAITP` and `PREF` -/

/-- The path's completed words are covered: every read sees their values (R165). -/
def Group.covered (gr : Group) (p : PathClass) : Group :=
  let held := (gr.out.filter (fun o => o.path == p)).map (·.id)
  { gr with alt := gr.alt.filter (fun a => a.path != some p || held.contains a.id) }

/-- `WAITP` (R164, R465): its limit is a 32-bit value whatever the lanes. -/
def execWaitp (h : LaneHdr) (path : PathClass) (a : Sel) (s : State) : Host.Outcome State Fault Refusal :=
  onLane s (fun g _ =>
    let s := s.drainOf .domain g
    match s.group g with
    | none => s
    | some gr =>
      let v := s.view gr
      let limit := v.1.cnt h a 0
      if gr.pathCount path ≤ limit then v.2.laneDone g (gr.covered path) (laneSlots [a])
      else v.2.holdL g gr (.waitp path limit (laneSlots [a])))

/-- `PREF` changes no value that any access returns (R425). -/
def execPref (h : LaneHdr) (_l2 : Bool) (a b : Sel) (_off : W16) (s : State) :=
  laneWord s h [a, b] (fun _ _ => ⟨[], [], 0⟩)

end Sys2Proof.Machine
end

