-- ==== Sys2Proof/Machine/ScalarAlu.lean ====
section
/-! DEFINITION. Scalar arithmetic, logic, shifts, comparisons and moves (R439, R440, R445, R451, R453, R454, R458). None
sets a flag or traps beyond decode. -/

namespace Sys2Proof.Machine

/-- The second operand of an immediate form (R64). -/
def sextImm (imm : BitVec 12) : W64 := imm.signExtend 64

/-- A scalar word that writes one scalar register from its group. -/
def scalarTo (s : State) (d : SReg) (f : Group → W64) : Host.Outcome State Fault Refusal :=
  scalarWord s (fun gr => gr.setS d (f gr))

/-- Signed quotient and remainder (R118). -/
def sdivQuot (a b : W64) : W64 := if b = 0 then 0 else BitVec.ofInt 64 (Int.tdiv a.toInt b.toInt)
def sdivRem (a b : W64) : W64 := if b = 0 then a else BitVec.ofInt 64 (Int.tmod a.toInt b.toInt)
/-- Unsigned quotient and remainder (R118). -/
def udivQuot (a b : W64) : W64 := if b = 0 then 0 else a / b
def udivRem (a b : W64) : W64 := if b = 0 then a else a % b

/-- `SDIV` with its modifiers. -/
def sdivOp (uns rem : Bool) (a b : W64) : W64 :=
  if uns then (if rem then udivRem a b else udivQuot a b) else (if rem then sdivRem a b else sdivQuot a b)

def sminOp (uns : Bool) (a b : W64) : W64 := if uns then (if b < a then b else a) else (if b.slt a then b else a)
def smaxOp (uns : Bool) (a b : W64) : W64 := if uns then (if a < b then b else a) else (if a.slt b then b else a)

/-- Shift counts are taken modulo 64 (R117). -/
def shiftCount (x : W64) : Nat := x.toNat % 64

def execSaddReg (_bt : Bt) (d a b : SReg) (s : State) := scalarTo s d (fun gr => gr.sreg a + gr.sreg b)
def execSsubReg (_bt : Bt) (d a b : SReg) (s : State) := scalarTo s d (fun gr => gr.sreg a - gr.sreg b)
def execSmulReg (_bt : Bt) (d a b : SReg) (s : State) := scalarTo s d (fun gr => gr.sreg a * gr.sreg b)
def execSdivReg (_bt : Bt) (uns rem : Bool) (d a b : SReg) (s : State) :=
  scalarTo s d (fun gr => sdivOp uns rem (gr.sreg a) (gr.sreg b))
def execSandReg (_bt : Bt) (d a b : SReg) (s : State) := scalarTo s d (fun gr => gr.sreg a &&& gr.sreg b)
def execSorReg (_bt : Bt) (d a b : SReg) (s : State) := scalarTo s d (fun gr => gr.sreg a ||| gr.sreg b)
def execSxorReg (_bt : Bt) (d a b : SReg) (s : State) := scalarTo s d (fun gr => gr.sreg a ^^^ gr.sreg b)
def execSshlReg (_bt : Bt) (d a b : SReg) (s : State) :=
  scalarTo s d (fun gr => gr.sreg a <<< shiftCount (gr.sreg b))
def execSshrReg (_bt : Bt) (d a b : SReg) (s : State) :=
  scalarTo s d (fun gr => gr.sreg a >>> shiftCount (gr.sreg b))
def execSsarReg (_bt : Bt) (d a b : SReg) (s : State) :=
  scalarTo s d (fun gr => (gr.sreg a).sshiftRight (shiftCount (gr.sreg b)))
def execSminReg (_bt : Bt) (uns : Bool) (d a b : SReg) (s : State) :=
  scalarTo s d (fun gr => sminOp uns (gr.sreg a) (gr.sreg b))
def execSmaxReg (_bt : Bt) (uns : Bool) (d a b : SReg) (s : State) :=
  scalarTo s d (fun gr => smaxOp uns (gr.sreg a) (gr.sreg b))

def execSaddImm (_bt : Bt) (d a : SReg) (imm : BitVec 12) (s : State) :=
  scalarTo s d (fun gr => gr.sreg a + sextImm imm)
def execSsubImm (_bt : Bt) (d a : SReg) (imm : BitVec 12) (s : State) :=
  scalarTo s d (fun gr => gr.sreg a - sextImm imm)
def execSmulImm (_bt : Bt) (d a : SReg) (imm : BitVec 12) (s : State) :=
  scalarTo s d (fun gr => gr.sreg a * sextImm imm)
def execSdivImm (_bt : Bt) (d a : SReg) (imm : BitVec 12) (s : State) :=
  scalarTo s d (fun gr => sdivOp false false (gr.sreg a) (sextImm imm))
def execSandImm (_bt : Bt) (d a : SReg) (imm : BitVec 12) (s : State) :=
  scalarTo s d (fun gr => gr.sreg a &&& sextImm imm)
def execSorImm (_bt : Bt) (d a : SReg) (imm : BitVec 12) (s : State) :=
  scalarTo s d (fun gr => gr.sreg a ||| sextImm imm)
def execSxorImm (_bt : Bt) (d a : SReg) (imm : BitVec 12) (s : State) :=
  scalarTo s d (fun gr => gr.sreg a ^^^ sextImm imm)
def execSshlImm (_bt : Bt) (d a : SReg) (n : Fin 64) (s : State) := scalarTo s d (fun gr => gr.sreg a <<< n.val)
def execSshrImm (_bt : Bt) (d a : SReg) (n : Fin 64) (s : State) := scalarTo s d (fun gr => gr.sreg a >>> n.val)
def execSsarImm (_bt : Bt) (d a : SReg) (n : Fin 64) (s : State) :=
  scalarTo s d (fun gr => (gr.sreg a).sshiftRight n.val)
def execSminImm (_bt : Bt) (d a : SReg) (imm : BitVec 12) (s : State) :=
  scalarTo s d (fun gr => sminOp false (gr.sreg a) (sextImm imm))
def execSmaxImm (_bt : Bt) (d a : SReg) (imm : BitVec 12) (s : State) :=
  scalarTo s d (fun gr => smaxOp false (gr.sreg a) (sextImm imm))

/-- Conditions of `SCMP` over 64 bits (R445). -/
def SCond_holds (c : SCond) (a b : W64) : Bool :=
  match c with
  | .eq => a == b
  | .ne => a != b
  | .lt => a.slt b
  | .le => a.sle b
  | .gt => b.slt a
  | .ge => b.sle a
  | .ltu => a.ult b
  | .leu => a.ule b
  | .gtu => b.ult a
  | .geu => b.ule a

def execScmp (_bt : Bt) (cond : SCond) (a b : SReg) (c : CReg) (s : State) :=
  scalarWord s (fun gr => gr.setC c (SCond_holds cond (gr.sreg a) (gr.sreg b)))
def execScmpImm (_bt : Bt) (cond : SCond) (a : SReg) (i : Fin 64) (c : CReg) (s : State) :=
  scalarWord s (fun gr => gr.setC c (SCond_holds cond (gr.sreg a) (BitVec.ofNat 64 i.val)))
def execSsel (_bt : Bt) (d a b : SReg) (c : CReg) (s : State) :=
  scalarTo s d (fun gr => if gr.creg c then gr.sreg a else gr.sreg b)
def execSmov (_bt : Bt) (d a : SReg) (s : State) := scalarTo s d (fun gr => gr.sreg a)
def execSmovFromC (_bt : Bt) (d : SReg) (c : CReg) (s : State) :=
  scalarTo s d (fun gr => if gr.creg c then 1 else 0)
def execSmovToC (_bt : Bt) (c : CReg) (a : SReg) (s : State) :=
  scalarWord s (fun gr => gr.setC c (gr.sreg a != 0))
/-- `SLI` takes three slots (R66, R451). -/
def execSli (_bt : Bt) (d : SReg) (imm : W64) (s : State) : Host.Outcome State Fault Refusal :=
  onScalar s (fun g gr => s.scalarDone g (gr.setS d imm) 3)
def execSnop (_bt : Bt) (s : State) := scalarWord s (fun gr => gr)
/-- `YIELD` gives up one clock of issue, which is timing alone (R467; DESIGN CHOICE, log entry 10). -/
def execYield (_bt : Bt) (s : State) := scalarWord s (fun gr => gr)
/-- `YGET` reads the scalar-side copy (R41, R466). -/
def execYget (_bt : Bt) (d : SReg) (y : YReg) (s : State) := scalarTo s d (fun gr => gr.yScalar y)
/-- `KSET` reaches lane code through the snapshots of later `LRUN`s (R39, R399). -/
def execKset (_bt : Bt) (k : KReg) (a : SReg) (s : State) := scalarWord s (fun gr => gr.setK k (gr.sreg a))

end Sys2Proof.Machine
end

