-- ==== Sys2Proof/Machine/ScalarControl.lean ====
section
/-! DEFINITION. Scalar control: transfers (R443, R452), lane blocks and their waits (R37 to R41, R413, R414), special
registers (R447, R456, R457), timeline waits (R461), power grants (R427), `JOIN` (R398), `EXIT` (R368), and the words
that trap (R354, R462). -/

namespace Sys2Proof.Machine

/-! Transfers (R443) -/

def execSbr (_bt : Bt) (inv : Bool) (c : CReg) (off : SOff) (s : State) : Host.Outcome State Fault Refusal :=
  onScalar s (fun g gr =>
    if gr.creg c != inv then s.transferS g gr (nearTarget gr.spc off) false else s.scalarDone g gr 1)

def execSjmp (_bt : Bt) (off : SOff) (s : State) : Host.Outcome State Fault Refusal :=
  onScalar s (fun g gr => s.transferS g gr (nearTarget gr.spc off) false)

def execSjmpFar (_bt : Bt) (imm : W64) (s : State) : Host.Outcome State Fault Refusal :=
  onScalar s (fun g gr => s.transferS g gr imm false)

def execScall (_bt : Bt) (l : SReg) (off : SOff) (s : State) : Host.Outcome State Fault Refusal :=
  onScalar s (fun g gr => s.transferS g (gr.setS l (nextSPc gr.spc 1)) (nearTarget gr.spc off) true)

def execScallFar (_bt : Bt) (l : SReg) (imm : W64) (s : State) : Host.Outcome State Fault Refusal :=
  onScalar s (fun g gr => s.transferS g (gr.setS l (nextSPc gr.spc 3)) imm true)

def execSret (_bt : Bt) (a : SReg) (s : State) : Host.Outcome State Fault Refusal :=
  onScalar s (fun g gr => s.transferS g gr (gr.sreg a) false)

/-- `SLOOP` (R452): a trip register above 1 falls by 1 and the loop goes on; otherwise it becomes 0. -/
def execSloop (_bt : Bt) (a : SReg) (off : SOff) (s : State) : Host.Outcome State Fault Refusal :=
  onScalar s (fun g gr =>
    let x := gr.sreg a
    if decide (1#64 < x) then s.transferS g (gr.setS a (x - 1)) (nearTarget gr.spc off) false
    else s.scalarDone g (gr.setS a 0) 1)

/-! Lane blocks -/

/-- Entries that the lane queue holds in the core (R38). -/
def laneQueueLen : Nat := 16

/-- Enqueue a block with the snapshot of R37; past sixteen entries it goes to the sump ring. -/
def Group.enqueue (gr : Group) (target : W64) : Group :=
  let e : LaneEntry := { target := target, k := gr.k, fmt := gr.fmtS, exm := gr.exmS }
  if gr.laneQ.length < laneQueueLen && gr.spilled.isEmpty then { gr with laneQ := gr.laneQ ++ [e], enq := gr.enq + 1 }
  else { gr with spilled := gr.spilled ++ [e], enq := gr.enq + 1 }

/-- `LRUN` (R413): QUOTA, before anything is enqueued, where its spill would pass the context's quota; while a spilled entry is
written to the sump ring, the scalar stream is held (R38). -/
def execLrun (_bt : Bt) (a : SReg) (imm : BitVec 12) (s : State) : Host.Outcome State Fault Refusal :=
  onScalar s (fun g gr =>
    let target := gr.laneBase + gr.sreg a + imm.setWidth 64
    let gr' := gr.enqueue target
    if gr'.spilled.length = gr.spilled.length then s.scalarDone g gr' 1
    else if !s.sumpFits (s.ctxOf g) 144 then s.trapS g .quota 1 0
    else
      match gr'.spilled.getLast? with
      | none => s
      | some e => (s.spillTo g.core (s.ctxOf g) 144 e.word).holdS g gr' .spill)

/-- Every block enqueued so far has ended. -/
def Group.blocksEnded (gr : Group) : Bool := decide (gr.enq ≤ gr.ended)

/-- The copies of R41, with the MX number that `TLGET` may now return (R185). -/
def Group.copyBack (gr : Group) : Group :=
  { gr with yS := gr.yL, gfS := gr.gfL, exmS := gr.exmL, mxSeen := gr.mxEnded, syncId := gr.nextId }

def execLsync (_bt : Bt) (s : State) : Host.Outcome State Fault Refusal :=
  onScalar s (fun g gr => if gr.blocksEnded then s.scalarDone g gr.copyBack 1 else s.holdS g gr .lsync)

/-! Special registers (R456) -/

/-- The group whose values the indices below 0x0C and from 0x11 on name: the presented one in handler code. -/
def State.presented (s : State) (g : GRef) : GRef :=
  if g.isHandler then
    match (s.core g.core).act with
    | some a => ⟨g.core, a.slot, a.gid⟩
    | none => g
  else g

/-- PWRGRANT (R427). -/
def Group.pwrgrant (gr : Group) : W64 :=
  match gr.grant with
  | some x => BitVec.ofNat 64 (x.1 + 256)
  | none => 0

/-- Values of a team and group (Table REF-7). -/
def teamReg (s : State) (g : GRef) (t : Team) (gr : Group) (idx : Nat) : Option W64 :=
  match idx with
  | 0x00 => some (BitVec.ofNat 64 g.gid)
  | 0x01 => some (BitVec.ofNat 64 t.teamId)
  | 0x02 => some (BitVec.ofNat 64 t.tx)
  | 0x03 => some (BitVec.ofNat 64 t.ty)
  | 0x04 => some (BitVec.ofNat 64 t.tz)
  | 0x05 => some (BitVec.ofNat 64 t.grid)
  | 0x06 => some (BitVec.ofNat 64 gr.role.code)
  | 0x07 => some (BitVec.ofNat 64 (t.nroles.getD gr.role.code 0))
  | 0x08 => some (BitVec.ofNat 64 g.core)
  | 0x09 => some (BitVec.ofNat 64 (coreCluster g.core))
  | 0x0A => some (BitVec.ofNat 64 (coreDie g.core))
  | 0x0B => some (if s.ctl.joined then BitVec.ofNat 64 s.ctl.rank else 0xFFFFFFFF)
  | 0x11 => some (BitVec.ofNat 64 t.ctx)
  | 0x12 => some t.argBase
  | 0x13 => some (BitVec.ofNat 64 t.scrSize)
  | 0x14 => some t.seqBase
  | 0x15 => some t.step
  | 0x16 => some gr.pwrgrant
  | _ => none

/-- The trap registers of the presented trap (R269). -/
def trapReg (t : Trap) (g : GRef) (tm : Team) (gr : Group) (idx : Nat) : Option W64 :=
  match idx with
  | 0x20 => some t.tcause
  | 0x21 => some gr.spc
  | 0x22 => some gr.lpc
  | 0x23 => some t.orig
  | 0x24 => some (t.lanes.setWidth 64)
  | 0x25 => some t.addr
  | 0x26 => some (tgroupWord tm.teamId g.slot g.gid)
  | _ => none

/-- A held group shows cause 0 and nothing else (Table TRAP-1). -/
def Trap.hold : Trap := { cause := .hold, info := 0, eng := false, ln := false, addr := 0, lanes := 0, orig := 0 }

/-- The value of a special register; none where the index is not readable here (R456). -/
def State.readSpecial (s : State) (g : GRef) (gr : Group) (idx : Nat) : Option W64 :=
  match idx with
  | 0x0C => some (gr.exmS.setWidth 64)
  | 0x0D => some (gr.fmtS.setWidth 64)
  | 0x0E => some (gr.gfS.setWidth 64)
  | 0x0F => some (BitVec.ofNat 64 (s.clock + Config.cycleSkew g.core))
  | 0x10 => some (BitVec.ofNat 64 (max gr.lastNs (s.timeNs g.core)))
  | _ =>
    let pg := s.presented g
    match s.team pg.team, s.group pg with
    | some t, some pgr =>
      if 0x20 ≤ idx && idx ≤ 0x26 then
        (if g.isHandler then
          match (s.core g.core).act with
          | some a => trapReg (a.trap.getD Trap.hold) pg t pgr idx
          | none => none
         else none)
      else teamReg s pg t pgr idx
    | _, _ => none

def execSrd (_bt : Bt) (d : SReg) (idx : Byte) (s : State) : Host.Outcome State Fault Refusal :=
  onScalar s (fun g gr =>
    match s.readSpecial g gr idx.toNat with
    | none => s.trapS g .illegal 0 0
    | some x => s.scalarDone g { gr.setS d x with lastNs := if idx = 0x10 then x.toNat else gr.lastNs } 1)

/-- `SETFMT`, and `SWR` of FMT: a value that R123 refuses is ILLEGAL. -/
def State.writeFmt (s : State) (g : GRef) (gr : Group) (x : W64) : State :=
  let f : W32 := x.setWidth 32
  if fmtOk f then s.scalarDone g { gr with fmtS := f } 1 else s.trapS g .illegal 0 0

def execSetfmt (_bt : Bt) (a : SReg) (s : State) : Host.Outcome State Fault Refusal :=
  onScalar s (fun g gr => s.writeFmt g gr (gr.sreg a))

/-- GF written in both copies at once (R457). -/
def Group.setGf (gr : Group) (x : W64) : Group :=
  let f : W32 := x.setWidth 32 &&& 31#32
  { gr with gfS := f, gfL := f }

def execSwr (_bt : Bt) (d : SReg) (idx : Byte) (s : State) : Host.Outcome State Fault Refusal :=
  onScalar s (fun g gr =>
    let x := gr.sreg d
    match idx.toNat with
    | 0x0C => s.scalarDone g { gr with exmS := x.setWidth 32 } 1
    | 0x0D => s.writeFmt g gr x
    | 0x0E =>
      if x >>> 5 != 0 then s.trapS g .illegal 0 0
      else if gr.blocksEnded then s.scalarDone g (gr.setGf x) 1
      else s.holdS g gr (.swrGf x)
    | _ => s.trapS g .illegal 0 0)

/-! Timelines (R182, R461) -/

/-- The counter of a class as `WAITTL` reads it. -/
def State.timeline (s : State) (g : GRef) (gr : Group) (c : TlClass) : Nat :=
  match c, s.team (s.teamRefOf g) with
  | .mx, _ => gr.mxDone
  | .ce, some t => t.doneCe
  | .kv, some t => t.doneKv
  | .co, some t => t.doneCo
  | _, none => 0

/-- The number of the last command issued, as `TLGET` returns it. -/
def State.issued (s : State) (g : GRef) (gr : Group) (c : TlClass) : Nat :=
  match c, s.team (s.teamRefOf g) with
  | .mx, _ => gr.mxSeen
  | .ce, some t => t.issuedCe
  | .kv, some t => t.issuedKv
  | .co, some t => t.issuedCo
  | _, none => 0

/-- A `WAITTL` whose counter is reached acquires the commands up to its number (R184). -/
def State.waittl (s : State) (g : GRef) (gr : Group) (c : TlClass) (n : Nat) : State :=
  if n ≤ s.timeline g gr c then (s.acquire g.core).scalarDone g gr 1 else s.holdS g gr (.timeline c n)

def execWaittl (_bt : Bt) (cls : TlClass) (a : SReg) (s : State) : Host.Outcome State Fault Refusal :=
  onScalar s (fun g gr => s.waittl g gr cls (gr.sreg a).toNat)

def execTlget (_bt : Bt) (cls : TlClass) (b : SReg) (s : State) : Host.Outcome State Fault Refusal :=
  onScalar s (fun g gr => s.scalarDone g (gr.setS b (BitVec.ofNat 64 (s.issued g gr cls))) 1)

/-! `PWRQ` (R427) -/

def execPwrq (_bt : Bt) (a b : SReg) (s : State) : Host.Outcome State Fault Refusal :=
  onScalar s (fun g gr =>
    let act := (gr.sreg a).toNat
    if 3 ≤ act then s.trapS g .illegal 0 0
    else if gr.role != .matrix || g.isHandler then s.scalarDone g (gr.setS b 0) 1
    else if act = 1 then
      let gr := gr.dropGrant
      s.scalarDone g (gr.setS b gr.pwrgrant) 1
    else if act = 0 && gr.grant.isNone then
      ({ s with powerAsks := if s.powerAsks.contains g then s.powerAsks else s.powerAsks ++ [g] }).holdS g gr (.power b)
    else
      let gr := if act = 0 then { gr with lastMma := s.clock } else gr
      s.scalarDone g (gr.setS b gr.pwrgrant) 1)

/-! `JOIN` (R54, R56, R398) -/

/-- Note that a team has joined a handle. -/
def Team.noteJoin (t : Team) (handle : W64) : Team :=
  { t with children := t.children.map (fun c => if c.handle = handle then { c with joined := true } else c) }

/-- `JOIN` of a handle: a refused descriptor's reads KILLED, and so does a launch that was dropped; an ended grid's reads its
status word, and its accesses are acquired. -/
def State.joinGrid (s : State) (g : GRef) (gr : Group) (handle : W64) (b : SReg) : State :=
  match s.team (s.teamRefOf g) with
  | none => s.trapS g .protection 0 handle.toNat
  | some t =>
    match t.children.find? (fun c => c.handle == handle) with
    | none => s.trapS g .protection 0 handle.toNat
    | some c =>
      let fin (s : State) (x : W64) : State := (s.scalarDone g (gr.setS b x) 1).onTeam (s.teamRefOf g) (·.noteJoin handle)
      match c.grid with
      | none => fin s GridStatus.killed.word
      | some n =>
        match s.grid n with
        | none => fin s GridStatus.killed.word
        | some x => if x.complete then fin (s.acquire g.core) x.status.word else s.holdS g gr (.join handle b)

def execJoin (_bt : Bt) (a b : SReg) (s : State) : Host.Outcome State Fault Refusal :=
  onScalar s (fun g gr => s.joinGrid g gr (gr.sreg a) b)

/-! `EXIT` (R60, R368) -/

/-- Take a pending engine fault at a scalar instruction boundary (R270 step 6, R273). -/
def State.takeEngine (s : State) (g : GRef) : State :=
  match s.group g with
  | none => s
  | some gr =>
    match gr.eng with
    | [] => s
    | t :: rest => (s.setGroup g { gr with eng := rest }).takeTrap g t

/-- Each barrier of which the group is a member counts an arrive-and-drop (R60). R223's listing takes an arrival of the present phase
back, as its worked example does, where the sentence after it says that an exit takes the branch with no arrival: the model takes
the arrival back (DESIGN CHOICE, log entry 119). -/
def State.dropBarriers (s : State) (g : GRef) (objs : List ObjEntry) : State :=
  objs.foldl (fun s o =>
    if o.ring then s else
    let r := s.objPlace g o.addr 16 false
    match r.1 with
    | .error _ => r.2
    | .ok p => r.2.barUpdate g p true (fun b => barDrop (o.phase == barPh b) b)) s

/-- The end of a group whose words have completed: barriers drop, the grant is released. -/
def State.endGroup (s : State) (g : GRef) (gr : Group) : State :=
  let s := (s.count g.core (s.ctxOf g) 0x02 1).dropBarriers g gr.obj
  let s := s.onGroup g (fun gr => { gr.dropGrant with status := .exited, waitS := none, waitL := none, obj := [] })
  s.checkRegion g.team gr.role

/-- `EXIT`, at its issue and again when its wait is over. A host of a regrouped region traps where the word issues in the
region; a region that its blocks enter while it waits is left before the wait ends (R52, R60, R368; DEDUCED, log entry
110). -/
def State.tryExit (s : State) (g : GRef) (gr : Group) : State :=
  if g.isHandler then s.trapS g .illegal 0 0
  else if s.hostOf g gr && (gr.waitS != some .exitWait || gr.blocksEnded) then s.trapS g .convergence 5 0
  else if !gr.blocksEnded then s.holdS g gr .exitWait
  else if !gr.eng.isEmpty then s.takeEngine g
  else
    let s := s.drain g
    match s.group g with
    | none => s
    | some gr => if gr.unitCount != 0 then s.holdS g gr .exitWait else s.endGroup g gr

def execExit (_bt : Bt) (s : State) : Host.Outcome State Fault Refusal := onScalar s (fun g gr => s.tryExit g gr)

/-! Words that trap -/

/-- `BRKPT` (R354): a no-op where the stream has just been resumed at it. -/
def execBrkpt (_bt : Bt) (s : State) : Host.Outcome State Fault Refusal :=
  onScalar s (fun g gr =>
    if gr.skipS.nop then s.scalarDone g gr 1
    else (s.traceGroup g 5 8 0 (s.origWord (s.ctxOf g) false gr.spc)).trapS g .breakpoint 0 0)

/-- `TRAP` (R462). -/
def execTrap (_bt : Bt) (code : Fin 64) (s : State) : Host.Outcome State Fault Refusal :=
  onScalar s (fun g gr => if gr.skipS.nop then s.scalarDone g gr 1 else s.trapS g .trapInsn code.val 0)

end Sys2Proof.Machine
end

