-- ==== Sys2Proof/Machine/Sync.lean ====
section
/-! DEFINITION. Barriers (R220 to R226, R348, R349), stage rings (R227 to R230, R436, R437) and fences (R189 to R193). -/

namespace Sys2Proof.Machine

/-! The object list (R222) -/

/-- Entries of a group's object list. -/
def objListLen : Nat := 8

def Group.findObj (gr : Group) (a : W64) (ring : Bool) : Option ObjEntry :=
  gr.obj.find? (fun o => o.addr == a && o.ring == ring)

/-- A further entry would be the ninth. -/
def Group.objFull (gr : Group) (a : W64) (ring : Bool) : Bool :=
  (gr.findObj a ring).isNone && decide (objListLen ≤ gr.obj.length)

/-- Add an entry, or set the phase of the one that stands. -/
def Group.putObj (gr : Group) (e : ObjEntry) : Group :=
  if (gr.findObj e.addr e.ring).isSome then
    { gr with obj := gr.obj.map (fun o => if o.addr == e.addr && o.ring == e.ring then e else o) }
  else { gr with obj := gr.obj ++ [e] }

def Group.dropObj (gr : Group) (a : W64) (ring : Bool) : Group :=
  { gr with obj := gr.obj.filter (fun o => !(o.addr == a && o.ring == ring)) }

/-- A scalar word on a barrier whose place has been checked; one that updates a barrier in a locked page waits (R171). -/
def onBarrier (s : State) (updates : Bool) (a : SReg) (k : GRef → Group → W64 → Place → State → State) :
    Host.Outcome State Fault Refusal :=
  onScalar s (fun g gr =>
    let addr := gr.sreg a
    let r := s.objPlace g addr 16 false (!gr.skipS.wp)
    match r.1 with
    | .error m => r.2.trapS g m.cause m.info addr.toNat
    | .ok p =>
      if updates && r.2.placeHeld g p then (r.2.hold (.scalar g)).holdS g gr .locked
      else k g gr addr p (if updates then r.2.unhold (.scalar g) else r.2))

/-- `BARINIT` (R223, R349): no completion test. -/
def barFresh (exp : Nat) (_b : BarBits) : BarBits := exp

def execBarinit (_bt : Bt) (a b : SReg) (s : State) : Host.Outcome State Fault Refusal :=
  onBarrier s true a (fun g gr _ p s =>
    let n := (gr.sreg b).toNat
    if n = 0 || 65535 < n then s.trapS g .illegal 0 0
    else (s.barUpdate g p false (barFresh n)).scalarNext g)

/-- `BARARR` (R222, R223): the entry takes the phase of the arrival. On a broken barrier nothing arrives; R225 does not say whether
a group without an entry enters its list then: it does, with the present phase (DESIGN CHOICE, log entry 120). -/
def execBararr (_bt : Bt) (a : SReg) (s : State) : Host.Outcome State Fault Refusal :=
  onBarrier s true a (fun g gr addr p s =>
    if gr.objFull addr false then s.trapS g .quota 4 0
    else
      let b := s.placeGet p 0 16
      let e : ObjEntry := { addr := addr, ring := false, phase := barPh b.1 }
      let s := b.2.onGroup g (fun gr =>
        if barBrk b.1 && (gr.findObj addr false).isSome then gr else gr.putObj e)
      (s.scalarNext g).barUpdate g p true barArrive)

/-- `BARARR.DROP`: with no entry, no arrival is taken back. -/
def execBararrDrop (_bt : Bt) (a : SReg) (s : State) : Host.Outcome State Fault Refusal :=
  onBarrier s true a (fun g gr addr p s =>
    let arrived (b : BarBits) : Bool := match gr.findObj addr false with
      | some e => e.phase == barPh b
      | none => false
    ((s.onGroup g (fun gr => gr.dropObj addr false)).scalarNext g).barUpdate g p true (fun b => barDrop (arrived b) b))

/-- `BARXPCT`: bytes still to land. -/
def execBarxpct (_bt : Bt) (a b : SReg) (s : State) : Host.Outcome State Fault Refusal :=
  onBarrier s true a (fun g gr _ p s =>
    let n := (gr.sreg b).toNat
    if 2 ^ 48 ≤ n then s.trapS g .illegal 0 0
    else (s.scalarNext g).barUpdate g p true (barExpect n))

/-- `BARWAIT` (R224): the phase of the group's entry, or the present one where it has none. -/
def execBarwait (_bt : Bt) (a b : SReg) (s : State) : Host.Outcome State Fault Refusal :=
  onBarrier s false a (fun g gr addr p s =>
    let w := (s.placeMeet g p).placeGet p 0 16
    let ph := match gr.findObj addr false with
      | some e => e.phase
      | none => barPh w.1
    match barwaitEnd gr b ph w.1 with
    | some gr' => w.2.scalarDone g gr' 1
    | none => s.holdS g gr (.barrier addr ph b))

/-! Stage rings -/

/-- The ticket that the `RINGACQ` at the scalar stopping point has taken before (R228). -/
def Group.keptTicket (gr : Group) : Option Ticket :=
  match gr.ticket with
  | some t => if t.pc = gr.spc then some t else none
  | none => none

/-- The address of a ring word's object; a `RINGACQ` whose ticket has taken the place of its address goes on with the ring that
the ticket was taken from. -/
def Group.ringAddr (gr : Group) (a : SReg) (same : Bool) : W64 :=
  match (if same then gr.keptTicket else none) with
  | some t => t.obj
  | none => gr.sreg a

/-- A scalar word on a ring: place, then the count in word 0, then all its bytes (R219, R227, R228). -/
def onRing (s : State) (a : SReg) (same : Bool) (k : GRef → Group → W64 → Place → Nat → State → State) :
    Host.Outcome State Fault Refusal :=
  onScalar s (fun g gr =>
    let addr := gr.ringAddr a same
    let r := s.objPlace g addr 16 true
    match r.1 with
    | .error m => r.2.trapS g m.cause m.info addr.toNat
    | .ok p =>
      let n := ringN (r.2.placeGet p 0 4).1
      if !ringCountOk n then r.2.trapS g .illegal 0 addr.toNat
      else
        let q := r.2.objPlace g addr (16 + 4 * n) true
        match q.1 with
        | .error m => q.2.trapS g m.cause m.info addr.toNat
        | .ok _ => k g gr addr p n (q.2.placeMeet g p))

/-- Reset values of a ring of n slots: header, then status words 0 with tags EMPTY (R227). -/
def State.ringReset (s : State) (g : GRef) (p : Place) (n : Nat) : State :=
  let s := s.placeSet g p 0 16 n
  (List.range n).foldl (fun s i => (s.placeSet g p (16 + 4 * i) 4 0).placeSetTag p (16 + 4 * i) false) s

def execRinginit (_bt : Bt) (a b : SReg) (s : State) : Host.Outcome State Fault Refusal :=
  onScalar s (fun g gr =>
    let addr := gr.sreg a
    let n := (gr.sreg b).toNat
    let r := s.objPlace g addr 16 true
    match r.1 with
    | .error m => r.2.trapS g m.cause m.info addr.toNat
    | .ok p =>
      if !ringCountOk n then r.2.trapS g .illegal 0 0
      else
        let q := r.2.objPlace g addr (16 + 4 * n) true
        match q.1 with
        | .error m => q.2.trapS g m.cause m.info addr.toNat
        | .ok _ => (((q.2.placeMeet g p).ringReset g p n).scalarNext g).settle g.core)

/-- `RINGACQ`: a ticket is taken once, at the first issue; then the slot's state is awaited (R228). -/
def ringAcquire (s : State) (consumer : Bool) (a b : SReg) : Host.Outcome State Fault Refusal :=
  onRing s a (a == b) (fun g gr addr p n s =>
    if gr.objFull addr true then s.trapS g .quota 4 0
    else
      let gr := if (gr.findObj addr true).isSome then gr else gr.putObj ⟨addr, true, false⟩
      if ((s.placeGet p 4 4).1).testBit 1 then s.scalarDone g gr.brokenEnd 1
      else
        match gr.keptTicket with
        | some t =>
          match s.ringEnd p gr consumer t.num n with
          | some gr' => s.scalarDone g gr' 1
          | none => s.holdS g gr (.ring addr consumer t.num n)
        | none =>
          let off := if consumer then 12 else 8
          let t : W32 := BitVec.ofNat 32 (s.placeGet p off 4).1
          let s := s.placeSet g p off 4 (t + 1).toNat
          let gr := { gr.setS b (t.setWidth 64) with ticket := some ⟨gr.spc, addr, t⟩ }
          match s.ringEnd p gr consumer t n with
          | some gr' => s.scalarDone g gr' 1
          | none => s.holdS g gr (.ring addr consumer t n))

def execRingacqP (_bt : Bt) (a b : SReg) (s : State) : Host.Outcome State Fault Refusal := ringAcquire s false a b
def execRingacqC (_bt : Bt) (a b : SReg) (s : State) : Host.Outcome State Fault Refusal := ringAcquire s true a b

/-- What a release writes to its slot (R228). -/
def State.ringPut (s : State) (g : GRef) (p : Place) (n : Nat) (consumer : Bool) (t : Nat) : State :=
  let off := 16 + 4 * ringIndex n t
  let w := (s.placeGet p off 4).1
  let h := if consumer then !ringLap n t else ringLap n t
  (s.placeSet g p off 4 (w - w % 2 + if h then 1 else 0)).placeSetTag p off (!consumer)

def ringRelease (s : State) (consumer : Bool) (a b : SReg) : Host.Outcome State Fault Refusal :=
  onRing s a false (fun g gr _ p n s =>
    let t := (gr.sreg b).toNat
    if 2 ^ 32 ≤ t then s.trapS g .illegal 0 0
    else if ((s.placeGet p 4 4).1).testBit 1 then s.scalarNext g
    else ((s.ringPut g p n consumer t).scalarNext g).settle g.core)

def execRingrelP (_bt : Bt) (a b : SReg) (s : State) : Host.Outcome State Fault Refusal := ringRelease s false a b
def execRingrelC (_bt : Bt) (a b : SReg) (s : State) : Host.Outcome State Fault Refusal := ringRelease s true a b

/-! Fences -/

/-- Marks of a team's engine commands that a fence covers, by its captured counts (R193). -/
def markCovered (ce kv co mark : Nat) : Bool :=
  let num := (mark - 64) / 4
  match mark % 4 with
  | 0 => decide (num ≤ ce)
  | 1 => decide (num ≤ kv)
  | _ => decide (num ≤ co)

/-- A group's contributions to a moraine tile are still in staging, or on their way home. -/
def State.mxOwed (s : State) (g : GRef) : Bool :=
  (s.core g.core).staging.any (fun e => e.mor && e.from_.contains g) || s.sends.any (fun t => t.mor && t.from_.contains g)

/-- Commands numbered up to the captured counts have completed, and the moraine writes of the group's `MMA`s are at their homes
(R193). -/
def State.survReady (s : State) (g : GRef) (gr : Group) (ce kv co : Nat) : Bool :=
  match s.team (s.teamRefOf g) with
  | none => true
  | some t => decide (ce ≤ t.doneCe) && decide (kv ≤ t.doneKv) && decide (co ≤ t.doneCo) &&
      decide (gr.mxFence ≤ gr.mxDone) && !s.mxOwed g

/-- A pending delta belongs to the set of a fence. -/
def deltaCovered (g : GRef) (t : TRef) (ce kv co : Nat) (d : Delta) : Bool :=
  d.owners.any (fun o => o == g || (o.team == t && decide (64 ≤ o.gid) && markCovered ce kv co o.gid))

/-- Something that the fence waits for is still outstanding (R190, R192, R193). -/
def State.fenceWaits (s : State) (g : GRef) (gr : Group) (kind ce kv co : Nat) : Bool :=
  gr.out.any (fun o => o.units.any (fun u => if u.isHost then kind == 1 else u.kind.writes)) ||
  s.fabTags.any (fun t => t.busy && (match t.why with
    | .lane o => o == g
    | .partial_ os => os.contains g
    | _ => false)) ||
  s.upart.any (fun u => u.owners.contains g) ||
  (kind == 2 && (!s.survReady g gr ce kv co || s.deltas.any (deltaCovered g (s.teamRefOf g) ce kv co)))

/-- Set-table entries of the frames that the units of the set have touched. -/
def State.survFrames (s : State) (g : GRef) (gr : Group) (ce kv co : Nat) : List Nat :=
  gr.morFrames ++ (match s.team (s.teamRefOf g) with
    | none => []
    | some t => (t.mor.filter (fun m => markCovered ce kv co m.1)).map (·.2))

def State.degSet (s : State) (idx : Nat) : Bool := (sgetLE s.mem (s.ctl.setTab + 16 * idx) 8).testBit 36

/-- c0 of `FENCE.SURV`: some delta of the set was not applied at both holders (R193). -/
def State.survFailed (s : State) (g : GRef) (gr : Group) (ce kv co : Nat) : Bool :=
  gr.survDeg ||
  (match s.team (s.teamRefOf g) with
   | none => false
   | some t => t.survBad.any (markCovered ce kv co)) ||
  (s.survFrames g gr ce kv co).any s.degSet

/-- The end of a fence. -/
def State.fenceEnd (s : State) (g : GRef) (gr : Group) (kind ce kv co : Nat) : State :=
  if kind != 2 then s.scalarDone g gr 1
  else
    let bad := s.survFailed g gr ce kv co
    let s := if bad then s.recordError
        { bank := 580 + coreDie g.core, cls := 1, source := 8, unit := 0,
          addr := ((s.survFrames g gr ce kv co).find? s.degSet).map (fun i => s.ctl.setTab + 16 * i), ctx := none,
          synd := none } else s
    s.scalarDone g (gr.setC 0 bad) 1

/-- A fence at its issue and whenever its wait may be over (R190). -/
def State.fenceTry (s : State) (g : GRef) (gr : Group) (kind ce kv co : Nat) : State :=
  if !gr.blocksEnded then s.holdS g gr (.fence kind ce kv co)
  else
    let s := (s.drainOf (if kind = 1 then .all else .domain) g).flushGroup g
    let s := if kind = 2 && decide (gr.mxFence ≤ gr.mxDone) then s.sendStaging g.core (fun e => e.mor && e.from_.contains g) else s
    match s.group g with
    | none => s
    | some gr =>
      if s.fenceWaits g gr kind ce kv co then s.holdS g gr (.fence kind ce kv co) else s.fenceEnd g gr kind ce kv co

/-- The issue counts that a fence captures: those of its first issue while it waits. -/
def State.fenceAt (s : State) (g : GRef) (gr : Group) (kind : Nat) : State :=
  match gr.waitS, s.team (s.teamRefOf g) with
  | some (.fence _ ce kv co), _ => s.fenceTry g gr kind ce kv co
  | _, some t =>
    let gr := if kind = 2 then { gr with mxFence := gr.mxIssued } else gr
    (s.setGroup g gr).fenceTry g gr kind t.issuedCe t.issuedKv t.issuedCo
  | _, none => s.fenceTry g gr kind 0 0 0

def execFence (_bt : Bt) (s : State) : Host.Outcome State Fault Refusal := onScalar s (fun g gr => s.fenceAt g gr 0)
def execFenceSys (_bt : Bt) (s : State) : Host.Outcome State Fault Refusal := onScalar s (fun g gr => s.fenceAt g gr 1)
def execFenceSurv (_bt : Bt) (s : State) : Host.Outcome State Fault Refusal := onScalar s (fun g gr => s.fenceAt g gr 2)

end Sys2Proof.Machine
end

