-- ==== Sys2Proof/Machine/Target.lean ====
section
/-! DEFINITION. The target side of the Kamter fabric (R285, R288 to R290, R294, R430): a request of another package as it arrives,
its access at the home, its reply, and requests that a locked page holds (R171). -/

namespace Sys2Proof.Machine

/-- A request of another package: its source die, and the packet (Table FAB-2). -/
structure FabReq where
  die : Nat
  pkt : FabPkt
  bytes : Nat
  op : AOp
  deriving DecidableEq, Repr

/-- Bytes of an access of a request by the width in its ATTR. -/
def attrBytes (attr : Nat) : Nat := match attr % 8 with
  | 0 | 1 => 1
  | 2 | 3 => 2
  | 4 => 4
  | 5 => 8
  | _ => 16

/-- A request packet of an opcode as it may arrive: fields in their widths, an aligned offset; a delta of up to 8 bytes, or of a
flit of 64. -/
def State.drawReq (s : State) (opc : Nat) : FabReq × State :=
  let d := draws 13 s
  let f (i : Nat) := d.1.getD i 0
  let wide := f 7 % 2
  let op := f 8 % 11
  let atomic := opc = 3 ∨ opc = 4
  let attr := if atomic then op * 16 + wide * 256 + (if wide = 1 then 5 else 4)
    else if opc = 5 then 0 else f 7 % 7
  let bytes := if opc = 5 then (if wide = 1 then 64 else 8) else attrBytes attr
  let off := f 6 % 2 ^ 64
  let pkt : FabPkt :=
    { reqPacket opc s.ctl.rank with
      vc := if opc = 5 then 2 else 0, src := f 1 % 576, tag := f 2 % 4096, gen := f 3 % 16, ogen := f 4 % 16,
      rty := f 3 % 16 != f 4 % 16, ctx := f 5 % 2 ^ 32, offset := if opc = 5 then off else off / bytes * bytes,
      time := f 9 % 2 ^ 64, attr := attr, cmp := f 11 % 256 ^ bytes, seq := f 12 % 2 ^ 32 }.carry bytes (f 10)
  (⟨f 0 % 2, pkt, bytes, AOp.ofNum op⟩, d.2)

/-! The target side (R285, R289, R290, R293, R294, R430) -/

/-- The reply to a request, with the line's timestamps and n bytes of data. -/
def FabPkt.replyTo (p : FabPkt) (status n x : Nat) (l : Lease) : FabPkt :=
  { reqPacket (p.opc + 0x80) p.src with
    opc := match p.opc with
      | 1 => 0x81
      | 3 => 0x83
      | 5 => 0x84
      | _ => 0x82,
    vc := if p.opc = 5 then 2 else 1, src := p.dst, tag := p.tag, gen := p.gen, ogen := p.ogen, status := status,
    time := l.wts, attr := l.rts, ctx := p.ctx, seq := p.seq }.carry n x

/-- Register the die of a requester as a remote holder of a line, where a place is free (R159). -/
def State.registerHolder (s : State) (h : RemoteHolder) : State :=
  let mine := s.remoteHolders.filter (fun x => dieOfPa (x.line * 128) == dieOfPa (h.line * 128))
  if s.remoteHolders.contains h || 4 ≤ (mine.filter (fun x => x.line == h.line)).length || 65536 ≤ mine.length then s
  else { s with remoteHolders := s.remoteHolders ++ [h] }

/-- How an access of a request ended: the STATUS of its reply, its bytes of data, the data and the line's timestamps. -/
structure Served where
  status : Nat
  bytes : Nat
  data : Nat
  lease : Lease
  deriving DecidableEq, Repr

/-- A request without data in its reply. -/
def Served.bare (status : Nat) (l : Lease := ⟨0, 0⟩) : Served := ⟨status, 0, 0, l⟩

/-- A holder applies a delta to its parity frame by XOR (R302). -/
def State.applyDelta (s : State) (r : FabReq) : State :=
  let p := r.pkt
  let n := min r.bytes (memTop - p.offset)
  s.putBytes p.offset n (sgetLE s.mem p.offset n ^^^ p.value)

/-- The access of a request; none where it is held for a page that is locked (R171). A READ of device memory is answered with its
line, in two data flits, of which the requester may keep a leased copy (R158, R290; DESIGN CHOICE, log entry 67). -/
def State.serveReq (s : State) (r : FabReq) : Option Served × State :=
  let p := r.pkt
  if p.opc = 5 then (some (Served.bare 0), s.applyDelta r) else
  let w := s.window p.ctx p.offset r.bytes (p.opc != 2) (p.opc != 1)
  match w.1.2 with
  | none => (some (Served.bare w.1.1), w.2)
  | some xl =>
    let s := w.2
    let agent : Writer := ⟨p.time, BitVec.ofNat 64 (5 * 2 ^ 60 + p.src), []⟩
    let line := lineOf xl.pa
    if xl.host then
      let old := s.hostGet xl.pa r.bytes
      match p.opc with
      | 1 => (some ⟨0, r.bytes, old, ⟨0, 0⟩⟩, s)
      | 2 => (some (Served.bare 0), s.hostSet xl.pa r.bytes p.value)
      | _ =>
        if r.op = .add ∨ r.op = .xch ∨ r.op = .cas then
          (some (if p.opc = 4 then Served.bare 0 else ⟨0, r.bytes, old, ⟨0, 0⟩⟩), s.hostSet xl.pa r.bytes (r.op.apply (if r.bytes = 8 then .w64 else .w32) old p.opnd p.cmp))
        else (some (Served.bare 3), s)
    else if s.unbuilt xl.pa then (some (Served.bare 4), s)
    else
      match p.opc with
      | 1 =>
        let c := s.grantCopy 0 p.time line
        (some ⟨0, 128, sgetLE c.1.data (line * 128) 128, c.1.lease⟩, c.2)
      | 2 =>
        if s.locked xl.pa then (none, s) else
        let s := s.homeSet agent xl.pa r.bytes p.value xl.mor
        (some (Served.bare 0 (s.leaseOf line)), s)
      | _ =>
        if s.locked xl.pa then (none, s) else
        let old := s.homeGet xl.pa r.bytes
        let s := old.2.homeSet agent xl.pa r.bytes
          (r.op.apply (if r.bytes = 8 then .w64 else .w32) old.1 p.opnd p.cmp) xl.mor
        let s := if p.opc = 4 && r.op.gathers then s.registerHolder ⟨line, p.src, r.die⟩ else s
        (some (if p.opc = 4 then Served.bare 0 (s.leaseOf line) else ⟨0, r.bytes, old.1, s.leaseOf line⟩), s)

/-- A request has been performed: its reply is sent and kept for retries, and the next one of its source die may be performed
(R289, R293). -/
def State.finishRequest (s : State) (r : FabReq) (x : Served) : State :=
  let p := r.pkt
  let reply := p.replyTo x.status x.bytes x.data x.lease
  { s with fabIn := aput s.fabIn (p.src * 2 + r.die) ((p.seq + 1) % 2 ^ 32), fabOut := s.fabOut ++ [reply],
           kept := s.kept.filter (fun k => !(k.src == p.src && k.tag == p.tag && k.ogen == p.ogen)) ++
             [⟨p.src, p.tag, p.ogen, reply, s.clock + (s.ctl.fretry + 1) * s.fto⟩] }

/-- The access that a locked page holds of a request. -/
def FabReq.held (r : FabReq) : Held := .request r.die r.pkt r.bytes r.op.opNum

/-- Perform a request, or hold it for a page that is locked (R171). -/
def State.perform (s : State) (r : FabReq) : State :=
  let x := s.serveReq r
  match x.1 with
  | none => x.2.hold r.held
  | some y => x.2.finishRequest r y

/-- Requests that were held are performed while it is their turn (R171). -/
def State.serveHeld : Nat → State → State
  | 0, s => s
  | n + 1, s =>
    match s.turn with
    | some (.request die pkt bytes op) =>
      let r : FabReq := ⟨die, pkt, bytes, AOp.ofNum op⟩
      let x := (s.unhold r.held).serveReq r
      (match x.1 with
       | none => s
       | some y => State.serveHeld n (x.2.finishRequest r y))
    | _ => s

/-- What no page holds any more of other packages' requests is performed. -/
def State.settleHeld (s : State) : State := if s.holds.isEmpty then s else s.serveHeld s.holds.length

end Sys2Proof.Machine
end

