-- ==== Sys2Proof/Machine/Release.lean ====
section
/-! DEFINITION. Ends of waits and steps of outstanding accesses: lane blocks (R37, R38), releases of `LSYNC`, `EXIT`,
`WAITTL`, `WAITP` and the fences (R41, R60, R164, R184, R190, R193), units performed at their homes, and path counters
(R157, R163). -/

namespace Sys2Proof.Machine

/-- A step about a group that runs. -/
def onActive (s : State) (core slot gid : Nat) (k : GRef → Group → State) : Host.Outcome State Fault Refusal :=
  .next (match s.group ⟨core, slot, gid⟩ with
    | none => s
    | some gr => if gr.status == .active then k ⟨core, slot, gid⟩ gr else s)

/-- The block of a lane-queue entry begins (R37): FMT and EXM from the snapshot, LPC at the target, whose marks its first
word checks. -/
def Group.startBlock (gr : Group) (e : LaneEntry) : Group :=
  { gr.atL e.target true with fmtL := e.fmt, exmL := e.exm, run := some ⟨e.k, gr.stack.length⟩ }

/-- `LANE_BLOCK_START`. -/
def execLaneBlockStart (core slot gid : Nat) (s : State) : Host.Outcome State Fault Refusal :=
  onActive s core slot gid (fun g gr =>
    match gr.run, gr.laneQ with
    | none, e :: rest => s.setGroup g { gr.startBlock e with laneQ := rest }
    | _, _ => s)

/-- `LANE_QUEUE_REFILL`: spilled entries come back in order (R38). -/
def execLaneQueueRefill (core slot gid : Nat) (s : State) : Host.Outcome State Fault Refusal :=
  onActive s core slot gid (fun g gr =>
    match gr.spilled with
    | e :: rest => if gr.laneQ.length < laneQueueLen then s.setGroup g { gr with laneQ := gr.laneQ ++ [e], spilled := rest } else s
    | [] => s)

/-- `LSYNC_RELEASE` (R41). -/
def execLsyncRelease (core slot gid : Nat) (s : State) : Host.Outcome State Fault Refusal :=
  onActive s core slot gid (fun g gr =>
    match gr.waitS with
    | some .lsync => if gr.blocksEnded then s.scalarDone g gr.copyBack 1 else s
    | _ => s)

/-- `GROUP_EXIT_END` (R60). -/
def execGroupExitEnd (core slot gid : Nat) (s : State) : Host.Outcome State Fault Refusal :=
  onActive s core slot gid (fun g gr =>
    match gr.waitS with
    | some .exitWait => s.tryExit g gr
    | _ => s)

/-- `WAITTL_RELEASE` (R184). -/
def execWaittlRelease (core slot gid : Nat) (s : State) : Host.Outcome State Fault Refusal :=
  onActive s core slot gid (fun g gr =>
    match gr.waitS with
    | some (.timeline c n) => s.waittl g gr c n
    | _ => s)

/-- `WAITP_RELEASE` (R164). -/
def execWaitpRelease (core slot gid : Nat) (s : State) : Host.Outcome State Fault Refusal :=
  onActive s core slot gid (fun g gr =>
    match gr.waitL with
    | some (.waitp p limit n) => if gr.pathCount p ≤ limit then s.laneDone g (gr.covered p) n else s
    | _ => s)

/-- `FENCE_COMPLETE` (R190, R192). -/
def execFenceComplete (core slot gid : Nat) (s : State) : Host.Outcome State Fault Refusal :=
  onActive s core slot gid (fun g gr =>
    match gr.waitS with
    | some (.fence kind ce kv co) => if kind = 2 then s else s.fenceTry g gr kind ce kv co
    | _ => s)

/-- `FENCE_SURV_COMPLETE` (R193). -/
def execFenceSurvComplete (core slot gid : Nat) (s : State) : Host.Outcome State Fault Refusal :=
  onActive s core slot gid (fun g gr =>
    match gr.waitS with
    | some (.fence kind ce kv co) => if kind = 2 then s.fenceTry g gr kind ce kv co else s
    | _ => s)

/-! Accesses -/

/-- A pass of a fabric word ends in a fault: the word is given up, and its group traps at it with the lanes of that pass
(R188, R294, R295; DEDUCED, log entry 21). A group that has another trap keeps it, and meets this one when the word issues again
(R270). -/
def State.remoteTrap (s : State) (g : GRef) (o : OutOp) (rank : Nat) : State :=
  let left := o.units.filter (fun u => u.space == .fabric rank || o.passes.isEmpty)
  let pass := (o.passes.find? (fun p => p.rank == rank)).getD ⟨rank, laneMask (left.map (·.lane)), (left.head?.map (·.va)).getD 0⟩
  let s := s.onGroup g (fun gr => { gr.dropOp o.id with lpc := o.pc, lMarks := false })
  match s.group g with
  | none => s
  | some gr =>
    match gr.stopping with
    | some t => if t.cause == .hold then s.trapL g .remote rank pass.low pass.lanes else s.tryStop g t
    | none => if gr.caused.isSome then s else s.trapL g .remote rank pass.low pass.lanes

/-- `ACCESS_PERFORMED_AT_HOME`: the next unit that a group owes of device memory, scratch or the fabric (`host` 0), or of
host memory (1), is performed, or sent to its peer (R157, R176, R288). Requests of other packages that a page held before it are
performed first (R171). -/
def execAccessPerformedAtHome (core slot gid host : Nat) (s : State) : Host.Outcome State Fault Refusal :=
  let s := s.settleHeld
  .next (match s.performOne ⟨core, slot, gid⟩ (host == 1) with
    | .stuck => s
    | .ok s' => s'.settle core
    | .remote s' o rank => s'.remoteTrap ⟨core, slot, gid⟩ o rank)

/-- `PATH_COMPLETION`: the counters of a group fall past its completed words, in issue order (R163). -/
def execPathCompletion (core slot gid : Nat) (s : State) : Host.Outcome State Fault Refusal :=
  .next (s.onGroup ⟨core, slot, gid⟩ (·.settlePaths))

/-- `U_PARTIAL_FLUSH`: a partial goes to its home at a time the device chooses (R159). -/
def execUPartialFlush (n : Nat) (s : State) : Host.Outcome State Fault Refusal :=
  .next (match s.upart[n]? with
    | none => s
    | some u => ({ s with upart := s.upart.eraseIdx n }).sendPartial u)

end Sys2Proof.Machine
end

