-- ==== Sys2Proof/Machine/Fabric.lean ====
section
/-! DEFINITION. The Kamter fabric as it meets this package (R285 to R295), gathered partials across packages (R159), and
loss, rebuild and resync (R301 to R304): requests of other packages, replies to this one, timeouts and control packets.
What an incoming packet holds is free (DESIGN CHOICE, log entry 2). -/

namespace Sys2Proof.Machine

/-! Requests that arrive (R289, R293) -/

/-- A kept reply serves a request: a retry, while the entry is kept (R293). -/
def State.keptFor (s : State) (p : FabPkt) : Option KeptReply :=
  if p.rty then s.kept.find? (fun k => k.src == p.src && k.tag == p.tag && k.ogen == p.ogen && decide (s.clock < k.expiry)) else none

/-- A retry matches a request that is still in progress (R293). -/
def State.inProgress (s : State) (p : FabPkt) : Bool :=
  p.rty && s.holds.any (fun h => match h with
    | .request _ q _ _ => q.src == p.src && q.tag == p.tag && q.ogen == p.ogen
    | _ => false)

/-- A request arrives: a retry of a performed one gets the kept reply under its new GEN, one of a request in progress is dropped;
the next request of its source die is performed or held, and its reply kept; any other waits for its turn (R289, R293). -/
def State.request (s : State) (opc : Nat) : State :=
  let q := s.settleHeld.drawReq opc
  let a := q.2.linkArrival q.1.pkt
  let s := a.2
  match a.1 with
  | none => s
  | some p =>
    if !s.ctl.joined || s.lost.contains p.src then s else
    match s.keptFor p with
    | some k => { s with fabOut := s.fabOut ++ [{ k.reply with gen := p.gen }] }
    | none =>
      if s.inProgress p || (aget s.fabIn (p.src * 2 + q.1.die)).getD 0 != p.seq then s
      else s.perform { q.1 with pkt := p }

/-- What a request stored may end a wait. -/
def State.afterRequest (s : State) : State := s.wakeObjects

/-- `FABRIC_READ`: READ of Table FAB-3. -/
def execFabricRead (s : State) : Host.Outcome State Fault Refusal := .next (s.request 1)
/-- `FABRIC_WRITE`. -/
def execFabricWrite (s : State) : Host.Outcome State Fault Refusal := .next (s.request 2).afterRequest
/-- `FABRIC_ATOMIC`. -/
def execFabricAtomic (s : State) : Host.Outcome State Fault Refusal := .next (s.request 3).afterRequest
/-- `FABRIC_ATOMIC_NO_RETURN`. -/
def execFabricAtomicNoReturn (s : State) : Host.Outcome State Fault Refusal := .next (s.request 4).afterRequest
/-- `DELTA`: this package is a holder (R302). -/
def execDelta (s : State) : Host.Outcome State Fault Refusal := .next (s.request 5).afterRequest

/-- `REPLY_CACHE_EXPIRY` (R293). -/
def execReplyCacheExpiry (s : State) : Host.Outcome State Fault Refusal :=
  .next { s with kept := s.kept.filter (fun k => decide (s.clock < k.expiry)) }

/-! The requester's side (R290, R292, R294) -/

/-- A tag's request is resolved. -/
def State.freeTag (s : State) (t : FabTag) : State :=
  { s with fabTags := s.fabTags.map (fun (x : FabTag) => if x.die == t.die && x.tag == t.tag then { x with busy := false } else x) }

/-- Deltas that wait for a tag are sent, the oldest of each die and holder first (R194, R302). -/
def State.pushDeltas (s : State) : State :=
  let waiting := s.deltas.filter (fun d => d.tag.isNone)
  waiting.foldl (fun s d => s.sendDelta d) { s with deltas := s.deltas.filter (fun d => d.tag.isSome) }

/-- The delta that a tag carries. -/
def FabTag.carries (t : FabTag) (d : Delta) : Bool := d.die == t.die && d.tag == some t.tag

/-- No further delta can reach a holder: what is pending is lost, with DEG (R193, R302, R303). -/
def State.dropHolder (s : State) (holder : Nat) : State :=
  let gone := s.deltas.filter (fun d => d.holder == holder)
  gone.foldl (fun s d => s.deltaLost d.entry d.owners)
    { s with deltas := s.deltas.filter (fun d => d.holder != holder),
             fabTags := s.fabTags.map (fun (t : FabTag) => if gone.any t.carries then { t with busy := false } else t) }

/-- A request of a lane word ends in a fault: REMOTE for its pass. -/
def State.laneRemote (s : State) (g : GRef) (t : FabTag) : State :=
  match (s.group g).bind (fun gr => gr.out.find? (fun o => o.sent == some t.tag)) with
  | none => s
  | some o => s.remoteTrap g o t.pkt.dst

/-- A request ends without effect here: its retries have run out, or its reply has a status. -/
def State.requestFails (s : State) (t : FabTag) : State :=
  let s := s.freeTag t
  match t.why with
  | .lane g => s.laneRemote g t
  | .delta die =>
    let entry := (s.deltas.find? t.carries).map (fun d => s.ctl.setTab + 16 * d.entry)
    let s := s.recordError { bank := 580 + die, cls := 1, source := 8, unit := 0, addr := entry, ctx := none, synd := some t.pkt.dst }
    ({ s with unreachable := if s.unreachable.contains t.pkt.dst then s.unreachable else t.pkt.dst :: s.unreachable }).dropHolder
      t.pkt.dst
  | _ => s

/-- What a good reply says: the bytes asked for, the line's timestamps, and the line where the reply carries it. -/
structure GoodReply where
  x : Nat
  wts : Nat
  rts : Nat
  line : Option Nat

/-- A reply that carries its line leaves leased copies of it in the die's RDC and in the core's L1 (R14, R156, R158). -/
def State.keepPeer (s : State) (g : GRef) (t : FabTag) (hint : Nat) (r : GoodReply) : State :=
  match r.line with
  | none => s
  | some l =>
    let line := lineOf t.pkt.offset
    let cp : Copy := { holder := coreDie g.core, line := line, data := ssetLE ([] : Store 8) (line * 128) 128 l,
                       lease := ⟨r.wts, r.rts⟩, rank := some t.pkt.dst, ctx := t.pkt.ctx, hint := hint }
    (s.keepRdc cp).keepL1 { cp with holder := g.core }

/-- The core's own copy follows a store that a peer has performed (R156). -/
def State.storedAtPeer (s : State) (g : GRef) (t : FabTag) (u : AUnit) : State :=
  match u.kind with
  | .store => s.patchPeer g t.pkt.dst u.va u.bytes u.data
  | _ => s

/-- A request of a lane word is acknowledged: the core's logical time rises to the line's wts, and the unit is done. -/
def State.laneReply (s : State) (g : GRef) (t : FabTag) (r : GoodReply) : State :=
  let s := s.setPts g.core (max (s.core g.core).pts r.wts)
  match (s.group g).bind (fun gr => (gr.out.find? (fun o => o.sent == some t.tag))) with
  | none => s
  | some o =>
    match o.units.find? (fun u => !u.isHost) with
    | none => s
    | some u =>
      let x := match u.kind with
        | .load sext => extendLoad sext u.bytes (r.x % 256 ^ u.bytes)
        | _ => r.x % 256 ^ u.bytes
      let s := (s.keepPeer g t u.hint r).storedAtPeer g t u
      (s.onGroup g (fun gr => ((gr.popUnit false o.id).deliver o.path o.id u.phys u.dst x).settlePaths)).settle g.core

/-- A good reply to a request. Of a no-return atomic it may say that the home has accepted the die as a remote holder
(R159). -/
def State.replied (s : State) (t : FabTag) (r : GoodReply) : State :=
  let s := s.freeTag t
  match t.why with
  | .lane g =>
    let s := s.laneReply g t r
    let h : RemoteHolder := ⟨lineOf t.pkt.offset, t.pkt.dst, t.die⟩
    if t.pkt.opc = 4 && (AOp.ofNum (t.pkt.attr / 16 % 16)).gathers then
      let d := s.pick 2
      if d.1 = 1 && !d.2.accepted.contains h then { d.2 with accepted := d.2.accepted ++ [h] } else d.2
    else s
  | .delta _ => { s with deltas := s.deltas.filter (fun d => !t.carries d) }.pushDeltas
  | _ => s

/-- Replace n bytes of a number at an offset. -/
def putBytesAt (x off n v : Nat) : Nat := x % 256 ^ off + v % 256 ^ n * 256 ^ off + x / 256 ^ (off + n) * 256 ^ (off + n)

/-- A reply to a tag's request as it may arrive: generation, STATUS, data with timestamps; a READ's reply may carry the line. -/
def State.drawReply (s : State) (t : FabTag) : FabPkt × State :=
  let k := draws 6 s
  let f (i : Nat) := k.1.getD i 0
  let n := attrBytes t.pkt.attr
  let p : FabPkt := { reqPacket (t.pkt.opc + 0x80) s.ctl.rank with
    opc := match t.pkt.opc with
      | 1 => 0x81
      | 3 => 0x83
      | 5 => 0x84
      | _ => 0x82,
    vc := if t.pkt.opc = 5 then 2 else 1, src := t.pkt.dst, tag := t.tag, gen := (t.gen + f 0) % 16, ogen := t.ogen,
    status := f 1 % 5, time := f 3 % 2 ^ 64, attr := f 4 % 2 ^ 64, ctx := t.pkt.ctx, seq := t.pkt.seq }
  if t.pkt.opc = 1 && f 5 % 2 = 1 then
    let l := draws 16 k.2
    (p.carry 128 (putBytesAt (l.1.foldr (fun w n => w % 2 ^ 64 + 2 ^ 64 * n) 0) (t.pkt.offset % 128) n (f 2)), l.2)
  else (if t.pkt.opc = 1 || t.pkt.opc = 3 then p.carry n (f 2) else p, k.2)

/-- What a packet says in reply to a tag's request. -/
def FabPkt.good (p : FabPkt) (t : FabTag) : GoodReply :=
  let line := p.data.length == 16
  { x := if line then byteField p.value (t.pkt.offset % 128) (attrBytes t.pkt.attr) else p.value, wts := p.time, rts := p.attr,
    line := if line then some p.value else none }

/-- A reply to a request of one of some opcodes arrives: under another tag or an old generation it is dropped and counted; with a
STATUS its request fails; else it is done. -/
def State.reply (s : State) (opcs : List Nat) : State :=
  let tags := s.fabTags.filter (fun t => t.busy && opcs.contains t.pkt.opc)
  let d := s.pick tags.length
  match tags[d.1]? with
  | none => d.2
  | some t =>
    let r := d.2.drawReply t
    let a := r.2.linkArrival r.1
    match a.1 with
    | none => a.2
    | some p =>
      if p.tag != t.tag || p.gen != t.gen then a.2.portError (t.tag % 36)
      else if p.status != 0 then a.2.requestFails t
      else a.2.replied t (p.good t)

/-- `READ_REPLY`. -/
def execReadReply (s : State) : Host.Outcome State Fault Refusal := .next (s.reply [1])
/-- `ATOMIC_REPLY`. -/
def execAtomicReply (s : State) : Host.Outcome State Fault Refusal := .next (s.reply [3])
/-- `ACKNOWLEDGEMENT`, of a write or of an atomic without return. -/
def execAcknowledgement (s : State) : Host.Outcome State Fault Refusal := .next (s.reply [2, 4])
/-- `DELTA_ACKNOWLEDGEMENT`. -/
def execDeltaAcknowledgement (s : State) : Host.Outcome State Fault Refusal := .next (s.reply [5])

/-- A tag's request is sent again with RTY, the next GEN and its first OGEN (R292). -/
def State.resend (s : State) (t : FabTag) : State :=
  let gen := (t.gen + 1) % 16
  let p := { t.pkt with gen := gen, rty := true }
  let t' := { t with gen := gen, pkt := p, sentAt := s.clock, retries := t.retries + 1 }
  { s with fabTags := s.fabTags.map (fun (x : FabTag) => if x.die == t.die && x.tag == t.tag then t' else x),
           fabOut := s.fabOut ++ [p] }

/-- `FABRIC_TIMEOUT`: a request without a reply within FTO is sent again, or has had its last retry. -/
def execFabricTimeout (s : State) : Host.Outcome State Fault Refusal :=
  let due := s.fabTags.filter (fun t => t.busy && decide (t.sentAt + s.fto ≤ s.clock))
  let d := s.pick due.length
  .next (match due[d.1]? with
    | none => s.pushDeltas
    | some t => if t.retries < d.2.ctl.fretry then d.2.resend t else (d.2.requestFails t).pushDeltas)

/-! Gathered partials across packages (R159, R296) -/

/-- A control packet of a package arrives on VC 4: whether it is received (R288, Table FAB-1). -/
def State.control (s : State) (src : Nat) : Bool × State :=
  let a := s.linkArrival { reqPacket 0x86 s.ctl.rank with vc := 4, src := src }
  (a.1.isSome, a.2)

/-- The reply to a RECALL: the partial's values as two data flits, which of them are valid in OPND, and its operation and width in
ATTR (DESIGN CHOICE, log entry 54). -/
def recallReply (h : RemoteHolder) (u : Option UPart) (rank : Nat) : FabPkt :=
  let p : FabPkt := { reqPacket 0x86 h.rank with vc := 4, src := rank, offset := h.line * 128 }
  match u with
  | none => p
  | some u =>
    let mask := u.cells.foldl (fun (m : Nat) (c : Nat × Nat) => m ||| 2 ^ ((c.1 - h.line * 128) / u.w.bytes)) 0
    let line := u.cells.foldl
      (fun (x : Nat) (c : Nat × Nat) => putBytesAt x (c.1 - h.line * 128) u.w.bytes c.2) 0
    { p with attr := u.op.opNum * 16 + (if u.w = AWidth.w64 then 0x105 else 4), opnd := mask }.carry 128 line

/-- `RECALL`: a home in another package recalls what a die has gathered of one of its lines; the reply carries the partial,
and the die is no holder any more. -/
def execRecall (s : State) : Host.Outcome State Fault Refusal :=
  let d := s.pick s.accepted.length
  .next (match s.accepted[d.1]? with
    | none => d.2
    | some h =>
      let a := d.2.control h.rank
      let s := a.2
      if !a.1 || !s.ctl.joined then s else
      let mine (u : UPart) : Bool := u.rank == some h.rank && u.line == h.line && u.holder == .rdc h.die
      let gone := s.upart.filter mine
      { s with upart := s.upart.filter (fun u => !mine u), accepted := s.accepted.filter (· != h),
               fabOut := s.fabOut ++ (if gone.isEmpty then [recallReply h none s.ctl.rank]
                 else gone.map (fun u => recallReply h (some u) s.ctl.rank)) })

/-- `RECALL_REPLY`: a remote holder's partial comes home, and is applied. -/
def execRecallReply (s : State) : Host.Outcome State Fault Refusal :=
  let d := s.pick s.remoteHolders.length
  .next (match s.remoteHolders[d.1]? with
    | none => d.2
    | some h =>
      let a := d.2.control h.rank
      if a.1 then (a.2.takeRemote h).wakeObjects else a.2)

/-! Loss (R303) -/

/-- A package is lost: nothing further is sent to it, and what waits for it is resolved. -/
def State.losePackage (s : State) (r : Nat) : State :=
  let s : State := { s with
    lost := if s.lost.contains r then s.lost else r :: s.lost,
    fabTags := s.fabTags.map (fun (t : FabTag) => if t.pkt.dst == r then { t with busy := false } else t),
    upart := s.upart.filter (fun u => u.rank != some r),
    accepted := s.accepted.filter (fun h => h.rank != r),
    remoteHolders := s.remoteHolders.filter (fun h => h.rank != r) }
  s.dropHolder r

/-- `LOST`: broadcast by system software; every access that waits for the lost package takes REMOTE when it is next
served. -/
def execLost (s : State) : Host.Outcome State Fault Refusal :=
  let a := s.control 0
  let r := a.2.draw
  .next (if !a.1 || !s.ctl.joined || r.1 % 576 = s.ctl.rank then r.2 else r.2.losePackage (r.1 % 576))

/-! Rebuild and resync (R302, R304) -/

/-- Frames of the moraine region with a valid entry. -/
def State.morFrames (s : State) : List Nat :=
  if s.ctl.setTab = 0 then [] else
  let base := sgetLE s.mem s.ctl.setTab 8
  let len := sgetLE s.mem (s.ctl.setTab + 8) 8
  ((List.range (len / 65536)).map (fun f => base + 65536 * f)).filter (fun a => (s.setEntry a).isSome)

/-- `REBUILD`: the spare joins under the lost rank, with the frames of its region to rebuild; for any other package the rank
answers again, and as a holder takes no delta until the rebuild is over. -/
def execRebuild (s : State) : Host.Outcome State Fault Refusal :=
  let a := s.control 0
  let d := a.2.draw
  let r := d.1 % 576
  .next (
    if !a.1 then d.2
    else if !d.2.ctl.joined then
      let s : State := { d.2 with ctl := { d.2.ctl with rank := r, joined := true } }
      { s with rebuilds := s.rebuilds ++ [⟨r, r, s.morFrames⟩], lost := s.lost.filter (· != r) }
    else if d.2.lost.contains r then
      let s := d.2
      { s with lost := s.lost.filter (· != r),
               unreachable := if s.unreachable.contains r then s.unreachable else r :: s.unreachable,
               rebuilds := s.rebuilds ++ [⟨r, 576, []⟩] }
    else d.2)

/-- Bytes of a frame. -/
def frameBytes : Nat := 65536

/-- Product of every byte of a frame with a factor (R145). -/
def frameMul (k x : Nat) : Nat := mapBytes (gmul k) frameBytes x

/-- Inverse of a field element other than 0: its 254th power. -/
def ginv (a : Nat) : Nat := (List.range 253).foldl (fun p _ => gmul p a) a

/-- Q's share of the surviving members. -/
def qSum (ds : List (Nat × Nat)) : Nat := ds.foldl (fun x d => x ^^^ frameMul (gpow d.1) d.2) 0
/-- P's share of the surviving members. -/
def pSum (ds : List (Nat × Nat)) : Nat := ds.foldl (fun x d => x ^^^ d.2) 0

/-- The frame of member i from P, from Q where P's holder is lost too, or from both where member k is (R304). -/
def rebuildFrame (how i k p q : Nat) (ds : List (Nat × Nat)) : Nat :=
  match how with
  | 0 => p ^^^ pSum ds
  | 1 => frameMul (gpow (255 - i)) (q ^^^ qSum ds)
  | _ => frameMul (ginv (gpow i ^^^ gpow k)) (q ^^^ qSum ds ^^^ frameMul (gpow k) (p ^^^ pSum ds))

/-- Write a frame. -/
def State.putFrame (s : State) (pa x : Nat) : State :=
  s.putRange pa frameBytes 0 (ssetLE ([] : Store 8) 0 frameBytes x)

/-- Frames of other packages as they are read: members of a set of some size, without member i where this package has it,
and P and Q. -/
def State.drawSet (s : State) (i : Option Nat) : (List (Nat × Nat) × Nat × Nat) × State :=
  let d := draws 17 s
  let n := max ((i.map (· + 1)).getD 0) (2 + d.1.getD 16 0 % 13)
  (((List.range n).filter (fun j => some j != i) |>.map (fun j => (j, d.1.getD j 0 % 256 ^ frameBytes)),
    d.1.getD 14 0 % 256 ^ frameBytes, d.1.getD 15 0 % 256 ^ frameBytes), d.2)

/-- The spare rebuilds one member's frame; a set that has lost more than two frames is FATAL. -/
def State.spareFrame (s : State) (pa : Nat) : State :=
  match s.setEntry pa with
  | none => s
  | some e =>
    let m := s.drawSet (some e.member)
    let how := m.2.pick 4
    let done (s : State) : State :=
      { s with rebuilds := s.rebuilds.map (fun (r : Rebuild) => { r with frames := r.frames.filter (· != pa) }) }
    if how.1 = 3 then
      done (how.2.recordError { bank := 580 + dieOfPa pa, cls := 2, source := 10, unit := 0, addr := some pa, ctx := none,
                                synd := none })
    else
      let k := how.2.pickOf (m.1.1.map (·.1)) 0
      let ds := if how.1 = 2 then m.1.1.filter (fun d => d.1 != k.1) else m.1.1
      done (k.2.putFrame pa (rebuildFrame how.1 e.member k.1 m.1.2.1 m.1.2.2 ds))

/-- A holder's frame is computed from the members: P, or Q. -/
def State.holderFrame (s : State) : State :=
  let a := s.draw
  let pa := a.1 % (memTop / frameBytes) * frameBytes
  let m := a.2.drawSet none
  let q := m.2.pick 2
  q.2.putFrame pa (if q.1 = 0 then pSum m.1.1 else qSum m.1.1)

/-- A holder has its frames again: deltas go to it. Whether the device clears DEG of the entries that name it is not stated
(DESIGN CHOICE, log entry 37). -/
def State.holderBack (s : State) (r : Nat) : State :=
  let s := { s with unreachable := s.unreachable.filter (· != r) }
  let d := s.pick 2
  if d.1 = 0 then d.2 else
  (d.2.morFrames).foldl (fun s f =>
    match s.setEntry f with
    | none => s
    | some e =>
      if e.deg && (e.p == r || e.q == r) && !s.unreachable.contains e.p && !s.unreachable.contains e.q then
        let a := s.ctl.setTab + 16 * e.idx
        s.putBytes a 8 (sgetLE s.mem a 8 - 2 ^ 36)
      else s) d.2

/-- A survivor's part of one frame: lock it, with its partials recalled; or release it once no delta of it is pending. -/
def State.survivorFrame (s : State) (r : Rebuild) : State :=
  let set (fs : List Nat) (s : State) : State := { s with rebuilds := s.rebuilds.map (fun x => if x = r then { x with frames := fs } else x) }
  match r.frames with
  | f :: _ =>
    let idx := (s.setEntry f).map (·.idx)
    if s.deltas.any (fun d => some d.entry == idx) then s.pushDeltas else (set [] s).settleHeld.wakeObjects
  | [] =>
    let c := s.pickOf (none :: s.morFrames.map some) none
    match c.1 with
    | some f => set [f] (c.2.recallRange f frameBytes)
    | none => { c.2 with rebuilds := c.2.rebuilds.filter (· != r) }.holderBack r.lost

/-- `REBUILD_FRAME`: one step of a rebuild. -/
def execRebuildFrame (s : State) : Host.Outcome State Fault Refusal :=
  .next (match s.rebuilds with
    | [] => s
    | r :: _ =>
      if r.spare != s.ctl.rank then s.survivorFrame r else
      let d := s.pick 2
      if d.1 = 1 then d.2.holderFrame else
      let c := d.2.pickOf (r.frames.map some) none
      match c.1 with
      | some f => c.2.spareFrame f
      | none => { c.2 with rebuilds := c.2.rebuilds.filter (· != r) })

/-- `RESYNC`: a holder's frames are computed anew from the members: at the holder they are written, and at a member deltas go
to it again. -/
def execResync (s : State) : Host.Outcome State Fault Refusal :=
  let a := s.control 0
  let d := a.2.pickOf (none :: a.2.unreachable.map some) none
  .next (if !a.1 || !s.ctl.joined then a.2 else
    match d.1 with
    | none => d.2.holderFrame
    | some r => (d.2.holderBack r).pushDeltas)

end Sys2Proof.Machine
end

