-- ==== Sys2Proof/Machine/LaneFloat.lean ====
section
/-! DEFINITION. Floating lane words, special functions and conversions (R358, R363, R367, R371 to R377, R386, R408,
R423, R431, R449, R463). -/

namespace Sys2Proof.Machine

/-- An operand read as F32. -/
def LaneView.f32 (w : LaneView) (h : LaneHdr) (x : Sel) (l : Nat) : Nat := w.src h .f32 x l

/-- A result with its flags (R126). -/
def floatOut (r : FRes) : Nat × W32 := (r.bits, resGf r)

/-- A word of two F32 sources. -/
def f32Word (f : Rm → Bool → Nat → Nat → FRes) (h : LaneHdr) (d : VReg) (a b : Sel) (s : State) :
    Host.Outcome State Fault Refusal :=
  laneMap s h [a, b] d false (fun w l => floatOut (f (fmtRm w.fmt) (fmtFtz w.fmt) (w.f32 h a l) (w.f32 h b l)))

def execFadd (h : LaneHdr) (d : VReg) (a b : Sel) (s : State) := f32Word (fAdd .f32) h d a b s
def execFmul (h : LaneHdr) (d : VReg) (a b : Sel) (s : State) := f32Word (fMul .f32) h d a b s
def execFfma (h : LaneHdr) (d : VReg) (a b c : Sel) (s : State) :=
  laneMap s h [a, b, c] d false (fun w l =>
    floatOut (fFma .f32 (fmtRm w.fmt) (fmtFtz w.fmt) (w.f32 h a l) (w.f32 h b l) (w.f32 h c l)))
def execFmin (h : LaneHdr) (nan : Bool) (d : VReg) (a b : Sel) (s : State) :=
  f32Word (fun _ ftz x y => fMinMax .f32 false nan ftz x y) h d a b s
def execFmax (h : LaneHdr) (nan : Bool) (d : VReg) (a b : Sel) (s : State) :=
  f32Word (fun _ ftz x y => fMinMax .f32 true nan ftz x y) h d a b s

/-- Operand column of a floating type. -/
def ftyOty : FTy → OTy
  | .f32 => .f32
  | .f16 => .half .f16
  | .bf16 => .half .bf16

/-- The value of an F16 or BF16 operand is bits 15:0 (R372, R376, R377). -/
def LaneView.flt (w : LaneView) (h : LaneHdr) (t : FTy) (x : Sel) (l : Nat) : Nat :=
  let v := w.src h (ftyOty t) x l
  match t with
  | .f32 => v
  | _ => v % 2 ^ 16

def execFsetp (h : LaneHdr) (t : FTy) (cond : FCond) (d : PReg) (a b : Sel) (s : State) :=
  lanePred s h [a, b] d (fun w l => fCompare t.ffmt cond (fmtFtz w.fmt) (w.flt h t a l) (w.flt h t b l))

def execFclass (h : LaneHdr) (t : FTy) (mask : BitVec 10) (d : PReg) (a : Sel) (s : State) :=
  lanePred s h [a] d (fun w l => mask.getLsbD (fClass t.ffmt (w.flt h t a l)))

def execFrnd (h : LaneHdr) (t : FTy) (rtz : Bool) (d : VReg) (a : Sel) (s : State) :=
  laneMap s h [a] d false (fun w l =>
    floatOut (fRound t.ffmt (if rtz then .rtz else fmtRm w.fmt) (fmtFtz w.fmt) (w.flt h t a l)))

/-- Both elements of a packed pair, with the flags of each (R386). -/
def pairOut (lo hi : FRes) : Nat × W32 := (lo.bits + 2 ^ 16 * hi.bits, resGf lo ||| resGf hi)

/-- Element i of a packed 16-bit operand. -/
def LaneView.half (w : LaneView) (h : LaneHdr) (t : FTy) (x : Sel) (l i : Nat) : Nat :=
  w.src h (ftyOty t) x l / 2 ^ (16 * i) % 2 ^ 16

def execHadd2 (h : LaneHdr) (t : FTy) (d : VReg) (a b : Sel) (s : State) :=
  laneMap s h [a, b] d false (fun w l =>
    let f (i : Nat) := fAdd t.ffmt (fmtRm w.fmt) (fmtFtz w.fmt) (w.half h t a l i) (w.half h t b l i)
    pairOut (f 0) (f 1))

def execHmul2 (h : LaneHdr) (t : FTy) (d : VReg) (a b : Sel) (s : State) :=
  laneMap s h [a, b] d false (fun w l =>
    let f (i : Nat) := fMul t.ffmt (fmtRm w.fmt) (fmtFtz w.fmt) (w.half h t a l i) (w.half h t b l i)
    pairOut (f 0) (f 1))

def execHfma2 (h : LaneHdr) (t : FTy) (d : VReg) (a b c : Sel) (s : State) :=
  laneMap s h [a, b, c] d false (fun w l =>
    let f (i : Nat) := fFma t.ffmt (fmtRm w.fmt) (fmtFtz w.fmt) (w.half h t a l i) (w.half h t b l i) (w.half h t c l i)
    pairOut (f 0) (f 1))

/-- A special-function word (R358): a fixed function of its input, RM and FTZ. Each lane's result is counted (Table
OBS-4). -/
def sfWord (op : SfOp) (h : LaneHdr) (d : VReg) (a : Sel) (s : State) : Host.Outcome State Fault Refusal :=
  onLane s (fun g gr =>
    let w := s.view (gr.interlockRegs [d.val] [])
    let act := w.1.active h
    let o := mapOut d false (fun w l => floatOut (specialFn op (fmtRm w.fmt) (fmtFtz w.fmt) (w.f32 h a l))) w.1 act
    (w.2.laneFinish g gr h [a] o).count g.core (s.ctxOf g) 0x05 act.length)

def execRcp (h : LaneHdr) (d : VReg) (a : Sel) (s : State) := sfWord .rcp h d a s
def execRsq (h : LaneHdr) (d : VReg) (a : Sel) (s : State) := sfWord .rsq h d a s
def execSqrt (h : LaneHdr) (d : VReg) (a : Sel) (s : State) := sfWord .sqrt h d a s
def execEx2 (h : LaneHdr) (d : VReg) (a : Sel) (s : State) := sfWord .ex2 h d a s
def execLg2 (h : LaneHdr) (d : VReg) (a : Sel) (s : State) := sfWord .lg2 h d a s
def execSin (h : LaneHdr) (d : VReg) (a : Sel) (s : State) := sfWord .sin h d a s
def execCos (h : LaneHdr) (d : VReg) (a : Sel) (s : State) := sfWord .cos h d a s
def execTanh (h : LaneHdr) (d : VReg) (a : Sel) (s : State) := sfWord .tanh h d a s

/-- `CVT` (R363). -/
def execCvt (h : LaneHdr) (dst src : LType) (d : VReg) (a : Sel) (s : State) :=
  laneMap s h [a] d dst.wide (fun w l =>
    floatOut (convert dst src (fmtRm w.fmt) (fmtFtz w.fmt) (fmtSat w.fmt) (w.src h (otyOf src) a l)))

/-- Type in which the sources of `PACK` are read (R423). -/
def packSource : LType → LType
  | .i8 | .i4 => .i32
  | .n8 => .n32
  | _ => .f32

/-- Bits of one packed element. -/
def packBits : LType → Nat
  | .i4 | .e2m1 => 4
  | .f16 | .bf16 => 16
  | _ => 8

/-- One converted element of `PACK`. -/
def LaneView.packElem (w : LaneView) (h : LaneHdr) (t : LType) (x : Sel) (l : Nat) : FRes :=
  let st := packSource t
  let r := convertVal t (fmtRm w.fmt) (fmtFtz w.fmt) (fmtSat w.fmt) (st.value (fmtFtz w.fmt) (w.src h (otyOf st) x l))
  { r with bits := r.bits % 2 ^ packBits t }

/-- Elements side by side, the first lowest, with their flags. -/
def packJoin (bits : Nat) : List FRes → Nat × W32
  | [] => (0, 0)
  | r :: rest => let x := packJoin bits rest; (r.bits + 2 ^ bits * x.1, resGf r ||| x.2)

def execPack (h : LaneHdr) (t : LType) (d : VReg) (a b c e : Sel) (s : State) :=
  laneMap s h [a, b, c, e] d false (fun w l =>
    let xs := if packBits t = 16 then [a, b] else [a, b, c, e]
    let x := packJoin (packBits t) (xs.map (fun y => w.packElem h t y l))
    if packBits t = 4 then (w.reg d.val l % 2 ^ 16 * 2 ^ 16 + x.1, x.2) else x)

/-- `UNPK` (R463): every element is exact in its result. -/
def execUnpk (h : LaneHdr) (t : LType) (i : Fin 8) (d : VReg) (a : Sel) (s : State) :=
  laneMap s h [a] d false (fun w l =>
    let x := w.src h .nat a l / 2 ^ (packBits t * i.val) % 2 ^ packBits t
    match packSource t with
    | .f32 => floatOut (convertVal .f32 (fmtRm w.fmt) (fmtFtz w.fmt) 0 (t.value (fmtFtz w.fmt) x))
    | _ => (t.intBitsOf (t.intVal x), 0))

end Sys2Proof.Machine
end

