-- ==== Sys2Proof/Machine/LaneCross.lean ====
section
/-! DEFINITION. Cross-lane words by virtual lane (R47, R350, R365, R369, R370, R384, R385, R415, R433, R444, R448, R464)
and `RAND` (R144, R428). -/

namespace Sys2Proof.Machine

/-- A register, or a pair, of a lane. -/
def LaneView.regOf (w : LaneView) (wide : Bool) (r l : Nat) : Nat :=
  if wide then w.reg r l + 2 ^ 32 * w.reg (r + 1) l else w.reg r l

/-- Source lane of `SHFL` for a lane; none where it lies outside the group (R448). -/
def shflLane (mode : ShflMode) (l b : Nat) : Option Nat :=
  match mode with
  | .idx => some (b % 32)
  | .up => if b ≤ l then some (l - b) else none
  | .down => if l + b < 32 then some (l + b) else none
  | .xor => some (l ^^^ (b % 32))

def execShfl (h : LaneHdr) (t : LType) (mode : ShflMode) (d a : VReg) (b : Sel) (s : State) :=
  laneMap s h [b] d t.wide (fun w l => (w.regOf t.wide a.val ((shflLane mode l (w.cnt h b l)).getD l), 0))

/-- The lowest active virtual lane. -/
def lowest (act : List Nat) : Option Nat := act.head?

def execBcast (h : LaneHdr) (t : LType) (d a : VReg) (b : Sel) (s : State) :=
  laneWord s h [b] (fun w act =>
    match lowest act with
    | none => ⟨[], [], 0⟩
    | some f =>
      let x := w.regOf t.wide a.val (w.cnt h b f % 32)
      ⟨act.flatMap (fun l => pairRegs d t.wide l x), [], 0⟩)

def execGetl (h : LaneHdr) (d : VReg) (s : State) := laneMap s h [] d false (fun _ l => (l, 0))

/-- `VOTE` (R464). -/
def execVote (h : LaneHdr) (mode : VoteMode) (q : PSel) (d : VReg) (s : State) :=
  laneWord s h [] (fun w act =>
    let yes := act.filter (fun l => w.psel q l)
    let b := match mode with
      | .all => yes.length == act.length
      | .any => !yes.isEmpty
      | _ => yes.isEmpty || yes.length == act.length
    match mode with
    | .ballot => ⟨act.map (fun l => (d.val, l, (laneMask yes).toNat)), [], 0⟩
    | _ => ⟨[], act.map (fun l => (d.val, l, b)), 0⟩)

/-- `MATCH` (R415). -/
def execMatchLanes (h : LaneHdr) (t : LType) (all : Bool) (d : VReg) (a : Sel) (s : State) :=
  laneWord s h [a] (fun w act =>
    let same (l : Nat) := act.filter (fun m => w.bits h t a m == w.bits h t a l)
    let out (l : Nat) : Nat :=
      if all then (if (same l).length = act.length then (laneMask act).toNat else 0) else (laneMask (same l)).toNat
    ⟨act.map (fun l => (d.val, l, out l)), [], 0⟩)

/-- The integer operation of `REDUX` and `SCAN` on 32-bit patterns (R141). -/
def redInt (t : LType) (op : RedOp) (x y : Nat) : Nat :=
  match op with
  | .add => (x + y) % 2 ^ 32
  | .min => if t.intVal x ≤ t.intVal y then x else y
  | .max => if t.intVal y ≤ t.intVal x then x else y
  | .and => x &&& y
  | .or => x ||| y
  | .xor => x ^^^ y

/-- One step of a reduction. -/
def redStep (t : LType) (op : RedOp) (rm : Rm) (ftz : Bool) (x y : Nat) : Nat :=
  if t == .f32 then
    match op with
    | .min => (fMinMax .f32 false false ftz x y).bits
    | .max => (fMinMax .f32 true false ftz x y).bits
    | _ => (fAdd .f32 rm ftz x y).bits
  else redInt t op x y

/-- A result that is a NaN is canonical and sets GF.NAN (R433, R444). -/
def redResult (t : LType) (x : Nat) : Nat × W32 :=
  if t == .f32 && FFmt.f32.isNan x then (FFmt.f32.canonNan, gfNan) else (x, 0)

/-- Identities (Table NUM-8). -/
def redIdentity (t : LType) (op : RedOp) : Nat :=
  match t, op with
  | .f32, .add => 0x80000000
  | .f32, .min => 0x7F800000
  | .f32, .max => 0xFF800000
  | .i32, .min => 0x7FFFFFFF
  | .i32, .max => 0x80000000
  | _, .min => 0xFFFFFFFF
  | _, .and => 0xFFFFFFFF
  | _, _ => 0

/-- One level of the pairwise tree. -/
def pairUp {α : Type} (f : α → α → α) : List α → List α
  | x :: y :: rest => f x y :: pairUp f rest
  | l => l

/-- n levels of the tree (R142). -/
def treeUp {α : Type} (f : α → α → α) : Nat → List α → List α
  | 0, l => l
  | n + 1, l => treeUp f n (pairUp f l)

/-- The five steps of `SCAN` (R142). -/
def scanUp {α : Type} (f : α → α → α) : List Nat → List α → List α
  | [], l => l
  | d :: ds, l => scanUp f ds (l.take d ++ List.zipWith f l (l.drop d))

/-- Inputs of a reduction: the operand of an active lane, the identity elsewhere. -/
def LaneView.redInputs (w : LaneView) (h : LaneHdr) (t : LType) (op : RedOp) (a : Sel) (act : List Nat) :
    List Nat :=
  laneList.map (fun l => if act.contains l then w.src h (otyOf t) a l else redIdentity t op)

/-- `REDUX` (R433): the reply register is a copy of the lane side. -/
def execRedux (h : LaneHdr) (t : LType) (op : RedOp) (y : YReg) (wy : Bool) (d : VReg) (a : Sel) (s : State) :
    Host.Outcome State Fault Refusal :=
  onLane s (fun g gr =>
    let v := s.view (gr.interlockRegs [d.val] [])
    let act := v.1.active h
    let r := redResult t
      ((treeUp (redStep t op (fmtRm v.1.fmt) (fmtFtz v.1.fmt)) 5 (v.1.redInputs h t op a act)).headD 0)
    let gf := if act.isEmpty then gfEmpty else r.2
    let gr := if wy then { gr with yL := sset gr.yL y.val (BitVec.ofNat 64 r.1) } else gr
    v.2.laneFinish g gr h [a] ⟨act.map (fun l => (d.val, l, r.1)), [], gf⟩)

/-- `SCAN` (R444). -/
def execScan (h : LaneHdr) (t : LType) (op : RedOp) (excl : Bool) (d : VReg) (a : Sel) (s : State) :=
  laneWord s h [a] (fun w act =>
    let xs := scanUp (redStep t op (fmtRm w.fmt) (fmtFtz w.fmt)) [1, 2, 4, 8, 16] (w.redInputs h t op a act)
    let out (l : Nat) : Nat × W32 :=
      redResult t (if excl then (if l = 0 then redIdentity t op else xs.getD (l - 1) 0) else xs.getD l 0)
    ⟨act.map (fun l => (d.val, l, (out l).1)), [],
      if act.isEmpty then gfEmpty else act.foldl (fun m l => m ||| (out l).2) 0⟩)

/-- A number that orders keys as `GSORT` does (R385): every F32 NaN is above +∞ and equal to every other. -/
def sortKey (t : LType) (x : Nat) : Int :=
  match t with
  | .f32 => if FFmt.f32.isNan x then 2 ^ 32 else FFmt.f32.orderKey x
  | _ => t.intVal x

/-- Stable insertion of a pair into a sorted list. -/
def sortIns (before : Nat → Nat → Bool) (x : Nat × Nat) : List (Nat × Nat) → List (Nat × Nat)
  | [] => [x]
  | y :: ys => if before y.1 x.1 then y :: sortIns before x ys else x :: y :: ys

/-- Stable sort: an element goes before those that it does not follow strictly. -/
def stableSort (lt : Nat → Nat → Bool) (l : List (Nat × Nat)) : List (Nat × Nat) :=
  l.foldr (sortIns (fun y x => lt y x)) []

def execGsort (h : LaneHdr) (t : LType) (desc : Bool) (d : VReg) (a b : Sel) (s : State) :=
  laneWord s h [a, b] (fun w act =>
    let items := act.map (fun l => (w.src h (otyOf t) a l, w.cnt h b l))
    let lt (x y : Nat) : Bool := if desc then decide (sortKey t y < sortKey t x) else decide (sortKey t x < sortKey t y)
    let sorted := stableSort lt items
    ⟨(act.zip sorted).flatMap (fun z => [(d.val, z.1, z.2.1), (d.val + 1, z.1, z.2.2)]), [], 0⟩)

def execElect (h : LaneHdr) (d : PReg) (s : State) :=
  laneWord s h [] (fun _ act => ⟨[], act.map (fun l => (d.val, l, lowest act == some l)), 0⟩)

def execExmget (h : LaneHdr) (d : VReg) (s : State) := laneMap s h [] d false (fun w _ => (w.exm.toNat, 0))

/-- `EXMSET` (R370). -/
def execExmset (h : LaneHdr) (a : Sel) (s : State) : Host.Outcome State Fault Refusal :=
  onLane s (fun g gr =>
    let v := s.view gr
    let gr := match lowest (v.1.active h) with
      | none => gr
      | some f => { gr with exmL := BitVec.ofNat 32 (v.1.cnt h a f) }
    v.2.laneFinish g gr h [a] ⟨[], [], 0⟩)

/-- `mix32` of R144. -/
def mix32 (x : W32) : W32 :=
  let x := (x ^^^ (x >>> 16)) * 0x7FEB352D#32
  let x := (x ^^^ (x >>> 15)) * 0x846CA68B#32
  x ^^^ (x >>> 16)

/-- The value of `RAND` for a counter and a key (R144). -/
def randVal (ctr key : W64) : W32 :=
  mix32 (mix32 (ctr.setWidth 32 + key.setWidth 32) ^^^ (key >>> 32).setWidth 32 ^^^ (ctr >>> 32).setWidth 32)

def execRand (h : LaneHdr) (d : VReg) (a b : Sel) (s : State) :=
  laneMap s h [a, b] d false (fun w l =>
    ((randVal (BitVec.ofNat 64 (w.src h .n64 a l)) (BitVec.ofNat 64 (w.src h .n64 b l))).toNat, 0))

end Sys2Proof.Machine
end

