-- ==== Sys2Proof/Machine/LaneControl.lean ====
section
/-! DEFINITION. Lane control: divergence and joins (R402, R403, R409), lane calls (R404, R412), block ends (R407),
`LNOP` (R410) and `REGROUP` (R434, R435). -/

namespace Sys2Proof.Machine

/-- A lane code address from a signed line delta and a slot (R65, R402). -/
def laneTarget {n : Nat} (pc : W64) (delta : BitVec n) (slot : Nat) : W64 :=
  ((pc >>> 4) + delta.signExtend 64) * 16#64 + BitVec.ofNat 64 slot

/-- FMT of a stack entry without its pending bit (R403). -/
def entryFmt (gr : Group) : W32 := gr.fmtL &&& 0xFFFFFF

/-- Push an entry and go on at an address, or take the cause that the push meets; `call` and `jump` say how the address
is reached (R45, R85, R403, R404). -/
def State.pushGo (s : State) (g : GRef) (gr : Group) (e : StackEntry) (exm : W32) (pc : W64) (jump call : Bool) : State :=
  match s.pushMeet g gr with
  | some m => s.trapL g m.cause m.info 0 0
  | none =>
    let s := match gr.stack[stackHeld - 1]? with
      | some o => s.spillTo g.core (s.ctxOf g) 16 o.word
      | none => s
    let gr := { gr with stack := e :: gr.stack, exmL := exm }
    if jump then s.transferL g gr pc call else s.laneJump g gr pc false

/-- `LBR` (R403). -/
def execLbr (h : LaneHdr) (tdelta : BitVec 12) (tslot : Fin 16) (jdelta : BitVec 14) (jslot : Fin 16) (s : State) :
    Host.Outcome State Fault Refusal :=
  onLane s (fun g gr =>
    let v := s.view gr.endLook
    let t := laneMask (v.1.active h)
    let n := gr.exmL &&& ~~~t
    let f := nextLPc gr.lpc 1
    let j := laneTarget gr.lpc jdelta jslot.val
    let e (mask : W32) (pc : W64) (pnd : Bool) : StackEntry :=
      { kind := .diverge, mask := mask, lpc := pc, fmt := entryFmt gr, pnd := pnd }
    if t = 0 then v.2.pushGo g gr (e gr.exmL j false) gr.exmL f false false
    else
      let e := if n = 0 || f == j then e gr.exmL j false else e n f true
      v.2.pushGo g gr e t (laneTarget gr.lpc tdelta tslot.val) true false)

/-- `LCALL` (R404): with no active lane it falls through without a push. -/
def execLcall (h : LaneHdr) (tgt : LCallTgt) (s : State) : Host.Outcome State Fault Refusal :=
  onLane s (fun g gr =>
    let v := s.view gr.endLook
    let c := laneMask (v.1.active h)
    let f := nextLPc gr.lpc 1
    if c = 0 then v.2.laneJump g gr f false
    else
      let pc := match tgt with
        | .near delta => laneTarget gr.lpc delta 0
        | .far k => sget v.1.k k.val
      v.2.pushGo g gr { kind := .call, mask := gr.exmL, lpc := f, fmt := entryFmt gr, pnd := false } c pc true true)

/-- `LRET` (R412). -/
def execLret (_h : LaneHdr) (s : State) : Host.Outcome State Fault Refusal :=
  onLane s (fun g gr =>
    match gr.stack with
    | e :: rest =>
      if e.kind == .call then s.transferL g ({ gr with stack := rest }.restore e) e.lpc false
      else s.trapL g .convergence 2 0 0
    | [] => s.trapL g .convergence 2 0 0)

/-- Units whose results the group still waits for. -/
def Group.returning (gr : Group) : Bool := gr.out.any (fun o => o.units.any (fun u => u.dst != []))

/-- A host reaches an `LJOIN` with its REGROUP entry on top: the first host fixes the matching `LJOIN`, and each waits
there for the others (R51). -/
def State.joinHost (s : State) (g : GRef) (gr : Group) : State :=
  match s.team g.team with
  | none => s
  | some tm =>
    match tm.region gr.role with
    | none => s.trapL g .convergence 2 0 0
    | some x =>
      if (x.join.getD gr.lpc) != gr.lpc then s.trapL g .convergence 4 0 0
      else
        let s := s.drainOf .results g
        match s.group g with
        | none => s
        | some gr =>
          if gr.returning then s.holdL g gr .blockEnd
          else
            let gr := { gr with alt := [], look := [] }
            let x := { x with join := some gr.lpc,
                              saves := x.saves.map (fun sv => if sv.gid = g.gid then { sv with atJoin := true } else sv) }
            let s := (s.holdL g gr .regroupJoin).onTeam g.team (fun tm => tm.putRegion x)
            if s.joinFull g.team x then s.joinRegion g.team x gr.lpc else s

/-- `LJOIN` (R409). -/
def execLjoin (_h : LaneHdr) (s : State) : Host.Outcome State Fault Refusal :=
  onLane s (fun g gr =>
    match gr.stack with
    | [] => s.trapL g .convergence 2 0 0
    | e :: rest =>
      match e.kind with
      | .call => s.trapL g .convergence 2 0 0
      | .regroup => s.joinHost g gr
      | .diverge =>
        if e.pnd then
          let e' := { e with mask := e.mask ||| gr.exmL, lpc := gr.lpc, pnd := false }
          s.transferL g ({ gr with stack := e' :: rest }.restore e) e.lpc false
        else if e.lpc == gr.lpc then s.laneJump g ({ gr with stack := rest }.restore e) (nextLPc gr.lpc 1) false
        else s.transferL g gr e.lpc false)

/-- The block ends: the lane stream is free for the next queue entry (R40, R407). -/
def Group.endBlock (gr : Group) : Group :=
  { gr.endLook with run := none, ended := gr.ended + 1, mxEnded := gr.mxIssued }

/-- `LEND` (R407): every earlier word that returns a value has completed. -/
def execLend (_h : LaneHdr) (s : State) : Host.Outcome State Fault Refusal :=
  onLane s (fun g gr =>
    let depth := match gr.run with
      | some r => r.depth
      | none => 0
    if depth < gr.stack.length || s.hostOf g gr then s.trapL g .convergence 3 0 0
    else
      let s := s.drainOf .results g
      match s.group g with
      | none => s
      | some gr =>
        if gr.returning then s.holdL g gr .blockEnd
        else
          let s := s.consumeMx g
          match s.group g with
          | none => s
          | some gr => s.laneJump g gr.endBlock (nextLPc gr.lpc 1) false)

def execLnop (h : LaneHdr) (s : State) := laneWord s h [] (fun _ _ => ⟨[], [], 0⟩)

/-- A group arrives at a `REGROUP` (R48): its mask, FMT, active lanes, named registers and predicates are kept, and the
last arrival gathers. -/
def State.arrive (s : State) (g : GRef) (gr : Group) (x : Region) (act : List Nat) : State :=
  let x := { x with arrived := g.gid :: x.arrived.filter (· != g.gid),
                    saves := saveOf x g.gid gr act :: x.saves.filter (fun sv => sv.gid != g.gid) }
  let s := (s.holdL g gr .regroup).onTeam g.team (fun tm => tm.putRegion x)
  if s.regionFull g.team x then s.gatherRegion g.team x else s

/-- `REGROUP` (R48, R52, R434). -/
def execRegroup (h : LaneHdr) (d : VReg) (n : Fin 32) (s : State) : Host.Outcome State Fault Refusal :=
  onLane s (fun g gr =>
    if g.isHandler then s.trapL g .illegal 0 0 0 else
    match s.team g.team with
    | none => s
    | some tm =>
      let fresh : Region := { role := gr.role, addr := gr.lpc, first := d.val, count := n.val + 1, arrived := [],
                              gathered := false, saves := [], join := none }
      let x := (tm.region gr.role).getD fresh
      if x.gathered then
        (if x.saves.any (fun sv => sv.gid == g.gid && !sv.host) && x.addr == gr.lpc then s.holdL g gr .regroupJoin
         else s.trapL g .convergence 4 0 0)
      else
        let x := if x.arrived.isEmpty then fresh else x
        if x.addr != gr.lpc || x.first != d.val || x.count != n.val + 1 then s.trapL g .convergence 4 0 0
        else
          match s.pushMeet g gr with
          | some m => s.trapL g m.cause m.info 0 0
          | none =>
            let s := s.drainOf .results g
            match s.group g with
            | none => s
            | some gr =>
              if gr.returning then s.holdL g gr .blockEnd
              else
                let gr := { gr with alt := [], look := [] }
                let v := s.view gr
                v.2.arrive g gr x (v.1.active h))

end Sys2Proof.Machine
end

