-- ==== Sys2Proof/Machine/ScalarMem.lean ====
section
/-! DEFINITION. Scalar memory words: `SLD`, `SST`, `SATOM` (R148, R442, R450). Each is one unit, performed when it
issues (R343). -/

namespace Sys2Proof

def SSize.bytes : SSize → Nat
  | .n8 | .i8 => 1
  | .n16 | .i16 => 2
  | .n32 | .i32 => 4
  | .b64 => 8

def SSize.signed : SSize → Bool
  | .i8 | .i16 | .i32 => true
  | _ => false

end Sys2Proof

namespace Sys2Proof.Machine

/-- The address of a scalar access (R148). -/
def scalarAddr (base : W64) (off : BitVec 9) : W64 := base + off.signExtend 64

/-- A loaded value as `SLD` writes it. -/
def sldValue (size : SSize) (x : Nat) : W64 :=
  if size.signed then BitVec.signExtend 64 (BitVec.ofNat (8 * size.bytes) x) else BitVec.ofNat 64 x

/-- Checks of a scalar access of n bytes (R450): alignment to its width, then Table MEM-2. -/
def State.checkScalar (s : State) (g : GRef) (gr : Group) (va : W64) (n : Nat) (rd wr host : Bool) :
    Except Meet Xl × State :=
  s.checkGlobal (s.ctxOf g) va.toNat n n rd wr host (!gr.skipS.wp) (some g.core) (s.teamIdOf g)

def execSld (_bt : Bt) (size : SSize) (d a : SReg) (off : BitVec 9) (s : State) : Host.Outcome State Fault Refusal :=
  onScalar s (fun g gr =>
    let va := scalarAddr (gr.sreg a) off
    let r := s.checkScalar g gr va size.bytes true false true
    match r.1 with
    | .error m => r.2.trapS g m.cause m.info va.toNat
    | .ok xl =>
      if xl.host then r.2.scalarDone g (gr.setS d (sldValue size (r.2.hostGet xl.pa size.bytes))) 1
      else
        let v := r.2.coreGet g xl.pa size.bytes
        v.2.scalarDone g (gr.setS d (sldValue size v.1)) 1)

/-- A scalar store has been performed: the stream goes on, and waits on objects re-read their words. -/
def State.scalarStored (s : State) (g : GRef) : State :=
  (s.scalarNext g).settle g.core

/-- A store holds the scalar stream until its unit is performed: on a page locked for a move it waits (R171, R343). -/
def execSst (_bt : Bt) (size : SSize) (d a : SReg) (off : BitVec 9) (s : State) : Host.Outcome State Fault Refusal :=
  onScalar s (fun g gr =>
    let va := scalarAddr (gr.sreg a) off
    let r := s.checkScalar g gr va size.bytes false true true
    match r.1 with
    | .error m => r.2.trapS g m.cause m.info va.toNat
    | .ok xl =>
      let x := (gr.sreg d).toNat % 256 ^ size.bytes
      if xl.host then (r.2.hostSet xl.pa size.bytes x).scalarStored g
      else if r.2.mustHold (.scalar g) xl.pa then (r.2.hold (.scalar g)).holdS g gr .locked
      else ((r.2.unhold (.scalar g)).coreSet g xl.pa size.bytes x xl.mor).scalarStored g)

/-- `SATOM` (R442): operand and comparand at the low bits of the width; the old value goes to the operand register. -/
def execSatom (_bt : Bt) (op : AOp) (w : AWidth) (a b : SReg) (c : Fin 16) (s : State) :
    Host.Outcome State Fault Refusal :=
  onScalar s (fun g gr =>
    let va := gr.sreg a
    let r := s.checkScalar g gr va w.bytes true true false
    match r.1 with
    | .error m => r.2.trapS g m.cause m.info va.toNat
    | .ok xl =>
      if r.2.mustHold (.scalar g) xl.pa then (r.2.hold (.scalar g)).holdS g gr .locked
      else
        let cmp := (gr.sreg ⟨c.val, by omega⟩).toNat % 2 ^ w.bits
        let v := (r.2.unhold (.scalar g)).coreRmw g op w xl.pa ((gr.sreg b).toNat % 2 ^ w.bits) cmp xl.mor
        (v.2.onGroup g (fun gr => gr.setS b (BitVec.ofNat 64 v.1))).scalarStored g)

end Sys2Proof.Machine
end

