-- ==== Sys2Proof/Machine/Firn.lean ====
section
/-! DEFINITION. What the firn engine knows of a kernel's scalar code (R236 to R241): values of registers, folding, joins,
unrolling, and the words that it keeps and emits, block by block. -/

namespace Sys2Proof

/-! Registers a scalar word reads and writes: s0 to s63, c0 to c7 from 64, k0 to k15 from 72, FMT at 88 -/

/-- Registers that a scalar word reads. -/
def Instr.sReads : Instr → List Nat
  | .saddReg _ _ a b | .ssubReg _ _ a b | .smulReg _ _ a b | .sdivReg _ _ _ _ a b | .sandReg _ _ a b | .sorReg _ _ a b
  | .sxorReg _ _ a b | .sshlReg _ _ a b | .sshrReg _ _ a b | .ssarReg _ _ a b | .sminReg _ _ _ a b | .smaxReg _ _ _ a b
  | .scmp _ _ a b _ | .rqset _ _ a b | .rqemit _ a b | .barinit _ a b | .barxpct _ a b | .ringinit _ a b
  | .ringrelP _ a b | .ringrelC _ a b | .hwrite a b => [a.val, b.val]
  | .saddImm _ _ a _ | .ssubImm _ _ a _ | .smulImm _ _ a _ | .sdivImm _ _ a _ | .sandImm _ _ a _ | .sorImm _ _ a _
  | .sxorImm _ _ a _ | .sshlImm _ _ a _ | .sshrImm _ _ a _ | .ssarImm _ _ a _ | .sminImm _ _ a _ | .smaxImm _ _ a _
  | .scmpImm _ _ a _ _ | .smov _ _ a | .smovToC _ _ a | .sld _ _ _ a _ | .sloop _ a _ | .lrun _ a _ | .kset _ _ a
  | .setfmt _ a | .waittl _ _ a | .cpy _ a _ | .gath _ a _ | .coll _ a _ | .kvalloc _ a _ | .kvref _ a _ | .kvunref _ a _
  | .kvcow _ a _ | .kvtierCi _ a _ | .kvtierAq _ a _ | .kvsend _ a _ | .rqget _ _ a _ | .bararr _ a | .bararrDrop _ a
  | .barwait _ a _ | .ringacqP _ a _ | .ringacqC _ a _ | .spawn _ a _ | .join _ a _ | .pwrq _ a _ | .sret _ a
  | .hread a _ | .hresume a | .hkill a => [a.val]
  | .ssel _ _ a b c => [a.val, b.val, 64 + c.val]
  | .smovFromC _ _ c | .sbr _ _ c _ => [64 + c.val]
  | .sst _ _ d a _ => [d.val, a.val]
  | .satom _ op _ a b c => if op = .cas then [a.val, b.val, c.val] else [a.val, b.val]
  | .swr _ d _ => [d.val]
  | _ => []

/-- Registers that a scalar word writes. -/
def Instr.sWrites : Instr → List Nat
  | .saddReg _ d _ _ | .ssubReg _ d _ _ | .smulReg _ d _ _ | .sdivReg _ _ _ d _ _ | .sandReg _ d _ _ | .sorReg _ d _ _
  | .sxorReg _ d _ _ | .sshlReg _ d _ _ | .sshrReg _ d _ _ | .ssarReg _ d _ _ | .sminReg _ _ d _ _ | .smaxReg _ _ d _ _
  | .saddImm _ d _ _ | .ssubImm _ d _ _ | .smulImm _ d _ _ | .sdivImm _ d _ _ | .sandImm _ d _ _ | .sorImm _ d _ _
  | .sxorImm _ d _ _ | .sshlImm _ d _ _ | .sshrImm _ d _ _ | .ssarImm _ d _ _ | .sminImm _ d _ _ | .smaxImm _ d _ _
  | .ssel _ d _ _ _ | .smov _ d _ | .smovFromC _ d _ | .sli _ d _ | .sld _ _ d _ _ | .yget _ d _ | .srd _ d _
  | .scall _ d _ | .scallFar _ d _ | .sloop _ d _ => [d.val]
  | .scmp _ _ _ _ c | .scmpImm _ _ _ _ c | .smovToC _ c _ => [64 + c.val]
  | .satom _ _ _ _ b _ | .tlget _ _ b | .cpy _ _ b | .gath _ _ b | .coll _ _ b | .kvalloc _ _ b | .kvref _ _ b
  | .kvunref _ _ b | .kvcow _ _ b | .kvtierCi _ _ b | .kvtierAq _ _ b | .kvsend _ _ b | .rqget _ _ _ b | .spawn _ _ b
  | .join _ _ b | .pwrq _ _ b | .hread _ b => [b.val]
  | .barwait _ _ b | .ringacqP _ _ b | .ringacqC _ _ b => [b.val, 64]
  | .fenceSurv _ => [64]
  | .kset _ k _ => [72 + k.val]
  | .setfmt _ _ => [88]
  | .swr _ _ idx => if idx = 0x0D then [88] else []
  | _ => []

/-- A word whose result is a value that it loads or reads from outside the registers (R238). -/
def Instr.loads : Instr → Bool
  | .sld _ _ _ _ _ | .srd _ _ _ | .yget _ _ _ | .satom _ _ _ _ _ _ | .tlget _ _ _ | .rqget _ _ _ _ | .join _ _ _
  | .pwrq _ _ _ | .barwait _ _ _ | .ringacqP _ _ _ | .ringacqC _ _ _ | .hread _ _ => true
  | _ => false

open Machine in
/-- The result of a word of Table FIRN-2 whose inputs are all static. -/
def Instr.folded (x : Nat → W64) : Instr → Option (Nat × W64)
  | .saddReg _ d a b => some (d.val, x a.val + x b.val)
  | .ssubReg _ d a b => some (d.val, x a.val - x b.val)
  | .smulReg _ d a b => some (d.val, x a.val * x b.val)
  | .sdivReg _ u r d a b => some (d.val, sdivOp u r (x a.val) (x b.val))
  | .sandReg _ d a b => some (d.val, x a.val &&& x b.val)
  | .sorReg _ d a b => some (d.val, x a.val ||| x b.val)
  | .sxorReg _ d a b => some (d.val, x a.val ^^^ x b.val)
  | .sshlReg _ d a b => some (d.val, x a.val <<< shiftCount (x b.val))
  | .sshrReg _ d a b => some (d.val, x a.val >>> shiftCount (x b.val))
  | .ssarReg _ d a b => some (d.val, (x a.val).sshiftRight (shiftCount (x b.val)))
  | .sminReg _ u d a b => some (d.val, sminOp u (x a.val) (x b.val))
  | .smaxReg _ u d a b => some (d.val, smaxOp u (x a.val) (x b.val))
  | .saddImm _ d a i => some (d.val, x a.val + sextImm i)
  | .ssubImm _ d a i => some (d.val, x a.val - sextImm i)
  | .smulImm _ d a i => some (d.val, x a.val * sextImm i)
  | .sdivImm _ d a i => some (d.val, sdivOp false false (x a.val) (sextImm i))
  | .sandImm _ d a i => some (d.val, x a.val &&& sextImm i)
  | .sorImm _ d a i => some (d.val, x a.val ||| sextImm i)
  | .sxorImm _ d a i => some (d.val, x a.val ^^^ sextImm i)
  | .sshlImm _ d a n => some (d.val, x a.val <<< n.val)
  | .sshrImm _ d a n => some (d.val, x a.val >>> n.val)
  | .ssarImm _ d a n => some (d.val, (x a.val).sshiftRight n.val)
  | .sminImm _ d a i => some (d.val, sminOp false (x a.val) (sextImm i))
  | .smaxImm _ d a i => some (d.val, smaxOp false (x a.val) (sextImm i))
  | .scmp _ k a b c => some (64 + c.val, if SCond_holds k (x a.val) (x b.val) then 1 else 0)
  | .scmpImm _ k a i c => some (64 + c.val, if SCond_holds k (x a.val) (BitVec.ofNat 64 i.val) then 1 else 0)
  | .ssel _ d a b c => some (d.val, if x (64 + c.val) = 1 then x a.val else x b.val)
  | .smov _ d a => some (d.val, x a.val)
  | .smovFromC _ d c => some (d.val, x (64 + c.val))
  | .smovToC _ c a => some (64 + c.val, if x a.val = 0 then 0 else 1)
  | .sli _ d v => some (d.val, v)
  | _ => none

end Sys2Proof

namespace Sys2Proof.Machine

/-! Values (R236) -/

/-- What the engine knows of a register: a static value, ARGBASE plus a static offset, or nothing. -/
inductive Known where
  | static (x : W64)
  | arg (off : W64)
  | dyn
  deriving DecidableEq, Repr

/-- A register on a path; `pend` says that its value has been folded and not yet written. -/
structure Tracked where
  v : Known
  pend : Bool
  deriving DecidableEq, Repr

/-- Registers on a path; one that is not listed is static 0, as at the entry. -/
abbrev FEnv := Assoc Nat Tracked

def FEnv.get (e : FEnv) (r : Nat) : Tracked := if r = 0 then ⟨.static 0, false⟩ else (aget e r).getD ⟨.static 0, false⟩

def FEnv.set (e : FEnv) (r : Nat) (t : Tracked) : FEnv :=
  if r = 0 then e else if t = ⟨.static 0, false⟩ then adel e r else aput e r t

/-- Every register that a path holds beside s0. -/
def firnRegs : List Nat := (List.range 88).map (· + 1)

/-- After a call nothing is known (R240). -/
def FEnv.unknown : FEnv := firnRegs.map (fun r => (r, ⟨.dyn, false⟩))

/-- Two paths meet: a register keeps a value that both hold. R240 says so of a static value; an argument-relative one of one offset is
kept too, since no path materialises what is not static there (DEDUCED, log entry 121). -/
def FEnv.meet (a b : FEnv) : FEnv :=
  firnRegs.foldl (fun e r =>
    let x := FEnv.get a r
    let y := FEnv.get b r
    FEnv.set e r (if x.v = y.v then ⟨x.v, x.pend || y.pend⟩ else ⟨.dyn, false⟩)) []

/-- The static value of a register. -/
def FEnv.static (e : FEnv) (r : Nat) : Option W64 :=
  match (FEnv.get e r).v with
  | .static x => some x
  | _ => none

/-! Code as the engine reads it -/

/-- A word of original code: its bits, those of its immediate slots, what it decodes to, and its target mark. -/
structure FWord where
  w : Nat
  imm : Nat
  i : Instr
  target : Bool
  deriving DecidableEq, Repr

def FWord.slots (f : FWord) : Nat := if isSlWord f.w then 3 else 1
/-- Binding time of a word: 0, 1 or 2. -/
def FWord.bt (f : FWord) : Nat := field f.w 24 2

/-- A line of original code that a context can fetch: its translation and header. -/
def State.firnLine (s : State) (c line : Nat) : Option (Xl × Nat) :=
  match s.walk c line with
  | none => none
  | some t =>
    let xl := t.at_ line
    if xl.x then some (xl, s.codeBytes c xl 0 8) else none

/-- The scalar word at an address, or none where it would take a decode cause for its role (R244). -/
def State.firnWord (s : State) (c : Nat) (role : Role) (pc : Nat) : Option FWord :=
  let k := pc % 32
  let line := codeLine false pc
  if 30 ≤ k || 2 ^ 56 ≤ line then none else
  match s.firnLine c line with
  | none => none
  | some (xl, hd) =>
    if hd.testBit 63 || s.inResidual c line || !headerOk false hd || !startMark hd k then none else
    match s.decodeAt c false xl hd k with
    | none => none
    | some i =>
      if badHead (BitVec.ofNat 64 pc) i || (i.roleCause false role).isSome then none
      else some { w := s.codeBytes c xl (8 + k * 4) 4, imm := s.codeBytes c xl (8 + (k + 1) * 4) 8, i := i,
                  target := targetMark false hd k }

/-! Blocks -/

/-- A place in the residual: an original slot with its unroll context, outermost first, in which (true, a, i) is
iteration i of the loop that the `SLOOP` at a closes and (false, a, n) the n-th time that a folded backward branch at a
was followed; of kind 1, a jump to that original slot; of kinds 2 and 3, a slot beside a word that needs a far jump. -/
structure FLabel where
  addr : Nat
  ctx : List (Bool × Nat × Nat)
  kind : Nat
  deriving DecidableEq, Repr

/-- A word of the residual: bits, the immediate of an SL word, the label that a near word goes to, or (`far`) that an
`SJMP.FAR` goes to; the original slot, its iteration, whether the engine made it, and the outermost loop being
unrolled. -/
structure FItem where
  word : Nat
  imm : Option Nat
  goes : Option FLabel
  far : Bool
  orig : Nat
  iter : Nat
  made : Bool
  loop : Option Nat
  deriving DecidableEq, Repr

/-- A path as it is evaluated: `escapes` holds the original code that it goes on to, `left` says that a path has gone on to a
target-marked original slot after its cut point, and `lastLoop` is the last loop of the build that was being unrolled. -/
structure FPath where
  ctx : List (Bool × Nat × Nat)
  env : FEnv
  items : List FItem
  edges : List (FLabel × FEnv)
  lruns : List (Option W64 × FEnv)
  escapes : List Nat
  lost : Bool
  left : Bool
  copying : Bool
  kept : Nat
  used : Nat
  lastLoop : Option Nat

/-- What an evaluation goes by: the code, the role's fixed special registers, static argument bytes, the unroll limit and
the loops that are not to be unrolled, the loop heads, the entry states met so far, and the cut point of a partial
residual. -/
structure FPar where
  word : Nat → Option FWord
  fixed : Nat → Option Known
  argByte : Nat → Option Nat
  unroll : Nat
  rolled : List Nat
  heads : List (Nat × Nat × Nat)
  states : List (FLabel × FEnv)
  cut : Option Nat

/-- Why an evaluation stops: the key is rejected, or a residual of 1 MiB is passed, with the loop that is given up for it: the
outermost one being unrolled there, or the last one before (R243; DESIGN CHOICE, log entry 118). -/
inductive FEnd where
  | reject
  | past (loop : Option Nat)
  deriving DecidableEq, Repr

/-- Iteration of the innermost unrolled loop. -/
def iterOf (ctx : List (Bool × Nat × Nat)) : Nat :=
  match (ctx.filter (·.1)).getLast? with
  | some x => x.2.2
  | none => 0

/-- The outermost loop being unrolled. -/
def outerLoop (ctx : List (Bool × Nat × Nat)) : Option Nat := (ctx.find? (·.1)).map (·.2.1)

/-- The label of an original slot that a path reaches: loops that do not enclose it are left, and those that it heads and
that are to be unrolled are entered; `via` is the `SLOOP` that goes back to it (R241, R452). -/
def FPar.label (p : FPar) (addr : Nat) (ctx : List (Bool × Nat × Nat)) (env : FEnv) (via : Option Nat) : FLabel :=
  let ctx := ctx.filter (fun x => !x.1 || p.heads.any (fun h => h.2.1 == x.2.1 && decide (h.1 ≤ addr) && decide (addr ≤ h.2.1)))
  let entered := (sortBy (fun (a b : Nat × Nat × Nat) => decide (b.2.1 < a.2.1)) (p.heads.filter (fun h =>
    h.1 == addr && some h.2.1 != via && !p.rolled.contains h.2.1 && (match FEnv.static env h.2.2 with
      | some x => decide (max 1 x.toNat ≤ p.unroll)
      | none => false)))).map (fun h => (true, h.2.1, 0))
  ⟨addr, ctx.filter (fun x => !(entered.any (fun y => x.1 && y.2.1 == x.2.1))) ++ entered, 0⟩

/-- Slots of 1 MiB of lines. -/
def firnSlots : Nat := 30 * 8192

/-- The outermost loop being unrolled, or the last one before. -/
def FPath.loop (a : FPath) : Option Nat :=
  match outerLoop a.ctx with
  | some l => some l
  | none => a.lastLoop

/-- Emit an item. -/
def FPath.emit (a : FPath) (x : FItem) : FPath :=
  { a with items := a.items ++ [{ x with loop := outerLoop a.ctx }], lastLoop := a.loop,
           used := a.used + (if x.imm.isSome || x.far then 3 else 1), kept := if x.made then a.kept else a.kept + 1 }

/-- A word made by the engine. -/
def madeItem (i : Instr) (sl : Bool) (orig iter : Nat) : FItem :=
  let e := (encodeScalar i).getD (0, 0)
  { word := e.1, imm := if sl then some e.2 else none, goes := none, far := false, orig := orig, iter := iter, made := true,
    loop := none }

/-- Steps of at most 2,047 and at least -2,048 that sum to an offset. -/
def argSteps : Nat → Int → List (BitVec 12)
  | 0, _ => []
  | n + 1, o => if o = 0 then [] else let k := max (-2048) (min 2047 o); BitVec.ofInt 12 k :: argSteps n (o - k)

/-- The words that write a register's folded value (R239). Where several written registers could be the base of an `SADD`, the lowest
numbered one is (DESIGN CHOICE, log entry 121). -/
def matWords (e : FEnv) (r : Nat) : List (Instr × Bool) :=
  let d : SReg := fin r 64
  match (FEnv.get e r).v with
  | .dyn => []
  | .static x =>
    if r < 64 then [(.sli .dyn d x, true)]
    else [(.scmp .dyn (if x = 1 then .eq else .ne) 0 0 (fin (r - 64) 8), false)]
  | .arg o =>
    let from_ := (firnRegs.filter (· < 64)).findSome? (fun q =>
      match FEnv.get e q with
      | ⟨.arg o', false⟩ => let k := (o - o').toInt; if decide (-2048 ≤ k) && decide (k ≤ 2047) then some (q, k) else none
      | _ => none)
    match from_ with
    | some (q, k) => [(.saddImm .dyn d (fin q 64) (BitVec.ofInt 12 k), false)]
    | none => (.srd .dyn d 0x12, false) ::
        (argSteps (o.toInt.natAbs / 2047 + 2) o.toInt).map (fun i => (.saddImm .dyn d d i, false))

/-- Write the folded values of some registers, lowest first. -/
def FPath.materialise (a : FPath) (regs : List Nat) (orig : Nat) : FPath :=
  (firnRegs.filter (fun r => regs.contains r)).foldl (fun (a : FPath) r =>
    if !(FEnv.get a.env r).pend then a else
    let a := (matWords a.env r).foldl (fun (a : FPath) x => a.emit (madeItem x.1 x.2 orig (iterOf a.ctx))) a
    { a with env := FEnv.set a.env r { FEnv.get a.env r with pend := false } }) a

/-- Before an edge: the registers that the join leaves dynamic are written on this path (R240). -/
def FPath.beforeEdge (p : FPar) (a : FPath) (l : FLabel) (orig : Nat) : FPath :=
  match p.states.find? (fun x => x.1 == l) with
  | none => a
  | some x =>
    let m := FEnv.meet x.2 a.env
    a.materialise (firnRegs.filter (fun r => (FEnv.get m r).v == .dyn)) orig

/-- Take an edge to a label. -/
def FPath.edge (a : FPath) (l : FLabel) : FPath := { a with edges := a.edges ++ [(l, a.env)] }

/-- A retained word as it stands, for a label where it is a near transfer. -/
def keptItem (f : FWord) (addr : Nat) (ctx : List (Bool × Nat × Nat)) (goes : Option FLabel) : FItem :=
  { word := f.w, imm := if isSlWord f.w then some f.imm else none, goes := goes, far := false, orig := addr,
    iter := iterOf ctx, made := false, loop := none }

/-- Where a path goes after a word. -/
inductive FNext where
  | at_ (addr : Nat)
  | fall (l : FLabel)
  | done
  deriving DecidableEq, Repr

/-- A retained word with its reads written and its writes unknown. -/
def FPath.keep (a : FPath) (f : FWord) (addr : Nat) : FPath :=
  let a := (a.materialise f.i.sReads addr).emit (keptItem f addr a.ctx none)
  { a with env := f.i.sWrites.foldl (fun e r => FEnv.set e r ⟨.dyn, false⟩) a.env }

/-- A retained branch or loop word with an edge to a label. -/
def FPath.branch (p : FPar) (a : FPath) (f : FWord) (addr : Nat) (l : FLabel) : FPath :=
  let a := (a.materialise f.i.sReads addr)
  let a := FPath.beforeEdge p a l addr
  (a.emit (keptItem f addr a.ctx (some l))).edge l

/-- A path leaves the residual by a far jump to an original slot (R239, R243). -/
def FPath.leave (a : FPath) (addr orig : Nat) (made : Bool) : FPath :=
  let a := a.materialise firnRegs orig
  let a := a.emit { madeItem (.sjmpFar .dyn (BitVec.ofNat 64 addr)) true orig (iterOf a.ctx) with made := made }
  { a with escapes := addr :: a.escapes, left := a.left || a.copying }

/-- A call goes to the original target (R240). -/
def FPath.call (a : FPath) (l : SReg) (target addr : Nat) : FPath :=
  let a := a.materialise firnRegs addr
  let a := a.emit { madeItem (.scallFar .dyn l (BitVec.ofNat 64 target)) true addr (iterOf a.ctx) with made := false }
  { a with env := FEnv.unknown, escapes := target :: a.escapes }

/-- A loaded value from static arguments (Table FIRN-2): offset from ARGBASE, aligned, every byte static. -/
def FPar.argLoad (p : FPar) (off n : Nat) : Option Nat :=
  if off % n != 0 then none else
  (List.range n).foldr (fun i acc =>
    match acc, p.argByte (off + i) with
    | some x, some b => some (b + 256 * x)
    | _, _ => none) (some 0)

/-- What a word folds to (R237): a register and its value. -/
def FPar.fold (p : FPar) (e : FEnv) (i : Instr) : Option (Nat × Known) :=
  match i with
  | .sld _ size d a off =>
    (match (FEnv.get e a.val).v with
     | .arg o => (p.argLoad (o + off.signExtend 64).toNat size.bytes).map (fun x => (d.val, .static (sldValue size x)))
     | _ => none)
  | .srd _ d idx => (p.fixed idx.toNat).map (fun x => (d.val, x))
  | _ =>
    let arg := match i with
      | .saddImm _ d a imm => (match (FEnv.get e a.val).v with
          | .arg o => some (d.val, Known.arg (o + sextImm imm))
          | _ => none)
      | .ssubImm _ d a imm => (match (FEnv.get e a.val).v with
          | .arg o => some (d.val, Known.arg (o - sextImm imm))
          | _ => none)
      | _ => none
    match arg with
    | some x => some x
    | none =>
      if i.sReads.all (fun r => (FEnv.static e r).isSome) then
        (i.folded (fun r => (FEnv.static e r).getD 0)).map (fun x => (x.1, .static x.2))
      else none

/-- The target of a near word, where it is a slot that a transfer may reach. -/
def FPar.near (p : FPar) (addr : Nat) (off : SOff) : Option Nat :=
  let t := (nearTarget (BitVec.ofNat 64 addr) off).toNat
  match p.word t with
  | some f => if f.target then some t else none
  | none => none

/-- The slot after a word. -/
def FWord.after (f : FWord) (addr : Nat) : Nat := (nextSPc (BitVec.ofNat 64 addr) f.slots).toNat

/-- A folded taken branch is followed; one that goes back, at most unroll-limit times on a path (R241). -/
def FPar.follow (p : FPar) (ctx : List (Bool × Nat × Nat)) (addr t : Nat) : Option (List (Bool × Nat × Nat)) :=
  if addr < t then some ctx else
  let n := match ctx.find? (fun x => !x.1 && x.2.1 == addr) with
    | some x => x.2.2 + 1
    | none => 1
  if n ≤ p.unroll then some ((ctx.filter (fun x => x.1 || x.2.1 != addr)) ++ [(false, addr, n)]) else none

/-- A path goes on at a label that it need not jump to. -/
def FPath.fallTo (p : FPar) (a : FPath) (l : FLabel) (orig : Nat) : FPath × FNext :=
  ((FPath.beforeEdge p a l orig).edge l, .fall l)

/-- An `SLOOP` (R241, R452): unrolled, or retained with its head as a join. -/
def FPar.loopWord (p : FPar) (f : FWord) (addr t : Nat) (r : SReg) (a : FPath) : Option (FPath × FNext) :=
  let here := a.ctx.find? (fun x => x.1 && x.2.1 == addr)
  let rest := a.ctx.filter (fun x => !(x.1 && x.2.1 == addr))
  match here, FEnv.static a.env r.val with
  | some x, some v =>
    if decide (1 < v.toNat) && decide (x.2.2 + 1 < p.unroll) then
      let env := FEnv.set a.env r.val ⟨.static (v - 1), true⟩
      let ctx := a.ctx.map (fun y => if y.1 && y.2.1 == addr then (true, addr, x.2.2 + 1) else y)
      some (FPath.fallTo p { a with env := env } (p.label t ctx env (some addr)) addr)
    else if v.toNat ≤ 1 then
      some ({ a with env := FEnv.set a.env r.val ⟨.static 0, true⟩, ctx := rest }, .at_ (f.after addr))
    else keep rest
  | some _, none => if f.bt = 2 then none else keep rest
  | none, _ => keep rest
where
  /-- The word is retained. -/
  keep (rest : List (Bool × Nat × Nat)) : Option (FPath × FNext) :=
    let a := a.materialise [r.val] addr
    let env := FEnv.set a.env r.val ⟨.dyn, false⟩
    let l := p.label t rest env (some addr)
    let a := FPath.beforeEdge p { a with env := env } l addr
    some ({ (a.emit (keptItem f addr a.ctx (some l))).edge l with ctx := rest }, .at_ (f.after addr))

/-- The loop that an `SLOOP` closes carries bt 0b10 and a path enters it, other than by that word, with a trip count that is not
static: the key is rejected (R241, R452). -/
def FPar.asserted (p : FPar) (addr : Nat) (env : FEnv) (via : Option Nat) : Bool :=
  p.heads.any (fun h => h.1 == addr && some h.2.1 != via && (FEnv.static env h.2.2).isNone && (match p.word h.2.1 with
    | some f => f.bt == 2
    | none => false))

/-- One word of a path (R237 to R241); none rejects the key. -/
def FPar.step (p : FPar) (f : FWord) (addr : Nat) (a : FPath) : Option (FPath × FNext) :=
  let next := FNext.at_ (f.after addr)
  match f.i with
  | .sbr _ inv c off =>
    let taken : Option Bool := if f.bt = 0 then none else (FEnv.static a.env (64 + c.val)).map (fun x => (x == 1) != inv)
    if taken = some false then some (a, next)
    else if f.bt = 2 && taken.isNone then none
    else
      match p.near addr off with
      | none => none
      | some t =>
        if p.asserted t a.env none then none else
        match (if taken = some true then p.follow a.ctx addr t else none) with
        | some ctx => some (FPath.fallTo p a (p.label t ctx a.env none) addr)
        | none => some (FPath.branch p a f addr (p.label t a.ctx a.env none), next)
  | .sjmp _ off =>
    match p.near addr off with
    | none => none
    | some t =>
      if p.asserted t a.env none then none else
      let l := p.label t a.ctx a.env none
      if f.bt = 0 then some (FPath.branch p a f addr l, .done) else some (FPath.fallTo p a l addr)
  | .sjmpFar _ imm => some (a.leave imm.toNat addr false, .done)
  | .scall _ l off => some (a.call l (nearTarget (BitVec.ofNat 64 addr) off).toNat addr, next)
  | .scallFar _ l imm => some (a.call l imm.toNat addr, next)
  | .sloop _ r off =>
    match p.near addr off with
    | none => none
    | some t => if p.asserted t a.env (some addr) then none else p.loopWord f addr t r a
  | i =>
    match p.fold a.env i with
    | some (d, v) =>
      if f.bt = 0 then
        let b := a.keep f addr
        some ({ b with env := match i with
          | .srd _ _ _ => FEnv.set b.env d ⟨v, false⟩
          | _ => b.env }, next)
      else some ({ a with env := FEnv.set a.env d ⟨v, true⟩ }, next)
    | none =>
      if f.bt = 2 && (i.loads || !i.sReads.all (fun r => (FEnv.static a.env r).isSome)) then none else
      let b := a.keep f addr
      match i with
      | .kset _ k r => some ({ b with env := match (FEnv.get a.env r.val).v with
          | .static x => FEnv.set b.env (72 + k.val) ⟨.static x, false⟩
          | _ => b.env }, next)
      | .setfmt _ r => some ({ b with env := match (FEnv.get a.env r.val).v with
          | .static x => if fmtOk (x.setWidth 32) then FEnv.set b.env 88 ⟨.static (x.setWidth 32 |>.setWidth 64), false⟩ else b.env
          | _ => b.env }, next)
      | .lrun _ r imm =>
        some ({ b with lruns := b.lruns ++ [((FEnv.static a.env r.val).map (· + imm.setWidth 64), a.env)] }, next)
      | .exit _ => some (b, .done)
      | .sret _ _ => some ({ (a.materialise firnRegs addr).keep f addr with lost := true }, .done)
      | _ => some (b, next)

/-- One word copied after the cut point of a partial residual (R243). -/
def copyWord (f : FWord) (addr : Nat) (a : FPath) : FPath × FNext :=
  let next := FNext.at_ (f.after addr)
  let stub (off : SOff) : FLabel := ⟨(nearTarget (BitVec.ofNat 64 addr) off).toNat, [], 1⟩
  match f.i with
  | .sjmp _ off => (a.leave (stub off).addr addr true, .done)
  | .sjmpFar _ imm => (a.leave imm.toNat addr false, .done)
  | .scall _ l off => (a.call l (nearTarget (BitVec.ofNat 64 addr) off).toNat addr, next)
  | .scallFar _ l imm => (a.call l imm.toNat addr, next)
  | .sbr _ _ _ off | .sloop _ _ off =>
    let l := stub off
    ({ (a.emit (keptItem f addr a.ctx (some l))).edge l with escapes := l.addr :: a.escapes, left := true }, next)
  | .lrun _ r imm =>
    let a := a.emit (keptItem f addr a.ctx none)
    ({ a with lruns := a.lruns ++ [(if r = 0 then some (imm.setWidth 64) else none, FEnv.unknown)] }, next)
  | .exit _ => (a.emit (keptItem f addr a.ctx none), .done)
  | .sret _ _ => ({ a.emit (keptItem f addr a.ctx none) with lost := true }, .done)
  | _ => (a.emit (keptItem f addr a.ctx none), next)

/-- One slot of a block: the word there, or the end of the block at a target-marked slot. -/
def FPar.one (p : FPar) (addr : Nat) (first : Bool) (a : FPath) : Except FEnd (FPath × FNext) :=
  match p.word addr with
  | none => .error .reject
  | some f =>
    if firnSlots < a.used then .error (.past a.loop) else
    let cut := match p.cut with
      | some k => decide (k ≤ a.kept)
      | none => false
    let a := if cut && !a.copying then { a.materialise firnRegs addr with copying := true, env := FEnv.unknown } else a
    if a.copying then .ok (if f.target then (a.leave addr addr true, .done) else copyWord f addr a)
    else if f.target && !first then
      if p.asserted addr a.env none then .error .reject else .ok (FPath.fallTo p a (p.label addr a.ctx a.env none) addr)
    else match p.step f addr a with
      | some x => .ok x
      | none => .error .reject

/-- Evaluate from a slot to the end of its block: the label it falls into, or none where the path ends. -/
def FPar.run (p : FPar) : Nat → Nat → Bool → FPath → Except FEnd (FPath × Option FLabel)
  | 0, _, _, a => .error (.past a.loop)
  | n + 1, addr, first, a =>
    match p.one addr first a with
    | .error e => .error e
    | .ok (a, .at_ x) => FPar.run p n x false a
    | .ok (a, .fall l) => .ok (a, some l)
    | .ok (a, .done) => .ok (a, none)

end Sys2Proof.Machine
end

