-- ==== Sys2Proof/Machine/FirnBuild.lean ====
section
/-! DEFINITION. `FIRN_BUILD` (R234 to R248): the residual of a key, its lines and its map, and the entry that names it. -/

namespace Sys2Proof

open Machine in
/-- Operand types of the selectors A, B, C and E of a lane word at which a selector that is neither v nor k is legal
(R73, R242). -/
def Instr.selTypes : Instr → List (Option OTy)
  | .iadd _ t _ _ _ _ | .isub _ t _ _ _ _ | .imul _ t _ _ _ _ | .imin _ t _ _ _ | .imax _ t _ _ _ | .and _ t _ _ _
  | .or _ t _ _ _ | .xor _ t _ _ _ | .sel _ t _ _ _ _ => [otyOf t, otyOf t]
  | .isetp _ t _ _ _ _ => [otyOf (setpType t), otyOf (setpType t)]
  | .imad _ t _ _ _ _ _ | .logic _ t _ _ _ _ _ _ _ _ => [otyOf t, otyOf t, otyOf t]
  | .idot4 _ t _ _ _ _ _ => [some .nat, some .nat, otyOf t]
  | .iabs _ t _ _ _ | .ineg _ t _ _ _ | .popc _ t _ _ | .clz _ t _ _ | .brev _ t _ _ | .mov _ t _ _
  | .matchLanes _ t _ _ _ | .redux _ t _ _ _ _ _ | .scan _ t _ _ _ _ => [otyOf t]
  | .shl _ t _ _ _ _ | .shr _ t _ _ _ _ | .sar _ t _ _ _ _ | .gsort _ t _ _ _ _ => [otyOf t, some .nat]
  | .bfe _ _ _ _ _ => [some .nat, some .nat]
  | .bfi _ _ _ _ _ | .prmt _ _ _ _ _ => [some .nat, some .nat, some .nat]
  | .fadd _ _ _ _ | .fmul _ _ _ _ | .ffma _ _ _ _ _ | .fmin _ _ _ _ _ | .fmax _ _ _ _ _ =>
    [some .f32, some .f32, some .f32]
  | .rcp _ _ _ | .rsq _ _ _ | .sqrt _ _ _ | .ex2 _ _ _ | .lg2 _ _ _ | .sin _ _ _ | .cos _ _ _ | .tanh _ _ _ => [some .f32]
  | .fsetp _ t _ _ _ _ | .fclass _ t _ _ _ | .frnd _ t _ _ _ | .hadd2 _ t _ _ _ | .hmul2 _ t _ _ _ | .hfma2 _ t _ _ _ _ =>
    [some (ftyOty t), some (ftyOty t), some (ftyOty t)]
  | .cvt _ _ src _ _ => [otyOf src]
  | .pack _ t _ _ _ _ _ => let o := otyOf (packSource t); [o, o, o, o]
  | .unpk _ _ _ _ _ | .exmset _ _ | .waitp _ _ _ => [some .nat]
  | .shfl _ _ _ _ _ _ | .bcast _ _ _ _ _ | .mxread _ _ _ _ _ | .tagset _ _ _ _ _ | .tagget _ _ _ _ _ | .pref _ _ _ _ _
  | .ldg _ _ _ _ _ _ | .lds _ _ _ _ _ _ | .ldx _ _ _ _ _ _ | .rld _ _ _ _ _ _ => [none, some .nat]
  | .stg _ fn _ _ _ _ | .sts _ fn _ _ _ _ | .stx _ fn _ _ _ _ | .rst _ fn _ _ _ _ =>
    [none, some .nat, if fn.width = .b64 then some .n64 else some .nat]
  | .atom _ op w _ _ _ _ _ _ _ | .ratom _ op w _ _ _ _ _ _ _ =>
    let o := if w = .w64 then wideAtomType op else OTy.nat; [none, some .nat, o, o]
  | .red _ op w _ _ _ _ => [none, some .nat, if w = .w64 then some (wideAtomType op) else some .nat]
  | .mma _ _ _ _ _ _ => [none, some .nat, none, some .nat]
  | .rand _ _ _ _ => [some .n64, some .n64]
  | _ => []

end Sys2Proof

namespace Sys2Proof.Machine

/-! Rounds of evaluation (R240) -/

/-- A block: its words, and the label that it falls into. -/
structure FBlock where
  label : FLabel
  items : List FItem
  next : Option FLabel
  deriving DecidableEq, Repr

/-- One round over the code of a role: entry states, labels still to evaluate, blocks, the edges that were taken, and what
the lane code and the size depend on. -/
structure FRound where
  states : List (FLabel × FEnv)
  queue : List FLabel
  blocks : List FBlock
  edges : List FLabel
  lruns : List (Option W64 × FEnv)
  escapes : List Nat
  lost : Bool
  left : Bool
  kept : Nat
  used : Nat
  lastLoop : Option Nat
  changed : Bool

/-- An edge arrives: the entry state is the meet of every path. -/
def FRound.arrive (r : FRound) (x : FLabel × FEnv) : FRound :=
  let r := { r with edges := x.1 :: r.edges }
  let r := match r.states.find? (fun y => y.1 == x.1) with
    | none => { r with states := r.states ++ [(x.1, FEnv.meet x.2 x.2)] }
    | some y =>
      let m := FEnv.meet y.2 x.2
      if m = y.2 then r
      else { r with changed := true, states := r.states.map (fun z => if z.1 = x.1 then (x.1, m) else z) }
  if r.queue.contains x.1 || r.blocks.any (fun b => b.label == x.1) then r else { r with queue := r.queue ++ [x.1] }

/-- Evaluate the labels of a round in turn. -/
def FRound.go (p : FPar) : Nat → FRound → Except FEnd FRound
  | 0, r => .error (.past r.lastLoop)
  | n + 1, r =>
    match r.queue with
    | [] => .ok r
    | l :: rest =>
      let start : FPath := { ctx := l.ctx, env := ((r.states.find? (fun x => x.1 == l)).map (·.2)).getD [], items := [],
                             edges := [], lruns := [], escapes := [], lost := false, left := r.left, copying := false, kept := r.kept,
                             used := r.used, lastLoop := r.lastLoop }
      let done (a : FPath) (next : Option FLabel) : FRound :=
        a.edges.foldl FRound.arrive { r with
          queue := rest, blocks := r.blocks ++ [⟨l, a.items, next⟩], lruns := r.lruns ++ a.lruns,
          escapes := a.escapes ++ r.escapes, lost := r.lost || a.lost, left := r.left || a.left, kept := a.kept, used := a.used,
          lastLoop := a.lastLoop }
      if l.kind = 1 then FRound.go p n (done (start.leave l.addr l.addr true) none)
      else
        match FPar.run { p with states := r.states } (firnSlots + 1) l.addr true start with
        | .error e => .error e
        | .ok (a, next) => FRound.go p n (done a next)

/-- A round that begins at a role's entry. -/
def FRound.start (entry : FLabel) (states : List (FLabel × FEnv)) (kept used : Nat) (lastLoop : Option Nat) : FRound :=
  { states := states, queue := [entry], blocks := [], edges := [entry], lruns := [], escapes := [], lost := false,
    left := false, kept := kept, used := used, lastLoop := lastLoop, changed := false }

/-- Rounds until no entry state changes. -/
def evalRole (p : FPar) (entry : FLabel) (kept used : Nat) (lastLoop : Option Nat) : Nat → List (FLabel × FEnv) → Except FEnd FRound
  | 0, _ => .error .reject
  | n + 1, states =>
    match FRound.go p (firnSlots + 1) (FRound.start entry states kept used lastLoop) with
    | .error e => .error e
    | .ok r => if r.changed then evalRole p entry kept used lastLoop n r.states else .ok r

/-! Scalar lines (R65, R66, R85, R240, R245) -/

/-- What is laid out: a label, or a word; the number tells words apart. -/
inductive FEl where
  | lab (l : FLabel)
  | it (n : Nat) (x : FItem)
  deriving DecidableEq, Repr

/-- An emitted near jump. -/
def jumpItem (l : FLabel) (orig iter : Nat) : FItem :=
  { madeItem (.sjmp .dyn ⟨0, 0⟩) false orig iter with goes := some l }

/-- Blocks in the order of the build, each followed by the one it falls into, where that has no place yet. -/
def chain (blocks : List FBlock) : Nat → List FLabel → List FLabel → List (FLabel ⊕ FItem)
  | 0, _, _ => []
  | _, [], _ => []
  | n + 1, l :: todo, placed =>
    if placed.contains l then chain blocks n todo placed else
    match blocks.find? (fun b => b.label == l) with
    | none => chain blocks n todo placed
    | some b =>
      let placed := l :: placed
      let jump := match b.next with
        | some m => if placed.contains m then [Sum.inr (jumpItem m m.addr (iterOf m.ctx))] else []
        | none => []
      Sum.inl l :: b.items.map Sum.inr ++ jump ++ chain blocks n (b.next.toList ++ todo) placed

/-- A word whose target lies beyond the line delta goes through a nearby `SJMP.FAR` (R240). -/
def farForm (n : Nat) (x : FItem) : List FEl :=
  let t : FLabel := ⟨n, [], 2⟩
  let f : FLabel := ⟨n, [], 3⟩
  let jump : FItem := { madeItem (.sjmpFar .dyn 0) true x.orig x.iter with goes := x.goes, far := true }
  let skip := jumpItem f x.orig x.iter
  match field x.word 26 6 with
  | 0x16 => [.it n { jump with made := x.made }]
  | 0x1A => [.it n skip, .lab t, .it n jump, .lab f, .it n { x with goes := some t }]
  | _ => [.it n { x with goes := some t }, .it n skip, .lab t, .it n jump, .lab f]

/-- A layout of a role: lines, words with their slots, places of labels, and slots that a call returns to. -/
structure FLay where
  slots : Nat
  out : List (Nat × Nat × FItem)
  pos : List (FLabel × Nat)
  pend : List FLabel
  rets : List Nat

/-- Place one element; an SL word never splits a line (R66). -/
def FLay.put (y : FLay) : FEl → FLay
  | .lab l => { y with pend := l :: y.pend }
  | .it n x =>
    let k := if x.imm.isSome || x.far then 3 else 1
    let at_ := if 30 < y.slots % 30 + k then (y.slots / 30 + 1) * 30 else y.slots
    { slots := at_ + k, out := y.out ++ [(at_, n, x)], pos := y.pend.map (fun l => (l, at_)) ++ y.pos,
      pend := [],
      rets := if field x.word 26 6 = 0x19 then (at_ + k) :: y.rets else y.rets }

def FLay.at_ (y : FLay) (l : FLabel) : Nat := ((y.pos.find? (fun x => x.1 == l)).map (·.2)).getD 0

/-- Lay out elements with the words of some numbers in their far form. -/
def layFar (els : List (FLabel ⊕ FItem)) (far : List Nat) : FLay :=
  let all := els.zipIdx.flatMap (fun x => match x.1 with
    | .inl l => [FEl.lab l]
    | .inr i => if far.contains x.2 then farForm x.2 i else [FEl.it x.2 i])
  let y := all.foldl FLay.put { slots := 0, out := [], pos := [], pend := [], rets := [] }
  { y with pos := y.pend.map (fun l => (l, y.slots)) ++ y.pos, slots := if y.pend.isEmpty then y.slots else y.slots + 1 }

/-- Near words that cannot reach their targets (R65, R452). -/
def FLay.beyond (y : FLay) (far : List Nat) : List Nat :=
  (y.out.filter (fun x =>
    !far.contains x.2.1 && !x.2.2.far && (match x.2.2.goes with
      | none => false
      | some l =>
        let t := y.at_ l
        let d : Int := (t / 30 : Nat) - (x.1 / 30 : Nat)
        decide (d < -256) || decide (255 < d) || (field x.2.2.word 26 6 == 0x1A && decide (x.1 < t))))).map (·.2.1)

/-- Lay out a role, with far forms as far as they are needed. -/
def layRole (els : List (FLabel ⊕ FItem)) : Nat → List Nat → FLay
  | 0, far => layFar els far
  | n + 1, far =>
    let y := layFar els far
    match y.beyond far with
    | [] => y
    | more => layRole els n (more ++ far)

/-- What a slot's map entry says (R245). -/
inductive FMark where
  | kept (orig iter : Nat)
  | made
  | none
  deriving DecidableEq, Repr

/-- A slot of a residual line. -/
structure FSlot where
  word : Nat
  start : Bool
  target : Bool
  mark : FMark
  deriving DecidableEq, Repr

/-- The slots of one laid-out word. -/
def FLay.wordSlots (y : FLay) (baseLine : Nat) (targets : List Nat) (at_ : Nat) (x : FItem) : List FSlot :=
  let mark := if x.made then FMark.made else .kept x.orig x.iter
  let head (w : Nat) : FSlot := ⟨w, true, targets.contains at_, mark⟩
  let sl (w imm : Nat) : List FSlot := [head w, ⟨imm % 2 ^ 32, false, false, .none⟩, ⟨imm / 2 ^ 32 % 2 ^ 32, false, false, .none⟩]
  match x.goes, x.imm with
  | some l, _ =>
    let t := y.at_ l
    if x.far then sl x.word ((baseLine + t / 30) * 32 + t % 30)
    else [head (x.word / 2 ^ 14 * 2 ^ 14 + ((t / 30 : Nat) - (at_ / 30 : Nat) : Int).toNat % 512 * 32 + (if t / 30 < at_ / 30
      then (512 - (at_ / 30 - t / 30)) * 32 else 0) + t % 30)]
  | none, some imm => sl x.word imm
  | none, none => [head x.word]

/-- `SNOP`, with which unused slots are filled. -/
def padSlot (targets : List Nat) (k : Nat) : FSlot := ⟨0xE4000000, true, targets.contains k, .made⟩

/-- The slots of a role's lines, given the number of its first line. -/
def FLay.slotList (y : FLay) (baseLine : Nat) (targets : List Nat) : List FSlot :=
  let l := y.out.foldl (fun (l : List FSlot) x =>
    l ++ (List.range (x.1 - l.length)).map (fun i => padSlot targets (l.length + i)) ++ y.wordSlots baseLine targets x.1 x.2.2) []
  let n := (max y.slots l.length + 29) / 30 * 30
  l ++ (List.range (n - l.length)).map (fun i => padSlot targets (l.length + i))

/-- Slots that carry a target mark: the entry, joins, targets of words, and returns of calls. -/
def FLay.targets (y : FLay) (entry : FLabel) (edges : List FLabel) : List Nat :=
  y.at_ entry :: (y.rets ++ y.out.filterMap (fun x => x.2.2.goes.map y.at_) ++
    (edges.filter (fun l => decide (2 ≤ (edges.filter (· == l)).length))).map y.at_)

/-- Words of 30 slots. -/
def linesOfSlots {α : Type} (n : Nat) : Nat → List α → List (List α)
  | 0, _ => []
  | f + 1, l => if l.isEmpty then [] else l.take n :: linesOfSlots n f (l.drop n)

/-- A scalar residual line as a number (Table FMT-8). -/
def scalarLine (l : List FSlot) : Nat :=
  l.zipIdx.foldl (fun n x =>
    n + (if x.1.start then 2 ^ x.2 else 0) + (if x.1.target then 2 ^ (32 + x.2) else 0) + x.1.word * 2 ^ (64 + 32 * x.2)) (2 ^ 63)

/-- Its map record (Table FIRN-3), from the last slot down: the entries, and that of the next retained word. -/
def scalarMap (l : List FSlot) : Nat :=
  (l.zipIdx.foldr (fun x (acc : Nat × Nat) =>
    let e := match x.1.mark with
      | .kept a i => 2 ^ 63 + i % 256 * 2 ^ 54 + a % 2 ^ 54
      | .made => if acc.2 = 0 then 0 else acc.2 + 2 ^ 62
      | .none => 0
    (acc.1 + e * 2 ^ (64 * x.2), match x.1.mark with
      | .kept _ _ => e
      | _ => acc.2)) (0, 0)).1

/-! Lane code (R242) -/

/-- A lane word at an address: its bits, those of its extension slot, what it decodes to. -/
def State.firnLaneWord (s : State) (c pc : Nat) : Option (Nat × Nat × Instr) :=
  let k := pc % 16
  let line := codeLine true pc
  if 10 ≤ k || 2 ^ 56 ≤ line then none else
  match s.firnLine c line with
  | none => none
  | some (xl, hd) =>
    if hd.testBit 63 || !headerOk true hd || !startMark hd k then none else
    (s.decodeAt c true xl hd k).map (fun i =>
      let w := s.codeBytes c xl (8 + k * 12) 12
      (w, if isDoubleSlot w then s.codeBytes c xl (8 + (k + 1) * 12) 12 else 0, i))

/-- Where lane code goes on from a word. -/
def laneNext (pc : Nat) (w : Nat) (i : Instr) : List Nat :=
  let p : W64 := BitVec.ofNat 64 pc
  let after := (nextLPc p (if isDoubleSlot w then 2 else 1)).toNat
  match i with
  | .lbr _ td ts jd js => [after, (laneTarget p td ts.val).toNat, (laneTarget p jd js.val).toNat]
  | .lcall _ (.near d) => [after, (laneTarget p d 0).toNat]
  | .lend _ | .lret _ => []
  | _ => [after]

/-- Addresses that a walk reaches. -/
def reach (next : Nat → List Nat) : Nat → List Nat → List Nat → List Nat
  | 0, _, seen => seen
  | _, [], seen => seen
  | n + 1, x :: todo, seen => if seen.contains x then reach next n todo seen else reach next n (next x ++ todo) (x :: seen)

/-- Lane code addresses that a block reaches. -/
def State.laneReach (s : State) (c pc : Nat) : List Nat :=
  reach (fun x => match s.firnLaneWord c x with
    | some (w, _, i) => laneNext x w i
    | none => []) (3 * firnSlots) [pc] []

/-- A lane code address cannot be fetched, or its word takes a decode cause for the role (R244). -/
def State.laneBad (s : State) (c : Nat) (role : Role) (pc : Nat) : Bool :=
  match s.firnLaneWord c pc with
  | none => true
  | some (_, _, i) => (i.roleCause false role).isSome

/-- Fields of the selectors of a lane word: lowest bit of A, B, C and E; of `LBR` and `LCALL` only A and B. -/
def selFields (w : Nat) : List Nat := if laneOp w = 0x50 ∨ laneOp w = 0x54 then [49, 40] else [49, 40, 31, 22]

/-- k registers that a word names. -/
def kNames (w : Nat) : List Nat :=
  (selFields w).filterMap (fun lo => let n := field w lo 9; if 0x100 ≤ n ∧ n < 0x110 then some (n - 0x100) else none)

/-- A selector that reads as a value without a register (R73, R96): inline, or imm16 with its field. -/
def patchSel (t : OTy) (v : W64) : List (Nat × Option Nat) :=
  let read (x : Sel) (imm : W16) : Nat :=
    LaneView.src { v := [], p := [], k := [(0, v)], remap := [], exm := 0, fmt := 0 }
      { bt := .dyn, ga := .always, gb := .always, ch := 0, la := 0, sc := 0, imm := imm, ext := 0 } t x 0
  let want := read (.k 0) 0
  let inl := (laneList.filter (fun i => read (.inl (fin i 32)) 0 == want)).head?
  let h : W16 := BitVec.ofNat 16 (match t with
    | .f32 => want / 2 ^ 16
    | _ => want)
  match inl with
  | some i => [(0x120 + i, none)]
  | none => if read .imm16 h = want then [(0x1FF, some h.toNat)] else []

/-- Patch the k selectors of a word from static values (R242): each place in turn; what no longer decodes is left. -/
def patchWord (w ext : Nat) (i : Instr) (val : Nat → Option W64) : Nat :=
  ((selFields w).zip i.selTypes).foldl (fun w x =>
    match x.2, (let n := field w x.1 9; if 0x100 ≤ n ∧ n < 0x110 then val (n - 0x100) else none) with
    | some t, some v =>
      (match patchSel t v with
       | [] => w
       | (sel, imm) :: _ =>
         let used := (selFields w).any (fun lo => field w lo 9 == 0x1FF)
         let w' := w - field w x.1 9 * 2 ^ x.1 + sel * 2 ^ x.1
         let w' := match imm with
           | some h => w' - field w' 0 16 + h
           | none => w'
         let ok := match imm with
           | some h => !ownImmOp (laneOp w) && (!used || field w 0 16 == h)
           | none => true
         if ok && (decodeLane w' ext).toOption.isSome then w' else w)
    | _, _ => w) w

/-- Scalar words that a walk of the original code goes on to; calls are followed where `calls` says so. -/
def scalarNext (calls : Bool) (f : FWord) (pc : Nat) : List Nat :=
  let near (o : SOff) : Nat := (nearTarget (BitVec.ofNat 64 pc) o).toNat
  match f.i with
  | .sbr _ _ _ o | .sloop _ _ o => [f.after pc, near o]
  | .sjmp _ o => [near o]
  | .sjmpFar _ imm => [imm.toNat]
  | .scall _ _ o => if calls then [f.after pc, near o] else [f.after pc]
  | .scallFar _ _ imm => if calls then [f.after pc, imm.toNat] else [f.after pc]
  | .sret _ _ | .exit _ => []
  | _ => [f.after pc]

/-- Words of original code that a walk reaches. -/
def scalarReach (word : Nat → Option FWord) (calls : Bool) (from_ : List Nat) : List (Nat × FWord) :=
  (reach (fun x => match word x with
    | some f => scalarNext calls f x
    | none => []) (3 * firnSlots) from_ []).filterMap (fun x => (word x).map (fun f => (x, f)))

/-- A role's copied lane lines: the original lines, and the words that are patched, by address. -/
structure FLane where
  lines : List Nat
  patches : List (Nat × Nat)
  deriving DecidableEq, Repr

/-- The lane part of a role (R242); none rejects the key: an asserted word whose k value is not known (R79), or, in the copy, a
word with a decode cause or a line that cannot be fetched (R244). The copy is made where every `LRUN` has a known target within
it, and no original code that the residual goes on to runs lane code. -/
def State.laneCopy (s : State) (c base : Nat) (role : Role) (word : Nat → Option FWord) (r : FRound) : Option FLane :=
  let known := r.lruns.filterMap (fun x => x.1.map (fun o => ((BitVec.ofNat 64 base + o).toNat, x.2)))
  let blocks := known.map (fun x => (s.laneReach c x.1, x.2))
  let words := (blocks.flatMap (·.1)).eraseDups
  /- A k register has one static value in every snapshot whose block reaches a word. -/
  let val (pc k : Nat) : Option W64 :=
    match (blocks.filter (fun b => b.1.contains pc)).map (fun b => FEnv.static b.2 (72 + k)) with
    | some v :: rest => if rest.all (· == some v) then some v else none
    | _ => none
  let asserted := words.any (fun pc => match s.firnLaneWord c pc with
    | some (w, _, _) => field w 86 2 == 2 && (kNames w).any (fun k => (val pc k).isNone)
    | none => false)
  if asserted then none else
  let first := base / 16
  let top := words.foldl (fun m pc => max m (pc / 16)) first
  let away := r.lost || (scalarReach word true r.escapes).any (fun x => match x.2.i with
    | .lrun _ _ _ => true
    | _ => false)
  if known.length < r.lruns.length || away || words.isEmpty || words.any (fun pc => decide (pc / 16 < first)) then some ⟨[], []⟩
  else if 8192 < top + 1 - first || words.any (s.laneBad c role) then none
  else
    let lines := (List.range (top + 1 - first)).map (· + first)
    if lines.any (fun l => match s.firnLine c (l * 128) with
      | some (_, hd) => hd.testBit 63 || !headerOk true hd
      | none => true) then none else
    some ⟨lines, words.filterMap (fun pc => match s.firnLaneWord c pc with
      | some (w, ext, i) =>
        if field w 86 2 = 0 then none else
        let w' := patchWord w ext i (val pc)
        if w' = w then none else some (pc, w')
      | none => none)⟩

/-- A copied lane line (Table FMT-9): RES and MAP set, its words patched. -/
def State.laneLine (s : State) (c line rec : Nat) (patches : List (Nat × Nat)) : Nat :=
  match s.firnLine c (line * 128) with
  | none => 0
  | some (xl, hd) =>
    (List.range 10).foldl (fun n k =>
      let w := match patches.find? (fun p => p.1 == line * 16 + k) with
        | some p => p.2
        | none => s.codeBytes c xl (8 + 12 * k) 12
      n + w * 2 ^ (64 + 96 * k)) (hd % 2 ^ 32 + rec % 2 ^ 16 * 2 ^ 32 + 2 ^ 63)

/-- Its map record. -/
def copyMap (line : Nat) : Nat :=
  (List.range 10).foldl (fun n k => n + (2 ^ 63 + (line * 16 + k) % 2 ^ 54) * 2 ^ (64 * k)) 0

/-! A build (R243, R244) -/

/-- A role as built: its number, entry, words, layout, target marks and lane copy, and whether a path of it goes on to a
target-marked original slot after its cut point. -/
structure FRole where
  role : Nat
  entry : FLabel
  items : List FItem
  lay : FLay
  targets : List Nat
  lane : FLane
  left : Bool

def FRole.lines (r : FRole) : Nat := (r.lay.slots + 29) / 30

/-- What a build goes by. -/
structure FKern where
  c : Nat
  rec_ : KRec
  key : List Nat

/-- The bytes of static arguments, by offset in the block (R233). -/
def FKern.argByte (k : FKern) (off : Nat) : Option Nat :=
  let bytes := (k.key.drop 4).foldr (fun x n => x + 2 ^ 64 * n) 0
  (k.rec_.args.foldl (fun (acc : Nat × Option Nat) a =>
    if a.2.2 = 0 then acc else
    let hit := a.2.2 = 1 ∧ a.1 ≤ off ∧ off < a.1 + a.2.1
    (acc.1 + a.2.1, if hit then some (byteField bytes (acc.1 + (off - a.1)) 1) else acc.2)) (0, none)).2

/-- The special registers of R236 for a role. -/
def FKern.fixed (k : FKern) (role : Nat) (e : RoleEntry) (idx : Nat) : Option Known :=
  match idx with
  | 0x06 => some (.static (BitVec.ofNat 64 role))
  | 0x07 => some (.static (BitVec.ofNat 64 e.groups))
  | 0x12 => some (.arg 0)
  | 0x13 => some (.static (BitVec.ofNat 64 k.rec_.scratch))
  | _ => none

def roleAt (n : Nat) : Role := match n with
  | 0 => .copy
  | 1 => .matrix
  | 2 => .vector
  | _ => .control

/-- Loops that may be unrolled: head, `SLOOP` and trip register (R241). -/
def loopHeads (l : List (Nat × FWord)) : List (Nat × Nat × Nat) :=
  l.filterMap (fun x => match x.2.i with
    | .sloop _ a o => if x.2.bt = 0 then none else some ((nearTarget (BitVec.ofNat 64 x.1) o).toNat, x.1, a.val)
    | _ => none)

/-- Present roles of a kernel. -/
def FKern.present (k : FKern) : List (Nat × RoleEntry) :=
  (k.rec_.roles.zipIdx.filter (fun x => x.1.groups != 0)).map (fun x => (x.2, x.1))

/-- Build one role after those before it. -/
def State.buildRole (s : State) (k : FKern) (rolled : List Nat) (cut : Option Nat) (x : Nat × RoleEntry) (kept used : Nat)
    (lastLoop : Option Nat) :
    Except FEnd (FRole × FRound) :=
  let word := s.firnWord k.c (roleAt x.1)
  let pc := x.2.entry.toNat
  let env : FEnv := FEnv.set [] 88 ⟨.static (BitVec.ofNat 64 k.rec_.fmt), false⟩
  let p : FPar := { word := word, fixed := k.fixed x.1 x.2, argByte := k.argByte, unroll := k.rec_.unroll, rolled := rolled,
                    heads := loopHeads (scalarReach word false [pc]), states := [], cut := cut }
  let entry := p.label pc [] env none
  if p.asserted pc env none then .error .reject else
  match evalRole p entry kept used lastLoop 65536 [(entry, env)] with
  | .error e => .error e
  | .ok r =>
    match s.laneCopy k.c x.2.base.toNat (roleAt x.1) word r with
    | none => .error .reject
    | some lane =>
      let els := chain r.blocks (2 * r.blocks.length + 2) (entry :: r.blocks.map (·.label)) []
      let lay := layRole els els.length []
      .ok ({ role := x.1, entry := entry, items := r.blocks.flatMap (·.items), lay := lay,
             targets := lay.targets entry r.edges, lane := lane, left := r.left }, r)

/-- Build every role. -/
def State.buildRoles (s : State) (k : FKern) (rolled : List Nat) (cut : Option Nat) :
    List (Nat × RoleEntry) → Nat → Nat → Option Nat → Except FEnd (List FRole × Nat)
  | [], kept, _, _ => .ok ([], kept)
  | x :: rest, kept, used, lastLoop =>
    match s.buildRole k rolled cut x kept used lastLoop with
    | .error e => .error e
    | .ok (r, q) =>
      match s.buildRoles k rolled cut rest q.kept q.used q.lastLoop with
      | .error e => .error e
      | .ok (rs, n) => .ok (r :: rs, n)

/-- Lines that a residual may have (R243). -/
def State.firnLimit (s : State) (k : FKern) (rs : List FRole) : Nat :=
  let scalar := (k.present.flatMap (fun x => (scalarReach (s.firnWord k.c (roleAt x.1)) false [x.2.entry.toNat]).map
    (fun y => y.1 / 32))).eraseDups
  let lane := (rs.flatMap (·.lane.lines)).eraseDups
  min (k.rec_.grow * (scalar.length + lane.length)) 8192

def firnLines (rs : List FRole) : Nat := (rs.map (fun r => r.lines + r.lane.lines.length)).sum

/-- The loop that is not to be unrolled next: the outermost one at the word with which the build passes its limit, or the
last one before it. -/
def passedLoop (budget : Nat) (items : List FItem) : Option Nat :=
  (items.foldl (fun (acc : Nat × Option Nat × Bool) x =>
    if acc.2.2 then acc else
    let n := acc.1 + (if x.imm.isSome || x.far then 3 else 1)
    let l := match x.loop with
      | some l => some l
      | none => acc.2.1
    (n, l, decide (budget < n) && l.isSome)) (0, none, false)).2.1

/-- The whole residual: loops are given up one by one until it fits, or none is left that is unrolled. -/
def State.buildWhole (s : State) (k : FKern) : Nat → List Nat → Except FEnd (List FRole × List Nat × Nat)
  | 0, rolled => .ok ([], rolled, firnSlots)
  | n + 1, rolled =>
    match s.buildRoles k rolled none k.present 0 0 none with
    | .error .reject => .error .reject
    | .error (.past (some l)) => s.buildWhole k n (l :: rolled)
    | .error (.past none) => .ok ([], rolled, firnSlots)
    | .ok (rs, kept) =>
      let limit := s.firnLimit k rs
      if firnLines rs ≤ limit then .ok (rs, rolled, kept) else
      match passedLoop (30 * (limit - (rs.map (fun r => r.lane.lines.length)).sum)) (rs.flatMap (·.items)) with
      | some l => s.buildWhole k n (l :: rolled)
      | none => .ok ([], rolled, kept)

/-- The partial residual with its cut point after n retained words: none where it does not fit; else the residual, or none where
no target-marked original slot is reached and the key is rejected. -/
def State.buildCut (s : State) (k : FKern) (rolled : List Nat) (n : Nat) : Option (Option (List FRole)) :=
  match s.buildRoles k rolled (some n) k.present 0 0 none with
  | .ok (rs, _) => if firnLines rs ≤ s.firnLimit k rs then some (if rs.any (·.left) then some rs else none) else none
  | .error .reject => some none
  | .error (.past _) => none

/-- A partial residual: the cut point moves back one retained word at a time until it fits. -/
def State.buildPartial (s : State) (k : FKern) (rolled : List Nat) : Nat → Option (List FRole)
  | 0 => (s.buildCut k rolled 0).join
  | n + 1 =>
    match s.buildCut k rolled (n + 1) with
    | some rs => rs
    | none => s.buildPartial k rolled n

/-- The residual of a key, or none where the key is rejected. -/
def State.buildKey (s : State) (k : FKern) : Option (List FRole) :=
  match s.buildWhole k 4096 [] with
  | .error _ => none
  | .ok (rs, rolled, kept) => if rs.isEmpty then s.buildPartial k rolled kept else some rs

/-! Writing a residual (R244, R245, R247) -/

/-- Lines of a residual from an address on: scalar lines, copied lane lines, and their map records. -/
def State.firnImage (s : State) (c base : Nat) (rs : List FRole) : List Nat × List Nat :=
  let scal := rs.foldl (fun (acc : List (List FSlot)) r =>
    let l := r.lay.slotList (base / 128 + acc.length) r.targets
    acc ++ linesOfSlots 30 (l.length / 30 + 1) l) []
  let lane := (rs.flatMap (fun r => r.lane.lines.map (fun l => (l, r.lane.patches)))).zipIdx
  (scal.map scalarLine ++ lane.map (fun x => s.laneLine c x.1.1 (scal.length + x.2) x.1.2),
   scal.map scalarMap ++ lane.map (fun x => copyMap x.1.1))

/-- Role entries of a residual from an address on. -/
def firnRoles (base : Nat) (rs : List FRole) (roles : List RoleEntry) : List RoleEntry :=
  let scal := (rs.map (·.lines)).sum
  (rs.foldl (fun (acc : List RoleEntry × Nat × Nat) r =>
    let at_ := r.lay.at_ r.entry
    let entry := (base / 128 + acc.2.1 + at_ / 30) * 32 + at_ % 30
    let lane := (base / 128 + scal + acc.2.2) * 16
    (acc.1.zipIdx.map (fun x => if x.2 = r.role then
        { x.1 with entry := BitVec.ofNat 64 entry,
                   base := if r.lane.lines.isEmpty then x.1.base else BitVec.ofNat 64 (lane + x.1.base.toNat % 16) }
      else x.1), acc.2.1 + r.lines, acc.2.2 + r.lane.lines.length)) (roles, 0, 0)).1

/-- Write lines of n bytes each from an address on, none where one cannot be written. Lines that another context owned last are
zeroed before (R172). -/
def State.firnWrite (c n : Nat) : List Nat → Nat → State → Option State
  | [], _, s => some s
  | x :: rest, va, s =>
    match s.walk c va with
    | none => none
    | some t =>
      let xl := t.at_ va
      if xl.host || !memExists (xl.pa + n - 1) then none
      else
        let s := (s.takeOver (some c) xl.pa n (some va)).putRange xl.pa n 0 (ssetLE ([] : Store 8) 0 n x)
        State.firnWrite c n rest (va + n) { s with code := s.code.filter (fun k => k.1.2.1 || !lineMeets k.1.2.2 xl.pa n) }

/-- An entry leaves BUILDING. -/
def State.setFirn (s : State) (e : FirnEntry) : State :=
  ({ s with firn := s.firn.map (fun (x : FirnEntry) => if x.id = e.id then e else x), builds := s.builds.filter (· != e.id) }).releaseEntry e.id

/-- A key is rejected: its entry is REJECTED, and a launch of the key that has missed reports it (R244). -/
def State.rejectKey (s : State) (e : FirnEntry) (k : Option KRec) : State :=
  let asked (n : Nat) (gr : Grid) : Bool := gr.ctx == e.ctx && gr.missed && !gr.complete && gr.krec == e.krec && (match k with
    | some r => keyOf r gr.x gr.y gr.z (sgetLE s.mem (argPlace n) gr.argBytes) == e.key
    | none => false)
  ({ s with grids := s.grids.map (fun (p : Nat × Grid) => if asked p.1 p.2 then (p.1, { p.2 with rejected := true }) else p) }).setFirn
    { e with state := .rejected }

/-- `FIRN_BUILD`: the build that was queued first (R234). -/
def execFirnBuild (s : State) : Host.Outcome State Fault Refusal :=
  .next (match s.builds with
    | [] => s
    | id :: _ =>
      match s.firn.find? (fun e => e.id == id) with
      | none => { s with builds := s.builds.filter (· != id) }
      | some e =>
        let r := s.readRecord e.ctx e.krec.toNat
        match r.1 with
        | .error _ => r.2.rejectKey e none
        | .ok k =>
          match r.2.buildKey ⟨e.ctx, k, e.key⟩ with
          | none => r.2.rejectKey e (some k)
          | some rs =>
            let n := firnLines rs
            let p := State.firnRoom e.ctx (384 * n) r.2.firn.length r.2
            match p.1 with
            | none => p.2.rejectKey e (some k)
            | some base =>
              let img := p.2.firnImage e.ctx base rs
              match (State.firnWrite e.ctx 128 img.1 base p.2).bind (State.firnWrite e.ctx 256 img.2 (base + 128 * n)) with
              | none => p.2.rejectKey e (some k)
              | some s => s.setFirn { e with state := .valid, base := base, lines := n, mapAt := base + 128 * n,
                                             roles := firnRoles base rs e.roles })

end Sys2Proof.Machine
end

