-- ==== Sys2Proof/Machine/Handler.lean ====
section
/-! DEFINITION. The handler-only words (R276, R387 to R390, R366): reading and writing the state of a stopped group,
resuming, killing and parking. -/

namespace Sys2Proof.Machine

/-- A target selector (R276). -/
structure Target where
  gid : Nat
  cls : Nat
  idx : Nat
  lane : Nat
  team : Bool
  deriving DecidableEq, Repr

/-- The fields of a selector; none where a reserved bit is set. TEAM is a field of `HKILL` alone. -/
def targetOf (kill : Bool) (x : W64) : Option Target :=
  let n := x.toNat
  if bitsOf n 7 5 != 0 || bitsOf n 30 29 != 0 || bitsOf n 63 32 != 0 || (!kill && n.testBit 31) then none
  else some ⟨bitsOf n 4 0, bitsOf n 11 8, bitsOf n 23 12, bitsOf n 28 24, n.testBit 31⟩

/-- STATE of a group (Tables EXE-5 and TRAP-5): WAITING where both streams are held by a stall reason of code 2 or above: by
their own waits, the lane stream also by an empty queue or by the passes of a fabric word, and both by a park of the team
(R59, R279, R289, R295). -/
def State.stateCode (s : State) (g : GRef) (gr : Group) : Nat :=
  match gr.status with
  | .trapped => 2
  | .exited => 3
  | .active =>
    let both := gr.stopping.isSome || (match s.team (s.teamRefOf g) with
      | some t => t.parkWanted.isSome
      | none => false)
    if both || (gr.waitS.isSome && (gr.waitL.isSome || (gr.run.isNone && gr.laneQ.isEmpty) || s.laneHeld gr)) then 1 else 0

/-- A predicate register as a mask by virtual lane (R388). -/
def Group.virtMask (gr : Group) (r : Nat) : W32 :=
  laneMask (laneList.filter (fun l => (sget gr.p r).getLsbD (gr.remap.getD l l)))

/-- A predicate register from a mask by virtual lane. -/
def Group.setVirtMask (gr : Group) (r : Nat) (m : W32) : Group :=
  laneList.foldl (fun gr l => gr.putP r (gr.remap.getD l l) (m.getLsbD l)) gr

/-- Is a selector of Table TRAP-5 one that names an item of a group. -/
def Target.names (t : Target) (allot : Nat) : Bool :=
  match t.cls with
  | 0 => decide (t.idx < 64)
  | 1 => decide (t.idx < 8)
  | 2 => decide (t.idx < 16)
  | 3 | 4 => decide (t.idx < 8)
  | 5 => decide (t.idx < allot)
  | 6 => decide (t.idx < 7)
  | 7 => decide (t.idx < 14)
  | 8 => decide (t.idx < 3)
  | _ => false

/-- The value of an item (Table TRAP-5), zero-extended; `state` is the group's STATE. -/
def readItem (tm : Team) (gr : Group) (t : Target) (state : Nat) : W64 :=
  let tr := gr.trap.getD Trap.hold
  match t.cls with
  | 0 => if t.idx = 0 then 0 else sget gr.s t.idx
  | 1 => (sget gr.c t.idx).setWidth 64
  | 2 => sget gr.k t.idx
  | 3 => sget gr.yS t.idx
  | 4 => sget gr.yL t.idx
  | 5 => (sget gr.v (vkey t.idx (gr.remap.getD t.lane t.lane))).setWidth 64
  | 6 => (gr.virtMask t.idx).setWidth 64
  | 7 =>
    match t.idx with
    | 0 => gr.spc
    | 1 => gr.lpc
    | 2 => gr.exmS.setWidth 64
    | 3 => gr.exmL.setWidth 64
    | 4 => gr.fmtS.setWidth 64
    | 5 => gr.fmtL.setWidth 64
    | 6 => gr.gfS.setWidth 64
    | 7 => gr.gfL.setWidth 64
    | 8 => BitVec.ofNat 64 state
    | 9 => tr.tcause
    | 10 => tr.addr
    | 11 => tr.lanes.setWidth 64
    | 12 => tr.orig
    | _ => BitVec.ofNat 64 gr.mxDone
  | _ => BitVec.ofNat 64 (if t.idx = 0 then tm.doneCe else if t.idx = 1 then tm.doneKv else tm.doneCo)

/-- An item written: the group after it, or none where the item refuses the value (Table TRAP-5). -/
def writeItem (gr : Group) (t : Target) (x : W64) : Option Group :=
  let lo : W32 := x.setWidth 32
  match t.cls with
  | 0 => some (if t.idx = 0 then gr else { gr with s := sset gr.s t.idx x })
  | 1 => some { gr with c := sset gr.c t.idx (x.setWidth 1) }
  | 2 => some { gr with k := sset gr.k t.idx x }
  | 3 => some { gr with yS := sset gr.yS t.idx x }
  | 4 => some { gr with yL := sset gr.yL t.idx x }
  | 5 => some (gr.putV t.idx (gr.remap.getD t.lane t.lane) lo)
  | 6 => some (gr.setVirtMask t.idx lo)
  | 7 =>
    match t.idx with
    | 0 => some { gr with spc := x, sMarks := false }
    | 1 => some { gr with lpc := x, lMarks := false, tagDone := 0, tagLeft := 0 }
    | 2 => some { gr with exmS := lo }
    | 3 => some { gr with exmL := lo }
    | 4 => if fmtOk lo then some { gr with fmtS := lo } else none
    | 5 => if fmtOk lo then some { gr with fmtL := lo } else none
    | 6 => some { gr with gfS := lo &&& 31#32 }
    | 7 => some { gr with gfL := lo &&& 31#32 }
    | _ => none
  | _ => none

/-- A handler word on a target group: handler code only, a well-formed selector, a GID of the team (R276, R387). -/
def onTarget (s : State) (kill : Bool) (a : SReg) (k : GRef → Group → TRef → Target → GRef → Group → State) :
    Host.Outcome State Fault Refusal :=
  onScalar s (fun g gr =>
    if !g.isHandler then s.trapS g .illegal 0 0 else
    match targetOf kill (gr.sreg a) with
    | none => s.trapS g .protection 0 0
    | some t =>
      let tr := s.teamRefOf g
      match s.group (tr.group t.gid) with
      | none => s.trapS g .protection 0 0
      | some tg => k g gr tr t (tr.group t.gid) tg)

/-- `HREAD` (R388): the target is TRAPPED, but for the STATE item. -/
def execHread (a b : SReg) (s : State) : Host.Outcome State Fault Refusal :=
  onTarget s false a (fun g gr tr t tgr tg =>
    let stateItem := t.cls == 7 && t.idx == 8
    match s.team tr with
    | none => s.trapS g .protection 0 0
    | some tm =>
      if !t.names tg.allot || !(tg.status == .trapped || stateItem) then s.trapS g .protection 0 0
      else s.scalarDone g (gr.setS b (readItem tm tg t (s.stateCode tgr tg))) 1)

/-- `HWRITE` (R388): STATE takes the value 2, which holds a group that runs. -/
def execHwrite (a b : SReg) (s : State) : Host.Outcome State Fault Refusal :=
  onTarget s false a (fun g gr _ t tgr tg =>
    let x := gr.sreg b
    if t.cls == 7 && t.idx == 8 then
      (if x != 2 then s.trapS g .illegal 0 0
       else if tg.status == .exited then s.trapS g .protection 0 0
       else if tg.status == .trapped then s.scalarDone g gr 1
       else (s.takeTrap tgr Trap.hold).scalarNext g)
    else if !t.names tg.allot || tg.status != .trapped then s.trapS g .protection 0 0
    else
      match writeItem tg t x with
      | none => s.trapS g .illegal 0 0
      | some tg' => (s.setGroup tgr tg').scalarDone g gr 1)

/-- `HRESUME` (R389). -/
def execHresume (a : SReg) (s : State) : Host.Outcome State Fault Refusal :=
  onTarget s false a (fun g gr _ _ tgr tg =>
    if tg.status != .trapped then s.trapS g .protection 0 0
    else ((s.resumeGroup tgr).dropTrapEntries tgr).scalarDone g gr 1)

/-- An activation ends once every word that its group has issued has completed (R82, R275). -/
def State.whenDone (s : State) (g : GRef) (k : State → State) : State :=
  let s := s.drain g
  match s.group g with
  | none => k s
  | some gr => if gr.unitCount != 0 then s.holdS g gr .blockEnd else k (s.flushGroup g)

/-- The cause that an activation presents. -/
def State.presentedCause (s : State) (core : Nat) : Cause :=
  match (s.core core).act with
  | some a => (a.trap.getD Trap.hold).cause
  | none => .hold

/-- `HKILL` (R277, R389): a group, or with TEAM the whole team as a FAULTED grid. -/
def execHkill (a : SReg) (s : State) : Host.Outcome State Fault Refusal :=
  onTarget s true a (fun g _ tr t tgr tg =>
    if t.team then s.whenDone g (fun s =>
      let s := s.scalarNext g
      (s.faultTeam tr (s.presentedCause g.core)).endActivation g.core)
    else
    let s := s.scalarNext g
    if tg.status == .exited then s
    else
      match tg.caused with
      | some cause => s.faultTeam tr cause
      | none => s.killGroup tgr)

/-- A stopped group is set READY at its stopping points before its team is parked (R390): an engine trap becomes its
pending one again, but not that of a stopped gather, which continues at resumption (R475). -/
def Group.ready (gr : Group) : Group :=
  if gr.status != .trapped then gr else
  match gr.trap with
  | some t => { gr with status := .active, trap := none, eng := if t.eng && !t.ofGather then t :: gr.eng else gr.eng }
  | none => { gr with status := .active }

/-- `HPARK` (R390): every stopped group becomes READY, and the team is to be parked with REASON 4. -/
def execHpark (s : State) : Host.Outcome State Fault Refusal :=
  onScalar s (fun g _ =>
    if !g.isHandler then s.trapS g .illegal 0 0 else
    match (s.core g.core).act with
    | none => s
    | some a =>
      s.whenDone g (fun s =>
      let tr : TRef := ⟨g.core, a.slot⟩
      let s := s.scalarNext g
      let s := (s.teamGroups tr).foldl (fun s p => (s.onGroup p.1 Group.ready).dropTrapEntries p.1) s
      (s.endActivation g.core).wantPark tr 4 a.gid))

/-- `ERET` (R366): a presented group that is trapped with a cause goes on, the fault presented for an exited one is done with; the
activation ends. -/
def execEret (s : State) : Host.Outcome State Fault Refusal :=
  onScalar s (fun g _ =>
    if !g.isHandler then s.trapS g .illegal 0 0 else
    match (s.core g.core).act with
    | none => s
    | some a =>
      let pg : GRef := ⟨g.core, a.slot, a.gid⟩
      s.whenDone g (fun s =>
      let s := (s.scalarNext g).endActivation g.core
      match s.group pg with
        | some gr => if gr.status == .exited then s.clearExited pg else if gr.caused.isSome then s.resumeGroup pg else s
        | none => s))

end Sys2Proof.Machine
end

