-- ==== Sys2Proof/Machine/Matrix.lean ====
section
/-! DEFINITION. Matrix words (R196 to R211, R416 to R422) and the steps of the staging buffer and the near-cache adders. -/

namespace Sys2Proof.Machine

/-- All 32 lanes. -/
def allLanes : W32 := 0xFFFFFFFF

/-- Steps 3 to 6 of Table MX-1 for a tile address, then REMOTE for a frame that this package has still to rebuild (R304): the
translated tile, or the cause (R197). -/
def State.checkTile (s : State) (c va : Nat) (rd wr : Bool) (core : Option Nat := none) : Except Meet Xl × State :=
  if va % 8192 != 0 then (.error ⟨.accumulator, 0⟩, s) else
  let t := s.translate c va core
  match t.1 with
  | none => (.error ⟨.translation, 0⟩, t.2)
  | some xl =>
    if (rd && !xl.r) || (wr && !xl.w) || (wr && xl.mor && (t.2.setEntry xl.pa).isNone) then (.error ⟨.protection, 0⟩, t.2)
    else if xl.host then (.error ⟨.accumulator, 0⟩, t.2)
    else if t.2.unbuilt xl.pa then (.error ⟨.remote, s.ctl.rank⟩, t.2)
    else (.ok xl, t.2)

/-- Steps 7 and 8: the scratch operand of `MMA.S`. -/
def State.checkScr (s : State) (g : GRef) (off : Nat) : Except Meet Unit :=
  match s.checkScratch g.team off 1024 32 with
  | .error m => .error m
  | .ok _ => .ok ()

/-- The eight registers of a fragment in a lane, as one number (R199). -/
def LaneView.frag (w : LaneView) (r l : Nat) : Nat :=
  (List.range 8).foldl (fun n i => n + w.reg (r + i) l * 2 ^ (32 * i)) 0

/-- The command that an `MMA` forms at its issue. -/
def mmaCmd (w : LaneView) (h : LaneHdr) (gr : Group) (va : Nat) (xl : Xl) (a : VReg) (b e : Sel) (scr : Option Nat)
    (taken : Store 32) : MxCmd :=
  { num := gr.mxIssued + 1, kind := .mma, va := va, pa := xl.pa, mor := xl.mor,
    rowsA := laneList.map (w.frag a.val),
    colsB := (match scr, b with
      | none, .v r => laneList.map (w.frag r.val)
      | _, _ => []),
    scales := if fmtScale w.fmt = 0 then [] else laneList.map (fun l => w.src h .nat e l),
    fmt := w.fmt, scr := scr, captured := taken, begun := scr.isNone, toZero := [], tiles := [] }

/-- An MX command takes the next number of its group (R182). -/
def Group.issueMx (gr : Group) (c : MxCmd) : Group := { gr with mx := gr.mx ++ [c], mxIssued := c.num }

/-- An `MMA` that has passed its checks and holds a grant. -/
def State.issueMma (s : State) (g : GRef) (gr : Group) (sels : List Sel) (c : MxCmd) : State :=
  let gr := { gr.issueMx c with
    gfL := gr.gfL ||| (if c.scr.isNone then c.contribs.2 else 0), lastMma := s.clock,
    unflushed := if gr.unflushed.contains (c.va, c.pa) then gr.unflushed else (c.va, c.pa) :: gr.unflushed }
  ((s.laneDone g gr (laneSlots sels)).count g.core (s.ctxOf g) 0x04 1).onCore g.core (fun k => { k with mxSeq := k.mxSeq + 1 })

/-- `MMA` and `MMA.S` (R416, R417). -/
def execMma (h : LaneHdr) (sc : Bool) (a : VReg) (b : Sel) (c : KReg) (e : Sel) (s : State) :
    Host.Outcome State Fault Refusal :=
  onLane s (fun g gr =>
    let v := s.view gr
    let w := v.1
    let s := v.2
    let va := (sget w.k c.val).toNat
    let off := w.src h .nat b 0
    let act := laneMask (w.active h)
    if !mxFmtOk w.fmt then s.trapL g .illegal 0 va allLanes
    else if act != allLanes then s.trapL g .convergence 1 va (~~~act)
    else
      let t := s.checkTile (s.ctxOf g) va true true (some g.core)
      match t.1 with
      | .error m => t.2.trapL g m.cause m.info va allLanes
      | .ok xl =>
        match (if sc then t.2.checkScr g off else .ok ()) with
        | .error m => t.2.trapL g m.cause m.info off allLanes
        | .ok _ =>
          let s := t.2
          if gr.grant.isNone then
            ({ s with powerAsks := if s.powerAsks.contains g then s.powerAsks else s.powerAsks ++ [g] }).holdL g gr (.power 0)
          else
            s.issueMma g gr [b, e]
              { mmaCmd w h gr va xl a b e (if sc then some off else none) (if sc then s.scrOperand g off else []) with
                seq := (s.core g.core).mxSeq })

/-- `MXZERO` (R208, R422). -/
def execMxzero (_h : LaneHdr) (k : KReg) (s : State) : Host.Outcome State Fault Refusal :=
  onLane s (fun g gr =>
    let w := s.view gr
    let va := (sget w.1.k k.val).toNat
    let t := w.2.checkTile (s.ctxOf g) va false true (some g.core)
    match t.1 with
    | .error m => t.2.trapL g m.cause m.info va allLanes
    | .ok xl =>
      let c : MxCmd := { num := gr.mxIssued + 1, kind := .zero, va := va, pa := xl.pa, mor := xl.mor, rowsA := [],
                         colsB := [], scales := [], fmt := 0, scr := none, captured := [], begun := false,
                         toZero := List.range 1024, tiles := [] }
      t.2.laneDone g (gr.issueMx c) 1)

/-- `MXFLUSH` and `MXFLUSH.ALL` (R207, R420). -/
def execMxflush (_h : LaneHdr) (tile : Option KReg) (s : State) : Host.Outcome State Fault Refusal :=
  onLane s (fun g gr =>
    let w := s.view gr
    let va := match tile with
      | some k => (sget w.1.k k.val).toNat
      | none => 0
    if va % 8192 != 0 then w.2.trapL g .accumulator 0 va allLanes
    else
      let cover (x : Nat × Nat) : Bool := tile.isNone || x.1 == va
      let c : MxCmd := { num := gr.mxIssued + 1, kind := .flush tile.isNone, va := va, pa := 0, mor := false, rowsA := [],
                         colsB := [], scales := [], fmt := 0, scr := none, captured := [], begun := false, toZero := [],
                         tiles := (gr.unflushed.filter cover).map (·.2) }
      w.2.laneDone g { gr.issueMx c with unflushed := gr.unflushed.filter (fun x => !cover x) } 1)

/-- A load unit performed at its home, keeping no copy (R209). -/
def State.homeLoad (s : State) (core pa n : Nat) : Nat × State :=
  let f := s.grantCopy core (s.core core).pts (lineOf pa)
  f.2.readCopy core f.1 pa n

/-- Element (row, l) of a tile as its reader sees it: H + P (R209). -/
def State.tileElem (s : State) (core ctx pa e : Nat) : W64 × State :=
  let p := s.stagedFor core ctx pa e
  let r := s.homeLoad core (pa + 8 * e) 8
  (BitVec.ofNat 64 r.1 + p, r.2)

/-- A tile element converted for its reader (R140). -/
def mxConvert (t : LType) (fmt : W32) (x : W64) : FRes :=
  convertVal t (fmtRm fmt) (fmtFtz fmt) (fmtSat fmt) (.fin (decide (x.toInt < 0)) x.toInt.natAbs (fmtE fmt))

/-- Read the elements of the active lanes in turn. -/
def readTile (core ctx pa : Nat) (row : Nat → Nat) : List Nat → State → List (Nat × W64) × State
  | [], s => ([], s)
  | l :: ls, s =>
    let r := s.tileElem core ctx pa (32 * row l + l)
    let rs := readTile core ctx pa row ls r.2
    ((l, r.1) :: rs.1, rs.2)

/-- `MXREAD` (R209, R421). -/
def execMxread (h : LaneHdr) (t : LType) (d : VReg) (k : KReg) (b : Sel) (s : State) :
    Host.Outcome State Fault Refusal :=
  onLane s (fun g gr =>
    let v := s.view (gr.interlockRegs [d.val] [])
    let w := v.1
    let va := (sget w.k k.val).toNat
    let c := s.ctxOf g
    let r := v.2.checkTile c va true false (some g.core)
    match r.1 with
    | .error m => r.2.trapL g m.cause m.info va allLanes
    | .ok xl =>
      let s := r.2
      let act := w.active h
      let row (l : Nat) := w.src h .nat b l % 32
      let bad := act.filter (fun l => s.poisoned (xl.pa + 8 * (32 * row l + l)) 8)
      if gr.mx.any (fun x => x.kind == .mma && x.pa == xl.pa) then s.holdL g gr .matrix
      else
        match bad with
        | l :: _ =>
          let a := xl.pa + 8 * (32 * row l + l)
          (s.recordError (memError a 1 6 (s.ctxTeam g))).trapL g .check (memBank a) (va + 8 * (32 * row l + l)) (laneMask bad)
        | [] =>
          let e := readTile g.core c xl.pa row act s
          let res := e.1.map (fun x => (x.1, mxConvert t w.fmt x.2))
          e.2.laneFinish g gr h [b]
            { regs := res.map (fun x => (d.val, x.1, x.2.bits)), preds := [],
              gf := res.foldl (fun m x => m ||| resGf x.2) 0 })

/-! Steps of the device -/

/-- `STAGING_COMBINE`: a step of the first MX command of a group (R205, R207, R208, R211). -/
def execStagingCombine (core slot gid n : Nat) (s : State) : Host.Outcome State Fault Refusal :=
  .next (s.mxStep ⟨core, slot, gid⟩ n)

/-- `STAGING_SEND`: the device sends one staging entry of a core (R205, R206). -/
def execStagingSend (core n : Nat) (s : State) : Host.Outcome State Fault Refusal :=
  .next (match (s.core core).staging[n]? with
    | none => s
    | some e => s.sendStaging core (fun x => x.ctx == e.ctx && x.pa == e.pa))

/-- Add one element of a sent tile, of those that are left; a locked page holds it (R171, R204). -/
def State.tileStep (s : State) (i e : Nat) : State :=
  match s.sends[i]? with
  | none => s
  | some t =>
    if s.locked t.pa then s else
    match t.cells with
    | [] => { s with sends := s.sends.eraseIdx i }
    | x0 :: xs =>
      let x := (x0 :: xs).getD (e % (x0 :: xs).length) x0
      let left := (x0 :: xs).filter (fun y => y.1 != x.1)
      let s := s.addElem t x
      { s with sends := if left.isEmpty then s.sends.eraseIdx i else s.sends.set i { t with cells := left } }

/-- `TILE_ADD` (R204). -/
def execTileAdd (i e : Nat) (s : State) : Host.Outcome State Fault Refusal := .next (s.tileStep i e)

end Sys2Proof.Machine
end

