-- ==== Sys2Proof/Machine/Checks.lean ====
section
/-! DEFINITION. The checks of Table FAB-5 (R305 to R310): what an error in each kind of block is recorded as, and what it
costs. -/

namespace Sys2Proof.Machine

/-! Retirement of a core (R17) -/

/-- A core leaves service: its teams are to be parked with REASON 3. -/
def State.retireCore (s : State) (core : Nat) : State :=
  ((s.coreTeams core).map (·.1)).foldl (fun s t => s.onTeam t (fun tm =>
      if tm.parkWanted.isSome then tm else { tm with parkWanted := some 3, parkGid := none }))
    (s.onCore core (fun c => { c with inService := false }))

/-! Residues (R305) -/

/-- 24 hours in clocks. -/
def dayClocks : Nat := 86400 * 1800000000

/-- A CONTAINED error of a core's datapaths: the third within 24 hours retires the core (R310). -/
def State.datapathError (s : State) (core : Nat) : State :=
  let times := s.clock :: ((s.core core).errTimes.filter (fun t => decide (s.clock < t + dayClocks)))
  let s := s.onCore core (fun c => { c with errTimes := times })
  if 3 ≤ times.length && (s.core core).inService then s.retireCore core else s

/-- A result that differs from the right one by a free number is checked modulo 3, and computed once more: no class where the
residue shows nothing, CORRECTED where the second result's matches, else CONTAINED. -/
def State.residueCheck (s : State) : Option Nat × State :=
  let first := s.draw
  if first.1 % 3 = 0 then (none, first.2) else
  let second := first.2.draw
  (some (if second.1 % 3 = 0 then 0 else 1), second.2)

/-! What an error costs (R307) -/

/-- A group that runs takes CHECK, in either stream, with the bank in INFO. -/
def State.checkTrap (s : State) (g : GRef) (gr : Group) (bank : Nat) : State :=
  if gr.status != .active then s else
  let d := s.pick 2
  if d.1 = 1 && gr.run.isSome then d.2.trapL g .check bank 0 0 else d.2.trapS g .check bank 0

/-- Poison the n lines from one on. -/
def State.poisonLines (s : State) (line n : Nat) : State :=
  { s with poison := (List.range n).foldl (fun p i => if p.contains (line + i) then p else (line + i) :: p) s.poison }

/-- The record of an error of a core, found while a group of it works: the quarter, the context and the team. -/
def State.coreError (s : State) (g : GRef) (gr : Group) (cls source synd : Nat) : ErrInfo :=
  { bank := g.core, cls := cls, source := source, unit := gr.quarter, addr := none,
    ctx := s.ctxTeam g, synd := some synd }

/-- An error of a core, recorded; a CONTAINED one is the group's (R305). -/
def State.groupError (s : State) (g : GRef) (gr : Group) (cls source : Nat) : State :=
  let d := s.draw
  let s := d.2.recordError (d.2.coreError g gr cls source d.1)
  if cls = 1 then s.checkTrap g gr g.core else s

/-- An error of a block that is no core's: a sub-unit and a syndrome that the spec leaves open (log entry 34). -/
def State.blockError (s : State) (bank cls source : Nat) (addr : Option Nat) : State :=
  let u := s.draw
  let y := u.2.draw
  y.2.recordError { bank := bank, cls := cls, source := source, unit := u.1 % 65536, addr := addr, ctx := none, synd := some y.1 }

/-- An uncorrectable error is FATAL in the Wellhead, the firn engine and the dispatcher, whose bank is taken to be the queue
interpreter complex's (R306; DESIGN CHOICE, log entry 34). -/
def worstClass (bank : Nat) : Nat := if bank = 637 || bank = 638 || bank = 640 then 2 else 1

/-- Banks of the blocks that keep tables in SRAM beside the cores, caches and memories: KPEs, parity engines, Ethernet ports and
the blocks from 637 on. -/
def tableBanks : List Nat := [578, 579, 580, 581] ++ (List.range 8).map (618 + ·) ++ (List.range 7).map (637 + ·)

/-! The rows of Table FAB-5 -/

/-- An error in the datapaths of the quarter, or in the matrix slice, that a group uses. -/
def State.datapathRow (s : State) (slice : Bool) : State :=
  let p := s.pickOf ((s.groups.filter (fun p => !slice || !p.2.mx.isEmpty)).map some) none
  match p.1 with
  | none => p.2
  | some (g, gr) =>
    let r := p.2.residueCheck
    match r.1 with
    | none => r.2
    | some cls => let s := r.2.groupError g gr cls 0; if cls = 1 then s.datapathError g.core else s

/-- An error in an element sum of the adder of a tile's home slice. -/
def State.adderRow (s : State) : State :=
  let x := s.draw
  let pa := x.1 % (memTop / 8192) * 8192
  let r := x.2.residueCheck
  let bank := 384 + dieOfPa pa * 96 + sliceOf pa
  match r.1 with
  | none => r.2
  | some 0 => r.2.blockError bank 0 0 (some pa)
  | some _ => (r.2.poisonLines (lineOf pa) 64).blockError bank 1 0 (some pa)

/-- A register, queue or stack of a group (SOURCE 1), or an array of its core (SOURCE 2: L1, scratchpad, staging or an instruction
cache), where one bit is corrected. -/
def State.coreArrayRow (s : State) (parity : Bool) : State :=
  let p := s.pickOf (s.groups.map some) none
  match p.1 with
  | none => p.2
  | some (g, gr) =>
    if parity then p.2.groupError g gr 1 1
    else let b := p.2.pick 2; b.2.groupError g gr b.1 2

/-- A line of an L2 slice or of an RDC: one bit is corrected; with two, the line is poisoned where this is its only copy, and a leased
copy is dropped. -/
def State.cacheRow (s : State) : State :=
  let x := s.draw
  let line := x.1 % (memTop / 128)
  let b := x.2.pick 2
  let d := b.2.pick 3
  let s := d.2
  let pa := line * 128
  if d.1 = 0 then
    let s := if b.1 = 1 then s.poisonLines line 1 else s
    s.blockError (384 + dieOfPa pa * 96 + sliceOf pa) b.1 2 (some pa)
  else
    let die := d.1 - 1
    let s := if b.1 = 0 then s
      else if s.excl.any (fun c => c.die == die && c.line == line) then s.poisonLines line 1
      else { s with rdc := s.rdc.filter (fun c => !(c.holder == die && c.line == line)) }
    s.blockError (576 + die) b.1 2 (some pa)

/-- Another table in SRAM. -/
def State.tableRow (s : State) : State :=
  let b := s.pickOf tableBanks 578
  let two := b.2.pick 2
  two.2.blockError b.1 (if two.1 = 0 then 0 else worstClass b.1) 2 none

/-- A 64-byte code word of HBM or aquifer: one symbol is corrected, or the line is poisoned. -/
def State.memoryRow (s : State) : State :=
  let x := s.draw
  let pa := x.1 % (memTop / 128) * 128
  let two := x.2.pick 2
  let s := if two.1 = 1 then two.2.poisonLines (lineOf pa) 1 else two.2
  s.recordError (memError pa two.1 3 none)

/-- An error on a link: replayed, or the port goes down. -/
def State.linkRow (s : State) : State :=
  let p := s.draw
  let k := p.2.pick 2
  if k.1 = 0 then k.2.portError (p.1 % 36) else k.2.portDown (p.1 % 36)

/-- An uncorrectable error of the write of a park record, while one is written (R306). -/
def State.parkWriteRow (s : State) : State :=
  let p := s.pickOf ((s.teams.filter (fun t => t.2.parkSlot.isSome)).map (fun t => some t.1.core)) none
  match p.1 with
  | none => p.2
  | some core => p.2.blockError core 2 2 none

/-- Poison in a record of the Wellhead, where it holds one (R306). -/
def State.wellheadRow (s : State) : State := if s.recs.isEmpty then s else s.blockError 637 2 6 none

/-- An error, or none, found in some block: when and where is a free choice (DESIGN CHOICE, log entry 34). -/
def State.hardwareError (s : State) : State :=
  let d := s.pick 12
  match d.1 with
  | 0 => d.2
  | 1 => d.2.datapathRow false
  | 2 => d.2.datapathRow true
  | 3 => d.2.adderRow
  | 4 => d.2.coreArrayRow true
  | 5 => d.2.coreArrayRow false
  | 6 => d.2.cacheRow
  | 7 => d.2.tableRow
  | 8 => d.2.memoryRow
  | 9 => d.2.linkRow
  | 10 => d.2.parkWriteRow
  | _ => d.2.wellheadRow

end Sys2Proof.Machine
end

