-- ==== Sys2Proof/Machine/Platform.lean ====
section
/-! DEFINITION. The platform (R17, R157, R171, R212, R296, R305 to R311, R333, R338 to R342): time, samples, power, errors,
self-test, retirement, migration, live update and management. -/

namespace Sys2Proof.Machine

/-! Retirement of a core (R17) -/

/-- `CORE_RETIREMENT`: the PF writes a core number to the retirement register (Table OBS-6). -/
def execCoreRetirement (core : Nat) (s : State) : Host.Outcome State Fault Refusal :=
  onLink s (if core < 384 then s.retireCore core else s)

/-! Time (R157, R336) -/

/-- The stall reason of a wait, where Table OBS-3 names one. -/
def Group.waitReason (gr : Group) (w : Wait) : Option Nat :=
  match w with
  | .lsync | .exitWait | .swrGf _ => some 15
  | .fence _ _ _ _ =>
    some (if !gr.blocksEnded then 15
      else if gr.out.any (fun o => o.units.any (fun u => match u.space with
        | .fabric _ => false
        | _ => true)) then 13 else 14)
  | .timeline _ _ => some 10
  | .path p _ | .waitp p _ _ =>
    some (match p with
      | .gl => 11
      | .sl => 12
      | .st => 13
      | .rm => 14)
  | .barrier _ _ _ => some 5
  | .ring _ _ _ _ => some 6
  | .tag => some 7
  | .join _ _ => some 8
  | .regroup | .regroupJoin => some 9
  | .power _ => some 4
  | .specialise _ _ => some 3
  | .matrix => some 19
  | .locked => some 13
  | .spill => some 16
  | .blockEnd => none

/-- The group is kept from new work by a pre-emption: its team is to be parked for it, or it waits for a child grid none of whose
teams is placed while its context drains (R284). -/
def State.preemptHeld (s : State) (g : GRef) (gr : Group) : Bool :=
  match s.team g.team with
  | none => false
  | some t =>
    t.parkWanted == some 1 ||
    (match (s.ctx t.ctx).map (fun (x : Ctx) => x.phase), gr.waitS with
     | some (Phase.drain _ _), some (Wait.join h _) =>
       (match (t.children.find? (fun c => c.handle == h)).bind (fun c => c.grid.bind s.grid) with
        | some x => !x.complete && decide (x.next < x.teams)
        | none => false)
     | _, _ => false)

/-- The stall reasons of the waits of a group's streams. -/
def Group.waitReasons (gr : Group) : List Nat := (gr.waitS.toList ++ gr.waitL.toList).filterMap gr.waitReason

/-- A stream that may issue stands at a line that its core's instruction cache does not hold (code 22). -/
def State.fetchMiss (s : State) (g : GRef) (gr : Group) : Bool :=
  let miss (ln : Bool) (pc : W64) : Bool := !s.icache.contains ⟨g.core, ln, s.ctxOf g, codeLine ln pc.toNat⟩
  (gr.waitS.isNone && miss false gr.spc) || (gr.run.isSome && gr.waitL.isNone && miss true gr.lpc)

/-- Conditions of Table OBS-3 that the state shows, for a group. -/
def State.stallReasons (s : State) (g : GRef) (gr : Group) : List Nat :=
  (if gr.status == .trapped then [1] else []) ++ (if s.preemptHeld g gr then [2] else []) ++ gr.waitReasons ++
  (if s.crossing gr && !gr.replaying then [14] else []) ++
  (if gr.run.isNone && gr.laneQ.isEmpty then [17] else []) ++ (if s.fetchMiss g gr then [22] else []) ++
  (if gr.replaying then [25] else [])

/-- STALL of a group now: 0 where a stream issues in the clock, which depends on timing; else the lowest reason that holds,
those of codes 18 to 26 being timing's too (R333). -/
def State.stall (s : State) (g : GRef) (gr : Group) : Nat × State :=
  let ready := gr.status == .active && (gr.waitS.isNone || (gr.run.isSome && gr.waitL.isNone))
  let d := s.pick (if ready then 2 else 1)
  if ready && d.1 = 0 then (0, d.2) else
  match d.2.stallReasons g gr with
  | [] => let e := d.2.pick 9; (18 + e.1, e.2)
  | x :: l => (l.foldl min x, d.2)

/-- Clocks between two rises of the logical clocks. -/
def riseClocks : Nat := 16

/-- Events of sixteen clocks on a core: with a resident team of the observed function, and of each group by its stall
reason (Table OBS-4). -/
def State.countClocks (s : State) (core : Nat) : State :=
  let ts := s.coreTeams core
  let s := match ts.find? (fun t => (s.core core).observed == some (s.funcOf t.2.ctx)) with
    | some t => s.count core t.2.ctx 1 riseClocks
    | none => s
  (ts.flatMap (fun t => s.teamGroups t.1)).foldl (fun s p =>
    if p.2.status == .exited then s else
    let r := s.stall p.1 p.2
    if r.1 = 0 then r.2 else r.2.count core (r.2.ctxOf p.1) (0x20 + r.1) riseClocks) s

/-- `LOGICAL_CLOCK_RISE`: sixteen clocks pass and every core's pts rises by 1 (R157); what the checks find meanwhile is a
free choice. -/
def execLogicalClockRise (s : State) : Host.Outcome State Fault Refusal :=
  let s := { s with clock := s.clock + riseClocks,
                    cores := (List.range 384).map (fun c => (c, { s.core c with pts := (s.core c).pts + 1 })) }
  .next ((((s.teams.map (fun p => p.1.core)).eraseDups).foldl (fun s c => s.countClocks c) s).hardwareError)

/-- `PC_SAMPLE`: a core samples the next resident group of a context (R333). -/
def execPcSample (core c : Nat) (s : State) : Host.Outcome State Fault Refusal :=
  .next (
    if (s.obsPage (c % 4096)).lsPer = 0 then s else
    let key (p : GRef × Group) : Nat := p.2.quarter * 1024 + p.1.gid * 16 + p.1.slot
    let gs := sortBy (fun a b => decide (key a < key b))
      (s.groups.filter (fun p => p.1.core == core && !p.1.isHandler && p.2.status != .exited && s.ctxOf p.1 == c))
    let last := match aget (s.core core).samples c with
      | some (q, k) => q * 1024 + k
      | none => 0
    let after := match aget (s.core core).samples c with
      | some _ => gs.filter (fun p => decide (last < key p))
      | none => gs
    match (after ++ gs).head? with
    | none => s
    | some (g, gr) =>
      let r := s.stall g gr
      let ln := gr.run.isSome
      let orig := r.2.origWord c ln (if ln then gr.lpc else gr.spc)
      (r.2.onCore core (fun k => { k with samples := aput k.samples c (gr.quarter, key (g, gr) % 1024) })).traceGroup g 0 0 r.1
        orig)

/-! Power (R212, R339, R340) -/

/-- The weight of an event in a context's bank, as of the present interval. -/
def State.weightOf (s : State) (c ev : Nat) : Nat :=
  (sget s.weightsNow ((sget s.bankSel (c % 4096)).toNat * 128 + ev)).toNat

/-- 2,600 W, in pJ a second. -/
def powerBudget : Nat := 2600 * 10 ^ 12
/-- Matrix slices of the package. -/
def matrixSlices : Nat := 1536

/-- Estimated power of a group's slice at full rate (Table MX-2, R340; DESIGN CHOICE, log entry 35). -/
def State.sliceCharge (s : State) (g : GRef) (gr : Group) : Nat :=
  let clocks := if (mxFormat (fmtA gr.fmtL)).2.1 = 32 then 16 else 8
  s.weightOf (s.ctxOf g) 4 * 1800000000 / clocks

/-- Charges of the grants that are held. -/
def State.heldCharge (s : State) : Nat :=
  (s.groups.map (fun p => match p.2.grant with
    | some x => x.2
    | none => 0)).sum

/-- The level that a request is granted, and its charge. -/
def grantLevel (room charge : Nat) : Nat × Nat :=
  match [0, 1, 2].find? (fun g => decide (charge / 2 ^ g ≤ room)) with
  | some g => (g, charge / 2 ^ g)
  | none => (3, 0)

/-- A stream of the group waits for a grant (R212, R427). -/
def Group.asksPower (gr : Group) : Bool :=
  let p (w : Option Wait) : Bool := match w with
    | some (.power _) => true
    | _ => false
  gr.status == .active && (p gr.waitS || p gr.waitL)

/-- `POWER_GRANT`: the oldest request is answered (R340). -/
def execPowerGrant (s : State) : Host.Outcome State Fault Refusal :=
  .next (match s.powerAsks with
    | [] => s
    | g :: rest =>
      let s := { s with powerAsks := rest }
      match s.group g with
      | none => s
      | some gr =>
        if !gr.asksPower then s else
        let charge := s.sliceCharge g gr
        let room := powerBudget - matrixSlices * charge / 8 - s.heldCharge
        s.setGroup g { gr with grant := some (grantLevel room charge), lastMma := s.clock })

/-- Clocks without an `MMA` after which a grant returns to NONE. -/
def grantIdle : Nat := 16384

/-- `GRANT_IDLE_TIMEOUT` (R212). -/
def execGrantIdleTimeout (core slot gid : Nat) (s : State) : Host.Outcome State Fault Refusal :=
  .next (s.onGroup ⟨core, slot, gid⟩ (fun gr =>
    if gr.grant.isSome && decide (gr.lastMma + grantIdle ≤ s.clock) then gr.dropGrant else gr))

/-- `POWER_INTERVAL`: the weights as now written apply from here on (R339); the estimates themselves change only timing. -/
def execPowerInterval (s : State) : Host.Outcome State Fault Refusal := .next { s with weightsNow := s.weights }

/-! Self-test and scrubbing (R311) -/

/-- `SELF_TEST_DUE`: a core's period has expired; it is offered no new team. A core that a reservation may need waits. -/
def execSelfTestDue (core : Nat) (s : State) : Host.Outcome State Fault Refusal :=
  .next (
    let period := (aget s.testPeriods core).getD 0
    if period != 0 && decide ((s.core core).testAt + period * 1800000000 ≤ s.clock) && s.reservation.isNone &&
        (s.core core).inService then
      s.onCore core (fun c => { c with testDue := true })
    else s)

/-- `SELF_TEST_SLOT`: on an empty core that no reservation may need; its L1 and instruction caches are invalidated and its staging
zeroed, once what they still hold for others has gone home. Whether the test fails is a free choice:
a failure is a CONTAINED record and retires the core. -/
def execSelfTestSlot (core : Nat) (s : State) : Host.Outcome State Fault Refusal :=
  .next (
    if !(s.core core).testDue || !(s.coreTeams core).isEmpty || s.reservation.isSome then s else
    let mine := s.upart.filter (fun u => u.holder == UHolder.core core)
    let s : State := mine.foldl (fun (s : State) u => s.sendPartial u)
      { s with upart := s.upart.filter (fun u => u.holder != UHolder.core core), l1 := s.l1.filter (fun c => c.holder != core),
               icache := s.icache.filter (fun l => l.core != core) }
    let s := (s.sendStaging core (fun _ => true)).onCore core (fun c => { c with testDue := false, testAt := s.clock })
    let d := s.pick 2
    if d.1 = 0 then d.2
    else (d.2.recordError
      { bank := core, cls := 1, source := 9, unit := 0, addr := none, ctx := none, synd := none }).retireCore core)

/-- `SCRUB`: HBM and aquifer are read through their codes; what is found is a free choice: nothing, a corrected symbol, or a
line that is lost. -/
def execScrub (s : State) : Host.Outcome State Fault Refusal :=
  let d := s.pick 3
  let x := d.2.draw
  let line := x.1 % (memTop / 128)
  .next (match d.1 with
    | 0 => d.2
    | 1 => x.2.recordError (memError (line * 128) 0 3 none)
    | _ => (x.2.poisonLines line 1).recordError (memError (line * 128) 1 3 none))

/-! Back-invalidation (R158, R296) -/

/-- `RDC_RECALL_RETURN`: an exclusive copy returns to its home; its bytes and timestamps are the home's already (DESIGN CHOICE, log entry
15). -/
def execRdcRecallReturn (s : State) : Host.Outcome State Fault Refusal :=
  let d := s.pick s.excl.length
  .next { d.2 with excl := d.2.excl.eraseIdx d.1 }

/-! Migration (R171; DESIGN CHOICE, log entry 36) -/

/-- A range of memory that nothing uses: no byte of it holds anything, and no context maps it. -/
def State.rangeFree (s : State) (pa n : Nat) : Bool :=
  inMemory pa n && !s.mem.any (fun b => decide (pa ≤ b.1) && decide (b.1 < pa + n)) &&
    !s.ctxs.any (fun c => (leavesFrom s.mem walkLevels c.2.ptRoot).any (fun f => decide (f.1 < pa + n) && decide (pa < f.1 + f.2)))

/-- A frame of some KV pool lies in a range; such frames move only by `KVTIER`. -/
def State.poolUses (s : State) (pa n : Nat) : Bool :=
  s.pools.any (fun k =>
    let p := PoolDesc.ofWords k.inst k.pool 0 k.desc
    k.frames.any (fun f => let a := p.base f.1 + f.2 * p.frameBytes; decide (a < pa + n) && decide (pa < a + p.frameBytes)))

/-- Every frame of a range is a moraine frame with a valid entry, as the new place of a moraine page must be (R301). -/
def State.allMoraine (s : State) (pa n : Nat) : Bool :=
  (List.range (n / 65536)).all (fun i => (s.setEntry (pa + 65536 * i)).isSome)

/-- `MIGRATION_LOCK`: system software moves a page, and to where, is a free choice. The page is locked; partials,
contributions on their way and exclusive copies go home first. -/
def execMigrationLock (s : State) : Host.Outcome State Fault Refusal :=
  let c := s.pickOf (s.ctxs.map (fun x => some x)) none
  .next (match c.1 with
    | none => s
    | some (id, x) =>
      let v := c.2.draw
      let n := v.2.draw
      let s := n.2
      match leafAt s.mem (v.1 % 2 ^ 57) walkLevels x.ptRoot with
      | none => s
      | some (_, e, lg) =>
        let bytes := 2 ^ lg
        let old := e / 2 ^ 16 % 2 ^ 36 * 2 ^ 16
        let new := n.1 % (memTop / bytes) * bytes
        if e.testBit 6 || (e.testBit 7 && !s.allMoraine new bytes) || !s.rangeFree new bytes || s.poolUses old bytes || s.locked old
        then s else
        let s := (s.sendContext id).recallRange old bytes
        { s with migrations := s.migrations ++ [{ old := old, new := new, bytes := bytes, ctx := id, va := v.1 % 2 ^ 57 }] })

/-- `MIGRATION_SWITCH`: the page locked longest is switched (R171). -/
def execMigrationSwitch (s : State) : Host.Outcome State Fault Refusal :=
  .next (match s.migrations with
    | [] => s
    | m :: _ => (s.switchPage m).settleHeld)

/-! Live service (R341) -/

/-- `HBM_CHANNEL_RETRAIN`: accesses are held meanwhile and none is lost; a channel that fails (a free choice) leaves a
CONTAINED record in its stack's bank and stays offline. -/
def execHbmChannelRetrain (s : State) : Host.Outcome State Fault Refusal :=
  let c := s.draw
  let d := c.2.pick 2
  onLink s (
    if d.1 = 0 || d.2.chanDown.contains c.1 then d.2
    else { d.2 with chanDown := c.1 :: d.2.chanDown }.recordError
      { bank := 626 + c.1 % 8, cls := 1, source := 3, unit := c.1 % 65536, addr := none, ctx := none, synd := none })

/-- `FABRIC_PORT_RETRAIN`: a port goes down, and up again; its traffic moves to the other planes, which changes only timing
(R286). -/
def execFabricPortRetrain (s : State) : Host.Outcome State Fault Refusal :=
  let p := s.draw
  let port := p.1 % 36
  onLink s (if p.2.portsDown.contains port then { p.2 with portsDown := p.2.portsDown.filter (· != port) }
    else { p.2 with portsDown := port :: p.2.portsDown })

/-- Bytes of a request from outside: a free number of free bytes. -/
def drawBytes (s : State) : List Byte × State :=
  let n := s.draw
  let d := draws (n.1 % 65536) n.2
  (d.1.map (BitVec.ofNat 8), d.2)

/-- `PLDM_FIRMWARE_UPDATE`: an image is accepted when its signature verifies and its security version is not below the stored
one; one that fails is refused, and the running image stays. -/
def execPldmFirmwareUpdate (s : State) : Host.Outcome State Fault Refusal :=
  let p := s.draw
  let v := p.2.draw
  let i := drawBytes v.2
  let g := drawBytes i.2
  let part := p.1 % firmwareParts
  .next (if Config.signatureValid i.1 g.1 && decide ((aget g.2.secVersion part).getD 0 ≤ v.1) then
      { g.2 with image := aput g.2.image part (i.1, g.1), secVersion := aput g.2.secVersion part v.1 }
    else g.2)

/-! Management (R342) -/

/-- `PLDM_MONITORING`: temperatures and power, which are measured, and the bank summaries. -/
def execPldmMonitoring (s : State) : Host.Outcome State Fault Refusal :=
  let d := draws 2 s
  .next { d.2 with msgs := d.2.msgs ++ [.reply (d.1 ++ d.2.banks.map (fun b => b.2.status.toNat))] }

/-- Measurements: each firmware component, the queue programs, the power tables. -/
def State.measurements (s : State) : List Nat :=
  (List.range firmwareParts).map (fun i => Config.sha3 (s.firmware i).1) ++
  [Config.sha3 (s.queues.flatMap (fun q => q.2.words.flatMap (fun w => (List.range 8).map (fun i => BitVec.ofNat 8 (byteField w i 1))))),
   Config.sha3 (s.weights.flatMap (fun w => [BitVec.ofNat 8 w.2.toNat, BitVec.ofNat 8 (w.2.toNat / 256)]))]

/-- `SPDM_REQUEST`: version 1.3, capabilities, certificates, a challenge response or measurements; what the spec does not
give of an answer is free. -/
def execSpdmRequest (s : State) : Host.Outcome State Fault Refusal :=
  let k := s.pick 5
  let free := drawBytes k.2
  .next (match k.1 with
    | 0 => { k.2 with msgs := k.2.msgs ++ [.reply [0x13]] }
    | 4 => { k.2 with msgs := k.2.msgs ++ [.reply k.2.measurements] }
    | _ => { free.2 with msgs := free.2.msgs ++ [.reply (free.1.map (·.toNat))] })

/-- `BOUNDARY_SCAN`: only while the device is held in reset. -/
def execBoundaryScan (s : State) : Host.Outcome State Fault Refusal :=
  .next (if !s.inReset then s else
    let d := drawBytes s
    { d.2 with msgs := d.2.msgs ++ [.reply (d.1.map (·.toNat))] })

/-! Words that are no instruction (R113) -/

/-- `UNDEFINED_ENCODING`: a word that the tables do not assign takes ILLEGAL when it would issue. -/
def execUndefinedEncoding (s : State) : Host.Outcome State Fault Refusal :=
  match s.cur with
  | some (.scalar g) => .next (s.trapS g .illegal 0 0)
  | some (.lane g) => .next (s.trapL g .illegal 0 0 0)
  | _ => .fault .noStream

end Sys2Proof.Machine
end

