-- ==== Sys2Proof/Machine/QueueWords.lean ====
section
/-! DEFINITION. Words of queue programs (R327 to R329, Table HQ-7): registers, windows, loops, and one meaning for each word. -/

namespace Sys2Proof.Machine

/-! Registers and the program counter -/

/-- A register; q0 reads zero. -/
def Queue.reg (q : Queue) (r : QReg) : W64 := if r = 0 then 0 else sget q.q r.val

/-- Write a register; q0 discards what is written. -/
def Queue.setReg (q : Queue) (r : Nat) (x : W64) : Queue := if r = 0 then q else { q with q := sset q.q r x }

/-- The last operand of an arithmetic word: a register, or the immediate sign-extended. -/
def Queue.val (q : Queue) (v : QVal) : W64 :=
  match v with
  | .reg b => q.reg b
  | .imm i => i.signExtend 64

/-- Go to a word; the word past the body of a loop ends the iteration. -/
def Queue.goTo (q : Queue) (pc : Nat) : Queue :=
  match q.loop with
  | none => { q with pc := pc }
  | some l =>
    if pc = l.first + l.len then
      if l.iter + 1 < l.count then
        { q.setReg l.reg (BitVec.ofNat 64 (l.iter + 1)) with pc := l.first, loop := some { l with iter := l.iter + 1 } }
      else { q with pc := pc, loop := none }
    else { q with pc := pc }

/-- Go on to the next word. -/
def Queue.advance (q : Queue) : Queue := q.goTo (q.pc + 1)

/-- A word of the program that runs on the current packet of a queue. -/
def onQueueWord (s : State) (k : Nat → Queue → Packet → State) : Host.Outcome State Fault Refusal :=
  match s.cur with
  | some (.queue slot) =>
    (match s.queue slot with
     | some q =>
       (match q.current with
        | some p => .next (k slot q p)
        | none => .fault .noStream)
     | none => .fault .noStream)
  | _ => .fault .noStream

/-! Windows -/

/-- The offset that a memory operand reaches in its window. -/
def Queue.offsetIn (q : Queue) (w : QWin) (a : QReg) (imm width : Nat) : Nat :=
  ((q.reg a).toNat + imm) % windowLen q.wins w / width * width

/-- The parts of n bytes from an offset on, going round within a window. -/
def wrapParts (len : Nat) : Nat → Nat → Nat → List (Nat × Nat)
  | 0, _, _ => []
  | f + 1, off, n =>
    if n = 0 then [] else
    let k := if len = 0 then n else min n (len - off % len)
    (off % len, k) :: wrapParts len f (off + k) (n - k)

/-- The base of a window of memory. -/
def Queue.windowBase (q : Queue) (w : QWin) : Nat := (q.wins.getD (w.val - 1) (0, 0, 0)).1

/-- Read n bytes at an offset of a window. -/
def Queue.winRead (q : Queue) (w : QWin) (off n : Nat) (s : State) : Acc Nat :=
  if w = 0 then (.ok (byteField (wordsNum q.body) off n), s)
  else
    (accFold (fun (acc : Nat × Nat) (p : Nat × Nat) s =>
      (s.vread q.ctx (q.windowBase w + p.1) p.2 true).go (fun x s => (.ok (acc.1 + x * 256 ^ acc.2, acc.2 + p.2), s)))
      (wrapParts (windowLen q.wins w) (n + 1) off n) (0, 0) s).go (fun r s => (.ok r.1, s))

/-- Write n bytes at an offset of a window. -/
def Queue.winWrite (q : Queue) (w : QWin) (off n x : Nat) (s : State) : Acc Unit :=
  s.vwrite (s.agent 6 0) q.ctx (q.windowBase w + off) n x true

/-- What a word makes of its accesses: a fault of one ends the packet with STATUS 1 and a free code (DESIGN CHOICE, log entry 30). -/
def State.afterAccess {α : Type} (slot : Nat) (r : Acc α) (k : α → State → State) : State :=
  match r.1 with
  | .ok x => k x r.2
  | .error _ => let d := r.2.draw; d.2.onQueue slot (fun q => q.fail (1 + d.1 % 255))

/-- Write a register and go on. -/
def State.queueSet (s : State) (slot : Nat) (d : QReg) (x : W64) : State :=
  s.onQueue slot (fun q => (q.setReg d.val x).advance)

/-- Go on. -/
def State.queueNext (s : State) (slot : Nat) : State := s.onQueue slot (·.advance)

/-! Arithmetic -/

def execQmovi (d : QReg) (imm : W32) (s : State) : Host.Outcome State Fault Refusal :=
  onQueueWord s (fun slot _ _ => s.queueSet slot d (imm.signExtend 64))

/-- An arithmetic word. -/
def queueAlu (s : State) (d a : QReg) (v : QVal) (f : W64 → W64 → W64) : Host.Outcome State Fault Refusal :=
  onQueueWord s (fun slot q _ => s.queueSet slot d (f (q.reg a) (q.val v)))

def execQadd (d a : QReg) (v : QVal) (s : State) : Host.Outcome State Fault Refusal := queueAlu s d a v (· + ·)
def execQsub (d a : QReg) (v : QVal) (s : State) : Host.Outcome State Fault Refusal := queueAlu s d a v (· - ·)
def execQand (d a : QReg) (v : QVal) (s : State) : Host.Outcome State Fault Refusal := queueAlu s d a v (· &&& ·)
def execQor (d a : QReg) (v : QVal) (s : State) : Host.Outcome State Fault Refusal := queueAlu s d a v (· ||| ·)
def execQshl (d a : QReg) (v : QVal) (s : State) : Host.Outcome State Fault Refusal :=
  queueAlu s d a v (fun x n => x <<< (n.toNat % 64))
def execQshr (d a : QReg) (v : QVal) (s : State) : Host.Outcome State Fault Refusal :=
  queueAlu s d a v (fun x n => x >>> (n.toNat % 64))

/-- A condition of `QCMP`. -/
def QCond.holds (c : QCond) (x y : W64) : Bool :=
  match c with
  | .eq => x == y
  | .ne => x != y
  | .ltu => decide (x.toNat < y.toNat)
  | .geu => decide (y.toNat ≤ x.toNat)
  | .lt => decide (x.toInt < y.toInt)
  | .ge => decide (y.toInt ≤ x.toInt)

def execQcmp (d a b : QReg) (cond : QCond) (s : State) : Host.Outcome State Fault Refusal :=
  onQueueWord s (fun slot q _ => s.queueSet slot d (if QCond.holds cond (q.reg a) (q.reg b) then 1 else 0))

/-! Control -/

def execQbr (a : QReg) (always : Bool) (imm : W32) (s : State) : Host.Outcome State Fault Refusal :=
  onQueueWord s (fun slot q _ =>
    s.setQueue slot (if always || q.reg a != 0 then q.goTo (q.pc + imm.toNat) else q.advance))

/-- `QLOOP`: the first iteration starts; iterations are counted from 0 (DEDUCED, log entry 31). -/
def execQloop (d : QReg) (n len : Byte) (s : State) : Host.Outcome State Fault Refusal :=
  onQueueWord s (fun slot q _ =>
    s.setQueue slot { q.setReg d.val 0 with
      pc := q.pc + 1,
      loop := some { reg := d.val, first := q.pc + 1, len := len.toNat, iter := 0, count := n.toNat } })

def execQdone (a : QReg) (s : State) : Host.Outcome State Fault Refusal :=
  onQueueWord s (fun slot q _ => s.setQueue slot (q.endProgram 0 (q.reg a) 0))

def execQfail (code : Byte) (s : State) : Host.Outcome State Fault Refusal :=
  onQueueWord s (fun slot q _ => s.setQueue slot (q.fail code.toNat))

/-! Memory -/

/-- A load of n bytes. -/
def queueLoad (s : State) (d : QReg) (w : QWin) (a : QReg) (imm : W32) (n : Nat) : Host.Outcome State Fault Refusal :=
  onQueueWord s (fun slot q _ =>
    State.afterAccess slot (q.winRead w (q.offsetIn w a imm.toNat n) n s) (fun x s => s.queueSet slot d (BitVec.ofNat 64 x)))

def execQld (d : QReg) (w : QWin) (a : QReg) (imm : W32) (s : State) : Host.Outcome State Fault Refusal :=
  queueLoad s d w a imm 8
def execQldw (d : QReg) (w : QWin) (a : QReg) (imm : W32) (s : State) : Host.Outcome State Fault Refusal :=
  queueLoad s d w a imm 4

/-- A store of n bytes. -/
def queueStore (s : State) (w : QWin) (a b : QReg) (imm : W32) (n : Nat) : Host.Outcome State Fault Refusal :=
  onQueueWord s (fun slot q _ =>
    State.afterAccess slot (q.winWrite w (q.offsetIn w a imm.toNat n) n ((q.reg b).toNat % 256 ^ n) s)
      (fun _ s => s.queueNext slot))

def execQstw (w : QWin) (a b : QReg) (imm : W32) (s : State) : Host.Outcome State Fault Refusal := queueStore s w a b imm 4

/-- `QSIGNAL`: a program's accesses are performed in its order, so every earlier one has completed. -/
def execQsignal (w : QWin) (a b : QReg) (imm : W32) (s : State) : Host.Outcome State Fault Refusal :=
  queueStore s w a b imm 8

/-- `QCOPY`, in units of 4 bytes. -/
def execQcopy (w : QWin) (d : QReg) (w2 : QWin) (a : QReg) (n : W16) (s : State) : Host.Outcome State Fault Refusal :=
  onQueueWord s (fun slot q _ =>
    let dst := q.offsetIn w d 0 4
    let src := q.offsetIn w2 a 0 4
    State.afterAccess slot
      (accFold (fun (_ : Unit) i s =>
        (q.winRead w2 ((src + 4 * i) % windowLen q.wins w2) 4 s).go (fun x s =>
          q.winWrite w ((dst + 4 * i) % windowLen q.wins w) 4 x s)) (List.range (n.toNat / 4)) () s)
      (fun _ s => s.queueNext slot))

def execQwaitv (w : QWin) (a b : QReg) (imm : W32) (s : State) : Host.Outcome State Fault Refusal :=
  onQueueWord s (fun slot q _ =>
    let off := q.offsetIn w a imm.toNat 8
    let v := (q.reg b).toNat
    State.afterAccess slot (q.winRead w off 8 s) (fun x s =>
      if v ≤ x then s.queueNext slot else s.onQueue slot (fun q => { q with waitv := some (w.val, off, v) })))

/-- `QWAITV_RELEASE`: a resident queue's wait ends once the value there is reached (R322, Table HQ-7). -/
def execQwaitvRelease (slot : Nat) (s : State) : Host.Outcome State Fault Refusal :=
  .next (match s.queue slot with
    | none => s
    | some q =>
      match q.waitv with
      | none => s
      | some (w, off, v) =>
        if !q.resident then s else
        State.afterAccess slot (q.winRead (Fin.ofNat 4 w) off 8 s) (fun x s =>
          if v ≤ x then s.onQueue slot (fun q => { q with waitv := none }.advance) else s))

/-! Launches and kinds -/

/-- `QLAUNCH`: the commit waits for the grid; a launch that is refused or fails at once ends the packet so (R27, R324). -/
def execQlaunch (d : QReg) (w : QWin) (a : QReg) (imm : W32) (s : State) : Host.Outcome State Fault Refusal :=
  onQueueWord s (fun slot q p =>
    State.afterAccess slot (q.winRead w (q.offsetIn w a imm.toNat 128) 128 s) (fun body s =>
      let e := s.enterLaunch
        { ctx := q.ctx, level := max (bodyWord body 3 % 4) q.level, issuer := .queue slot p.seq, depth := 0, inst := none,
          seqBase := 0, step := 0 } body
      match e.1 with
      | .refused => e.2.onQueue slot (fun q => q.endProgram 4 0 0)
      | .failed _ _ => e.2.onQueue slot (fun q => q.endProgram 1 0 0)
      | .grid n =>
        (e.2.onQueue slot (fun q => q.onCurrent (fun p => { p with waitGrids := n :: p.waitGrids }))).queueSet slot d
          (BitVec.ofNat 64 n)))

/-- `QCALLF`: the kind is performed; one in progress holds the program until it completes. -/
def execQcallf (d : QReg) (w : QWin) (a : QReg) (kind : Byte) (off : BitVec 24) (s : State) :
    Host.Outcome State Fault Refusal :=
  onQueueWord s (fun slot q p =>
    let n := packetBytes ((kindLen kind.toNat).getD 0)
    State.afterAccess slot (q.winRead w (q.offsetIn w a off.toNat n) n s) (fun body s =>
      let r := performKind kind.toNat { slot := slot, q := q, seq := p.seq, w := wordsOf body (n / 8) } s
      match r.1 with
      | .done st => r.2.queueSet slot d (BitVec.ofNat 64 st)
      | .pending => r.2.onQueue slot (fun q => q.onCurrent (fun p => { p with waitOther := true }))
      | .forbidden => r.2.onQueue slot (fun q => q.fail 1)))

/-- The kind that a `QCALLF` waits for has completed: the program goes on with its status. -/
def Queue.callReturns (q : Queue) (d : QReg) (st : Nat) : Queue :=
  ((q.onCurrent (fun p => { p with status := none, waitOther := false })).setReg d.val (BitVec.ofNat 64 st)).advance

/-! The queue as an agent (R328, R329) -/

/-- Words that a packet may run. -/
def wordLimit : Nat := 256

/-- What a resident queue does next with its current packet. -/
inductive QueueTurn where
  | idle
  | settle (s : State)
  | run (i : Instr) (s : State)

/-- The next thing that a queue's program does: nothing while it waits; the end of a wait for a kind; the kind itself, under
the default program; the end at the 257th word; or its next word. -/
def State.queueTurn (s : State) (slot : Nat) : QueueTurn :=
  match s.queue slot with
  | none => .idle
  | some q =>
    match q.current with
    | none => .idle
    | some p =>
      if !q.resident || q.waitv.isSome then .idle
      else if p.waitOther then
        (match p.status, decodeQueue (q.words.getD q.pc 0) with
         | some st, .ok (.qcallf d _ _ _ _) => .settle (s.setQueue slot (q.callReturns d st))
         | _, _ => .idle)
      else if q.prog = 0 then
        (match kindInstr p.kind (q.body.getD 2 0) with
         | some i => .run i s
         | none => .settle (s.setQueue slot (q.fail 1)))
      else if wordLimit ≤ q.ran then .settle (s.setQueue slot (q.fail 2))
      else
        match decodeQueue (q.words.getD q.pc 0) with
        | .ok i => .run i (s.setQueue slot { q with ran := q.ran + 1 })
        | .error _ => .idle

end Sys2Proof.Machine
end

