-- ==== Sys2Proof/Machine/Spawn.lean ====
section
/-! DEFINITION. `SPAWN` (R53, R455). -/

namespace Sys2Proof.Machine

/-- Child grids of a team that have not completed. -/
def State.liveChildren (s : State) (t : Team) : Nat :=
  (t.children.filter (fun c => match c.grid with
    | some n => (match s.grid n with
      | some g => !g.complete
      | none => false)
    | none => false)).length

/-- Children that a team may have at once, and the deepest spawn (R53). -/
def maxChildren : Nat := 16
def maxDepth : Nat := 4

/-- A team's new child, whose launch then tests its dependence; the destination is written now, or when a WAIT-policy miss ends
(R234). -/
def State.spawned (s : State) (g : GRef) (b : SReg) (grid : Option Nat) : State :=
  let d := s.draw
  let h := handleOf (grid.getD 0xFFFFFFFF) d.1
  let s := d.2.onTeam g.team (fun t => { t with children := t.children ++ [⟨h, grid, false⟩] })
  let s := match grid with
    | some n => s.testDependence n
    | none => s
  match s.group g with
  | none => s
  | some gr =>
    let waits : Bool := match grid.bind s.grid with
      | some x => x.phase == .specialise
      | none => false
    if waits then s.holdS g gr (.specialise (grid.getD 0) b) else s.scalarDone g (gr.setS b h) 1

/-- `SPAWN`: the limits, the descriptor, the entry of the launch, and the first test of its dependence. -/
def execSpawn (_bt : Bt) (a b : SReg) (s : State) : Host.Outcome State Fault Refusal :=
  onScalar s (fun g gr =>
    let va := (gr.sreg a).toNat
    if g.isHandler then s.trapS g .protection 0 va else
    match s.team g.team with
    | none => s.trapS g .protection 0 va
    | some t =>
      if maxChildren ≤ s.liveChildren t then s.trapS g .quota 2 0
      else if maxDepth ≤ t.depth then s.trapS g .quota 3 0
      else if va % 8 != 0 then s.trapS g .alignment 0 va
      else
        let r := s.vread t.ctx va 128 false
        match r.1 with
        | .error e => r.2.trapS g e.1.cause e.1.info va
        | .ok body =>
          let level := match r.2.grid t.grid with
            | some x => x.level
            | none => 0
          let inst := match r.2.grid t.grid with
            | some x => x.inst
            | none => none
          let e := r.2.enterLaunch
            { ctx := t.ctx, level := level, issuer := .spawn t.grid t.teamId, depth := t.depth + 1, inst := inst,
              seqBase := 0, step := 0 } body
          match e.1 with
          | .failed m addr => e.2.trapS g m.cause m.info addr
          | .refused => e.2.spawned g b none
          | .grid n => e.2.spawned g b (some n))

end Sys2Proof.Machine
end

