-- ==== Sys2Proof/Machine/Dispatch.lean ====
section
/-! DEFINITION. Dispatch: one arm for every constructor of `Instr`, each one call of its meaning. -/

namespace Sys2Proof.Machine

def exec (i : Instr) (s : State) : Host.Outcome State Fault Refusal :=
  match i with
  | .qmovi d imm => Sys2Proof.Machine.execQmovi d imm s
  | .qld d w a imm => Sys2Proof.Machine.execQld d w a imm s
  | .qldw d w a imm => Sys2Proof.Machine.execQldw d w a imm s
  | .qstw w a b imm => Sys2Proof.Machine.execQstw w a b imm s
  | .qadd d a v => Sys2Proof.Machine.execQadd d a v s
  | .qsub d a v => Sys2Proof.Machine.execQsub d a v s
  | .qand d a v => Sys2Proof.Machine.execQand d a v s
  | .qor d a v => Sys2Proof.Machine.execQor d a v s
  | .qshl d a v => Sys2Proof.Machine.execQshl d a v s
  | .qshr d a v => Sys2Proof.Machine.execQshr d a v s
  | .qcmp d a b cond => Sys2Proof.Machine.execQcmp d a b cond s
  | .qbr a always imm => Sys2Proof.Machine.execQbr a always imm s
  | .qloop d n len => Sys2Proof.Machine.execQloop d n len s
  | .qlaunch d w a imm => Sys2Proof.Machine.execQlaunch d w a imm s
  | .qcopy w d w2 a n => Sys2Proof.Machine.execQcopy w d w2 a n s
  | .qsignal w a b imm => Sys2Proof.Machine.execQsignal w a b imm s
  | .qwaitv w a b imm => Sys2Proof.Machine.execQwaitv w a b imm s
  | .qwaitvRelease slot => Sys2Proof.Machine.execQwaitvRelease slot s
  | .qcallf d w a kind off => Sys2Proof.Machine.execQcallf d w a kind off s
  | .qdone a => Sys2Proof.Machine.execQdone a s
  | .qfail code => Sys2Proof.Machine.execQfail code s
  | .saddReg bt d a b => Sys2Proof.Machine.execSaddReg bt d a b s
  | .ssubReg bt d a b => Sys2Proof.Machine.execSsubReg bt d a b s
  | .smulReg bt d a b => Sys2Proof.Machine.execSmulReg bt d a b s
  | .sdivReg bt uns rem d a b => Sys2Proof.Machine.execSdivReg bt uns rem d a b s
  | .sandReg bt d a b => Sys2Proof.Machine.execSandReg bt d a b s
  | .sorReg bt d a b => Sys2Proof.Machine.execSorReg bt d a b s
  | .sxorReg bt d a b => Sys2Proof.Machine.execSxorReg bt d a b s
  | .sshlReg bt d a b => Sys2Proof.Machine.execSshlReg bt d a b s
  | .sshrReg bt d a b => Sys2Proof.Machine.execSshrReg bt d a b s
  | .ssarReg bt d a b => Sys2Proof.Machine.execSsarReg bt d a b s
  | .sminReg bt uns d a b => Sys2Proof.Machine.execSminReg bt uns d a b s
  | .smaxReg bt uns d a b => Sys2Proof.Machine.execSmaxReg bt uns d a b s
  | .saddImm bt d a imm => Sys2Proof.Machine.execSaddImm bt d a imm s
  | .ssubImm bt d a imm => Sys2Proof.Machine.execSsubImm bt d a imm s
  | .smulImm bt d a imm => Sys2Proof.Machine.execSmulImm bt d a imm s
  | .sdivImm bt d a imm => Sys2Proof.Machine.execSdivImm bt d a imm s
  | .sandImm bt d a imm => Sys2Proof.Machine.execSandImm bt d a imm s
  | .sorImm bt d a imm => Sys2Proof.Machine.execSorImm bt d a imm s
  | .sxorImm bt d a imm => Sys2Proof.Machine.execSxorImm bt d a imm s
  | .sshlImm bt d a n => Sys2Proof.Machine.execSshlImm bt d a n s
  | .sshrImm bt d a n => Sys2Proof.Machine.execSshrImm bt d a n s
  | .ssarImm bt d a n => Sys2Proof.Machine.execSsarImm bt d a n s
  | .sminImm bt d a imm => Sys2Proof.Machine.execSminImm bt d a imm s
  | .smaxImm bt d a imm => Sys2Proof.Machine.execSmaxImm bt d a imm s
  | .scmp bt cond a b c => Sys2Proof.Machine.execScmp bt cond a b c s
  | .scmpImm bt cond a im c => Sys2Proof.Machine.execScmpImm bt cond a im c s
  | .ssel bt d a b c => Sys2Proof.Machine.execSsel bt d a b c s
  | .smov bt d a => Sys2Proof.Machine.execSmov bt d a s
  | .smovFromC bt d c => Sys2Proof.Machine.execSmovFromC bt d c s
  | .smovToC bt c a => Sys2Proof.Machine.execSmovToC bt c a s
  | .sli bt d imm => Sys2Proof.Machine.execSli bt d imm s
  | .sld bt size d a off => Sys2Proof.Machine.execSld bt size d a off s
  | .sst bt size d a off => Sys2Proof.Machine.execSst bt size d a off s
  | .satom bt op w a b c => Sys2Proof.Machine.execSatom bt op w a b c s
  | .sbr bt inv c off => Sys2Proof.Machine.execSbr bt inv c off s
  | .sjmp bt off => Sys2Proof.Machine.execSjmp bt off s
  | .sjmpFar bt imm => Sys2Proof.Machine.execSjmpFar bt imm s
  | .scall bt l off => Sys2Proof.Machine.execScall bt l off s
  | .scallFar bt l imm => Sys2Proof.Machine.execScallFar bt l imm s
  | .sloop bt a off => Sys2Proof.Machine.execSloop bt a off s
  | .lrun bt a imm => Sys2Proof.Machine.execLrun bt a imm s
  | .kset bt k a => Sys2Proof.Machine.execKset bt k a s
  | .yget bt d y => Sys2Proof.Machine.execYget bt d y s
  | .srd bt d idx => Sys2Proof.Machine.execSrd bt d idx s
  | .swr bt d idx => Sys2Proof.Machine.execSwr bt d idx s
  | .setfmt bt a => Sys2Proof.Machine.execSetfmt bt a s
  | .waittl bt cls a => Sys2Proof.Machine.execWaittl bt cls a s
  | .tlget bt cls b => Sys2Proof.Machine.execTlget bt cls b s
  | .cpy bt a b => Sys2Proof.Machine.execCpy bt a b s
  | .gath bt a b => Sys2Proof.Machine.execGath bt a b s
  | .coll bt a b => Sys2Proof.Machine.execColl bt a b s
  | .kvalloc bt a b => Sys2Proof.Machine.execKvalloc bt a b s
  | .kvref bt a b => Sys2Proof.Machine.execKvref bt a b s
  | .kvunref bt a b => Sys2Proof.Machine.execKvunref bt a b s
  | .kvcow bt a b => Sys2Proof.Machine.execKvcow bt a b s
  | .kvtierCi bt a b => Sys2Proof.Machine.execKvtierCi bt a b s
  | .kvtierAq bt a b => Sys2Proof.Machine.execKvtierAq bt a b s
  | .kvsend bt a b => Sys2Proof.Machine.execKvsend bt a b s
  | .rqget bt word a b => Sys2Proof.Machine.execRqget bt word a b s
  | .rqset bt word a b => Sys2Proof.Machine.execRqset bt word a b s
  | .rqemit bt a b => Sys2Proof.Machine.execRqemit bt a b s
  | .barinit bt a b => Sys2Proof.Machine.execBarinit bt a b s
  | .bararr bt a => Sys2Proof.Machine.execBararr bt a s
  | .bararrDrop bt a => Sys2Proof.Machine.execBararrDrop bt a s
  | .barwait bt a b => Sys2Proof.Machine.execBarwait bt a b s
  | .barxpct bt a b => Sys2Proof.Machine.execBarxpct bt a b s
  | .ringinit bt a b => Sys2Proof.Machine.execRinginit bt a b s
  | .ringacqP bt a b => Sys2Proof.Machine.execRingacqP bt a b s
  | .ringacqC bt a b => Sys2Proof.Machine.execRingacqC bt a b s
  | .ringrelP bt a b => Sys2Proof.Machine.execRingrelP bt a b s
  | .ringrelC bt a b => Sys2Proof.Machine.execRingrelC bt a b s
  | .spawn bt a b => Sys2Proof.Machine.execSpawn bt a b s
  | .join bt a b => Sys2Proof.Machine.execJoin bt a b s
  | .pwrq bt a b => Sys2Proof.Machine.execPwrq bt a b s
  | .snop bt => Sys2Proof.Machine.execSnop bt s
  | .lsync bt => Sys2Proof.Machine.execLsync bt s
  | .yield bt => Sys2Proof.Machine.execYield bt s
  | .exit bt => Sys2Proof.Machine.execExit bt s
  | .sret bt a => Sys2Proof.Machine.execSret bt a s
  | .brkpt bt => Sys2Proof.Machine.execBrkpt bt s
  | .trap bt code => Sys2Proof.Machine.execTrap bt code s
  | .fence bt => Sys2Proof.Machine.execFence bt s
  | .fenceSys bt => Sys2Proof.Machine.execFenceSys bt s
  | .fenceSurv bt => Sys2Proof.Machine.execFenceSurv bt s
  | .hread a b => Sys2Proof.Machine.execHread a b s
  | .hwrite a b => Sys2Proof.Machine.execHwrite a b s
  | .hresume a => Sys2Proof.Machine.execHresume a s
  | .hkill a => Sys2Proof.Machine.execHkill a s
  | .iadd h t sat d a b => Sys2Proof.Machine.execIadd h t sat d a b s
  | .isub h t sat d a b => Sys2Proof.Machine.execIsub h t sat d a b s
  | .imul h t hi d a b => Sys2Proof.Machine.execImul h t hi d a b s
  | .imad h t sat d a b c => Sys2Proof.Machine.execImad h t sat d a b c s
  | .imin h t d a b => Sys2Proof.Machine.execImin h t d a b s
  | .imax h t d a b => Sys2Proof.Machine.execImax h t d a b s
  | .iabs h t sat d a => Sys2Proof.Machine.execIabs h t sat d a s
  | .ineg h t sat d a => Sys2Proof.Machine.execIneg h t sat d a s
  | .shl h t wrap d a b => Sys2Proof.Machine.execShl h t wrap d a b s
  | .shr h t wrap d a b => Sys2Proof.Machine.execShr h t wrap d a b s
  | .sar h t wrap d a b => Sys2Proof.Machine.execSar h t wrap d a b s
  | .and h t d a b => Sys2Proof.Machine.execAnd h t d a b s
  | .or h t d a b => Sys2Proof.Machine.execOr h t d a b s
  | .xor h t d a b => Sys2Proof.Machine.execXor h t d a b s
  | .logic h t g1 g2 inv sel d a b c => Sys2Proof.Machine.execLogic h t g1 g2 inv sel d a b c s
  | .popc h t d a => Sys2Proof.Machine.execPopc h t d a s
  | .clz h t d a => Sys2Proof.Machine.execClz h t d a s
  | .brev h t d a => Sys2Proof.Machine.execBrev h t d a s
  | .bfe h t pos d a => Sys2Proof.Machine.execBfe h t pos d a s
  | .bfi h pos d a c => Sys2Proof.Machine.execBfi h pos d a c s
  | .prmt h d a b c => Sys2Proof.Machine.execPrmt h d a b c s
  | .isetp h t cond d a b => Sys2Proof.Machine.execIsetp h t cond d a b s
  | .sel h t q d a b => Sys2Proof.Machine.execSel h t q d a b s
  | .idot4 h t sat d a b c => Sys2Proof.Machine.execIdot4 h t sat d a b c s
  | .fadd h d a b => Sys2Proof.Machine.execFadd h d a b s
  | .fmul h d a b => Sys2Proof.Machine.execFmul h d a b s
  | .ffma h d a b c => Sys2Proof.Machine.execFfma h d a b c s
  | .fmin h nan d a b => Sys2Proof.Machine.execFmin h nan d a b s
  | .fmax h nan d a b => Sys2Proof.Machine.execFmax h nan d a b s
  | .fsetp h t cond d a b => Sys2Proof.Machine.execFsetp h t cond d a b s
  | .fclass h t mask d a => Sys2Proof.Machine.execFclass h t mask d a s
  | .frnd h t rtz d a => Sys2Proof.Machine.execFrnd h t rtz d a s
  | .hadd2 h t d a b => Sys2Proof.Machine.execHadd2 h t d a b s
  | .hmul2 h t d a b => Sys2Proof.Machine.execHmul2 h t d a b s
  | .hfma2 h t d a b c => Sys2Proof.Machine.execHfma2 h t d a b c s
  | .cvt h dst src d a => Sys2Proof.Machine.execCvt h dst src d a s
  | .pack h t d a b c e => Sys2Proof.Machine.execPack h t d a b c e s
  | .unpk h t im d a => Sys2Proof.Machine.execUnpk h t im d a s
  | .rcp h d a => Sys2Proof.Machine.execRcp h d a s
  | .rsq h d a => Sys2Proof.Machine.execRsq h d a s
  | .sqrt h d a => Sys2Proof.Machine.execSqrt h d a s
  | .ex2 h d a => Sys2Proof.Machine.execEx2 h d a s
  | .lg2 h d a => Sys2Proof.Machine.execLg2 h d a s
  | .sin h d a => Sys2Proof.Machine.execSin h d a s
  | .cos h d a => Sys2Proof.Machine.execCos h d a s
  | .tanh h d a => Sys2Proof.Machine.execTanh h d a s
  | .mov h t d a => Sys2Proof.Machine.execMov h t d a s
  | .shfl h t mode d a b => Sys2Proof.Machine.execShfl h t mode d a b s
  | .bcast h t d a b => Sys2Proof.Machine.execBcast h t d a b s
  | .getl h d => Sys2Proof.Machine.execGetl h d s
  | .vote h mode q d => Sys2Proof.Machine.execVote h mode q d s
  | .matchLanes h t all d a => Sys2Proof.Machine.execMatchLanes h t all d a s
  | .redux h t op y wy d a => Sys2Proof.Machine.execRedux h t op y wy d a s
  | .scan h t op excl d a => Sys2Proof.Machine.execScan h t op excl d a s
  | .gsort h t desc d a b => Sys2Proof.Machine.execGsort h t desc d a b s
  | .elect h d => Sys2Proof.Machine.execElect h d s
  | .exmget h d => Sys2Proof.Machine.execExmget h d s
  | .exmset h a => Sys2Proof.Machine.execExmset h a s
  | .regroup h d n => Sys2Proof.Machine.execRegroup h d n s
  | .lbr h tdelta tslot jdelta jslot => Sys2Proof.Machine.execLbr h tdelta tslot jdelta jslot s
  | .ljoin h => Sys2Proof.Machine.execLjoin h s
  | .lend h => Sys2Proof.Machine.execLend h s
  | .lnop h => Sys2Proof.Machine.execLnop h s
  | .lcall h tgt => Sys2Proof.Machine.execLcall h tgt s
  | .lret h => Sys2Proof.Machine.execLret h s
  | .ldg h fn d a b off => Sys2Proof.Machine.execLdg h fn d a b off s
  | .stg h fn a b c off => Sys2Proof.Machine.execStg h fn a b c off s
  | .lds h fn d a b off => Sys2Proof.Machine.execLds h fn d a b off s
  | .sts h fn a b c off => Sys2Proof.Machine.execSts h fn a b c off s
  | .ldx h fn d a b off => Sys2Proof.Machine.execLdx h fn d a b off s
  | .stx h fn a b c off => Sys2Proof.Machine.execStx h fn a b c off s
  | .rld h fn d a rank off => Sys2Proof.Machine.execRld h fn d a rank off s
  | .rst h fn a rank c off => Sys2Proof.Machine.execRst h fn a rank c off s
  | .ratom h op w nr d a rank c e off => Sys2Proof.Machine.execRatom h op w nr d a rank c e off s
  | .atom h op w nr d a b c e off => Sys2Proof.Machine.execAtom h op w nr d a b c e off s
  | .red h op w a b c off => Sys2Proof.Machine.execRed h op w a b c off s
  | .tagset h full a b off => Sys2Proof.Machine.execTagset h full a b off s
  | .tagget h d a b off => Sys2Proof.Machine.execTagget h d a b off s
  | .waitp h path a => Sys2Proof.Machine.execWaitp h path a s
  | .pref h l2 a b off => Sys2Proof.Machine.execPref h l2 a b off s
  | .mma h sm a b c e => Sys2Proof.Machine.execMma h sm a b c e s
  | .mxzero h k => Sys2Proof.Machine.execMxzero h k s
  | .mxread h t d k b => Sys2Proof.Machine.execMxread h t d k b s
  | .mxflush h tile => Sys2Proof.Machine.execMxflush h tile s
  | .rand h d a b => Sys2Proof.Machine.execRand h d a b s
  | .hostDeviceMemoryAccess write addr n data => Sys2Proof.Machine.execHostDeviceMemoryAccess write addr n data s
  | .poisonedTlp pa => Sys2Proof.Machine.execPoisonedTlp pa s
  | .registerWrite func off width data => Sys2Proof.Machine.execRegisterWrite func off width data s
  | .doorbellTail slot tail => Sys2Proof.Machine.execDoorbellTail slot tail s
  | .queueEnable slot desc => Sys2Proof.Machine.execQueueEnable slot desc s
  | .queueDisable slot => Sys2Proof.Machine.execQueueDisable slot s
  | .queueDisabled slot => Sys2Proof.Machine.execQueueDisabled slot s
  | .contextOwnerWrite idx word => Sys2Proof.Machine.execContextOwnerWrite idx word s
  | .coreRetirement core => Sys2Proof.Machine.execCoreRetirement core s
  | .bankStatusClear bank bits => Sys2Proof.Machine.execBankStatusClear bank bits s
  | .queueSwitchOut slot => Sys2Proof.Machine.execQueueSwitchOut slot s
  | .queueSwitchIn slot => Sys2Proof.Machine.execQueueSwitchIn slot s
  | .packetTake slot => Sys2Proof.Machine.execPacketTake slot s
  | .completionEntryWrite slot => Sys2Proof.Machine.execCompletionEntryWrite slot s
  | .dependenceMet n => Sys2Proof.Machine.execDependenceMet n s
  | .teamPlace core => Sys2Proof.Machine.execTeamPlace core s
  | .teamRetire core slot => Sys2Proof.Machine.execTeamRetire core slot s
  | .gridComplete n => Sys2Proof.Machine.execGridComplete n s
  | .joinPark core slot => Sys2Proof.Machine.execJoinPark core slot s
  | .laneBlockStart core slot gid => Sys2Proof.Machine.execLaneBlockStart core slot gid s
  | .laneQueueRefill core slot gid => Sys2Proof.Machine.execLaneQueueRefill core slot gid s
  | .lsyncRelease core slot gid => Sys2Proof.Machine.execLsyncRelease core slot gid s
  | .groupExitEnd core slot gid => Sys2Proof.Machine.execGroupExitEnd core slot gid s
  | .waittlRelease core slot gid => Sys2Proof.Machine.execWaittlRelease core slot gid s
  | .waitpRelease core slot gid => Sys2Proof.Machine.execWaitpRelease core slot gid s
  | .pathCompletion core slot gid => Sys2Proof.Machine.execPathCompletion core slot gid s
  | .accessPerformedAtHome core slot gid host => Sys2Proof.Machine.execAccessPerformedAtHome core slot gid host s
  | .uPartialFlush n => Sys2Proof.Machine.execUPartialFlush n s
  | .fenceComplete core slot gid => Sys2Proof.Machine.execFenceComplete core slot gid s
  | .fenceSurvComplete core slot gid => Sys2Proof.Machine.execFenceSurvComplete core slot gid s
  | .grantIdleTimeout core slot gid => Sys2Proof.Machine.execGrantIdleTimeout core slot gid s
  | .stagingCombine core slot gid n => Sys2Proof.Machine.execStagingCombine core slot gid n s
  | .stagingSend core n => Sys2Proof.Machine.execStagingSend core n s
  | .tileAdd im e => Sys2Proof.Machine.execTileAdd im e s
  | .ceUnitLand core slot n u => Sys2Proof.Machine.execCeUnitLand core slot n u s
  | .ceCommandComplete core slot n => Sys2Proof.Machine.execCeCommandComplete core slot n s
  | .kvCommandPerform core slot => Sys2Proof.Machine.execKvCommandPerform core slot s
  | .kvsendComplete core slot => Sys2Proof.Machine.execKvsendComplete core slot s
  | .coCommandComplete core slot n => Sys2Proof.Machine.execCoCommandComplete core slot n s
  | .selfTestDue core => Sys2Proof.Machine.execSelfTestDue core s
  | .selfTestSlot core => Sys2Proof.Machine.execSelfTestSlot core s
  | .pcSample core c => Sys2Proof.Machine.execPcSample core c s
  | .handlerActivation core => Sys2Proof.Machine.execHandlerActivation core s
  | .handlerWatchdog core => Sys2Proof.Machine.execHandlerWatchdog core s
  | .tagWatchdog core slot gid n => Sys2Proof.Machine.execTagWatchdog core slot gid n s
  | .park core slot => Sys2Proof.Machine.execPark core slot s
  | .parkRecordValid core slot => Sys2Proof.Machine.execParkRecordValid core slot s
  | .parkAutoResume n slot => Sys2Proof.Machine.execParkAutoResume n slot s
  | .preemptPark c => Sys2Proof.Machine.execPreemptPark c s
  | .preemptReset c => Sys2Proof.Machine.execPreemptReset c s
  | .preemptOff c => Sys2Proof.Machine.execPreemptOff c s
  | .hpark => Sys2Proof.Machine.execHpark s
  | .eret => Sys2Proof.Machine.execEret s
  | .powerOnReset => Sys2Proof.Machine.execPowerOnReset s
  | .configurationRequest => Sys2Proof.Machine.execConfigurationRequest s
  | .nop => Sys2Proof.Machine.execNop s
  | .link => Sys2Proof.Machine.execLink s
  | .launch => Sys2Proof.Machine.execLaunch s
  | .load => Sys2Proof.Machine.execLoad s
  | .flush => Sys2Proof.Machine.execFlush s
  | .inval => Sys2Proof.Machine.execInval s
  | .invalidationComplete => Sys2Proof.Machine.execInvalidationComplete s
  | .context => Sys2Proof.Machine.execContext s
  | .preempt => Sys2Proof.Machine.execPreempt s
  | .resume => Sys2Proof.Machine.execResume s
  | .serveStart => Sys2Proof.Machine.execServeStart s
  | .serveStop => Sys2Proof.Machine.execServeStop s
  | .serveResume => Sys2Proof.Machine.execServeResume s
  | .serveRefusedAction => Sys2Proof.Machine.execServeRefusedAction s
  | .checkpoint => Sys2Proof.Machine.execCheckpoint s
  | .checkpointComplete => Sys2Proof.Machine.execCheckpointComplete s
  | .restore => Sys2Proof.Machine.execRestore s
  | .program => Sys2Proof.Machine.execProgram s
  | .queueProgramKind => Sys2Proof.Machine.execQueueProgramKind s
  | .firnBuild => Sys2Proof.Machine.execFirnBuild s
  | .reservation => Sys2Proof.Machine.execReservation s
  | .rdcRecallReturn => Sys2Proof.Machine.execRdcRecallReturn s
  | .powerGrant => Sys2Proof.Machine.execPowerGrant s
  | .powerInterval => Sys2Proof.Machine.execPowerInterval s
  | .kvsendReceive => Sys2Proof.Machine.execKvsendReceive s
  | .migrationLock => Sys2Proof.Machine.execMigrationLock s
  | .migrationSwitch => Sys2Proof.Machine.execMigrationSwitch s
  | .fabricRead => Sys2Proof.Machine.execFabricRead s
  | .fabricWrite => Sys2Proof.Machine.execFabricWrite s
  | .fabricAtomic => Sys2Proof.Machine.execFabricAtomic s
  | .fabricAtomicNoReturn => Sys2Proof.Machine.execFabricAtomicNoReturn s
  | .delta => Sys2Proof.Machine.execDelta s
  | .collective => Sys2Proof.Machine.execCollective s
  | .readReply => Sys2Proof.Machine.execReadReply s
  | .acknowledgement => Sys2Proof.Machine.execAcknowledgement s
  | .atomicReply => Sys2Proof.Machine.execAtomicReply s
  | .deltaAcknowledgement => Sys2Proof.Machine.execDeltaAcknowledgement s
  | .collectiveData => Sys2Proof.Machine.execCollectiveData s
  | .lost => Sys2Proof.Machine.execLost s
  | .rebuild => Sys2Proof.Machine.execRebuild s
  | .rebuildFrame => Sys2Proof.Machine.execRebuildFrame s
  | .resync => Sys2Proof.Machine.execResync s
  | .recall => Sys2Proof.Machine.execRecall s
  | .recallReply => Sys2Proof.Machine.execRecallReply s
  | .fabricTimeout => Sys2Proof.Machine.execFabricTimeout s
  | .replyCacheExpiry => Sys2Proof.Machine.execReplyCacheExpiry s
  | .scrub => Sys2Proof.Machine.execScrub s
  | .iterationBegin => Sys2Proof.Machine.execIterationBegin s
  | .planEntryLaunch => Sys2Proof.Machine.execPlanEntryLaunch s
  | .retirement => Sys2Proof.Machine.execRetirement s
  | .hbmChannelRetrain => Sys2Proof.Machine.execHbmChannelRetrain s
  | .fabricPortRetrain => Sys2Proof.Machine.execFabricPortRetrain s
  | .pldmFirmwareUpdate => Sys2Proof.Machine.execPldmFirmwareUpdate s
  | .pldmMonitoring => Sys2Proof.Machine.execPldmMonitoring s
  | .spdmRequest => Sys2Proof.Machine.execSpdmRequest s
  | .boundaryScan => Sys2Proof.Machine.execBoundaryScan s
  | .logicalClockRise => Sys2Proof.Machine.execLogicalClockRise s
  | .undefinedEncoding => Sys2Proof.Machine.execUndefinedEncoding s

end Sys2Proof.Machine
end

