-- ==== Sys2Proof/Machine/Issue.lean ====
section
/-! DEFINITION. Issue: which group of a quarter issues (R33), the order of causes at a stopping point (R270, R273), and
one move of the machine. -/

namespace Sys2Proof.Machine

/-- Waits that a move of the stream looks at again; the others end with what they wait for. -/
def Wait.retries : Wait → Bool
  | .tag | .regroup | .regroupJoin | .specialise _ _ => false
  | _ => true

/-- A stream of a group that may issue its word, or has a wait or a stop that may end. -/
def Group.mayIssue (gr : Group) (ln : Bool) : Bool :=
  gr.status == .active && (gr.stopping.isSome || ((!ln || gr.run.isSome) &&
    (match (if ln then gr.waitL else gr.waitS) with
     | none => true
     | some w => w.retries)))

/-- A word that waits looks again at what it waits for, without being fetched or checked anew (R214). None is for a wait whose
word has to be run again. -/
def State.rewait (s : State) (g : GRef) (gr : Group) (ln : Bool) : Option State :=
  match (if ln then gr.waitL else gr.waitS) with
  | some .lsync => some (if gr.blocksEnded then s.scalarDone g gr.copyBack 1 else s)
  | some .exitWait => some (s.tryExit g gr)
  | some (.swrGf x) => some (if gr.blocksEnded then s.scalarDone g (gr.setGf x) 1 else s)
  | some (.fence kind ce kv co) => some (s.fenceTry g gr kind ce kv co)
  | some (.timeline c n) => some (s.waittl g gr c n)
  | some (.barrier _ _ _) | some (.ring _ _ _ _) => some (s.wakeObject g)
  | some (.join h b) => some (s.joinGrid g gr h b)
  | some (.power b) =>
    if ln then none
    else some (if gr.grant.isSome then s.scalarDone g ({ gr with lastMma := s.clock }.setS b gr.pwrgrant) 1 else s)
  | some .spill => some (s.scalarDone g gr 1)
  | some (.waitp p limit n) =>
    let s := s.drainOf .domain g
    match s.group g with
    | none => some s
    | some gr => some (if gr.pathCount p ≤ limit then s.laneDone g (gr.covered p) n else s)
  | _ => none

/-- A group's place in the round of equal age, after the group served last. -/
def roundKey (last : Option (Nat × Nat)) (g : GRef) : Nat :=
  match last with
  | none => g.slot * 32 + g.gid
  | some (sl, gd) => let k := g.slot * 32 + g.gid; if sl * 32 + gd < k then k else k + 1024

/-- The groups of a quarter that may issue, in the order of R33. -/
def State.ready (s : State) (core quarter : Nat) (ln : Bool) : List (GRef × Group) :=
  let last := aget (if ln then (s.core core).lastL else (s.core core).lastS) quarter
  sortBy (fun a b => decide (a.2.age < b.2.age) ||
      (a.2.age == b.2.age && decide (roundKey last a.1 < roundKey last b.1)))
    (s.groups.filter (fun p => p.1.core == core && !p.1.isHandler && p.2.quarter == quarter && p.2.mayIssue ln))

/-- Note the group that a quarter served. -/
def State.served (s : State) (g : GRef) (quarter : Nat) (ln : Bool) : State :=
  s.onCore g.core (fun c =>
    if ln then { c with lastL := aput c.lastL quarter (g.slot, g.gid) }
    else { c with lastS := aput c.lastS quarter (g.slot, g.gid) })

/-- Lane accesses of blocks that an `LSYNC` has waited for precede the scalar stream's next accesses (R42). -/
def Group.owesAccess (gr : Group) : Bool :=
  gr.out.any (fun o => decide (o.id < gr.syncId) && o.units.any (fun u => !u.isHost))

/-- What keeps a group from issuing: its team is to be parked, or fabric requests hold its lane stream (R279, R289, R295). -/
def State.heldUp (s : State) (g : GRef) (gr : Group) (ln : Bool) : Bool :=
  (ln && s.laneHeld gr) ||
  (match s.team (s.teamRefOf g) with
   | some t => t.parkWanted.isSome
   | none => true)

/-- The group has just been stopped by the word it issued; a cause that takes its default may have ended it (R270). -/
def State.stopped (s : State) (g : GRef) : Bool :=
  match s.group g with
  | some gr => gr.status != .active || gr.stopping.isSome
  | none => true

/-- After a scalar word: a pending engine fault is taken at the boundary before it, unless the word traps itself (R270,
R273). -/
def State.engineFirst (s : State) (g : GRef) (o : Host.Outcome State Fault Refusal) :
    Host.Outcome State Fault Refusal :=
  match s.group g with
  | none => o
  | some gr =>
    if gr.eng.isEmpty then o else
    match o with
    | .next s' => if s'.stopped g then .next s' else .next (s.takeEngine g)
    | x => x

/-- A trap of either stream. -/
def State.trapWord (s : State) (g : GRef) (ln : Bool) (cause : Cause) (info addr : Nat) : State :=
  if ln then s.trapL g cause info addr 0 else s.trapS g cause info addr

/-- The stream's word has been run; no word is at work any more. -/
def settleCur (o : Host.Outcome State Fault Refusal) : Host.Outcome State Fault Refusal :=
  match o with
  | .next s => .next { s with cur := none }
  | x => x

/-- The word at a group's stopping point, with the causes in the order of R270. -/
def State.issueAt (s : State) (g : GRef) (gr : Group) (ln : Bool) : Host.Outcome State Fault Refusal :=
  let f := s.fetchWord g gr ln
  match f.1 with
  | .trap cause info addr => .next (f.2.trapWord g ln cause info addr)
  | .word i =>
    let pc := if ln then gr.lpc else gr.spc
    let c := f.2.ctxOf g
    let skip := (if ln then gr.skipL else gr.skipS).bp || (if ln then gr.waitL else gr.waitS).isSome
    match (if skip || g.isHandler then none else f.2.bpHit c ln pc.toNat) with
    | some n => .next ((f.2.traceGroup g 5 n 0 (f.2.origWord c ln pc)).trapWord g ln .breakpoint 1 0)
    | none =>
      let o := settleCur (exec i { f.2 with cur := some (if ln then .lane g else .scalar g) })
      if ln then o else f.2.engineFirst g o

/-- A stream of a group goes on: the end of its wait is looked for, or its word issues. -/
def State.goOn (s : State) (g : GRef) (gr : Group) (ln : Bool) : Host.Outcome State Fault Refusal :=
  match s.rewait g gr ln with
  | some s' => if ln then .next s' else s.engineFirst g (.next s')
  | none => s.issueAt g gr ln

/-- A group issues the word of one of its streams. -/
def State.issue (s : State) (g : GRef) (ln : Bool) : Host.Outcome State Fault Refusal :=
  match s.group g with
  | none => .next s
  | some gr =>
    match gr.stopping with
    | some t => .next (s.tryStop g t)
    | none =>
      if !gr.mayIssue ln || s.heldUp g gr ln then .next s
      else if !ln && gr.owesAccess then
        let s := s.drainOf .domain g
        match s.group g with
        | none => .next s
        | some gr => if gr.owesAccess then .next (s.holdS g gr .locked) else s.goOn g gr ln
      else s.goOn g gr ln

/-- A quarter issues from the oldest of its groups that is ready; which are ready in a clock depends on timing, so the
number of older ones passed over is free (R33; DESIGN CHOICE, log entry 1). -/
def State.issueQuarter (s : State) (core quarter : Nat) (ln : Bool) : Host.Outcome State Fault Refusal :=
  let ready := s.ready core quarter ln
  let d := s.pick ready.length
  match ready[d.1]? with
  | none => .next s
  | some p => (d.2.served p.1 quarter ln).issue p.1 ln

/-- The next word of a queue's program (R328). -/
def State.queueStep (s : State) (slot : Nat) : Host.Outcome State Fault Refusal :=
  match s.queueTurn slot with
  | .idle => .next s
  | .settle s => .next s
  | .run i s => settleCur (exec i { s with cur := some (.queue slot) })

/-- One move of the machine. After a FATAL error only a reset acts (R307); while the device is held in reset, only its end,
the boundary scan and configuration requests do (R313, R342). -/
def State.move (s : State) (m : Move) : Host.Outcome State Fault Refusal :=
  if s.fatal && m != .event .powerOnReset then .next s
  else if s.inReset && m != .event .powerOnReset && m != .event .boundaryScan && m != .event .configurationRequest then .next s else
  match m with
  | .scalar core q => s.issueQuarter core q false
  | .lane core q => s.issueQuarter core q true
  | .handlerScalar core => s.issue (handlerGroup core) false
  | .handlerLane core => s.issue (handlerGroup core) true
  | .queueWord slot => s.queueStep slot
  | .event i => settleCur (exec i { s with cur := none })

/-- The next move of the schedule (DESIGN CHOICE, log entry 1). -/
def State.nextMove (s : State) : Move × State :=
  match s.agenda with
  | m :: ms => (m, { s with agenda := ms })
  | [] => (Config.freeMove s.tick, { s with tick := s.tick + 1 })

end Sys2Proof.Machine
end

