-- ==== Sys2Proof/Machine/Step.lean ====
section
/-! DEFINITION. One step of the machine, and the placing of one instruction where the next step runs it. -/

namespace Sys2Proof.Machine

/-- One step: the next move of the schedule. -/
def step (s : State) : Host.Outcome State Fault Refusal :=
  let m := s.nextMove
  m.2.move m.1

/-- The state with one instruction placed where the next step fetches (DESIGN CHOICE, log entry 18): a context whose tables map the
code, a line with the instruction in slot 0, a team with one group that stands at it, and a schedule whose next move
issues it; a word of a queue program stands in the program of queue slot 0. -/
def State.withFetchWord (s : State) (nbits w : Nat) : State := s.placeWord nbits w

end Sys2Proof.Machine
end

