-- ==== Sys2Proof/Safety.lean ====
section
/-! DEFINITION. What a safe state is, in the words that statements use: memories in canonical form, and the widths that
the machine gives its fields. -/

namespace Sys2Proof.Machine

/-- Device memory, host memory, and the scratch of every team are in canonical form. -/
def State.memoriesWf (s : State) : Bool :=
  s.mem.wf && s.hostMem.wf && s.teams.all (fun p => swf p.2.scratch && swf p.2.tags)

end Sys2Proof.Machine
end

