-- ==== Sys2Proof/Certificates/Slice0/Obligations.lean ====
section
/-! DEFINITION. The statements for the provers. The words that several of them use come first. -/

open Sys2Proof Sys2Proof.Machine

/-! Encoding -/

/-- Words that the spec writes out decode to the instructions that they stand for. -/
def Obligations.DecodeKnownWords : Prop :=
  (decodeScalar 0x490C1042 0).toOption = some (.sld .fold .n32 3 1 8) ∧
  (decodeScalar 0x08146FF4 0).toOption = some (.saddImm .dyn 5 6 0xFF4) ∧
  (decodeScalar 0x041461C0 0).toOption = some (.saddReg .dyn 5 6 7) ∧
  (decodeScalar 0x7804_0012 0).toOption = some (.srd .dyn 1 0x12) ∧
  (decodeScalar 0x44140000 0x100).toOption = some (.sli .dyn 5 256) ∧
  (decodeScalar 0x94001090 0).toOption = some (.coll .dyn 4 9) ∧
  (decodeLane 0x015DC00008010100_00060000 0).toOption =
    some (.iadd ⟨.fold, .always, .always, 0, 0, 0, 0, 0⟩ .n32 false 2 (.v 0) (.k 1)) ∧
  (decodeLane 0x431DC00000000000_00000000 0).toOption =
    some (.getl ⟨.dyn, .always, .always, 0, 0, 0, 0, 0⟩ 0) ∧
  (decodeQueue 0x0230000000000008).toOption = some (.qld 3 0 0 8) ∧
  (decodeQueue 0x1100340000000000).toOption = some (.qwaitv 1 0 3 0) ∧
  (decodeQueue 0x0E40080000000000).toOption = some (.qlaunch 4 2 0 0) ∧
  (decodeQueue 0x1304000000000000).toOption = some (.qdone 4)

/-- Every well-formed word of a queue program decodes from its encoding, whatever its operands. -/
def Sys2Proof.QueueWordsRoundTrip : Prop :=
  ∀ (i : Instr) (w : Nat), i.WellFormed → encodeQueue i = some w → decodeQueue w = .ok i

/-- Every well-formed scalar word decodes from its encoding, whatever its operands. -/
def Sys2Proof.ScalarWordsRoundTrip : Prop :=
  ∀ (i : Instr) (w x : Nat), i.WellFormed → encodeScalar i = some (w, x) → decodeScalar w x = .ok i

/-- Every well-formed lane word decodes from its encoding, whatever its operands. -/
def Obligations.LaneWordsRoundTrip : Prop :=
  ∀ (i : Instr) (w x : Nat), i.WellFormed → encodeLane i = some (w, x) → decodeLane w x = .ok i

/-! Fetch and step -/

/-- The instruction of a line's slot, by the bytes of the slot: a one-slot scalar word, a scalar word that its two immediate
slots follow, a one-slot lane word, and a lane word that its extension slot follows. -/
def Sys2Proof.LineSlotsDecode : Prop :=
  ∀ (s : State) (c : Nat) (xl : Xl) (hd k : Nat) (i : Instr),
    (∀ w, w = s.codeBytes c xl (8 + k * 4) 4 → isSlWord w = false → decodeScalar w 0 = .ok i →
      s.decodeAt c false xl hd k = some i) ∧
    (∀ w, w = s.codeBytes c xl (8 + k * 4) 4 → isSlWord w = true → k ≤ 27 → startMark hd (k + 1) = false →
      startMark hd (k + 2) = false → decodeScalar w (s.codeBytes c xl (8 + (k + 1) * 4) 8) = .ok i →
      s.decodeAt c false xl hd k = some i) ∧
    (∀ w, w = s.codeBytes c xl (8 + k * 12) 12 → isDoubleSlot w = false → decodeLane w 0 = .ok i →
      s.decodeAt c true xl hd k = some i) ∧
    (∀ w e, w = s.codeBytes c xl (8 + k * 12) 12 → e = s.codeBytes c xl (8 + (k + 1) * 12) 12 → isDoubleSlot w = true → k ≠ 9 →
      startMark hd (k + 1) = false → e < 2 ^ 64 → decodeLane w e = .ok i → s.decodeAt c true xl hd k = some i)

/-- An instruction stands at the stopping point of a stream: its line is fetched (`s'` is the state then), the header and
the marks are in order, the slot decodes to it, its registers lie in the allotment, and the group may issue it (R83 to R89). The
line has entered the core's instruction cache by then (R9). -/
def Sys2Proof.WordStands (s s' : State) (g : GRef) (gr : Group) (ln : Bool) (i : Instr) : Prop :=
  let pc := (if ln then gr.lpc else gr.spc).toNat
  let marks := if ln then gr.lMarks else gr.sMarks
  codeSlot ln pc < lineSlots ln ∧ codeLine ln pc < 2 ^ 56 ∧
  ∃ xl hd u, s.fetchLine (s.ctxOf g) (codeLine ln pc) = (.ok (xl, hd), u) ∧
    s' = u.fillCode g.core ln (s.ctxOf g) (codeLine ln pc) ∧
    hd.testBit 63 = s.inResidual (s.ctxOf g) (codeLine ln pc) ∧ headerOk ln hd = true ∧ startMark hd (codeSlot ln pc) = true ∧
    (marks = true → targetMark ln hd (codeSlot ln pc) = true) ∧
    s'.decodeAt (s.ctxOf g) ln xl hd (codeSlot ln pc) = some i ∧
    i.regTop ≤ gr.allot ∧ badHead gr.spc i = false ∧ i.roleCause g.isHandler gr.role = none

/-- No address breakpoint stops the stream at its word: none matches, the word has just been passed or waits, or the code is a
handler's (R214, R270, R334). -/
def Sys2Proof.NoBreakpoint (s : State) (g : GRef) (gr : Group) (ln : Bool) : Prop :=
  (if ln then gr.skipL else gr.skipS).bp = true ∨ (if ln then gr.waitL else gr.waitS).isSome = true ∨ g.isHandler = true ∨
    s.bpHit (s.ctxOf g) ln (if ln then gr.lpc else gr.spc).toNat = none

/-- Where the group that a quarter issues from stands at an instruction, and does not wait at it or stop, a step is that instruction: beside it the quarter
notes whom it served, the line is fetched, no word is at work afterwards, and a pending engine fault is taken at a scalar
word that does not itself stop the group. -/
def Sys2Proof.StepRunsStreamWord : Prop :=
  ∀ (s s1 s2 : State) (core q : Nat) (ln : Bool) (rest : List Move) (g : GRef) (gr : Group) (i : Instr),
    s.agenda = (if ln then Move.lane core q else .scalar core q) :: rest → s.fatal = false → s.inReset = false →
    (({ s with agenda := rest }).ready core q ln)[(({ s with agenda := rest }).pick
      (({ s with agenda := rest }).ready core q ln).length).1]? = some (g, gr) →
    s1 = ((({ s with agenda := rest }).pick (({ s with agenda := rest }).ready core q ln).length).2).served g q ln →
    s1.group g = some gr → gr.mayIssue ln = true → gr.stopping = none → s1.heldUp g gr ln = false →
    (ln = false → gr.owesAccess = false) → s1.rewait g gr ln = none →
    WordStands s1 s2 g gr ln i → NoBreakpoint s2 g gr ln →
    step s =
      (let o := settleCur (exec i { s2 with cur := some (if ln then .lane g else .scalar g) })
       if ln then o else s2.engineFirst g o)

/-- A step of a resident queue whose program stands at a word runs that word, and counts it. -/
def Sys2Proof.StepRunsQueueWord : Prop :=
  ∀ (s : State) (slot : Nat) (rest : List Move) (q : Queue) (p : Packet) (i : Instr),
    s.agenda = .queueWord slot :: rest → s.fatal = false → s.inReset = false →
    s.queue slot = some q → q.current = some p → q.resident = true → q.waitv = none → p.waitOther = false → q.prog ≠ 0 →
    q.ran < wordLimit → decodeQueue (q.words.getD q.pc 0) = .ok i →
    step s = settleCur (exec i { ({ s with agenda := rest }).setQueue slot { q with ran := q.ran + 1 } with
      cur := some (.queue slot) })

/-- A step of the device's own is its instruction, with no word at work. -/
def Sys2Proof.StepRunsDeviceStep : Prop :=
  ∀ (s : State) (i : Instr) (rest : List Move), s.agenda = .event i :: rest → s.fatal = false → s.inReset = false →
    step s = settleCur (exec i { s with agenda := rest, cur := none })

/-- After a FATAL error nothing acts but a reset: every other step leaves the whole machine, the schedule apart, as it is
(R307). -/
def Obligations.FatalStopsEveryStep : Prop :=
  ∀ (s : State) (m : Move), s.fatal = true → m ≠ .event .powerOnReset → s.nextMove.1 = m →
    step s = .next s.nextMove.2 ∧ s.nextMove.2.fatal = true ∧ s.nextMove.2.groups = s.groups ∧
      s.nextMove.2.mem = s.mem ∧ s.nextMove.2.teams = s.teams ∧ s.nextMove.2.queues = s.queues

/-! Reset -/

/-- What R23 says of the machine when the endpoint comes up, and the values after reset of Tables HQ-9 to HQ-11 and OBS-1,
in the state after reset. -/
def Obligations.ResetLeaves : Prop :=
  State.reset.ctxs = [] ∧ State.reset.teams = [] ∧ State.reset.groups = [] ∧ State.reset.grids = [] ∧
  (∀ n, (State.reset.core n).act = none ∧ (State.reset.core n).trapQ = [] ∧ (State.reset.core n).staging = [] ∧
    (State.reset.core n).inService = true) ∧
  State.reset.l1 = [] ∧ State.reset.rdc = [] ∧ State.reset.excl = [] ∧ State.reset.tlb = [] ∧ State.reset.firn = [] ∧
  State.reset.recs = [] ∧ State.reset.insts = [] ∧
  State.reset.ctl.fto = 20 ∧ State.reset.ctl.fretry = 3 ∧ State.reset.ctl.setTab = 0 ∧ State.reset.ctl.setLen = 0 ∧
  State.reset.ctl.joined = false ∧ State.reset.ctl.rank = 0 ∧
  (∀ n, (State.reset.queue n = none)) ∧ (∀ n, aget State.reset.banks n = none) ∧ State.reset.endpointUp = false

/-- The memories of the state after reset are in canonical form. -/
def Obligations.ResetMemoriesCanonical : Prop := State.reset.memoriesWf = true

/-- A write of n bytes keeps a memory in canonical form, holds the bytes written, and leaves every other byte alone. -/
def Obligations.MemoryWriteLaw : Prop :=
  ∀ (m : Memory) (a n x : Nat), m.wf = true →
    Memory.wf (ssetLE m a n x) = true ∧ sgetLE (ssetLE m a n x) a n = x % 256 ^ n ∧
    ∀ b, (b < a ∨ a + n ≤ b) → sget (ssetLE m a n x) b = sget m b

/-! Scalar words -/

/-- The word at work is one of the scalar stream of a group that stands so. -/
def Sys2Proof.ScalarAt (s : State) (g : GRef) (gr : Group) : Prop := s.cur = some (.scalar g) ∧ s.group g = some gr

/-- The two encodings of each scalar ALU form of Table REF-5: the result, computed exactly and taken modulo 2^64, is
written to the destination (s0 discards it), and the stream goes on at the next slot. -/
def Obligations.ScalarArithmeticResults : Prop :=
  ∀ (s : State) (g : GRef) (gr : Group) (bt : Bt) (d a b : SReg) (imm : BitVec 12) (n : Fin 64), ScalarAt s g gr →
    let x := gr.sreg a
    let y := gr.sreg b
    let v : W64 := imm.signExtend 64
    let put (r : W64) := Host.Outcome.next (s.scalarDone g (gr.setS d r) 1)
    exec (.saddReg bt d a b) s = put (BitVec.ofNat 64 (x.toNat + y.toNat)) ∧
    exec (.saddImm bt d a imm) s = put (BitVec.ofNat 64 (x.toNat + v.toNat)) ∧
    exec (.ssubReg bt d a b) s = put (BitVec.ofInt 64 (x.toInt - y.toInt)) ∧
    exec (.ssubImm bt d a imm) s = put (BitVec.ofInt 64 (x.toInt - v.toInt)) ∧
    exec (.smulReg bt d a b) s = put (BitVec.ofInt 64 (x.toInt * y.toInt)) ∧
    exec (.smulImm bt d a imm) s = put (BitVec.ofInt 64 (x.toInt * v.toInt)) ∧
    exec (.sandReg bt d a b) s = put (x &&& y) ∧ exec (.sandImm bt d a imm) s = put (x &&& v) ∧
    exec (.sorReg bt d a b) s = put (x ||| y) ∧ exec (.sorImm bt d a imm) s = put (x ||| v) ∧
    exec (.sxorReg bt d a b) s = put (x ^^^ y) ∧ exec (.sxorImm bt d a imm) s = put (x ^^^ v) ∧
    exec (.sminImm bt d a imm) s = put (BitVec.ofInt 64 (min x.toInt v.toInt)) ∧
    exec (.smaxImm bt d a imm) s = put (BitVec.ofInt 64 (max x.toInt v.toInt)) ∧
    exec (.sminReg bt false d a b) s = put (BitVec.ofInt 64 (min x.toInt y.toInt)) ∧
    exec (.smaxReg bt false d a b) s = put (BitVec.ofInt 64 (max x.toInt y.toInt)) ∧
    exec (.sminReg bt true d a b) s = put (BitVec.ofNat 64 (min x.toNat y.toNat)) ∧
    exec (.smaxReg bt true d a b) s = put (BitVec.ofNat 64 (max x.toNat y.toNat)) ∧
    exec (.sshlReg bt d a b) s = put (BitVec.ofNat 64 (x.toNat * 2 ^ (y.toNat % 64))) ∧
    exec (.sshlImm bt d a n) s = put (BitVec.ofNat 64 (x.toNat * 2 ^ n.val)) ∧
    exec (.sshrReg bt d a b) s = put (BitVec.ofNat 64 (x.toNat / 2 ^ (y.toNat % 64))) ∧
    exec (.sshrImm bt d a n) s = put (BitVec.ofNat 64 (x.toNat / 2 ^ n.val)) ∧
    exec (.ssarReg bt d a b) s = put (BitVec.ofInt 64 (x.toInt.fdiv (2 ^ (y.toNat % 64)))) ∧
    exec (.ssarImm bt d a n) s = put (BitVec.ofInt 64 (x.toInt.fdiv (2 ^ n.val)))

/-- Conditions of Table ASM-5 over 64 bits. -/
def Sys2Proof.condMeans (c : SCond) (x y : W64) : Prop :=
  match c with
  | .eq => x = y
  | .ne => x ≠ y
  | .lt => x.toInt < y.toInt
  | .le => x.toInt ≤ y.toInt
  | .gt => y.toInt < x.toInt
  | .ge => y.toInt ≤ x.toInt
  | .ltu => x.toNat < y.toNat
  | .leu => x.toNat ≤ y.toNat
  | .gtu => y.toNat < x.toNat
  | .geu => y.toNat ≤ x.toNat

/-- `SCMP` in both forms writes 1 to its condition register where the condition holds, and 0 otherwise (R445). -/
def Sys2Proof.ScalarCompareResults : Prop :=
  ∀ (s : State) (g : GRef) (gr : Group) (bt : Bt) (cond : SCond) (a b : SReg) (i : Fin 64) (c : CReg), ScalarAt s g gr →
    (∃ r : Bool, (r = true ↔ condMeans cond (gr.sreg a) (gr.sreg b)) ∧
      exec (.scmp bt cond a b c) s = .next (s.scalarDone g (gr.setC c r) 1)) ∧
    (∃ r : Bool, (r = true ↔ condMeans cond (gr.sreg a) (BitVec.ofNat 64 i.val)) ∧
      exec (.scmpImm bt cond a i c) s = .next (s.scalarDone g (gr.setC c r) 1))

/-- The three forms of `SMOV` (R453). -/
def Obligations.ScalarMoveForms : Prop :=
  ∀ (s : State) (g : GRef) (gr : Group) (bt : Bt) (d a : SReg) (c : CReg), ScalarAt s g gr →
    exec (.smov bt d a) s = .next (s.scalarDone g (gr.setS d (gr.sreg a)) 1) ∧
    exec (.smovFromC bt d c) s = .next (s.scalarDone g (gr.setS d (if gr.creg c then 1 else 0)) 1) ∧
    (gr.sreg a ≠ 0 → exec (.smovToC bt c a) s = .next (s.scalarDone g (gr.setC c true) 1)) ∧
    (gr.sreg a = 0 → exec (.smovToC bt c a) s = .next (s.scalarDone g (gr.setC c false) 1)) ∧
    (∀ D A B fn : Fin 64, (decodeScalar (0x40000000 + D.val * 2 ^ 18 + A.val * 2 ^ 12 + B.val * 2 ^ 6 + fn.val) 0).toOption =
      if B.val ≠ 0 then none
      else if fn.val = 0 then some (.smov .dyn D A)
      else if h : fn.val = 1 ∧ A.val < 8 then some (.smovFromC .dyn D ⟨A.val, h.2⟩)
      else if h : fn.val = 2 ∧ D.val < 8 then some (.smovToC .dyn ⟨D.val, h.2⟩ A)
      else none)

/-- `SSEL`, `SLI`, `SNOP`, `YIELD`, `KSET` and `YGET`. `SLI` is three slots long. -/
def Sys2Proof.ScalarSelectAndMoveResults : Prop :=
  ∀ (s : State) (g : GRef) (gr : Group) (bt : Bt) (d a b : SReg) (c : CReg) (imm : W64) (k : KReg) (y : YReg),
    ScalarAt s g gr →
    exec (.ssel bt d a b c) s =
      .next (s.scalarDone g (gr.setS d (if gr.creg c = true then gr.sreg a else gr.sreg b)) 1) ∧
    exec (.sli bt d imm) s = .next (s.scalarDone g (gr.setS d imm) 3) ∧
    exec (.snop bt) s = .next (s.scalarDone g gr 1) ∧
    exec (.yield bt) s = .next (s.scalarDone g gr 1) ∧
    exec (.kset bt k a) s = .next (s.scalarDone g { gr with k := sset gr.k k.val (gr.sreg a) } 1) ∧
    exec (.yget bt d y) s = .next (s.scalarDone g (gr.setS d (sget gr.yS y.val)) 1)

/-- No live counter of a core that takes an event wraps, with INT set, on n more of them (R337, R338). -/
def Sys2Proof.NoWrap (s : State) (core ev n : Nat) : Prop :=
  ∀ x ∈ (s.core core).counters, x.2.ctl.getLsbD 15 = true → x.2.ctl.toNat % 256 = ev →
    x.2.value.toNat + n < 2 ^ 48 ∨ x.2.ctl.getLsbD 17 = false

/-- Everything but the groups, and the counters of a core: the memory of both kinds, the teams, and every other part of
the package that holds architectural state. -/
def Sys2Proof.SameButGroups (s t : State) : Prop :=
  t.mem = s.mem ∧ t.hostMem = s.hostMem ∧ t.poison = s.poison ∧ t.leases = s.leases ∧ t.l1 = s.l1 ∧ t.rdc = s.rdc ∧
  t.upart = s.upart ∧ t.excl = s.excl ∧ t.remoteHolders = s.remoteHolders ∧ t.code = s.code ∧ t.icache = s.icache ∧
  t.holds = s.holds ∧ t.frameOwner = s.frameOwner ∧ t.tlb = s.tlb ∧ t.sends = s.sends ∧ t.ctxs = s.ctxs ∧ t.teams = s.teams ∧ t.grids = s.grids ∧
  t.queues = s.queues ∧ t.obs = s.obs ∧ t.banks = s.banks ∧ t.msgs = s.msgs ∧ t.insts = s.insts ∧ t.recs = s.recs ∧
  t.pools = s.pools ∧ t.fabTags = s.fabTags ∧ t.fabOut = s.fabOut ∧ t.deltas = s.deltas ∧ t.firn = s.firn ∧
  ∀ n, (t.core n).trapQ = (s.core n).trapQ ∧ (t.core n).act = (s.core n).act ∧ (t.core n).staging = (s.core n).staging ∧
    (t.core n).pts = (s.core n).pts

/-- Everything a group holds but its registers of the scalar side and its place in the scalar stream. -/
def Sys2Proof.SameLaneSide (gr gr' : Group) : Prop :=
  gr'.v = gr.v ∧ gr'.p = gr.p ∧ gr'.yL = gr.yL ∧ gr'.exmL = gr.exmL ∧ gr'.fmtL = gr.fmtL ∧ gr'.gfL = gr.gfL ∧
  gr'.remap = gr.remap ∧ gr'.stack = gr.stack ∧ gr'.lpc = gr.lpc ∧ gr'.run = gr.run ∧ gr'.laneQ = gr.laneQ ∧
  gr'.spilled = gr.spilled ∧ gr'.waitL = gr.waitL ∧ gr'.out = gr.out ∧ gr'.alt = gr.alt ∧ gr'.look = gr.look ∧
  gr'.mx = gr.mx ∧ gr'.obj = gr.obj ∧ gr'.trap = gr.trap ∧ gr'.eng = gr.eng ∧ gr'.status = gr.status ∧
  gr'.tagLeft = gr.tagLeft ∧ gr'.laneBase = gr.laneBase ∧ gr'.role = gr.role ∧ gr'.allot = gr.allot

/-- The special registers of the scalar side: the copies of y, EXM, FMT and GF. -/
def Sys2Proof.SameScalarSpecials (gr gr' : Group) : Prop :=
  gr'.yS = gr.yS ∧ gr'.exmS = gr.exmS ∧ gr'.fmtS = gr.fmtS ∧ gr'.gfS = gr.gfS

/-- Words that write one scalar register, with it. -/
def Sys2Proof.Instr.scalarDest : Instr → Option SReg
  | .saddReg _ d _ _ | .ssubReg _ d _ _ | .smulReg _ d _ _ | .sdivReg _ _ _ d _ _ | .sandReg _ d _ _ | .sorReg _ d _ _
  | .sxorReg _ d _ _ | .sshlReg _ d _ _ | .sshrReg _ d _ _ | .ssarReg _ d _ _ | .sminReg _ _ d _ _ | .smaxReg _ _ d _ _
  | .saddImm _ d _ _ | .ssubImm _ d _ _ | .smulImm _ d _ _ | .sdivImm _ d _ _ | .sandImm _ d _ _ | .sorImm _ d _ _
  | .sxorImm _ d _ _ | .sshlImm _ d _ _ | .sshrImm _ d _ _ | .ssarImm _ d _ _ | .sminImm _ d _ _ | .smaxImm _ d _ _
  | .ssel _ d _ _ _ | .smov _ d _ | .smovFromC _ d _ | .sli _ d _ | .yget _ d _ => some d
  | _ => none

/-- Words that write one condition register, with it. -/
def Sys2Proof.Instr.condDest : Instr → Option CReg
  | .scmp _ _ _ _ c | .scmpImm _ _ _ _ c | .smovToC _ c _ => some c
  | _ => none

/-- The frame of the scalar words that write one register: nothing but that register and the stream's own place
changes in the group; no other group, no memory and nothing else of the package changes, except that a counter of the
core counts the word, and where such a counter wraps with INT set its trace record and message are written. -/
def Obligations.ScalarRegisterFrame : Prop :=
  ∀ (s t : State) (g : GRef) (gr : Group) (i : Instr), ScalarAt s g gr →
    i.scalarDest.isSome = true ∨ i.condDest.isSome = true → exec i s = .next t →
    (∃ gr', t.group g = some gr' ∧ SameLaneSide gr gr' ∧ SameScalarSpecials gr gr' ∧ gr'.k = gr.k ∧
      (∀ r : SReg, i.scalarDest ≠ some r → gr'.sreg r = gr.sreg r) ∧ gr'.sreg 0 = 0 ∧
      (∀ c : CReg, i.condDest ≠ some c → gr'.creg c = gr.creg c)) ∧
    (∀ g', g' ≠ g → t.group g' = s.group g') ∧ t.teams = s.teams ∧ t.queues = s.queues ∧ t.grids = s.grids ∧
    (NoWrap s g.core 0x02 1 → SameButGroups s t)

/-! Scalar memory -/

/-- No partial of any line is gathered or held elsewhere, and no home-side watchpoint is set: what lies at a line's home
is the line, and a write there writes nothing else. -/
def Sys2Proof.PlainHomes (s : State) : Prop :=
  s.upart = [] ∧ s.remoteHolders = [] ∧ ∀ p ∈ s.obs, p.2.hwPages = []

/-- No page is locked for a move or a rebuild: a write goes where it is addressed. -/
def Sys2Proof.NothingLocked (s : State) : Prop := s.migrations = [] ∧ s.rebuilds = []

/-- No group waits on an object or on a tag. -/
def Sys2Proof.NoObjectWaits (s : State) : Prop := ∀ p ∈ s.groups, p.2.waitsOnObject = false ∧ p.2.tagPend = []

/-- The core holds no leased copy of a line, and its home is on the core's own die. -/
def Sys2Proof.NoCopy (s : State) (core line : Nat) : Prop :=
  dieOfPa (line * 128) = coreDie core ∧ ∀ c ∈ s.l1, c.holder ≠ core ∨ c.line ≠ line

/-- A value of n bytes as `SLD` of a size widens it. -/
def Sys2Proof.sldMeans (size : SSize) (x : Nat) : W64 :=
  match size with
  | .i8 => BitVec.signExtend 64 (BitVec.ofNat 8 x)
  | .i16 => BitVec.signExtend 64 (BitVec.ofNat 16 x)
  | .i32 => BitVec.signExtend 64 (BitVec.ofNat 32 x)
  | _ => BitVec.ofNat 64 x

/-- `SLD` (R148, R450): the address is sA plus the signed offset; an access that its checks refuse traps at the word; one
that they pass writes the bytes there, widened by the size, from host memory or from the core's view of device memory,
which for a line of which the core has no copy is the memory itself. `s1` is the state after the checks, whose translation may
fill a cache. -/
def Sys2Proof.ScalarLoadResults : Prop :=
  ∀ (s s1 : State) (g : GRef) (gr : Group) (bt : Bt) (size : SSize) (d a : SReg) (off : BitVec 9) (va : W64) (n : Nat)
    (r : Except Meet Xl), ScalarAt s g gr → va = gr.sreg a + off.signExtend 64 → n = size.bytes →
    s.checkGlobal (s.ctxOf g) va.toNat n n true false true (!gr.skipS.wp) (some g.core) (s.teamIdOf g) = (r, s1) →
    (∀ m, r = .error m → exec (.sld bt size d a off) s = .next (s1.trapS g m.cause m.info va.toNat)) ∧
    (∀ xl, r = .ok xl → xl.host = true →
      exec (.sld bt size d a off) s =
        .next (s1.scalarDone g (gr.setS d (sldMeans size (sgetLE s1.hostMem xl.pa n))) 1)) ∧
    (∀ xl, r = .ok xl → xl.host = false →
      exec (.sld bt size d a off) s = .next ((s1.coreGet g xl.pa n).2.scalarDone g
        (gr.setS d (sldMeans size (s1.coreGet g xl.pa n).1)) 1)) ∧
    (∀ xl : Xl, r = .ok xl → PlainHomes s1 → NoCopy s1 g.core (lineOf xl.pa) → NoWrap s1 g.core 0x06 1 → xl.pa % n = 0 →
      (s1.coreGet g xl.pa n).1 = sgetLE s1.mem xl.pa n ∧ (s1.coreGet g xl.pa n).2.mem = s1.mem)

/-- `SST` (R148, R450) completes: the low bytes of sD stand at the address, every other byte of the memory and of the
host's is as before, and no register changes. On a page locked for a move, or behind accesses that such a page held, the stream
waits; a refused access traps. -/
def Sys2Proof.ScalarStoreResults : Prop :=
  ∀ (s s1 : State) (g : GRef) (gr : Group) (bt : Bt) (size : SSize) (d a : SReg) (off : BitVec 9) (va : W64) (n : Nat)
    (r : Except Meet Xl), ScalarAt s g gr → va = gr.sreg a + off.signExtend 64 → n = size.bytes →
    s.checkGlobal (s.ctxOf g) va.toNat n n false true true (!gr.skipS.wp) (some g.core) (s.teamIdOf g) = (r, s1) →
    (∀ m, r = .error m → exec (.sst bt size d a off) s = .next (s1.trapS g m.cause m.info va.toNat)) ∧
    (∀ xl, r = .ok xl → xl.host = false → s1.mustHold (.scalar g) xl.pa = true →
      exec (.sst bt size d a off) s = .next ((s1.hold (.scalar g)).holdS g gr .locked)) ∧
    (∀ xl : Xl, s1.locked xl.pa = true → s1.mustHold (.scalar g) xl.pa = true) ∧
    (∀ xl, r = .ok xl → xl.host = true → NoObjectWaits s1 → NoWrap s1 g.core 0x02 1 → ∃ t, exec (.sst bt size d a off) s = .next t ∧
      sgetLE t.hostMem xl.pa n = (gr.sreg d).toNat % 256 ^ n ∧ t.mem = s1.mem ∧
      (∀ b, b < xl.pa ∨ xl.pa + n ≤ b → sget t.hostMem b = sget s1.hostMem b) ∧
      t.group g = some (gr.atS (nextSPc gr.spc 1) false)) ∧
    (∀ xl, r = .ok xl → xl.host = false → s1.mustHold (.scalar g) xl.pa = false → xl.mor = false → PlainHomes s1 →
      NoObjectWaits s1 → NoWrap s1 g.core 0x02 1 → ∃ t, exec (.sst bt size d a off) s = .next t ∧
        sgetLE t.mem xl.pa n = (gr.sreg d).toNat % 256 ^ n ∧ t.hostMem = s1.hostMem ∧
        (∀ b, b < xl.pa ∨ xl.pa + n ≤ b → sget t.mem b = sget s1.mem b) ∧
        t.group g = some (gr.atS (nextSPc gr.spc 1) false) ∧ (∀ g', g' ≠ g → t.group g' = s.group g'))

/-- `SATOM` (R442): one unit reads the old value, stores the operation's result with the operand in sB and the comparand,
and the old value goes to sB, zero-extended; every other byte and register is as before. -/
def Sys2Proof.ScalarAtomicResults : Prop :=
  ∀ (s s1 : State) (g : GRef) (gr : Group) (bt : Bt) (op : AOp) (w : AWidth) (a b : SReg) (c : Fin 16) (cs : SReg)
    (r : Except Meet Xl), ScalarAt s g gr → cs.val = c.val →
    s.checkGlobal (s.ctxOf g) (gr.sreg a).toNat w.bytes w.bytes true true false (!gr.skipS.wp) (some g.core) (s.teamIdOf g) =
      (r, s1) →
    (∀ m, r = .error m → exec (.satom bt op w a b c) s = .next (s1.trapS g m.cause m.info (gr.sreg a).toNat)) ∧
    (∀ xl, r = .ok xl → s1.mustHold (.scalar g) xl.pa = true →
      exec (.satom bt op w a b c) s = .next ((s1.hold (.scalar g)).holdS g gr .locked)) ∧
    (∀ xl old, r = .ok xl → s1.mustHold (.scalar g) xl.pa = false → xl.mor = false → PlainHomes s1 → NoObjectWaits s1 →
      NoWrap s1 g.core 0x02 1 → old = sgetLE s1.mem xl.pa w.bytes → ∃ t, exec (.satom bt op w a b c) s = .next t ∧
        sgetLE t.mem xl.pa w.bytes =
          op.apply w old ((gr.sreg b).toNat % 2 ^ w.bits) ((gr.sreg cs).toNat % 2 ^ w.bits) % 256 ^ w.bytes ∧
        (∀ k, k < xl.pa ∨ xl.pa + w.bytes ≤ k → sget t.mem k = sget s1.mem k) ∧
        t.group g = some ((gr.setS b (BitVec.ofNat 64 old)).atS (nextSPc gr.spc 1) false) ∧
        (∀ g', g' ≠ g → t.group g' = s.group g'))

/-- The operations of Table ASM-11 on values of a width (R346): the integer ones exactly, `.CAS` with its comparand. -/
def Sys2Proof.AtomicOperations : Prop :=
  ∀ (w : AWidth) (old x cmp : Nat), old < 2 ^ w.bits → x < 2 ^ w.bits →
    AOp.apply .add w old x cmp = (old + x) % 2 ^ w.bits ∧
    (BitVec.ofNat w.bits (AOp.apply .mins w old x cmp)).toInt =
      min (BitVec.ofNat w.bits old).toInt (BitVec.ofNat w.bits x).toInt ∧
    (BitVec.ofNat w.bits (AOp.apply .maxs w old x cmp)).toInt =
      max (BitVec.ofNat w.bits old).toInt (BitVec.ofNat w.bits x).toInt ∧
    AOp.apply .minu w old x cmp = min old x ∧ AOp.apply .maxu w old x cmp = max old x ∧
    AOp.apply .and w old x cmp = old &&& x ∧ AOp.apply .or w old x cmp = old ||| x ∧
    AOp.apply .xor w old x cmp = old ^^^ x ∧ AOp.apply .xch w old x cmp = x ∧
    (old = cmp → AOp.apply .cas w old x cmp = x) ∧ (old ≠ cmp → AOp.apply .cas w old x cmp = old) ∧
    ∀ op, op ≠ .fadd → AOp.apply op w old x cmp < 2 ^ w.bits

/-- A page's rights forbid an access (step 3 of Table MEM-2): R or W not granted, a host page where the access takes none, or a
write to a moraine frame without a valid entry of its set table. -/
def Sys2Proof.Denied (s : State) (x : Xl) (rd wr host : Bool) : Prop :=
  (rd = true ∧ x.r = false) ∨ (wr = true ∧ x.w = false) ∨ (x.host = true ∧ host = false) ∨
    (wr = true ∧ x.mor = true ∧ (s.setEntry x.pa).isNone = true)

/-- A frame of device memory that this package, a spare, has still to rebuild (R304). -/
def Sys2Proof.Owed (s : State) (x : Xl) : Prop := x.host = false ∧ s.unbuilt x.pa = true

/-- The order of the checks of an access to the global space (Table MEM-2): alignment, translation of the pages of its first and
last byte, permissions of both, core-side watchpoints, poison; each cause with its INFO, and none where all pass. A frame still to
be rebuilt gives REMOTE. Each translation is the one that the access has drawn among those that the tables and the cached entries
allow. -/
def Sys2Proof.AccessCheckOrder : Prop :=
  ∀ (s : State) (c va n mult : Nat) (rd wr host watch : Bool) (core : Option Nat) (team : Nat) (res res2 : Option Xl)
    (s1 s2 : State), s.translate c va core = (res, s1) →
    (∀ xl, res = some xl → (if (va + n - 1) / 65536 = va / 65536 then (some { xl with pa := xl.pa + (n - 1) }, s1)
      else s1.translate c (va + n - 1) core) = (res2, s2)) →
    let o := (s.checkSpan c va n mult rd wr host watch core team).1
    (va % mult ≠ 0 → o = .error ⟨.alignment, 0⟩) ∧
    (va % mult = 0 → res = none → o = .error ⟨.translation, 0⟩) ∧
    (va % mult = 0 → res.isSome = true → res2 = none → o = .error ⟨.translation, 0⟩) ∧
    (∀ xl xl2, va % mult = 0 → res = some xl → res2 = some xl2 →
      let denied := Denied s2 xl rd wr host ∨ Denied s2 xl2 rd wr host
      let owed := Owed s2 xl ∨ Owed s2 xl2
      let bad := rd = true ∧ xl.host = false ∧ s2.poisoned xl.pa (min n (65536 - va % 65536)) = true
      let bad2 := rd = true ∧ xl2.host = false ∧ s2.poisoned xl2.pa 1 = true
      (denied → o = .error ⟨.protection, 0⟩) ∧
      (¬ denied → owed → o = .error ⟨.remote, s2.ctl.rank⟩) ∧
      (¬ denied → ¬ owed → ∀ k, watch = true → s2.watchHit c va n rd wr = some k → o = .error ⟨.watchpoint, k⟩) ∧
      (¬ denied → ¬ owed → (watch = false ∨ s2.watchHit c va n rd wr = none) →
        (bad → o = .error ⟨.check, memBank xl.pa⟩) ∧
        (¬ bad → bad2 → o = .error ⟨.check, memBank xl2.pa⟩) ∧
        (¬ bad → ¬ bad2 → o = .ok (xl, xl2)))) ∧
    (s.checkGlobal c va n mult rd wr host watch core team).1 = o.map (·.1)

/-! Scalar control -/

/-- How a transfer whose target has been checked leaves its stream: at the target, with the marks still owed where the
line could not be read; or stopped at the transferring word by CONTROL (R85, R86). -/
def Sys2Proof.Transfers (s : State) (g : GRef) (gr : Group) (pc : W64) (call : Bool) (o : Host.Outcome State Fault Refusal) :
    Prop :=
  ∀ s1 r, s.checkTarget (s.ctxOf g) false call pc.toNat = (r, s1) →
    (r = .good → o = .next (s1.scalarJump g gr pc false)) ∧ (r = .unread → o = .next (s1.scalarJump g gr pc true)) ∧
    (r = .breach → o = .next (s1.trapS g .control 0 pc.toNat))

/-- The scalar transfers of Table REF-6 and `SLOOP`: where each goes, and its link or trip register. Near targets lie a
signed number of lines from the word's own line. -/
def Sys2Proof.ScalarTransferResults : Prop :=
  ∀ (s : State) (g : GRef) (gr : Group) (bt : Bt) (l a : SReg) (c : CReg) (inv : Bool) (off : SOff) (imm near : W64),
    ScalarAt s g gr →
    near = BitVec.ofInt 64 (((gr.spc.toNat / 32 : Nat) + off.delta.toInt) * 32 + (off.slot.val : Nat)) →
    Transfers s g gr near false (exec (.sjmp bt off) s) ∧
    Transfers s g gr imm false (exec (.sjmpFar bt imm) s) ∧
    Transfers s g (gr.setS l (nextSPc gr.spc 1)) near true (exec (.scall bt l off) s) ∧
    Transfers s g (gr.setS l (nextSPc gr.spc 3)) imm true (exec (.scallFar bt l imm) s) ∧
    Transfers s g gr (gr.sreg a) false (exec (.sret bt a) s) ∧
    (gr.creg c ≠ inv → Transfers s g gr near false (exec (.sbr bt inv c off) s)) ∧
    (gr.creg c = inv → exec (.sbr bt inv c off) s = .next (s.scalarDone g gr 1)) ∧
    (1 < (gr.sreg a).toNat → Transfers s g (gr.setS a (gr.sreg a - 1)) near false (exec (.sloop bt a off) s)) ∧
    ((gr.sreg a).toNat ≤ 1 → exec (.sloop bt a off) s = .next (s.scalarDone g (gr.setS a 0) 1))

/-- What the check of a transfer's target asks (R84, R85): a slot of the line, a line below 2^56, slot 0 for a call, and
both marks in the line's header where the line can be read. -/
def Sys2Proof.TransferTargetChecks : Prop :=
  ∀ (s : State) (c : Nat) (ln call : Bool) (pc : Nat),
    let k := if ln then pc % 16 else pc % 32
    let line := if ln then pc / 16 * 128 else pc / 32 * 128
    let slots := if ln then 10 else 30
    let o := (s.checkTarget c ln call pc).1
    (slots ≤ k ∨ 2 ^ 56 ≤ line ∨ (call = true ∧ k ≠ 0) → o = .breach) ∧
    (k < slots → line < 2 ^ 56 → (call = true → k = 0) →
      (∀ m s1, s.fetchLine c line = (.error m, s1) → o = .unread) ∧
      (∀ xl hd s1, s.fetchLine c line = (.ok (xl, hd), s1) →
        ((hd.testBit k = true ∧ hd.testBit ((if ln then 16 else 32) + k) = true) → o = .good) ∧
        (hd.testBit k = false ∨ hd.testBit ((if ln then 16 else 32) + k) = false → o = .breach)))

/-- `LRUN` puts a block with its snapshot at the tail of the lane queue (R37, R413), or traps with QUOTA; past sixteen entries the
entry is written to the sump ring, and the stream, held while it is, then goes on (R38); `LSYNC` copies
the replies, GF and EXM when every block has ended (R41); `WAITTL` goes on when the counter is reached, and `TLGET`
gives the number last issued (R461). What is not due waits. -/
def Sys2Proof.LaneBlockAndTimelineWords : Prop :=
  ∀ (s : State) (g : GRef) (gr : Group) (bt : Bt) (a : SReg) (imm : BitVec 12) (cls : TlClass), ScalarAt s g gr →
    let e : LaneEntry := { target := gr.laneBase + gr.sreg a + imm.setWidth 64, k := gr.k, fmt := gr.fmtS, exm := gr.exmS }
    let full := 16 ≤ gr.laneQ.length ∨ gr.spilled ≠ []
    (¬ full → exec (.lrun bt a imm) s = .next (s.scalarDone g { gr with laneQ := gr.laneQ ++ [e], enq := gr.enq + 1 } 1)) ∧
    (full → s.sumpFits (s.ctxOf g) 144 = true →
      exec (.lrun bt a imm) s = .next ((s.spillTo g.core (s.ctxOf g) 144 e.word).holdS g
        { gr with spilled := gr.spilled ++ [e], enq := gr.enq + 1 } .spill)) ∧
    (gr.waitS = some .spill → s.rewait g gr false = some (s.scalarDone g gr 1)) ∧
    (full → s.sumpFits (s.ctxOf g) 144 = false → exec (.lrun bt a imm) s = .next (s.trapS g .quota 1 0)) ∧
    (gr.enq ≤ gr.ended → exec (.lsync bt) s = .next (s.scalarDone g
      { gr with yS := gr.yL, gfS := gr.gfL, exmS := gr.exmL, mxSeen := gr.mxEnded, syncId := gr.nextId } 1)) ∧
    (gr.ended < gr.enq → exec (.lsync bt) s = .next (s.holdS g gr .lsync)) ∧
    ((gr.sreg a).toNat ≤ s.timeline g gr cls →
      exec (.waittl bt cls a) s = .next ((s.acquire g.core).scalarDone g gr 1)) ∧
    (s.timeline g gr cls < (gr.sreg a).toNat →
      exec (.waittl bt cls a) s = .next (s.holdS g gr (.timeline cls (gr.sreg a).toNat))) ∧
    exec (.tlget bt cls a) s = .next (s.scalarDone g (gr.setS a (BitVec.ofNat 64 (s.issued g gr cls))) 1)

/-- `SETFMT` and `SWR` of FMT write the low 32 bits of their register to the scalar-side FMT, or trap with ILLEGAL,
the trap taken in the unchanged state, for exactly the values that R123 names. -/
def Sys2Proof.FormatWriteChecks : Prop :=
  ∀ (s : State) (g : GRef) (gr : Group) (bt : Bt) (a : SReg) (f : Nat), ScalarAt s g gr →
    f = (gr.sreg a).toNat % 2 ^ 32 →
    let bad := f / 2 ^ 24 ≠ 0 ∨ 2 ≤ f / 2 ^ 8 % 4 ∨ 9 ≤ f % 16 ∨ 9 ≤ f / 2 ^ 4 % 16 ∨ 3 ≤ f / 2 ^ 13 % 8
    (¬ bad → exec (.setfmt bt a) s = .next (s.scalarDone g { gr with fmtS := BitVec.ofNat 32 f } 1) ∧
      exec (.swr bt a 0x0D) s = .next (s.scalarDone g { gr with fmtS := BitVec.ofNat 32 f } 1)) ∧
    (bad → exec (.setfmt bt a) s = .next (s.trapS g .illegal 0 0) ∧
      exec (.swr bt a 0x0D) s = .next (s.trapS g .illegal 0 0))

/-- `SRD` and `SWR` of the other special registers (R456, R457): EXM, FMT, GF and the team's registers are read; EXM is
written, GF in both copies once every block has ended, and other indices trap. -/
def Sys2Proof.SpecialRegisterAccess : Prop :=
  ∀ (s : State) (g : GRef) (gr : Group) (bt : Bt) (d : SReg) (idx : Byte), ScalarAt s g gr →
    (∀ x, s.readSpecial g gr idx.toNat = some x → idx ≠ 0x10 →
      exec (.srd bt d idx) s = .next (s.scalarDone g (gr.setS d x) 1)) ∧
    (s.readSpecial g gr idx.toNat = none → exec (.srd bt d idx) s = .next (s.trapS g .illegal 0 0)) ∧
    s.readSpecial g gr 0x0C = some (BitVec.ofNat 64 gr.exmS.toNat) ∧
    s.readSpecial g gr 0x0D = some (BitVec.ofNat 64 gr.fmtS.toNat) ∧
    s.readSpecial g gr 0x0E = some (BitVec.ofNat 64 gr.gfS.toNat) ∧
    (∃ x, s.readSpecial g gr 0x10 = some x ∧ (gr.lastNs < 2 ^ 64 → s.timeNs g.core < 2 ^ 64 → gr.lastNs ≤ x.toNat) ∧
      exec (.srd bt d 0x10) s = .next (s.scalarDone g { gr.setS d x with lastNs := x.toNat } 1)) ∧
    (∀ t, g.isHandler = false → s.team g.team = some t →
      s.readSpecial g gr 0x00 = some (BitVec.ofNat 64 g.gid) ∧ s.readSpecial g gr 0x01 = some (BitVec.ofNat 64 t.teamId) ∧
      s.readSpecial g gr 0x02 = some (BitVec.ofNat 64 t.tx) ∧ s.readSpecial g gr 0x03 = some (BitVec.ofNat 64 t.ty) ∧
      s.readSpecial g gr 0x04 = some (BitVec.ofNat 64 t.tz) ∧ s.readSpecial g gr 0x05 = some (BitVec.ofNat 64 t.grid) ∧
      s.readSpecial g gr 0x06 = some (BitVec.ofNat 64 gr.role.code) ∧
      s.readSpecial g gr 0x08 = some (BitVec.ofNat 64 g.core) ∧ s.readSpecial g gr 0x11 = some (BitVec.ofNat 64 t.ctx) ∧
      s.readSpecial g gr 0x12 = some t.argBase ∧ s.readSpecial g gr 0x13 = some (BitVec.ofNat 64 t.scrSize) ∧
      s.readSpecial g gr 0x14 = some t.seqBase ∧ s.readSpecial g gr 0x15 = some t.step ∧
      ∀ i, 0x20 ≤ i → i ≤ 0x26 → s.readSpecial g gr i = none) ∧
    exec (.swr bt d 0x0C) s = .next (s.scalarDone g { gr with exmS := BitVec.ofNat 32 (gr.sreg d).toNat } 1) ∧
    ((gr.sreg d).toNat < 32 → gr.enq ≤ gr.ended → exec (.swr bt d 0x0E) s =
      .next (s.scalarDone g { gr with gfS := BitVec.ofNat 32 (gr.sreg d).toNat, gfL := BitVec.ofNat 32 (gr.sreg d).toNat } 1)) ∧
    (32 ≤ (gr.sreg d).toNat → exec (.swr bt d 0x0E) s = .next (s.trapS g .illegal 0 0)) ∧
    (idx ≠ 0x0C → idx ≠ 0x0D → idx ≠ 0x0E → exec (.swr bt d idx) s = .next (s.trapS g .illegal 0 0))

/-! Objects in scratch -/

/-- A barrier's fields: EXP, ARR, PH, BRK and PEND (Table SYN-3). -/
def Sys2Proof.barOf (x : Nat) : Nat × Nat × Bool × Bool × Nat :=
  (x % 2 ^ 16, x / 2 ^ 16 % 2 ^ 16, x.testBit 32, x.testBit 33, x / 2 ^ 64 % 2 ^ 48)

/-- The completion test (R223): with every arrival in and no byte pending, the phase flips and ARR is 0. -/
def Sys2Proof.barTested (exp arr : Nat) (ph : Bool) (pend : Nat) : Nat × Nat × Bool × Bool × Nat :=
  if exp ≤ arr ∧ pend = 0 then (exp, 0, !ph, false, 0) else (exp, arr, ph, false, pend)

/-- The scratch of a team after a change of one object: n bytes at an offset, and nothing else of any memory. -/
def Sys2Proof.ScratchChanged (s t : State) (tr : TRef) (tm : Team) (off n : Nat) : Prop :=
  ∃ tm', t.team tr = some tm' ∧ (∀ b, b < off ∨ off + n ≤ b → sget tm'.scratch b = sget tm.scratch b) ∧
    (∀ tr', tr' ≠ tr → t.team tr' = s.team tr') ∧ tm'.argBase = tm.argBase ∧ tm'.cmds = tm.cmds ∧ t.hostMem = s.hostMem ∧
    t.mem = s.mem

/-- The barrier words on an unbroken barrier in scratch (R222 to R224): initialise, arrive, drop and expect change the
barrier's fields, run the completion test but at initialisation, and go on; arrivals keep the phase in the group's list. -/
def Sys2Proof.BarrierWordResults : Prop :=
  ∀ (s : State) (g : GRef) (gr : Group) (bt : Bt) (a b : SReg) (tr : TRef) (tm : Team) (off x exp arr pend n : Nat)
    (ph : Bool), ScalarAt s g gr → s.objPlace g (gr.sreg a) 16 false (!gr.skipS.wp) = (.ok (.scratch tr off), s) → s.team tr = some tm →
    x = sgetLE tm.scratch off 16 → barOf x = (exp, arr, ph, false, pend) → n = (gr.sreg b).toNat → NoObjectWaits s →
    NoWrap s g.core 0x02 1 →
    let held (s : State) := s.unhold (.scalar g)
    let at1 (gr' : Group) := gr'.atS (nextSPc gr.spc 1) false
    let done (i : Instr) (y : Nat × Nat × Bool × Bool × Nat) (gr' : Group) := ∃ t tm', exec i s = .next t ∧
      t.team tr = some tm' ∧ barOf (sgetLE tm'.scratch off 16) = y ∧ t.group g = some (at1 gr') ∧
      ScratchChanged s t tr tm off 16
    (1 ≤ n → n ≤ 65535 → done (.barinit bt a b) (n, 0, false, false, 0) gr) ∧
    (n = 0 ∨ 65535 < n → exec (.barinit bt a b) s = .next ((held s).trapS g .illegal 0 0)) ∧
    (gr.obj = [] → done (.bararr bt a) (barTested exp (min (arr + 1) 65535) ph pend)
      { gr with obj := [⟨gr.sreg a, false, ph⟩] }) ∧
    (gr.obj = [] → done (.bararrDrop bt a) (barTested (exp - 1) arr ph pend) gr) ∧
    (gr.obj = [⟨gr.sreg a, false, ph⟩] →
      done (.bararrDrop bt a) (barTested (exp - 1) (arr - 1) ph pend) { gr with obj := [] }) ∧
    (n < 2 ^ 48 → done (.barxpct bt a b) (barTested exp arr ph ((pend + n) % 2 ^ 48)) gr) ∧
    (2 ^ 48 ≤ n → exec (.barxpct bt a b) s = .next ((held s).trapS g .illegal 0 0)) ∧
    (∀ gr', gr'.obj.length = 8 → (∀ e ∈ gr'.obj, e.addr ≠ gr.sreg a) → gr' = { gr with obj := gr'.obj } →
      exec (.bararr bt a) (s.setGroup g gr') = .next ((held (s.setGroup g gr')).trapS g .quota 4 0))

/-- `BARWAIT` (R224): it ends once the phase differs from that of the group's entry, with the phase in sB and c0 = 0; at a
broken barrier with c0 = 1 and GF.BROKEN; else the stream waits. -/
def Sys2Proof.BarrierWaitResults : Prop :=
  ∀ (s : State) (g : GRef) (gr : Group) (bt : Bt) (a b : SReg) (tr : TRef) (tm : Team) (off x exp arr pend : Nat)
    (ph brk own : Bool), ScalarAt s g gr → s.objPlace g (gr.sreg a) 16 false (!gr.skipS.wp) = (.ok (.scratch tr off), s) →
    s.team tr = some tm → x = sgetLE tm.scratch off 16 → barOf x = (exp, arr, ph, brk, pend) →
    gr.obj = [⟨gr.sreg a, false, own⟩] →
    let s1 := s.meetCores g.core tr.core
    (brk = false → own ≠ ph → exec (.barwait bt a b) s =
      .next (s1.scalarDone g ((gr.setS b (if ph then 1 else 0)).setC 0 false) 1)) ∧
    (brk = true → exec (.barwait bt a b) s = .next (s1.scalarDone g
      { gr.setC 0 true with gfS := gr.gfS ||| 16, ticket := none } 1)) ∧
    (brk = false → own = ph → exec (.barwait bt a b) s = .next (s.holdS g gr (.barrier (gr.sreg a) own b)))

/-- The ring words on an unbroken ring in scratch (R227, R228): `RINGINIT` writes the count and clears tickets, slots and
tags; an acquire takes the producer's or consumer's ticket once and goes on where its slot has the tag and the lap phase it
needs; a release writes the slot's phase and its tag. -/
def Sys2Proof.RingWordResults : Prop :=
  ∀ (s : State) (g : GRef) (gr : Group) (bt : Bt) (a b : SReg) (tr : TRef) (tm : Team) (off n k tk lap : Nat),
    ScalarAt s g gr → s.objPlace g (gr.sreg a) 16 true = (.ok (.scratch tr off), s) →
    s.objPlace g (gr.sreg a) (16 + 4 * n) true = (.ok (.scratch tr off), s) → s.team tr = some tm → off % 16 = 0 →
    n ∈ [1, 2, 4, 8, 16, 32, 64] → NoObjectWaits s → NoWrap s g.core 0x02 1 →
    ((gr.sreg b).toNat = n → ∃ t tm', exec (.ringinit bt a b) s = .next t ∧ t.team tr = some tm' ∧
      sgetLE tm'.scratch off 16 = n ∧ (∀ i < n, sgetLE tm'.scratch (off + 16 + 4 * i) 4 = 0 ∧ tm'.tag (off + 16 + 4 * i) = false) ∧
      t.group g = some (gr.atS (nextSPc gr.spc 1) false) ∧ ScratchChanged s t tr tm off (16 + 4 * n)) ∧
    (sgetLE tm.scratch off 4 = n → (sgetLE tm.scratch (off + 4) 4).testBit 1 = false → gr.ticket = none → gr.obj = [] →
      (sgetLE tm.scratch (off + 8) 4 = tk → k = tk % n → lap = tk / n % 2 → tm.tag (off + 16 + 4 * k) = false →
        sgetLE tm.scratch (off + 16 + 4 * k) 4 % 2 = lap → ∃ t tm', exec (.ringacqP bt a b) s = .next t ∧
          t.team tr = some tm' ∧ sgetLE tm'.scratch (off + 8) 4 = (tk + 1) % 2 ^ 32 ∧
          (∃ gr', t.group g = some gr' ∧ gr'.spc = nextSPc gr.spc 1 ∧ gr'.creg 0 = false ∧
            (b ≠ 0 → gr'.sreg b = BitVec.ofNat 64 tk) ∧ gr'.waitS = none ∧ gr'.obj = [⟨gr.sreg a, true, false⟩]) ∧
          ScratchChanged s t tr tm (off + 8) 4) ∧
      (sgetLE tm.scratch (off + 12) 4 = tk → k = tk % n → lap = tk / n % 2 → tm.tag (off + 16 + 4 * k) = true →
        sgetLE tm.scratch (off + 16 + 4 * k) 4 % 2 = lap → ∃ t tm', exec (.ringacqC bt a b) s = .next t ∧
          t.team tr = some tm' ∧ sgetLE tm'.scratch (off + 12) 4 = (tk + 1) % 2 ^ 32 ∧
          (∃ gr', t.group g = some gr' ∧ gr'.spc = nextSPc gr.spc 1 ∧ gr'.creg 0 = false ∧
            (b ≠ 0 → gr'.sreg b = BitVec.ofNat 64 tk) ∧ gr'.waitS = none ∧ gr'.obj = [⟨gr.sreg a, true, false⟩]) ∧
          ScratchChanged s t tr tm (off + 12) 4) ∧
      (sgetLE tm.scratch (off + 8) 4 = tk → k = tk % n → lap = tk / n % 2 →
        (tm.tag (off + 16 + 4 * k) = true ∨ sgetLE tm.scratch (off + 16 + 4 * k) 4 % 2 ≠ lap) →
        ∃ t gr', exec (.ringacqP bt a b) s = .next t ∧ t.group g = some gr' ∧ gr'.spc = gr.spc ∧
          gr'.waitS = some (.ring (gr.sreg a) false (BitVec.ofNat 32 tk) n))) ∧
    (sgetLE tm.scratch off 4 = n → (sgetLE tm.scratch (off + 4) 4).testBit 1 = false → (gr.sreg b).toNat = tk → tk < 2 ^ 32 →
      k = tk % n → lap = tk / n % 2 →
      (∃ t tm', exec (.ringrelP bt a b) s = .next t ∧ t.team tr = some tm' ∧ tm'.tag (off + 16 + 4 * k) = true ∧
        sgetLE tm'.scratch (off + 16 + 4 * k) 4 % 2 = lap ∧ t.group g = some (gr.atS (nextSPc gr.spc 1) false) ∧
        ScratchChanged s t tr tm (off + 16 + 4 * k) 4) ∧
      (∃ t tm', exec (.ringrelC bt a b) s = .next t ∧ t.team tr = some tm' ∧ tm'.tag (off + 16 + 4 * k) = false ∧
        sgetLE tm'.scratch (off + 16 + 4 * k) 4 % 2 = 1 - lap ∧ t.group g = some (gr.atS (nextSPc gr.spc 1) false) ∧
        ScratchChanged s t tr tm (off + 16 + 4 * k) 4))

/-! Fences, exits, power -/

/-- A fence whose lane blocks have ended, with no access of the group outstanding, lets the stream go on; `FENCE.SURV`
writes 0 to c0 where every delta was applied (R190 to R193). -/
def Sys2Proof.FenceResults : Prop :=
  ∀ (s : State) (g : GRef) (gr : Group) (bt : Bt) (tm : Team), ScalarAt s g gr → g.isHandler = false →
    s.team g.team = some tm → gr.enq ≤ gr.ended → gr.out = [] → gr.waitS = none → (∀ u ∈ s.upart, g ∉ u.owners) →
    (∀ f ∈ s.fabTags, f.busy = true → f.why ≠ .lane g ∧ ∀ os, f.why = .partial_ os → g ∉ os) →
    exec (.fence bt) s = .next (s.scalarDone g gr 1) ∧
    exec (.fenceSys bt) s = .next (s.scalarDone g gr 1) ∧
    (tm.issuedCe ≤ tm.doneCe → tm.issuedKv ≤ tm.doneKv → tm.issuedCo ≤ tm.doneCo → gr.mxIssued ≤ gr.mxDone →
      s.deltas = [] → (s.core g.core).staging = [] → s.sends = [] → gr.survDeg = false → tm.survBad = [] →
      gr.morFrames = [] → tm.mor = [] →
      exec (.fenceSurv bt) s = .next (s.scalarDone g ({ gr with mxFence := gr.mxIssued }.setC 0 false) 1))

/-- A fence while a block still runs, or while a request of the group to another package is unanswered, waits, with the
numbers of the commands issued so far; `FENCE.SURV` also notes those of the group's `MMA`s (R193). -/
def Sys2Proof.FenceWaits : Prop :=
  ∀ (s : State) (g : GRef) (gr : Group) (bt : Bt) (tm : Team) (k : Nat) (i : Instr), ScalarAt s g gr →
    g.isHandler = false → s.team g.team = some tm → gr.waitS = none → (i, k) ∈ [(Instr.fence bt, 0), (.fenceSys bt, 1), (.fenceSurv bt, 2)] →
    (gr.ended < gr.enq ∨ (gr.out = [] ∧ (∀ u ∈ s.upart, g ∉ u.owners) ∧ (s.core g.core).staging = [] ∧
      ∃ f ∈ s.fabTags, f.busy = true ∧ f.why = .lane g)) →
    exec i s = .next (s.holdS g (if k = 2 then { gr with mxFence := gr.mxIssued } else gr)
      (.fence k tm.issuedCe tm.issuedKv tm.issuedCo))

/-- `EXIT` of a group that nothing holds ends it: it is exited, its power grant is released, its registers stand, and the
rest of its team goes on (R60, R368). A group with blocks still queued waits. -/
def Sys2Proof.ExitEndsGroup : Prop :=
  ∀ (s : State) (g : GRef) (gr : Group) (bt : Bt) (tm : Team), ScalarAt s g gr → g.isHandler = false →
    s.team g.team = some tm → tm.region gr.role = none →
    (gr.enq ≤ gr.ended → gr.eng = [] → gr.out = [] → gr.obj = [] → NoWrap s g.core 0x02 1 → ∃ t, exec (.exit bt) s = .next t ∧
      t.group g = some { gr with status := .exited, grant := none, waitS := none, waitL := none } ∧
      (∀ g', g' ≠ g → t.group g' = s.group g') ∧ t.team g.team = some tm ∧ t.mem = s.mem) ∧
    (gr.ended < gr.enq → exec (.exit bt) s = .next (s.holdS g gr .exitWait))

/-- `PWRQ` (R427) of a MATRIX group: a query writes PWRGRANT; a release returns to NONE and writes 0; an ask in state HELD
writes PWRGRANT and restarts the idle count, and in state NONE waits for the power manager. Other groups get 0. -/
def Sys2Proof.PowerRequestResults : Prop :=
  ∀ (s : State) (g : GRef) (gr : Group) (bt : Bt) (a b : SReg), ScalarAt s g gr →
    let act := (gr.sreg a).toNat
    let matrix := gr.role = .matrix ∧ g.isHandler = false
    (3 ≤ act → exec (.pwrq bt a b) s = .next (s.trapS g .illegal 0 0)) ∧
    (act < 3 → ¬ matrix → exec (.pwrq bt a b) s = .next (s.scalarDone g (gr.setS b 0) 1)) ∧
    (matrix → act = 1 → exec (.pwrq bt a b) s = .next (s.scalarDone g ({ gr with grant := none }.setS b 0) 1)) ∧
    (∀ level charge, matrix → gr.grant = some (level, charge) →
      (act = 2 → exec (.pwrq bt a b) s = .next (s.scalarDone g (gr.setS b (BitVec.ofNat 64 (256 + level))) 1)) ∧
      (act = 0 → exec (.pwrq bt a b) s =
        .next (s.scalarDone g ({ gr with lastMma := s.clock }.setS b (BitVec.ofNat 64 (256 + level))) 1))) ∧
    (matrix → gr.grant = none → act = 2 → exec (.pwrq bt a b) s = .next (s.scalarDone g (gr.setS b 0) 1)) ∧
    (matrix → gr.grant = none → act = 0 → ∃ t gr', exec (.pwrq bt a b) s = .next t ∧ g ∈ t.powerAsks ∧ t.group g = some gr' ∧
      gr'.waitS = some (.power b) ∧ gr'.spc = gr.spc)

/-! Engine commands -/

/-- The engine words: address and number registers, class, form, and the bytes of the descriptor, with those that the
command also writes. -/
def Sys2Proof.Instr.engine : Instr → Option (SReg × SReg × EngCls × EngOp × Nat × Bool)
  | .cpy _ a b => some (a, b, .ce, .cpy, 64, false)
  | .gath _ a b => some (a, b, .ce, .gath, 64, false)
  | .coll _ a b => some (a, b, .co, .coll, 64, false)
  | .kvalloc _ a b => some (a, b, .kv, .kvalloc, 32, true)
  | .kvref _ a b => some (a, b, .kv, .kvref, 32, true)
  | .kvunref _ a b => some (a, b, .kv, .kvunref, 32, true)
  | .kvcow _ a b => some (a, b, .kv, .kvcow, 32, true)
  | .kvtierCi _ a b => some (a, b, .kv, .kvtierCi, 32, true)
  | .kvtierAq _ a b => some (a, b, .kv, .kvtierAq, 32, true)
  | .kvsend _ a b => some (a, b, .kv, .kvsend, 32, true)
  | _ => none

/-- The checks of a form's descriptor at issue (R356, R362, R380, R265). -/
def Sys2Proof.engineChecks : EngOp → GRef → Nat → List Nat → State → Option (Meet × Nat) × State
  | .cpy => cpyCheck
  | .gath => gathCheck
  | .coll => collCheck
  | .kvsend => kvCheck true
  | _ => kvCheck false

/-- An engine word whose descriptor can be read and passes its checks issues its command: it stands in the team's engine
context with the next number of its class, which goes to sB, and the stream goes on (R182). A descriptor that cannot be
read, or that breaks a check, traps and takes no number; so does a command that the context's quota cannot spill. -/
def Sys2Proof.EngineCommandsIssue : Prop :=
  ∀ (s s1 s2 : State) (g : GRef) (gr gr2 : Group) (tm : Team) (i : Instr) (a b : SReg) (cls : EngCls) (op : EngOp) (n : Nat)
    (wr : Bool) (d : Except Meet (List Nat)) (r : Option (Meet × Nat)) (num : Nat), ScalarAt s g gr →
    i.engine = some (a, b, cls, op, n, wr) → s.readDesc (s.ctxOf g) (gr.sreg a).toNat n wr = (d, s1) →
    (∀ m, d = .error m → exec i s = .next (s1.trapS g m.cause m.info (gr.sreg a).toNat)) ∧
    (∀ w, d = .ok w → engineChecks op g (gr.sreg a).toNat w s1 = (r, s2) →
      (∀ m x, r = some (m, x) → exec i s = .next (s2.trapS g m.cause m.info x)) ∧
      (r = none → s2.team g.team = some tm → s2.group g = some gr2 → num = tm.issuedOf cls + 1 →
        let room := (tm.cmds.filter (fun c => c.cls == cls)).length < 32 ∨ s2.sumpFits tm.ctx 64 = true
        (¬ room → exec i s = .next (s2.trapS g .quota 1 0)) ∧
        (room → ∃ t tm' gr', exec i s = .next t ∧ t.team g.team = some tm' ∧ t.group g = some gr' ∧
          tm'.cmds = tm.cmds ++ [{ cls := cls, num := num, gid := g.gid, op := op, descAddr := gr.sreg a, desc := w,
                                   landed := [], stopped := none }] ∧
          tm'.issuedOf cls = num ∧ (∀ c, c ≠ cls → tm'.issuedOf c = tm.issuedOf c) ∧
          gr' = (gr2.setS b (BitVec.ofNat 64 num)).atS (nextSPc gr2.spc 1) false ∧ tm'.scratch = tm.scratch)))

/-- The record words (R262, R438) of a group of the sampling grid for a record of its batch: `RQGET` reads a word of the
record, `RQSET` writes one that may be written and traps on the others, and `RQEMIT` notes the token and counts the
emission. A record outside the batch, or of another grid, is PROTECTION. -/
def Sys2Proof.RequestRecordWords : Prop :=
  ∀ (s : State) (g : GRef) (gr : Group) (bt : Bt) (word : Fin 32) (a b : SReg) (va : Nat), ScalarAt s g gr →
    va = (gr.sreg a).toNat →
    let bad (i : Instr) (c : Cause) (x : Nat) := exec i s = .next (s.trapS g c 0 x)
    (2 ^ 14 ≤ va → bad (.rqget bt word a b) .illegal va ∧ bad (.rqset bt word a b) .illegal va ∧
      bad (.rqemit bt a b) .illegal va) ∧
    (va < 2 ^ 14 → s.sampler (s.teamRefOf g) = none → bad (.rqget bt word a b) .protection va ∧
      bad (.rqset bt word a b) .protection va ∧ ((gr.sreg b).toNat < 2 ^ 33 → bad (.rqemit bt a b) .protection va)) ∧
    (∀ x e r, va < 2 ^ 14 → s.sampler (s.teamRefOf g) = some x → x.batch.find? (fun e => e.idx == va) = some e →
      s.recOf x.num va = some r →
      exec (.rqget bt word a b) s = .next ((s.acquire g.core).scalarDone g (gr.setS b (sget r.words word.val)) 1) ∧
      (word.val ∈ [10, 11, 12, 13, 14, 16, 17, 18, 19, 20, 21, 22, 23] → ∃ t r', exec (.rqset bt word a b) s = .next t ∧
        t.recOf x.num va = some r' ∧ sget r'.words word.val = gr.sreg b ∧
        (∀ k, k ≠ word.val → sget r'.words k = sget r.words k) ∧ t.group g = some (gr.atS (nextSPc gr.spc 1) false)) ∧
      (word.val ∉ [10, 11, 12, 13, 14, 16, 17, 18, 19, 20, 21, 22, 23] → bad (.rqset bt word a b) .protection va) ∧
      ((gr.sreg b).toNat < 2 ^ 33 → (e.sample = false ∨ e.emitted = true) → bad (.rqemit bt a b) .protection va) ∧
      (2 ^ 33 ≤ (gr.sreg b).toNat → bad (.rqemit bt a b) .illegal 0) ∧
      ((gr.sreg b).toNat < 2 ^ 33 → e.sample = true → e.emitted = false → ∃ s' r', s'.recOf x.num va = some r' ∧
        r'.lastTok = (gr.sreg b).toNat % 2 ^ 32 ∧ r'.gen = (r.gen + 1) % 2 ^ 32 ∧ r'.get 1 8 1 = (gr.sreg b).toNat / 2 ^ 32 ∧
        (∀ k, k ≠ 8 → k ≠ 3 → k ≠ 1 → sget r'.words k = sget r.words k) ∧ s'.group g = some gr ∧
        (∀ y, s.inst x.num = some y → s'.inst x.num = some { y with batch := y.batch.map (fun b =>
          if b.idx = va then { b with emitted := true } else b) }) ∧
        ∀ m, m = x.emit (r.get 0 0 64) 0 r.gen (gr.sreg b).toNat
            ((gr.sreg b).toNat.testBit 32 || (r.gen + 1) % 2 ^ 32 == r.maxNew) s' → m.1 = .ok () →
          exec (.rqemit bt a b) s = .next (m.2.scalarNext g)))

/-! Spawning and joining -/

/-- `SPAWN` (R53, R455): the limits trap with their INFO; a launch that is entered stands among the team's children under
a handle, and its dependence is tested; the handle goes to sB, unless the stream waits for the launch's specialisation. A refused
launch has a handle all the same, and a launch that the descriptor's entries refuse with a cause traps. -/
def Sys2Proof.SpawnResults : Prop :=
  ∀ (s s1 s2 s3 : State) (g : GRef) (gr gr3 : Group) (bt : Bt) (a b : SReg) (tm tm2 : Team) (body va : Nat) (e : Entered)
    (grid : Option Nat) (h : W64), ScalarAt s g gr → g.isHandler = false → s.team g.team = some tm → va = (gr.sreg a).toNat →
    (16 ≤ s.liveChildren tm → exec (.spawn bt a b) s = .next (s.trapS g .quota 2 0)) ∧
    (s.liveChildren tm < 16 → 4 ≤ tm.depth → exec (.spawn bt a b) s = .next (s.trapS g .quota 3 0)) ∧
    (s.liveChildren tm < 16 → tm.depth < 4 → va % 8 ≠ 0 → exec (.spawn bt a b) s = .next (s.trapS g .alignment 0 va)) ∧
    (∀ info : LaunchBy, s.liveChildren tm < 16 → tm.depth < 4 → va % 8 = 0 → s.vread tm.ctx va 128 false = (.ok body, s1) →
      info.ctx = tm.ctx → info.issuer = .spawn tm.grid tm.teamId → info.depth = tm.depth + 1 → info.seqBase = 0 →
      info.step = 0 → info.level = ((s1.grid tm.grid).map (·.level)).getD 0 →
      info.inst = (s1.grid tm.grid).bind (·.inst) → s1.enterLaunch info body = (e, s2) →
      (∀ m x, e = .failed m x → exec (.spawn bt a b) s = .next (s2.trapS g m.cause m.info x)) ∧
      (s2.team g.team = some tm2 → h = handleOf (grid.getD 0xFFFFFFFF) s2.draw.1 →
        ((e = .refused ∧ grid = none ∧
            s3 = s2.draw.2.setTeam g.team { tm2 with children := tm2.children ++ [⟨h, none, false⟩] }) ∨
          ∃ n, e = .grid n ∧ grid = some n ∧
            s3 = (s2.draw.2.setTeam g.team { tm2 with children := tm2.children ++ [⟨h, some n, false⟩] }).testDependence n) →
        s3.group g = some gr3 →
        ((∀ n x, grid = some n → s3.grid n = some x → x.phase ≠ .specialise) →
          exec (.spawn bt a b) s = .next (s3.scalarDone g (gr3.setS b h) 1)) ∧
        (∀ n x, grid = some n → s3.grid n = some x → x.phase = .specialise →
          exec (.spawn bt a b) s = .next (s3.holdS g gr3 (.specialise n b)))))

/-- `JOIN` (R54, R57, R398): an ended grid's status word of Table EXE-4, that of a kill for a refused or dropped launch; a grid still
to end is waited for, and a value that is no handle of the team is PROTECTION. -/
def Sys2Proof.JoinResults : Prop :=
  ∀ (s : State) (g : GRef) (gr : Group) (bt : Bt) (a b : SReg) (tm : Team) (c : Child), ScalarAt s g gr →
    g.isHandler = false → s.team g.team = some tm →
    let fin (s' : State) (x : W64) := Host.Outcome.next ((s'.scalarDone g (gr.setS b x) 1).onTeam g.team
      (fun t => { t with children := t.children.map (fun k => if k.handle = gr.sreg a then { k with joined := true } else k) }))
    ((∀ k ∈ tm.children, k.handle ≠ gr.sreg a) →
      exec (.join bt a b) s = .next (s.trapS g .protection 0 (gr.sreg a).toNat)) ∧
    (tm.children.find? (fun k => k.handle == gr.sreg a) = some c →
      (c.grid = none → exec (.join bt a b) s = fin s 2) ∧
      (∀ n, c.grid = some n → s.grid n = none → exec (.join bt a b) s = fin s 2) ∧
      (∀ n x, c.grid = some n → s.grid n = some x →
        (x.complete = false → exec (.join bt a b) s = .next (s.holdS g gr (.join (gr.sreg a) b))) ∧
        (x.complete = true → x.status = .done → exec (.join bt a b) s = fin (s.acquire g.core) 0) ∧
        (x.complete = true → x.status = .killed → exec (.join bt a b) s = fin (s.acquire g.core) 2) ∧
        (∀ team cause, x.complete = true → x.status = .faulted team cause → exec (.join bt a b) s =
          fin (s.acquire g.core) (BitVec.ofNat 64 (team * 2 ^ 32 + cause.code * 2 ^ 8 + 1)))))

/-! Traps and the handler -/

/-- Taking a trap, for a group with no access, engine wait or region under way: both streams stop at their points, the group
is TRAPPED with the trap and its original address, a KIND 3 record and event 0x09 count it, and the group enters its core's
trap queue; without a handler the team is parked or its grid is killed, as Table TRAP-1 says of the cause; while the team is being
parked the trap stays with the group. A group of which a unit is outstanding stops first (R82). -/
def Sys2Proof.TrapEntry : Prop :=
  ∀ (s : State) (g : GRef) (gr : Group) (tm : Team) (t : Trap), s.group g = some gr → s.team g.team = some tm →
    g.isHandler = false → gr.mx = [] → tm.region gr.role = none → t.cause ≠ .hold → gr.waitS ≠ some .spill →
    (∀ n d, gr.waitS ≠ some (.specialise n d)) →
    (gr.out = [] →
      let t' := { t with orig := s.origWord tm.ctx t.ln (if t.ln then gr.lpc else gr.spc) }
      let stopped := { gr with alt := [], look := [], waitS := none, waitL := none, tagPend := [], status := .trapped,
                               tagLeft := if gr.tagPend = [] then gr.tagLeft else laneMask (gr.tagPend.map (fun u => u.lane)),
                               trap := some t', stopping := none }
      let s0 := { s with powerAsks := s.powerAsks.filter (· != g), holds := s.holds.filter (fun h => h != Held.scalar g) }
      let s1 := ((s0.setGroup g stopped).count g.core tm.ctx 0x09 1).traceGroup g 3 t.cause.code 0 t'.orig
      (tm.parkWanted = none → tm.handler ≠ 0 →
        s.takeTrap g t = s1.enterTrapQ g ∧ (g.slot, g.gid) ∈ ((s.takeTrap g t).core g.core).trapQ) ∧
      (tm.parkWanted = none → tm.handler = 0 → t.cause ∈ [Cause.translation, .watchpoint, .breakpoint, .trapInsn, .quota] →
        s.takeTrap g t = s1.wantPark g.team 0 g.gid) ∧
      (tm.parkWanted = none → tm.handler = 0 → t.cause ∉ [Cause.translation, .watchpoint, .breakpoint, .trapInsn, .quota] →
        s.takeTrap g t = s1.killGrid tm.grid (.faulted tm.teamId t.cause)) ∧
      (tm.parkWanted.isSome = true → s.takeTrap g t = s1)) ∧
    (∀ gr', (s.stopGroup g).group g = some gr' →
      (gr'.unitCount ≠ 0 → s.takeTrap g t = (s.stopGroup g).setGroup g { gr' with stopping := some t }) ∧
      (gr'.unitCount = 0 → s.takeTrap g t = (s.stopGroup g).enterTrap g t)) ∧
    (∀ gr', (s.drain g).group g = some gr' →
      (gr'.unitCount ≠ 0 → s.tryStop g t = s.drain g) ∧ (gr'.unitCount = 0 → s.tryStop g t = (s.drain g).enterTrap g t))

/-- `TRAP` and `BRKPT` trap with their causes, TRAPINSN with its code as INFO and BREAKPOINT with 0; where the stream has
just been resumed at the word, it is a no-op (R354, R462). -/
def Sys2Proof.TrapWordResults : Prop :=
  ∀ (s : State) (g : GRef) (gr : Group) (bt : Bt) (code : Fin 64), ScalarAt s g gr →
    let trapOf (s' : State) (c : Cause) (info : Nat) := Host.Outcome.next (s'.takeTrap g
      { cause := c, info := BitVec.ofNat 32 info, eng := false, ln := false, addr := 0, lanes := 0, orig := 0 })
    (gr.skipS.nop = false → exec (.trap bt code) s = trapOf s .trapInsn code.val ∧
      exec (.brkpt bt) s =
        trapOf (s.traceGroup g 5 8 0 (s.origWord (s.ctxOf g) false gr.spc)) .breakpoint 0) ∧
    (gr.skipS.nop = true → exec (.trap bt code) s = .next (s.scalarDone g gr 1) ∧
      exec (.brkpt bt) s = .next (s.scalarDone g gr 1))

/-- TCAUSE of a trap (Table TRAP-2), with the codes and defaults of Table TRAP-1. -/
def Sys2Proof.TrapCauseWord : Prop :=
  (∀ t : Trap, t.tcause.toNat =
    t.info.toNat * 2 ^ 32 + (if t.eng then 2 ^ 9 else 0) + (if t.ln then 2 ^ 8 else 0) + t.cause.code) ∧
  (∀ c : Cause, Cause.ofCode c.code = c ∧ c.code ≤ 0x10) ∧
  (∀ c d : Cause, c.code = d.code → c = d) ∧
  Cause.translation.code = 5 ∧ Cause.watchpoint.code = 0x0A ∧ Cause.check.code = 0x10

/-- Handler code runs for a team (R275): the word at work is the handler group's scalar stream, the activation names the
team's slot, and a target selector in a register names a group of the team. -/
def Sys2Proof.HandlerAt (s : State) (g : GRef) (gr : Group) (act : Activation) (tr : TRef) (tm : Team) (a : SReg)
    (tgr : GRef) (tg : Group) : Prop :=
  ScalarAt s g gr ∧ g = handlerGroup g.core ∧ (s.core g.core).act = some act ∧ tr = ⟨g.core, act.slot⟩ ∧ s.team tr = some tm ∧
  tgr = tr.group ((gr.sreg a).toNat % 32) ∧ s.group tgr = some tg ∧ (gr.sreg a).toNat / 32 % 8 = 0 ∧
  (gr.sreg a).toNat / 2 ^ 29 % 4 = 0 ∧ (gr.sreg a).toNat / 2 ^ 32 = 0

/-- `HREAD` and `HWRITE` on a stopped group (R276, R388, Table TRAP-5): scalar registers, c, k and lane registers by virtual
lane, the stopping points, masks and trap registers, each at its class and index; a hold stops a group that runs. -/
def Sys2Proof.HandlerReadWrite : Prop :=
  ∀ (s : State) (g : GRef) (gr : Group) (act : Activation) (tr : TRef) (tm : Team) (a b : SReg) (tgr : GRef) (tg : Group)
    (cls idx lane : Nat), HandlerAt s g gr act tr tm a tgr tg → (gr.sreg a).toNat / 2 ^ 31 = 0 → tg.status = .trapped →
    cls = (gr.sreg a).toNat / 2 ^ 8 % 16 → idx = (gr.sreg a).toNat / 2 ^ 12 % 4096 → lane = (gr.sreg a).toNat / 2 ^ 24 % 32 →
    let reads (x : W64) := exec (.hread a b) s = .next (s.scalarDone g (gr.setS b x) 1)
    let writes (tg' : Group) := exec (.hwrite a b) s = .next ((s.setGroup tgr tg').scalarDone g gr 1)
    let x := gr.sreg b
    (cls = 0 → 0 < idx → idx < 64 → reads (sget tg.s idx) ∧ writes { tg with s := sset tg.s idx x }) ∧
    (cls = 0 → idx = 0 → reads 0 ∧ writes tg) ∧
    (cls = 1 → idx < 8 → reads (BitVec.ofNat 64 (sget tg.c idx).toNat) ∧
      writes { tg with c := sset tg.c idx (BitVec.ofNat 1 x.toNat) }) ∧
    (cls = 2 → idx < 16 → reads (sget tg.k idx) ∧ writes { tg with k := sset tg.k idx x }) ∧
    (cls = 3 → idx < 8 → reads (sget tg.yS idx) ∧ writes { tg with yS := sset tg.yS idx x }) ∧
    (cls = 4 → idx < 8 → reads (sget tg.yL idx) ∧ writes { tg with yL := sset tg.yL idx x }) ∧
    (cls = 5 → idx < tg.allot → tg.remap = laneList → reads (BitVec.ofNat 64 (sget tg.v (32 * idx + lane)).toNat) ∧
      ∃ tg', writes tg' ∧ sget tg'.v (32 * idx + lane) = BitVec.ofNat 32 x.toNat ∧
        ∀ k, k ≠ 32 * idx + lane → sget tg'.v k = sget tg.v k) ∧
    (cls = 7 → idx = 0 → reads tg.spc ∧ writes { tg with spc := x, sMarks := false }) ∧
    (cls = 7 → idx = 1 → reads tg.lpc ∧ writes { tg with lpc := x, lMarks := false, tagDone := 0, tagLeft := 0 }) ∧
    (cls = 7 → idx = 2 → reads (BitVec.ofNat 64 tg.exmS.toNat) ∧ writes { tg with exmS := BitVec.ofNat 32 x.toNat }) ∧
    (cls = 7 → idx = 3 → reads (BitVec.ofNat 64 tg.exmL.toNat) ∧ writes { tg with exmL := BitVec.ofNat 32 x.toNat }) ∧
    (∀ t, cls = 7 → idx = 9 → tg.trap = some t → reads t.tcause ∧ exec (.hwrite a b) s = .next (s.trapS g .illegal 0 0)) ∧
    (cls = 7 → idx = 8 → reads 2 ∧ (x = 2 → exec (.hwrite a b) s = .next (s.scalarDone g gr 1)) ∧
      (x ≠ 2 → exec (.hwrite a b) s = .next (s.trapS g .illegal 0 0)))

/-- The words that end an activation or let a stopped group go (R366, R389, R390): `HRESUME` makes its group READY and
takes it out of the trap queue; `HKILL` ends it; `ERET` resumes the presented group where it is trapped with a cause and
ends the activation; `HPARK` makes every stopped group READY, ends the activation, and the team is to be parked with
REASON 4. A word that ends the activation waits for the accesses that its group has issued (R82). -/
def Sys2Proof.HandlerResumeKillPark : Prop :=
  ∀ (s : State) (g : GRef) (gr : Group) (act : Activation) (tr : TRef) (tm : Team) (a : SReg) (tgr : GRef) (tg : Group),
    HandlerAt s g gr act tr tm a tgr tg → act.slot < 16 → tgr.gid < 32 → act.gid < 32 →
    (tg.status = .trapped → (gr.sreg a).toNat / 2 ^ 31 = 0 → ∃ t tg', exec (.hresume a) s = .next t ∧
      t.group tgr = some tg' ∧ tg'.status = .active ∧ tg'.trap = none ∧ tg'.spc = tg.spc ∧ tg'.lpc = tg.lpc ∧ tg'.s = tg.s ∧
      tg'.v = tg.v ∧ (tgr.slot, tgr.gid) ∉ (t.core g.core).trapQ ∧ (t.core g.core).act = some act) ∧
    (tg.status ≠ .trapped → (gr.sreg a).toNat / 2 ^ 31 = 0 → exec (.hresume a) s = .next (s.trapS g .protection 0 0)) ∧
    ((gr.sreg a).toNat / 2 ^ 31 = 0 → tg.status ≠ .exited → tg.caused = none →
      exec (.hkill a) s = .next ((s.scalarNext g).killGroup tgr)) ∧
    (∀ cause, (gr.sreg a).toNat / 2 ^ 31 = 0 → tg.status = .trapped → tg.caused = some cause →
      exec (.hkill a) s = .next ((s.scalarNext g).faultTeam tr cause)) ∧
    (∀ gr', (s.drain g).group g = some gr' → gr'.unitCount ≠ 0 →
      let waits := Host.Outcome.next ((s.drain g).holdS g gr' .blockEnd)
      exec .eret s = waits ∧ exec .hpark s = waits ∧ ((gr.sreg a).toNat / 2 ^ 31 = 1 → exec (.hkill a) s = waits)) ∧
    (gr.out = [] → (∀ u ∈ s.upart, g ∉ u.owners) →
      ((gr.sreg a).toNat / 2 ^ 31 = 1 →
        exec (.hkill a) s = .next (((s.scalarNext g).faultTeam tr (act.trap.getD Trap.hold).cause).endActivation g.core)) ∧
      (∀ pg pgr, pg = tr.group act.gid → s.group pg = some pgr → (pgr.status = .exited → pgr.eng = []) →
        ∃ t pgr', exec .eret s = .next t ∧ (t.core g.core).act = none ∧ t.group g = none ∧ t.group pg = some pgr' ∧
          pgr'.spc = pgr.spc ∧ pgr'.s = pgr.s ∧
          (pgr.status ≠ .exited → pgr.caused.isSome = true → pgr'.status = .active ∧ pgr'.trap = none) ∧
          (pgr.status ≠ .exited → pgr.caused = none → pgr' = pgr) ∧
          (pgr.status = .exited → pgr' = { pgr with trap := none })) ∧
      (∃ t tm', exec .hpark s = .next t ∧ (t.core g.core).act = none ∧ t.team tr = some tm' ∧
        (tm.parkWanted = none → tm'.parkWanted = some 4 ∧ tm'.parkGid = some act.gid) ∧
        ∀ gid gr0, gid < 32 → s.group (tr.group gid) = some gr0 → gr0.status = .trapped →
          ∃ gr1, t.group (tr.group gid) = some gr1 ∧ gr1.status = .active ∧ gr1.trap = none ∧ gr1.spc = gr0.spc))

/-- Outside handler code the six handler-only words are ILLEGAL (R28, R387). -/
def Sys2Proof.HandlerWordsElsewhere : Prop :=
  ∀ (s : State) (g : GRef) (gr : Group) (a b : SReg) (i : Instr), ScalarAt s g gr → g.isHandler = false →
    i ∈ [Instr.hread a b, .hwrite a b, .hresume a, .hkill a, .hpark, .eret] →
    exec i s = .next (s.trapS g .illegal 0 0) ∧ i.roleCause false gr.role = some .illegal

/-! Lane words -/

/-- The word at work is one of the lane stream of a group that stands so. -/
def Sys2Proof.LaneAt (s : State) (g : GRef) (gr : Group) : Prop := s.cur = some (.lane g) ∧ s.group g = some gr

/-- What a lane word reads, that writes some lane registers and predicates, and the state then: a value under a lookahead window or
of an access in flight is the old or the new one, but with a word that writes one of the same registers it is interlocked (R81,
R165). -/
def Sys2Proof.seen (s : State) (gr : Group) (regs preds : List Nat) : LaneView × State := s.view (gr.interlockRegs regs preds)

/-- The registers of a result. -/
def Sys2Proof.resultRegs (d : VReg) (wide : Bool) : List Nat := if wide then [d.val, d.val + 1] else [d.val]

/-- A lane word gives one result in each active lane: the lanes are those of `ActiveLanes()` in the view that the word has
of its registers, and everything it reads is of that view. -/
def Sys2Proof.LaneGives (s : State) (g : GRef) (gr : Group) (h : LaneHdr) (sels : List Sel) (d : VReg) (wide : Bool)
    (i : Instr) (f : LaneView → Nat → Nat × W32) : Prop :=
  let v := seen s gr (resultRegs d wide) []
  exec i s = .next (v.2.laneFinish g gr h sels (mapOut d wide f v.1 (v.1.active h)))

/-- The integer types of lane words, with their widths and signs (Table ASM-10). -/
def Sys2Proof.intTypes : List (LType × Nat × Bool) :=
  [(.i8, 8, true), (.i16, 16, true), (.i32, 32, true), (.i64, 64, true), (.n8, 8, false), (.n16, 16, false),
   (.n32, 32, false), (.n64, 64, false)]

/-- The integer that the low w bits of an operand stand for. -/
def Sys2Proof.readInt (w : Nat) (signed : Bool) (x : Nat) : Int :=
  if signed then (BitVec.ofNat w x).toInt else (x % 2 ^ w : Nat)

/-- A result of w bits as the destination holds it: extended to 32 bits by its sign, or 64 bits in a pair (R115). -/
def Sys2Proof.writeInt (w : Nat) (signed : Bool) (r : Int) : Nat :=
  if w = 64 then (BitVec.ofInt 64 r).toNat
  else if signed then ((BitVec.ofInt w r).signExtend 32).toNat else (BitVec.ofInt w r).toNat

/-- Bounds of a type. -/
def Sys2Proof.leastInt (w : Nat) (signed : Bool) : Int := if signed then -2 ^ (w - 1) else 0
def Sys2Proof.greatestInt (w : Nat) (signed : Bool) : Int := if signed then 2 ^ (w - 1) - 1 else 2 ^ w - 1

/-- An exact result as it is written, with GF: wrapped; or with `.SAT` the nearest bound, and GF.SAT (R114, R116). -/
def Sys2Proof.intWritten (w : Nat) (signed sat : Bool) (r : Int) : Nat × W32 :=
  if sat = false then (writeInt w signed r, 0)
  else if greatestInt w signed < r then (writeInt w signed (greatestInt w signed), 4)
  else if r < leastInt w signed then (writeInt w signed (leastInt w signed), 4)
  else (writeInt w signed r, 0)

/-- The integer arithmetic of lanes, at every integer type: exact, then wrapped or saturated. -/
def Sys2Proof.LaneIntegerResults : Prop :=
  ∀ (s : State) (g : GRef) (gr : Group) (h : LaneHdr) (t : LType) (bits : Nat) (signed sat : Bool) (d : VReg) (a b c : Sel),
    LaneAt s g gr → (t, bits, signed) ∈ intTypes →
    let wide := decide (bits = 64)
    let rd (x : Sel) (w : LaneView) (l : Nat) := readInt bits signed (w.src h (otyOf t) x l)
    let wr := intWritten bits signed
    LaneGives s g gr h [a, b] d wide (.iadd h t sat d a b) (fun w l => wr sat (rd a w l + rd b w l)) ∧
    LaneGives s g gr h [a, b] d wide (.isub h t sat d a b) (fun w l => wr sat (rd a w l - rd b w l)) ∧
    LaneGives s g gr h [a, b] d wide (.imul h t false d a b) (fun w l => wr false (rd a w l * rd b w l)) ∧
    LaneGives s g gr h [a, b, c] d wide (.imad h t sat d a b c) (fun w l => wr sat (rd a w l * rd b w l + rd c w l)) ∧
    LaneGives s g gr h [a, b] d wide (.imin h t d a b) (fun w l => wr false (min (rd a w l) (rd b w l))) ∧
    LaneGives s g gr h [a, b] d wide (.imax h t d a b) (fun w l => wr false (max (rd a w l) (rd b w l))) ∧
    LaneGives s g gr h [a] d wide (.iabs h t sat d a) (fun w l => wr sat (max (rd a w l) (-(rd a w l)))) ∧
    LaneGives s g gr h [a] d wide (.ineg h t sat d a) (fun w l => wr sat (-(rd a w l))) ∧
    (bits = 32 → LaneGives s g gr h [a, b, c] d false (.idot4 h t sat d a b c) (fun w l =>
      let at8 (x : Sel) (i : Nat) := readInt 8 signed (w.src h .nat x l / 256 ^ i)
      wr sat (rd c w l + at8 a 0 * at8 b 0 + at8 a 1 * at8 b 1 + at8 a 2 * at8 b 2 + at8 a 3 * at8 b 3)))

/-- Division and products (R118): `SDIV` truncates towards zero, the remainder has the dividend's sign and the two make the
dividend; by zero they are 0 and the dividend, and -2^63 by -1 gives -2^63 and 0; `SMUL` gives the low 64 bits of the product
and `IMUL.HI` the high 32 bits of the 64-bit one. -/
def Obligations.DivisionAndProductRules : Prop :=
  (∀ (s : State) (g : GRef) (gr : Group) (bt : Bt) (d a b : SReg) (imm : BitVec 12), ScalarAt s g gr →
    let x := gr.sreg a
    let put (r : W64) := Host.Outcome.next (s.scalarDone g (gr.setS d r) 1)
    (∀ y, y = gr.sreg b → y ≠ 0 →
      (∃ q r : Int, x.toInt = q * y.toInt + r ∧ r.natAbs < y.toInt.natAbs ∧ 0 ≤ r * x.toInt ∧
        exec (.sdivReg bt false false d a b) s = put (BitVec.ofInt 64 q) ∧
        exec (.sdivReg bt false true d a b) s = put (BitVec.ofInt 64 r)) ∧
      exec (.sdivReg bt true false d a b) s = put (BitVec.ofNat 64 (x.toNat / y.toNat)) ∧
      exec (.sdivReg bt true true d a b) s = put (BitVec.ofNat 64 (x.toNat % y.toNat))) ∧
    (gr.sreg b = 0 → ∀ uns, exec (.sdivReg bt uns false d a b) s = put 0 ∧ exec (.sdivReg bt uns true d a b) s = put x) ∧
    (x.toInt = -2 ^ 63 → (gr.sreg b).toInt = -1 → exec (.sdivReg bt false false d a b) s = put x ∧
      exec (.sdivReg bt false true d a b) s = put 0) ∧
    (∀ y : W64, y = imm.signExtend 64 → y ≠ 0 →
      ∃ q r : Int, x.toInt = q * y.toInt + r ∧ r.natAbs < y.toInt.natAbs ∧ 0 ≤ r * x.toInt ∧
        exec (.sdivImm bt d a imm) s = put (BitVec.ofInt 64 q)) ∧
    (imm = 0 → exec (.sdivImm bt d a imm) s = put 0) ∧
    exec (.smulReg bt d a b) s = put (BitVec.ofNat 64 (x.toNat * (gr.sreg b).toNat % 2 ^ 64)) ∧
    exec (.smulImm bt d a imm) s = put (BitVec.ofNat 64 (x.toNat * (imm.signExtend 64).toNat % 2 ^ 64))) ∧
  (∀ (s : State) (g : GRef) (gr : Group) (h : LaneHdr) (t : LType) (signed : Bool) (d : VReg) (a b : Sel), LaneAt s g gr →
    (t, signed) ∈ [(LType.i32, true), (.n32, false)] →
    LaneGives s g gr h [a, b] d false (.imul h t true d a b) (fun w l =>
      ((BitVec.ofInt 64 (readInt 32 signed (w.src h (otyOf t) a l) * readInt 32 signed (w.src h (otyOf t) b l))).toNat
        / 2 ^ 32, 0)))

/-- A number from its bits. -/
def Sys2Proof.fromBits (w : Nat) (p : Nat → Bool) : Nat := ((List.range w).map (fun i => if p i then 2 ^ i else 0)).sum

/-- The gates of Table REF-10. -/
def Sys2Proof.gateMeans (g : Fin 8) (x y : Bool) : Bool :=
  match g.val with
  | 0 => x && y
  | 1 => x || y
  | 2 => x ^^ y
  | 3 => x && !y
  | 4 => x || !y
  | 5 => !(x ^^ y)
  | 6 => !(x && y)
  | _ => !(x || y)

/-- Shift counts and shifts of both streams' registers (R117, R441): lane counts are read whole from 32 bits, and a count of
the width or more gives 0, or the sign repeated; with `.WRAP` they are taken modulo the width; scalar counts modulo 64. -/
def Obligations.ShiftCountRules : Prop :=
  (∀ (s : State) (g : GRef) (gr : Group) (h : LaneHdr) (t ti : LType) (bits : Nat) (wrap : Bool) (d : VReg) (a b : Sel),
    LaneAt s g gr → (t, ti, bits) ∈ [(LType.b32, LType.i32, 32), (.b64, .i64, 64)] →
    let wide := decide (bits = 64)
    let cnt (w : LaneView) (l : Nat) := if wrap then w.src h .nat b l % 2 ^ 32 % bits else w.src h .nat b l % 2 ^ 32
    let x (t : LType) (w : LaneView) (l : Nat) : BitVec bits := BitVec.ofNat bits (w.src h (otyOf t) a l)
    LaneGives s g gr h [a, b] d wide (.shl h t wrap d a b) (fun w l => ((x t w l <<< cnt w l).toNat, 0)) ∧
    LaneGives s g gr h [a, b] d wide (.shr h t wrap d a b) (fun w l => ((x t w l >>> cnt w l).toNat, 0)) ∧
    LaneGives s g gr h [a, b] d wide (.sar h ti wrap d a b) (fun w l => (((x ti w l).sshiftRight (cnt w l)).toNat, 0))) ∧
  (∀ (s : State) (g : GRef) (gr : Group) (bt : Bt) (d a b : SReg) (n : Fin 64), ScalarAt s g gr →
    let put (r : W64) := Host.Outcome.next (s.scalarDone g (gr.setS d r) 1)
    exec (.sshlReg bt d a b) s = put (gr.sreg a <<< ((gr.sreg b).toNat % 64)) ∧
    exec (.sshrReg bt d a b) s = put (gr.sreg a >>> ((gr.sreg b).toNat % 64)) ∧
    exec (.ssarReg bt d a b) s = put ((gr.sreg a).sshiftRight ((gr.sreg b).toNat % 64)) ∧
    exec (.sshlImm bt d a n) s = put (gr.sreg a <<< n.val) ∧ exec (.sshrImm bt d a n) s = put (gr.sreg a >>> n.val) ∧
    exec (.ssarImm bt d a n) s = put ((gr.sreg a).sshiftRight n.val))

/-- The bitwise lane words: logic, counting, reversal, bit fields, byte permutation, selection and moves. -/
def Sys2Proof.LaneBitwiseResults : Prop :=
  ∀ (s : State) (g : GRef) (gr : Group) (h : LaneHdr) (t : LType) (bits : Nat) (d : VReg) (a b c : Sel) (g1 g2 : Fin 8)
    (inv pick signed : Bool) (q : PSel) (pos : BfPos), LaneAt s g gr → (t, bits) ∈ [(LType.b32, 32), (.b64, 64)] →
    let wide := decide (bits = 64)
    let rd (x : Sel) (w : LaneView) (l : Nat) := w.src h (otyOf t) x l
    let rd32 (x : Sel) (w : LaneView) (l : Nat) := w.src h .nat x l
    let place (w : LaneView) (l : Nat) : Nat × Nat := match pos with
      | .fixed p n => (p.val, n.val)
      | .var y => (rd32 y w l % 32, min (rd32 y w l / 32 % 64) 32)
    let psels : List Sel := match pos with
      | .fixed _ _ => []
      | .var y => [y]
    LaneGives s g gr h [a, b] d wide (.and h t d a b) (fun w l => (rd a w l &&& rd b w l, 0)) ∧
    LaneGives s g gr h [a, b] d wide (.or h t d a b) (fun w l => (rd a w l ||| rd b w l, 0)) ∧
    LaneGives s g gr h [a, b] d wide (.xor h t d a b) (fun w l => (rd a w l ^^^ rd b w l, 0)) ∧
    LaneGives s g gr h [a, b, c] d wide (.logic h t g1 g2 inv pick d a b c) (fun w l => (fromBits bits (fun i =>
      let x := (rd a w l).testBit i
      let y := (rd b w l).testBit i
      let z := (rd c w l).testBit i
      inv ^^ (if pick then (if z then x else y) else gateMeans g2 (gateMeans g1 x y) z)), 0)) ∧
    LaneGives s g gr h [a] d false (.popc h t d a) (fun w l => ((List.range bits).countP ((rd a w l).testBit ·), 0)) ∧
    LaneGives s g gr h [a] d false (.clz h t d a) (fun w l =>
      (((List.range bits).takeWhile (fun i => !(rd a w l).testBit (bits - 1 - i))).length, 0)) ∧
    LaneGives s g gr h [a] d wide (.brev h t d a) (fun w l =>
      (fromBits bits (fun i => (rd a w l).testBit (bits - 1 - i)), 0)) ∧
    LaneGives s g gr h [a, b] d wide (.sel h t q d a b) (fun w l =>
      ((if (w.pred q.p.val l ^^ q.inv) = true then rd a w l else rd b w l), 0)) ∧
    LaneGives s g gr h [a] d wide (.mov h t d a) (fun w l => (rd a w l, 0)) ∧
    LaneGives s g gr h (a :: psels) d false (.bfe h (if signed then .i32 else .n32) pos d a) (fun w l =>
      let p := place w l
      let bit (i : Nat) := if p.1 + i < 32 then (rd32 a w l).testBit (p.1 + i) else signed && (rd32 a w l).testBit 31
      (fromBits 32 (fun i => if i < p.2 then bit i else signed && decide (0 < p.2) && bit (p.2 - 1)), 0)) ∧
    LaneGives s g gr h (a :: c :: psels) d false (.bfi h pos d a c) (fun w l =>
      let p := place w l
      (fromBits 32 (fun i => if p.1 ≤ i ∧ i < p.1 + p.2 then (rd32 a w l).testBit (i - p.1) else (rd32 c w l).testBit i), 0)) ∧
    LaneGives s g gr h [a, b, c] d false (.prmt h d a b c) (fun w l => (fromBits 32 (fun i =>
      let n := rd32 c w l / 16 ^ (i / 8) % 16
      let x := rd32 a w l + 2 ^ 32 * rd32 b w l
      x.testBit (n % 8 * 8 + if n < 8 then i % 8 else 7)), 0))

/-- What a source selector reads, for the integer columns of Table FMT-5: a lane register through the remap table, a k
register of the block's snapshot, an inline constant, imm16 and the extension slot, extended as the column says. -/
def Obligations.LaneOperandReads : Prop :=
  ∀ (w : LaneView) (h : LaneHdr) (l : Nat) (r : VReg) (k : KReg) (n : Fin 32),
    let reg (i : Nat) := (sget w.v (i * 32 + w.remap.getD l l)).toNat
    w.src h .int (.v r) l = reg r.val ∧ w.src h .nat (.v r) l = reg r.val ∧ w.src h .f32 (.v r) l = reg r.val ∧
    w.src h .n64 (.v r) l = reg r.val + 2 ^ 32 * reg (r.val + 1) ∧
    w.src h .int (.k k) l = (sget w.k k.val).toNat % 2 ^ 32 ∧ w.src h .n64 (.k k) l = (sget w.k k.val).toNat ∧
    w.src h .int .imm16 l = (h.imm.signExtend 32).toNat ∧ w.src h .nat .imm16 l = h.imm.toNat ∧
    w.src h .f32 .imm16 l = h.imm.toNat * 2 ^ 16 ∧ w.src h .i64 .imm16 l = (h.imm.signExtend 64).toNat ∧
    w.src h .n64 .imm16 l = h.imm.toNat ∧ w.src h .int .ext32 l = h.ext.toNat % 2 ^ 32 ∧
    w.src h .i64 .ext32 l = ((BitVec.ofNat 32 h.ext.toNat).signExtend 64).toNat ∧ w.src h .n64 .ext64 l = h.ext.toNat ∧
    w.src h .int (.inl n) l = w.src h .nat (.inl n) l ∧
    w.src h .nat (.inl 9) l = 0xFFFFFFFF ∧ w.src h .i64 (.inl 9) l = 2 ^ 64 - 1 ∧ w.src h .n64 (.inl 9) l = 0xFFFFFFFF ∧
    w.src h .f32 (.inl 17) l = 0x3F800000 ∧ w.src h (.half .f16) (.inl 17) l = 0x3C003C00 ∧
    w.src h (.half .bf16) (.inl 17) l = 0x3F803F80

/-- A lane word writes one predicate in each active lane. -/
def Sys2Proof.LaneTests (s : State) (g : GRef) (gr : Group) (h : LaneHdr) (sels : List Sel) (d : PReg) (i : Instr)
    (f : LaneView → Nat → Bool) : Prop :=
  let v := seen s gr [] [d.val]
  exec i s = .next (v.2.laneFinish g gr h sels { regs := [], preds := (v.1.active h).map (fun l => (d.val, l, f v.1 l)), gf := 0 })

/-- `ISETP`, `FSETP` and `FCLASS` (R397, R372, R377): integers of the type are compared; of floating operands, one NaN makes
NE and NAN hold and the others fail, zeros of either sign are equal, and else the order is that of the values; `FCLASS` tests
one bit of its mask. -/
def Sys2Proof.LanePredicateResults : Prop :=
  ∀ (s : State) (g : GRef) (gr : Group) (h : LaneHdr) (st : SetpTy) (t : LType) (bits : Nat) (signed : Bool) (ft : FTy)
    (mb eb : Nat) (cond : ICond) (fc : FCond) (mask : BitVec 10) (d : PReg) (a b : Sel), LaneAt s g gr →
    (ft, mb, eb) ∈ [(FTy.f32, 23, 8), (.f16, 10, 5), (.bf16, 7, 8)] →
    (st, t, bits, signed) ∈ [(SetpTy.i8, LType.i8, 8, true), (.i16, .i16, 16, true), (.i32, .i32, 32, true),
      (.i64, .i64, 64, true), (.n8, .n8, 8, false), (.n16, .n16, 16, false), (.n32, .n32, 32, false), (.n64, .n64, 64, false)] →
    LaneTests s g gr h [a, b] d (.isetp h st cond d a b) (fun w l =>
      let x := readInt bits signed (w.src h (otyOf t) a l)
      let y := readInt bits signed (w.src h (otyOf t) b l)
      match cond with
      | .eq => decide (x = y)
      | .ne => decide (x ≠ y)
      | .lt => decide (x < y)
      | .le => decide (x ≤ y)
      | .gt => decide (y < x)
      | .ge => decide (y ≤ x)) ∧
    LaneTests s g gr h [a, b] d (.fsetp h ft fc d a b) (fun w l =>
      let sgn := 2 ^ (mb + eb)
      let fl (x : Nat) := if w.fmt.getLsbD 12 ∧ x % sgn < 2 ^ mb then x / sgn * sgn else x
      let x := fl (w.src h (ftyOty ft) a l % (2 * sgn))
      let y := fl (w.src h (ftyOty ft) b l % (2 * sgn))
      let nan (z : Nat) := decide ((2 ^ eb - 1) * 2 ^ mb < z % sgn)
      let key (z : Nat) : Int := if sgn ≤ z then -(z % sgn : Nat) else z
      match fc with
      | .nan => nan x || nan y
      | .num => !(nan x || nan y)
      | .ne => nan x || nan y || decide (key x ≠ key y)
      | .eq => !(nan x || nan y) && decide (key x = key y)
      | .lt => !(nan x || nan y) && decide (key x < key y)
      | .le => !(nan x || nan y) && decide (key x ≤ key y)
      | .gt => !(nan x || nan y) && decide (key y < key x)
      | .ge => !(nan x || nan y) && decide (key y ≤ key x)) ∧
    LaneTests s g gr h [a] d (.fclass h ft mask d a) (fun w l =>
      let x := w.src h (ftyOty ft) a l % 2 ^ (mb + eb + 1)
      let e := x / 2 ^ mb % 2 ^ eb
      let m := x % 2 ^ mb
      let neg := decide (2 ^ (mb + eb) ≤ x)
      mask.getLsbD (if e = 2 ^ eb - 1 then (if m = 0 then (if neg then 0 else 7) else if m < 2 ^ (mb - 1) then 8 else 9)
        else if e = 0 then (if m = 0 then (if neg then 3 else 4) else if neg then 2 else 5)
        else if neg then 1 else 6))

/-- Rounding direction and flush of FMT (Table NUM-2). -/
def Sys2Proof.rmOf (fmt : W32) : Rm :=
  if fmt.getLsbD 11 then (if fmt.getLsbD 10 then .rup else .rdn) else (if fmt.getLsbD 10 then .rtz else .rne)

/-- GF of a floating result: NAN and SAT (R126). -/
def Sys2Proof.flagsOf (r : FRes) : W32 := (if r.nan then 2 else 0) ||| (if r.sat then 4 else 0)

/-- The floating lane words (R125, R373 to R376, R386): the operation on the operands of its format in the lane-side RM and
FTZ, with its flags; of a packed pair, on each element. -/
def Sys2Proof.LaneFloatResults : Prop :=
  ∀ (s : State) (g : GRef) (gr : Group) (h : LaneHdr) (ft : FTy) (f : FFmt) (nan rtz : Bool) (d : VReg) (a b c : Sel),
    LaneAt s g gr → (ft, f) ∈ [(FTy.f32, FFmt.f32), (.f16, .f16), (.bf16, .bf16)] →
    let rm (w : LaneView) := rmOf w.fmt
    let ftz (w : LaneView) := w.fmt.getLsbD 12
    let one (r : FRes) : Nat × W32 := (r.bits, flagsOf r)
    let two (lo hi : FRes) : Nat × W32 := (lo.bits + 2 ^ 16 * hi.bits, flagsOf lo ||| flagsOf hi)
    let x (y : Sel) (w : LaneView) (l : Nat) := w.src h .f32 y l
    let e (y : Sel) (w : LaneView) (l i : Nat) := w.src h (ftyOty ft) y l / 2 ^ (16 * i) % 2 ^ 16
    LaneGives s g gr h [a, b] d false (.fadd h d a b) (fun w l => one (fAdd .f32 (rm w) (ftz w) (x a w l) (x b w l))) ∧
    LaneGives s g gr h [a, b] d false (.fmul h d a b) (fun w l => one (fMul .f32 (rm w) (ftz w) (x a w l) (x b w l))) ∧
    LaneGives s g gr h [a, b, c] d false (.ffma h d a b c) (fun w l =>
      one (fFma .f32 (rm w) (ftz w) (x a w l) (x b w l) (x c w l))) ∧
    LaneGives s g gr h [a, b] d false (.fmin h nan d a b) (fun w l =>
      one (fMinMax .f32 false nan (ftz w) (x a w l) (x b w l))) ∧
    LaneGives s g gr h [a, b] d false (.fmax h nan d a b) (fun w l =>
      one (fMinMax .f32 true nan (ftz w) (x a w l) (x b w l))) ∧
    LaneGives s g gr h [a] d false (.frnd h ft rtz d a) (fun w l =>
      one (fRound f (if rtz then .rtz else rm w) (ftz w) (if ft = .f32 then x a w l else e a w l 0))) ∧
    LaneGives s g gr h [a, b] d false (.hadd2 h ft d a b) (fun w l =>
      two (fAdd f (rm w) (ftz w) (e a w l 0) (e b w l 0)) (fAdd f (rm w) (ftz w) (e a w l 1) (e b w l 1))) ∧
    LaneGives s g gr h [a, b] d false (.hmul2 h ft d a b) (fun w l =>
      two (fMul f (rm w) (ftz w) (e a w l 0) (e b w l 0)) (fMul f (rm w) (ftz w) (e a w l 1) (e b w l 1))) ∧
    LaneGives s g gr h [a, b, c] d false (.hfma2 h ft d a b c) (fun w l =>
      two (fFma f (rm w) (ftz w) (e a w l 0) (e b w l 0) (e c w l 0)) (fFma f (rm w) (ftz w) (e a w l 1) (e b w l 1) (e c w l 1)))

/-- A pattern of a format is a NaN. -/
def Sys2Proof.nanBits (f : FFmt) (x : Nat) : Prop := (2 ^ f.eb - 1) * 2 ^ f.mb < x % 2 ^ (f.mb + f.eb)
/-- A pattern of a format is finite. -/
def Sys2Proof.finBits (f : FFmt) (x : Nat) : Prop := x % 2 ^ (f.mb + f.eb) < (2 ^ f.eb - 1) * 2 ^ f.mb

/-- Special values of floating arithmetic (R120, R125 to R128): a NaN operand and an invalid operation give the canonical NaN
with its flag; infinities carry; an exact zero sum is +0, but -0 towards minus infinity; and of `FMIN` and `FMAX` the form
decides what a NaN does. -/
def Sys2Proof.FloatSpecialValues : Prop :=
  ∀ (f : FFmt) (canon : Nat) (rm : Rm) (ftz : Bool) (x y z : Nat),
    (f, canon) ∈ [(FFmt.f32, 0x7FC00000), (.f16, 0x7E00), (.bf16, 0x7FC0)] → x < 2 ^ (f.mb + f.eb + 1) →
    y < 2 ^ (f.mb + f.eb + 1) → z < 2 ^ (f.mb + f.eb + 1) →
    let bad (r : FRes) := r.bits = canon ∧ r.nan = true
    let inf := (2 ^ f.eb - 1) * 2 ^ f.mb
    let minus := 2 ^ (f.mb + f.eb)
    (nanBits f x ∨ nanBits f y → bad (fAdd f rm ftz x y) ∧ bad (fMul f rm ftz x y)) ∧
    (nanBits f x ∨ nanBits f y ∨ nanBits f z → bad (fFma f rm ftz x y z)) ∧
    bad (fAdd f rm ftz inf (minus + inf)) ∧ bad (fMul f rm ftz inf 0) ∧
    (finBits f x → (fAdd f rm ftz inf x).bits = inf ∧ (fAdd f rm ftz x (minus + inf)).bits = minus + inf) ∧
    (finBits f x → 2 ^ f.mb ≤ x → x < minus →
      (fAdd f rm ftz x (minus + x)).bits = (if rm = .rdn then minus else 0)) ∧
    (∀ big nan, nanBits f x → ¬ nanBits f y →
      (nan = true → bad (fMinMax f big nan ftz x y)) ∧ (nan = false → (fMinMax f big nan ftz x y).nan = false))

/-- Special functions, conversions, packing and unpacking (R358, R363, R423, R463): the fixed function of the form of its input
and the lane-side settings; the results of special functions are counted too. -/
def Obligations.LaneConversionResults : Prop :=
  ∀ (s : State) (g : GRef) (gr : Group) (h : LaneHdr) (dst src t : LType) (n : Nat) (i : Fin 8) (d : VReg) (a b c e : Sel),
    LaneAt s g gr →
    let one (r : FRes) : Nat × W32 := (r.bits, flagsOf r)
    let v := seen s gr [d.val] []
    let sf (op : SfOp) (i : Instr) := exec i s = .next ((v.2.laneFinish g gr h [a] (mapOut d false (fun w l =>
      one (specialFn op (rmOf w.fmt) (w.fmt.getLsbD 12) (w.src h .f32 a l))) v.1 (v.1.active h))).count
        g.core (s.ctxOf g) 0x05 (v.1.active h).length)
    sf .rcp (.rcp h d a) ∧ sf .rsq (.rsq h d a) ∧ sf .sqrt (.sqrt h d a) ∧ sf .ex2 (.ex2 h d a) ∧ sf .lg2 (.lg2 h d a) ∧
    sf .sin (.sin h d a) ∧ sf .cos (.cos h d a) ∧ sf .tanh (.tanh h d a) ∧
    LaneGives s g gr h [a] d dst.wide (.cvt h dst src d a) (fun w l =>
      one (convert dst src (rmOf w.fmt) (w.fmt.getLsbD 12) (w.fmt.toNat / 2 ^ 13 % 8) (w.src h (otyOf src) a l))) ∧
    ((t, n) ∈ [(LType.i8, 8), (.n8, 8), (.e4m3, 8), (.e5m2, 8), (.dpt8, 8)] →
      LaneGives s g gr h [a, b, c, e] d false (.pack h t d a b c e) (fun w l =>
        let x (y : Sel) := w.packElem h t y l
        ((x a).bits + 2 ^ 8 * (x b).bits + 2 ^ 16 * (x c).bits + 2 ^ 24 * (x e).bits,
          flagsOf (x a) ||| flagsOf (x b) ||| flagsOf (x c) ||| flagsOf (x e)))) ∧
    ((t, n) ∈ [(LType.f16, 16), (.bf16, 16)] → LaneGives s g gr h [a, b, c, e] d false (.pack h t d a b c e) (fun w l =>
      let x (y : Sel) := w.packElem h t y l
      ((x a).bits + 2 ^ 16 * (x b).bits, flagsOf (x a) ||| flagsOf (x b)))) ∧
    ((t, n) ∈ [(LType.i4, 4), (.e2m1, 4)] → LaneGives s g gr h [a, b, c, e] d false (.pack h t d a b c e) (fun w l =>
      let x (y : Sel) := w.packElem h t y l
      (2 ^ 16 * (w.reg d.val l % 2 ^ 16) + (x a).bits + 2 ^ 4 * (x b).bits + 2 ^ 8 * (x c).bits + 2 ^ 12 * (x e).bits,
        flagsOf (x a) ||| flagsOf (x b) ||| flagsOf (x c) ||| flagsOf (x e)))) ∧
    ((t, n) ∈ [(LType.i8, 8), (.n8, 8), (.i4, 4)] → i.val < 32 / n →
      LaneGives s g gr h [a] d false (.unpk h t i d a) (fun w l =>
        let x := w.src h .nat a l / 2 ^ (n * i.val) % 2 ^ n
        (if t = .n8 then x else ((BitVec.ofNat n x).signExtend 32).toNat, 0))) ∧
    ((t, n) ∈ [(LType.e4m3, 8), (.e5m2, 8), (.dpt8, 8), (.e2m1, 4), (.f16, 16), (.bf16, 16)] → i.val < 32 / n →
      LaneGives s g gr h [a] d false (.unpk h t i d a) (fun w l =>
        one (convertVal .f32 (rmOf w.fmt) (w.fmt.getLsbD 12) 0 (t.value (w.fmt.getLsbD 12)
          (w.src h .nat a l / 2 ^ (n * i.val) % 2 ^ n)))))

/-- A lane word whose writes are given whole, with the state after its reads. -/
def Sys2Proof.LaneDoes (s v : State) (g : GRef) (gr' : Group) (h : LaneHdr) (sels : List Sel) (i : Instr) (o : LaneOut) :
    Prop := exec i s = .next (v.laneFinish g gr' h sels o)

/-- `mix32` of R144, on numbers. -/
def Sys2Proof.mixMeans (x : Nat) : Nat :=
  let x := (x ^^^ x / 2 ^ 16) * 0x7FEB352D % 2 ^ 32
  let x := (x ^^^ x / 2 ^ 15) * 0x846CA68B % 2 ^ 32
  x ^^^ x / 2 ^ 16

/-- Words that move or compare values between lanes (R350, R365, R369, R370, R384, R415, R448, R464) and `RAND` (R144,
R428): every read is of the word's view by virtual lane, before any write. -/
def Obligations.CrossLaneResults : Prop :=
  ∀ (s : State) (g : GRef) (gr : Group) (h : LaneHdr) (t : LType) (wide : Bool) (mode : ShflMode) (vm : VoteMode) (q : PSel)
    (all : Bool) (d a : VReg) (p : PReg) (b x : Sel), LaneAt s g gr → (t, wide) ∈ [(LType.b32, false), (.b64, true)] →
    let reg (w : LaneView) (l : Nat) := if wide then w.reg a.val l + 2 ^ 32 * w.reg (a.val + 1) l else w.reg a.val l
    let ofPred (w : LaneView) (l : Nat) := w.pred q.p.val l != q.inv
    LaneGives s g gr h [b] d wide (.shfl h t mode d a b) (fun w l =>
      let n := w.src h .nat b l
      (reg w (match mode with
        | .idx => n % 32
        | .up => if n ≤ l then l - n else l
        | .down => if l + n < 32 then l + n else l
        | .xor => l ^^^ (n % 32)), 0)) ∧
    (∀ w u, seen s gr (resultRegs d wide) [] = (w, u) →
      (w.active h = [] → LaneDoes s u g gr h [b] (.bcast h t d a b) ⟨[], [], 0⟩) ∧
      (∀ f rest, w.active h = f :: rest → LaneDoes s u g gr h [b] (.bcast h t d a b)
        (mapOut d wide (fun _ _ => (reg w (w.src h .nat b f % 32), 0)) w (w.active h)))) ∧
    LaneGives s g gr h [] d false (.getl h d) (fun _ l => (l, 0)) ∧
    LaneGives s g gr h [] d false (.exmget h d) (fun w _ => (w.exm.toNat, 0)) ∧
    (∀ w u, seen s gr [] [p.val] = (w, u) →
      LaneDoes s u g gr h [] (.elect h p) ⟨[], (w.active h).map (fun l => (p.val, l, decide (∀ m ∈ w.active h, l ≤ m))), 0⟩) ∧
    (∀ w u, seen s gr [] [] = (w, u) →
      (w.active h = [] → LaneDoes s u g gr h [x] (.exmset h x) ⟨[], [], 0⟩) ∧
      (∀ f rest, w.active h = f :: rest →
        LaneDoes s u g { gr with exmL := BitVec.ofNat 32 (w.src h .nat x f) } h [x] (.exmset h x) ⟨[], [], 0⟩)) ∧
    (∀ w u, seen s gr [d.val] [] = (w, u) →
      LaneDoes s u g gr h [] (.vote h .ballot q d) ⟨(w.active h).map (fun l => (d.val, l,
        fromBits 32 (fun m => decide (m ∈ w.active h) && ofPred w m))), [], 0⟩) ∧
    (∀ w u, seen s gr [] [d.val] = (w, u) → ∀ r : Bool, vm ≠ .ballot → (r = true ↔ match vm with
        | .all => ∀ m ∈ w.active h, ofPred w m = true
        | .any => ∃ m ∈ w.active h, ofPred w m = true
        | _ => ∀ m ∈ w.active h, ∀ n ∈ w.active h, w.pred q.p.val m = w.pred q.p.val n) →
      LaneDoes s u g gr h [] (.vote h vm q d) ⟨[], (w.active h).map (fun l => (d.val, l, r)), 0⟩) ∧
    (∀ w u, seen s gr [d.val] [] = (w, u) →
      let v (m : Nat) := w.src h (otyOf t) x m
      LaneDoes s u g gr h [x] (.matchLanes h t all d x) ⟨(w.active h).map (fun l => (d.val, l,
        if all then (if ∀ m ∈ w.active h, v m = v l then fromBits 32 (fun m => decide (m ∈ w.active h)) else 0)
        else fromBits 32 (fun m => decide (m ∈ w.active h) && decide (v m = v l)))), [], 0⟩) ∧
    LaneGives s g gr h [x, b] d false (.rand h d x b) (fun w l =>
      let ctr := w.src h .n64 x l
      let key := w.src h .n64 b l
      (mixMeans (mixMeans ((ctr + key) % 2 ^ 32) ^^^ key / 2 ^ 32 ^^^ ctr / 2 ^ 32), 0))

/-- `REDUX`, `SCAN` and `GSORT` (R141 to R143, R385, R433, R444): the reduction of the active lanes' values, a copy of it in the
reply register where asked; the inclusive or exclusive prefixes; the pairs in the order of their keys, equal keys in lane
order; and GF.EMPTY for no lane. -/
def Obligations.ReductionScanSortResults : Prop :=
  ∀ (s : State) (g : GRef) (gr : Group) (h : LaneHdr) (t : LType) (signed : Bool) (op : RedOp) (y : YReg)
    (wy excl desc : Bool) (d : VReg) (a b : Sel) (w : LaneView) (u : State), LaneAt s g gr → seen s gr [d.val] [] = (w, u) →
    let act := w.active h
    let x (l : Nat) := w.src h (otyOf t) a l
    let key (n : Nat) := readInt 32 signed n
    ((t, signed) ∈ [(LType.i32, true), (.n32, false)] → act ≠ [] → ∃ r : Nat, r < 2 ^ 32 ∧
      (op = .add → r = (act.map x).sum % 2 ^ 32) ∧
      (op = .min → (∃ l ∈ act, r = x l) ∧ ∀ l ∈ act, key r ≤ key (x l)) ∧
      (op = .max → (∃ l ∈ act, r = x l) ∧ ∀ l ∈ act, key (x l) ≤ key r) ∧
      (op = .and → r = act.foldl (fun n l => n &&& x l) (2 ^ 32 - 1)) ∧
      (op = .or → r = act.foldl (fun n l => n ||| x l) 0) ∧ (op = .xor → r = act.foldl (fun n l => n ^^^ x l) 0) ∧
      LaneDoes s u g (if wy then { gr with yL := sset gr.yL y.val (BitVec.ofNat 64 r) } else gr) h [a]
        (.redux h t op y wy d a) ⟨act.map (fun l => (d.val, l, r)), [], 0⟩) ∧
    ((t, signed) ∈ [(LType.i32, true), (.n32, false)] → act ≠ [] → op = .add →
      LaneDoes s u g gr h [a] (.scan h t op excl d a) ⟨act.map (fun l => (d.val, l,
        ((act.filter (fun m => if excl then m < l else m ≤ l)).map x).sum % 2 ^ 32)), [], 0⟩) ∧
    ((t, signed) ∈ [(LType.i32, true), (.n32, false)] → act ≠ [] → op = .max → excl = false → ∃ f : Nat → Nat,
      (∀ l ∈ act, (∃ m ∈ act, m ≤ l ∧ f l = x m) ∧ ∀ m ∈ act, m ≤ l → key (x m) ≤ key (f l)) ∧
      LaneDoes s u g gr h [a] (.scan h t op excl d a) ⟨act.map (fun l => (d.val, l, f l)), [], 0⟩) ∧
    (act = [] → LaneDoes s u g gr h [a] (.scan h t op excl d a) ⟨[], [], 1⟩ ∧ ∃ gr',
      LaneDoes s u g gr' h [a] (.redux h t op y wy d a) ⟨[], [], 1⟩ ∧ { gr' with yL := gr.yL } = gr ∧
        (wy = false → gr' = gr)) ∧
    (t = .f32 → act ≠ [] → ∃ (r : Nat) (f : Nat → Nat) (gf gf' : W32) (gr' : Group), LaneDoes s u g gr' h [a] (.redux h t op y wy d a)
        ⟨act.map (fun l => (d.val, l, r)), [], gf⟩ ∧ { gr' with yL := gr.yL } = gr ∧
      LaneDoes s u g gr h [a] (.scan h t op excl d a) ⟨act.map (fun l => (d.val, l, f l)), [], gf'⟩) ∧
    ((t, signed) ∈ [(LType.i32, true), (.n32, false)] → ∀ w u, seen s gr [d.val, d.val + 1] [] = (w, u) →
      let act := w.active h
      let items := act.map (fun l => (w.src h (otyOf t) a l, w.src h .nat b l))
      ∃ sorted : List (Nat × Nat), sorted.Perm items ∧
      sorted.Pairwise (fun u v => if desc then key v.1 ≤ key u.1 else key u.1 ≤ key v.1) ∧
      (∀ k, sorted.filter (fun u => key u.1 == k) = items.filter (fun u => key u.1 == k)) ∧
      LaneDoes s u g gr h [a, b] (.gsort h t desc d a b)
        ⟨(act.zip sorted).flatMap (fun z => [(d.val, z.1, z.2.1), (d.val + 1, z.1, z.2.2)]), [], 0⟩)

/-- The lane side's remap table is a permutation of the 32 physical lanes (R47). -/
def Sys2Proof.RemapOk (gr : Group) : Prop := gr.remap.length = 32 ∧ gr.remap.Nodup ∧ ∀ p ∈ gr.remap, p < 32

/-- Everything of a group that no lane word with a register or predicate result writes: the scalar side, k, y, the masks and
FMT, the stack, the queue and the objects. -/
def Sys2Proof.SameScalarSide (gr gr' : Group) : Prop :=
  gr'.s = gr.s ∧ gr'.c = gr.c ∧ gr'.k = gr.k ∧ gr'.yS = gr.yS ∧ gr'.yL = gr.yL ∧ gr'.exmS = gr.exmS ∧ gr'.exmL = gr.exmL ∧
  gr'.fmtS = gr.fmtS ∧ gr'.fmtL = gr.fmtL ∧ gr'.gfS = gr.gfS ∧ gr'.remap = gr.remap ∧ gr'.stack = gr.stack ∧
  gr'.spc = gr.spc ∧ gr'.sMarks = gr.sMarks ∧ gr'.run = gr.run ∧ gr'.laneQ = gr.laneQ ∧ gr'.spilled = gr.spilled ∧
  gr'.waitS = gr.waitS ∧ gr'.mx = gr.mx ∧ gr'.obj = gr.obj ∧ gr'.trap = gr.trap ∧ gr'.eng = gr.eng ∧
  gr'.status = gr.status ∧ gr'.grant = gr.grant ∧ gr'.role = gr.role ∧ gr'.allot = gr.allot

/-- The frame of the lane words with one result in each active lane: those registers hold it, by virtual lane, every other
register of every lane and every predicate is as before, GF gains the lanes' flags, the stream goes on, and neither the
scalar side nor memory, nor any other group, changes; a predicate result likewise. -/
def Obligations.LaneResultFrame : Prop :=
  ∀ (s t : State) (g : GRef) (gr : Group) (h : LaneHdr) (sels : List Sel) (i : Instr), LaneAt s g gr → RemapOk gr →
    exec i s = .next t →
    let phys (l : Nat) := gr.remap.getD l l
    let rest (gr' : Group) := t.group g = some gr' ∧ SameScalarSide gr gr' ∧
      gr'.lpc = nextLPc gr.lpc (if Sel.ext32 ∈ sels ∨ Sel.ext64 ∈ sels then 2 else 1) ∧
      (∀ g', g' ≠ g → t.group g' = s.group g') ∧ t.teams = s.teams ∧ (NoWrap s g.core 0x03 1 → SameButGroups s t)
    (∀ (d : VReg) (wide : Bool) (f : LaneView → Nat → Nat × W32), LaneGives s g gr h sels d wide i f → ∃ gr', rest gr' ∧
      let w := (seen s gr (resultRegs d wide) []).1
      let act := w.active h
      (∀ l ∈ act, sget gr'.v (vkey d.val (phys l)) = BitVec.ofNat 32 (f w l).1 ∧
        (wide = true → sget gr'.v (vkey (d.val + 1) (phys l)) = BitVec.ofNat 32 ((f w l).1 / 2 ^ 32))) ∧
      (∀ r p, p < 32 → (∀ l ∈ act, p = phys l → r ≠ d.val ∧ (wide = true → r ≠ d.val + 1)) →
        sget gr'.v (vkey r p) = sget gr.v (vkey r p)) ∧ gr'.p = gr.p ∧
      gr'.gfL = act.foldl (fun m l => m ||| (f w l).2) gr.gfL) ∧
    (∀ (d : PReg) (f : LaneView → Nat → Bool), LaneTests s g gr h sels d i f → ∃ gr', rest gr' ∧
      let w := (seen s gr [] [d.val]).1
      let act := w.active h
      (∀ l ∈ act, (sget gr'.p d.val).getLsbD (phys l) = f w l) ∧
      (∀ p < 32, (∀ l ∈ act, p ≠ phys l) → (sget gr'.p d.val).getLsbD p = (sget gr.p d.val).getLsbD p) ∧
      (∀ r, r ≠ d.val → sget gr'.p r = sget gr.p r) ∧ gr'.v = gr.v ∧ gr'.gfL = gr.gfL)

/-- A lane transfer whose target has been checked: at the target, or CONTROL at the transferring word (R86). -/
def Sys2Proof.LaneTransfers (s : State) (g : GRef) (gr : Group) (pc : W64) (call : Bool)
    (o : Host.Outcome State Fault Refusal) : Prop :=
  ∀ s1 r, s.checkTarget (s.ctxOf g) true call pc.toNat = (r, s1) →
    (r = .good → o = .next (s1.laneJump g gr pc false)) ∧ (r = .unread → o = .next (s1.laneJump g gr pc true)) ∧
    (r = .breach → o = .next (s1.trapL g .control 0 pc.toNat 0))

/-- Divergence, joins, lane calls and block ends (R402 to R404, R407, R409, R410, R412): what each pushes or pops, the mask
the lanes go on with, and where. A push on 32 entries writes the oldest of them to the sump ring (R45). -/
def Sys2Proof.LaneControlResults : Prop :=
  ∀ (s s1 : State) (g : GRef) (gr : Group) (h : LaneHdr) (w : LaneView) (td : BitVec 12) (ts : Fin 16) (jd : BitVec 14)
    (js : Fin 16) (tgt : LCallTgt) (e : StackEntry) (rest : List StackEntry), LaneAt s g gr → s.view gr.endLook = (w, s1) →
    s1.pushMeet g gr = none →
    let taken := laneMask (w.active h)
    let next := nextLPc gr.lpc 1
    let line (d : Int) (slot : Nat) : W64 := BitVec.ofInt 64 (((gr.lpc.toNat / 16 : Nat) + d) * 16 + slot)
    let join := line jd.toInt js.val
    let push (k : StackKind) (m : W32) (pc : W64) (pnd : Bool) := { gr with
      stack := { kind := k, mask := m, lpc := pc, fmt := gr.fmtL &&& 0xFFFFFF, pnd := pnd } :: gr.stack }
    let lbr := exec (.lbr h td ts jd js) s
    let lcall := exec (.lcall h tgt) s
    let s2 := match gr.stack[31]? with
      | some o => s1.spillTo g.core (s1.ctxOf g) 16 o.word
      | none => s1
    let pop := { gr with stack := rest, exmL := e.mask, fmtL := e.fmt &&& 0xFFFFFF }
    (taken = 0 → lbr = .next (s2.laneJump g (push .diverge gr.exmL join false) next false)) ∧
    (taken ≠ 0 → (gr.exmL &&& ~~~taken = 0 ∨ next = join) →
      LaneTransfers s2 g { push .diverge gr.exmL join false with exmL := taken } (line td.toInt ts.val) false lbr) ∧
    (taken ≠ 0 → gr.exmL &&& ~~~taken ≠ 0 → next ≠ join →
      LaneTransfers s2 g { push .diverge (gr.exmL &&& ~~~taken) next true with exmL := taken } (line td.toInt ts.val) false lbr) ∧
    (taken = 0 → lcall = .next (s1.laneJump g gr next false)) ∧
    (∀ d, tgt = .near d → taken ≠ 0 →
      LaneTransfers s2 g { push .call gr.exmL next false with exmL := taken } (line d.toInt 0) true lcall) ∧
    (∀ k, tgt = .far k → taken ≠ 0 →
      LaneTransfers s2 g { push .call gr.exmL next false with exmL := taken } (sget w.k k.val) true lcall) ∧
    (gr.stack = e :: rest → e.kind = .call → LaneTransfers s g pop e.lpc false (exec (.lret h) s)) ∧
    (gr.stack = [] ∨ (gr.stack = e :: rest ∧ e.kind ≠ .call) → exec (.lret h) s = .next (s.trapL g .convergence 2 0 0)) ∧
    (gr.stack = e :: rest → e.kind = .diverge → e.pnd = true → LaneTransfers s g
      { pop with stack := { e with mask := e.mask ||| gr.exmL, lpc := gr.lpc, pnd := false } :: rest } e.lpc false
      (exec (.ljoin h) s)) ∧
    (gr.stack = e :: rest → e.kind = .diverge → e.pnd = false → e.lpc = gr.lpc →
      exec (.ljoin h) s = .next (s.laneJump g pop next false)) ∧
    (gr.stack = e :: rest → e.kind = .diverge → e.pnd = false → e.lpc ≠ gr.lpc →
      LaneTransfers s g gr e.lpc false (exec (.ljoin h) s)) ∧
    (gr.stack = [] → exec (.ljoin h) s = .next (s.trapL g .convergence 2 0 0)) ∧
    (∀ k, gr.run = some { k := k, depth := gr.stack.length } → s.hostOf g gr = false → gr.out = [] → gr.mx = [] →
      gr.look = [] → exec (.lend h) s = .next (s.laneJump g
        { gr with run := none, ended := gr.ended + 1, mxEnded := gr.mxIssued } next false)) ∧
    (∀ r, gr.run = some r → r.depth < gr.stack.length → exec (.lend h) s = .next (s.trapL g .convergence 3 0 0)) ∧
    exec (.lnop h) s = .next ((seen s gr [] []).2.laneFinish g gr h [] ⟨[], [], 0⟩)

/-- `REGROUP` (R48, R49, R434): the first arrivals wait with what they hold; the last one gathers the role, and where a group
is its role's only participant it goes on at once as the host of its own lanes, its mask the low bits, its remap table a
permutation, and an entry pushed for the join. -/
def Sys2Proof.RegroupResults : Prop :=
  ∀ (s : State) (g : GRef) (gr : Group) (h : LaneHdr) (d : VReg) (n : Fin 32) (tm : Team), LaneAt s g gr →
    g.isHandler = false → s.team g.team = some tm → tm.region gr.role = none → s.pushMeet g gr = none → gr.out = [] →
    gr.alt = [] → gr.status = .active →
    let act := (s.view gr).1.active h
    (∀ g2 gr2, g2 ≠ g → g2.gid ≠ g.gid → (g2, gr2) ∈ s.participants g.team gr.role → ∃ t gr' tm' x,
      exec (.regroup h d n) s = .next t ∧ t.group g = some gr' ∧ gr'.waitL = some .regroup ∧ gr'.lpc = gr.lpc ∧
      gr'.v = gr.v ∧ t.team g.team = some tm' ∧ tm'.region gr.role = some x ∧ x.arrived = [g.gid] ∧ x.gathered = false ∧
      x.first = d.val ∧ x.count = n.val + 1 ∧ x.addr = gr.lpc) ∧
    (s.participants g.team gr.role = [(g, gr)] → act ≠ [] → gr.look = [] → ∃ t gr' tm' x, exec (.regroup h d n) s = .next t ∧
      t.group g = some gr' ∧ gr'.lpc = nextLPc gr.lpc 1 ∧ gr'.exmL = BitVec.ofNat 32 (2 ^ act.length - 1) ∧
      RemapOk gr' ∧ gr'.stack = { kind := .regroup, mask := gr.exmL, lpc := 0, fmt := gr.fmtL, pnd := false } :: gr.stack ∧
      gr'.waitL = none ∧ t.team g.team = some tm' ∧ tm'.region gr.role = some x ∧ x.gathered = true ∧
      (∀ r j : Nat, d.val ≤ r → r ≤ d.val + n.val → j < act.length →
        sget gr'.v (vkey r (gr'.remap.getD j j)) = sget gr.v (vkey r (act.getD j 0))))

/-! Lane memory -/

/-- A memory word whose lanes pass their checks goes on to the outstanding list under its path with the units that it is made
of (R163), and ends what loads in flight still had to write to its destinations (R165); where some lane meets a cause it traps with
the cause and the lanes (R153). `dst` is the registers that it writes. -/
def Sys2Proof.MemIssues {α : Type} (s : State) (g : GRef) (gr : Group) (h : LaneHdr) (i : Instr) (path : PathClass)
    (ret : Bool) (sels : List Sel) (dst : List Nat) (addr : LaneView → Nat → Nat)
    (check : LaneView → State → Nat → Except Meet α × State) (units : LaneView → List (Nat × α) → List AUnit)
    (passes : LaneView → List (Nat × α) → List Pass := fun _ _ => []) : Prop :=
  ∀ (w : LaneView) (s1 s2 : State) (rs : List (Nat × Except Meet α)), seen s gr dst [] = (w, s1) → gr.pathCount path < 63 →
    checkLanes (check w) (w.active h) s1 = (rs, s2) →
    (∀ m ls, firstCause rs = some (m, ls) →
      exec i s = .next (s2.trapL g m.cause m.info (addr w (ls.headD 0)) (laneMask ls))) ∧
    (firstCause rs = none →
      let acc : OutOp := { id := gr.nextId, path := path, ret := ret, units := units w (passed rs),
                            allLanes := laneMask (w.active h), pc := gr.lpc, sent := none, passes := passes w (passed rs) }
      exec i s = .next (s2.laneDone g
        { gr with out := (gr.overwritten (units w (passed rs))).out ++ [acc], nextId := gr.nextId + 1 }
        (if Sel.ext32 ∈ sels ∨ Sel.ext64 ∈ sels then 2 else 1)))

/-- The address of a lane global access (R148) and of a scratch or window access (R149, R150), in exact arithmetic. -/
def Sys2Proof.globalVa (h : LaneHdr) (a b : Sel) (off : W16) (w : LaneView) (l : Nat) : Nat :=
  (BitVec.ofInt 64 ((w.base64 a l : Nat) + (BitVec.ofNat 32 (w.src h .nat b l)).toInt + off.toInt)).toNat
def Sys2Proof.scratchVa (h : LaneHdr) (a b : Sel) (off : W16) (w : LaneView) (l : Nat) : Nat :=
  (BitVec.ofInt 32 ((w.src h .nat a l : Nat) + (w.src h .nat b l : Nat) + off.toInt)).toNat
def Sys2Proof.fabricVa (a : Sel) (off : W16) (w : LaneView) (l : Nat) : Nat :=
  (BitVec.ofInt 64 ((w.base64 a l : Nat) + off.toInt)).toNat

/-- Units of an access (Table ORD-1): bytes of each, by width and atomicity flag. -/
def Sys2Proof.ordUnit (fn : MemFn) : Nat :=
  match fn.width, fn.atomic with
  | .i8, _ | .n8, _ => 1
  | .i16, _ | .n16, _ => 2
  | .b64, true => 8
  | .b128, true => 16
  | _, _ => 4

/-- Global and local lane accesses as they issue (R405, R406, R459, R460): addresses, checks, units and paths. -/
def Sys2Proof.LaneAccessIssue : Prop :=
  ∀ (s : State) (g : GRef) (gr : Group) (h : LaneHdr) (fn : MemFn) (d : VReg) (full : Bool) (a b c : Sel) (off : W16),
    LaneAt s g gr → (fn.atomic = true → fn.width = .b64 ∨ fn.width = .b128) →
    let n := fn.width.bytes
    let dst := (List.range ((n + 3) / 4)).map (d.val + ·)
    let va := globalVa h a b off
    let off' := scratchVa h a b off
    let glob (rd wr : Bool) (w : LaneView) (s : State) (l : Nat) :=
      s.checkSpan (s.ctxOf g) (va w l) n (ordUnit fn) rd wr true (!gr.skipL.wp) (some g.core) (s.teamIdOf g)
    let loc (win : Bool) (n m : Nat) (w : LaneView) (s : State) (l : Nat) := s.checkLocal win (s.teamRefOf g) (off' w l) n m
    let local_ (x : Nat × (TRef × Nat)) := inSpace (.scratch x.2.1) x.2.2
    let loads (w : LaneView) (xs : List (Nat × (TRef × Nat))) :=
      xs.flatMap (fun x => loadUnits fn d h (local_ x) (off' w x.1) x.1 (w.phys x.1))
    let stores (w : LaneView) (xs : List (Nat × (TRef × Nat))) :=
      xs.flatMap (fun x => storeUnits fn h (local_ x) (off' w x.1) x.1 (w.storeData h fn.width c x.1) (fun _ => false))
    MemIssues s g gr h (.ldg h fn d a b off) .gl true [a, b] dst va (glob true false) (fun w xs =>
      xs.flatMap (fun x => loadUnits fn d h (inPages x.2 (va w x.1) n) (va w x.1) x.1 (w.phys x.1))) ∧
    MemIssues s g gr h (.stg h fn a b c off) .st false [a, b, c] [] va (glob false true) (fun w xs =>
      xs.flatMap (fun x => storeUnits fn h (inPages x.2 (va w x.1) n) (va w x.1) x.1 (w.storeData h fn.width c x.1)
        (fun o => (spanAt x.2 (va w x.1) n o).mor))) ∧
    (fn.tag = .none →
      MemIssues s g gr h (.lds h fn d a b off) .sl true [a, b] dst off' (loc false n (ordUnit fn)) loads ∧
      MemIssues s g gr h (.ldx h fn d a b off) .sl true [a, b] dst off' (loc true n (ordUnit fn)) loads ∧
      MemIssues s g gr h (.sts h fn a b c off) .st false [a, b, c] [] off' (loc false n (ordUnit fn)) stores ∧
      MemIssues s g gr h (.stx h fn a b c off) .st false [a, b, c] [] off' (loc true n (ordUnit fn)) stores) ∧
    MemIssues s g gr h (.tagset h full a b off) .st false [a, b] [] off' (loc false 4 4) (fun _ xs =>
      xs.map (fun x => tagUnitOf (.tagSet full) x.2.1 x.2.2 x.1 x.1 [])) ∧
    MemIssues s g gr h (.tagget h d a b off) .sl true [a, b] [d.val] off' (loc false 4 4) (fun w xs =>
      xs.map (fun x => tagUnitOf .tagGet x.2.1 x.2.2 x.1 (w.phys x.1) [some d.val]))

/-- Fabric accesses, atomics, `WAITP` and `PREF` as they issue (R151, R152, R345 to R347, R425, R429, R432, R465). The passes of
a fabric word go by rank, the lanes of a pass ascending; an atomic whose value returns goes the way of loads, another that of
stores. -/
def Sys2Proof.LaneAtomicAndFabricIssue : Prop :=
  ∀ (s : State) (g : GRef) (gr : Group) (h : LaneHdr) (fn : MemFn) (op : AOp) (aw : AWidth) (nr : Bool) (d : VReg)
    (path : PathClass) (l2 : Bool) (a b c e : Sel) (off : W16), LaneAt s g gr →
    (fn.atomic = true → fn.width = .b64 ∨ fn.width = .b128) →
    let n := fn.width.bytes
    let va := globalVa h a b off
    let fva := fabricVa a off
    let onHost := op == .add || op == .xch || op == .cas
    let rank (w : LaneView) (l : Nat) := w.src h .nat b l
    let fab (n m : Nat) (rd wr host : Bool) (w : LaneView) (s : State) (l : Nat) :=
      s.checkFabric (s.ctxOf g) (rank w l) (fva w l) n m rd wr host (some g.core)
    let ranked (w : LaneView) (xs : List (Nat × Unit)) := xs.map (fun x => (x.1, rank w x.1))
    let inPasses (f : LaneView → Nat → Nat → List AUnit) (w : LaneView) (xs : List (Nat × Unit)) :=
      passUnits (ranked w xs) (f w)
    let passes (w : LaneView) (xs : List (Nat × Unit)) := passesOf (ranked w xs) (fva w)
    let old : List (Option Nat) := if nr then [] else if aw = .w64 then [some d.val, some (d.val + 1)] else [some d.val]
    let oldRegs : List Nat := if nr then [] else if aw = .w64 then [d.val, d.val + 1] else [d.val]
    let glob (red : Bool) (w : LaneView) (s : State) (l : Nat) := s.checkGlobal (s.ctxOf g) (va w l) aw.bytes
      aw.bytes (!red) true (!red && onHost) (!gr.skipL.wp) (some g.core) (s.teamIdOf g)
    let rmw (w : LaneView) (xs : List (Nat × Xl)) (e : Sel) (old : List (Option Nat)) := xs.map (fun x =>
      atomUnit h op aw (if x.2.host then .host else .global) (va w x.1) x.2.pa x.1 (w.phys x.1)
        (w.atomSrc h op aw c x.1) (if op = .cas then w.atomSrc h op aw e x.1 else 0) old x.2.mor)
    MemIssues s g gr h (.rld h fn d a b off) .rm true [a, b] ((List.range ((n + 3) / 4)).map (d.val + ·)) fva
      (fab n (ordUnit fn) true false true) (inPasses (fun w l r =>
        loadUnits fn d h (inSpace (.fabric r) (fva w l)) (fva w l) l (w.phys l))) passes ∧
    MemIssues s g gr h (.rst h fn a b c off) .rm false [a, b, c] [] fva (fab n (ordUnit fn) false true true)
      (inPasses (fun w l r => storeUnits fn h (inSpace (.fabric r) (fva w l)) (fva w l) l (w.storeData h fn.width c l)
        (fun _ => false))) passes ∧
    MemIssues s g gr h (.ratom h op aw nr d a b c e off) .rm true [a, b, c, e] oldRegs fva
      (fab aw.bytes aw.bytes true true onHost) (inPasses (fun w l r => [atomUnit h op aw (.fabric r) (fva w l)
        (fva w l) l (w.phys l) (w.atomSrc h op aw c l) (if op = .cas then w.atomSrc h op aw e l else 0) old false])) passes ∧
    (nr = false ∨ op ∈ [AOp.xch, .cas, .fadd] → MemIssues s g gr h (.atom h op aw nr d a b c e off)
      (if nr then .st else .gl) (!nr) [a, b, c, e] oldRegs va (glob false) (fun w xs => rmw w xs e old)) ∧
    (op ∈ [AOp.xch, .cas, .fadd] → MemIssues s g gr h (.red h op aw a b c off) .st false [a, b, c] [] va
      (glob true) (fun w xs => rmw w xs (.inl 0) [])) ∧
    (∀ w s1 s2 rs, seen s gr [] [] = (w, s1) → gr.pathCount .st < 63 → gr.out = [] → op ∉ [AOp.xch, .cas, .fadd] →
      (∀ red, checkLanes (glob red w) (w.active h) s1 = (rs, s2) → firstCause rs = none →
        (∀ x ∈ passed rs, x.2.host = false ∧ s2.locked x.2.pa = false) →
        let done (sels : List Sel) (units : List AUnit) := Host.Outcome.next ((s2.laneDone g { gr with
          out := [{ id := gr.nextId, path := .st, ret := false, units := [], allLanes := laneMask (w.active h), pc := gr.lpc,
                    sent := none }],
          nextId := gr.nextId + 1 } (if Sel.ext32 ∈ sels ∨ Sel.ext64 ∈ sels then 2 else 1)).reduceNow g units)
        (red = false → nr = true → exec (.atom h op aw nr d a b c e off) s = done [a, b, c, e] (rmw w (passed rs) e [])) ∧
        (red = true → exec (.red h op aw a b c off) s = done [a, b, c] (rmw w (passed rs) (.inl 0) [])))) ∧
    (∀ w s1, seen s gr [] [] = (w, s1) → gr.out = [] → exec (.waitp h path a) s =
      .next (s1.laneDone g { gr with alt := gr.alt.filter (fun x => x.path != some path) } (if a = .ext32 ∨ a = .ext64 then 2 else 1))) ∧
    exec (.pref h l2 a b off) s = .next ((seen s gr [] []).2.laneFinish g gr h [a, b] ⟨[], [], 0⟩)

/-- Loads and stores are made of units of Table ORD-1 in ascending address order (R175): as many as the width has of them, each
at its place, with the registers or bytes that are its part. An access in one page has its bytes in a row; one whose last byte lies
in the next page has each byte in the page of its own address (R153). -/
def Sys2Proof.AccessUnitRules : Prop :=
  ∀ (fn : MemFn) (d : VReg) (h : LaneHdr) (place : Nat → Space × Nat) (va l phys data : Nat) (mor : Nat → Bool) (i : Nat),
    (fn.atomic = true → fn.width = .b64 ∨ fn.width = .b128) → i < fn.width.bytes / ordUnit fn →
    let o := i * ordUnit fn
    (loadUnits fn d h place va l phys).length = fn.width.bytes / ordUnit fn ∧
    (storeUnits fn h place va l data mor).length = fn.width.bytes / ordUnit fn ∧
    (∃ u, (loadUnits fn d h place va l phys)[i]? = some u ∧ u.va = va + o ∧ (u.space, u.pa) = place o ∧
      u.bytes = ordUnit fn ∧ u.phys = phys ∧ (ordUnit fn ≤ 4 → u.dst = [some (d.val + i)])) ∧
    (∃ u, (storeUnits fn h place va l data mor)[i]? = some u ∧ u.va = va + o ∧ (u.space, u.pa) = place o ∧
      u.bytes = ordUnit fn ∧ u.data = data / 2 ^ (8 * i * ordUnit fn) % 2 ^ (8 * ordUnit fn) ∧ u.dst = [] ∧ u.mor = mor o) ∧
    (∀ sp pa o, inSpace sp pa o = (sp, pa + o)) ∧
    (∀ (x y : Xl) (n o : Nat), o < n → y.pa = x.pa + (n - 1) → y = { x with pa := y.pa } →
      inPages (x, y) va n o = ((if x.host then .host else .global), x.pa + o)) ∧
    (∀ (x y : Xl) (n o : Nat), o < n → n ≤ y.pa + 1 → (va + o) / 65536 ≠ va / 65536 →
      inPages (x, y) va n o = ((if y.host then .host else .global), y.pa + 1 + o - n))

/-- Matrix words (R196, R197, R200, R208, R209, R416 to R422): with all lanes, a legal FMT, a tile that its checks pass and a grant,
`MMA` takes the next MX number with its fragments; `MXZERO` and `MXFLUSH` likewise; `MXREAD` converts the elements of its
lanes' rows; and their checks come in the order of Table MX-1. -/
def Sys2Proof.MatrixWordResults : Prop :=
  ∀ (s s1 s2 : State) (g : GRef) (gr : Group) (h : LaneHdr) (w : LaneView) (a d : VReg) (b : VReg) (c : KReg) (e rowSel : Sel)
    (t : LType) (va : Nat) (r : Except Meet Xl), LaneAt s g gr → seen s gr [] [] = (w, s1) → va = (sget w.k c.val).toNat →
    let act := laneMask (w.active h)
    let mma := exec (.mma h false a (.v b) c e) s
    (mxFmtOk w.fmt = false → mma = .next (s1.trapL g .illegal 0 va 0xFFFFFFFF)) ∧
    (mxFmtOk w.fmt = true → act ≠ 0xFFFFFFFF → mma = .next (s1.trapL g .convergence 1 va (~~~act))) ∧
    (mxFmtOk w.fmt = true → act = 0xFFFFFFFF → s1.checkTile (s1.ctxOf g) va true true (some g.core) = (r, s2) →
      (∀ m, r = .error m → mma = .next (s2.trapL g m.cause m.info va 0xFFFFFFFF)) ∧
      (∀ xl, r = .ok xl → gr.grant = none → ∃ t gr', mma = .next t ∧ g ∈ t.powerAsks ∧ t.group g = some gr' ∧
        gr'.lpc = gr.lpc ∧ gr'.waitL = some (.power 0) ∧ gr'.mx = gr.mx) ∧
      (∀ xl, r = .ok xl → gr.grant ≠ none → ∃ t gr' cmd, mma = .next t ∧ t.group g = some gr' ∧ gr'.mx = gr.mx ++ [cmd] ∧
        gr'.mxIssued = gr.mxIssued + 1 ∧ cmd.num = gr.mxIssued + 1 ∧ cmd.kind = .mma ∧ cmd.va = va ∧ cmd.pa = xl.pa ∧
        cmd.fmt = w.fmt ∧ cmd.rowsA = laneList.map (w.frag a.val) ∧ cmd.colsB = laneList.map (w.frag b.val) ∧
        gr'.lpc = nextLPc gr.lpc (if e = .ext32 ∨ e = .ext64 then 2 else 1) ∧ (va, xl.pa) ∈ gr'.unflushed ∧
        gr'.gfL = gr.gfL ||| cmd.contribs.2 ∧ gr'.lastMma = s.clock)) ∧
    (s1.checkTile (s1.ctxOf g) va false true (some g.core) = (r, s2) →
      (∀ m, r = .error m → exec (.mxzero h c) s = .next (s2.trapL g m.cause m.info va 0xFFFFFFFF)) ∧
      (∀ xl, r = .ok xl → ∃ t gr' cmd, exec (.mxzero h c) s = .next t ∧ t.group g = some gr' ∧ gr'.mx = gr.mx ++ [cmd] ∧
        cmd.num = gr.mxIssued + 1 ∧ cmd.kind = .zero ∧ cmd.pa = xl.pa ∧ cmd.toZero = List.range 1024 ∧
        gr'.lpc = nextLPc gr.lpc 1)) ∧
    (va % 8192 = 0 → ∃ t gr' cmd, exec (.mxflush h (some c)) s = .next t ∧ t.group g = some gr' ∧ gr'.mx = gr.mx ++ [cmd] ∧
      cmd.kind = .flush false ∧ cmd.tiles = (gr.unflushed.filter (fun x => x.1 == va)).map (·.2) ∧
      gr'.unflushed = gr.unflushed.filter (fun x => x.1 != va) ∧ gr'.lpc = nextLPc gr.lpc 1) ∧
    (va % 8192 ≠ 0 → exec (.mxflush h (some c)) s = .next (s1.trapL g .accumulator 0 va 0xFFFFFFFF)) ∧
    (∃ t gr' cmd, exec (.mxflush h none) s = .next t ∧ t.group g = some gr' ∧ gr'.mx = gr.mx ++ [cmd] ∧
      cmd.kind = .flush true ∧ cmd.tiles = gr.unflushed.map (·.2) ∧ gr'.unflushed = []) ∧
    (∀ w s1, seen s gr [d.val] [] = (w, s1) → s1.checkTile (s1.ctxOf g) va true false (some g.core) = (r, s2) →
      (∀ m, r = .error m → exec (.mxread h t d c rowSel) s = .next (s2.trapL g m.cause m.info va 0xFFFFFFFF)) ∧
      (∀ xl l es, r = .ok xl → (∀ x ∈ gr.mx, x.kind ≠ .mma ∨ x.pa ≠ xl.pa) → s2.poison = [] → s2.chanDown = [] →
        w.active h = [l] → es = s2.tileElem g.core (s1.ctxOf g) xl.pa (32 * (w.src h .nat rowSel l % 32) + l) →
        exec (.mxread h t d c rowSel) s = .next (es.2.laneFinish g gr h [rowSel]
          { regs := [(d.val, l, (mxConvert t w.fmt es.1).bits)], preds := [], gf := flagsOf (mxConvert t w.fmt es.1) })))

/-- Tagged scratch accesses of one lane (R161, R215): `.F` and `.FK` wait for FULL, read the word, and leave it EMPTY or
FULL; `.E` waits for EMPTY, writes the word and leaves it FULL; where the tag is otherwise the lane stream waits. -/
def Sys2Proof.TaggedAccessResults : Prop :=
  ∀ (s : State) (g : GRef) (gr : Group) (h : LaneHdr) (keep : Bool) (d : VReg) (a b c : Sel) (off : W16) (tr : TRef)
    (tm : Team) (va l : Nat), LaneAt s g gr → gr.alt = [] → gr.out = [] → gr.tagDone = 0 → gr.status = .active →
    (s.view gr).1.active h = [l] → tr = s.teamRefOf g → s.team tr = some tm → va = scratchVa h a b off (s.view gr).1 l →
    va % 4 = 0 → va + 4 ≤ tm.scrSize → (∀ p ∈ s.groups, p.1 ≠ g → p.2.tagPend = []) →
    let load := exec (.lds h { width := .b32, atomic := false, tag := if keep then .fk else .f } d a b off) s
    let store := exec (.sts h { width := .b32, atomic := false, tag := .e } a b c off) s
    (tm.tag va = true → ∃ t gr' tm', load = .next t ∧ t.group g = some gr' ∧ t.team tr = some tm' ∧
      gr'.lpc = nextLPc gr.lpc (laneSlots [a, b]) ∧ gr'.waitL = none ∧ tm'.tag va = keep ∧ tm'.scratch = tm.scratch ∧
      sget gr'.v (vkey d.val (gr.remap.getD l l)) = BitVec.ofNat 32 (sgetLE tm.scratch va 4)) ∧
    (tm.tag va = false → ∃ t gr' tm', store = .next t ∧ t.group g = some gr' ∧ t.team tr = some tm' ∧
      gr'.lpc = nextLPc gr.lpc (laneSlots [a, b, c]) ∧ gr'.waitL = none ∧ tm'.tag va = true ∧
      sgetLE tm'.scratch va 4 = (s.view gr).1.src h .nat c l % 2 ^ 32 ∧
      ∀ k, k < va ∨ va + 4 ≤ k → sget tm'.scratch k = sget tm.scratch k) ∧
    (tm.tag va = false → ∃ t gr', load = .next t ∧ t.group g = some gr' ∧ gr'.lpc = gr.lpc ∧ gr'.waitL = some .tag) ∧
    (tm.tag va = true → ∃ t gr', store = .next t ∧ t.group g = some gr' ∧ gr'.lpc = gr.lpc ∧ gr'.waitL = some .tag)

/-! Queue programs and queues -/

/-- A queue's program stands at a word of its current packet, outside any loop. -/
def Sys2Proof.QueueAt (s : State) (slot : Nat) (q : Queue) (p : Packet) : Prop :=
  s.cur = some (.queue slot) ∧ s.queue slot = some q ∧ q.current = some p ∧ q.loop = none

/-- A queue after a word that writes a register and goes on: q0 discards what is written. -/
def Sys2Proof.queueWrote (q : Queue) (d : QReg) (x : W64) : Queue :=
  { q with q := if d = 0 then q.q else sset q.q d.val x, pc := q.pc + 1 }

/-- The arithmetic and control words of queue programs (Table HQ-7): each writes its result to qD, q0 reading zero and
discarding what is written, or ends the packet; the queue is all that changes. The word past the end of a `QLOOP`'s body
starts the next iteration, with the iteration's number in the register, or leaves the loop. -/
def Obligations.QueueWordResults : Prop :=
  ∀ (s : State) (slot : Nat) (q : Queue) (p : Packet) (d a b : QReg) (v : QVal) (imm : W32) (x y : W64), QueueAt s slot q p →
    x = (if a = 0 then 0 else sget q.q a.val) →
    (match v with | .reg b => y = (if b = 0 then 0 else sget q.q b.val) | .imm i => y = i.signExtend 64) →
    let gives (i : Instr) (r : W64) := exec i s = .next (s.setQueue slot (queueWrote q d r))
    let ends (i : Instr) (status : Nat) (value : W64) (code : Nat) := ∃ q', exec i s = .next (s.setQueue slot q') ∧
      q'.current = none ∧ q'.packets = q.packets.dropLast ++
        [{ p with status := some status, value := value, failCode := code, waitOther := false }] ∧ q'.q = q.q ∧
      q'.tail = q.tail ∧ q'.seq = q.seq ∧ q'.ctail = q.ctail
    gives (.qmovi d imm) (imm.signExtend 64) ∧ gives (.qadd d a v) (x + y) ∧ gives (.qsub d a v) (x - y) ∧
    gives (.qand d a v) (x &&& y) ∧ gives (.qor d a v) (x ||| y) ∧
    gives (.qshl d a v) (x <<< (y.toNat % 64)) ∧ gives (.qshr d a v) (x >>> (y.toNat % 64)) ∧
    (v = .reg b → gives (.qcmp d a b .eq) (if x = y then 1 else 0) ∧ gives (.qcmp d a b .ne) (if x = y then 0 else 1) ∧
      gives (.qcmp d a b .ltu) (if x.toNat < y.toNat then 1 else 0) ∧
      gives (.qcmp d a b .geu) (if x.toNat < y.toNat then 0 else 1) ∧
      gives (.qcmp d a b .lt) (if x.toInt < y.toInt then 1 else 0) ∧
      gives (.qcmp d a b .ge) (if x.toInt < y.toInt then 0 else 1)) ∧
    exec (.qbr a true imm) s = .next (s.setQueue slot { q with pc := q.pc + imm.toNat }) ∧
    exec (.qbr a false imm) s = .next (s.setQueue slot { q with pc := q.pc + (if x = 0 then 1 else imm.toNat) }) ∧
    (∀ n len : Byte, exec (.qloop d n len) s = .next (s.setQueue slot { queueWrote q d 0 with
      loop := some ⟨d.val, q.pc + 1, len.toNat, 0, n.toNat⟩ })) ∧
    ends (.qdone a) 0 x 0 ∧ (∀ code : Byte, ends (.qfail code) 1 0 code.toNat) ∧
    (∀ l s' q1, l.reg = b.val → q.pc + 1 = l.first + l.len → q1 = { q with loop := some l } → s' = s.setQueue slot q1 →
      (l.iter + 1 < l.count → exec (.qmovi 0 imm) s' = .next (s'.setQueue slot { queueWrote q1 b (BitVec.ofNat 64 (l.iter + 1)) with
        pc := l.first, loop := some { l with iter := l.iter + 1 } })) ∧
      (l.count ≤ l.iter + 1 → exec (.qmovi 0 imm) s' = .next (s'.setQueue slot { q with pc := q.pc + 1 })))

/-- The memory words of queue programs (Table HQ-7): a load writes its bytes, zero-extended, to qD, and a store or a signal
writes the low bytes of qB, at the window's offset of qA plus the immediate, which goes round within the window and is cut
down to the width (no program writes the packet's window: the load refuses it); `QWAITV` goes on once the value there has reached qB, unsigned, and else waits. A load from the packet's
window reads the packet. An access that the context's tables refuse ends the packet with STATUS 1 and a code (log entry
30). -/
def Sys2Proof.QueueMemoryResults : Prop :=
  ∀ (s : State) (slot : Nat) (q : Queue) (p : Packet) (d a b : QReg) (w w2 : QWin) (imm : W32) (len off base : Nat),
    QueueAt s slot q p → len = (if w.val = 0 then 1024 else (q.wins.getD (w.val - 1) (0, 0, 0)).2.1) →
    base = (q.wins.getD (w.val - 1) (0, 0, 0)).1 →
    off = ((if a = 0 then 0 else (sget q.q a.val).toNat) + imm.toNat) % len →
    let refused (i : Instr) := ∃ t q' p', exec i s = .next t ∧ t.queue slot = some q' ∧ q'.current = none ∧
      q'.packets = q.packets.dropLast ++ [p'] ∧ p'.seq = p.seq ∧ p'.status = some 1 ∧ 1 ≤ p'.failCode ∧ p'.failCode ≤ 255
    let loads (i : Instr) (n : Nat) :=
      (w = 0 → exec i s = .next (s.setQueue slot (queueWrote q d
        (BitVec.ofNat 64 (wordsNum q.body / 256 ^ (off / n * n) % 256 ^ n))))) ∧
      (∀ x s1, q.winRead w (off / n * n) n s = (.ok x, s1) → exec i s = .next (s1.queueSet slot d (BitVec.ofNat 64 x))) ∧
      (∀ e s1, q.winRead w (off / n * n) n s = (.error e, s1) → s1.queue slot = some q → refused i)
    let stores (i : Instr) (n : Nat) := w ≠ 0 → ∀ r, r = s.vwrite (s.agent 6 0) q.ctx (base + off / n * n) n
        ((if b = 0 then 0 else (sget q.q b.val).toNat) % 256 ^ n) true →
      (r.1 = .ok () → exec i s = .next (r.2.onQueue slot (fun q => q.advance))) ∧
      (∀ e, r.1 = .error e → r.2.queue slot = some q → refused i)
    loads (.qld d w a imm) 8 ∧ loads (.qldw d w a imm) 4 ∧ stores (.qstw w a b imm) 4 ∧ stores (.qsignal w a b imm) 8 ∧
    (∀ x s1 v, q.winRead w (off / 8 * 8) 8 s = (.ok x, s1) → v = (if b = 0 then 0 else (sget q.q b.val).toNat) →
      (v ≤ x → exec (.qwaitv w a b imm) s = .next (s1.onQueue slot (fun q => q.advance))) ∧
      (x < v → exec (.qwaitv w a b imm) s =
        .next (s1.onQueue slot (fun q => { q with waitv := some (w.val, off / 8 * 8, v) })))) ∧
    (∀ n : W16, n.toNat < 4 → exec (.qcopy w d w2 a n) s = .next (s.setQueue slot { q with pc := q.pc + 1 })) ∧
    (∀ (n : W16) (src dst : Nat) (x : Nat) (s1 s2 : State), n.toNat = 4 → w ≠ 0 →
      dst = (if d = 0 then 0 else (sget q.q d.val).toNat) % len / 4 * 4 →
      src = (if a = 0 then 0 else (sget q.q a.val).toNat) % windowLen q.wins w2 / 4 * 4 →
      dst < len → src < windowLen q.wins w2 → q.winRead w2 src 4 s = (.ok x, s1) →
      s1.vwrite (s1.agent 6 0) q.ctx (base + dst) 4 x true = (.ok (), s2) →
      exec (.qcopy w d w2 a n) s = .next (s2.onQueue slot (fun q => q.advance)))

/-- `QWAITV_RELEASE` (R322): the wait of a resident queue ends, and its program goes on, once the value there has reached
the one waited for; else nothing changes but what the read itself draws. -/
def Sys2Proof.QueueWaitEnds : Prop :=
  ∀ (s s1 : State) (slot : Nat) (q : Queue) (w : QWin) (off v x : Nat), s.queue slot = some q → q.loop = none →
    q.waitv = some (w.val, off, v) →
    (q.resident = false → exec (.qwaitvRelease slot) s = .next s) ∧
    (q.resident = true → q.winRead w off 8 s = (.ok x, s1) → s1.queue slot = some q →
      (v ≤ x → exec (.qwaitvRelease slot) s = .next (s1.setQueue slot { q with waitv := none, pc := q.pc + 1 })) ∧
      (x < v → exec (.qwaitvRelease slot) s = .next s1))

/-- How a queue's packet enters a launch: in the queue's context, at the level of word 3 or the queue's own where that is
lower in the order, and with the packet as the issuer (R31, R324). -/
def Sys2Proof.queueLaunch (q : Queue) (slot : Nat) (p : Packet) (word3 : Nat) : LaunchBy :=
  { ctx := q.ctx, level := max (word3 % 4) q.level, issuer := .queue slot p.seq, depth := 0, inst := none, seqBase := 0,
    step := 0 }

/-- `QLAUNCH` and `QCALLF` (R27, R324, Table HQ-7): a launch that is entered puts its grid's number in qD, and the packet
waits for the grid; one that is refused ends the packet with STATUS 4, and one whose arguments cannot be read with STATUS 1.
A kind that completes at once puts its status in qD; one that goes on holds the program; one that the queue's function may
not issue ends the packet with STATUS 1 and code 1. -/
def Sys2Proof.QueueLaunchAndCall : Prop :=
  ∀ (s s1 s2 : State) (slot : Nat) (q : Queue) (p : Packet) (d a : QReg) (w : QWin) (imm : W32) (off24 : BitVec 24)
    (kind : Byte) (x n : Nat), QueueAt s slot q p →
    (q.winRead w (q.offsetIn w a imm.toNat 128) 128 s = (.ok x, s1) → ∀ e,
      s1.enterLaunch (queueLaunch q slot p (bodyWord x 3)) x = (e, s2) → s2.queue slot = some q →
      (e = .grid n → exec (.qlaunch d w a imm) s = .next (s2.setQueue slot (queueWrote (q.onCurrent (fun p =>
        { p with waitGrids := n :: p.waitGrids })) d (BitVec.ofNat 64 n)))) ∧
      (e = .refused → exec (.qlaunch d w a imm) s = .next (s2.setQueue slot (q.endProgram 4 0 0))) ∧
      (∀ m y, e = .failed m y → exec (.qlaunch d w a imm) s = .next (s2.setQueue slot (q.endProgram 1 0 0)))) ∧
    (∀ bytes r, bytes = packetBytes ((kindLen kind.toNat).getD 0) →
      q.winRead w (q.offsetIn w a off24.toNat bytes) bytes s = (.ok x, s1) →
      performKind kind.toNat { slot := slot, q := q, seq := p.seq, w := wordsOf x (bytes / 8) } s1 = (r, s2) →
      s2.queue slot = some q →
      (∀ st, r = .done st →
        exec (.qcallf d w a kind off24) s = .next (s2.setQueue slot (queueWrote q d (BitVec.ofNat 64 st)))) ∧
      (r = .pending → exec (.qcallf d w a kind off24) s =
        .next (s2.setQueue slot (q.onCurrent (fun p => { p with waitOther := true })))) ∧
      (r = .forbidden → ∃ q', exec (.qcallf d w a kind off24) s = .next (s2.setQueue slot q') ∧ q'.current = none ∧
        ∃ p', q'.packets = q.packets.dropLast ++ [p'] ∧ p'.status = some 1 ∧ p'.failCode = 1)) ∧
    (kind.toNat = 0 → q.winRead w (q.offsetIn w a off24.toNat 64) 64 s = (.ok x, s1) → s1.queue slot = some q →
      exec (.qcallf d w a kind off24) s = .next (s1.setQueue slot (queueWrote q d 0)))

/-! Packet kinds -/

/-- The default program runs on a queue's current packet. -/
def Sys2Proof.PacketAt (s : State) (slot : Nat) (q : Queue) (p : Packet) : Prop :=
  s.cur = some (.queue slot) ∧ s.queue slot = some q ∧ q.current = some p

/-- A queue whose current packet has ended with a status, and one whose packet waits for its kind to complete. -/
def Sys2Proof.packetEnds (q : Queue) (p : Packet) (status : Nat) : Queue :=
  { q with packets := q.packets.dropLast ++ [{ p with status := some status }], busy := false }
def Sys2Proof.packetWaits (q : Queue) (p : Packet) : Queue :=
  { q with packets := q.packets.dropLast ++ [{ p with waitOther := true }], busy := false }

/-- The kinds of Table HQ-4 that concern a queue, its program and its kernels (R317, R323, R324, R247): `NOP` ends with 0;
`LINK` goes on at the next segment, or ends with 1 where that breaks Table HQ-1; `LAUNCH` waits for the grid that it enters,
or ends with 4 or 1; `LOAD` gives a record that it accepts, its name included, a code number of its own, and what was
fetched of the context's code before is fetched again; `FLUSH` leaves no entry of the code that
takes launches; `PROGRAM` takes the program at the next packet boundary; a kind of a queue program's own starts that
program, and without one is `QFAIL` 1. -/
def Sys2Proof.PacketKindResults : Prop :=
  ∀ (s s1 s2 : State) (slot : Nat) (q : Queue) (p : Packet), PacketAt s slot q p →
    let word (i : Nat) := q.body.getD i 0
    exec .nop s = .next (s.setQueue slot (packetEnds q p 0)) ∧
    ((word 1 % q.segBytes ≠ 0 ∨ memTop < word 1 + q.segBytes) → exec .link s = .next (s.setQueue slot (packetEnds q p 1))) ∧
    (word 1 % q.segBytes = 0 → word 1 + q.segBytes ≤ memTop → exec .link s = .next (s.setQueue slot
      { packetEnds q { p with linkFrom := some q.seg } 0 with seg := word 1, offset := 0 })) ∧
    (∀ e n, s.enterLaunch (queueLaunch q slot p (word 3)) (wordsNum q.body) = (e, s1) → s1.queue slot = some q →
      (e = .refused → exec .launch s = .next (s1.setQueue slot (packetEnds q p 4))) ∧
      (∀ m x, e = .failed m x → exec .launch s = .next (s1.setQueue slot (packetEnds q p 1))) ∧
      (e = .grid n → exec .launch s = .next (s1.setQueue slot
        (packetWaits q { p with value := BitVec.ofNat 64 n, callGrid := some n })))) ∧
    (∀ r, s.readRecord q.ctx (word 2) = (.ok r, s1) →
      (recordOk r = false → s1.queue slot = some q → exec .load s = .next (s1.setQueue slot (packetEnds q p 1))) ∧
      (∀ text s3, recordOk r = true → s1.vread q.ctx (word 2 + r.nameAt.1) r.nameAt.2 true = (.ok text, s2) →
        (nameOk text r.nameAt.2 = false → s2.queue slot = some q → exec .load s = .next (s2.setQueue slot (packetEnds q p 1))) ∧
        (nameOk text r.nameAt.2 = true →
          s2.vwrite (s2.agent 6 0) q.ctx (word 2 + 8) 8 s2.nextCodeId true = (.ok (), s3) →
          ∃ t, exec .load s = .next t ∧ t.nextCodeId = s2.nextCodeId + 1 ∧ (∀ k ∈ t.code, k.1.1 ≠ q.ctx) ∧
            t.loadedAt q.ctx (BitVec.ofNat 64 (word 2)) =
              some ⟨q.ctx, word 1, BitVec.ofNat 64 (word 2), BitVec.ofNat 64 s2.nextCodeId⟩))) ∧
    (s.ctx q.ctx = none → exec .flush s = .next (s.setQueue slot (packetEnds q p 1))) ∧
    ((s.ctx q.ctx).isSome → ∃ t q', exec .flush s = .next t ∧ t.queue slot = some q' ∧
      q' = packetEnds q p 0 ∧
      ∀ e ∈ t.firn, e.ctx = q.ctx → (word 1 = 0 ∨ e.codeId = BitVec.ofNat 64 (word 1)) → e.matching = false) ∧
    (word 1 = 0 → exec .program s = .next (s.setQueue slot { packetEnds q p 0 with newProg := some (0, []) })) ∧
    (∀ l, word 1 ≠ 0 → s.loadProgram q.wins (word 1) = (l, s1) → s1.queue slot = some q →
      (l = none → exec .program s = .next (s1.setQueue slot (packetEnds q p 1))) ∧
      (∀ ws, l = some ws → exec .program s =
        .next (s1.setQueue slot { packetEnds q p 0 with newProg := some (word 1, ws) }))) ∧
    (q.prog = 0 → exec .queueProgramKind s = .next (s.setQueue slot (q.fail 1))) ∧
    (q.prog ≠ 0 → ∃ q', exec .queueProgramKind s = .next (s.setQueue slot q') ∧ q'.pc = 0 ∧
      q'.reg 1 = BitVec.ofNat 64 p.seq ∧ q'.reg 2 = BitVec.ofNat 64 p.kind ∧ q'.reg 3 = 0 ∧ q'.reg 4 = 0 ∧ q'.ran = 0 ∧
      q'.packets = q.packets ∧ q'.prog = q.prog)

/-- The kinds that concern a context (R170, R282, R284, R314, R326): `INVAL` begins an invalidation, whose end drops the
cached translations of the range and ends the packet with 0; `CONTEXT` gives the context the fields of its descriptor, and
refuses a second context of one index; `PREEMPT` begins DRAIN with its two deadlines, reports a context that is OFF at once,
and is `QFAIL` 1 from a virtual function; `RESUME` puts the team of a valid park slot in its launch queue again. -/
def Sys2Proof.ContextKindResults : Prop :=
  ∀ (s : State) (slot : Nat) (q : Queue) (p : Packet), PacketAt s slot q p →
    let word (i : Nat) := q.body.getD i 0
    let stops (i : Instr) (st : Nat) := exec i s = .next (s.setQueue slot (packetEnds q p st))
    (s.ctx q.ctx = none → stops .inval 1 ∧ stops .resume 1) ∧
    ((s.ctx q.ctx).isSome → exec .inval s = .next
      (State.setQueue { s with invals := s.invals ++ [⟨q.ctx, word 1, word 2, slot, p.seq⟩] } slot (packetWaits q p))) ∧
    (∀ c x, c = wordField q.body 8 4 → (q.func = 0 ∨ s.funcOf c = q.func) →
      (contextOk q.body = false → stops .context 1) ∧
      (∀ c' y, (c', y) ∈ s.ctxs → c' ≠ c → c' % 4096 = c % 4096 → stops .context 1) ∧
      (contextOk q.body = true → (∀ e ∈ s.ctxs, e.1 % 4096 = c % 4096 → e.1 = c) → x = (s.ctx c).getD (Ctx.fresh 0) →
        wordField q.body 0x20 8 = 0 → ∃ x', exec .context s = .next ((s.setCtx c x').setQueue slot (packetEnds q p 0)) ∧
          x'.ptRoot = wordField q.body 0x10 8 ∧ x'.ageq = wordField q.body 0x18 4 ∧ x'.tagwd = wordField q.body 0x1C 4 ∧
          x'.handler = 0 ∧ x'.hndwd = wordField q.body 0x28 4 ∧ x'.parkN = wordField q.body 0x2C 4 ∧
          (x.usedSlots = [] → x'.parkBase = BitVec.ofNat 64 (wordField q.body 0x30 8)) ∧
          (x.usedSlots ≠ [] → x'.parkBase = x.parkBase) ∧
          x'.sumpBase = BitVec.ofNat 64 (wordField q.body 0x38 8) ∧ x'.sumpQ = wordField q.body 0x40 8 ∧
          x'.resBase = BitVec.ofNat 64 (wordField q.body 0x48 8) ∧ x'.resLen = wordField q.body 0x50 8 ∧
          x'.expBase = BitVec.ofNat 64 (wordField q.body 0x58 8) ∧ x'.expLen = wordField q.body 0x60 8 ∧
          x'.frep = BitVec.ofNat 64 (wordField q.body 0x68 8) ∧ x'.usedSlots = x.usedSlots)) ∧
    (∀ c, c = wordField q.body 8 4 → q.func ≠ 0 → s.funcOf c ≠ q.func →
      exec .context s = .next (s.setQueue slot (q.fail 1))) ∧
    (q.func ≠ 0 → exec .preempt s = .next (s.setQueue slot (q.fail 1))) ∧
    (∀ c x d k, c = word 1 → q.func = 0 → s.ctx c = some x → d = word 2 % 2 ^ 32 → k = word 2 / 2 ^ 32 →
      (10 ^ 6 < d ∨ 10 ^ 6 < k → stops .preempt 1) ∧
      (d ≤ 10 ^ 6 → k ≤ 10 ^ 6 → x.phase = .off → stops .preempt 0) ∧
      (d ≤ 10 ^ 6 → k ≤ 10 ^ 6 → x.phase = .running → exec .preempt s = .next
        ((s.setCtx c { x with phase := .drain (s.clock + 1800 * d) (1800 * k),
                              preemptQ := x.preemptQ ++ [(slot, p.seq)] }).setQueue slot (packetWaits q p)))) ∧
    (∀ x n gr pk, s.ctx q.ctx = some x → s.grids.find? (fun g => g.2.ctx == q.ctx && g.2.parked.any (fun p => p.slot == word 1)) =
        some (n, gr) → gr.parked.find? (fun p => p.slot == word 1) = some pk →
      (x.parkN ≤ word 1 ∨ s.slotValid q.ctx x (word 1) = false ∨ s.placeAgain gr pk = false → stops .resume 1) ∧
      (word 1 < x.parkN → s.slotValid q.ctx x (word 1) = true → s.placeAgain gr pk = true → gr.cluster = false →
        exec .resume s = .next ((s.setGrid n { gr with parked := gr.parked.map (fun p =>
          if p.slot = word 1 then { p with wantResume := true } else p) }).setQueue slot (packetEnds q p 0))))

/-- `INVALIDATION_COMPLETE` (R170): once nothing translated under the old entries of the range is outstanding, the range's
cached translations are gone, the invalidation is over, and its packet has ended with 0; until then nothing changes. -/
def Sys2Proof.InvalidationEnds : Prop :=
  ∀ (s : State) (v : Inval), s.invals = [v] →
    (s.rangeQuiet v.ctx v.base v.bytes = false → exec .invalidationComplete s = .next s) ∧
    (s.rangeQuiet v.ctx v.base v.bytes = true → ∃ t, exec .invalidationComplete s = .next t ∧ t.invals = [] ∧
      (∀ e ∈ t.tlb, e.ctx = v.ctx → e.base + 2 ^ e.lg ≤ v.base ∨ v.base + v.bytes ≤ e.base) ∧
      ∀ q p, (s.sendContext v.ctx).queue v.queue = some q → q.packets = [p] → p.seq = v.seq → p.status = none →
        ∃ q', t.queue v.queue = some q' ∧ q'.packets = [{ p with status := some 0 }])

/-- The action codes of `SERVE` (R480): a start that is accepted makes an instance that runs from the descriptor's counts,
a stop that finds no iteration under way ends the instance and its records and one that does waits, as does a second one, a resume lets a halted
instance run again, and action 3 ends with 1, as does a reserved bit, a number in use, or no such instance. -/
def Obligations.ServeKindResults : Prop :=
  ∀ (s : State) (slot : Nat) (q : Queue) (p : Packet) (num : Nat), PacketAt s slot q p → num = q.body.getD 2 0 / 2 ^ 8 % 16 →
    let stops (i : Instr) (st : Nat) := exec i s = .next (s.setQueue slot (packetEnds q p st))
    let bits := q.body.getD 2 0 / 2 ^ 12 = 0 ∧ q.body.getD 2 0 / 4 % 2 ^ 6 = 0
    stops .serveRefusedAction 1 ∧
    (¬ bits → stops .serveStart 1 ∧ stops .serveStop 1 ∧ stops .serveResume 1) ∧
    (s.inst num = none → stops .serveStop 1 ∧ stops .serveResume 1) ∧
    ((s.inst num).isSome → stops .serveStart 1) ∧
    (∀ b s1, bits → s.serveStart q.ctx (q.body.getD 1 0) num = (b, s1) → s1.queue slot = some q →
      exec .serveStart s = .next (s1.setQueue slot (packetEnds q p (if b then 0 else 1))) ∧
      (b = true → ∃ x ∈ s1.insts, x.num = num ∧ x.ctx = q.ctx ∧ x.desc = q.body.getD 1 0 ∧ x.status = .running ∧
        x.phase = .start 1 ∧ x.batch = [])) ∧
    (∀ x, bits → s.inst num = some x →
      (x.ctx ≠ q.ctx ∨ x.desc ≠ q.body.getD 1 0 → stops .serveStop 1) ∧
      (x.ctx = q.ctx → x.desc = q.body.getD 1 0 → x.status = .running → x.phase ≠ .start 1 →
        exec .serveStop s = .next ((s.onInst num (fun _ => { x with stops := x.stops ++ [(slot, p.seq)] })).setQueue slot
          (packetWaits q p))) ∧
      (x.ctx = q.ctx → x.desc = q.body.getD 1 0 → (x.status = .halted ∨ x.phase = .start 1) → s.instMoves x = false →
        ∃ t, exec .serveStop s = .next t ∧ t.inst num = none ∧ ∀ r ∈ t.recs, r.inst ≠ num) ∧
      (x.status ≠ .halted ∨ x.ctx ≠ q.ctx → stops .serveResume 1) ∧
      (∀ s1, x.status = .halted → x.ctx = q.ctx → s.vwrite s.wellhead q.ctx (x.desc + 0x68) 8 1 false = (.ok (), s1) →
        s1.queue slot = some q → s1.insts = s.insts →
        ∃ t x', exec .serveResume s = .next t ∧ t.inst num = some x' ∧ x' = { x with status := .running } ∧
          t.queue slot = some (packetEnds q p 0)))

/-- `CHECKPOINT` and `RESTORE` (R312): only the physical function may ask; a context that is not OFF ends the packet with 1; a
checkpoint goes on until every chunk has been taken, each with the bytes of its piece of a frame; a restore whose chunks are
those that were given puts their bytes back, and leaves the rest of memory as it is. -/
def Obligations.CheckpointResults : Prop :=
  (∀ (s : State) (slot : Nat) (q : Queue) (p : Packet) (n : List Nat) (s1 : State), PacketAt s slot q p →
    s.namedContexts = (n, s1) →
    (q.func ≠ 0 → exec .checkpoint s = .next (s.setQueue slot (q.fail 1)) ∧
      exec .restore s = .next (s.setQueue slot (q.fail 1))) ∧
    (q.func = 0 → s1.allOff n = false → exec .checkpoint s = .next (s1.setQueue slot (packetEnds q p 1))) ∧
    (q.func = 0 → s1.allOff n = true → exec .checkpoint s = .next
      (State.setQueue { s1 with checkpoints := s1.checkpoints ++ [⟨slot, p.seq, n⟩] } slot (packetWaits q p))) ∧
    (∀ k pa s2, q.func = 0 → s1.allOff n = true → s1.vault.filter (fun k => n.contains k.ctx) = [k] → k.pa = some pa →
      s1.pick 2 = (0, s2) → PlainHomes s → NothingLocked s → s.ctl.setTab = 0 → swf k.data = true → (∀ b ∈ k.data, pa ≤ b.1 ∧ b.1 < pa + k.bytes) →
      ∃ t, exec .restore s = .next t ∧ t.queue slot = some (packetEnds q p 0) ∧
        (∀ a, pa ≤ a → a < pa + k.bytes → sget t.mem a = sget k.data a) ∧
        (∀ a, a < pa ∨ pa + k.bytes ≤ a → sget t.mem a = sget s.mem a))) ∧
  (∀ (s s1 : State) (k : Checkpoint) (rest : List Checkpoint), s.checkpoints = k :: rest →
    s1 = k.ctxs.foldl (fun s c => s.sendContext c) { s with checkpoints := rest } → s1.poison = [] → s1.checkpoints = rest →
    ∃ t, exec .checkpointComplete s = .next t ∧ t.checkpoints = rest ∧
      (∀ x ∈ t.vault, x.ctx ∈ k.ctxs → ∀ pa, x.pa = some pa →
        x.data = t.mem.filter (fun b => decide (pa ≤ b.1) && decide (b.1 < pa + x.bytes))) ∧
      (∀ x ∈ s.vault, x.ctx ∉ k.ctxs → s1.vault = s.vault → x ∈ t.vault) ∧ t.mem = s1.mem)

/-! Queues, doorbells and completion (R315 to R322) -/

/-- Enabling, disabling and residence (R315, R320 to R322). While the endpoint is up: a descriptor with its fields in order
and no program enables a DISABLED slot as IDLE with its counts and segment; any other write of DESC to it leaves the slot as
it is, as does one to a slot that is not DISABLED. TAIL is taken by a resident queue, captured by one that is switched out,
and ignored by a disabled one. A queue that is disabling is DISABLED once it holds no packet. A queue that runs nothing can
be switched out; the only one that is out is switched in, with the TAIL captured meanwhile. -/
def Obligations.QueueSlotResults : Prop :=
  ∀ (s : State) (slot : Nat) (q : Queue), s.endpointUp = true → s.queue slot = some q →
    (∀ desc d s1, slot < 4096 → q.state = .disabled → desc ≠ 0 → desc % 128 = 0 → desc + 128 ≤ memTop →
      s.pread desc 128 = (d, s1) → queueDescOk d = true → byteField d 0x38 8 = 0 → ∃ q',
        exec (.queueEnable slot desc) s = .next (s1.setQueue slot q') ∧ q'.state = .idle ∧ q'.desc = desc ∧
        q'.seg = byteField d 0 8 ∧ q'.segBytes = byteField d 8 4 ∧ q'.ctx = byteField d 0x0C 4 ∧
        q'.free = byteField d 0x10 8 ∧ q'.fcap = byteField d 0x18 4 ∧ q'.ftail = byteField d 0x1C 4 ∧
        q'.comp = byteField d 0x20 8 ∧ q'.ccap = byteField d 0x28 4 ∧ q'.ctail = byteField d 0x2C 4 ∧
        q'.level = byteField d 0x34 1 ∧ q'.seq = byteField d 0x70 4 ∧ q'.tail = byteField d 0x70 4 ∧
        q'.progress = byteField d 0x70 4 ∧ q'.func = q.func ∧ q'.prog = 0 ∧ q'.packets = [] ∧ q'.offset = 0 ∧
        (q'.resident = true ↔ s1.residents < 256)) ∧
    (∀ desc d s1, slot < 4096 → q.state = .disabled → desc ≠ 0 → desc % 128 = 0 → desc + 128 ≤ memTop →
      s.pread desc 128 = (d, s1) → queueDescOk d = false → exec (.queueEnable slot desc) s = .next s1) ∧
    (∀ desc, (q.state ≠ .disabled ∨ desc = 0 ∨ desc % 128 ≠ 0 ∨ memTop < desc + 128) →
      exec (.queueEnable slot desc) s = .next s) ∧
    (q.state = .disabled → exec (.queueDisable slot) s = .next (s.setQueue slot q) ∧
      ∀ tail, exec (.doorbellTail slot tail) s = .next (s.setQueue slot q)) ∧
    (q.state ≠ .disabled → exec (.queueDisable slot) s = .next (s.setQueue slot { q with disabling := true })) ∧
    (∀ tail, q.state ≠ .disabled → q.resident = false → exec (.doorbellTail slot tail) s =
      .next (s.setQueue slot { q with shadowTail := some (tail % 2 ^ 32), tailAt := s.clock })) ∧
    (∀ tail, q.state = .idle → q.packets = [] → q.resident = true → exec (.doorbellTail slot tail) s =
      .next (s.setQueue slot { q with
        tail := tail % 2 ^ 32, tailAt := s.clock, state := if q.progress = tail % 2 ^ 32 then .idle else .running })) ∧
    (q.disabling = false ∨ q.packets ≠ [] → exec (.queueDisabled slot) s = .next s) ∧
    (q.disabling = true → q.packets = [] → ∃ t, exec (.queueDisabled slot) s = .next t ∧
      t.queue slot = some { Queue.fresh with func := q.func } ∧ (∀ n, n ≠ slot → t.queue n = s.queue n) ∧
      (PlainHomes s → NothingLocked s → NoObjectWaits s → s.frameOwner = [] → s.ctl.setLen = 0 → q.desc % 128 = 0 →
        sgetLE t.mem (q.desc + 0x2C) 4 = q.ctail % 2 ^ 32 ∧ sgetLE t.mem (q.desc + 0x1C) 4 = q.ftail % 2 ^ 32 ∧
        sgetLE t.mem (q.desc + 0x70) 4 = q.progress % 2 ^ 32 ∧
        ∀ a, (a < q.desc + 0x1C ∨ q.desc + 0x20 ≤ a) → (a < q.desc + 0x2C ∨ q.desc + 0x30 ≤ a) →
          (a < q.desc + 0x70 ∨ q.desc + 0x74 ≤ a) → sget t.mem a = sget s.mem a)) ∧
    (q.resident = true → q.state ≠ .disabled → q.busy = false → q.packets = [] →
      exec (.queueSwitchOut slot) s = .next (s.setQueue slot { q with resident := false })) ∧
    (∀ w, q.resident = true → q.state ≠ .disabled → q.waitv = some w → q.busy = true → q.packets.length = 1 →
      exec (.queueSwitchOut slot) s = .next (s.setQueue slot { q with resident := false })) ∧
    (q.resident = true → q.busy = true → q.waitv = none → exec (.queueSwitchOut slot) s = .next (s.setQueue slot q)) ∧
    (s.queues.filter (fun p => !p.2.resident && p.2.state != .disabled) = [(slot, q)] → s.residents < 256 →
      ∃ q', exec (.queueSwitchIn slot) s = .next (s.setQueue slot q') ∧ q'.resident = true ∧ q'.shadowTail = none ∧
        q'.tail = (match q.shadowTail with | some t => t | none => q.tail) ∧ q'.packets = q.packets ∧ q'.q = q.q ∧ q'.pc = q.pc)

/-- `PACKET_TAKE` (R316, R323, R327): a queue that takes packets reads the header at its place in the segment. A header
whose SEQ is not the next leaves the queue in ERROR with a packet of STATUS 5; one that is not in order, or whose kind the
queue's function may not issue, ends at once with STATUS 1 and code 1; else the program begins on the packet, with q1 its SEQ,
q2 its KIND and the other registers zero. Only a `LINK` may be held back first, while its free list is full (R317; whether it is
comes from outside, log entry 51). -/
def Sys2Proof.PacketTakeResults : Prop :=
  ∀ (s s0 s1 s2 : State) (slot : Nat) (q : Queue) (h seq kind bytes b : Nat) (held : Bool), s.queue slot = some q →
    q.newProg = none → s.pread (q.seg + q.offset) 8 = (h, s0) → seq = h / 2 ^ 32 → kind = h % 256 →
    bytes = 64 * 2 ^ min 4 (h / 2 ^ 8 % 2 ^ 4) → s0.linkHeld kind = (held, s1) →
    (kind ≠ 1 → held = false ∧ s1 = s0) ∧
    (q.takes = false → exec (.packetTake slot) s = .next s) ∧
    (q.takes = true → held = true → exec (.packetTake slot) s = .next s1) ∧
    (q.takes = true → held = false →
      (seq ≠ q.seq → ∃ q' p, exec (.packetTake slot) s = .next (s1.setQueue slot q') ∧ q'.state = .error ∧
        q'.packets = q.packets ++ [p] ∧ p.status = some 5 ∧ p.seq = seq ∧ q'.seq = q.seq ∧ q'.offset = q.offset) ∧
      (seq = q.seq → (q.headerOk h = false ∨ s.mayIssueKind q kind = false) → ∃ q' p,
        exec (.packetTake slot) s = .next (s1.setQueue slot q') ∧ q'.packets = q.packets ++ [p] ∧ p.seq = seq ∧
        p.status = some 1 ∧ p.failCode = 1 ∧ q'.seq = (seq + 1) % 2 ^ 32 ∧ q'.busy = q.busy) ∧
      (seq = q.seq → q.headerOk h = true → s.mayIssueKind q kind = true →
        s1.pread (q.seg + q.offset) bytes = (b, s2) → ∃ q' p,
        exec (.packetTake slot) s = .next (s2.setQueue slot q') ∧ q'.packets = q.packets ++ [p] ∧ q'.current = some p ∧
        p.seq = seq ∧ p.kind = kind ∧ p.status = none ∧ q'.body = wordsOf b (bytes / 8) ∧ q'.pc = 0 ∧
        q'.reg 1 = BitVec.ofNat 64 seq ∧ q'.reg 2 = BitVec.ofNat 64 kind ∧ (∀ r : QReg, 3 ≤ r.val → q'.reg r = 0) ∧
        q'.seq = (seq + 1) % 2 ^ 32 ∧ q'.offset = q.offset + bytes ∧ q'.state = .running ∧ q'.ran = 0))

/-- `COMPLETION_ENTRY_WRITE` (R318): the oldest packet of a resident queue, once it has ended and its grids have completed and
while there is room, commits: 32 bytes of its entry (CSEQ, SEQ, STATUS and the other fields of Table HQ-2's entry) stand at
CTAIL modulo CCAP, CTAIL and CSEQ advance, and PROGRESS passes it. -/
def Sys2Proof.CompletionEntryResults : Prop :=
  ∀ (s : State) (slot : Nat) (q : Queue) (p : Packet) (rest : List Packet) (st : Nat), s.queue slot = some q →
    q.packets = p :: rest → p.status = some st → p.waitGrids = [] → p.dropped = none → p.linkFrom = none →
    (q.busy = true → rest ≠ []) →
    (q.resident = false ∨ s.completionRoom q = false → exec (.completionEntryWrite slot) s = .next s) ∧
    (q.resident = true → s.completionRoom q = true → ∃ t q', exec (.completionEntryWrite slot) s = .next t ∧
      t.queue slot = some q' ∧ q'.packets = rest ∧ q'.ctail = (q.ctail + 1) % 2 ^ 32 ∧ q'.cseq = (q.cseq + 1) % 2 ^ 32 ∧
      (st ≠ 5 → q'.progress = (p.seq + 1) % 2 ^ 32) ∧ (st = 5 → q'.progress = q.progress) ∧
      (∀ at_, at_ = q.comp + 32 * (q.ctail % q.ccap) → PlainHomes s → NothingLocked s → NoObjectWaits s →
        s.frameOwner = [] → s.ctl.setLen = 0 → at_ % 32 = 0 →
        q.cseq < 2 ^ 32 → p.seq < 2 ^ 32 → st < 256 → p.failCode < 2 ^ 16 →
        sgetLE t.mem at_ 4 = q.cseq ∧ sgetLE t.mem (at_ + 4) 4 = p.seq ∧ sgetLE t.mem (at_ + 8) 1 = st ∧
        (sgetLE t.mem (at_ + 9) 1).testBit 0 = p.rej ∧ (sgetLE t.mem (at_ + 9) 1).testBit 1 = p.miss ∧
        (sgetLE t.mem (at_ + 9) 1).testBit 2 = p.sigf ∧ sgetLE t.mem (at_ + 10) 2 = p.failCode ∧
        sgetLE t.mem (at_ + 16) 8 = p.value.toNat ∧ sgetLE t.mem (at_ + 24) 8 = p.word3.toNat ∧
        ∀ a, a < at_ ∨ at_ + 32 ≤ a → sget t.mem a = sget s.mem a))

/-! Host link -/

/-- `HOST_DEVICE_MEMORY_ACCESS` and `POISONED_TLP` (R191, R313): while the endpoint is up, a host write of n bytes stands in
memory, all other bytes as they were, a read is answered with the bytes and changes no byte, an access outside memory is answered
with a completer abort, and a poisoned write poisons its line. The bytes are those of a range that no context has left behind (R172). -/
def Sys2Proof.HostAccessResults : Prop :=
  ∀ (s : State) (a n x : Nat), s.endpointUp = true → PlainHomes s → NoObjectWaits s →
    (a + n ≤ memTop → NothingLocked s → s.leftBy none a n = [] → s.ctl.setLen = 0 → ∃ t, exec (.hostDeviceMemoryAccess true a n x) s = .next t ∧ sgetLE t.mem a n = x % 256 ^ n ∧
      (∀ b, b < a ∨ a + n ≤ b → sget t.mem b = sget s.mem b) ∧ t.hostMem = s.hostMem ∧ t.groups = s.groups) ∧
    (a + n ≤ memTop → ∃ t, exec (.hostDeviceMemoryAccess false a n x) s = .next t ∧
      t.msgs = s.msgs ++ [.reply ((List.range n).map (fun i => (sget s.mem (a + i)).toNat))] ∧ t.mem = s.mem ∧
      t.hostMem = s.hostMem ∧ t.groups = s.groups) ∧
    (∀ wr, memTop < a + n → exec (.hostDeviceMemoryAccess wr a n x) s = .next { s with msgs := s.msgs ++ [.completerAbort] }) ∧
    (a < memTop → ∃ t, exec (.poisonedTlp a) s = .next t ∧ t.poison.contains (lineOf a) = true ∧ t.mem = s.mem ∧
      ∀ l, l ≠ lineOf a → t.poison.contains l = s.poison.contains l)

/-- The registers of BAR0 that have no behaviour beyond their fields' (R309, R314, R331, Tables HQ-9 to HQ-11, OBS-1): a write
of 8 aligned bytes of the control page takes the fields that are within their limits and leaves the others; a write of
another width, one that is not aligned, and a virtual function's are ignored; an owner entry written returns the context's
observation page to its reset values; ones written to VAL and OVER of a bank clear them. A write of 4 bytes acts on its half
alone: one of the high half of a counter's CTL leaves OVF and the rest as they are, one of the high half of a bank's STATUS takes
CORRCNT and clears VAL where its own bit is 1 (R3). -/
def Sys2Proof.RegisterWriteResults : Prop :=
  ∀ (s : State) (x : Nat), s.endpointUp = true → x < 2 ^ 64 →
    let ctl (off : Nat) (c : Ctl) := exec (.registerWrite 0 off 8 x) s = .next { s with ctl := c }
    (1 ≤ x % 2 ^ 32 → x % 2 ^ 32 ≤ 1000 → ctl 0 { s.ctl with fto := x % 2 ^ 32 }) ∧
    (x % 2 ^ 32 = 0 ∨ 1000 < x % 2 ^ 32 → ctl 0 s.ctl) ∧ ctl 8 { s.ctl with fretry := x % 8 } ∧
    (x % 16 = 0 → x < 2 ^ 39 → ctl 16 { s.ctl with setTab := x }) ∧ (x % 16 ≠ 0 ∨ 2 ^ 39 ≤ x → ctl 16 s.ctl) ∧
    ctl 24 { s.ctl with setLen := x % 2 ^ 32 } ∧
    (s.ctl.joined = false → x % 2 ^ 10 ≤ 575 → ctl 32 { s.ctl with rank := x % 2 ^ 10, joined := x.testBit 63 }) ∧
    (s.ctl.joined = true ∨ 575 < x % 2 ^ 10 → ctl 32 { s.ctl with joined := x.testBit 63 }) ∧
    (∀ f off w d, (w ≠ 4 ∧ w ≠ 8) ∨ off % w ≠ 0 ∨ 16 < f → exec (.registerWrite f off w d) s = .next s) ∧
    (∀ f off d, 0 < f → off < 0x1000000 → off % 8 = 0 → exec (.registerWrite f off 8 d) s = .next s) ∧
    (∀ idx, idx < 4096 → x / 2 ^ 32 % 32 ≤ 16 → ∃ t, exec (.contextOwnerWrite idx x) s = .next t ∧
      (∃ e, aget t.owners idx = some e ∧ e.getLsbD 63 = x.testBit 63 ∧ e.toNat % 2 ^ 32 = x % 2 ^ 32 ∧
        e.toNat / 2 ^ 32 % 32 = x / 2 ^ 32 % 32) ∧ t.obsPage idx = ObsPage.fresh ∧
      (∀ k, k ≠ idx → t.obsPage k = s.obsPage k ∧ aget t.owners k = aget s.owners k) ∧ t.ctl = s.ctl) ∧
    (∀ n b, aget s.banks n = some b → ∃ b', exec (.bankStatusClear n x) s = .next { s with banks := aput s.banks n b' } ∧
      (x.testBit 63 = true → b'.status.getLsbD 63 = false) ∧
      (x.testBit 62 = true → b'.status.getLsbD 62 = false) ∧
      (x.testBit 63 = false → b'.status.getLsbD 63 = b.status.getLsbD 63) ∧
      (x.testBit 62 = false → x.testBit 63 = false → b'.status.getLsbD 62 = b.status.getLsbD 62) ∧
      b'.addr = b.addr ∧ b'.ctx = b.ctx ∧ b'.synd = b.synd ∧ b'.time = b.time) ∧
    (∀ f core m d, f ≤ 16 → core < 384 → m < 8 → (s.counterOf f core m).ctl &&& 0x380FF = (s.counterOf f core m).ctl →
      ∃ t,
      exec (.registerWrite f (0x2000000 + 128 * core + 16 * m + 4) 4 d) s = .next t ∧
        t.counterOf f core m = s.counterOf f core m ∧ t.mem = s.mem) ∧
    (∀ n b d, n < 644 → aget s.banks n = some b → ∃ b',
      exec (.registerWrite 0 (0x10000 + 64 * n + 4) 4 d) s = .next { s with banks := aput s.banks n b' } ∧
        b'.status.getLsbD 63 = (b.status.getLsbD 63 && !d.testBit 31) ∧ b'.status.toNat / 2 ^ 32 % 2 ^ 16 = d % 2 ^ 16)

/-- `CORE_RETIREMENT` (R17): the core leaves service, and each of its teams that is not to be parked already is to be parked
with REASON 3. `POWER_ON_RESET` and `CONFIGURATION_REQUEST` (R23): a reset leaves the state after reset, with host memory and the
firmware as they were; a request while the device is in reset, or before its firmware verifies, is answered with a retry
status, and the one that finds it ready may enable the endpoint. -/
def Obligations.RetirementAndResetResults : Prop :=
  ∀ (s : State),
    (∀ core, s.endpointUp = true → core < 384 → ∃ t, exec (.coreRetirement core) s = .next t ∧
      (t.core core).inService = false ∧ (∀ c, c ≠ core → (t.core c).inService = (s.core c).inService) ∧
      ∀ tr tm, s.team tr = some tm →
        (tr.core = core → ∃ tm', t.team tr = some tm' ∧ tm'.parkWanted = some (tm.parkWanted.getD 3)) ∧
        (tr.core ≠ core → t.team tr = some tm)) ∧
    (∃ t, exec .powerOnReset s = .next t ∧ t.ctxs = [] ∧ t.teams = [] ∧ t.groups = [] ∧ t.grids = [] ∧ t.l1 = [] ∧
      t.rdc = [] ∧ t.tlb = [] ∧ t.firn = [] ∧ t.queues = [] ∧ t.mem = [] ∧ t.fatal = false ∧ t.endpointUp = false ∧
      t.ctl = State.reset.ctl ∧ t.hostMem = s.hostMem ∧ t.image = s.image ∧ t.secVersion = s.secVersion) ∧
    (s.endpointUp = true → exec .configurationRequest s = .next s) ∧
    (s.endpointUp = false → (s.inReset = true ∨ s.firmwareOk = false) →
      exec .configurationRequest s = .next { s with msgs := s.msgs ++ [.retryStatus] }) ∧
    (∀ d s1, s.endpointUp = false → s.inReset = false → s.firmwareOk = true → s.pick 2 = (d, s1) →
      (d = 0 → exec .configurationRequest s = .next { s1 with endpointUp := true }) ∧
      (d = 1 → exec .configurationRequest s = .next { s1 with msgs := s1.msgs ++ [.retryStatus] }))

/-! Launches and teams -/

/-- `DEPENDENCE_MET` (R233, R234, R324): a launch whose dependence is met takes its key to the index: without a key it is
ready with the original code, a VALID entry gives it the residual, and where none has its key a new entry begins to be built,
which WAIT waits for and GENERIC does not; where no entry, or not even the space of one line, can be had the original runs at
once. A dependence that is not met leaves it waiting; one that cannot be read drops it. -/
def Sys2Proof.DependenceResults : Prop :=
  ∀ (s s0 s1 : State) (n : Nat) (gr : Grid) (key : Option (List Nat)), s.grid n = some gr →
    (gr.phase ≠ .dependence → exec (.dependenceMet n) s = .next s) ∧
    (gr.phase = .dependence → gr.depAddr ≠ 0 →
      (gr.depAddr.toNat % 8 ≠ 0 → ∃ t, exec (.dependenceMet n) s = .next t ∧ t.grids.all (fun p => p.1 != n) = true) ∧
      (gr.depAddr.toNat % 8 = 0 → ∀ r, s.vread gr.ctx gr.depAddr.toNat 8 true = (r, s0) →
        (∀ e, r = .error e → ∃ t, exec (.dependenceMet n) s = .next t ∧ t.grids.all (fun p => p.1 != n) = true) ∧
        (∀ x, r = .ok x → x < gr.depVal.toNat → exec (.dependenceMet n) s = .next s0))) ∧
    (gr.phase = .dependence →
      ((gr.depAddr = 0 ∧ s0 = s) ∨ (gr.depAddr ≠ 0 ∧ gr.depAddr.toNat % 8 = 0 ∧ ∃ x, gr.depVal.toNat ≤ x ∧
        s.vread gr.ctx gr.depAddr.toNat 8 true = (.ok x, s0))) →
      s0.keyFor n gr = (key, s1) → s1.grid n = some gr →
      (key = none → exec (.dependenceMet n) s = .next (s1.setGrid n { gr with phase := .ready })) ∧
      (∀ k e, key = some k → s1.firn.find? (fun e => e.ctx == gr.ctx && e.matching && e.key == k) = some e →
        (e.state = .valid → ∃ t gr', exec (.dependenceMet n) s = .next t ∧ t.grid n = some gr' ∧ gr'.phase = .ready ∧
          gr'.residual = some e.id ∧ gr'.missed = gr.missed) ∧
        (e.state = .rejected → ∃ t gr', exec (.dependenceMet n) s = .next t ∧ t.grid n = some gr' ∧ gr'.phase = .ready ∧
          gr'.residual = none ∧ gr'.rejected = true) ∧
        (e.state = .building → ∃ t gr', exec (.dependenceMet n) s = .next t ∧ t.grid n = some gr' ∧ gr'.missed = true ∧
          (gr.policy = 1 → gr'.phase = .ready ∧ gr'.residual = none) ∧
          (gr.policy ≠ 1 → gr'.phase = .specialise ∧ gr'.residual = some e.id))) ∧
      (∀ k, key = some k → s1.firn.find? (fun e => e.ctx == gr.ctx && e.matching && e.key == k) = none →
        s1.firn.length < 2048 → (State.firnRoom gr.ctx 384 s1.firn.length s1).1.isSome = true → ∃ t gr' e, exec (.dependenceMet n) s = .next t ∧ t.grid n = some gr' ∧ gr'.missed = true ∧
          t.firn = s1.firn ++ [e] ∧ e.key = k ∧ e.state = .building ∧ e.ctx = gr.ctx ∧ t.builds = s1.builds ++ [e.id] ∧
          (gr.policy = 1 → gr'.phase = .ready ∧ gr'.residual = none) ∧
          (gr.policy ≠ 1 → gr'.phase = .specialise ∧ gr'.residual = some e.id)) ∧
      (∀ k, key = some k → s1.firn.find? (fun e => e.ctx == gr.ctx && e.matching && e.key == k) = none →
        (State.firnRoom gr.ctx 384 s1.firn.length s1).1 = none →
        exec (.dependenceMet n) s = .next (s1.setGrid n { gr with phase := .ready, missed := true })))

/-- `TEAM_PLACE` and `RESERVATION` (R29 to R32): a core in service, with no self-test due that a reservation does not defer, takes the next team of the first
launch where it fits: a free slot holds the team with its number and coordinates, its groups stand at their roles' entries
in the quarters of R29, and the grid's next team is the one after. A core that takes none leaves all as it is. After four
ageing quanta without a placement at level 0 the head of the order holds the reservation, until its next placement, and one that
can never be placed holds none: it is dropped where none of its teams has been placed. -/
def Sys2Proof.PlacementResults : Prop :=
  ∀ (s : State) (core n : Nat) (gr : Grid) (rest : List (Nat × Grid)), s.launchOrder = (n, gr) :: rest →
    (s.takes core = false → exec (.teamPlace core) s = .next s) ∧
    (s.takes core = true ↔ (s.core core).inService = true ∧ ((s.core core).testDue = true → s.reservation.isSome = true)) ∧
    (∀ qs, s.takes core = true → gr.parked.any (fun p => p.wantResume) = false → gr.next < gr.teams → gr.cluster = false →
      gr.coresident = false → s.fit core gr.roles gr.scratch = some qs → s.grid n = some gr → (s.freeSlots core) ≠ [] →
      ∃ t slot tm, exec (.teamPlace core) s = .next t ∧ s.team ⟨core, slot⟩ = none ∧ slot < 16 ∧
        t.team ⟨core, slot⟩ = some tm ∧ tm.grid = n ∧ tm.ctx = gr.ctx ∧ tm.teamId = gr.next ∧ tm.tx = gr.next % gr.x ∧
        tm.ty = gr.next / gr.x % gr.y ∧ tm.tz = gr.next / (gr.x * gr.y) ∧ tm.argBase = gr.argCopy ∧
        tm.scrSize = gr.scratch ∧ tm.scratch = [] ∧ tm.tags = [] ∧
        t.grid n = some { gr with next := gr.next + 1, phase := .placed, zeroSince := some s.clock } ∧
        t.reservation = (if s.reservation = some n then none else s.reservation) ∧
        (∀ tr, tr ≠ ⟨core, slot⟩ → t.team tr = s.team tr) ∧
        ∀ i ri e q, (groupsOf gr.roles)[i]? = some (ri, e) → qs[i]? = some q → ∃ g', t.group ⟨core, slot, i⟩ = some g' ∧
          g'.role = Role.ofCode ri ∧ g'.allot = e.allot ∧ g'.spc = e.entry ∧ g'.laneBase = e.base ∧ g'.quarter = q ∧
          g'.status = .active ∧ g'.fmtS = gr.fmt ∧ g'.exmS = 0xFFFFFFFF ∧ g'.s = [] ∧ g'.waitS = none) ∧
    (s.placeable gr = false → gr.next = 0 → ∃ t, exec .reservation s = .next t ∧ t.grids.all (fun p => p.1 != n) = true) ∧
    (∀ q start, q = s.ageClocks gr.ctx → start = max (gr.entered + gr.level * q) (gr.zeroSince.getD 0) →
      s.placeable gr = true →
      (start + 4 * q ≤ s.clock → exec .reservation s = .next { s with reservation := some n }) ∧
      (s.clock < start + 4 * q → exec .reservation s = .next s)) ∧
    (s.placeable gr = false → gr.next ≠ 0 → exec .reservation s = .next s)

/-- `TEAM_RETIRE` and `GRID_COMPLETE` (R57, R61, R62): a team all of whose groups have exited with nothing outstanding leaves
its core, and its grid counts one team more ended; a grid whose teams and children have ended, and whose contributions and
partials have reached their homes, is complete, DONE where it still ran, its argument area free, and its packet notes the status. Until then neither changes anything. -/
def Sys2Proof.RetirementResults : Prop :=
  ∀ (s : State) (tr : TRef) (tm : Team) (n : Nat) (gr : Grid),
    (s.team tr = some tm → s.retires tr tm = false → exec (.teamRetire tr.core tr.slot) s = .next s) ∧
    (s.team tr = some tm → s.retires tr tm = true → NoObjectWaits s → s.grid tm.grid = some gr →
      (s.core tr.core).act = none →
      ∃ t, exec (.teamRetire tr.core tr.slot) s = .next t ∧ t.team tr = none ∧ (∀ p ∈ t.groups, p.1.team ≠ tr) ∧
        t.grid tm.grid = some { gr with ended := gr.ended + 1 } ∧ (∀ e ∈ (t.core tr.core).trapQ, e.1 ≠ tr.slot)) ∧
    (s.grid n = some gr → (gr.complete = true ∨ s.gridEnded n gr = false) → exec (.gridComplete n) s = .next s) ∧
    (s.grid n = some gr → gr.complete = false → s.gridEnded n gr = true → gr.sigAddr = 0 → n ∉ s.childGrids n →
      (∀ g k, gr.issuer = .spawn g k → ∃ t gr', exec (.gridComplete n) s = .next t ∧ t.grid n = some gr' ∧
        gr'.complete = true ∧ gr'.argBytes = 0 ∧ (gr.status = .running → gr'.status = .done) ∧
        (gr.status ≠ .running → gr'.status = gr.status) ∧
        (gr.argBytes ≠ 0 → ∀ a, argPlace n ≤ a → a < argPlace n + 65536 → sget t.mem a = 0) ∧
        (∀ a, a < argPlace n ∨ argPlace n + 65536 ≤ a → sget t.mem a = sget s.mem a)) ∧
      (∀ slot q p, gr.issuer = .queue slot p.seq → gr.status = .running → s.queue slot = some q → q.packets = [p] →
        p.status = none → p.callGrid = some n → ∃ t q' p', exec (.gridComplete n) s = .next t ∧
          t.grids.all (fun x => x.1 != n) = true ∧ t.queue slot = some q' ∧ q'.packets = [p'] ∧ p'.status = some 0 ∧
          p'.callGrid = none ∧ p'.word3 = 0 ∧ p'.value = p.value))

/-! Parking and pre-emption -/

/-- Parking (R58, R279 to R282): a team whose groups all wait in `JOIN`, one of them for a child with a team that cannot be placed,
is to be parked with REASON 2; a park stops the team's groups, and once nothing of it is outstanding writes its record to the
lowest free slot, or ends its grid FAULTED with QUOTA where there is none; once the record stands the team leaves its core, or is
killed where VALID cannot be written; a parked team's own condition returns it to its launch queue. -/
def Sys2Proof.ParkResults : Prop :=
  ∀ (s : State) (tr : TRef) (tm : Team),  s.team tr = some tm →
    (∀ n, s.joinStuck tr = some n → ∃ t, exec (.joinPark tr.core tr.slot) s = .next t ∧ t.groups = s.groups ∧
      (tm.parkWanted = none → t.team tr = some { tm with parkWanted := some 2, parkGid := none, joining := some n }) ∧
      (tm.parkWanted.isSome = true → t.team tr = some tm)) ∧
    (s.joinStuck tr = none → exec (.joinPark tr.core tr.slot) s = .next s) ∧
    (tm.parkWanted = none ∨ tm.parkSlot.isSome → exec (.park tr.core tr.slot) s = .next s) ∧
    (∀ reason s1, tm.parkWanted = some reason → tm.parkSlot = none → tm.cluster = false → (s.core tr.core).act = none →
      s1 = (s.onTeam tr (fun t => { t with parkWanted := some reason })).stopTeam tr →
      (s1.quiet tr = false → exec (.park tr.core tr.slot) s = .next s1) ∧
      (∀ tm1 tm' x s2, s1.quiet tr = true → s1.team tr = some tm1 → tm1.parkWanted = some reason → tm1.parkSlot = none →
        s2 = s1.sendTeam tr → s2.team tr = some tm' → s2.ctx tm'.ctx = some x →
        (x.freeSlot = none → exec (.park tr.core tr.slot) s = .next (s2.faultTeam tr .quota)) ∧
        (∀ slot i, x.freeSlot = some slot → reason ≠ 0 → i = parkInfo tm' (s2.teamGroups tr) reason →
          let gs := sortBy (fun a b => decide (a.1.gid < b.1.gid)) (s2.teamGroups tr)
          ∀ s3, s2.putRecord tm'.ctx (x.parkBase.toNat + 2 ^ 20 * slot) (recordLen tm'.scrSize (gs.map (fun p => p.2.allot)))
              (s2.record tm' gs i) = (.ok (), s3) → s3.team tr = some tm' → s3.ctx tm'.ctx = some x →
            ∃ t, exec (.park tr.core tr.slot) s = .next t ∧
              t.team tr = some { tm' with parkSlot := some slot } ∧
              t.ctx tm'.ctx = some { x with usedSlots := slot :: x.usedSlots } ∧ t.mem = s3.mem))) ∧
    (tm.parkSlot = none → exec (.parkRecordValid tr.core tr.slot) s = .next s) ∧
    (∀ slot x gr xl s1, tm.parkSlot = some slot → s.ctx tm.ctx = some x →
      s.translate tm.ctx (x.parkBase.toNat + 2 ^ 20 * slot + 0x27) = (xl, s1) →
      (xl = none → exec (.parkRecordValid tr.core tr.slot) s = .next (s1.faultTeam tr .translation)) ∧
      (∀ y, xl = some y → (y.w = false ∨ y.host = true) →
        exec (.parkRecordValid tr.core tr.slot) s = .next (s1.faultTeam tr .protection)) ∧
      (∀ y, xl = some y → y.w = true → y.host = false → s.grid tm.grid = some gr → NoObjectWaits s →
        (s.core tr.core).act = none → ∃ t gr' p, exec (.parkRecordValid tr.core tr.slot) s = .next t ∧ t.team tr = none ∧
        (∀ q ∈ t.groups, q.1.team ≠ tr) ∧ t.grid tm.grid = some gr' ∧ gr'.parked = gr.parked ++ [p] ∧ p.slot = slot ∧
        p.teamId = tm.teamId ∧ p.reason = tm.parkWanted.getD 0 ∧ (p.wantResume = true ↔ tm.parkWanted = some 3))) ∧
    (∀ n slot gr, s.grid n = some gr → exec (.parkAutoResume n slot) s = .next (s.setGrid n { gr with
      parked := gr.parked.map (fun p => if p.slot = slot ∧ s.resumesAlone gr p then { p with wantResume := true } else p) }))

/-- Pre-emption (R284): at DRAINDL, or once none of its teams is resident, a context goes to PARK with its second deadline, and
every resident team that still has something to do, and is not to be parked already, is to be parked with REASON 1; at PARKDL the
grids of the teams that are left are killed; with no team left the context is OFF and whoever asked is
told. Before these times nothing changes. -/
def Sys2Proof.PreemptionResults : Prop :=
  ∀ (s : State) (c : Nat) (x : Ctx), s.ctx c = some x →
    (∀ parkAt reset, x.phase = .drain parkAt reset →
      (s.clock < parkAt → s.ctxTeams c ≠ [] → exec (.preemptPark c) s = .next s) ∧
      ((parkAt ≤ s.clock ∨ s.ctxTeams c = []) → ∃ t, exec (.preemptPark c) s = .next t ∧
        t.ctx c = some { x with phase := .park (s.clock + reset) } ∧
        (∀ tr tm, s.team tr = some tm → tm.ctx = c → s.retires tr tm = false → tm.parkWanted = none →
          t.team tr = some { tm with parkWanted := some 1, parkGid := none }) ∧
        (∀ tr tm, s.team tr = some tm → tm.parkWanted.isSome = true → t.team tr = some tm) ∧
        (∀ tr tm, s.team tr = some tm → (∀ p ∈ s.ctxTeams c, p.1 ≠ tr) → t.team tr = some tm) ∧ t.groups = s.groups)) ∧
    (∀ reset, x.phase = .park reset →
      (s.clock < reset ∨ s.ctxTeams c = [] → exec (.preemptReset c) s = .next s) ∧
      (reset ≤ s.clock → ∀ tr tm gr, s.ctxTeams c = [(tr, tm)] → s.grid tm.grid = some gr → gr.status = .running →
        (∀ p ∈ s.groups, p.2.waitS = none) → ∃ t gr', exec (.preemptReset c) s = .next t ∧ t.grid tm.grid = some gr' ∧
          gr'.status = .killed) ∧
      (s.ctxTeams c ≠ [] → exec (.preemptOff c) s = .next s) ∧
      (s.ctxTeams c = [] → x.preemptQ = [] → exec (.preemptOff c) s = .next (s.setCtx c { x with phase := .off })) ∧
      (∀ slot seq q p, s.ctxTeams c = [] → x.preemptQ = [(slot, seq)] → s.queue slot = some q → q.packets = [p] →
        p.seq = seq → p.status = none → exec (.preemptOff c) s =
          .next ((s.setCtx c { x with phase := .off, preemptQ := [] }).setQueue slot
            { q with packets := [{ p with status := some 0 }] }))) ∧
    (x.phase = .running → exec (.preemptPark c) s = .next s ∧ exec (.preemptReset c) s = .next s ∧
      exec (.preemptOff c) s = .next s)

/-! Activations and watchdogs -/

/-- `HANDLER_ACTIVATION` (R272, R275), `HANDLER_WATCHDOG` (R278) and `TAG_WATCHDOG` (R216): the head of an idle core's trap
queue is presented to a handler group that stands at HANDLER with 32 registers and everything else zero, the presented group
staying as it is; a busy core, or one with an empty queue, presents nothing, and a team that is to be parked keeps its trap. An activation that has lasted HNDWD ends. A wait
of Table SYN-1 that has lasted TAGWD traps with TAG_WATCHDOG at its word, unless TAGWD is 0. -/
def Obligations.ActivationResults : Prop :=
  ∀ (s : State) (core slot gid : Nat) (rest : List (Nat × Nat)) (gr : Group) (tm : Team),
    s.group ⟨core, slot, gid⟩ = some gr → s.team ⟨core, slot⟩ = some tm →
    (∀ a, (s.core core).act = some a → exec (.handlerActivation core) s = .next s) ∧
    ((s.core core).trapQ = [] → exec (.handlerActivation core) s = .next s) ∧
    ((s.core core).act = none → (s.core core).trapQ = (slot, gid) :: rest → slot < 16 →
      (tm.parkWanted.isSome = true → ∃ t, exec (.handlerActivation core) s = .next t ∧ (t.core core).trapQ = rest ∧
        (t.core core).act = none ∧ t.groups = s.groups) ∧
      (tm.handler ≠ 0 → tm.parkWanted = none → ∃ t h a, exec (.handlerActivation core) s = .next t ∧ t.group (handlerGroup core) = some h ∧
        h.spc = tm.handler ∧ h.role = .control ∧ h.allot = 32 ∧ h.s = [] ∧ h.v = [] ∧ h.p = [] ∧ h.c = [] ∧
        h.status = .active ∧ (t.core core).act = some a ∧ a.slot = slot ∧ a.gid = gid ∧ a.trap = gr.trap ∧
        a.since = s.clock ∧ (t.core core).trapQ = rest ∧ ∀ g, g ≠ handlerGroup core → t.group g = s.group g) ∧
      (tm.handler = 0 → ∀ r, gr.trap = some r → r.cause.parks = true → tm.parkWanted = none →
        ∃ t, exec (.handlerActivation core) s = .next t ∧
          t.team ⟨core, slot⟩ = some { tm with parkWanted := some 0, parkGid := some gid } ∧
          (t.core core).trapQ = rest ∧ t.groups = s.groups)) ∧
    (∀ a, (s.core core).act = some a → a.slot = slot →
      (s.clock < a.since + 1800 * tm.hndwd → exec (.handlerWatchdog core) s = .next s) ∧
      (a.since + 1800 * tm.hndwd ≤ s.clock → ∃ t, exec (.handlerWatchdog core) s = .next t ∧
        (t.core core).act = none ∧ t.group (handlerGroup core) = none)) ∧
    ((s.core core).act = none → exec (.handlerWatchdog core) s = .next s) ∧
    (gr.status = .active → slot < 16 →
      (∀ obj ph b, gr.waitS = some (.barrier obj ph b) →
        (tm.tagwd ≠ 0 → gr.sinceS + 1800 * tm.tagwd ≤ s.clock →
          exec (.tagWatchdog core slot gid 0) s = .next (s.trapS ⟨core, slot, gid⟩ .tagWatchdog 0 obj.toNat)) ∧
        (tm.tagwd = 0 ∨ s.clock < gr.sinceS + 1800 * tm.tagwd → exec (.tagWatchdog core slot gid 0) s = .next s)) ∧
      (∀ obj k b n, gr.waitS = some (.ring obj k b n) → tm.tagwd ≠ 0 → gr.sinceS + 1800 * tm.tagwd ≤ s.clock →
        exec (.tagWatchdog core slot gid 0) s = .next (s.trapS ⟨core, slot, gid⟩ .tagWatchdog 0 obj.toNat)) ∧
      (∀ u us, gr.waitL = some .tag → gr.tagPend = u :: us → tm.tagwd ≠ 0 → gr.sinceL + 1800 * tm.tagwd ≤ s.clock →
        exec (.tagWatchdog core slot gid 1) s = .next (s.trapL ⟨core, slot, gid⟩ .tagWatchdog 0 u.va
          (laneMask ((u :: us).map (fun u => u.lane))))))

/-! Ends of waits, and accesses -/

/-- Lane blocks and scalar waits (R37, R38, R41, R60, R164, R184, R212): a group without a block begins the head of its queue,
with the snapshot and the stack depth; a spilled entry comes back while there is room; `LSYNC` ends once every block has,
with the copies of R41; `EXIT` then ends the group; `WAITTL` and `WAITP` end at their limits; an idle grant is given back
after 16384 clocks. Where the condition does not hold, nothing changes. -/
def Sys2Proof.WaitReleaseResults : Prop :=
  ∀ (s : State) (core slot gid : Nat) (g : GRef) (gr : Group), g = ⟨core, slot, gid⟩ → s.group g = some gr →
    gr.status = .active →
    (∀ e rest, gr.run = none → gr.laneQ = e :: rest → ∃ gr', exec (.laneBlockStart core slot gid) s = .next (s.setGroup g gr') ∧
      gr'.lpc = e.target ∧ gr'.lMarks = true ∧ gr'.fmtL = e.fmt ∧ gr'.exmL = e.exm ∧ gr'.laneQ = rest ∧
      gr'.run = some ⟨e.k, gr.stack.length⟩ ∧ gr'.v = gr.v ∧ gr'.p = gr.p ∧ gr'.stack = gr.stack ∧ gr'.spc = gr.spc) ∧
    (gr.run ≠ none ∨ gr.laneQ = [] → exec (.laneBlockStart core slot gid) s = .next s) ∧
    (∀ e rest, gr.spilled = e :: rest → gr.laneQ.length < 16 → exec (.laneQueueRefill core slot gid) s =
      .next (s.setGroup g { gr with laneQ := gr.laneQ ++ [e], spilled := rest })) ∧
    (gr.spilled = [] ∨ 16 ≤ gr.laneQ.length → exec (.laneQueueRefill core slot gid) s = .next s) ∧
    (gr.waitS = some .lsync → gr.enq ≤ gr.ended → exec (.lsyncRelease core slot gid) s = .next (s.scalarDone g
      { gr with yS := gr.yL, gfS := gr.gfL, exmS := gr.exmL, mxSeen := gr.mxEnded, syncId := gr.nextId } 1)) ∧
    (gr.waitS ≠ some .lsync ∨ gr.ended < gr.enq → exec (.lsyncRelease core slot gid) s = .next s) ∧
    (∀ tm, gr.waitS = some .exitWait → g.isHandler = false → s.team g.team = some tm → tm.region gr.role = none →
      gr.enq ≤ gr.ended → gr.eng = [] → gr.out = [] → gr.obj = [] → NoWrap s core 0x02 1 →
      ∃ t, exec (.groupExitEnd core slot gid) s = .next t ∧
        t.group g = some { gr with status := .exited, grant := none, waitS := none, waitL := none } ∧
        ∀ g', g' ≠ g → t.group g' = s.group g') ∧
    (gr.waitS ≠ some .exitWait → exec (.groupExitEnd core slot gid) s = .next s) ∧
    (∀ c n, gr.waitS = some (.timeline c n) →
      (n ≤ s.timeline g gr c → exec (.waittlRelease core slot gid) s = .next ((s.acquire core).scalarDone g gr 1)) ∧
      (s.timeline g gr c < n → exec (.waittlRelease core slot gid) s = .next (s.setGroup g gr))) ∧
    (∀ p limit n, gr.waitL = some (.waitp p limit n) →
      (gr.pathCount p ≤ limit → exec (.waitpRelease core slot gid) s = .next (s.laneDone g (gr.covered p) n)) ∧
      (limit < gr.pathCount p → exec (.waitpRelease core slot gid) s = .next s)) ∧
    (∀ x, gr.grant = some x →
      (gr.lastMma + 16384 ≤ s.clock →
        exec (.grantIdleTimeout core slot gid) s = .next (s.setGroup g { gr with grant := none })) ∧
      (s.clock < gr.lastMma + 16384 → exec (.grantIdleTimeout core slot gid) s = .next (s.setGroup g gr)))

/-- `FENCE_COMPLETE` and `FENCE_SURV_COMPLETE` (R190, R192, R193): a fence that waits ends, and the stream goes on, once
nothing of its kind is outstanding; while a lane block runs it goes on waiting; the two steps leave the other kind alone. -/
def Sys2Proof.FenceReleaseResults : Prop :=
  ∀ (s : State) (core slot gid : Nat) (g : GRef) (gr : Group) (tm : Team) (kind ce kv co : Nat), g = ⟨core, slot, gid⟩ →
    s.group g = some gr → gr.status = .active → g.isHandler = false → s.team g.team = some tm →
    gr.waitS = some (.fence kind ce kv co) →
    (kind = 2 → exec (.fenceComplete core slot gid) s = .next s) ∧
    (kind ≠ 2 → exec (.fenceSurvComplete core slot gid) s = .next s) ∧
    (gr.ended < gr.enq → kind ≠ 2 → exec (.fenceComplete core slot gid) s = .next (s.setGroup g gr)) ∧
    (gr.ended < gr.enq → kind = 2 → exec (.fenceSurvComplete core slot gid) s = .next (s.setGroup g gr)) ∧
    (gr.enq ≤ gr.ended → gr.out = [] → (∀ u ∈ s.upart, g ∉ u.owners) →
      (∀ f ∈ s.fabTags, f.busy = true → f.why ≠ .lane g ∧ ∀ os, f.why = .partial_ os → g ∉ os) →
      (kind ≠ 2 → exec (.fenceComplete core slot gid) s = .next (s.scalarDone g gr 1)) ∧
      (kind = 2 → ce ≤ tm.doneCe → kv ≤ tm.doneKv → co ≤ tm.doneCo → gr.mxFence ≤ gr.mxDone →
        (∀ e ∈ (s.core core).staging, e.mor = true → g ∉ e.from_) → (∀ x ∈ s.sends, x.mor = true → g ∉ x.from_) →
        s.deltas = [] →
        gr.survDeg = false → tm.survBad = [] → gr.morFrames = [] → tm.mor = [] →
        exec (.fenceSurvComplete core slot gid) s = .next (s.scalarDone g (gr.setC 0 false) 1)))

/-- `ACCESS_PERFORMED_AT_HOME` (R157, R175, R176): the first unit that a group owes is performed: a load brings the bytes at
its address to its register, and the old value may still be read until a covering wait; a store puts its bytes there, and
no other byte of memory changes, but one to a page locked for a move is held; an access of host memory acts there. A group that
owes none changes nothing. -/
def Sys2Proof.AccessPerformedResults : Prop :=
  ∀ (s : State) (core slot gid : Nat) (g : GRef) (gr : Group) (o : OutOp) (u : AUnit) (rest : List AUnit),
    g = ⟨core, slot, gid⟩ → s.group g = some gr →
    (gr.out = [] → s.holds = [] → ∀ k, exec (.accessPerformedAtHome core slot gid k) s = .next s) ∧
    (gr.out = [o] → o.units = u :: rest → u.bytes = 4 → u.pa % 4 = 0 → PlainHomes s → NoObjectWaits s →
      s.holds = [] → NoWrap s core 0x06 1 →
      (∀ r, u.space = .global → u.kind = .load false → u.dst = [some r] → NoCopy s core (lineOf u.pa) →
        s.unbuilt u.pa = false → gr.stopping = none →
        ∃ t gr', exec (.accessPerformedAtHome core slot gid 0) s = .next t ∧ t.group g = some gr' ∧
          sget gr'.v (vkey r u.phys) = BitVec.ofNat 32 (sgetLE s.mem u.pa 4) ∧
          (∀ k, k ≠ vkey r u.phys → sget gr'.v k = sget gr.v k) ∧ gr'.out = [{ o with units := rest, sent := none }] ∧
          ⟨some o.path, false, r, u.phys, sget gr.v (vkey r u.phys), o.id⟩ ∈ gr'.alt ∧ t.mem = s.mem) ∧
      (u.space = .global → u.kind = .store → u.dst = [] → u.mor = false → s.locked u.pa = false →
        ∃ t, exec (.accessPerformedAtHome core slot gid 0) s = .next t ∧ sgetLE t.mem u.pa 4 = u.data % 2 ^ 32 ∧
          (∀ a, a < u.pa ∨ u.pa + 4 ≤ a → sget t.mem a = sget s.mem a) ∧ t.hostMem = s.hostMem ∧
          t.group g = some { gr with out := [{ o with units := rest, sent := none }] }) ∧
      (u.space = .global → u.kind = .store → s.locked u.pa = true → s.unbuilt u.pa = false →
        ∃ t, exec (.accessPerformedAtHome core slot gid 0) s = .next t ∧ t.holds = [.lane g] ∧ t.mem = s.mem ∧
          t.groups = s.groups) ∧
      (u.space = .host → u.kind = .store → u.dst = [] →
        ∃ t, exec (.accessPerformedAtHome core slot gid 1) s = .next t ∧ sgetLE t.hostMem u.pa 4 = u.data % 2 ^ 32 ∧
          (∀ a, a < u.pa ∨ u.pa + 4 ≤ a → sget t.hostMem a = sget s.hostMem a) ∧ t.mem = s.mem))

/-- `PATH_COMPLETION` (R163): a path's counter falls past the words that have completed, in issue order, and past no other: a
word that still owes a unit stays, as do those of its path behind it, and what remains of a path begins with such a word.
`U_PARTIAL_FLUSH` (R159): a gathered partial of a 4-byte sum is added at its home, and is no longer gathered. -/
def Sys2Proof.CompletionAndFlushResults : Prop :=
  (∀ (s : State) (core slot gid : Nat) (gr : Group), s.group ⟨core, slot, gid⟩ = some gr →
    ∃ out, exec (.pathCompletion core slot gid) s = .next (s.setGroup ⟨core, slot, gid⟩ { gr with out := out }) ∧
      out.Sublist gr.out ∧ (∀ o ∈ gr.out, o.units ≠ [] → o ∈ out) ∧
      ∀ p o, out.find? (fun o => o.path == p) = some o → o.units ≠ []) ∧
  (∀ (s : State) (u : UPart) (a x : Nat), s.upart = [u] → s.remoteHolders = [] → (∀ p ∈ s.obs, p.2.hwPages = []) →
    NothingLocked s →
    u.rank = none → u.cells = [(a, x)] → u.op = .add → u.w = .w32 → u.mor = false → x < 2 ^ 32 →
    ∃ t, exec (.uPartialFlush 0) s = .next t ∧ t.upart = [] ∧ sgetLE t.mem a 4 = (sgetLE s.mem a 4 + x) % 2 ^ 32 ∧
      (∀ b, b < a ∨ a + 4 ≤ b → sget t.mem b = sget s.mem b) ∧ t.groups = s.groups) ∧
  (∀ (s : State) (n : Nat), s.upart.length ≤ n → exec (.uPartialFlush n) s = .next s)

/-! Matrix commands, staging and tiles -/

/-- The steps of MX commands (R199 to R211): the first `MMA` of a group is combined into its core's staging and completes; a
flush sends the entries of its tiles, waits while contributions of the group to them are on their way, and completes; an
`MXZERO` then zeroes its elements, and is complete with the last. A staging entry is sent whole; an element of a sent tile is
added at its home modulo 2^64, and the tile is done with its last element. -/
def Sys2Proof.MatrixStepResults : Prop :=
  ∀ (s : State) (core slot gid n : Nat) (g : GRef) (gr : Group) (c : MxCmd) (rest : List MxCmd), g = ⟨core, slot, gid⟩ →
    s.group g = some gr →
    (gr.mx = [] → exec (.stagingCombine core slot gid n) s = .next s) ∧
    (gr.mx = c :: rest → (∀ d ∈ rest, d.num ≠ c.num) →
      (c.kind = .mma → c.begun = true → (s.core core).staging = [] → ∃ t e, exec (.stagingCombine core slot gid n) s = .next t ∧
        t.group g = some { gr with mx := rest, mxDone := c.num } ∧ (t.core core).staging = [e] ∧ e.pa = c.pa ∧
        e.ctx = s.ctxOf g ∧ e.cells = c.contribs.1 ∧ e.from_ = [g] ∧ t.sends = s.sends ∧ t.mem = s.mem) ∧
      (∀ all, c.kind = .flush all → c.begun = false → ∃ t, exec (.stagingCombine core slot gid n) s = .next t ∧
        t.group g = some { gr with mx := { c with begun := true } :: rest } ∧
        (∀ e ∈ (t.core core).staging, e.ctx ≠ s.ctxOf g ∨ e.pa ∉ c.tiles) ∧
        (∀ e ∈ (s.core core).staging, e.ctx = s.ctxOf g → e.pa ∈ c.tiles →
          ∃ x ∈ t.sends, x.pa = e.pa ∧ x.cells = e.cells ∧ x.from_ = e.from_) ∧ t.mem = s.mem) ∧
      (∀ all, c.kind = .flush all → c.begun = true →
        ((∃ x ∈ s.sends, g ∈ x.from_ ∧ x.pa ∈ c.tiles) → exec (.stagingCombine core slot gid n) s = .next s) ∧
        ((∀ x ∈ s.sends, g ∉ x.from_ ∨ x.pa ∉ c.tiles) → exec (.stagingCombine core slot gid n) s =
          .next (s.setGroup g { gr with mx := rest, mxDone := c.num }))) ∧
      (∀ e, c.kind = .zero → c.begun = true → c.toZero = [e] → (∀ x ∈ s.sends, g ∉ x.from_ ∨ x.pa ≠ c.pa) → PlainHomes s →
        NothingLocked s → c.mor = false → c.pa % 8 = 0 → ∃ t, exec (.stagingCombine core slot gid n) s = .next t ∧
          sgetLE t.mem (c.pa + 8 * e) 8 = 0 ∧
          (∀ a, a < c.pa + 8 * e ∨ c.pa + 8 * e + 8 ≤ a → sget t.mem a = sget s.mem a) ∧
          t.group g = some { gr with mx := rest, mxDone := c.num })) ∧
    (∀ e, (s.core core).staging = [e] → ∃ t, exec (.stagingSend core 0) s = .next t ∧ (t.core core).staging = [] ∧
      t.sends = s.sends ++ [⟨core, e.ctx, e.pa, e.mor, e.cells, e.from_, e.grids⟩] ∧ t.mem = s.mem ∧ t.groups = s.groups) ∧
    ((s.core core).staging.length ≤ n → exec (.stagingSend core n) s = .next s) ∧
    (∀ x k v, s.sends = [x] → x.cells = [(k, v)] → PlainHomes s → x.mor = false → x.pa % 8 = 0 →
      (s.locked x.pa = true → exec (.tileAdd 0 n) s = .next s) ∧
      (NothingLocked s → ∃ t, exec (.tileAdd 0 n) s = .next t ∧ t.sends = [] ∧
        sgetLE t.mem (x.pa + 8 * k) 8 = (sgetLE s.mem (x.pa + 8 * k) 8 + v.toNat) % 2 ^ 64 ∧
        (∀ a, a < x.pa + 8 * k ∨ x.pa + 8 * k + 8 ≤ a → sget t.mem a = sget s.mem a) ∧ t.groups = s.groups)) ∧
    (s.sends.length ≤ n → ∀ e, exec (.tileAdd n e) s = .next s)

/-! Engines -/

/-- A copy command of a team that has not completed: its number, spaces, rows and bytes a row; no barrier is named. -/
def Sys2Proof.CopyStands (s : State) (tr : TRef) (tm : Team) (c : EngCmd) : Prop :=
  s.team tr = some tm ∧ tm.cmds = [c] ∧ c.cls = .ce ∧ c.op = .cpy ∧ c.stopped = none ∧ c.w 5 = 0

/-- `CE_UNIT_LAND` of a copy (R183, R361): unit u is four bytes of row u / (ROWBYTES / 4). From the own scratch to the own
scratch they stand at the destination, whose word becomes FULL, every other byte and tag as before; from device memory
likewise; to device memory the memory takes them; a refused access ends the command in an engine fault. A unit that has
landed, or is none, changes nothing. -/
def Sys2Proof.CopyUnitResults : Prop :=
  ∀ (s : State) (tr : TRef) (tm : Team) (c : EngCmd) (u per r k src dst : Nat), CopyStands s tr tm c → NoObjectWaits s →
    per = c.w 3 % 2 ^ 32 / 4 → r = u / per → k = u % per * 4 → src = c.w 1 + r * (c.w 4 % 2 ^ 32) + k →
    dst = c.w 2 + r * (c.w 4 / 2 ^ 32) + k →
    let step := exec (.ceUnitLand tr.core tr.slot c.num u) s
    ((c.w 3 / 2 ^ 32 * per ≤ u ∨ u ∈ c.landed) → step = .next s) ∧
    (u < c.w 3 / 2 ^ 32 * per → u ∉ c.landed → dst % 4 = 0 →
      (c.w 0 % 16 = 5 → ∃ t tm', step = .next t ∧ t.team tr = some tm' ∧
        sgetLE tm'.scratch dst 4 = sgetLE tm.scratch src 4 ∧
        (∀ a, a < dst ∨ dst + 4 ≤ a → sget tm'.scratch a = sget tm.scratch a) ∧ tm'.tag dst = true ∧
        (∀ a, a / 4 ≠ dst / 4 → tm'.tag a = tm.tag a) ∧ tm'.cmds = [{ c with landed := u :: c.landed }] ∧
        t.mem = s.mem ∧ (∀ tr', tr' ≠ tr → t.team tr' = s.team tr')) ∧
      (∀ s1 x, c.w 0 % 16 = 4 → s.checkGlobal (s.ctxOf (tr.group 0)) (src % 2 ^ 64) 4 4 true false true false (some tr.core)
          (s.teamIdOf (tr.group 0)) = (x, s1) →
        s1.team tr = some tm → NoObjectWaits s1 →
        (∀ m, x = .error m → step = .next (s1.engFault tr c m.cause m.info (src % 2 ^ 64))) ∧
        (∀ xl, x = .ok xl → xl.host = false → PlainHomes s1 → ∃ t tm', step = .next t ∧ t.team tr = some tm' ∧
          sgetLE tm'.scratch dst 4 = sgetLE s1.mem xl.pa 4 ∧
          (∀ a, a < dst ∨ dst + 4 ≤ a → sget tm'.scratch a = sget tm.scratch a) ∧ tm'.tag dst = true ∧
          tm'.cmds = [{ c with landed := u :: c.landed }])) ∧
      (∀ s1 xl, c.w 0 % 16 = 1 → s.checkGlobal (s.ctxOf (tr.group 0)) (dst % 2 ^ 64) 4 4 false true true false (some tr.core)
          (s.teamIdOf (tr.group 0)) = (.ok xl, s1) → s1.team tr = some tm → NoObjectWaits s1 → xl.host = false → s1.locked xl.pa = false →
        xl.mor = false → PlainHomes s1 → ∃ t tm', step = .next t ∧ sgetLE t.mem xl.pa 4 = sgetLE tm.scratch src 4 ∧
          (∀ a, a < xl.pa ∨ xl.pa + 4 ≤ a → sget t.mem a = sget s1.mem a) ∧ t.team tr = some tm' ∧
          tm'.scratch = tm.scratch ∧ tm'.cmds = [{ c with landed := u :: c.landed }]))

/-- `CE_COMMAND_COMPLETE` (R182): with every unit landed and no ring to release the command is over, and the CE counter rises
over its number once every number before it has completed; until then nothing changes. -/
def Sys2Proof.CopyCompletionResults : Prop :=
  ∀ (s : State) (tr : TRef) (tm : Team) (c : EngCmd), CopyStands s tr tm c → c.w 6 = 0 →
    let step := exec (.ceCommandComplete tr.core tr.slot c.num) s
    (c.landed.length < c.w 3 / 2 ^ 32 * (c.w 3 % 2 ^ 32 / 4) → step = .next s) ∧
    (c.w 3 / 2 ^ 32 * (c.w 3 % 2 ^ 32 / 4) ≤ c.landed.length → tm.finCe = [] →
      ∃ tm', step = .next (s.setTeam tr tm') ∧ tm'.cmds = [] ∧ tm'.scratch = tm.scratch ∧
        (c.num = tm.doneCe + 1 → tm'.doneCe = c.num ∧ tm'.finCe = []) ∧
        (tm.doneCe + 1 < c.num → tm'.doneCe = tm.doneCe ∧ tm'.finCe = [c.num]) ∧
        tm'.doneKv = tm.doneKv ∧ tm'.doneCo = tm.doneCo)

/-- `KV_COMMAND_PERFORM` (R265, R400, R401): the oldest command is performed whole: a list or result address out of alignment
completes it without a result, no such pool gives GEOMETRY, and else the status of the operation is its result; a move between tiers
first marks its pages, and holds the pool's other commands until it is done. The operations: a grant that does not fit is NOSPACE, a
page not granted BADPAGE, and neither changes a page; a grant gives ids of pages that were free. -/
def Sys2Proof.KvCommandResults : Prop :=
  (∀ (s s1 s2 : State) (tr : TRef) (tm : Team) (c : EngCmd) (x : Nat), s.team tr = some tm → tm.cmds = [c] →
    c.cls = .kv → c.landed = [] → c.op ≠ .kvsend →
    let step := exec (.kvCommandPerform tr.core tr.slot) s
    (c.w 1 % 4 ≠ 0 ∨ c.w 2 % 8 ≠ 0 → ∃ tm', step = .next (s.setTeam tr tm') ∧ tm'.cmds = [] ∧
      (tm.finKv = [] → c.num = tm.doneKv + 1 → tm'.doneKv = c.num)) ∧
    (c.op ∈ [EngOp.kvref, .kvunref, .kvtierCi, .kvtierAq] → c.w 1 % 4 = 0 → c.w 2 % 8 = 0 →
      s.vread (s.ctxOf (tr.group 0)) (c.w 1) (4 * kvCount c.desc) true = (.ok x, s1) → ∀ ys,
      checkPieces (s.ctxOf (tr.group 0)) true [(c.w 2, 8)] s1 = (.ok ys, s2) →
      ((s2.instOf tr).bind (fun y => s2.poolOf y (kvPool c.desc)) = none → step = .next (s2.kvResult tr c 7)) ∧
      (∀ k p, (s2.instOf tr).bind (fun y => s2.poolOf y (kvPool c.desc)) = some (k, p) →
        (s2.poolMoves tr c p = true → step = .next s2) ∧
        (∀ st ids s3, s2.poolMoves tr c p = false →
          s2.kvAct (s2.kvWriter tr c) p c.op (kvCount c.desc) (unpackIds x (kvCount c.desc)) false = (st, ids, s3) →
          (∀ n, st = some n → step = .next (s3.kvResult tr c n)) ∧
          (st = none → step = .next (s3.onTeam tr (fun t => t.putCmd { c with landed := [1] }))))))) ∧
  (∀ (s : State) (tr : TRef) (tm : Team), s.team tr = some tm → tm.cmds = [] →
    exec (.kvCommandPerform tr.core tr.slot) s = .next s ∧ exec (.kvsendComplete tr.core tr.slot) s = .next s) ∧
  (∀ (s : State) (wr : Writer) (p : PoolDesc) (n : Nat) (ids : List Nat) (b : Bool),
    (s.canGrant p n = false → s.kvAct wr p .kvalloc n ids b = (some 1, [], s)) ∧
    (s.canGrant p n = true → ∃ new t, s.kvAct wr p .kvalloc n ids b = (some 0, new, t) ∧ new.length = n ∧
      (n = 1 → (s.kpe p).ids.length < p.nids → (∀ i ∈ (s.kpe p).ids, i < p.nids) → (s.kpe p).ids.Nodup →
        ∀ i ∈ new, i < p.nids ∧ i ∉ (s.kpe p).ids)) ∧
    (∀ op s1, op ≠ .kvalloc → pagesOf p ids s = (none, s1) → s.kvAct wr p op n ids b = (some 3, [], s1)))

/-- `KVSEND_COMPLETE` (R267): what the peer answers is not ours to say: a refusal gives PEER, another geometry GEOMETRY, and an
acknowledgement of a send without MOVE, or of one whose record has ended meanwhile, is OK, its pages staying; a record in the batch
under way ends only after it. -/
def Sys2Proof.KvSendCompletion : Prop :=
  ∀ (s s1 : State) (tr : TRef) (tm : Team) (c : EngCmd) (x : Inst) (d : Nat), s.team tr = some tm → tm.cmds = [c] →
    c.op = .kvsend → c.landed ≠ [] → s.instOf tr = some x → s.pick 3 = (d, s1) →
    let step := exec (.kvsendComplete tr.core tr.slot) s
    let ends (status : Nat) := step = .next ((s1.sendOver x.num tr c).kvResult tr c status)
    (d = 1 → ends 6) ∧ (d = 2 → ends 7) ∧
    (d = 0 → ((c.landed.getD 1 0).testBit 16 = false ∨ s1.sentRec x.num tr c = none) → ends 0) ∧
    (∀ r, d = 0 → (c.landed.getD 1 0).testBit 16 = true → s1.sentRec x.num tr c = some r →
      (x.batch.any (fun e => e.idx == r.idx)) = true → step = .next s1)

/-- `KVSEND_RECEIVE` (R267): a record that comes for a running instance, with a pool of its shape, room in its quota and its share of
the active set, and no page to take, becomes a record of the instance at a free place, with the words that were sent, and the peer
hears OK; a pool of another shape is answered GEOMETRY; without an instance of that number it is refused, and no record is
made. -/
def Sys2Proof.KvSendReception : Prop :=
  ∀ (s s0 : State) (rank n : Nat) (words shape rest : List Nat), s.choices = rank :: n :: words ++ shape ++ rest →
    words.length = 32 → shape.length = 3 → s0 = { s with choices := rest } →
    (s.inst (n % 16) = none → exec .kvsendReceive s = .next (s0.answerSend (rank % 576) 6)) ∧
    (∀ x p idx r, s.inst (n % 16) = some x → x.status = .running →
      r = { idx := 0, inst := n % 16, words := (((words.map (· % 2 ^ 64)).zipIdx.filter (fun x => x.1 != 0)).map
              (fun x => (x.2, BitVec.ofNat 64 x.1)) : Store 64) : Rec } →
      s0.poolFor x r = some p → s0.freeRecIdx = some idx →
      (shape ≠ [p.lgT, p.layers, p.rowb] → exec .kvsendReceive s = .next (s0.answerSend (rank % 576) 7)) ∧
      (shape = [p.lgT, p.layers, p.rowb] → r.nPages = 0 → (r.state = 1 ∨ r.state = 2) → s0.instMoves x = false →
        (s0.recsOf x.num).length < x.recQuota → s0.members x < s0.share x →
        ∃ t, exec .kvsendReceive s = .next t ∧ t.recs = s.recs ++ [{ r with idx := idx }] ∧
          t.msgs.getLast? = some (.handoffAnswer (rank % 576) 0)))

/-! Serving -/

/-- `ITERATION_BEGIN`, `PLAN_ENTRY_LAUNCH` and `RETIREMENT` (R254, R256, R260, R261) for the one instance of a package: with
nothing to admit and no record an iteration makes an empty batch, launches nothing and waits; with a phase that a halt left,
it goes on there, once there is room for what it may emit (R253; log entry 116); when the grid of a plan entry has completed the next entry is launched, and after the last the batch's
records are retired: KVLEN of a sampled record grows by its tokens, and the step number by one, or a fault of the
Wellhead's own halts the instance. With no instance nothing happens. -/
def Obligations.ServingStepResults : Prop :=
  (∀ (s : State), s.insts = [] → exec .iterationBegin s = .next s ∧ exec .planEntryLaunch s = .next s ∧
    exec .retirement s = .next s) ∧
  (∀ (s : State) (x : Inst), s.insts = [x] → x.status = .running → (∀ y, s.ctx x.ctx = some y → y.phase = .running) →
    x.stops = [] → s.instMoves x = false →
    (∀ ehead, x.phase = .start 1 → x.idle = none → x.freed = [] → s.recs = [] → s.pools = [] → x.batch = [] →
      x.read (x.desc + 0x10) 4 s = (.ok x.ahead, s) → x.read (x.desc + 0x2C) 4 s = (.ok ehead, s) →
      2 * x.maxSeq + 16 ≤ (ehead + x.ecap + 2 ^ 32 - x.etail) % 2 ^ 32 →
      ∃ t, exec .iterationBegin s = .next t ∧ t.insts = [{ x with idle := some (x.ahead, ehead, false) }] ∧
        t.recs = [] ∧ t.grids = s.grids) ∧
    (∀ k room s1, x.phase = .start k → k ≠ 1 → x.room s = (.ok room, s1) →
      (room < 2 * x.maxSeq → exec .iterationBegin s = .next s1) ∧
      (2 * x.maxSeq ≤ room → (k = 3 → exec .iterationBegin s = .next (s1.phase3 x.num (0, 0, true))) ∧
        (k = 4 → exec .iterationBegin s = .next (s1.phase4 x.num)) ∧
        (k = 5 → s1.insts = s.insts → exec .iterationBegin s = .next (s1.launchPlan x 0)))) ∧
    (∀ i n gr, x.phase = .grids i n → s.grid n = some gr → (gr.complete = false ∨ gr.status ≠ .done) →
      exec .planEntryLaunch s = .next s ∧ exec .retirement s = .next s) ∧
    (∀ i n gr, x.phase = .grids i n → s.grid n = some gr → gr.complete = true → gr.status = .done → i + 1 < x.plan.length →
      exec .planEntryLaunch s = .next (State.launchPlan { s with grids := adel s.grids n } x (i + 1))) ∧
    (∀ i n gr e r, x.phase = .grids i n → s.grid n = some gr → gr.complete = true → gr.status = .done →
      i + 1 = x.plan.length → x.batch = [e] → e.counted = false → e.ended = false → (e.sample = true → e.emitted = true) →
      s.recOf x.num e.idx = some r → r.get 1 8 1 = 0 → r.gen ≠ r.maxNew → r.state = 2 →
      ∃ t r' x', exec .retirement s = .next t ∧ t.recOf x.num e.idx = some r' ∧
        r'.kvLen = (r.kvLen + e.len) % 2 ^ 32 ∧ r'.state = 2 ∧ t.inst x.num = some x' ∧
        ((x'.step = x.step + 1 ∧ x'.phase = .start 1 ∧ x'.batch = [] ∧ x'.status = .running) ∨ x'.status = .halted)))

/-! Collectives -/

/-- `COLLECTIVE`, `COLLECTIVE_DATA` and `CO_COMMAND_COMPLETE` (R297 to R300, R357): a command that the CO takes reads its list
of ranks, which is ascending and names this package's, and else ends with REMOTE and the rank; its own elements join the
collective, unless a member is lost. Another member's request is taken, where its packet is received, with no elements yet; its
elements, or its fault, arrive later. With a member that is lost or has failed the command ends with REMOTE and that rank; with every element in it writes the result, and its
number completes. The result of a reduction is the canonical tree's. -/
def Obligations.CollectiveResults : Prop :=
  (∀ (s s1 : State) (tr : TRef) (c : EngCmd), s.newColls = [(tr, c)] → s.pick 2 = (0, s1) →
    exec .collective s = .next (s1.collStart tr c)) ∧
  (∀ (s s1 s2 s3 : State) (h r : List Nat) (ok : Bool), s.newColls = [] → draws 5 s = (h, s1) →
    draws (h.getD 4 0 % 577) s1 = (r, s2) → s2.collPacket 6 (h.getD 0 0 % 576) = (ok, s3) →
    (ok = false → exec .collective s = .next s3) ∧
    (ok = true → ∃ x, exec .collective s = .next { s3 with colls := s3.colls ++ [x] } ∧ x.elems = [] ∧ x.fault = none ∧
      x.rank = h.getD 0 0 % 576 ∧ x.ranks = r.map (· % 2 ^ 32))) ∧
  (∀ (s s1 : State) (tr : TRef) (c : EngCmd) (x r : Nat) (ranks : List Nat),
    s.vread (s.ctxOf (tr.group 0)) (c.w 3) (4 * collRanks c.desc) false = (.ok x, s1) →
    ranks = (List.range (collRanks c.desc)).map (fun i => x / 256 ^ (4 * i) % 2 ^ 32) →
    (firstDescent ranks = some r → s.collStart tr c = s1.collFault tr c ranks .remote r 0) ∧
    (firstDescent ranks = none → (s1.ctl.rank ∉ ranks ∨ s1.ctl.joined = false) →
      s.collStart tr c = s1.collFault tr c ranks .remote s1.ctl.rank 0) ∧
    (∀ q, firstDescent ranks = none → s1.ctl.rank ∈ ranks → s1.ctl.joined = true → ranks.find? (fun r => s1.lost.contains r) = some q →
      s.collStart tr c = s1.collFault tr c ranks .remote q 0 4)) ∧
  (∀ (s : State) (x : CollData), s.colls = [x] →
    (x.rank = s.ctl.rank ∨ x.elems ≠ [] ∨ x.fault ≠ none → exec .collectiveData s = .next s) ∧
    (∀ ok s1, x.rank ≠ s.ctl.rank → x.elems = [] → x.fault = none → s.collPacket 0x85 x.rank = (ok, s1) →
      (ok = false → exec .collectiveData s = .next s1) ∧
      (ok = true → ∃ t y, exec .collectiveData s = .next t ∧ t.colls = [y] ∧
        y.rank = x.rank ∧ y.collid = x.collid ∧ y.ranks = x.ranks ∧
        ((∃ r, r < 576 ∧ y.fault = some r ∧ y.elems = []) ∨ y.fault = none ∧ y.elems.length = collCount x.hdr)))) ∧
  (∀ (s : State) (tr : TRef) (tm : Team) (c : EngCmd) (own : CollData), s.team tr = some tm → tm.cmds = [c] → c.cls = .co →
    c.landed = [0] → s.colls = [own] → own.collid = c.w 5 → own.ctx = s.ctxOf (tr.group 0) → own.rank = s.ctl.rank →
    let step := exec (.coCommandComplete tr.core tr.slot c.num) s
    (∀ r, own.ranks = [s.ctl.rank, r] → r ≠ s.ctl.rank → s.lost.contains s.ctl.rank = false → own.hdr = [c.w 0] →
      own.fault = none →
      (s.lost.contains r = true → step = .next (s.collFault tr c own.ranks .remote r 0 4)) ∧
      (s.lost.contains r = false → step = .next s)) ∧
    (own.ranks = [s.ctl.rank] → s.lost.contains s.ctl.rank = false → own.hdr = [c.w 0] → own.fault = none →
      own.elems.length = collCount c.desc → collOp c.desc = 0 → collWidth c.desc = 4 → ∀ s1,
      collWrite tr c own.ranks own.elems 0 s = (true, s1) → s1.colls = s.colls →
      step = .next (State.engDone { s1 with colls := [] } tr c))) ∧
  (∀ (ty red a b c d e : Nat), let f := collCombine ty red
    tree f 6 [a] = a ∧ tree f 6 [a, b] = f a b ∧ tree f 6 [a, b, c] = f (f a b) c ∧
    tree f 6 [a, b, c, d] = f (f a b) (f c d) ∧ tree f 6 [a, b, c, d, e] = f (f (f a b) (f c d)) e)

/-! The platform -/

/-- Time, samples, power and tests (R157, R212, R311, R333, R339, R340). The clock goes on by sixteen at a rise, and with no
team resident and nothing found every core's logical time by one. The weights as written apply from an interval's end. The
oldest request for power is granted a level of 0 to 3, level 0 where its charge is nothing, and nothing where its group asks no
longer. A core whose period has expired is
due, and once it is empty and no launch has reserved cores its test leaves its L1, its instruction caches and its staging empty,
and retires it where it fails. A sample goes to a resident
group of the context. An exclusive copy returns to its home. -/
def Sys2Proof.PlatformStepResults : Prop :=
  (∀ (s : State), ∃ t, exec .logicalClockRise s = .next t ∧ t.clock = s.clock + 16) ∧
  (∀ (s : State) (c : Nat) (rest : List Nat), s.choices = c :: rest → c % 12 = 0 → s.teams = [] →
    ∃ t, exec .logicalClockRise s = .next t ∧ (∀ n < 384, t.core n = { s.core n with pts := (s.core n).pts + 1 }) ∧
      t.choices = rest ∧ t.mem = s.mem ∧ t.groups = s.groups) ∧
  (∀ (s : State), exec .powerInterval s = .next { s with weightsNow := s.weights }) ∧
  (∀ (s : State), s.powerAsks = [] → exec .powerGrant s = .next s) ∧
  (∀ (s : State) (g : GRef) (gr : Group) (rest : List GRef), s.powerAsks = g :: rest → s.group g = some gr →
    gr.asksPower = false → exec .powerGrant s = .next { s with powerAsks := rest }) ∧
  (∀ (s : State) (g : GRef) (gr : Group) (rest : List GRef), s.powerAsks = g :: rest → s.group g = some gr →
    gr.asksPower = true → ∃ level charge, level ≤ 3 ∧ exec .powerGrant s = .next (State.setGroup { s with powerAsks := rest } g
      { gr with grant := some (level, charge), lastMma := s.clock }) ∧
      (s.weightsNow = [] → level = 0 ∧ charge = 0)) ∧
  (∀ (s : State) (core p : Nat), p = (aget s.testPeriods core).getD 0 →
    (p = 0 ∨ s.clock < (s.core core).testAt + p * 1800000000 ∨ s.reservation ≠ none ∨ (s.core core).inService = false →
      exec (.selfTestDue core) s = .next s) ∧
    (p ≠ 0 → (s.core core).testAt + p * 1800000000 ≤ s.clock → s.reservation = none → (s.core core).inService = true →
      exec (.selfTestDue core) s = .next (s.setCore core { s.core core with testDue := true })) ∧
    ((s.core core).testDue = false ∨ s.coreTeams core ≠ [] ∨ s.reservation ≠ none → exec (.selfTestSlot core) s = .next s) ∧
    (∀ c rest, (s.core core).testDue = true → s.coreTeams core = [] → s.reservation = none → s.upart = [] →
      s.choices = c :: rest → ∃ t,
      exec (.selfTestSlot core) s = .next t ∧ (∀ k ∈ t.l1, k.holder ≠ core) ∧ (∀ k ∈ t.icache, k.core ≠ core) ∧ (t.core core).staging = [] ∧
      (t.core core).testDue = false ∧ (t.core core).testAt = s.clock ∧
      (c % 2 = 0 → (t.core core).inService = (s.core core).inService) ∧ (c % 2 = 1 → (t.core core).inService = false))) ∧
  (∀ (s : State) (core c : Nat), (s.obsPage (c % 4096)).lsPer = 0 → exec (.pcSample core c) s = .next s) ∧
  (∀ (s : State) (core c : Nat) (g : GRef) (gr : Group), (s.obsPage (c % 4096)).lsPer ≠ 0 → g.gid < 32 → g.slot < 16 →
    s.groups.filter (fun p => p.1.core == core && !p.1.isHandler && p.2.status != .exited && s.ctxOf p.1 == c) = [(g, gr)] →
    ∃ t, exec (.pcSample core c) s = .next t ∧
      aget (t.core core).samples c = some (gr.quarter, g.gid * 16 + g.slot) ∧ t.groups = s.groups) ∧
  (∀ (s : State), s.excl.length ≤ 1 → exec .rdcRecallReturn s = .next { s with excl := [] }) ∧
  (∀ (s : State) (c x : Nat) (rest : List Nat), s.choices = c :: x :: rest →
    (c % 3 = 0 → exec .scrub s = .next { s with choices := x :: rest }) ∧
    (c % 3 = 1 → ∃ t, exec .scrub s = .next t ∧ t.mem = s.mem ∧ t.poison = s.poison ∧ t.fatal = s.fatal) ∧
    (c % 3 = 2 → ∃ t, exec .scrub s = .next t ∧ t.poison.contains (x % (memTop / 128)) = true ∧ t.mem = s.mem))

/-- Service and management (R341, R342). A channel that comes through its retraining stays, and one that fails is offline; a
port goes down or comes up; a firmware image is taken only with a signature that verifies and a security version not below
the stored one; monitoring and SPDM requests are answered, the measurements being those of the firmware, the queue programs
and the power tables; boundary scan works only in reset. -/
def Sys2Proof.ServiceResults : Prop :=
  (∀ (s : State) (c d : Nat) (rest : List Nat), s.endpointUp = true → s.choices = c :: d :: rest →
    (d % 2 = 0 → exec .hbmChannelRetrain s = .next { s with choices := rest }) ∧
    (d % 2 = 1 → c ∉ s.chanDown → ∃ t, exec .hbmChannelRetrain s = .next t ∧ t.chanDown = c :: s.chanDown ∧ t.mem = s.mem)) ∧
  (∀ (s : State) (p : Nat) (rest : List Nat), s.endpointUp = true → s.choices = p :: rest →
    (p % 36 ∈ s.portsDown → exec .fabricPortRetrain s =
      .next { s with choices := rest, portsDown := s.portsDown.filter (· != p % 36) }) ∧
    (p % 36 ∉ s.portsDown → exec .fabricPortRetrain s = .next { s with choices := rest, portsDown := p % 36 :: s.portsDown })) ∧
  (∀ (s : State), ∃ t, exec .pldmFirmwareUpdate s = .next t ∧ t.mem = s.mem ∧
    (t.image = s.image ∧ t.secVersion = s.secVersion ∨
      ∃ part v img sig, part < 4 ∧ Config.signatureValid img sig = true ∧ (aget s.secVersion part).getD 0 ≤ v ∧
        t.image = aput s.image part (img, sig) ∧ t.secVersion = aput s.secVersion part v)) ∧
  (∀ (s : State), ∃ t x, exec .pldmMonitoring s = .next t ∧ x.length = 2 ∧
    t.msgs = s.msgs ++ [.reply (x ++ s.banks.map (fun b => b.2.status.toNat))] ∧ t.banks = s.banks ∧ t.mem = s.mem) ∧
  (∀ (s : State) (k : Nat) (rest : List Nat), s.choices = k :: rest →
    (k % 5 = 0 → exec .spdmRequest s = .next { s with choices := rest, msgs := s.msgs ++ [.reply [0x13]] }) ∧
    (k % 5 = 4 → exec .spdmRequest s = .next { s with choices := rest, msgs := s.msgs ++ [.reply s.measurements] }) ∧
    (k % 5 ∈ [1, 2, 3] → ∃ t x, exec .spdmRequest s = .next t ∧ t.msgs = s.msgs ++ [.reply x] ∧ t.mem = s.mem)) ∧
  (∀ (s : State), (s.inReset = false → exec .boundaryScan s = .next s) ∧
    (s.inReset = true → ∃ t x, exec .boundaryScan s = .next t ∧ t.msgs = s.msgs ++ [.reply x] ∧ t.mem = s.mem))

/-- Migration (R171): a page that may move is locked, and stores to it wait, a page of moraine frames where its new place is of
such frames too; the switch, with nothing held and nothing of another context's left at the new place, leaves its bytes at the new place, the
entry rewritten, no cached translation of the old page, and no lock; nothing else of memory changes outside the new page and
the entry. With nothing to move nothing happens. -/
def Obligations.MigrationResults : Prop :=
  (∀ (s : State), s.ctxs = [] → exec .migrationLock s = .next s) ∧
  (∀ (s : State) (id : Nat) (x : Ctx) (va n a e lg old new : Nat) (rest : List Nat), s.ctxs = [(id, x)] →
    s.choices = va :: n :: rest → PlainHomes s → s.sends = [] → s.cores = [] →
    leafAt s.mem (va % 2 ^ 57) walkLevels x.ptRoot = some (a, e, lg) → old = e / 2 ^ 16 % 2 ^ 36 * 2 ^ 16 →
    new = n % (memTop / 2 ^ lg) * 2 ^ lg →
    (e.testBit 6 = true ∨ e.testBit 7 = true ∧ s.allMoraine new (2 ^ lg) = false ∨ s.rangeFree new (2 ^ lg) = false ∨ s.poolUses old (2 ^ lg) = true ∨
      s.locked old = true → exec .migrationLock s = .next { s with choices := rest }) ∧
    (e.testBit 6 = false → (e.testBit 7 = true → s.allMoraine new (2 ^ lg) = true) → s.rangeFree new (2 ^ lg) = true → s.poolUses old (2 ^ lg) = false →
      s.locked old = false → ∃ t, exec .migrationLock s = .next t ∧
        t.migrations = s.migrations ++ [⟨old, new, 2 ^ lg, id, va % 2 ^ 57⟩] ∧ t.mem = s.mem ∧
        (∀ b, old ≤ b → b < old + 2 ^ lg → t.locked b = true))) ∧
  (∀ (s : State), s.migrations = [] → exec .migrationSwitch s = .next s) ∧
  (∀ (s : State) (m : Migration) (rest : List Migration) (x : Ctx) (a e lg : Nat), s.migrations = m :: rest →
    s.holds = [] → s.leftBy (some m.ctx) m.new m.bytes = [] → s.mem.wf = true → s.ctx m.ctx = some x →
    leafAt (splice s.mem m.new m.bytes m.old s.mem) m.va walkLevels x.ptRoot = some (a, e, lg) →
    e / 2 ^ 16 % 2 ^ 36 * 2 ^ 16 = m.old → m.new < 2 ^ 52 → m.new % 2 ^ 16 = 0 →
    (a + 8 ≤ m.new ∨ m.new + m.bytes ≤ a) →
    ∃ t, exec .migrationSwitch s = .next t ∧ t.migrations = rest.filter (· != m) ∧
      (∀ b < m.bytes, sget t.mem (m.new + b) = sget s.mem (m.old + b)) ∧ sgetLE t.mem a 8 = e % 2 ^ 16 + m.new ∧
      (∀ b, (b < m.new ∨ m.new + m.bytes ≤ b) → (b < a ∨ a + 8 ≤ b) → sget t.mem b = sget s.mem b) ∧
      ∀ k ∈ t.tlb, k.pte.toNat / 2 ^ 16 % 2 ^ 36 * 2 ^ 16 + 2 ^ k.lg ≤ m.old ∨
        m.old + m.bytes ≤ k.pte.toNat / 2 ^ 16 % 2 ^ 36 * 2 ^ 16)

/-- `UNDEFINED_ENCODING` (R113): a word that no table assigns takes ILLEGAL in its stream. `FIRN_BUILD` (R234, R244): the build
queued first ends with its entry VALID or REJECTED under the same key, and REJECTED where the kernel's record cannot be
read; with no build queued nothing happens. -/
def Obligations.UndefinedAndBuildResults : Prop :=
  (∀ (s : State) (g : GRef), (s.cur = some (.scalar g) → exec .undefinedEncoding s = .next (s.trapS g .illegal 0 0)) ∧
    (s.cur = some (.lane g) → exec .undefinedEncoding s = .next (s.trapL g .illegal 0 0 0))) ∧
  (∀ (s : State), s.builds = [] → exec .firnBuild s = .next s) ∧
  (∀ (s s1 : State) (e : FirnEntry) (rest : List Nat), s.builds = e.id :: rest → s.firn = [e] → e.state = .building →
    (∃ t e', exec .firnBuild s = .next t ∧ t.firn = [e'] ∧ e.id ∉ t.builds ∧ e'.id = e.id ∧ e'.key = e.key ∧
      (e'.state = .valid ∨ e'.state = .rejected)) ∧
    (∀ m, s.readRecord e.ctx e.krec.toNat = (.error m, s1) → ∃ t, exec .firnBuild s = .next t ∧
      t.firn = [{ e with state := .rejected }]))

/-! The fabric -/

/-- A request of an opcode arrives: what of it is received (R287, R288, R291), and the state then. -/
def Sys2Proof.RequestArrives (s : State) (opc : Nat) (q : FabReq) (p : Option FabPkt) (s1 : State) : Prop :=
  ∃ s0, s.settleHeld.drawReq opc = (q, s0) ∧ s0.linkArrival q.pkt = (p, s1)

/-- A request that is received is the next of its source, and is not one that has been performed or is in progress (R293). -/
def Sys2Proof.ItsTurn (s1 : State) (q : FabReq) : Prop :=
  s1.ctl.joined = true ∧ s1.lost.contains q.pkt.src = false ∧ s1.keptFor q.pkt = none ∧ s1.inProgress q.pkt = false ∧
    (aget s1.fabIn (q.pkt.src * 2 + q.die)).getD 0 = q.pkt.seq

/-- The request has been answered: its reply goes out with its tag, generations and SEQ, and n bytes of data, up to 8 of them in
OPND; it is kept for retries, and the next request of its source is awaited. -/
def Sys2Proof.Answered (s1 t : State) (q : FabReq) (opc status n data : Nat) : Prop :=
  ∃ p, t.fabOut = s1.fabOut ++ [p] ∧ p.opc = opc ∧ p.dst = q.pkt.src ∧ p.tag = q.pkt.tag ∧ p.gen = q.pkt.gen ∧
    p.ogen = q.pkt.ogen ∧ p.seq = q.pkt.seq ∧ p.status = status ∧ (n ≤ 8 → p.opnd = data % 256 ^ n ∧ p.data = []) ∧
    (8 < n → p.data = dataWords n data) ∧
    (∃ k ∈ t.kept, k.src = q.pkt.src ∧ k.tag = q.pkt.tag ∧ k.ogen = q.pkt.ogen ∧ k.reply = p ∧
      k.expiry = s1.clock + (s1.ctl.fretry + 1) * s1.fto) ∧
    (aget t.fabIn (q.pkt.src * 2 + q.die)).getD 0 = (q.pkt.seq + 1) % 2 ^ 32

/-- Requests of other packages (R285, R289, R290, R293, R294): through the window of the context named, a read answers with the
line that holds the bytes, a write leaves its bytes, an atomic leaves the operation's result and answers the old value, or with
no return nothing; no other byte of memory changes. A window that refuses the access answers its status alone; what writes to a
locked page is held. A retry of a request that has been performed gets the kept reply and performs nothing; a request that is
in progress, out of its turn, or from a lost package, and a packet that is discarded, does nothing. -/
def Obligations.FabricRequestResults : Prop :=
  (∀ (s s1 : State) (opc : Nat) (q0 : FabReq) (p : Option FabPkt) (i : Instr) (rep : Nat),
    (opc, i, rep) ∈ [(1, Instr.fabricRead, 0x81), (2, .fabricWrite, 0x82), (3, .fabricAtomic, 0x83),
      (4, .fabricAtomicNoReturn, 0x82)] → RequestArrives s opc q0 p s1 → NoObjectWaits s1 → PlainHomes s1 →
    (p = none → exec i s = .next s1) ∧
    (∀ q, q.die = q0.die → q.bytes = q0.bytes → q.op = q0.op → p = some q.pkt →
      ((s1.ctl.joined = false ∨ s1.lost.contains q.pkt.src = true) → exec i s = .next s1) ∧
      (∀ k, s1.ctl.joined = true → s1.lost.contains q.pkt.src = false → s1.keptFor q.pkt = some k →
        exec i s = .next { s1 with fabOut := s1.fabOut ++ [{ k.reply with gen := q.pkt.gen }] }) ∧
      (s1.keptFor q.pkt = none →
        (s1.inProgress q.pkt = true ∨ (aget s1.fabIn (q.pkt.src * 2 + q.die)).getD 0 ≠ q.pkt.seq) → exec i s = .next s1) ∧
      (ItsTurn s1 q → ∀ st xl s2,
        s1.window q.pkt.ctx q.pkt.offset q.bytes (q.pkt.opc != 2) (q.pkt.opc != 1) = ((st, xl), s2) →
        s2.fabOut = s1.fabOut → s2.clock = s1.clock → s2.ctl = s1.ctl → s2.fto = s1.fto → s2.mem = s1.mem →
        PlainHomes s2 → NoObjectWaits s2 →
        (xl = none → ∃ t, exec i s = .next t ∧ Answered s1 t q rep st 0 0 ∧ t.mem = s1.mem) ∧
        (∀ x, xl = some x → x.host = false → s2.unbuilt x.pa = false → s2.locked x.pa = true → opc ≠ 1 →
          exec i s = .next (s2.hold q.held)) ∧
        (∀ x, xl = some x → x.host = false → s2.unbuilt x.pa = false → s2.locked x.pa = false → x.mor = false →
          ∃ t, exec i s = .next t ∧ (∀ a, (opc = 1 ∨ a < x.pa ∨ x.pa + q.bytes ≤ a) → sget t.mem a = sget s1.mem a) ∧
            (opc = 1 → Answered s1 t q rep 0 128 (sgetLE s1.mem (x.pa / 128 * 128) 128)) ∧
            (opc = 2 → Answered s1 t q rep 0 0 0 ∧ sgetLE t.mem x.pa q.bytes = q.pkt.value % 256 ^ q.bytes) ∧
            (3 ≤ opc → Answered s1 t q rep 0 (if opc = 3 then q.bytes else 0) (sgetLE s1.mem x.pa q.bytes) ∧
              sgetLE t.mem x.pa q.bytes = q.op.apply (if q.bytes = 8 then .w64 else .w32) (sgetLE s1.mem x.pa q.bytes)
                q.pkt.opnd q.pkt.cmp % 256 ^ q.bytes))))) ∧
  (∀ (s s1 : State) (q0 q : FabReq), RequestArrives s 5 q0 (some q.pkt) s1 → q.die = q0.die → q.bytes = q0.bytes → q.op = q0.op →
    ItsTurn s1 q → NoObjectWaits s1 → q.pkt.offset + q.bytes ≤ memTop →
    ∃ t, exec .delta s = .next t ∧ Answered s1 t q 0x84 0 0 0 ∧
      sgetLE t.mem q.pkt.offset q.bytes = (sgetLE s1.mem q.pkt.offset q.bytes ^^^ q.pkt.value) % 256 ^ q.bytes ∧
      ∀ a, a < q.pkt.offset ∨ q.pkt.offset + q.bytes ≤ a → sget t.mem a = sget s1.mem a) ∧
  (∀ (s : State), exec .replyCacheExpiry s = .next { s with kept := s.kept.filter (fun k => decide (s.clock < k.expiry)) })

/-- Replies and retries (R288, R290, R292, R294): of a request that waits, a good reply delivers a load's value to its
register, or counts a store as done, and frees the tag; a reply under another tag or an old generation is counted and dropped;
one with a status ends the request in a fault. A request without a reply within FTO goes out again with RTY and the next
generation until its retries have run out. -/
def Obligations.FabricReplyResults : Prop :=
  (∀ (s : State) (i : Instr) (opcs : List Nat),
    (i, opcs) ∈ [(Instr.readReply, [1]), (.atomicReply, [3]), (.acknowledgement, [2, 4]), (.deltaAcknowledgement, [5])] →
    (s.fabTags.filter (fun t => t.busy && opcs.contains t.pkt.opc) = [] → exec i s = .next s) ∧
    (∀ f p s0 a s1, s.fabTags.filter (fun t => t.busy && opcs.contains t.pkt.opc) = [f] → s.drawReply f = (p, s0) →
      s0.linkArrival p = (a, s1) →
      (a = none → exec i s = .next s1) ∧
      (∀ q, a = some q → q.tag ≠ f.tag ∨ q.gen ≠ f.gen → exec i s = .next (s1.portError (f.tag % 36))) ∧
      (∀ q, a = some q → q.tag = f.tag → q.gen = f.gen →
        (q.status ≠ 0 → exec i s = .next (s1.requestFails f)) ∧
        (q.status = 0 → f.why = .delta f.die → s1.deltas.length = 1 → (∀ d ∈ s1.deltas, f.carries d = true) →
          ∃ t, exec i s = .next t ∧ t.deltas = [] ∧ t.mem = s1.mem) ∧
        (∀ g gr o u, q.status = 0 → f.why = .lane g → f.pkt.opc ≠ 4 → s1.group g = some gr → gr.out = [o] →
          o.sent = some f.tag → o.units = [u] → u.isHost = false → NoObjectWaits s1 →
          (∀ r, u.kind ≠ .load true → u.bytes = 4 → u.dst = [some r] → ∃ t gr', exec i s = .next t ∧ t.group g = some gr' ∧
            sget gr'.v (vkey r u.phys) = BitVec.ofNat 32 (q.good f).x ∧
            (∀ k, k ≠ vkey r u.phys → sget gr'.v k = sget gr.v k) ∧
            gr'.out = [] ∧ (∀ x ∈ t.fabTags, x.die = f.die → x.tag = f.tag → x.busy = false) ∧ t.mem = s1.mem) ∧
          (u.dst = [] → ∃ t, exec i s = .next t ∧ t.group g = some { gr with out := [] } ∧
            (∀ x ∈ t.fabTags, x.die = f.die → x.tag = f.tag → x.busy = false) ∧ t.mem = s1.mem))))) ∧
  (∀ (s : State) (f : FabTag), s.deltas = [] →
    (s.fabTags.filter (fun t => t.busy && decide (t.sentAt + s.fto ≤ s.clock)) = [] → exec .fabricTimeout s = .next s) ∧
    (s.fabTags = [f] → f.busy = true → f.sentAt + s.fto ≤ s.clock →
      (f.retries < s.ctl.fretry → ∃ f', exec .fabricTimeout s = .next { s with fabTags := [f'], fabOut := s.fabOut ++ [f'.pkt] } ∧
        f'.gen = (f.gen + 1) % 16 ∧ f'.ogen = f.ogen ∧ f'.pkt = { f.pkt with gen := f'.gen, rty := true } ∧
        f'.retries = f.retries + 1 ∧ f'.sentAt = s.clock ∧ f'.busy = true) ∧
      (s.ctl.fretry ≤ f.retries → exec .fabricTimeout s = .next (s.requestFails f).pushDeltas)))

/-- Recalls, loss, rebuild and resync (R159, R301 to R304): a recall that arrives whole returns what a die has gathered of the
line, and the die is no holder; the reply of a lost holder brings nothing. A package that is lost has no request, delta, partial or holder left
here. A rebuild joins a spare under the lost rank, and lets the rank answer again elsewhere; a survivor releases a frame
once no delta of it is pending, and a spare with no frame left is done. A member's frame is P less the other members. A
resync writes at most one whole frame. -/
def Obligations.LossAndRebuildResults : Prop :=
  (∀ (s : State), (s.accepted = [] → exec .recall s = .next s) ∧ (s.remoteHolders = [] → exec .recallReply s = .next s)) ∧
  (∀ (s s0 : State) (h : RemoteHolder) (b : Bool), s.accepted = [h] → s.control h.rank = (b, s0) →
    (b = false ∨ s0.ctl.joined = false → exec .recall s = .next s0) ∧
    (b = true → s0.ctl.joined = true → ∃ t ps, exec .recall s = .next t ∧ t.accepted = [] ∧ t.fabOut = s0.fabOut ++ ps ∧ ps ≠ [] ∧
      (∀ p ∈ ps, p.opc = 0x86 ∧ p.dst = h.rank ∧ p.offset = h.line * 128) ∧
      (∀ u ∈ t.upart, ¬ (u.rank = some h.rank ∧ u.line = h.line ∧ u.holder = .rdc h.die)) ∧ t.mem = s0.mem)) ∧
  (∀ (s s0 : State) (h : RemoteHolder) (b : Bool), s.remoteHolders = [h] → s.control h.rank = (b, s0) → NoObjectWaits s0 →
    (b = false → exec .recallReply s = .next s0) ∧
    (b = true → s0.lost.contains h.rank = true →
      ∃ t, exec .recallReply s = .next t ∧ t.remoteHolders = [] ∧ t.mem = s0.mem)) ∧
  (∀ (s s0 : State), s.control 0 = (false, s0) → exec .lost s = .next s0.draw.2 ∧
    exec .rebuild s = .next s0.draw.2 ∧ exec .resync s = .next s0) ∧
  (∀ (s s0 s1 : State) (r : Nat), s.control 0 = (true, s0) → s0.draw = (r, s1) → s.ctl.joined = true →
    r % 576 ≠ s.ctl.rank → ∃ t, exec .lost s = .next t ∧ t.lost.contains (r % 576) = true ∧
      (∀ f ∈ t.fabTags, f.pkt.dst = r % 576 → f.busy = false) ∧ (∀ d ∈ t.deltas, d.holder ≠ r % 576) ∧
      (∀ u ∈ t.upart, u.rank ≠ some (r % 576)) ∧ (∀ h ∈ t.accepted ++ t.remoteHolders, h.rank ≠ r % 576)) ∧
  (∀ (s s0 s1 : State) (r : Nat), s.control 0 = (true, s0) → s0.draw = (r, s1) →
    (s1.ctl.joined = false → ∃ t b, exec .rebuild s = .next t ∧ t.ctl = { s1.ctl with rank := r % 576, joined := true } ∧
      t.rebuilds = s1.rebuilds ++ [b] ∧ b.lost = r % 576 ∧ b.spare = r % 576 ∧ t.lost.contains (r % 576) = false ∧
      t.mem = s1.mem) ∧
    (s1.ctl.joined = true → s1.lost.contains (r % 576) = true → ∃ t, exec .rebuild s = .next t ∧
      t.lost.contains (r % 576) = false ∧ t.unreachable.contains (r % 576) = true ∧
      t.rebuilds = s1.rebuilds ++ [⟨r % 576, 576, []⟩] ∧ t.mem = s1.mem) ∧
    (s1.ctl.joined = true → s1.lost.contains (r % 576) = false → exec .rebuild s = .next s1)) ∧
  (∀ (s : State), s.rebuilds = [] → exec .rebuildFrame s = .next s) ∧
  (∀ (s : State) (b : Rebuild) (f : Nat) (fs : List Nat), s.rebuilds = [b] → b.spare ≠ s.ctl.rank → b.frames = f :: fs →
    s.deltas = [] → s.holds = [] → NoObjectWaits s → exec .rebuildFrame s = .next { s with rebuilds := [{ b with frames := [] }] }) ∧
  (∀ (s : State) (b : Rebuild) (c : Nat) (rest : List Nat), s.rebuilds = [b] → b.spare = s.ctl.rank → b.frames = [] →
    s.choices = c :: rest → c % 2 = 0 → exec .rebuildFrame s = .next { s with choices := rest, rebuilds := [] }) ∧
  (∀ (i k q d : Nat) (others : List (Nat × Nat)), rebuildFrame 0 i k (d ^^^ pSum others) q others = d) ∧
  (∀ (s s0 : State), s.control 0 = (true, s0) → s.ctl.joined = true → s0.unreachable = [] → PlainHomes s0 → NothingLocked s0 →
    ∃ t pa, exec .resync s = .next t ∧ pa % 65536 = 0 ∧
      ∀ a, a < pa ∨ pa + 65536 ≤ a → sget t.mem a = sget s0.mem a)

/-- Every step keeps every memory in its canonical form: device memory, host memory, and the scratch and tags of every
team (R154, R172). The canonical form is the model's own (log entry 4). -/
def Obligations.MemoriesStayCanonical : Prop :=
  ∀ s t, s.memoriesWf = true → step s = .next t → t.memoriesWf = true

/-! Every form completes: on which states and operands each form has its own effect -/

/-- The words that give commands to engines, and those of the request records (R182, R262, R438): with a descriptor that can be
read and passes its checks, and fewer than 32 commands of its class, each engine word issues its command, whose number goes to
sB; each record word of a group of the sampling grid, for a record of its batch, reads, writes or emits. -/
def Sys2Proof.EngineFormsComplete : Prop :=
  ∀ (s : State) (g : GRef) (gr : Group) (bt : Bt) (a b : SReg) (va : Nat), ScalarAt s g gr → va = (gr.sreg a).toNat →
    (∀ (i : Instr) (cls : EngCls) (op : EngOp) (n : Nat) (wr : Bool) (w : List Nat) (tm : Team), (i, cls, op, n, wr) ∈
        [(Instr.cpy bt a b, .ce, .cpy, 64, false), (.gath bt a b, .ce, .gath, 64, false), (.coll bt a b, .co, .coll, 64, false),
         (.kvalloc bt a b, .kv, .kvalloc, 32, true), (.kvref bt a b, .kv, .kvref, 32, true),
         (.kvunref bt a b, .kv, .kvunref, 32, true), (.kvcow bt a b, .kv, .kvcow, 32, true),
         (.kvtierCi bt a b, .kv, .kvtierCi, 32, true), (.kvtierAq bt a b, .kv, .kvtierAq, 32, true),
         (.kvsend bt a b, .kv, .kvsend, 32, true)] →
      let d := s.readDesc (s.ctxOf g) va n wr
      let c := engineChecks op g va w d.2
      d.1 = .ok w → c.1 = none → c.2.team g.team = some tm → c.2.group g = some gr →
      (tm.cmds.filter (fun x => x.cls == cls)).length < 32 →
      ∃ t tm', exec i s = .next t ∧ t.team g.team = some tm' ∧
        (∃ x ∈ tm'.cmds, x.num = tm.issuedOf cls + 1 ∧ x.cls = cls ∧ x.op = op ∧ x.desc = w) ∧
        t.group g = some ((gr.setS b (BitVec.ofNat 64 (tm.issuedOf cls + 1))).atS (nextSPc gr.spc 1) false)) ∧
    (∀ (word : Fin 32) (x : Inst) (e : BEntry) (r : Rec), va < 2 ^ 14 → s.sampler (s.teamRefOf g) = some x →
      x.batch.find? (fun e => e.idx == va) = some e → s.recOf x.num va = some r →
      exec (.rqget bt word a b) s = .next ((s.acquire g.core).scalarDone g (gr.setS b (sget r.words word.val)) 1) ∧
      (word.val ∈ [10, 11, 12, 13, 14, 16, 17, 18, 19, 20, 21, 22, 23] → ∃ t r', exec (.rqset bt word a b) s = .next t ∧
        t.recOf x.num va = some r' ∧ sget r'.words word.val = gr.sreg b) ∧
      ((gr.sreg b).toNat < 2 ^ 33 → e.sample = true → e.emitted = false →
        let v := (gr.sreg b).toNat
        let gen := (r.gen + 1) % 2 ^ 32
        let s1 := ((s.acquire g.core).onRec x.num va (fun r =>
          ((r.put 8 0 32 v).put 3 32 32 gen).put 1 8 1 (if v.testBit 32 then 1 else 0))).onInst x.num (fun x =>
            { x with batch := x.batch.map (fun b => if b.idx = va then { b with emitted := true } else b) })
        let m := x.emit (r.get 0 0 64) 0 r.gen v (v.testBit 32 || gen == r.maxNew) s1
        m.1 = .ok () → exec (.rqemit bt a b) s = .next (m.2.scalarNext g)))

/-- The words of barriers and rings on objects in scratch (R222 to R228): where nothing is broken and nothing has to be waited
for, each changes its object. -/
def Sys2Proof.ObjectFormsComplete : Prop :=
  ∀ (s : State) (g : GRef) (gr : Group) (bt : Bt) (a b : SReg) (tr : TRef) (tm : Team) (off n : Nat), ScalarAt s g gr →
    s.team tr = some tm → n = (gr.sreg b).toNat → NoObjectWaits s → NoWrap s g.core 0x02 1 →
    let ran (i : Instr) (off n : Nat) := ∃ t gr', exec i s = .next t ∧ t.group g = some gr' ∧ gr'.spc = nextSPc gr.spc 1 ∧
      gr'.waitS = none ∧ ScratchChanged s t tr tm off n
    (∀ exp arr pend ph, s.objPlace g (gr.sreg a) 16 false (!gr.skipS.wp) = (.ok (.scratch tr off), s) → gr.obj = [] →
      barOf (sgetLE tm.scratch off 16) = (exp, arr, ph, false, pend) →
      (1 ≤ n → n ≤ 65535 → ran (.barinit bt a b) off 16) ∧ ran (.bararr bt a) off 16 ∧ ran (.bararrDrop bt a) off 16 ∧
      (n < 2 ^ 48 → ran (.barxpct bt a b) off 16)) ∧
    (∀ exp arr pend ph own, s.objPlace g (gr.sreg a) 16 false (!gr.skipS.wp) = (.ok (.scratch tr off), s) →
      barOf (sgetLE tm.scratch off 16) = (exp, arr, ph, false, pend) → gr.obj = [⟨gr.sreg a, false, own⟩] → own ≠ ph →
      exec (.barwait bt a b) s = .next ((s.meetCores g.core tr.core).scalarDone g
        ((gr.setS b (if ph then 1 else 0)).setC 0 false) 1)) ∧
    (∀ m tk k lap, s.objPlace g (gr.sreg a) 16 true = (.ok (.scratch tr off), s) →
      s.objPlace g (gr.sreg a) (16 + 4 * m) true = (.ok (.scratch tr off), s) → off % 16 = 0 →
      m ∈ [1, 2, 4, 8, 16, 32, 64] → k = tk % m → lap = tk / m % 2 →
      (n = m → ran (.ringinit bt a b) off (16 + 4 * m)) ∧
      (sgetLE tm.scratch off 4 = m → (sgetLE tm.scratch (off + 4) 4).testBit 1 = false →
        (gr.ticket = none → gr.obj = [] → sgetLE tm.scratch (off + 16 + 4 * k) 4 % 2 = lap →
          (sgetLE tm.scratch (off + 8) 4 = tk → tm.tag (off + 16 + 4 * k) = false → ran (.ringacqP bt a b) (off + 8) 4) ∧
          (sgetLE tm.scratch (off + 12) 4 = tk → tm.tag (off + 16 + 4 * k) = true → ran (.ringacqC bt a b) (off + 12) 4)) ∧
        (n = tk → tk < 2 ^ 32 → ran (.ringrelP bt a b) (off + 16 + 4 * k) 4 ∧ ran (.ringrelC bt a b) (off + 16 + 4 * k) 4)))

/-- The other words of the scalar stream from `SPAWN` on, and those of a handler: a launch that is entered and need not wait for
a specialisation, a child grid that has ended, blocks that have ended, a target with its marks, and nothing outstanding for a
fence. -/
def Sys2Proof.ScalarFormsComplete : Prop :=
  (∀ (s : State) (g : GRef) (gr : Group) (bt : Bt) (a b : SReg) (code : Fin 64), ScalarAt s g gr →
    exec (.snop bt) s = .next (s.scalarDone g gr 1) ∧ exec (.yield bt) s = .next (s.scalarDone g gr 1) ∧
    ((gr.sreg a).toNat < 3 → gr.role ≠ .matrix → exec (.pwrq bt a b) s = .next (s.scalarDone g (gr.setS b 0) 1)) ∧
    (gr.enq ≤ gr.ended → exec (.lsync bt) s = .next (s.scalarDone g
      { gr with yS := gr.yL, gfS := gr.gfL, exmS := gr.exmL, mxSeen := gr.mxEnded, syncId := gr.nextId } 1)) ∧
    (∀ r, r = s.checkTarget (s.ctxOf g) false false (gr.sreg a).toNat → r.1 = .good →
      exec (.sret bt a) s = .next (r.2.scalarJump g gr (gr.sreg a) false)) ∧
    (gr.skipS.nop = false →
      let caused (c : Cause) (n : Nat) : Trap := Trap.mk c (BitVec.ofNat 32 n) false false 0 0 0
      exec (.trap bt code) s = .next (s.takeTrap g (caused .trapInsn code.val)) ∧
      exec (.brkpt bt) s = .next ((s.traceGroup g 5 8 0 (s.origWord (s.ctxOf g) false gr.spc)).takeTrap g (caused .breakpoint 0)))) ∧
  (∀ (s : State) (g : GRef) (gr : Group) (bt : Bt) (a b : SReg) (tm : Team), ScalarAt s g gr → g.isHandler = false →
    s.team g.team = some tm →
    (tm.region gr.role = none → gr.enq ≤ gr.ended → gr.eng = [] → gr.out = [] → gr.obj = [] → NoWrap s g.core 0x02 1 →
      ∃ t, exec (.exit bt) s = .next t ∧
        t.group g = some { gr with status := .exited, grant := none, waitS := none, waitL := none }) ∧
    (gr.enq ≤ gr.ended → gr.out = [] → gr.waitS = none → (∀ u ∈ s.upart, g ∉ u.owners) →
      (∀ f ∈ s.fabTags, f.busy = true → f.why ≠ .lane g ∧ ∀ os, f.why = .partial_ os → g ∉ os) →
      exec (.fence bt) s = .next (s.scalarDone g gr 1) ∧ exec (.fenceSys bt) s = .next (s.scalarDone g gr 1) ∧
      (tm.issuedCe ≤ tm.doneCe → tm.issuedKv ≤ tm.doneKv → tm.issuedCo ≤ tm.doneCo → gr.mxIssued ≤ gr.mxDone →
        s.deltas = [] → (s.core g.core).staging = [] → s.sends = [] → gr.survDeg = false → tm.survBad = [] →
        gr.morFrames = [] → tm.mor = [] →
        exec (.fenceSurv bt) s = .next (s.scalarDone g ({ gr with mxFence := gr.mxIssued }.setC 0 false) 1))) ∧
    (∀ c n x, tm.children.find? (fun k => k.handle == gr.sreg a) = some c → c.grid = some n → s.grid n = some x →
      x.complete = true → x.status = .done →
      exec (.join bt a b) s = .next (((s.acquire g.core).scalarDone g (gr.setS b 0) 1).onTeam g.team
        (fun t => { t with children := t.children.map (fun k =>
          if k.handle = gr.sreg a then { k with joined := true } else k) }))) ∧
    (∀ (body n : Nat) (info : LaunchBy) (tm2 : Team) (gr3 : Group) (x : Grid), s.liveChildren tm < 16 → tm.depth < 4 →
      (gr.sreg a).toNat % 8 = 0 →
      let d := s.vread tm.ctx (gr.sreg a).toNat 128 false
      info = { ctx := tm.ctx, level := ((d.2.grid tm.grid).map (·.level)).getD 0, issuer := .spawn tm.grid tm.teamId,
               depth := tm.depth + 1, inst := (d.2.grid tm.grid).bind (·.inst), seqBase := 0, step := 0 } →
      let e := d.2.enterLaunch info body
      let h := handleOf n e.2.draw.1
      let s3 := (e.2.draw.2.setTeam g.team { tm2 with children := tm2.children ++ [⟨h, some n, false⟩] }).testDependence n
      d.1 = .ok body → e.1 = .grid n → e.2.team g.team = some tm2 → s3.group g = some gr3 → s3.grid n = some x →
      x.phase ≠ .specialise → exec (.spawn bt a b) s = .next (s3.scalarDone g (gr3.setS b h) 1))) ∧
  (∀ (s : State) (g : GRef) (gr : Group) (act : Activation) (tr : TRef) (tm : Team) (a b : SReg) (tgr : GRef) (tg : Group)
    (idx : Nat), HandlerAt s g gr act tr tm a tgr tg → act.slot < 16 → tgr.gid < 32 → act.gid < 32 → tg.status = .trapped →
    (gr.sreg a).toNat / 2 ^ 31 = 0 → idx = (gr.sreg a).toNat / 2 ^ 12 % 4096 →
    ((gr.sreg a).toNat / 2 ^ 8 % 16 = 0 → 0 < idx → idx < 64 →
      exec (.hread a b) s = .next (s.scalarDone g (gr.setS b (sget tg.s idx)) 1) ∧
      exec (.hwrite a b) s = .next ((s.setGroup tgr { tg with s := sset tg.s idx (gr.sreg b) }).scalarDone g gr 1)) ∧
    (∃ t tg', exec (.hresume a) s = .next t ∧ t.group tgr = some tg' ∧ tg'.status = .active ∧ tg'.trap = none) ∧
    (tg.caused = none → exec (.hkill a) s = .next ((s.scalarNext g).killGroup tgr)) ∧
    (∀ cause, tg.caused = some cause → exec (.hkill a) s = .next ((s.scalarNext g).faultTeam tr cause)) ∧
    (gr.out = [] → (∀ u ∈ s.upart, g ∉ u.owners) →
      (∀ pgr, s.group (tr.group act.gid) = some pgr → pgr.status ≠ .exited → ∃ t, exec .eret s = .next t ∧
        (t.core g.core).act = none ∧ t.group g = none) ∧
      (∃ t, exec .hpark s = .next t ∧ (t.core g.core).act = none)))

/-- A lane word of some source selectors has run: its stream stands at the next word, untrapped. -/
def Sys2Proof.LaneRan (s : State) (g : GRef) (gr : Group) (i : Instr) (sels : List Sel) : Prop :=
  ∃ t gr', exec i s = .next t ∧ t.group g = some gr' ∧ gr'.lpc = nextLPc gr.lpc (laneSlots sels) ∧ gr'.waitL = none ∧
    gr'.status = gr.status ∧ gr'.trap = gr.trap

/-- The lane words with results in registers, predicates or masks: each runs on all states and operands. -/
def Sys2Proof.LaneFormsComplete : Prop :=
  ∀ (s : State) (g : GRef) (gr : Group) (h : LaneHdr) (t u : LType) (st : SetpTy) (ft : FTy) (cond : ICond) (fc : FCond)
    (mode : ShflMode) (vm : VoteMode) (op : RedOp) (y : YReg) (mask : BitVec 10) (pos : BfPos) (q : PSel) (p : PReg) (i8 : Fin 8)
    (g1 g2 : Fin 8) (x z : Bool) (d v : VReg) (a b c e : Sel) (off : W16), LaneAt s g gr →
    ∀ r ∈ [(Instr.iadd h t x d a b, [a, b]), (.isub h t x d a b, [a, b]), (.imul h t x d a b, [a, b]),
        (.imad h t x d a b c, [a, b, c]), (.imin h t d a b, [a, b]), (.imax h t d a b, [a, b]), (.iabs h t x d a, [a]),
        (.ineg h t x d a, [a]), (.shl h t x d a b, [a, b]), (.shr h t x d a b, [a, b]), (.sar h t x d a b, [a, b])] ++
      [(.and h t d a b, [a, b]), (.or h t d a b, [a, b]), (.xor h t d a b, [a, b]), (.logic h t g1 g2 x z d a b c, [a, b, c]),
        (.popc h t d a, [a]), (.clz h t d a, [a]), (.brev h t d a, [a]), (.bfe h t pos d a, a :: pos.sels.map (·.1)),
        (.bfi h pos d a c, a :: c :: pos.sels.map (·.1)), (.prmt h d a b c, [a, b, c]), (.isetp h st cond p a b, [a, b]),
        (.sel h t q d a b, [a, b]), (.idot4 h t x d a b c, [a, b, c])] ++
      [(.fadd h d a b, [a, b]), (.fmul h d a b, [a, b]), (.ffma h d a b c, [a, b, c]), (.fmin h x d a b, [a, b]),
        (.fmax h x d a b, [a, b]), (.fsetp h ft fc p a b, [a, b]), (.fclass h ft mask p a, [a]), (.frnd h ft x d a, [a]),
        (.hadd2 h ft d a b, [a, b]), (.hmul2 h ft d a b, [a, b]), (.hfma2 h ft d a b c, [a, b, c]), (.cvt h t u d a, [a]),
        (.pack h t d a b c e, [a, b, c, e]), (.unpk h t i8 d a, [a])] ++
      [(.rcp h d a, [a]), (.rsq h d a, [a]), (.sqrt h d a, [a]), (.ex2 h d a, [a]), (.lg2 h d a, [a]), (.sin h d a, [a]),
        (.cos h d a, [a]), (.tanh h d a, [a]), (.mov h t d a, [a])] ++
      [(.shfl h t mode d v b, [b]), (.bcast h t d v b, [b]), (.getl h d, []), (.vote h vm q d, []), (.matchLanes h t x d a, [a]),
        (.redux h t op y x d a, [a]), (.scan h t op x d a, [a]), (.gsort h t x d a b, [a, b]), (.elect h p, []),
        (.exmget h d, []), (.exmset h a, [a]), (.lnop h, []), (.pref h x a b off, [a, b]), (.rand h d a b, [a, b])],
      LaneRan s g gr r.1 r.2

/-- A lane transfer to a target that has its marks arrives there. -/
def Sys2Proof.LaneArrives (s : State) (g : GRef) (gr : Group) (pc : W64) (call : Bool) (i : Instr) (s0 : State) : Prop :=
  (s.checkTarget (s.ctxOf g) true call pc.toNat).1 = .good → ∃ t gr', exec i s0 = .next t ∧ t.group g = some gr' ∧ gr'.lpc = pc ∧
    gr'.stack = gr.stack ∧ gr'.exmL = gr.exmL ∧ gr'.waitL = none ∧ gr'.status = gr.status

/-- The words that move the lane stream (R402 to R404, R407 to R412, R434), with room on the stack: a branch, a call, a join of
lanes that have all arrived, a return to an entry that is a call's, the end of a block with nothing left, and the gathering of a
role's only group. -/
def Sys2Proof.LaneControlFormsComplete : Prop :=
  ∀ (s : State) (g : GRef) (gr : Group) (h : LaneHdr) (td : BitVec 12) (ts : Fin 16) (jd : BitVec 14) (js : Fin 16)
    (e : StackEntry) (rest : List StackEntry), LaneAt s g gr →
    let v := s.view gr.endLook
    let taken := laneMask (v.1.active h)
    let next := nextLPc gr.lpc 1
    let line (d : Int) (slot : Nat) : W64 := BitVec.ofInt 64 (((gr.lpc.toNat / 16 : Nat) + d) * 16 + slot)
    let push (k : StackKind) (m : W32) (pc : W64) (pnd : Bool) := { gr with
      stack := { kind := k, mask := m, lpc := pc, fmt := gr.fmtL &&& 0xFFFFFF, pnd := pnd } :: gr.stack }
    let pop := { gr with stack := rest, exmL := e.mask, fmtL := e.fmt &&& 0xFFFFFF }
    (gr.stack.length < 32 →
      (taken = 0 → exec (.lbr h td ts jd js) s =
        .next (v.2.laneJump g (push .diverge gr.exmL (line jd.toInt js.val) false) next false)) ∧
      (taken ≠ 0 → gr.exmL &&& ~~~taken = 0 →
        LaneArrives v.2 g { push .diverge gr.exmL (line jd.toInt js.val) false with exmL := taken } (line td.toInt ts.val) false
          (.lbr h td ts jd js) s) ∧
      (∀ d, taken ≠ 0 → LaneArrives v.2 g { push .call gr.exmL next false with exmL := taken } (line d.toInt 0) true
        (.lcall h (.near d)) s) ∧
      (∀ k, taken ≠ 0 → LaneArrives v.2 g { push .call gr.exmL next false with exmL := taken } (sget v.1.k k.val) true
        (.lcall h (.far k)) s)) ∧
    (gr.stack = e :: rest → e.kind = .call → LaneArrives s g pop e.lpc false (.lret h) s) ∧
    (gr.stack = e :: rest → e.kind = .diverge → e.pnd = false → e.lpc = gr.lpc →
      exec (.ljoin h) s = .next (s.laneJump g pop next false)) ∧
    (∀ k, gr.run = some { k := k, depth := gr.stack.length } → s.hostOf g gr = false → gr.out = [] → gr.mx = [] →
      gr.look = [] → exec (.lend h) s = .next (s.laneJump g
        { gr with run := none, ended := gr.ended + 1, mxEnded := gr.mxIssued } next false)) ∧
    (∀ d n tm, g.isHandler = false → s.team g.team = some tm → tm.region gr.role = none → s.pushMeet g gr = none →
      gr.out = [] → gr.alt = [] → gr.status = .active → (s.view gr).1.active h ≠ [] → gr.look = [] →
      s.participants g.team gr.role = [(g, gr)] → ∃ t gr', exec (.regroup h d n) s = .next t ∧ t.group g = some gr' ∧
        gr'.lpc = next ∧ gr'.exmL = BitVec.ofNat 32 (2 ^ ((s.view gr).1.active h).length - 1) ∧ gr'.waitL = none)

/-- A memory word whose lanes pass their checks issues: it stands among the group's outstanding words, and the stream goes on. -/
def Sys2Proof.IssuesOn {α : Type} (s : State) (g : GRef) (gr : Group) (h : LaneHdr) (i : Instr) (path : PathClass)
    (sels : List Sel) (dst : List Nat) (check : LaneView → State → Nat → Except Meet α × State) : Prop :=
  let v := seen s gr dst []
  let r := checkLanes (check v.1) (v.1.active h) v.2
  gr.pathCount path < 63 → firstCause r.1 = none → ∃ t gr', exec i s = .next t ∧ t.group g = some gr' ∧
    gr'.lpc = nextLPc gr.lpc (laneSlots sels) ∧ gr'.waitL = none ∧
    ∃ o ∈ gr'.out, o.id = gr.nextId ∧ o.path = path ∧ o.allLanes = laneMask (v.1.active h)

/-- The memory and matrix words of lanes (R405 to R408, R416 to R432, R459, R460, R465): each issues where the checks of its lanes
pass and its path has room; a matrix word where its tile's checks pass and, for `MMA`, every lane acts, FMT is legal and a grant
is held. -/
def Sys2Proof.LaneMemoryFormsComplete : Prop :=
  ∀ (s : State) (g : GRef) (gr : Group) (h : LaneHdr) (fn : MemFn) (op : AOp) (aw : AWidth) (nr full : Bool) (d : VReg)
    (path : PathClass) (a b c e : Sel) (off : W16), LaneAt s g gr →
    (fn.atomic = true → fn.width = .b64 ∨ fn.width = .b128) → fn.tag = .none →
    let n := fn.width.bytes
    let dst := (List.range ((n + 3) / 4)).map (d.val + ·)
    let glob (rd wr : Bool) (w : LaneView) (s : State) (l : Nat) :=
      s.checkSpan (s.ctxOf g) (globalVa h a b off w l) n (ordUnit fn) rd wr true (!gr.skipL.wp) (some g.core) (s.teamIdOf g)
    let loc (win : Bool) (n m : Nat) (w : LaneView) (s : State) (l : Nat) :=
      s.checkLocal win (s.teamRefOf g) (scratchVa h a b off w l) n m
    let onHost := op == .add || op == .xch || op == .cas
    let fab (n m : Nat) (rd wr host : Bool) (w : LaneView) (s : State) (l : Nat) :=
      s.checkFabric (s.ctxOf g) (w.src h .nat b l) (fabricVa a off w l) n m rd wr host (some g.core)
    let rmw (red : Bool) (w : LaneView) (s : State) (l : Nat) := s.checkGlobal (s.ctxOf g) (globalVa h a b off w l) aw.bytes
      aw.bytes (!red) true (!red && onHost) (!gr.skipL.wp) (some g.core) (s.teamIdOf g)
    let oldRegs : List Nat := if nr then [] else if aw = .w64 then [d.val, d.val + 1] else [d.val]
    IssuesOn s g gr h (.ldg h fn d a b off) .gl [a, b] dst (glob true false) ∧
    IssuesOn s g gr h (.stg h fn a b c off) .st [a, b, c] [] (glob false true) ∧
    IssuesOn s g gr h (.lds h fn d a b off) .sl [a, b] dst (loc false n (ordUnit fn)) ∧
    IssuesOn s g gr h (.sts h fn a b c off) .st [a, b, c] [] (loc false n (ordUnit fn)) ∧
    IssuesOn s g gr h (.ldx h fn d a b off) .sl [a, b] dst (loc true n (ordUnit fn)) ∧
    IssuesOn s g gr h (.stx h fn a b c off) .st [a, b, c] [] (loc true n (ordUnit fn)) ∧
    IssuesOn s g gr h (.tagset h full a b off) .st [a, b] [] (loc false 4 4) ∧
    IssuesOn s g gr h (.tagget h d a b off) .sl [a, b] [d.val] (loc false 4 4) ∧
    IssuesOn s g gr h (.rld h fn d a b off) .rm [a, b] dst (fab n (ordUnit fn) true false true) ∧
    IssuesOn s g gr h (.rst h fn a b c off) .rm [a, b, c] [] (fab n (ordUnit fn) false true true) ∧
    IssuesOn s g gr h (.ratom h op aw nr d a b c e off) .rm [a, b, c, e] oldRegs (fab aw.bytes aw.bytes true true onHost) ∧
    (nr = false → IssuesOn s g gr h (.atom h op aw nr d a b c e off) .gl [a, b, c, e] oldRegs (rmw false)) ∧
    (op = .fadd → IssuesOn s g gr h (.red h op aw a b c off) .st [a, b, c] [] (rmw true)) ∧
    (gr.out = [] → ∃ t gr', exec (.waitp h path a) s = .next t ∧ t.group g = some gr' ∧ gr'.lpc = nextLPc gr.lpc (laneSlots [a]) ∧
      (∀ x ∈ gr'.alt, x.path ≠ some path)) ∧
    (∀ (k : KReg) (va : Nat) (ra rb : VReg) (t : LType), va = (sget (seen s gr [] []).1.k k.val).toNat →
      let v := seen s gr [] []
      (mxFmtOk v.1.fmt = true → laneMask (v.1.active h) = 0xFFFFFFFF → gr.grant ≠ none → ∀ xl,
        (v.2.checkTile (v.2.ctxOf g) va true true (some g.core)).1 = .ok xl → ∃ t gr' cmd,
          exec (.mma h false ra (.v rb) k e) s = .next t ∧ t.group g = some gr' ∧ gr'.mx = gr.mx ++ [cmd] ∧ cmd.kind = .mma ∧
          cmd.num = gr.mxIssued + 1 ∧ cmd.va = va) ∧
      (∀ xl, (v.2.checkTile (v.2.ctxOf g) va false true (some g.core)).1 = .ok xl → ∃ t gr' cmd,
        exec (.mxzero h k) s = .next t ∧ t.group g = some gr' ∧ gr'.mx = gr.mx ++ [cmd] ∧ cmd.kind = .zero ∧
        cmd.num = gr.mxIssued + 1) ∧
      (∃ t gr' cmd, exec (.mxflush h none) s = .next t ∧ t.group g = some gr' ∧ gr'.mx = gr.mx ++ [cmd] ∧ cmd.kind = .flush true) ∧
      (va % 8192 = 0 → ∃ t gr' cmd, exec (.mxflush h (some k)) s = .next t ∧ t.group g = some gr' ∧ gr'.mx = gr.mx ++ [cmd] ∧
        cmd.kind = .flush false) ∧
      (let w := seen s gr [d.val] []
       let x := w.2.checkTile (w.2.ctxOf g) va true false (some g.core)
       ∀ xl, x.1 = .ok xl → (∀ y ∈ gr.mx, y.kind ≠ .mma ∨ y.pa ≠ xl.pa) → x.2.poison = [] → x.2.chanDown = [] →
        (∃ l, w.1.active h = [l]) → LaneRan s g gr (.mxread h t d k b) [b]))

/-- The steps of the host link and of the queues (R191, R309, R313 to R322), while the endpoint is up. -/
def Sys2Proof.HostFormsComplete : Prop :=
  ∀ (s : State) (slot : Nat) (q : Queue) (a n x : Nat), s.endpointUp = true → s.queue slot = some q → x < 2 ^ 64 →
    (PlainHomes s → NoObjectWaits s → a + n ≤ memTop → (∃ t, exec (.hostDeviceMemoryAccess false a n x) s = .next t ∧
        t.msgs = s.msgs ++ [.reply ((List.range n).map (fun i => (sget s.mem (a + i)).toNat))]) ∧
      (NothingLocked s → s.leftBy none a n = [] → s.ctl.setLen = 0 → ∃ t, exec (.hostDeviceMemoryAccess true a n x) s = .next t ∧
        sgetLE t.mem a n = x % 256 ^ n)) ∧
    (PlainHomes s → NoObjectWaits s → a < memTop → ∃ t, exec (.poisonedTlp a) s = .next t ∧ t.poison.contains (lineOf a) = true) ∧
    exec (.registerWrite 0 8 8 x) s = .next { s with ctl := { s.ctl with fretry := x % 8 } } ∧
    (a < 4096 → x / 2 ^ 32 % 32 ≤ 16 → ∃ t, exec (.contextOwnerWrite a x) s = .next t ∧ t.obsPage a = ObsPage.fresh ∧
      ∃ e, aget t.owners a = some e ∧ e.toNat % 2 ^ 32 = x % 2 ^ 32) ∧
    (∀ b, aget s.banks a = some b → x.testBit 63 = true → ∃ b', exec (.bankStatusClear a x) s =
      .next { s with banks := aput s.banks a b' } ∧ b'.status.getLsbD 63 = false) ∧
    (a < 384 → ∃ t, exec (.coreRetirement a) s = .next t ∧ (t.core a).inService = false) ∧
    (∀ r, r = s.pread a 128 → slot < 4096 → q.state = .disabled → a ≠ 0 → a % 128 = 0 → a + 128 ≤ memTop →
      queueDescOk r.1 = true → byteField r.1 0x38 8 = 0 → ∃ q', exec (.queueEnable slot a) s = .next (r.2.setQueue slot q') ∧
        q'.state = .idle ∧ q'.desc = a) ∧
    (q.state ≠ .disabled → exec (.queueDisable slot) s = .next (s.setQueue slot { q with disabling := true })) ∧
    (q.disabling = true → q.packets = [] → ∃ t, exec (.queueDisabled slot) s = .next t ∧
      t.queue slot = some { Queue.fresh with func := q.func }) ∧
    (q.state = .idle → q.packets = [] → q.resident = true → exec (.doorbellTail slot a) s = .next (s.setQueue slot { q with
      tail := a % 2 ^ 32, tailAt := s.clock, state := if q.progress = a % 2 ^ 32 then .idle else .running })) ∧
    (q.resident = true → q.state ≠ .disabled → q.busy = false → q.packets = [] →
      exec (.queueSwitchOut slot) s = .next (s.setQueue slot { q with resident := false })) ∧
    (s.queues.filter (fun p => !p.2.resident && p.2.state != .disabled) = [(slot, q)] → s.residents < 256 →
      ∃ q', exec (.queueSwitchIn slot) s = .next (s.setQueue slot q') ∧ q'.resident = true) ∧
    (let r := s.pread (q.seg + q.offset) 8
     let l := r.2.linkHeld (r.1 % 256)
     let bytes := 64 * 2 ^ min 4 (r.1 / 2 ^ 8 % 2 ^ 4)
     let b := l.2.pread (q.seg + q.offset) bytes
     q.newProg = none → q.takes = true → l.1 = false → r.1 / 2 ^ 32 = q.seq → q.headerOk r.1 = true →
      s.mayIssueKind q (r.1 % 256) = true → ∃ q' p, exec (.packetTake slot) s = .next (b.2.setQueue slot q') ∧
        q'.packets = q.packets ++ [p] ∧ p.seq = q.seq ∧ p.kind = r.1 % 256 ∧ p.status = none) ∧
    (∀ p rest st, q.packets = p :: rest → p.status = some st → p.waitGrids = [] → p.dropped = none → p.linkFrom = none →
      (q.busy = true → rest ≠ []) → q.resident = true → s.completionRoom q = true → ∃ t q',
        exec (.completionEntryWrite slot) s = .next t ∧ t.queue slot = some q' ∧ q'.packets = rest ∧
        q'.ctail = (q.ctail + 1) % 2 ^ 32)

/-- The kinds of packet (Table HQ-4), each on a packet that it accepts, and the steps that end those that go on. -/
def Sys2Proof.PacketFormsComplete : Prop :=
  (∀ (s : State) (slot : Nat) (q : Queue) (p : Packet), PacketAt s slot q p →
    let word (i : Nat) := q.body.getD i 0
    let ends (i : Instr) (s' : State) := exec i s = .next (s'.setQueue slot (packetEnds q p 0))
    exec .nop s = .next (s.setQueue slot (packetEnds q p 0)) ∧
    (word 1 % q.segBytes = 0 → word 1 + q.segBytes ≤ memTop → exec .link s = .next (s.setQueue slot
      { packetEnds q { p with linkFrom := some q.seg } 0 with seg := word 1, offset := 0 })) ∧
    (∀ n, (s.enterLaunch (queueLaunch q slot p (word 3)) (wordsNum q.body)).1 = .grid n →
      (s.enterLaunch (queueLaunch q slot p (word 3)) (wordsNum q.body)).2.queue slot = some q →
      exec .launch s = .next ((s.enterLaunch (queueLaunch q slot p (word 3)) (wordsNum q.body)).2.setQueue slot
        (packetWaits q { p with value := BitVec.ofNat 64 n, callGrid := some n }))) ∧
    (∀ r text, let d := s.readRecord q.ctx (word 2)
      let e := d.2.vread q.ctx (word 2 + r.nameAt.1) r.nameAt.2 true
      d.1 = .ok r → recordOk r = true → e.1 = .ok text → nameOk text r.nameAt.2 = true →
      (e.2.vwrite (e.2.agent 6 0) q.ctx (word 2 + 8) 8 e.2.nextCodeId true).1 = .ok () → ∃ t, exec .load s = .next t ∧
        t.loadedAt q.ctx (BitVec.ofNat 64 (word 2)) =
          some ⟨q.ctx, word 1, BitVec.ofNat 64 (word 2), BitVec.ofNat 64 e.2.nextCodeId⟩) ∧
    ((s.ctx q.ctx).isSome → ∃ t, exec .flush s = .next t ∧ t.queue slot = some (packetEnds q p 0) ∧
      ∀ e ∈ t.firn, e.ctx = q.ctx → (word 1 = 0 ∨ e.codeId = BitVec.ofNat 64 (word 1)) → e.matching = false) ∧
    (word 1 = 0 → exec .program s = .next (s.setQueue slot { packetEnds q p 0 with newProg := some (0, []) })) ∧
    (q.prog ≠ 0 → ∃ q', exec .queueProgramKind s = .next (s.setQueue slot q') ∧ q'.pc = 0 ∧
      q'.reg 1 = BitVec.ofNat 64 p.seq ∧ q'.reg 2 = BitVec.ofNat 64 p.kind ∧ q'.prog = q.prog) ∧
    ((s.ctx q.ctx).isSome → exec .inval s = .next
      (State.setQueue { s with invals := s.invals ++ [⟨q.ctx, word 1, word 2, slot, p.seq⟩] } slot (packetWaits q p))) ∧
    (∀ c, c = wordField q.body 8 4 → (q.func = 0 ∨ s.funcOf c = q.func) → contextOk q.body = true →
      (∀ e ∈ s.ctxs, e.1 % 4096 = c % 4096 → e.1 = c) → wordField q.body 0x20 8 = 0 → ∃ x',
        ends .context (s.setCtx c x') ∧ x'.ptRoot = wordField q.body 0x10 8) ∧
    (∀ x, q.func = 0 → s.ctx (word 1) = some x → word 2 % 2 ^ 32 ≤ 10 ^ 6 → word 2 / 2 ^ 32 ≤ 10 ^ 6 → x.phase = .running →
      exec .preempt s = .next ((s.setCtx (word 1) { x with
        phase := .drain (s.clock + 1800 * (word 2 % 2 ^ 32)) (1800 * (word 2 / 2 ^ 32)),
        preemptQ := x.preemptQ ++ [(slot, p.seq)] }).setQueue slot (packetWaits q p))) ∧
    (∀ x n gr pk, s.ctx q.ctx = some x →
      s.grids.find? (fun g => g.2.ctx == q.ctx && g.2.parked.any (fun p => p.slot == word 1)) = some (n, gr) →
      gr.parked.find? (fun p => p.slot == word 1) = some pk → word 1 < x.parkN → s.slotValid q.ctx x (word 1) = true →
      s.placeAgain gr pk = true → gr.cluster = false → ends .resume (s.setGrid n { gr with
        parked := gr.parked.map (fun p => if p.slot = word 1 then { p with wantResume := true } else p) })) ∧
    (∀ num, num = word 2 / 2 ^ 8 % 16 → word 2 / 2 ^ 12 = 0 → word 2 / 4 % 2 ^ 6 = 0 →
      exec .serveRefusedAction s = .next (s.setQueue slot (packetEnds q p 1)) ∧
      ((s.serveStart q.ctx (word 1) num).1 = true → (s.serveStart q.ctx (word 1) num).2.queue slot = some q →
        ends .serveStart (s.serveStart q.ctx (word 1) num).2) ∧
      (∀ x, s.inst num = some x → x.ctx = q.ctx →
        (x.desc = word 1 → x.status = .running → x.phase ≠ .start 1 → exec .serveStop s = .next
          ((s.onInst num (fun _ => { x with stops := x.stops ++ [(slot, p.seq)] })).setQueue slot (packetWaits q p))) ∧
        (∀ s1, x.status = .halted → s.vwrite s.wellhead q.ctx (x.desc + 0x68) 8 1 false = (.ok (), s1) →
          s1.queue slot = some q → s1.insts = s.insts → ∃ t, exec .serveResume s = .next t ∧
            t.inst num = some { x with status := .running }))) ∧
    (q.func = 0 → s.namedContexts.2.allOff s.namedContexts.1 = true →
      exec .checkpoint s = .next (State.setQueue { s.namedContexts.2 with
        checkpoints := s.namedContexts.2.checkpoints ++ [⟨slot, p.seq, s.namedContexts.1⟩] } slot (packetWaits q p)) ∧
      (∀ k pa s2, s.namedContexts.2.vault.filter (fun k => s.namedContexts.1.contains k.ctx) = [k] → k.pa = some pa →
        s.namedContexts.2.pick 2 = (0, s2) → PlainHomes s → NothingLocked s → s.ctl.setTab = 0 → swf k.data = true →
        (∀ b ∈ k.data, pa ≤ b.1 ∧ b.1 < pa + k.bytes) → ∃ t, exec .restore s = .next t ∧
          t.queue slot = some (packetEnds q p 0) ∧ ∀ a, pa ≤ a → a < pa + k.bytes → sget t.mem a = sget k.data a))) ∧
  (∀ (s : State) (v : Inval), s.invals = [v] → s.rangeQuiet v.ctx v.base v.bytes = true →
    ∃ t, exec .invalidationComplete s = .next t ∧ t.invals = []) ∧
  (∀ (s s1 : State) (k : Checkpoint) (rest : List Checkpoint), s.checkpoints = k :: rest →
    s1 = k.ctxs.foldl (fun s c => s.sendContext c) { s with checkpoints := rest } → s1.poison = [] → s1.checkpoints = rest →
    ∃ t, exec .checkpointComplete s = .next t ∧ t.checkpoints = rest)

/-- The steps of launches, teams, parks, activations and watchdogs, each where it is due. -/
def Sys2Proof.TeamFormsComplete : Prop :=
  (∀ (s : State) (n : Nat) (gr : Grid), s.grid n = some gr →
    (gr.phase = .dependence → gr.depAddr = 0 → (s.keyFor n gr).1 = none → (s.keyFor n gr).2.grid n = some gr →
      exec (.dependenceMet n) s = .next ((s.keyFor n gr).2.setGrid n { gr with phase := .ready })) ∧
    (gr.complete = false → s.gridEnded n gr = true → gr.sigAddr = 0 → n ∉ s.childGrids n → gr.status = .running →
      (∃ g k, gr.issuer = .spawn g k) → ∃ t gr', exec (.gridComplete n) s = .next t ∧ t.grid n = some gr' ∧
        gr'.complete = true ∧ gr'.status = .done) ∧
    (∀ slot, exec (.parkAutoResume n slot) s = .next (s.setGrid n { gr with
      parked := gr.parked.map (fun p => if p.slot = slot ∧ s.resumesAlone gr p then { p with wantResume := true } else p) })) ∧
    (∀ core qs rest, s.launchOrder = (n, gr) :: rest → s.takes core = true → gr.parked.any (fun p => p.wantResume) = false →
      gr.next < gr.teams → gr.cluster = false → gr.coresident = false → s.fit core gr.roles gr.scratch = some qs →
      s.freeSlots core ≠ [] → ∃ t slot tm, exec (.teamPlace core) s = .next t ∧ s.team ⟨core, slot⟩ = none ∧
        t.team ⟨core, slot⟩ = some tm ∧ tm.grid = n ∧ tm.teamId = gr.next) ∧
    (∀ rest q start, s.launchOrder = (n, gr) :: rest → q = s.ageClocks gr.ctx →
      start = max (gr.entered + gr.level * q) (gr.zeroSince.getD 0) → s.placeable gr = true → start + 4 * q ≤ s.clock →
      exec .reservation s = .next { s with reservation := some n })) ∧
  (∀ (s : State) (tr : TRef) (tm : Team) (gr : Grid), s.team tr = some tm → s.grid tm.grid = some gr →
    (s.retires tr tm = true → NoObjectWaits s → (s.core tr.core).act = none → ∃ t,
      exec (.teamRetire tr.core tr.slot) s = .next t ∧ t.team tr = none ∧ t.grid tm.grid = some { gr with ended := gr.ended + 1 }) ∧
    (∀ n, s.joinStuck tr = some n → tm.parkWanted = none → ∃ t, exec (.joinPark tr.core tr.slot) s = .next t ∧
      t.team tr = some { tm with parkWanted := some 2, parkGid := none, joining := some n }) ∧
    (∀ reason slot x, tm.parkWanted = some reason → reason ≠ 0 → tm.parkSlot = none → tm.cluster = false →
      (s.core tr.core).act = none →
      let s1 := (s.onTeam tr (fun t => { t with parkWanted := some reason })).stopTeam tr
      let s2 := s1.sendTeam tr
      s1.quiet tr = true → s1.team tr = some tm → s2.team tr = some tm → s2.ctx tm.ctx = some x → x.freeSlot = some slot →
      let gs := sortBy (fun a b => decide (a.1.gid < b.1.gid)) (s2.teamGroups tr)
      let r := s2.putRecord tm.ctx (x.parkBase.toNat + 2 ^ 20 * slot) (recordLen tm.scrSize (gs.map (fun p => p.2.allot)))
        (s2.record tm gs (parkInfo tm (s2.teamGroups tr) reason))
      r.1 = .ok () → r.2.team tr = some tm → r.2.ctx tm.ctx = some x → ∃ t, exec (.park tr.core tr.slot) s = .next t ∧
        t.team tr = some { tm with parkSlot := some slot }) ∧
    (∀ slot x y, tm.parkSlot = some slot → s.ctx tm.ctx = some x →
      (s.translate tm.ctx (x.parkBase.toNat + 2 ^ 20 * slot + 0x27)).1 = some y → y.w = true → y.host = false →
      NoObjectWaits s → (s.core tr.core).act = none → ∃ t gr', exec (.parkRecordValid tr.core tr.slot) s = .next t ∧
        t.team tr = none ∧ t.grid tm.grid = some gr' ∧ gr'.parked.length = gr.parked.length + 1)) ∧
  (∀ (s : State) (c : Nat) (x : Ctx), s.ctx c = some x →
    (∀ parkAt reset, x.phase = .drain parkAt reset → parkAt ≤ s.clock → ∃ t, exec (.preemptPark c) s = .next t ∧
      t.ctx c = some { x with phase := .park (s.clock + reset) }) ∧
    (∀ reset, x.phase = .park reset →
      (∀ tr tm gr, reset ≤ s.clock → s.ctxTeams c = [(tr, tm)] → s.grid tm.grid = some gr → gr.status = .running →
        (∀ p ∈ s.groups, p.2.waitS = none) → ∃ t gr', exec (.preemptReset c) s = .next t ∧ t.grid tm.grid = some gr' ∧
          gr'.status = .killed) ∧
      (s.ctxTeams c = [] → x.preemptQ = [] → exec (.preemptOff c) s = .next (s.setCtx c { x with phase := .off })))) ∧
  (∀ (s : State) (core slot gid : Nat) (rest : List (Nat × Nat)) (gr : Group) (tm : Team),
    s.group ⟨core, slot, gid⟩ = some gr → s.team ⟨core, slot⟩ = some tm → slot < 16 →
    ((s.core core).act = none → (s.core core).trapQ = (slot, gid) :: rest → tm.handler ≠ 0 → tm.parkWanted = none →
      ∃ t h, exec (.handlerActivation core) s = .next t ∧ t.group (handlerGroup core) = some h ∧ h.spc = tm.handler ∧
        (t.core core).trapQ = rest) ∧
    (∀ a, (s.core core).act = some a → a.slot = slot → a.since + 1800 * tm.hndwd ≤ s.clock → ∃ t,
      exec (.handlerWatchdog core) s = .next t ∧ (t.core core).act = none) ∧
    (∀ obj ph b, gr.status = .active → gr.waitS = some (.barrier obj ph b) → tm.tagwd ≠ 0 →
      gr.sinceS + 1800 * tm.tagwd ≤ s.clock →
      exec (.tagWatchdog core slot gid 0) s = .next (s.trapS ⟨core, slot, gid⟩ .tagWatchdog 0 obj.toNat)))

/-- The steps that end what a group waits for, and those that perform what it and its engines have outstanding. -/
def Sys2Proof.GroupFormsComplete : Prop :=
  (∀ (s : State) (core slot gid : Nat) (g : GRef) (gr : Group), g = ⟨core, slot, gid⟩ → s.group g = some gr →
    (gr.status = .active →
      (∀ e rest, gr.run = none → gr.laneQ = e :: rest → ∃ gr', exec (.laneBlockStart core slot gid) s = .next (s.setGroup g gr') ∧
        gr'.lpc = e.target ∧ gr'.run = some ⟨e.k, gr.stack.length⟩) ∧
      (∀ e rest, gr.spilled = e :: rest → gr.laneQ.length < 16 → exec (.laneQueueRefill core slot gid) s =
        .next (s.setGroup g { gr with laneQ := gr.laneQ ++ [e], spilled := rest })) ∧
      (gr.waitS = some .lsync → gr.enq ≤ gr.ended → exec (.lsyncRelease core slot gid) s = .next (s.scalarDone g
        { gr with yS := gr.yL, gfS := gr.gfL, exmS := gr.exmL, mxSeen := gr.mxEnded, syncId := gr.nextId } 1)) ∧
      (∀ c n, gr.waitS = some (.timeline c n) → n ≤ s.timeline g gr c →
        exec (.waittlRelease core slot gid) s = .next ((s.acquire core).scalarDone g gr 1)) ∧
      (∀ p limit n, gr.waitL = some (.waitp p limit n) → gr.pathCount p ≤ limit →
        exec (.waitpRelease core slot gid) s = .next (s.laneDone g (gr.covered p) n)) ∧
      (gr.grant.isSome → gr.lastMma + 16384 ≤ s.clock →
        exec (.grantIdleTimeout core slot gid) s = .next (s.setGroup g { gr with grant := none })) ∧
      (∀ tm, g.isHandler = false → s.team g.team = some tm → gr.enq ≤ gr.ended → gr.out = [] →
        (gr.waitS = some .exitWait → tm.region gr.role = none → gr.eng = [] → gr.obj = [] → NoWrap s core 0x02 1 →
          ∃ t, exec (.groupExitEnd core slot gid) s = .next t ∧
            t.group g = some { gr with status := .exited, grant := none, waitS := none, waitL := none }) ∧
        ((∀ u ∈ s.upart, g ∉ u.owners) →
          (∀ f ∈ s.fabTags, f.busy = true → f.why ≠ .lane g ∧ ∀ os, f.why = .partial_ os → g ∉ os) → ∀ kind ce kv co,
          gr.waitS = some (.fence kind ce kv co) →
          (kind ≠ 2 → exec (.fenceComplete core slot gid) s = .next (s.scalarDone g gr 1)) ∧
          (kind = 2 → ce ≤ tm.doneCe → kv ≤ tm.doneKv → co ≤ tm.doneCo → gr.mxFence ≤ gr.mxDone →
            (s.core core).staging = [] → s.sends = [] → s.deltas = [] → gr.survDeg = false → tm.survBad = [] →
            gr.morFrames = [] → tm.mor = [] →
            exec (.fenceSurvComplete core slot gid) s = .next (s.scalarDone g (gr.setC 0 false) 1))))) ∧
    (∃ out, exec (.pathCompletion core slot gid) s = .next (s.setGroup g { gr with out := out }) ∧
      ∀ p o, out.find? (fun o => o.path == p) = some o → o.units ≠ []) ∧
    (∀ o u rest, gr.out = [o] → o.units = u :: rest → u.bytes = 4 → u.pa % 4 = 0 → u.space = .global → u.kind = .store →
      u.dst = [] → u.mor = false → s.locked u.pa = false → s.holds = [] → PlainHomes s → NoObjectWaits s →
      NoWrap s core 0x06 1 → ∃ t, exec (.accessPerformedAtHome core slot gid 0) s = .next t ∧
        sgetLE t.mem u.pa 4 = u.data % 2 ^ 32 ∧ t.group g = some { gr with out := [{ o with units := rest, sent := none }] }) ∧
    (∀ c rest n, gr.mx = c :: rest → (∀ d ∈ rest, d.num ≠ c.num) → c.kind = .mma → c.begun = true →
      (s.core core).staging = [] → ∃ t, exec (.stagingCombine core slot gid n) s = .next t ∧
        t.group g = some { gr with mx := rest, mxDone := c.num })) ∧
  (∀ (s : State) (u : UPart) (a x : Nat), s.upart = [u] → s.remoteHolders = [] → (∀ p ∈ s.obs, p.2.hwPages = []) →
    NothingLocked s → u.rank = none → u.cells = [(a, x)] → u.op = .add → u.w = .w32 → u.mor = false → x < 2 ^ 32 →
    ∃ t, exec (.uPartialFlush 0) s = .next t ∧ t.upart = [] ∧ sgetLE t.mem a 4 = (sgetLE s.mem a 4 + x) % 2 ^ 32) ∧
  (∀ (s : State) (core : Nat) (e : Staging), (s.core core).staging = [e] → ∃ t, exec (.stagingSend core 0) s = .next t ∧
    (t.core core).staging = [] ∧ t.sends = s.sends ++ [⟨core, e.ctx, e.pa, e.mor, e.cells, e.from_, e.grids⟩]) ∧
  (∀ (s : State) (x : TileSend) (k : Nat) (v : W64) (n : Nat), s.sends = [x] → x.cells = [(k, v)] → PlainHomes s → x.mor = false →
    x.pa % 8 = 0 → NothingLocked s → ∃ t, exec (.tileAdd 0 n) s = .next t ∧ t.sends = [] ∧
      sgetLE t.mem (x.pa + 8 * k) 8 = (sgetLE s.mem (x.pa + 8 * k) 8 + v.toNat) % 2 ^ 64) ∧
  (∀ (s : State) (tr : TRef) (tm : Team) (c : EngCmd) (u per r k : Nat), CopyStands s tr tm c →
    per = c.w 3 % 2 ^ 32 / 4 → r = u / per → k = u % per * 4 →
    (NoObjectWaits s → u < c.w 3 / 2 ^ 32 * per → u ∉ c.landed → (c.w 2 + r * (c.w 4 / 2 ^ 32) + k) % 4 = 0 → c.w 0 % 16 = 5 →
      ∃ t tm', exec (.ceUnitLand tr.core tr.slot c.num u) s = .next t ∧ t.team tr = some tm' ∧
        sgetLE tm'.scratch (c.w 2 + r * (c.w 4 / 2 ^ 32) + k) 4 = sgetLE tm.scratch (c.w 1 + r * (c.w 4 % 2 ^ 32) + k) 4 ∧
        tm'.cmds = [{ c with landed := u :: c.landed }]) ∧
    (c.w 6 = 0 → c.w 3 / 2 ^ 32 * per ≤ c.landed.length → tm.finCe = [] → ∃ tm',
      exec (.ceCommandComplete tr.core tr.slot c.num) s = .next (s.setTeam tr tm') ∧ tm'.cmds = [])) ∧
  (∀ (s : State) (tr : TRef) (tm : Team) (c : EngCmd), s.team tr = some tm → tm.cmds = [c] →
    (c.cls = .kv → c.landed = [] → c.op ∈ [EngOp.kvref, .kvunref] → c.w 1 % 4 = 0 → c.w 2 % 8 = 0 →
      let x := s.vread (s.ctxOf (tr.group 0)) (c.w 1) (4 * kvCount c.desc) true
      let y := checkPieces (s.ctxOf (tr.group 0)) true [(c.w 2, 8)] x.2
      ∀ ids ys k p st new s3, x.1 = .ok ids → y.1 = .ok ys →
        (y.2.instOf tr).bind (fun z => y.2.poolOf z (kvPool c.desc)) = some (k, p) → y.2.poolMoves tr c p = false →
        y.2.kvAct (y.2.kvWriter tr c) p c.op (kvCount c.desc) (unpackIds ids (kvCount c.desc)) false = (some st, new, s3) →
        exec (.kvCommandPerform tr.core tr.slot) s = .next (s3.kvResult tr c st)) ∧
    (∀ x s1, c.op = .kvsend → c.landed ≠ [] → s.instOf tr = some x → s.pick 3 = (0, s1) →
      (c.landed.getD 1 0).testBit 16 = false →
      exec (.kvsendComplete tr.core tr.slot) s = .next ((s1.sendOver x.num tr c).kvResult tr c 0)) ∧
    (∀ own, c.cls = .co → c.landed = [0] → s.colls = [own] → own.collid = c.w 5 → own.ctx = s.ctxOf (tr.group 0) →
      own.rank = s.ctl.rank → own.ranks = [s.ctl.rank] → s.lost.contains s.ctl.rank = false → own.hdr = [c.w 0] →
      own.fault = none → own.elems.length = collCount c.desc → collOp c.desc = 0 → collWidth c.desc = 4 → ∀ s1,
      collWrite tr c own.ranks own.elems 0 s = (true, s1) → s1.colls = s.colls →
      exec (.coCommandComplete tr.core tr.slot c.num) s = .next (State.engDone { s1 with colls := [] } tr c)))

/-- The steps of the platform, of the firn engine and of serving, each where it is due. -/
def Sys2Proof.PlatformFormsComplete : Prop :=
  (∀ (s : State), (∃ t, exec .logicalClockRise s = .next t ∧ t.clock = s.clock + 16) ∧
    exec .powerInterval s = .next { s with weightsNow := s.weights } ∧
    (∃ t, exec .powerOnReset s = .next t ∧ t.teams = [] ∧ t.groups = [] ∧ t.mem = [] ∧ t.ctl = State.reset.ctl) ∧
    (s.endpointUp = false → s.inReset = true → exec .configurationRequest s = .next { s with msgs := s.msgs ++ [.retryStatus] }) ∧
    (s.inReset = true → ∃ t x, exec .boundaryScan s = .next t ∧ t.msgs = s.msgs ++ [.reply x]) ∧
    (∃ t x, exec .pldmMonitoring s = .next t ∧ x.length = 2 ∧
      t.msgs = s.msgs ++ [.reply (x ++ s.banks.map (fun b => b.2.status.toNat))]) ∧
    (∃ t, exec .pldmFirmwareUpdate s = .next t ∧ (t.image = s.image ∧ t.secVersion = s.secVersion ∨
      ∃ part v img sig, Config.signatureValid img sig = true ∧ (aget s.secVersion part).getD 0 ≤ v ∧
        t.image = aput s.image part (img, sig) ∧ t.secVersion = aput s.secVersion part v)) ∧
    (s.excl.length ≤ 1 → exec .rdcRecallReturn s = .next { s with excl := [] }) ∧
    (∀ g, (s.cur = some (.scalar g) → exec .undefinedEncoding s = .next (s.trapS g .illegal 0 0)) ∧
      (s.cur = some (.lane g) → exec .undefinedEncoding s = .next (s.trapL g .illegal 0 0 0)))) ∧
  (∀ (s : State) (c d : Nat) (rest : List Nat), s.choices = c :: d :: rest →
    (c % 3 = 2 → ∃ t, exec .scrub s = .next t ∧ t.poison.contains (d % (memTop / 128)) = true) ∧
    (c % 5 = 4 → exec .spdmRequest s = .next { s with choices := d :: rest, msgs := s.msgs ++ [.reply s.measurements] }) ∧
    (s.endpointUp = true →
      (d % 2 = 1 → c ∉ s.chanDown → ∃ t, exec .hbmChannelRetrain s = .next t ∧ t.chanDown = c :: s.chanDown) ∧
      (c % 36 ∉ s.portsDown → exec .fabricPortRetrain s =
        .next { s with choices := d :: rest, portsDown := c % 36 :: s.portsDown }))) ∧
  (∀ (s : State) (g : GRef) (gr : Group) (rest : List GRef), s.powerAsks = g :: rest → s.group g = some gr →
    gr.asksPower = true → ∃ level charge, level ≤ 3 ∧ exec .powerGrant s = .next (State.setGroup { s with powerAsks := rest } g
      { gr with grant := some (level, charge), lastMma := s.clock })) ∧
  (∀ (s : State) (core p c : Nat) (rest : List Nat), p = (aget s.testPeriods core).getD 0 → s.reservation = none →
    (p ≠ 0 → (s.core core).testAt + p * 1800000000 ≤ s.clock → (s.core core).inService = true →
      exec (.selfTestDue core) s = .next (s.setCore core { s.core core with testDue := true })) ∧
    ((s.core core).testDue = true → s.coreTeams core = [] → s.upart = [] → s.choices = c :: rest → ∃ t,
      exec (.selfTestSlot core) s = .next t ∧ (∀ k ∈ t.l1, k.holder ≠ core) ∧ (t.core core).staging = [])) ∧
  (∀ (s : State) (core c : Nat) (g : GRef) (gr : Group), (s.obsPage (c % 4096)).lsPer ≠ 0 → g.gid < 32 → g.slot < 16 →
    s.groups.filter (fun p => p.1.core == core && !p.1.isHandler && p.2.status != .exited && s.ctxOf p.1 == c) = [(g, gr)] →
    ∃ t, exec (.pcSample core c) s = .next t ∧ aget (t.core core).samples c = some (gr.quarter, g.gid * 16 + g.slot)) ∧
  (∀ (s : State) (id : Nat) (x : Ctx) (va n a e lg old new : Nat) (rest : List Nat), s.ctxs = [(id, x)] →
    s.choices = va :: n :: rest → PlainHomes s → s.sends = [] → s.cores = [] →
    leafAt s.mem (va % 2 ^ 57) walkLevels x.ptRoot = some (a, e, lg) → old = e / 2 ^ 16 % 2 ^ 36 * 2 ^ 16 →
    new = n % (memTop / 2 ^ lg) * 2 ^ lg → e.testBit 6 = false → e.testBit 7 = false → s.rangeFree new (2 ^ lg) = true →
    s.poolUses old (2 ^ lg) = false → s.locked old = false → ∃ t, exec .migrationLock s = .next t ∧
      t.migrations = s.migrations ++ [⟨old, new, 2 ^ lg, id, va % 2 ^ 57⟩]) ∧
  (∀ (s : State) (m : Migration) (x : Ctx) (a e lg : Nat), s.migrations = [m] → s.holds = [] →
    s.leftBy (some m.ctx) m.new m.bytes = [] → s.mem.wf = true → s.ctx m.ctx = some x →
    leafAt (splice s.mem m.new m.bytes m.old s.mem) m.va walkLevels x.ptRoot = some (a, e, lg) →
    e / 2 ^ 16 % 2 ^ 36 * 2 ^ 16 = m.old → m.new < 2 ^ 52 → m.new % 2 ^ 16 = 0 → (a + 8 ≤ m.new ∨ m.new + m.bytes ≤ a) →
    ∃ t, exec .migrationSwitch s = .next t ∧ t.migrations = [] ∧ sgetLE t.mem a 8 = e % 2 ^ 16 + m.new ∧
      ∀ b < m.bytes, sget t.mem (m.new + b) = sget s.mem (m.old + b)) ∧
  (∀ (s : State) (e : FirnEntry) (rest : List Nat), s.builds = e.id :: rest → s.firn = [e] → e.state = .building →
    ∃ t e', exec .firnBuild s = .next t ∧ t.firn = [e'] ∧ e'.key = e.key ∧ (e'.state = .valid ∨ e'.state = .rejected)) ∧
  (∀ (s : State) (x : Inst), s.insts = [x] → x.status = .running → (∀ y, s.ctx x.ctx = some y → y.phase = .running) →
    x.stops = [] → s.instMoves x = false →
    (x.phase = .start 4 → ∀ room s1, x.room s = (.ok room, s1) → 2 * x.maxSeq ≤ room →
      exec .iterationBegin s = .next (s1.phase4 x.num)) ∧
    (∀ i n gr, x.phase = .grids i n → s.grid n = some gr → gr.complete = true → gr.status = .done →
      (i + 1 < x.plan.length →
        exec .planEntryLaunch s = .next (State.launchPlan { s with grids := adel s.grids n } x (i + 1))) ∧
      (∀ e r, i + 1 = x.plan.length → x.batch = [e] → e.counted = false → e.ended = false →
        (e.sample = true → e.emitted = true) → s.recOf x.num e.idx = some r → r.get 1 8 1 = 0 → r.gen ≠ r.maxNew → r.state = 2 →
        ∃ t r', exec .retirement s = .next t ∧ t.recOf x.num e.idx = some r' ∧
          r'.kvLen = (r.kvLen + e.len) % 2 ^ 32))) ∧
  (∀ (s s0 : State) (rank n : Nat) (words shape rest : List Nat), s.choices = rank :: n :: words ++ shape ++ rest →
    words.length = 32 → shape.length = 3 → s0 = { s with choices := rest } → s.inst (n % 16) = none →
    exec .kvsendReceive s = .next (s0.answerSend (rank % 576) 6))

/-- The steps of the fabric and of collectives (Tables FAB-1 to FAB-4), each on a packet that arrives whole. -/
def Sys2Proof.FabricFormsComplete : Prop :=
  (∀ (s s1 : State) (opc : Nat) (q0 q : FabReq) (i : Instr) (rep : Nat),
    (opc, i, rep) ∈ [(1, Instr.fabricRead, 0x81), (2, .fabricWrite, 0x82), (3, .fabricAtomic, 0x83),
      (4, .fabricAtomicNoReturn, 0x82)] → RequestArrives s opc q0 (some q.pkt) s1 → q.die = q0.die → q.bytes = q0.bytes →
    q.op = q0.op → NoObjectWaits s1 → PlainHomes s1 → ItsTurn s1 q → ∀ st x s2,
    s1.window q.pkt.ctx q.pkt.offset q.bytes (q.pkt.opc != 2) (q.pkt.opc != 1) = ((st, some x), s2) →
    s2.fabOut = s1.fabOut → s2.clock = s1.clock → s2.ctl = s1.ctl → s2.fto = s1.fto → s2.mem = s1.mem → PlainHomes s2 →
    NoObjectWaits s2 → x.host = false → s2.unbuilt x.pa = false → s2.locked x.pa = false → x.mor = false →
    ∃ t p, exec i s = .next t ∧ t.fabOut = s1.fabOut ++ [p] ∧ p.opc = rep ∧ p.status = 0 ∧ p.tag = q.pkt.tag ∧
      (opc = 2 → sgetLE t.mem x.pa q.bytes = q.pkt.value % 256 ^ q.bytes)) ∧
  (∀ (s s1 : State) (q0 q : FabReq), RequestArrives s 5 q0 (some q.pkt) s1 → q.die = q0.die → q.bytes = q0.bytes → q.op = q0.op →
    ItsTurn s1 q → NoObjectWaits s1 → q.pkt.offset + q.bytes ≤ memTop → ∃ t, exec .delta s = .next t ∧
      sgetLE t.mem q.pkt.offset q.bytes = (sgetLE s1.mem q.pkt.offset q.bytes ^^^ q.pkt.value) % 256 ^ q.bytes) ∧
  (∀ (s s0 s1 : State) (i : Instr) (opcs : List Nat) (f : FabTag) (p q : FabPkt),
    (i, opcs) ∈ [(Instr.readReply, [1]), (.atomicReply, [3]), (.acknowledgement, [2, 4])] →
    s.fabTags.filter (fun t => t.busy && opcs.contains t.pkt.opc) = [f] → s.drawReply f = (p, s0) →
    s0.linkArrival p = (some q, s1) → q.tag = f.tag → q.gen = f.gen → q.status = 0 → ∀ g gr o u, f.why = .lane g →
    f.pkt.opc ≠ 4 → s1.group g = some gr → gr.out = [o] → o.sent = some f.tag → o.units = [u] → u.isHost = false →
    NoObjectWaits s1 →
    (u.dst = [] → ∃ t, exec i s = .next t ∧ t.group g = some { gr with out := [] }) ∧
    (∀ r, u.kind ≠ .load true → u.bytes = 4 → u.dst = [some r] → ∃ t gr', exec i s = .next t ∧ t.group g = some gr' ∧
      sget gr'.v (vkey r u.phys) = BitVec.ofNat 32 (q.good f).x)) ∧
  (∀ (s s0 s1 : State) (f : FabTag) (p q : FabPkt), s.fabTags.filter (fun t => t.busy && [5].contains t.pkt.opc) = [f] →
    s.drawReply f = (p, s0) → s0.linkArrival p = (some q, s1) → q.tag = f.tag → q.gen = f.gen → q.status = 0 →
    f.why = .delta f.die → s1.deltas.length = 1 → (∀ d ∈ s1.deltas, f.carries d = true) →
    ∃ t, exec .deltaAcknowledgement s = .next t ∧ t.deltas = []) ∧
  (∀ (s : State) (f : FabTag), s.deltas = [] → s.fabTags = [f] → f.busy = true → f.sentAt + s.fto ≤ s.clock →
    f.retries < s.ctl.fretry → ∃ f', exec .fabricTimeout s = .next { s with fabTags := [f'], fabOut := s.fabOut ++ [f'.pkt] } ∧
      f'.pkt.rty = true ∧ f'.gen = (f.gen + 1) % 16) ∧
  (∀ (s : State), exec .replyCacheExpiry s = .next { s with kept := s.kept.filter (fun k => decide (s.clock < k.expiry)) }) ∧
  (∀ (s s0 : State) (h : RemoteHolder), s.control h.rank = (true, s0) →
    (s.accepted = [h] → s0.ctl.joined = true → ∃ t, exec .recall s = .next t ∧ t.accepted = []) ∧
    (s.remoteHolders = [h] → NoObjectWaits s0 → s0.lost.contains h.rank = true → ∃ t, exec .recallReply s = .next t ∧
      t.remoteHolders = [])) ∧
  (∀ (s s0 s1 : State) (r : Nat), s.control 0 = (true, s0) → s0.draw = (r, s1) →
    (s.ctl.joined = true → r % 576 ≠ s.ctl.rank → ∃ t, exec .lost s = .next t ∧ t.lost.contains (r % 576) = true) ∧
    (s1.ctl.joined = false → ∃ t, exec .rebuild s = .next t ∧ t.ctl = { s1.ctl with rank := r % 576, joined := true }) ∧
    (s.ctl.joined = true → s0.unreachable = [] → PlainHomes s0 → NothingLocked s0 → ∃ t pa, exec .resync s = .next t ∧
      ∀ a, a < pa ∨ pa + 65536 ≤ a → sget t.mem a = sget s0.mem a)) ∧
  (∀ (s : State) (b : Rebuild) (f : Nat) (fs : List Nat), s.rebuilds = [b] → b.spare ≠ s.ctl.rank → b.frames = f :: fs →
    s.deltas = [] → s.holds = [] → NoObjectWaits s → exec .rebuildFrame s = .next { s with rebuilds := [{ b with frames := [] }] }) ∧
  (∀ (s s1 : State) (tr : TRef) (c : EngCmd), s.newColls = [(tr, c)] → s.pick 2 = (0, s1) →
    exec .collective s = .next (s1.collStart tr c)) ∧
  (∀ (s s1 : State) (x : CollData), s.colls = [x] → x.rank ≠ s.ctl.rank → x.elems = [] → x.fault = none →
    s.collPacket 0x85 x.rank = (true, s1) → ∃ t y, exec .collectiveData s = .next t ∧ t.colls = [y] ∧
      (y.fault.isSome = true ∨ y.elems.length = collCount x.hdr))

/-! Statements of several parts -/

/-- A step runs the decoded instruction: a stream word of a group, a word of a queue program, and the agent's turn that
the agenda or its free choice names; and the slots of one line decode one by one. -/
def Obligations.StepRunsDecodedWords : Prop :=
  Sys2Proof.StepRunsStreamWord ∧ Sys2Proof.StepRunsQueueWord ∧ Sys2Proof.StepRunsDeviceStep ∧
    Sys2Proof.LineSlotsDecode

/-- Decoding the encoding of a well-formed instruction gives it back, for the words of queue programs and for the words
of the scalar stream. -/
def Obligations.QueueAndScalarRoundTrip : Prop :=
  Sys2Proof.QueueWordsRoundTrip ∧ Sys2Proof.ScalarWordsRoundTrip

/-- The scalar compares and selects complete with the values their pages give. -/
def Obligations.ScalarCompareSelectResults : Prop :=
  Sys2Proof.ScalarCompareResults ∧ Sys2Proof.ScalarSelectAndMoveResults

/-- Scalar loads, stores and atomics complete with the values their pages give, and the atomic operations compute what
R112 lists. -/
def Obligations.ScalarMemoryResults : Prop :=
  Sys2Proof.ScalarLoadResults ∧ Sys2Proof.ScalarStoreResults ∧ Sys2Proof.ScalarAtomicResults ∧
    Sys2Proof.AtomicOperations

/-- The order in which an access is checked, and how a lane access is formed into units. -/
def Obligations.AccessChecksAndUnits : Prop :=
  Sys2Proof.AccessCheckOrder ∧ Sys2Proof.AccessUnitRules

/-- The scalar transfers complete, and each checks the target it goes to. -/
def Obligations.ScalarTransfers : Prop :=
  Sys2Proof.ScalarTransferResults ∧ Sys2Proof.TransferTargetChecks

/-- Block addresses and the time line, power requests, the checks of a written format, and every special register. -/
def Obligations.ScalarSystemResults : Prop :=
  Sys2Proof.LaneBlockAndTimelineWords ∧ Sys2Proof.PowerRequestResults ∧ Sys2Proof.FormatWriteChecks ∧
    Sys2Proof.SpecialRegisterAccess

/-- The words of barriers, phases, rings and waits, and what a waiting word waits for. -/
def Obligations.SynchronisationResults : Prop :=
  Sys2Proof.BarrierWordResults ∧ Sys2Proof.BarrierWaitResults ∧ Sys2Proof.RingWordResults

/-- FENCE waits for what its scope names, and completes. -/
def Obligations.FenceWordResults : Prop :=
  Sys2Proof.FenceResults ∧ Sys2Proof.FenceWaits

/-- The end of a group, the launch of children, and the join with them. -/
def Obligations.GroupLifeResults : Prop :=
  Sys2Proof.ExitEndsGroup ∧ Sys2Proof.SpawnResults ∧ Sys2Proof.JoinResults

/-- The words that give commands to the engines, and the commands they give. -/
def Obligations.EngineIssueResults : Prop :=
  Sys2Proof.EngineCommandsIssue ∧ Sys2Proof.RequestRecordWords

/-- Taking a trap: what is saved, where the group goes, what the words that trap on purpose save, and the cause word. -/
def Obligations.TrapEntryResults : Prop :=
  Sys2Proof.TrapEntry ∧ Sys2Proof.TrapWordResults ∧ Sys2Proof.TrapCauseWord

/-- The words of a handler: reading and writing a trapped group's state, resuming, killing and parking; and that they
trap outside a handler. -/
def Obligations.HandlerResults : Prop :=
  Sys2Proof.HandlerReadWrite ∧ Sys2Proof.HandlerResumeKillPark ∧ Sys2Proof.HandlerWordsElsewhere

/-- Lane integer and bitwise words complete with the values their pages give. -/
def Obligations.LaneIntegerAndBitResults : Prop :=
  Sys2Proof.LaneIntegerResults ∧ Sys2Proof.LaneBitwiseResults

/-- Lane predicate words and lane floating-point words complete with the values their pages give, special values
included. -/
def Obligations.LanePredicateAndFloatResults : Prop :=
  Sys2Proof.LanePredicateResults ∧ Sys2Proof.LaneFloatResults ∧ Sys2Proof.FloatSpecialValues

/-- Control transfer of the lane stream and regrouping. -/
def Obligations.LaneStreamControl : Prop :=
  Sys2Proof.LaneControlResults ∧ Sys2Proof.RegroupResults

/-- Lane accesses, lane atomics, fabric requests and tagged accesses issue as their pages say. -/
def Obligations.LaneMemoryIssue : Prop :=
  Sys2Proof.LaneAccessIssue ∧ Sys2Proof.LaneAtomicAndFabricIssue ∧ Sys2Proof.TaggedAccessResults

/-- The matrix words, and the commands of the matrix engine. -/
def Obligations.MatrixResults : Prop :=
  Sys2Proof.MatrixWordResults ∧ Sys2Proof.MatrixStepResults

/-- The memory words, the waits and the launches of a queue program. -/
def Obligations.QueueProgramResults : Prop :=
  Sys2Proof.QueueMemoryResults ∧ Sys2Proof.QueueWaitEnds ∧ Sys2Proof.QueueLaunchAndCall

/-- The kinds of packet that launch, control contexts and invalidate. -/
def Obligations.PacketResults : Prop :=
  Sys2Proof.PacketKindResults ∧ Sys2Proof.ContextKindResults ∧ Sys2Proof.InvalidationEnds

/-- How the device takes a packet and writes its completion entry. -/
def Obligations.PacketTakeAndCompletion : Prop :=
  Sys2Proof.PacketTakeResults ∧ Sys2Proof.CompletionEntryResults

/-- What the host does to the device: accesses of its memory and writes of its registers. -/
def Obligations.HostInterfaceResults : Prop :=
  Sys2Proof.HostAccessResults ∧ Sys2Proof.RegisterWriteResults

/-- A launch's dependence, the placement of its teams, and their retirement. -/
def Obligations.TeamLifeResults : Prop :=
  Sys2Proof.DependenceResults ∧ Sys2Proof.PlacementResults ∧ Sys2Proof.RetirementResults

/-- Parking a team and preempting a context. -/
def Obligations.ParkAndPreemption : Prop :=
  Sys2Proof.ParkResults ∧ Sys2Proof.PreemptionResults

/-- Waits and fences are released when what they wait for holds. -/
def Obligations.ReleaseResults : Prop :=
  Sys2Proof.WaitReleaseResults ∧ Sys2Proof.FenceReleaseResults

/-- Accesses are performed at their homes; completions and flushes. -/
def Obligations.MemorySystemResults : Prop :=
  Sys2Proof.AccessPerformedResults ∧ Sys2Proof.CompletionAndFlushResults

/-- The copy engine performs its units and completes its commands. -/
def Obligations.CopyEngineResults : Prop :=
  Sys2Proof.CopyUnitResults ∧ Sys2Proof.CopyCompletionResults

/-- The key-value engine performs its commands, its sends and its receptions. -/
def Obligations.KvEngineResults : Prop :=
  Sys2Proof.KvCommandResults ∧ Sys2Proof.KvSendCompletion ∧ Sys2Proof.KvSendReception

/-- Every form of the opcode table from the engine words on has its own effect, on states and operands that meet the
conditions the spec gives for it. -/
def Obligations.FormsComplete : Prop :=
  Sys2Proof.EngineFormsComplete ∧ Sys2Proof.ObjectFormsComplete ∧ Sys2Proof.ScalarFormsComplete ∧
    Sys2Proof.LaneFormsComplete ∧ Sys2Proof.LaneControlFormsComplete ∧ Sys2Proof.LaneMemoryFormsComplete ∧
    Sys2Proof.HostFormsComplete ∧ Sys2Proof.PacketFormsComplete ∧ Sys2Proof.TeamFormsComplete ∧
    Sys2Proof.GroupFormsComplete ∧ Sys2Proof.PlatformFormsComplete ∧ Sys2Proof.FabricFormsComplete

/-- What clocks, power and the platform's services do. -/
def Obligations.PlatformResults : Prop :=
  Sys2Proof.PlatformStepResults ∧ Sys2Proof.ServiceResults
end

