-- ==== Sys2Proof/Laws/Store.lean ====
section
/-! SUPPORT. Laws of the sparse stores: read after write, and that every write keeps the canonical form. -/

namespace Sys2Proof.Machine

theorem sget_sdel_same {w : Nat} (m : Store w) (a : Nat) : sget (sdel m a) a = 0 := by
  induction m with
  | nil => rfl
  | cons p m ih =>
    simp only [sdel]
    split
    · exact ih
    · rename_i h; simp [sget, h, ih]

theorem sget_sdel_other {w : Nat} (m : Store w) {a b : Nat} (h : b ≠ a) : sget (sdel m a) b = sget m b := by
  induction m with
  | nil => rfl
  | cons p m ih =>
    simp only [sdel, sget]
    split
    · rename_i h1; rw [ih]; simp [h1, Ne.symm h]
    · simp [sget, ih]

theorem sget_sins_same {w : Nat} (m : Store w) (a : Nat) (v : BitVec w) :
    sget (sins (sdel m a) a v) a = v := by
  induction m with
  | nil => simp [sdel, sins, sget]
  | cons p m ih =>
    simp only [sdel]
    split
    · exact ih
    · rename_i h
      simp only [sins]
      split
      · simp [sget]
      · simp [sget, h, ih]

theorem sget_sins_other {w : Nat} (m : Store w) {a b : Nat} (v : BitVec w) (h : b ≠ a) :
    sget (sins m a v) b = sget m b := by
  induction m with
  | nil => simp [sins, sget, Ne.symm h]
  | cons p m ih =>
    simp only [sins]
    split
    · simp [sget, Ne.symm h]
    · simp [sget, ih]

/-- Reading a key after writing it gives the value written. -/
@[simp] theorem sget_sset_same {w : Nat} (m : Store w) (a : Nat) (v : BitVec w) : sget (sset m a v) a = v := by
  unfold sset
  split
  · rename_i h; rw [sget_sdel_same]; exact h.symm
  · exact sget_sins_same m a v

/-- Writing a key leaves every other key alone. -/
theorem sget_sset_other {w : Nat} (m : Store w) {a b : Nat} (v : BitVec w) (h : b ≠ a) :
    sget (sset m a v) b = sget m b := by
  unfold sset
  split
  · exact sget_sdel_other m h
  · rw [sget_sins_other _ v h, sget_sdel_other m h]

theorem sget_sset {w : Nat} (m : Store w) (a b : Nat) (v : BitVec w) :
    sget (sset m a v) b = if b = a then v else sget m b := by
  split
  · rename_i h; rw [h, sget_sset_same]
  · rename_i h; exact sget_sset_other m v h

/-- A bound that a key exceeds. -/
def aboveBound : Option Nat → Nat → Bool
  | none, _ => true
  | some l, k => decide (l < k)

theorem wfAbove_cons {w : Nat} (lo : Option Nat) (k : Nat) (x : BitVec w) (m : Store w) :
    wfAbove lo ((k, x) :: m) = (aboveBound lo k && x != 0 && wfAbove (some k) m) := by
  cases lo <;> rfl

theorem wfAbove_weaken {w : Nat} {lo : Option Nat} {k : Nat} {m : Store w} (h : wfAbove (some k) m)
    (hk : aboveBound lo k) : wfAbove lo m := by
  cases m with
  | nil => rfl
  | cons p m =>
    obtain ⟨a, x⟩ := p
    rw [wfAbove_cons] at h ⊢
    simp only [Bool.and_eq_true] at h ⊢
    refine ⟨⟨?_, h.1.2⟩, h.2⟩
    cases lo with
    | none => rfl
    | some l =>
      simp only [aboveBound, decide_eq_true_eq] at *
      omega

theorem wfAbove_sdel {w : Nat} {m : Store w} (a : Nat) : ∀ {lo : Option Nat}, wfAbove lo m → wfAbove lo (sdel m a) := by
  induction m with
  | nil => intro lo _; rfl
  | cons p m ih =>
    obtain ⟨k, x⟩ := p
    intro lo h
    rw [wfAbove_cons] at h
    simp only [Bool.and_eq_true] at h
    simp only [sdel]
    split
    · exact ih (wfAbove_weaken h.2 h.1.1)
    · rw [wfAbove_cons]
      simp only [Bool.and_eq_true]
      exact ⟨h.1, ih h.2⟩

theorem wfAbove_sins {w : Nat} {m : Store w} (a : Nat) (v : BitVec w) (hv : v ≠ 0) :
    ∀ {lo : Option Nat}, wfAbove lo m → aboveBound lo a → (∀ p ∈ m, p.1 ≠ a) → wfAbove lo (sins m a v) := by
  induction m with
  | nil =>
    intro lo _ ha _
    simp only [sins]
    rw [wfAbove_cons]
    simp only [Bool.and_eq_true, bne_iff_ne]
    exact ⟨⟨ha, hv⟩, rfl⟩
  | cons p m ih =>
    obtain ⟨k, x⟩ := p
    intro lo h ha hne
    rw [wfAbove_cons] at h
    simp only [Bool.and_eq_true] at h
    simp only [sins]
    have hk : k ≠ a := hne (k, x) (by simp)
    split
    · rename_i hlt
      rw [wfAbove_cons, wfAbove_cons]
      simp only [Bool.and_eq_true, bne_iff_ne]
      refine ⟨⟨ha, hv⟩, ⟨?_, by simpa using h.1.2⟩, h.2⟩
      simp [aboveBound, hlt]
    · rename_i hlt
      rw [wfAbove_cons]
      simp only [Bool.and_eq_true]
      refine ⟨h.1, ih h.2 ?_ ?_⟩
      · simp [aboveBound]; omega
      · intro q hq; exact hne q (by simp [hq])

theorem mem_sdel_ne {w : Nat} {m : Store w} {a : Nat} : ∀ p ∈ sdel m a, p.1 ≠ a := by
  induction m with
  | nil => intro p hp; simp [sdel] at hp
  | cons q m ih =>
    obtain ⟨k, x⟩ := q
    intro p hp
    simp only [sdel] at hp
    split at hp
    · exact ih p hp
    · rename_i h
      rcases List.mem_cons.mp hp with rfl | hp
      · exact h
      · exact ih p hp

/-- Every write keeps the canonical form. -/
theorem swf_sset {w : Nat} {m : Store w} (h : swf m) (a : Nat) (v : BitVec w) : swf (sset m a v) := by
  unfold sset
  split
  · exact wfAbove_sdel a h
  · rename_i hv
    exact wfAbove_sins a v hv (wfAbove_sdel a h) rfl mem_sdel_ne

theorem wfAbove_filter {w : Nat} {m : Store w} (f : Nat × BitVec w → Bool) :
    ∀ {lo : Option Nat}, wfAbove lo m → wfAbove lo (m.filter f) := by
  induction m with
  | nil => intro lo _; rfl
  | cons p m ih =>
    obtain ⟨k, x⟩ := p
    intro lo h
    rw [wfAbove_cons] at h
    simp only [Bool.and_eq_true] at h
    rw [List.filter_cons]
    split
    · rw [wfAbove_cons]
      simp only [Bool.and_eq_true]
      exact ⟨h.1, ih h.2⟩
    · exact ih (wfAbove_weaken h.2 h.1.1)

/-- Clearing a range keeps the canonical form. -/
theorem swf_sclear {w : Nat} {m : Store w} (h : swf m) (lo n : Nat) : swf (sclear m lo n) :=
  wfAbove_filter _ h

/-- A write of several bytes keeps the canonical form. -/
theorem swf_ssetLE (n : Nat) : ∀ {m : Store 8} (_ : swf m) (a x : Nat), swf (ssetLE m a n x) := by
  induction n with
  | zero => intro m h a x; exact h
  | succ n ih => intro m h a x; exact ih (swf_sset h a _) (a + 1) (x / 256)

/-- A byte outside a written range reads as before. -/
theorem sget_ssetLE_other (n : Nat) : ∀ (m : Store 8) (a x b : Nat), (b < a ∨ a + n ≤ b) →
    sget (ssetLE m a n x) b = sget m b := by
  induction n with
  | zero => intro m a x b _; rfl
  | succ n ih =>
    intro m a x b h
    simp only [ssetLE]
    rw [ih _ _ _ _ (by omega), sget_sset_other _ _ (by omega)]

@[simp] theorem aget_aput_same {κ α : Type} [DecidableEq κ] (m : Assoc κ α) (a : κ) (v : α) :
    aget (aput m a v) a = some v := by
  induction m with
  | nil => simp [aput, aget]
  | cons p m ih =>
    obtain ⟨k, x⟩ := p
    simp only [aput]
    split
    · simp [aget]
    · rename_i h; simp [aget, h, ih]

theorem aget_aput_other {κ α : Type} [DecidableEq κ] (m : Assoc κ α) {a b : κ} (v : α) (h : b ≠ a) :
    aget (aput m a v) b = aget m b := by
  induction m with
  | nil => simp [aput, aget, Ne.symm h]
  | cons p m ih =>
    obtain ⟨k, x⟩ := p
    simp only [aput]
    split
    · rename_i hk; subst hk; simp [aget, Ne.symm h]
    · simp [aget, ih]

end Sys2Proof.Machine
end

