-- ==== Sys2Proof/Laws/State.lean ====
section
/-! SUPPORT. Laws of the state's fields: what each replacement of a part changes and leaves, by field; what a part
reads as after it; the registers of the scalar side. -/

namespace Sys2Proof.Machine

variable (s : State)

/-! `State.setCore` -/

@[simp] theorem setCore_agenda (n : Nat) (x : Core) : (s.setCore n x).agenda = s.agenda := rfl
@[simp] theorem setCore_choices (n : Nat) (x : Core) : (s.setCore n x).choices = s.choices := rfl
@[simp] theorem setCore_tick (n : Nat) (x : Core) : (s.setCore n x).tick = s.tick := rfl
@[simp] theorem setCore_cur (n : Nat) (x : Core) : (s.setCore n x).cur = s.cur := rfl
@[simp] theorem setCore_clock (n : Nat) (x : Core) : (s.setCore n x).clock = s.clock := rfl
@[simp] theorem setCore_endpointUp (n : Nat) (x : Core) : (s.setCore n x).endpointUp = s.endpointUp := rfl
@[simp] theorem setCore_inReset (n : Nat) (x : Core) : (s.setCore n x).inReset = s.inReset := rfl
@[simp] theorem setCore_fatal (n : Nat) (x : Core) : (s.setCore n x).fatal = s.fatal := rfl
@[simp] theorem setCore_mem (n : Nat) (x : Core) : (s.setCore n x).mem = s.mem := rfl
@[simp] theorem setCore_hostMem (n : Nat) (x : Core) : (s.setCore n x).hostMem = s.hostMem := rfl
@[simp] theorem setCore_poison (n : Nat) (x : Core) : (s.setCore n x).poison = s.poison := rfl
@[simp] theorem setCore_leases (n : Nat) (x : Core) : (s.setCore n x).leases = s.leases := rfl
@[simp] theorem setCore_l1 (n : Nat) (x : Core) : (s.setCore n x).l1 = s.l1 := rfl
@[simp] theorem setCore_rdc (n : Nat) (x : Core) : (s.setCore n x).rdc = s.rdc := rfl
@[simp] theorem setCore_excl (n : Nat) (x : Core) : (s.setCore n x).excl = s.excl := rfl
@[simp] theorem setCore_upart (n : Nat) (x : Core) : (s.setCore n x).upart = s.upart := rfl
@[simp] theorem setCore_remoteHolders (n : Nat) (x : Core) : (s.setCore n x).remoteHolders = s.remoteHolders := rfl
@[simp] theorem setCore_accepted (n : Nat) (x : Core) : (s.setCore n x).accepted = s.accepted := rfl
@[simp] theorem setCore_tlb (n : Nat) (x : Core) : (s.setCore n x).tlb = s.tlb := rfl
@[simp] theorem setCore_invals (n : Nat) (x : Core) : (s.setCore n x).invals = s.invals := rfl
@[simp] theorem setCore_migrations (n : Nat) (x : Core) : (s.setCore n x).migrations = s.migrations := rfl
@[simp] theorem setCore_frameOwner (n : Nat) (x : Core) : (s.setCore n x).frameOwner = s.frameOwner := rfl
@[simp] theorem setCore_sends (n : Nat) (x : Core) : (s.setCore n x).sends = s.sends := rfl
@[simp] theorem setCore_ctxs (n : Nat) (x : Core) : (s.setCore n x).ctxs = s.ctxs := rfl
@[simp] theorem setCore_teams (n : Nat) (x : Core) : (s.setCore n x).teams = s.teams := rfl
@[simp] theorem setCore_groups (n : Nat) (x : Core) : (s.setCore n x).groups = s.groups := rfl
@[simp] theorem setCore_grids (n : Nat) (x : Core) : (s.setCore n x).grids = s.grids := rfl
@[simp] theorem setCore_reservation (n : Nat) (x : Core) : (s.setCore n x).reservation = s.reservation := rfl
@[simp] theorem setCore_kernels (n : Nat) (x : Core) : (s.setCore n x).kernels = s.kernels := rfl
@[simp] theorem setCore_firn (n : Nat) (x : Core) : (s.setCore n x).firn = s.firn := rfl
@[simp] theorem setCore_builds (n : Nat) (x : Core) : (s.setCore n x).builds = s.builds := rfl
@[simp] theorem setCore_nextFirn (n : Nat) (x : Core) : (s.setCore n x).nextFirn = s.nextFirn := rfl
@[simp] theorem setCore_queues (n : Nat) (x : Core) : (s.setCore n x).queues = s.queues := rfl
@[simp] theorem setCore_owners (n : Nat) (x : Core) : (s.setCore n x).owners = s.owners := rfl
@[simp] theorem setCore_ctl (n : Nat) (x : Core) : (s.setCore n x).ctl = s.ctl := rfl
@[simp] theorem setCore_thresholds (n : Nat) (x : Core) : (s.setCore n x).thresholds = s.thresholds := rfl
@[simp] theorem setCore_testPeriods (n : Nat) (x : Core) : (s.setCore n x).testPeriods = s.testPeriods := rfl
@[simp] theorem setCore_obs (n : Nat) (x : Core) : (s.setCore n x).obs = s.obs := rfl
@[simp] theorem setCore_saved (n : Nat) (x : Core) : (s.setCore n x).saved = s.saved := rfl
@[simp] theorem setCore_weights (n : Nat) (x : Core) : (s.setCore n x).weights = s.weights := rfl
@[simp] theorem setCore_weightsNow (n : Nat) (x : Core) : (s.setCore n x).weightsNow = s.weightsNow := rfl
@[simp] theorem setCore_bankSel (n : Nat) (x : Core) : (s.setCore n x).bankSel = s.bankSel := rfl
@[simp] theorem setCore_banks (n : Nat) (x : Core) : (s.setCore n x).banks = s.banks := rfl
@[simp] theorem setCore_msgs (n : Nat) (x : Core) : (s.setCore n x).msgs = s.msgs := rfl
@[simp] theorem setCore_nextCodeId (n : Nat) (x : Core) : (s.setCore n x).nextCodeId = s.nextCodeId := rfl
@[simp] theorem setCore_insts (n : Nat) (x : Core) : (s.setCore n x).insts = s.insts := rfl
@[simp] theorem setCore_recs (n : Nat) (x : Core) : (s.setCore n x).recs = s.recs := rfl
@[simp] theorem setCore_pools (n : Nat) (x : Core) : (s.setCore n x).pools = s.pools := rfl
@[simp] theorem setCore_fabTags (n : Nat) (x : Core) : (s.setCore n x).fabTags = s.fabTags := rfl
@[simp] theorem setCore_fabSeq (n : Nat) (x : Core) : (s.setCore n x).fabSeq = s.fabSeq := rfl
@[simp] theorem setCore_fabIn (n : Nat) (x : Core) : (s.setCore n x).fabIn = s.fabIn := rfl
@[simp] theorem setCore_kept (n : Nat) (x : Core) : (s.setCore n x).kept = s.kept := rfl
@[simp] theorem setCore_fabOut (n : Nat) (x : Core) : (s.setCore n x).fabOut = s.fabOut := rfl
@[simp] theorem setCore_lost (n : Nat) (x : Core) : (s.setCore n x).lost = s.lost := rfl
@[simp] theorem setCore_unreachable (n : Nat) (x : Core) : (s.setCore n x).unreachable = s.unreachable := rfl
@[simp] theorem setCore_portsDown (n : Nat) (x : Core) : (s.setCore n x).portsDown = s.portsDown := rfl
@[simp] theorem setCore_deltas (n : Nat) (x : Core) : (s.setCore n x).deltas = s.deltas := rfl
@[simp] theorem setCore_colls (n : Nat) (x : Core) : (s.setCore n x).colls = s.colls := rfl
@[simp] theorem setCore_rebuilds (n : Nat) (x : Core) : (s.setCore n x).rebuilds = s.rebuilds := rfl
@[simp] theorem setCore_checkpoints (n : Nat) (x : Core) : (s.setCore n x).checkpoints = s.checkpoints := rfl
@[simp] theorem setCore_vault (n : Nat) (x : Core) : (s.setCore n x).vault = s.vault := rfl
@[simp] theorem setCore_powerAsks (n : Nat) (x : Core) : (s.setCore n x).powerAsks = s.powerAsks := rfl
@[simp] theorem setCore_secVersion (n : Nat) (x : Core) : (s.setCore n x).secVersion = s.secVersion := rfl
@[simp] theorem setCore_image (n : Nat) (x : Core) : (s.setCore n x).image = s.image := rfl
@[simp] theorem setCore_chanDown (n : Nat) (x : Core) : (s.setCore n x).chanDown = s.chanDown := rfl
@[simp] theorem setCore_code (n : Nat) (x : Core) : (s.setCore n x).code = s.code := rfl
@[simp] theorem setCore_icache (n : Nat) (x : Core) : (s.setCore n x).icache = s.icache := rfl
@[simp] theorem setCore_holds (n : Nat) (x : Core) : (s.setCore n x).holds = s.holds := rfl

/-! `State.setGroup` -/

@[simp] theorem setGroup_agenda (g : GRef) (x : Group) : (s.setGroup g x).agenda = s.agenda := rfl
@[simp] theorem setGroup_choices (g : GRef) (x : Group) : (s.setGroup g x).choices = s.choices := rfl
@[simp] theorem setGroup_tick (g : GRef) (x : Group) : (s.setGroup g x).tick = s.tick := rfl
@[simp] theorem setGroup_cur (g : GRef) (x : Group) : (s.setGroup g x).cur = s.cur := rfl
@[simp] theorem setGroup_clock (g : GRef) (x : Group) : (s.setGroup g x).clock = s.clock := rfl
@[simp] theorem setGroup_endpointUp (g : GRef) (x : Group) : (s.setGroup g x).endpointUp = s.endpointUp := rfl
@[simp] theorem setGroup_inReset (g : GRef) (x : Group) : (s.setGroup g x).inReset = s.inReset := rfl
@[simp] theorem setGroup_fatal (g : GRef) (x : Group) : (s.setGroup g x).fatal = s.fatal := rfl
@[simp] theorem setGroup_mem (g : GRef) (x : Group) : (s.setGroup g x).mem = s.mem := rfl
@[simp] theorem setGroup_hostMem (g : GRef) (x : Group) : (s.setGroup g x).hostMem = s.hostMem := rfl
@[simp] theorem setGroup_poison (g : GRef) (x : Group) : (s.setGroup g x).poison = s.poison := rfl
@[simp] theorem setGroup_leases (g : GRef) (x : Group) : (s.setGroup g x).leases = s.leases := rfl
@[simp] theorem setGroup_l1 (g : GRef) (x : Group) : (s.setGroup g x).l1 = s.l1 := rfl
@[simp] theorem setGroup_rdc (g : GRef) (x : Group) : (s.setGroup g x).rdc = s.rdc := rfl
@[simp] theorem setGroup_excl (g : GRef) (x : Group) : (s.setGroup g x).excl = s.excl := rfl
@[simp] theorem setGroup_upart (g : GRef) (x : Group) : (s.setGroup g x).upart = s.upart := rfl
@[simp] theorem setGroup_remoteHolders (g : GRef) (x : Group) : (s.setGroup g x).remoteHolders = s.remoteHolders := rfl
@[simp] theorem setGroup_accepted (g : GRef) (x : Group) : (s.setGroup g x).accepted = s.accepted := rfl
@[simp] theorem setGroup_tlb (g : GRef) (x : Group) : (s.setGroup g x).tlb = s.tlb := rfl
@[simp] theorem setGroup_invals (g : GRef) (x : Group) : (s.setGroup g x).invals = s.invals := rfl
@[simp] theorem setGroup_migrations (g : GRef) (x : Group) : (s.setGroup g x).migrations = s.migrations := rfl
@[simp] theorem setGroup_frameOwner (g : GRef) (x : Group) : (s.setGroup g x).frameOwner = s.frameOwner := rfl
@[simp] theorem setGroup_sends (g : GRef) (x : Group) : (s.setGroup g x).sends = s.sends := rfl
@[simp] theorem setGroup_ctxs (g : GRef) (x : Group) : (s.setGroup g x).ctxs = s.ctxs := rfl
@[simp] theorem setGroup_cores (g : GRef) (x : Group) : (s.setGroup g x).cores = s.cores := rfl
@[simp] theorem setGroup_teams (g : GRef) (x : Group) : (s.setGroup g x).teams = s.teams := rfl
@[simp] theorem setGroup_grids (g : GRef) (x : Group) : (s.setGroup g x).grids = s.grids := rfl
@[simp] theorem setGroup_reservation (g : GRef) (x : Group) : (s.setGroup g x).reservation = s.reservation := rfl
@[simp] theorem setGroup_kernels (g : GRef) (x : Group) : (s.setGroup g x).kernels = s.kernels := rfl
@[simp] theorem setGroup_firn (g : GRef) (x : Group) : (s.setGroup g x).firn = s.firn := rfl
@[simp] theorem setGroup_builds (g : GRef) (x : Group) : (s.setGroup g x).builds = s.builds := rfl
@[simp] theorem setGroup_nextFirn (g : GRef) (x : Group) : (s.setGroup g x).nextFirn = s.nextFirn := rfl
@[simp] theorem setGroup_queues (g : GRef) (x : Group) : (s.setGroup g x).queues = s.queues := rfl
@[simp] theorem setGroup_owners (g : GRef) (x : Group) : (s.setGroup g x).owners = s.owners := rfl
@[simp] theorem setGroup_ctl (g : GRef) (x : Group) : (s.setGroup g x).ctl = s.ctl := rfl
@[simp] theorem setGroup_thresholds (g : GRef) (x : Group) : (s.setGroup g x).thresholds = s.thresholds := rfl
@[simp] theorem setGroup_testPeriods (g : GRef) (x : Group) : (s.setGroup g x).testPeriods = s.testPeriods := rfl
@[simp] theorem setGroup_obs (g : GRef) (x : Group) : (s.setGroup g x).obs = s.obs := rfl
@[simp] theorem setGroup_saved (g : GRef) (x : Group) : (s.setGroup g x).saved = s.saved := rfl
@[simp] theorem setGroup_weights (g : GRef) (x : Group) : (s.setGroup g x).weights = s.weights := rfl
@[simp] theorem setGroup_weightsNow (g : GRef) (x : Group) : (s.setGroup g x).weightsNow = s.weightsNow := rfl
@[simp] theorem setGroup_bankSel (g : GRef) (x : Group) : (s.setGroup g x).bankSel = s.bankSel := rfl
@[simp] theorem setGroup_banks (g : GRef) (x : Group) : (s.setGroup g x).banks = s.banks := rfl
@[simp] theorem setGroup_msgs (g : GRef) (x : Group) : (s.setGroup g x).msgs = s.msgs := rfl
@[simp] theorem setGroup_nextCodeId (g : GRef) (x : Group) : (s.setGroup g x).nextCodeId = s.nextCodeId := rfl
@[simp] theorem setGroup_insts (g : GRef) (x : Group) : (s.setGroup g x).insts = s.insts := rfl
@[simp] theorem setGroup_recs (g : GRef) (x : Group) : (s.setGroup g x).recs = s.recs := rfl
@[simp] theorem setGroup_pools (g : GRef) (x : Group) : (s.setGroup g x).pools = s.pools := rfl
@[simp] theorem setGroup_fabTags (g : GRef) (x : Group) : (s.setGroup g x).fabTags = s.fabTags := rfl
@[simp] theorem setGroup_fabSeq (g : GRef) (x : Group) : (s.setGroup g x).fabSeq = s.fabSeq := rfl
@[simp] theorem setGroup_fabIn (g : GRef) (x : Group) : (s.setGroup g x).fabIn = s.fabIn := rfl
@[simp] theorem setGroup_kept (g : GRef) (x : Group) : (s.setGroup g x).kept = s.kept := rfl
@[simp] theorem setGroup_fabOut (g : GRef) (x : Group) : (s.setGroup g x).fabOut = s.fabOut := rfl
@[simp] theorem setGroup_lost (g : GRef) (x : Group) : (s.setGroup g x).lost = s.lost := rfl
@[simp] theorem setGroup_unreachable (g : GRef) (x : Group) : (s.setGroup g x).unreachable = s.unreachable := rfl
@[simp] theorem setGroup_portsDown (g : GRef) (x : Group) : (s.setGroup g x).portsDown = s.portsDown := rfl
@[simp] theorem setGroup_deltas (g : GRef) (x : Group) : (s.setGroup g x).deltas = s.deltas := rfl
@[simp] theorem setGroup_colls (g : GRef) (x : Group) : (s.setGroup g x).colls = s.colls := rfl
@[simp] theorem setGroup_rebuilds (g : GRef) (x : Group) : (s.setGroup g x).rebuilds = s.rebuilds := rfl
@[simp] theorem setGroup_checkpoints (g : GRef) (x : Group) : (s.setGroup g x).checkpoints = s.checkpoints := rfl
@[simp] theorem setGroup_vault (g : GRef) (x : Group) : (s.setGroup g x).vault = s.vault := rfl
@[simp] theorem setGroup_powerAsks (g : GRef) (x : Group) : (s.setGroup g x).powerAsks = s.powerAsks := rfl
@[simp] theorem setGroup_secVersion (g : GRef) (x : Group) : (s.setGroup g x).secVersion = s.secVersion := rfl
@[simp] theorem setGroup_image (g : GRef) (x : Group) : (s.setGroup g x).image = s.image := rfl
@[simp] theorem setGroup_chanDown (g : GRef) (x : Group) : (s.setGroup g x).chanDown = s.chanDown := rfl
@[simp] theorem setGroup_code (g : GRef) (x : Group) : (s.setGroup g x).code = s.code := rfl
@[simp] theorem setGroup_icache (g : GRef) (x : Group) : (s.setGroup g x).icache = s.icache := rfl
@[simp] theorem setGroup_holds (g : GRef) (x : Group) : (s.setGroup g x).holds = s.holds := rfl

/-! `State.setTeam` -/

@[simp] theorem setTeam_agenda (t : TRef) (x : Team) : (s.setTeam t x).agenda = s.agenda := rfl
@[simp] theorem setTeam_choices (t : TRef) (x : Team) : (s.setTeam t x).choices = s.choices := rfl
@[simp] theorem setTeam_tick (t : TRef) (x : Team) : (s.setTeam t x).tick = s.tick := rfl
@[simp] theorem setTeam_cur (t : TRef) (x : Team) : (s.setTeam t x).cur = s.cur := rfl
@[simp] theorem setTeam_clock (t : TRef) (x : Team) : (s.setTeam t x).clock = s.clock := rfl
@[simp] theorem setTeam_endpointUp (t : TRef) (x : Team) : (s.setTeam t x).endpointUp = s.endpointUp := rfl
@[simp] theorem setTeam_inReset (t : TRef) (x : Team) : (s.setTeam t x).inReset = s.inReset := rfl
@[simp] theorem setTeam_fatal (t : TRef) (x : Team) : (s.setTeam t x).fatal = s.fatal := rfl
@[simp] theorem setTeam_mem (t : TRef) (x : Team) : (s.setTeam t x).mem = s.mem := rfl
@[simp] theorem setTeam_hostMem (t : TRef) (x : Team) : (s.setTeam t x).hostMem = s.hostMem := rfl
@[simp] theorem setTeam_poison (t : TRef) (x : Team) : (s.setTeam t x).poison = s.poison := rfl
@[simp] theorem setTeam_leases (t : TRef) (x : Team) : (s.setTeam t x).leases = s.leases := rfl
@[simp] theorem setTeam_l1 (t : TRef) (x : Team) : (s.setTeam t x).l1 = s.l1 := rfl
@[simp] theorem setTeam_rdc (t : TRef) (x : Team) : (s.setTeam t x).rdc = s.rdc := rfl
@[simp] theorem setTeam_excl (t : TRef) (x : Team) : (s.setTeam t x).excl = s.excl := rfl
@[simp] theorem setTeam_upart (t : TRef) (x : Team) : (s.setTeam t x).upart = s.upart := rfl
@[simp] theorem setTeam_remoteHolders (t : TRef) (x : Team) : (s.setTeam t x).remoteHolders = s.remoteHolders := rfl
@[simp] theorem setTeam_accepted (t : TRef) (x : Team) : (s.setTeam t x).accepted = s.accepted := rfl
@[simp] theorem setTeam_tlb (t : TRef) (x : Team) : (s.setTeam t x).tlb = s.tlb := rfl
@[simp] theorem setTeam_invals (t : TRef) (x : Team) : (s.setTeam t x).invals = s.invals := rfl
@[simp] theorem setTeam_migrations (t : TRef) (x : Team) : (s.setTeam t x).migrations = s.migrations := rfl
@[simp] theorem setTeam_frameOwner (t : TRef) (x : Team) : (s.setTeam t x).frameOwner = s.frameOwner := rfl
@[simp] theorem setTeam_sends (t : TRef) (x : Team) : (s.setTeam t x).sends = s.sends := rfl
@[simp] theorem setTeam_ctxs (t : TRef) (x : Team) : (s.setTeam t x).ctxs = s.ctxs := rfl
@[simp] theorem setTeam_cores (t : TRef) (x : Team) : (s.setTeam t x).cores = s.cores := rfl
@[simp] theorem setTeam_groups (t : TRef) (x : Team) : (s.setTeam t x).groups = s.groups := rfl
@[simp] theorem setTeam_grids (t : TRef) (x : Team) : (s.setTeam t x).grids = s.grids := rfl
@[simp] theorem setTeam_reservation (t : TRef) (x : Team) : (s.setTeam t x).reservation = s.reservation := rfl
@[simp] theorem setTeam_kernels (t : TRef) (x : Team) : (s.setTeam t x).kernels = s.kernels := rfl
@[simp] theorem setTeam_firn (t : TRef) (x : Team) : (s.setTeam t x).firn = s.firn := rfl
@[simp] theorem setTeam_builds (t : TRef) (x : Team) : (s.setTeam t x).builds = s.builds := rfl
@[simp] theorem setTeam_nextFirn (t : TRef) (x : Team) : (s.setTeam t x).nextFirn = s.nextFirn := rfl
@[simp] theorem setTeam_queues (t : TRef) (x : Team) : (s.setTeam t x).queues = s.queues := rfl
@[simp] theorem setTeam_owners (t : TRef) (x : Team) : (s.setTeam t x).owners = s.owners := rfl
@[simp] theorem setTeam_ctl (t : TRef) (x : Team) : (s.setTeam t x).ctl = s.ctl := rfl
@[simp] theorem setTeam_thresholds (t : TRef) (x : Team) : (s.setTeam t x).thresholds = s.thresholds := rfl
@[simp] theorem setTeam_testPeriods (t : TRef) (x : Team) : (s.setTeam t x).testPeriods = s.testPeriods := rfl
@[simp] theorem setTeam_obs (t : TRef) (x : Team) : (s.setTeam t x).obs = s.obs := rfl
@[simp] theorem setTeam_saved (t : TRef) (x : Team) : (s.setTeam t x).saved = s.saved := rfl
@[simp] theorem setTeam_weights (t : TRef) (x : Team) : (s.setTeam t x).weights = s.weights := rfl
@[simp] theorem setTeam_weightsNow (t : TRef) (x : Team) : (s.setTeam t x).weightsNow = s.weightsNow := rfl
@[simp] theorem setTeam_bankSel (t : TRef) (x : Team) : (s.setTeam t x).bankSel = s.bankSel := rfl
@[simp] theorem setTeam_banks (t : TRef) (x : Team) : (s.setTeam t x).banks = s.banks := rfl
@[simp] theorem setTeam_msgs (t : TRef) (x : Team) : (s.setTeam t x).msgs = s.msgs := rfl
@[simp] theorem setTeam_nextCodeId (t : TRef) (x : Team) : (s.setTeam t x).nextCodeId = s.nextCodeId := rfl
@[simp] theorem setTeam_insts (t : TRef) (x : Team) : (s.setTeam t x).insts = s.insts := rfl
@[simp] theorem setTeam_recs (t : TRef) (x : Team) : (s.setTeam t x).recs = s.recs := rfl
@[simp] theorem setTeam_pools (t : TRef) (x : Team) : (s.setTeam t x).pools = s.pools := rfl
@[simp] theorem setTeam_fabTags (t : TRef) (x : Team) : (s.setTeam t x).fabTags = s.fabTags := rfl
@[simp] theorem setTeam_fabSeq (t : TRef) (x : Team) : (s.setTeam t x).fabSeq = s.fabSeq := rfl
@[simp] theorem setTeam_fabIn (t : TRef) (x : Team) : (s.setTeam t x).fabIn = s.fabIn := rfl
@[simp] theorem setTeam_kept (t : TRef) (x : Team) : (s.setTeam t x).kept = s.kept := rfl
@[simp] theorem setTeam_fabOut (t : TRef) (x : Team) : (s.setTeam t x).fabOut = s.fabOut := rfl
@[simp] theorem setTeam_lost (t : TRef) (x : Team) : (s.setTeam t x).lost = s.lost := rfl
@[simp] theorem setTeam_unreachable (t : TRef) (x : Team) : (s.setTeam t x).unreachable = s.unreachable := rfl
@[simp] theorem setTeam_portsDown (t : TRef) (x : Team) : (s.setTeam t x).portsDown = s.portsDown := rfl
@[simp] theorem setTeam_deltas (t : TRef) (x : Team) : (s.setTeam t x).deltas = s.deltas := rfl
@[simp] theorem setTeam_colls (t : TRef) (x : Team) : (s.setTeam t x).colls = s.colls := rfl
@[simp] theorem setTeam_rebuilds (t : TRef) (x : Team) : (s.setTeam t x).rebuilds = s.rebuilds := rfl
@[simp] theorem setTeam_checkpoints (t : TRef) (x : Team) : (s.setTeam t x).checkpoints = s.checkpoints := rfl
@[simp] theorem setTeam_vault (t : TRef) (x : Team) : (s.setTeam t x).vault = s.vault := rfl
@[simp] theorem setTeam_powerAsks (t : TRef) (x : Team) : (s.setTeam t x).powerAsks = s.powerAsks := rfl
@[simp] theorem setTeam_secVersion (t : TRef) (x : Team) : (s.setTeam t x).secVersion = s.secVersion := rfl
@[simp] theorem setTeam_image (t : TRef) (x : Team) : (s.setTeam t x).image = s.image := rfl
@[simp] theorem setTeam_chanDown (t : TRef) (x : Team) : (s.setTeam t x).chanDown = s.chanDown := rfl
@[simp] theorem setTeam_code (t : TRef) (x : Team) : (s.setTeam t x).code = s.code := rfl
@[simp] theorem setTeam_icache (t : TRef) (x : Team) : (s.setTeam t x).icache = s.icache := rfl
@[simp] theorem setTeam_holds (t : TRef) (x : Team) : (s.setTeam t x).holds = s.holds := rfl

/-! `State.setCtx` -/

@[simp] theorem setCtx_agenda (c : Nat) (x : Ctx) : (s.setCtx c x).agenda = s.agenda := rfl
@[simp] theorem setCtx_choices (c : Nat) (x : Ctx) : (s.setCtx c x).choices = s.choices := rfl
@[simp] theorem setCtx_tick (c : Nat) (x : Ctx) : (s.setCtx c x).tick = s.tick := rfl
@[simp] theorem setCtx_cur (c : Nat) (x : Ctx) : (s.setCtx c x).cur = s.cur := rfl
@[simp] theorem setCtx_clock (c : Nat) (x : Ctx) : (s.setCtx c x).clock = s.clock := rfl
@[simp] theorem setCtx_endpointUp (c : Nat) (x : Ctx) : (s.setCtx c x).endpointUp = s.endpointUp := rfl
@[simp] theorem setCtx_inReset (c : Nat) (x : Ctx) : (s.setCtx c x).inReset = s.inReset := rfl
@[simp] theorem setCtx_fatal (c : Nat) (x : Ctx) : (s.setCtx c x).fatal = s.fatal := rfl
@[simp] theorem setCtx_mem (c : Nat) (x : Ctx) : (s.setCtx c x).mem = s.mem := rfl
@[simp] theorem setCtx_hostMem (c : Nat) (x : Ctx) : (s.setCtx c x).hostMem = s.hostMem := rfl
@[simp] theorem setCtx_poison (c : Nat) (x : Ctx) : (s.setCtx c x).poison = s.poison := rfl
@[simp] theorem setCtx_leases (c : Nat) (x : Ctx) : (s.setCtx c x).leases = s.leases := rfl
@[simp] theorem setCtx_l1 (c : Nat) (x : Ctx) : (s.setCtx c x).l1 = s.l1 := rfl
@[simp] theorem setCtx_rdc (c : Nat) (x : Ctx) : (s.setCtx c x).rdc = s.rdc := rfl
@[simp] theorem setCtx_excl (c : Nat) (x : Ctx) : (s.setCtx c x).excl = s.excl := rfl
@[simp] theorem setCtx_upart (c : Nat) (x : Ctx) : (s.setCtx c x).upart = s.upart := rfl
@[simp] theorem setCtx_remoteHolders (c : Nat) (x : Ctx) : (s.setCtx c x).remoteHolders = s.remoteHolders := rfl
@[simp] theorem setCtx_accepted (c : Nat) (x : Ctx) : (s.setCtx c x).accepted = s.accepted := rfl
@[simp] theorem setCtx_tlb (c : Nat) (x : Ctx) : (s.setCtx c x).tlb = s.tlb := rfl
@[simp] theorem setCtx_invals (c : Nat) (x : Ctx) : (s.setCtx c x).invals = s.invals := rfl
@[simp] theorem setCtx_migrations (c : Nat) (x : Ctx) : (s.setCtx c x).migrations = s.migrations := rfl
@[simp] theorem setCtx_frameOwner (c : Nat) (x : Ctx) : (s.setCtx c x).frameOwner = s.frameOwner := rfl
@[simp] theorem setCtx_sends (c : Nat) (x : Ctx) : (s.setCtx c x).sends = s.sends := rfl
@[simp] theorem setCtx_cores (c : Nat) (x : Ctx) : (s.setCtx c x).cores = s.cores := rfl
@[simp] theorem setCtx_teams (c : Nat) (x : Ctx) : (s.setCtx c x).teams = s.teams := rfl
@[simp] theorem setCtx_groups (c : Nat) (x : Ctx) : (s.setCtx c x).groups = s.groups := rfl
@[simp] theorem setCtx_grids (c : Nat) (x : Ctx) : (s.setCtx c x).grids = s.grids := rfl
@[simp] theorem setCtx_reservation (c : Nat) (x : Ctx) : (s.setCtx c x).reservation = s.reservation := rfl
@[simp] theorem setCtx_kernels (c : Nat) (x : Ctx) : (s.setCtx c x).kernels = s.kernels := rfl
@[simp] theorem setCtx_firn (c : Nat) (x : Ctx) : (s.setCtx c x).firn = s.firn := rfl
@[simp] theorem setCtx_builds (c : Nat) (x : Ctx) : (s.setCtx c x).builds = s.builds := rfl
@[simp] theorem setCtx_nextFirn (c : Nat) (x : Ctx) : (s.setCtx c x).nextFirn = s.nextFirn := rfl
@[simp] theorem setCtx_queues (c : Nat) (x : Ctx) : (s.setCtx c x).queues = s.queues := rfl
@[simp] theorem setCtx_owners (c : Nat) (x : Ctx) : (s.setCtx c x).owners = s.owners := rfl
@[simp] theorem setCtx_ctl (c : Nat) (x : Ctx) : (s.setCtx c x).ctl = s.ctl := rfl
@[simp] theorem setCtx_thresholds (c : Nat) (x : Ctx) : (s.setCtx c x).thresholds = s.thresholds := rfl
@[simp] theorem setCtx_testPeriods (c : Nat) (x : Ctx) : (s.setCtx c x).testPeriods = s.testPeriods := rfl
@[simp] theorem setCtx_obs (c : Nat) (x : Ctx) : (s.setCtx c x).obs = s.obs := rfl
@[simp] theorem setCtx_saved (c : Nat) (x : Ctx) : (s.setCtx c x).saved = s.saved := rfl
@[simp] theorem setCtx_weights (c : Nat) (x : Ctx) : (s.setCtx c x).weights = s.weights := rfl
@[simp] theorem setCtx_weightsNow (c : Nat) (x : Ctx) : (s.setCtx c x).weightsNow = s.weightsNow := rfl
@[simp] theorem setCtx_bankSel (c : Nat) (x : Ctx) : (s.setCtx c x).bankSel = s.bankSel := rfl
@[simp] theorem setCtx_banks (c : Nat) (x : Ctx) : (s.setCtx c x).banks = s.banks := rfl
@[simp] theorem setCtx_msgs (c : Nat) (x : Ctx) : (s.setCtx c x).msgs = s.msgs := rfl
@[simp] theorem setCtx_nextCodeId (c : Nat) (x : Ctx) : (s.setCtx c x).nextCodeId = s.nextCodeId := rfl
@[simp] theorem setCtx_insts (c : Nat) (x : Ctx) : (s.setCtx c x).insts = s.insts := rfl
@[simp] theorem setCtx_recs (c : Nat) (x : Ctx) : (s.setCtx c x).recs = s.recs := rfl
@[simp] theorem setCtx_pools (c : Nat) (x : Ctx) : (s.setCtx c x).pools = s.pools := rfl
@[simp] theorem setCtx_fabTags (c : Nat) (x : Ctx) : (s.setCtx c x).fabTags = s.fabTags := rfl
@[simp] theorem setCtx_fabSeq (c : Nat) (x : Ctx) : (s.setCtx c x).fabSeq = s.fabSeq := rfl
@[simp] theorem setCtx_fabIn (c : Nat) (x : Ctx) : (s.setCtx c x).fabIn = s.fabIn := rfl
@[simp] theorem setCtx_kept (c : Nat) (x : Ctx) : (s.setCtx c x).kept = s.kept := rfl
@[simp] theorem setCtx_fabOut (c : Nat) (x : Ctx) : (s.setCtx c x).fabOut = s.fabOut := rfl
@[simp] theorem setCtx_lost (c : Nat) (x : Ctx) : (s.setCtx c x).lost = s.lost := rfl
@[simp] theorem setCtx_unreachable (c : Nat) (x : Ctx) : (s.setCtx c x).unreachable = s.unreachable := rfl
@[simp] theorem setCtx_portsDown (c : Nat) (x : Ctx) : (s.setCtx c x).portsDown = s.portsDown := rfl
@[simp] theorem setCtx_deltas (c : Nat) (x : Ctx) : (s.setCtx c x).deltas = s.deltas := rfl
@[simp] theorem setCtx_colls (c : Nat) (x : Ctx) : (s.setCtx c x).colls = s.colls := rfl
@[simp] theorem setCtx_rebuilds (c : Nat) (x : Ctx) : (s.setCtx c x).rebuilds = s.rebuilds := rfl
@[simp] theorem setCtx_checkpoints (c : Nat) (x : Ctx) : (s.setCtx c x).checkpoints = s.checkpoints := rfl
@[simp] theorem setCtx_vault (c : Nat) (x : Ctx) : (s.setCtx c x).vault = s.vault := rfl
@[simp] theorem setCtx_powerAsks (c : Nat) (x : Ctx) : (s.setCtx c x).powerAsks = s.powerAsks := rfl
@[simp] theorem setCtx_secVersion (c : Nat) (x : Ctx) : (s.setCtx c x).secVersion = s.secVersion := rfl
@[simp] theorem setCtx_image (c : Nat) (x : Ctx) : (s.setCtx c x).image = s.image := rfl
@[simp] theorem setCtx_chanDown (c : Nat) (x : Ctx) : (s.setCtx c x).chanDown = s.chanDown := rfl
@[simp] theorem setCtx_code (c : Nat) (x : Ctx) : (s.setCtx c x).code = s.code := rfl
@[simp] theorem setCtx_icache (c : Nat) (x : Ctx) : (s.setCtx c x).icache = s.icache := rfl
@[simp] theorem setCtx_holds (c : Nat) (x : Ctx) : (s.setCtx c x).holds = s.holds := rfl

/-! `State.setGrid` -/

@[simp] theorem setGrid_agenda (n : Nat) (x : Grid) : (s.setGrid n x).agenda = s.agenda := rfl
@[simp] theorem setGrid_choices (n : Nat) (x : Grid) : (s.setGrid n x).choices = s.choices := rfl
@[simp] theorem setGrid_tick (n : Nat) (x : Grid) : (s.setGrid n x).tick = s.tick := rfl
@[simp] theorem setGrid_cur (n : Nat) (x : Grid) : (s.setGrid n x).cur = s.cur := rfl
@[simp] theorem setGrid_clock (n : Nat) (x : Grid) : (s.setGrid n x).clock = s.clock := rfl
@[simp] theorem setGrid_endpointUp (n : Nat) (x : Grid) : (s.setGrid n x).endpointUp = s.endpointUp := rfl
@[simp] theorem setGrid_inReset (n : Nat) (x : Grid) : (s.setGrid n x).inReset = s.inReset := rfl
@[simp] theorem setGrid_fatal (n : Nat) (x : Grid) : (s.setGrid n x).fatal = s.fatal := rfl
@[simp] theorem setGrid_mem (n : Nat) (x : Grid) : (s.setGrid n x).mem = s.mem := rfl
@[simp] theorem setGrid_hostMem (n : Nat) (x : Grid) : (s.setGrid n x).hostMem = s.hostMem := rfl
@[simp] theorem setGrid_poison (n : Nat) (x : Grid) : (s.setGrid n x).poison = s.poison := rfl
@[simp] theorem setGrid_leases (n : Nat) (x : Grid) : (s.setGrid n x).leases = s.leases := rfl
@[simp] theorem setGrid_l1 (n : Nat) (x : Grid) : (s.setGrid n x).l1 = s.l1 := rfl
@[simp] theorem setGrid_rdc (n : Nat) (x : Grid) : (s.setGrid n x).rdc = s.rdc := rfl
@[simp] theorem setGrid_excl (n : Nat) (x : Grid) : (s.setGrid n x).excl = s.excl := rfl
@[simp] theorem setGrid_upart (n : Nat) (x : Grid) : (s.setGrid n x).upart = s.upart := rfl
@[simp] theorem setGrid_remoteHolders (n : Nat) (x : Grid) : (s.setGrid n x).remoteHolders = s.remoteHolders := rfl
@[simp] theorem setGrid_accepted (n : Nat) (x : Grid) : (s.setGrid n x).accepted = s.accepted := rfl
@[simp] theorem setGrid_tlb (n : Nat) (x : Grid) : (s.setGrid n x).tlb = s.tlb := rfl
@[simp] theorem setGrid_invals (n : Nat) (x : Grid) : (s.setGrid n x).invals = s.invals := rfl
@[simp] theorem setGrid_migrations (n : Nat) (x : Grid) : (s.setGrid n x).migrations = s.migrations := rfl
@[simp] theorem setGrid_frameOwner (n : Nat) (x : Grid) : (s.setGrid n x).frameOwner = s.frameOwner := rfl
@[simp] theorem setGrid_sends (n : Nat) (x : Grid) : (s.setGrid n x).sends = s.sends := rfl
@[simp] theorem setGrid_ctxs (n : Nat) (x : Grid) : (s.setGrid n x).ctxs = s.ctxs := rfl
@[simp] theorem setGrid_cores (n : Nat) (x : Grid) : (s.setGrid n x).cores = s.cores := rfl
@[simp] theorem setGrid_teams (n : Nat) (x : Grid) : (s.setGrid n x).teams = s.teams := rfl
@[simp] theorem setGrid_groups (n : Nat) (x : Grid) : (s.setGrid n x).groups = s.groups := rfl
@[simp] theorem setGrid_reservation (n : Nat) (x : Grid) : (s.setGrid n x).reservation = s.reservation := rfl
@[simp] theorem setGrid_kernels (n : Nat) (x : Grid) : (s.setGrid n x).kernels = s.kernels := rfl
@[simp] theorem setGrid_firn (n : Nat) (x : Grid) : (s.setGrid n x).firn = s.firn := rfl
@[simp] theorem setGrid_builds (n : Nat) (x : Grid) : (s.setGrid n x).builds = s.builds := rfl
@[simp] theorem setGrid_nextFirn (n : Nat) (x : Grid) : (s.setGrid n x).nextFirn = s.nextFirn := rfl
@[simp] theorem setGrid_queues (n : Nat) (x : Grid) : (s.setGrid n x).queues = s.queues := rfl
@[simp] theorem setGrid_owners (n : Nat) (x : Grid) : (s.setGrid n x).owners = s.owners := rfl
@[simp] theorem setGrid_ctl (n : Nat) (x : Grid) : (s.setGrid n x).ctl = s.ctl := rfl
@[simp] theorem setGrid_thresholds (n : Nat) (x : Grid) : (s.setGrid n x).thresholds = s.thresholds := rfl
@[simp] theorem setGrid_testPeriods (n : Nat) (x : Grid) : (s.setGrid n x).testPeriods = s.testPeriods := rfl
@[simp] theorem setGrid_obs (n : Nat) (x : Grid) : (s.setGrid n x).obs = s.obs := rfl
@[simp] theorem setGrid_saved (n : Nat) (x : Grid) : (s.setGrid n x).saved = s.saved := rfl
@[simp] theorem setGrid_weights (n : Nat) (x : Grid) : (s.setGrid n x).weights = s.weights := rfl
@[simp] theorem setGrid_weightsNow (n : Nat) (x : Grid) : (s.setGrid n x).weightsNow = s.weightsNow := rfl
@[simp] theorem setGrid_bankSel (n : Nat) (x : Grid) : (s.setGrid n x).bankSel = s.bankSel := rfl
@[simp] theorem setGrid_banks (n : Nat) (x : Grid) : (s.setGrid n x).banks = s.banks := rfl
@[simp] theorem setGrid_msgs (n : Nat) (x : Grid) : (s.setGrid n x).msgs = s.msgs := rfl
@[simp] theorem setGrid_nextCodeId (n : Nat) (x : Grid) : (s.setGrid n x).nextCodeId = s.nextCodeId := rfl
@[simp] theorem setGrid_insts (n : Nat) (x : Grid) : (s.setGrid n x).insts = s.insts := rfl
@[simp] theorem setGrid_recs (n : Nat) (x : Grid) : (s.setGrid n x).recs = s.recs := rfl
@[simp] theorem setGrid_pools (n : Nat) (x : Grid) : (s.setGrid n x).pools = s.pools := rfl
@[simp] theorem setGrid_fabTags (n : Nat) (x : Grid) : (s.setGrid n x).fabTags = s.fabTags := rfl
@[simp] theorem setGrid_fabSeq (n : Nat) (x : Grid) : (s.setGrid n x).fabSeq = s.fabSeq := rfl
@[simp] theorem setGrid_fabIn (n : Nat) (x : Grid) : (s.setGrid n x).fabIn = s.fabIn := rfl
@[simp] theorem setGrid_kept (n : Nat) (x : Grid) : (s.setGrid n x).kept = s.kept := rfl
@[simp] theorem setGrid_fabOut (n : Nat) (x : Grid) : (s.setGrid n x).fabOut = s.fabOut := rfl
@[simp] theorem setGrid_lost (n : Nat) (x : Grid) : (s.setGrid n x).lost = s.lost := rfl
@[simp] theorem setGrid_unreachable (n : Nat) (x : Grid) : (s.setGrid n x).unreachable = s.unreachable := rfl
@[simp] theorem setGrid_portsDown (n : Nat) (x : Grid) : (s.setGrid n x).portsDown = s.portsDown := rfl
@[simp] theorem setGrid_deltas (n : Nat) (x : Grid) : (s.setGrid n x).deltas = s.deltas := rfl
@[simp] theorem setGrid_colls (n : Nat) (x : Grid) : (s.setGrid n x).colls = s.colls := rfl
@[simp] theorem setGrid_rebuilds (n : Nat) (x : Grid) : (s.setGrid n x).rebuilds = s.rebuilds := rfl
@[simp] theorem setGrid_checkpoints (n : Nat) (x : Grid) : (s.setGrid n x).checkpoints = s.checkpoints := rfl
@[simp] theorem setGrid_vault (n : Nat) (x : Grid) : (s.setGrid n x).vault = s.vault := rfl
@[simp] theorem setGrid_powerAsks (n : Nat) (x : Grid) : (s.setGrid n x).powerAsks = s.powerAsks := rfl
@[simp] theorem setGrid_secVersion (n : Nat) (x : Grid) : (s.setGrid n x).secVersion = s.secVersion := rfl
@[simp] theorem setGrid_image (n : Nat) (x : Grid) : (s.setGrid n x).image = s.image := rfl
@[simp] theorem setGrid_chanDown (n : Nat) (x : Grid) : (s.setGrid n x).chanDown = s.chanDown := rfl
@[simp] theorem setGrid_code (n : Nat) (x : Grid) : (s.setGrid n x).code = s.code := rfl
@[simp] theorem setGrid_icache (n : Nat) (x : Grid) : (s.setGrid n x).icache = s.icache := rfl
@[simp] theorem setGrid_holds (n : Nat) (x : Grid) : (s.setGrid n x).holds = s.holds := rfl

/-! `State.setQueue` -/

@[simp] theorem setQueue_agenda (n : Nat) (x : Queue) : (s.setQueue n x).agenda = s.agenda := rfl
@[simp] theorem setQueue_choices (n : Nat) (x : Queue) : (s.setQueue n x).choices = s.choices := rfl
@[simp] theorem setQueue_tick (n : Nat) (x : Queue) : (s.setQueue n x).tick = s.tick := rfl
@[simp] theorem setQueue_cur (n : Nat) (x : Queue) : (s.setQueue n x).cur = s.cur := rfl
@[simp] theorem setQueue_clock (n : Nat) (x : Queue) : (s.setQueue n x).clock = s.clock := rfl
@[simp] theorem setQueue_endpointUp (n : Nat) (x : Queue) : (s.setQueue n x).endpointUp = s.endpointUp := rfl
@[simp] theorem setQueue_inReset (n : Nat) (x : Queue) : (s.setQueue n x).inReset = s.inReset := rfl
@[simp] theorem setQueue_fatal (n : Nat) (x : Queue) : (s.setQueue n x).fatal = s.fatal := rfl
@[simp] theorem setQueue_mem (n : Nat) (x : Queue) : (s.setQueue n x).mem = s.mem := rfl
@[simp] theorem setQueue_hostMem (n : Nat) (x : Queue) : (s.setQueue n x).hostMem = s.hostMem := rfl
@[simp] theorem setQueue_poison (n : Nat) (x : Queue) : (s.setQueue n x).poison = s.poison := rfl
@[simp] theorem setQueue_leases (n : Nat) (x : Queue) : (s.setQueue n x).leases = s.leases := rfl
@[simp] theorem setQueue_l1 (n : Nat) (x : Queue) : (s.setQueue n x).l1 = s.l1 := rfl
@[simp] theorem setQueue_rdc (n : Nat) (x : Queue) : (s.setQueue n x).rdc = s.rdc := rfl
@[simp] theorem setQueue_excl (n : Nat) (x : Queue) : (s.setQueue n x).excl = s.excl := rfl
@[simp] theorem setQueue_upart (n : Nat) (x : Queue) : (s.setQueue n x).upart = s.upart := rfl
@[simp] theorem setQueue_remoteHolders (n : Nat) (x : Queue) : (s.setQueue n x).remoteHolders = s.remoteHolders := rfl
@[simp] theorem setQueue_accepted (n : Nat) (x : Queue) : (s.setQueue n x).accepted = s.accepted := rfl
@[simp] theorem setQueue_tlb (n : Nat) (x : Queue) : (s.setQueue n x).tlb = s.tlb := rfl
@[simp] theorem setQueue_invals (n : Nat) (x : Queue) : (s.setQueue n x).invals = s.invals := rfl
@[simp] theorem setQueue_migrations (n : Nat) (x : Queue) : (s.setQueue n x).migrations = s.migrations := rfl
@[simp] theorem setQueue_frameOwner (n : Nat) (x : Queue) : (s.setQueue n x).frameOwner = s.frameOwner := rfl
@[simp] theorem setQueue_sends (n : Nat) (x : Queue) : (s.setQueue n x).sends = s.sends := rfl
@[simp] theorem setQueue_ctxs (n : Nat) (x : Queue) : (s.setQueue n x).ctxs = s.ctxs := rfl
@[simp] theorem setQueue_cores (n : Nat) (x : Queue) : (s.setQueue n x).cores = s.cores := rfl
@[simp] theorem setQueue_teams (n : Nat) (x : Queue) : (s.setQueue n x).teams = s.teams := rfl
@[simp] theorem setQueue_groups (n : Nat) (x : Queue) : (s.setQueue n x).groups = s.groups := rfl
@[simp] theorem setQueue_grids (n : Nat) (x : Queue) : (s.setQueue n x).grids = s.grids := rfl
@[simp] theorem setQueue_reservation (n : Nat) (x : Queue) : (s.setQueue n x).reservation = s.reservation := rfl
@[simp] theorem setQueue_kernels (n : Nat) (x : Queue) : (s.setQueue n x).kernels = s.kernels := rfl
@[simp] theorem setQueue_firn (n : Nat) (x : Queue) : (s.setQueue n x).firn = s.firn := rfl
@[simp] theorem setQueue_builds (n : Nat) (x : Queue) : (s.setQueue n x).builds = s.builds := rfl
@[simp] theorem setQueue_nextFirn (n : Nat) (x : Queue) : (s.setQueue n x).nextFirn = s.nextFirn := rfl
@[simp] theorem setQueue_owners (n : Nat) (x : Queue) : (s.setQueue n x).owners = s.owners := rfl
@[simp] theorem setQueue_ctl (n : Nat) (x : Queue) : (s.setQueue n x).ctl = s.ctl := rfl
@[simp] theorem setQueue_thresholds (n : Nat) (x : Queue) : (s.setQueue n x).thresholds = s.thresholds := rfl
@[simp] theorem setQueue_testPeriods (n : Nat) (x : Queue) : (s.setQueue n x).testPeriods = s.testPeriods := rfl
@[simp] theorem setQueue_obs (n : Nat) (x : Queue) : (s.setQueue n x).obs = s.obs := rfl
@[simp] theorem setQueue_saved (n : Nat) (x : Queue) : (s.setQueue n x).saved = s.saved := rfl
@[simp] theorem setQueue_weights (n : Nat) (x : Queue) : (s.setQueue n x).weights = s.weights := rfl
@[simp] theorem setQueue_weightsNow (n : Nat) (x : Queue) : (s.setQueue n x).weightsNow = s.weightsNow := rfl
@[simp] theorem setQueue_bankSel (n : Nat) (x : Queue) : (s.setQueue n x).bankSel = s.bankSel := rfl
@[simp] theorem setQueue_banks (n : Nat) (x : Queue) : (s.setQueue n x).banks = s.banks := rfl
@[simp] theorem setQueue_msgs (n : Nat) (x : Queue) : (s.setQueue n x).msgs = s.msgs := rfl
@[simp] theorem setQueue_nextCodeId (n : Nat) (x : Queue) : (s.setQueue n x).nextCodeId = s.nextCodeId := rfl
@[simp] theorem setQueue_insts (n : Nat) (x : Queue) : (s.setQueue n x).insts = s.insts := rfl
@[simp] theorem setQueue_recs (n : Nat) (x : Queue) : (s.setQueue n x).recs = s.recs := rfl
@[simp] theorem setQueue_pools (n : Nat) (x : Queue) : (s.setQueue n x).pools = s.pools := rfl
@[simp] theorem setQueue_fabTags (n : Nat) (x : Queue) : (s.setQueue n x).fabTags = s.fabTags := rfl
@[simp] theorem setQueue_fabSeq (n : Nat) (x : Queue) : (s.setQueue n x).fabSeq = s.fabSeq := rfl
@[simp] theorem setQueue_fabIn (n : Nat) (x : Queue) : (s.setQueue n x).fabIn = s.fabIn := rfl
@[simp] theorem setQueue_kept (n : Nat) (x : Queue) : (s.setQueue n x).kept = s.kept := rfl
@[simp] theorem setQueue_fabOut (n : Nat) (x : Queue) : (s.setQueue n x).fabOut = s.fabOut := rfl
@[simp] theorem setQueue_lost (n : Nat) (x : Queue) : (s.setQueue n x).lost = s.lost := rfl
@[simp] theorem setQueue_unreachable (n : Nat) (x : Queue) : (s.setQueue n x).unreachable = s.unreachable := rfl
@[simp] theorem setQueue_portsDown (n : Nat) (x : Queue) : (s.setQueue n x).portsDown = s.portsDown := rfl
@[simp] theorem setQueue_deltas (n : Nat) (x : Queue) : (s.setQueue n x).deltas = s.deltas := rfl
@[simp] theorem setQueue_colls (n : Nat) (x : Queue) : (s.setQueue n x).colls = s.colls := rfl
@[simp] theorem setQueue_rebuilds (n : Nat) (x : Queue) : (s.setQueue n x).rebuilds = s.rebuilds := rfl
@[simp] theorem setQueue_checkpoints (n : Nat) (x : Queue) : (s.setQueue n x).checkpoints = s.checkpoints := rfl
@[simp] theorem setQueue_vault (n : Nat) (x : Queue) : (s.setQueue n x).vault = s.vault := rfl
@[simp] theorem setQueue_powerAsks (n : Nat) (x : Queue) : (s.setQueue n x).powerAsks = s.powerAsks := rfl
@[simp] theorem setQueue_secVersion (n : Nat) (x : Queue) : (s.setQueue n x).secVersion = s.secVersion := rfl
@[simp] theorem setQueue_image (n : Nat) (x : Queue) : (s.setQueue n x).image = s.image := rfl
@[simp] theorem setQueue_chanDown (n : Nat) (x : Queue) : (s.setQueue n x).chanDown = s.chanDown := rfl
@[simp] theorem setQueue_code (n : Nat) (x : Queue) : (s.setQueue n x).code = s.code := rfl
@[simp] theorem setQueue_icache (n : Nat) (x : Queue) : (s.setQueue n x).icache = s.icache := rfl
@[simp] theorem setQueue_holds (n : Nat) (x : Queue) : (s.setQueue n x).holds = s.holds := rfl

/-! `State.setMem` -/

@[simp] theorem setMem_agenda (m : Memory) : (s.setMem m).agenda = s.agenda := rfl
@[simp] theorem setMem_choices (m : Memory) : (s.setMem m).choices = s.choices := rfl
@[simp] theorem setMem_tick (m : Memory) : (s.setMem m).tick = s.tick := rfl
@[simp] theorem setMem_cur (m : Memory) : (s.setMem m).cur = s.cur := rfl
@[simp] theorem setMem_clock (m : Memory) : (s.setMem m).clock = s.clock := rfl
@[simp] theorem setMem_endpointUp (m : Memory) : (s.setMem m).endpointUp = s.endpointUp := rfl
@[simp] theorem setMem_inReset (m : Memory) : (s.setMem m).inReset = s.inReset := rfl
@[simp] theorem setMem_fatal (m : Memory) : (s.setMem m).fatal = s.fatal := rfl
@[simp] theorem setMem_mem (m : Memory) : (s.setMem m).mem = m := rfl
@[simp] theorem setMem_hostMem (m : Memory) : (s.setMem m).hostMem = s.hostMem := rfl
@[simp] theorem setMem_poison (m : Memory) : (s.setMem m).poison = s.poison := rfl
@[simp] theorem setMem_leases (m : Memory) : (s.setMem m).leases = s.leases := rfl
@[simp] theorem setMem_l1 (m : Memory) : (s.setMem m).l1 = s.l1 := rfl
@[simp] theorem setMem_rdc (m : Memory) : (s.setMem m).rdc = s.rdc := rfl
@[simp] theorem setMem_excl (m : Memory) : (s.setMem m).excl = s.excl := rfl
@[simp] theorem setMem_upart (m : Memory) : (s.setMem m).upart = s.upart := rfl
@[simp] theorem setMem_remoteHolders (m : Memory) : (s.setMem m).remoteHolders = s.remoteHolders := rfl
@[simp] theorem setMem_accepted (m : Memory) : (s.setMem m).accepted = s.accepted := rfl
@[simp] theorem setMem_tlb (m : Memory) : (s.setMem m).tlb = s.tlb := rfl
@[simp] theorem setMem_invals (m : Memory) : (s.setMem m).invals = s.invals := rfl
@[simp] theorem setMem_migrations (m : Memory) : (s.setMem m).migrations = s.migrations := rfl
@[simp] theorem setMem_frameOwner (m : Memory) : (s.setMem m).frameOwner = s.frameOwner := rfl
@[simp] theorem setMem_sends (m : Memory) : (s.setMem m).sends = s.sends := rfl
@[simp] theorem setMem_ctxs (m : Memory) : (s.setMem m).ctxs = s.ctxs := rfl
@[simp] theorem setMem_cores (m : Memory) : (s.setMem m).cores = s.cores := rfl
@[simp] theorem setMem_teams (m : Memory) : (s.setMem m).teams = s.teams := rfl
@[simp] theorem setMem_groups (m : Memory) : (s.setMem m).groups = s.groups := rfl
@[simp] theorem setMem_grids (m : Memory) : (s.setMem m).grids = s.grids := rfl
@[simp] theorem setMem_reservation (m : Memory) : (s.setMem m).reservation = s.reservation := rfl
@[simp] theorem setMem_kernels (m : Memory) : (s.setMem m).kernels = s.kernels := rfl
@[simp] theorem setMem_firn (m : Memory) : (s.setMem m).firn = s.firn := rfl
@[simp] theorem setMem_builds (m : Memory) : (s.setMem m).builds = s.builds := rfl
@[simp] theorem setMem_nextFirn (m : Memory) : (s.setMem m).nextFirn = s.nextFirn := rfl
@[simp] theorem setMem_queues (m : Memory) : (s.setMem m).queues = s.queues := rfl
@[simp] theorem setMem_owners (m : Memory) : (s.setMem m).owners = s.owners := rfl
@[simp] theorem setMem_ctl (m : Memory) : (s.setMem m).ctl = s.ctl := rfl
@[simp] theorem setMem_thresholds (m : Memory) : (s.setMem m).thresholds = s.thresholds := rfl
@[simp] theorem setMem_testPeriods (m : Memory) : (s.setMem m).testPeriods = s.testPeriods := rfl
@[simp] theorem setMem_obs (m : Memory) : (s.setMem m).obs = s.obs := rfl
@[simp] theorem setMem_saved (m : Memory) : (s.setMem m).saved = s.saved := rfl
@[simp] theorem setMem_weights (m : Memory) : (s.setMem m).weights = s.weights := rfl
@[simp] theorem setMem_weightsNow (m : Memory) : (s.setMem m).weightsNow = s.weightsNow := rfl
@[simp] theorem setMem_bankSel (m : Memory) : (s.setMem m).bankSel = s.bankSel := rfl
@[simp] theorem setMem_banks (m : Memory) : (s.setMem m).banks = s.banks := rfl
@[simp] theorem setMem_msgs (m : Memory) : (s.setMem m).msgs = s.msgs := rfl
@[simp] theorem setMem_nextCodeId (m : Memory) : (s.setMem m).nextCodeId = s.nextCodeId := rfl
@[simp] theorem setMem_insts (m : Memory) : (s.setMem m).insts = s.insts := rfl
@[simp] theorem setMem_recs (m : Memory) : (s.setMem m).recs = s.recs := rfl
@[simp] theorem setMem_pools (m : Memory) : (s.setMem m).pools = s.pools := rfl
@[simp] theorem setMem_fabTags (m : Memory) : (s.setMem m).fabTags = s.fabTags := rfl
@[simp] theorem setMem_fabSeq (m : Memory) : (s.setMem m).fabSeq = s.fabSeq := rfl
@[simp] theorem setMem_fabIn (m : Memory) : (s.setMem m).fabIn = s.fabIn := rfl
@[simp] theorem setMem_kept (m : Memory) : (s.setMem m).kept = s.kept := rfl
@[simp] theorem setMem_fabOut (m : Memory) : (s.setMem m).fabOut = s.fabOut := rfl
@[simp] theorem setMem_lost (m : Memory) : (s.setMem m).lost = s.lost := rfl
@[simp] theorem setMem_unreachable (m : Memory) : (s.setMem m).unreachable = s.unreachable := rfl
@[simp] theorem setMem_portsDown (m : Memory) : (s.setMem m).portsDown = s.portsDown := rfl
@[simp] theorem setMem_deltas (m : Memory) : (s.setMem m).deltas = s.deltas := rfl
@[simp] theorem setMem_colls (m : Memory) : (s.setMem m).colls = s.colls := rfl
@[simp] theorem setMem_rebuilds (m : Memory) : (s.setMem m).rebuilds = s.rebuilds := rfl
@[simp] theorem setMem_checkpoints (m : Memory) : (s.setMem m).checkpoints = s.checkpoints := rfl
@[simp] theorem setMem_vault (m : Memory) : (s.setMem m).vault = s.vault := rfl
@[simp] theorem setMem_powerAsks (m : Memory) : (s.setMem m).powerAsks = s.powerAsks := rfl
@[simp] theorem setMem_secVersion (m : Memory) : (s.setMem m).secVersion = s.secVersion := rfl
@[simp] theorem setMem_image (m : Memory) : (s.setMem m).image = s.image := rfl
@[simp] theorem setMem_chanDown (m : Memory) : (s.setMem m).chanDown = s.chanDown := rfl
@[simp] theorem setMem_code (m : Memory) : (s.setMem m).code = s.code := rfl
@[simp] theorem setMem_icache (m : Memory) : (s.setMem m).icache = s.icache := rfl
@[simp] theorem setMem_holds (m : Memory) : (s.setMem m).holds = s.holds := rfl

/-! Parts read back -/

@[simp] theorem group_setGroup_same (g : GRef) (x : Group) : (s.setGroup g x).group g = some x := aget_aput_same ..
theorem group_setGroup_other {g h : GRef} (x : Group) (hn : h ≠ g) : (s.setGroup g x).group h = s.group h :=
  aget_aput_other _ _ hn
@[simp] theorem team_setTeam_same (t : TRef) (x : Team) : (s.setTeam t x).team t = some x := aget_aput_same ..
theorem team_setTeam_other {t u : TRef} (x : Team) (hn : u ≠ t) : (s.setTeam t x).team u = s.team u := aget_aput_other _ _ hn
@[simp] theorem ctx_setCtx_same (c : Nat) (x : Ctx) : (s.setCtx c x).ctx c = some x := aget_aput_same ..
theorem ctx_setCtx_other {c d : Nat} (x : Ctx) (hn : d ≠ c) : (s.setCtx c x).ctx d = s.ctx d := aget_aput_other _ _ hn
@[simp] theorem grid_setGrid_same (n : Nat) (x : Grid) : (s.setGrid n x).grid n = some x := aget_aput_same ..
theorem grid_setGrid_other {n m : Nat} (x : Grid) (hn : m ≠ n) : (s.setGrid n x).grid m = s.grid m := aget_aput_other _ _ hn
@[simp] theorem queue_setQueue_same (n : Nat) (x : Queue) : (s.setQueue n x).queue n = some x := aget_aput_same ..
theorem queue_setQueue_other {n m : Nat} (x : Queue) (hn : m ≠ n) : (s.setQueue n x).queue m = s.queue m :=
  aget_aput_other _ _ hn
@[simp] theorem core_setCore_same (n : Nat) (x : Core) : (s.setCore n x).core n = x := by simp [State.core, State.setCore]
theorem core_setCore_other {n m : Nat} (x : Core) (hn : m ≠ n) : (s.setCore n x).core m = s.core m := by
  simp [State.core, State.setCore, aget_aput_other _ _ hn]

@[simp] theorem group_setCore (n : Nat) (x : Core) (k : GRef) : (s.setCore n x).group k = s.group k := rfl
@[simp] theorem team_setCore (n : Nat) (x : Core) (k : TRef) : (s.setCore n x).team k = s.team k := rfl
@[simp] theorem ctx_setCore (n : Nat) (x : Core) (k : Nat) : (s.setCore n x).ctx k = s.ctx k := rfl
@[simp] theorem grid_setCore (n : Nat) (x : Core) (k : Nat) : (s.setCore n x).grid k = s.grid k := rfl
@[simp] theorem queue_setCore (n : Nat) (x : Core) (k : Nat) : (s.setCore n x).queue k = s.queue k := rfl
@[simp] theorem team_setGroup (g : GRef) (x : Group) (k : TRef) : (s.setGroup g x).team k = s.team k := rfl
@[simp] theorem ctx_setGroup (g : GRef) (x : Group) (k : Nat) : (s.setGroup g x).ctx k = s.ctx k := rfl
@[simp] theorem grid_setGroup (g : GRef) (x : Group) (k : Nat) : (s.setGroup g x).grid k = s.grid k := rfl
@[simp] theorem queue_setGroup (g : GRef) (x : Group) (k : Nat) : (s.setGroup g x).queue k = s.queue k := rfl
@[simp] theorem core_setGroup (g : GRef) (x : Group) (k : Nat) : (s.setGroup g x).core k = s.core k := rfl
@[simp] theorem group_setTeam (t : TRef) (x : Team) (k : GRef) : (s.setTeam t x).group k = s.group k := rfl
@[simp] theorem ctx_setTeam (t : TRef) (x : Team) (k : Nat) : (s.setTeam t x).ctx k = s.ctx k := rfl
@[simp] theorem grid_setTeam (t : TRef) (x : Team) (k : Nat) : (s.setTeam t x).grid k = s.grid k := rfl
@[simp] theorem queue_setTeam (t : TRef) (x : Team) (k : Nat) : (s.setTeam t x).queue k = s.queue k := rfl
@[simp] theorem core_setTeam (t : TRef) (x : Team) (k : Nat) : (s.setTeam t x).core k = s.core k := rfl
@[simp] theorem group_setCtx (c : Nat) (x : Ctx) (k : GRef) : (s.setCtx c x).group k = s.group k := rfl
@[simp] theorem team_setCtx (c : Nat) (x : Ctx) (k : TRef) : (s.setCtx c x).team k = s.team k := rfl
@[simp] theorem grid_setCtx (c : Nat) (x : Ctx) (k : Nat) : (s.setCtx c x).grid k = s.grid k := rfl
@[simp] theorem queue_setCtx (c : Nat) (x : Ctx) (k : Nat) : (s.setCtx c x).queue k = s.queue k := rfl
@[simp] theorem core_setCtx (c : Nat) (x : Ctx) (k : Nat) : (s.setCtx c x).core k = s.core k := rfl
@[simp] theorem group_setGrid (n : Nat) (x : Grid) (k : GRef) : (s.setGrid n x).group k = s.group k := rfl
@[simp] theorem team_setGrid (n : Nat) (x : Grid) (k : TRef) : (s.setGrid n x).team k = s.team k := rfl
@[simp] theorem ctx_setGrid (n : Nat) (x : Grid) (k : Nat) : (s.setGrid n x).ctx k = s.ctx k := rfl
@[simp] theorem queue_setGrid (n : Nat) (x : Grid) (k : Nat) : (s.setGrid n x).queue k = s.queue k := rfl
@[simp] theorem core_setGrid (n : Nat) (x : Grid) (k : Nat) : (s.setGrid n x).core k = s.core k := rfl
@[simp] theorem group_setQueue (n : Nat) (x : Queue) (k : GRef) : (s.setQueue n x).group k = s.group k := rfl
@[simp] theorem team_setQueue (n : Nat) (x : Queue) (k : TRef) : (s.setQueue n x).team k = s.team k := rfl
@[simp] theorem ctx_setQueue (n : Nat) (x : Queue) (k : Nat) : (s.setQueue n x).ctx k = s.ctx k := rfl
@[simp] theorem grid_setQueue (n : Nat) (x : Queue) (k : Nat) : (s.setQueue n x).grid k = s.grid k := rfl
@[simp] theorem core_setQueue (n : Nat) (x : Queue) (k : Nat) : (s.setQueue n x).core k = s.core k := rfl
@[simp] theorem group_setMem (m : Memory) (k : GRef) : (s.setMem m).group k = s.group k := rfl
@[simp] theorem team_setMem (m : Memory) (k : TRef) : (s.setMem m).team k = s.team k := rfl
@[simp] theorem ctx_setMem (m : Memory) (k : Nat) : (s.setMem m).ctx k = s.ctx k := rfl
@[simp] theorem grid_setMem (m : Memory) (k : Nat) : (s.setMem m).grid k = s.grid k := rfl
@[simp] theorem queue_setMem (m : Memory) (k : Nat) : (s.setMem m).queue k = s.queue k := rfl
@[simp] theorem core_setMem (m : Memory) (k : Nat) : (s.setMem m).core k = s.core k := rfl

/-! `State.onGroup` and its like: nothing without the part, else the replacement. -/

theorem onGroup_eq {g : GRef} {x : Group} (f : Group → Group) (h : s.group g = some x) : s.onGroup g f = s.setGroup g (f x) := by
  simp [State.onGroup, h]
theorem onGroup_none {g : GRef} (f : Group → Group) (h : s.group g = none) : s.onGroup g f = s := by simp [State.onGroup, h]
theorem onTeam_eq {t : TRef} {x : Team} (f : Team → Team) (h : s.team t = some x) : s.onTeam t f = s.setTeam t (f x) := by
  simp [State.onTeam, h]
theorem onTeam_none {t : TRef} (f : Team → Team) (h : s.team t = none) : s.onTeam t f = s := by simp [State.onTeam, h]
theorem onCtx_eq {c : Nat} {x : Ctx} (f : Ctx → Ctx) (h : s.ctx c = some x) : s.onCtx c f = s.setCtx c (f x) := by
  simp [State.onCtx, h]
theorem onCtx_none {c : Nat} (f : Ctx → Ctx) (h : s.ctx c = none) : s.onCtx c f = s := by simp [State.onCtx, h]
theorem onGrid_eq {n : Nat} {x : Grid} (f : Grid → Grid) (h : s.grid n = some x) : s.onGrid n f = s.setGrid n (f x) := by
  simp [State.onGrid, h]
theorem onGrid_none {n : Nat} (f : Grid → Grid) (h : s.grid n = none) : s.onGrid n f = s := by simp [State.onGrid, h]
theorem onQueue_eq {n : Nat} {x : Queue} (f : Queue → Queue) (h : s.queue n = some x) : s.onQueue n f = s.setQueue n (f x) := by
  simp [State.onQueue, h]
theorem onQueue_none {n : Nat} (f : Queue → Queue) (h : s.queue n = none) : s.onQueue n f = s := by simp [State.onQueue, h]

@[simp] theorem onGroup_agenda (g : GRef) (f : Group → Group) : (s.onGroup g f).agenda = s.agenda := by unfold State.onGroup; split <;> rfl
@[simp] theorem onGroup_choices (g : GRef) (f : Group → Group) : (s.onGroup g f).choices = s.choices := by unfold State.onGroup; split <;> rfl
@[simp] theorem onGroup_tick (g : GRef) (f : Group → Group) : (s.onGroup g f).tick = s.tick := by unfold State.onGroup; split <;> rfl
@[simp] theorem onGroup_cur (g : GRef) (f : Group → Group) : (s.onGroup g f).cur = s.cur := by unfold State.onGroup; split <;> rfl
@[simp] theorem onGroup_clock (g : GRef) (f : Group → Group) : (s.onGroup g f).clock = s.clock := by unfold State.onGroup; split <;> rfl
@[simp] theorem onGroup_endpointUp (g : GRef) (f : Group → Group) : (s.onGroup g f).endpointUp = s.endpointUp := by unfold State.onGroup; split <;> rfl
@[simp] theorem onGroup_inReset (g : GRef) (f : Group → Group) : (s.onGroup g f).inReset = s.inReset := by unfold State.onGroup; split <;> rfl
@[simp] theorem onGroup_fatal (g : GRef) (f : Group → Group) : (s.onGroup g f).fatal = s.fatal := by unfold State.onGroup; split <;> rfl
@[simp] theorem onGroup_mem (g : GRef) (f : Group → Group) : (s.onGroup g f).mem = s.mem := by unfold State.onGroup; split <;> rfl
@[simp] theorem onGroup_hostMem (g : GRef) (f : Group → Group) : (s.onGroup g f).hostMem = s.hostMem := by unfold State.onGroup; split <;> rfl
@[simp] theorem onGroup_poison (g : GRef) (f : Group → Group) : (s.onGroup g f).poison = s.poison := by unfold State.onGroup; split <;> rfl
@[simp] theorem onGroup_leases (g : GRef) (f : Group → Group) : (s.onGroup g f).leases = s.leases := by unfold State.onGroup; split <;> rfl
@[simp] theorem onGroup_l1 (g : GRef) (f : Group → Group) : (s.onGroup g f).l1 = s.l1 := by unfold State.onGroup; split <;> rfl
@[simp] theorem onGroup_rdc (g : GRef) (f : Group → Group) : (s.onGroup g f).rdc = s.rdc := by unfold State.onGroup; split <;> rfl
@[simp] theorem onGroup_excl (g : GRef) (f : Group → Group) : (s.onGroup g f).excl = s.excl := by unfold State.onGroup; split <;> rfl
@[simp] theorem onGroup_upart (g : GRef) (f : Group → Group) : (s.onGroup g f).upart = s.upart := by unfold State.onGroup; split <;> rfl
@[simp] theorem onGroup_remoteHolders (g : GRef) (f : Group → Group) : (s.onGroup g f).remoteHolders = s.remoteHolders := by unfold State.onGroup; split <;> rfl
@[simp] theorem onGroup_accepted (g : GRef) (f : Group → Group) : (s.onGroup g f).accepted = s.accepted := by unfold State.onGroup; split <;> rfl
@[simp] theorem onGroup_tlb (g : GRef) (f : Group → Group) : (s.onGroup g f).tlb = s.tlb := by unfold State.onGroup; split <;> rfl
@[simp] theorem onGroup_invals (g : GRef) (f : Group → Group) : (s.onGroup g f).invals = s.invals := by unfold State.onGroup; split <;> rfl
@[simp] theorem onGroup_migrations (g : GRef) (f : Group → Group) : (s.onGroup g f).migrations = s.migrations := by unfold State.onGroup; split <;> rfl
@[simp] theorem onGroup_frameOwner (g : GRef) (f : Group → Group) : (s.onGroup g f).frameOwner = s.frameOwner := by unfold State.onGroup; split <;> rfl
@[simp] theorem onGroup_sends (g : GRef) (f : Group → Group) : (s.onGroup g f).sends = s.sends := by unfold State.onGroup; split <;> rfl
@[simp] theorem onGroup_ctxs (g : GRef) (f : Group → Group) : (s.onGroup g f).ctxs = s.ctxs := by unfold State.onGroup; split <;> rfl
@[simp] theorem onGroup_cores (g : GRef) (f : Group → Group) : (s.onGroup g f).cores = s.cores := by unfold State.onGroup; split <;> rfl
@[simp] theorem onGroup_teams (g : GRef) (f : Group → Group) : (s.onGroup g f).teams = s.teams := by unfold State.onGroup; split <;> rfl
@[simp] theorem onGroup_grids (g : GRef) (f : Group → Group) : (s.onGroup g f).grids = s.grids := by unfold State.onGroup; split <;> rfl
@[simp] theorem onGroup_reservation (g : GRef) (f : Group → Group) : (s.onGroup g f).reservation = s.reservation := by unfold State.onGroup; split <;> rfl
@[simp] theorem onGroup_kernels (g : GRef) (f : Group → Group) : (s.onGroup g f).kernels = s.kernels := by unfold State.onGroup; split <;> rfl
@[simp] theorem onGroup_firn (g : GRef) (f : Group → Group) : (s.onGroup g f).firn = s.firn := by unfold State.onGroup; split <;> rfl
@[simp] theorem onGroup_builds (g : GRef) (f : Group → Group) : (s.onGroup g f).builds = s.builds := by unfold State.onGroup; split <;> rfl
@[simp] theorem onGroup_nextFirn (g : GRef) (f : Group → Group) : (s.onGroup g f).nextFirn = s.nextFirn := by unfold State.onGroup; split <;> rfl
@[simp] theorem onGroup_queues (g : GRef) (f : Group → Group) : (s.onGroup g f).queues = s.queues := by unfold State.onGroup; split <;> rfl
@[simp] theorem onGroup_owners (g : GRef) (f : Group → Group) : (s.onGroup g f).owners = s.owners := by unfold State.onGroup; split <;> rfl
@[simp] theorem onGroup_ctl (g : GRef) (f : Group → Group) : (s.onGroup g f).ctl = s.ctl := by unfold State.onGroup; split <;> rfl
@[simp] theorem onGroup_thresholds (g : GRef) (f : Group → Group) : (s.onGroup g f).thresholds = s.thresholds := by unfold State.onGroup; split <;> rfl
@[simp] theorem onGroup_testPeriods (g : GRef) (f : Group → Group) : (s.onGroup g f).testPeriods = s.testPeriods := by unfold State.onGroup; split <;> rfl
@[simp] theorem onGroup_obs (g : GRef) (f : Group → Group) : (s.onGroup g f).obs = s.obs := by unfold State.onGroup; split <;> rfl
@[simp] theorem onGroup_saved (g : GRef) (f : Group → Group) : (s.onGroup g f).saved = s.saved := by unfold State.onGroup; split <;> rfl
@[simp] theorem onGroup_weights (g : GRef) (f : Group → Group) : (s.onGroup g f).weights = s.weights := by unfold State.onGroup; split <;> rfl
@[simp] theorem onGroup_weightsNow (g : GRef) (f : Group → Group) : (s.onGroup g f).weightsNow = s.weightsNow := by unfold State.onGroup; split <;> rfl
@[simp] theorem onGroup_bankSel (g : GRef) (f : Group → Group) : (s.onGroup g f).bankSel = s.bankSel := by unfold State.onGroup; split <;> rfl
@[simp] theorem onGroup_banks (g : GRef) (f : Group → Group) : (s.onGroup g f).banks = s.banks := by unfold State.onGroup; split <;> rfl
@[simp] theorem onGroup_msgs (g : GRef) (f : Group → Group) : (s.onGroup g f).msgs = s.msgs := by unfold State.onGroup; split <;> rfl
@[simp] theorem onGroup_nextCodeId (g : GRef) (f : Group → Group) : (s.onGroup g f).nextCodeId = s.nextCodeId := by unfold State.onGroup; split <;> rfl
@[simp] theorem onGroup_insts (g : GRef) (f : Group → Group) : (s.onGroup g f).insts = s.insts := by unfold State.onGroup; split <;> rfl
@[simp] theorem onGroup_recs (g : GRef) (f : Group → Group) : (s.onGroup g f).recs = s.recs := by unfold State.onGroup; split <;> rfl
@[simp] theorem onGroup_pools (g : GRef) (f : Group → Group) : (s.onGroup g f).pools = s.pools := by unfold State.onGroup; split <;> rfl
@[simp] theorem onGroup_fabTags (g : GRef) (f : Group → Group) : (s.onGroup g f).fabTags = s.fabTags := by unfold State.onGroup; split <;> rfl
@[simp] theorem onGroup_fabSeq (g : GRef) (f : Group → Group) : (s.onGroup g f).fabSeq = s.fabSeq := by unfold State.onGroup; split <;> rfl
@[simp] theorem onGroup_fabIn (g : GRef) (f : Group → Group) : (s.onGroup g f).fabIn = s.fabIn := by unfold State.onGroup; split <;> rfl
@[simp] theorem onGroup_kept (g : GRef) (f : Group → Group) : (s.onGroup g f).kept = s.kept := by unfold State.onGroup; split <;> rfl
@[simp] theorem onGroup_fabOut (g : GRef) (f : Group → Group) : (s.onGroup g f).fabOut = s.fabOut := by unfold State.onGroup; split <;> rfl
@[simp] theorem onGroup_lost (g : GRef) (f : Group → Group) : (s.onGroup g f).lost = s.lost := by unfold State.onGroup; split <;> rfl
@[simp] theorem onGroup_unreachable (g : GRef) (f : Group → Group) : (s.onGroup g f).unreachable = s.unreachable := by unfold State.onGroup; split <;> rfl
@[simp] theorem onGroup_portsDown (g : GRef) (f : Group → Group) : (s.onGroup g f).portsDown = s.portsDown := by unfold State.onGroup; split <;> rfl
@[simp] theorem onGroup_deltas (g : GRef) (f : Group → Group) : (s.onGroup g f).deltas = s.deltas := by unfold State.onGroup; split <;> rfl
@[simp] theorem onGroup_colls (g : GRef) (f : Group → Group) : (s.onGroup g f).colls = s.colls := by unfold State.onGroup; split <;> rfl
@[simp] theorem onGroup_rebuilds (g : GRef) (f : Group → Group) : (s.onGroup g f).rebuilds = s.rebuilds := by unfold State.onGroup; split <;> rfl
@[simp] theorem onGroup_checkpoints (g : GRef) (f : Group → Group) : (s.onGroup g f).checkpoints = s.checkpoints := by unfold State.onGroup; split <;> rfl
@[simp] theorem onGroup_vault (g : GRef) (f : Group → Group) : (s.onGroup g f).vault = s.vault := by unfold State.onGroup; split <;> rfl
@[simp] theorem onGroup_powerAsks (g : GRef) (f : Group → Group) : (s.onGroup g f).powerAsks = s.powerAsks := by unfold State.onGroup; split <;> rfl
@[simp] theorem onGroup_secVersion (g : GRef) (f : Group → Group) : (s.onGroup g f).secVersion = s.secVersion := by unfold State.onGroup; split <;> rfl
@[simp] theorem onGroup_image (g : GRef) (f : Group → Group) : (s.onGroup g f).image = s.image := by unfold State.onGroup; split <;> rfl
@[simp] theorem onGroup_chanDown (g : GRef) (f : Group → Group) : (s.onGroup g f).chanDown = s.chanDown := by unfold State.onGroup; split <;> rfl
@[simp] theorem onGroup_code (g : GRef) (f : Group → Group) : (s.onGroup g f).code = s.code := by unfold State.onGroup; split <;> rfl
@[simp] theorem onGroup_icache (g : GRef) (f : Group → Group) : (s.onGroup g f).icache = s.icache := by unfold State.onGroup; split <;> rfl
@[simp] theorem onGroup_holds (g : GRef) (f : Group → Group) : (s.onGroup g f).holds = s.holds := by unfold State.onGroup; split <;> rfl
@[simp] theorem onTeam_agenda (t : TRef) (f : Team → Team) : (s.onTeam t f).agenda = s.agenda := by unfold State.onTeam; split <;> rfl
@[simp] theorem onTeam_choices (t : TRef) (f : Team → Team) : (s.onTeam t f).choices = s.choices := by unfold State.onTeam; split <;> rfl
@[simp] theorem onTeam_tick (t : TRef) (f : Team → Team) : (s.onTeam t f).tick = s.tick := by unfold State.onTeam; split <;> rfl
@[simp] theorem onTeam_cur (t : TRef) (f : Team → Team) : (s.onTeam t f).cur = s.cur := by unfold State.onTeam; split <;> rfl
@[simp] theorem onTeam_clock (t : TRef) (f : Team → Team) : (s.onTeam t f).clock = s.clock := by unfold State.onTeam; split <;> rfl
@[simp] theorem onTeam_endpointUp (t : TRef) (f : Team → Team) : (s.onTeam t f).endpointUp = s.endpointUp := by unfold State.onTeam; split <;> rfl
@[simp] theorem onTeam_inReset (t : TRef) (f : Team → Team) : (s.onTeam t f).inReset = s.inReset := by unfold State.onTeam; split <;> rfl
@[simp] theorem onTeam_fatal (t : TRef) (f : Team → Team) : (s.onTeam t f).fatal = s.fatal := by unfold State.onTeam; split <;> rfl
@[simp] theorem onTeam_mem (t : TRef) (f : Team → Team) : (s.onTeam t f).mem = s.mem := by unfold State.onTeam; split <;> rfl
@[simp] theorem onTeam_hostMem (t : TRef) (f : Team → Team) : (s.onTeam t f).hostMem = s.hostMem := by unfold State.onTeam; split <;> rfl
@[simp] theorem onTeam_poison (t : TRef) (f : Team → Team) : (s.onTeam t f).poison = s.poison := by unfold State.onTeam; split <;> rfl
@[simp] theorem onTeam_leases (t : TRef) (f : Team → Team) : (s.onTeam t f).leases = s.leases := by unfold State.onTeam; split <;> rfl
@[simp] theorem onTeam_l1 (t : TRef) (f : Team → Team) : (s.onTeam t f).l1 = s.l1 := by unfold State.onTeam; split <;> rfl
@[simp] theorem onTeam_rdc (t : TRef) (f : Team → Team) : (s.onTeam t f).rdc = s.rdc := by unfold State.onTeam; split <;> rfl
@[simp] theorem onTeam_excl (t : TRef) (f : Team → Team) : (s.onTeam t f).excl = s.excl := by unfold State.onTeam; split <;> rfl
@[simp] theorem onTeam_upart (t : TRef) (f : Team → Team) : (s.onTeam t f).upart = s.upart := by unfold State.onTeam; split <;> rfl
@[simp] theorem onTeam_remoteHolders (t : TRef) (f : Team → Team) : (s.onTeam t f).remoteHolders = s.remoteHolders := by unfold State.onTeam; split <;> rfl
@[simp] theorem onTeam_accepted (t : TRef) (f : Team → Team) : (s.onTeam t f).accepted = s.accepted := by unfold State.onTeam; split <;> rfl
@[simp] theorem onTeam_tlb (t : TRef) (f : Team → Team) : (s.onTeam t f).tlb = s.tlb := by unfold State.onTeam; split <;> rfl
@[simp] theorem onTeam_invals (t : TRef) (f : Team → Team) : (s.onTeam t f).invals = s.invals := by unfold State.onTeam; split <;> rfl
@[simp] theorem onTeam_migrations (t : TRef) (f : Team → Team) : (s.onTeam t f).migrations = s.migrations := by unfold State.onTeam; split <;> rfl
@[simp] theorem onTeam_frameOwner (t : TRef) (f : Team → Team) : (s.onTeam t f).frameOwner = s.frameOwner := by unfold State.onTeam; split <;> rfl
@[simp] theorem onTeam_sends (t : TRef) (f : Team → Team) : (s.onTeam t f).sends = s.sends := by unfold State.onTeam; split <;> rfl
@[simp] theorem onTeam_ctxs (t : TRef) (f : Team → Team) : (s.onTeam t f).ctxs = s.ctxs := by unfold State.onTeam; split <;> rfl
@[simp] theorem onTeam_cores (t : TRef) (f : Team → Team) : (s.onTeam t f).cores = s.cores := by unfold State.onTeam; split <;> rfl
@[simp] theorem onTeam_groups (t : TRef) (f : Team → Team) : (s.onTeam t f).groups = s.groups := by unfold State.onTeam; split <;> rfl
@[simp] theorem onTeam_grids (t : TRef) (f : Team → Team) : (s.onTeam t f).grids = s.grids := by unfold State.onTeam; split <;> rfl
@[simp] theorem onTeam_reservation (t : TRef) (f : Team → Team) : (s.onTeam t f).reservation = s.reservation := by unfold State.onTeam; split <;> rfl
@[simp] theorem onTeam_kernels (t : TRef) (f : Team → Team) : (s.onTeam t f).kernels = s.kernels := by unfold State.onTeam; split <;> rfl
@[simp] theorem onTeam_firn (t : TRef) (f : Team → Team) : (s.onTeam t f).firn = s.firn := by unfold State.onTeam; split <;> rfl
@[simp] theorem onTeam_builds (t : TRef) (f : Team → Team) : (s.onTeam t f).builds = s.builds := by unfold State.onTeam; split <;> rfl
@[simp] theorem onTeam_nextFirn (t : TRef) (f : Team → Team) : (s.onTeam t f).nextFirn = s.nextFirn := by unfold State.onTeam; split <;> rfl
@[simp] theorem onTeam_queues (t : TRef) (f : Team → Team) : (s.onTeam t f).queues = s.queues := by unfold State.onTeam; split <;> rfl
@[simp] theorem onTeam_owners (t : TRef) (f : Team → Team) : (s.onTeam t f).owners = s.owners := by unfold State.onTeam; split <;> rfl
@[simp] theorem onTeam_ctl (t : TRef) (f : Team → Team) : (s.onTeam t f).ctl = s.ctl := by unfold State.onTeam; split <;> rfl
@[simp] theorem onTeam_thresholds (t : TRef) (f : Team → Team) : (s.onTeam t f).thresholds = s.thresholds := by unfold State.onTeam; split <;> rfl
@[simp] theorem onTeam_testPeriods (t : TRef) (f : Team → Team) : (s.onTeam t f).testPeriods = s.testPeriods := by unfold State.onTeam; split <;> rfl
@[simp] theorem onTeam_obs (t : TRef) (f : Team → Team) : (s.onTeam t f).obs = s.obs := by unfold State.onTeam; split <;> rfl
@[simp] theorem onTeam_saved (t : TRef) (f : Team → Team) : (s.onTeam t f).saved = s.saved := by unfold State.onTeam; split <;> rfl
@[simp] theorem onTeam_weights (t : TRef) (f : Team → Team) : (s.onTeam t f).weights = s.weights := by unfold State.onTeam; split <;> rfl
@[simp] theorem onTeam_weightsNow (t : TRef) (f : Team → Team) : (s.onTeam t f).weightsNow = s.weightsNow := by unfold State.onTeam; split <;> rfl
@[simp] theorem onTeam_bankSel (t : TRef) (f : Team → Team) : (s.onTeam t f).bankSel = s.bankSel := by unfold State.onTeam; split <;> rfl
@[simp] theorem onTeam_banks (t : TRef) (f : Team → Team) : (s.onTeam t f).banks = s.banks := by unfold State.onTeam; split <;> rfl
@[simp] theorem onTeam_msgs (t : TRef) (f : Team → Team) : (s.onTeam t f).msgs = s.msgs := by unfold State.onTeam; split <;> rfl
@[simp] theorem onTeam_nextCodeId (t : TRef) (f : Team → Team) : (s.onTeam t f).nextCodeId = s.nextCodeId := by unfold State.onTeam; split <;> rfl
@[simp] theorem onTeam_insts (t : TRef) (f : Team → Team) : (s.onTeam t f).insts = s.insts := by unfold State.onTeam; split <;> rfl
@[simp] theorem onTeam_recs (t : TRef) (f : Team → Team) : (s.onTeam t f).recs = s.recs := by unfold State.onTeam; split <;> rfl
@[simp] theorem onTeam_pools (t : TRef) (f : Team → Team) : (s.onTeam t f).pools = s.pools := by unfold State.onTeam; split <;> rfl
@[simp] theorem onTeam_fabTags (t : TRef) (f : Team → Team) : (s.onTeam t f).fabTags = s.fabTags := by unfold State.onTeam; split <;> rfl
@[simp] theorem onTeam_fabSeq (t : TRef) (f : Team → Team) : (s.onTeam t f).fabSeq = s.fabSeq := by unfold State.onTeam; split <;> rfl
@[simp] theorem onTeam_fabIn (t : TRef) (f : Team → Team) : (s.onTeam t f).fabIn = s.fabIn := by unfold State.onTeam; split <;> rfl
@[simp] theorem onTeam_kept (t : TRef) (f : Team → Team) : (s.onTeam t f).kept = s.kept := by unfold State.onTeam; split <;> rfl
@[simp] theorem onTeam_fabOut (t : TRef) (f : Team → Team) : (s.onTeam t f).fabOut = s.fabOut := by unfold State.onTeam; split <;> rfl
@[simp] theorem onTeam_lost (t : TRef) (f : Team → Team) : (s.onTeam t f).lost = s.lost := by unfold State.onTeam; split <;> rfl
@[simp] theorem onTeam_unreachable (t : TRef) (f : Team → Team) : (s.onTeam t f).unreachable = s.unreachable := by unfold State.onTeam; split <;> rfl
@[simp] theorem onTeam_portsDown (t : TRef) (f : Team → Team) : (s.onTeam t f).portsDown = s.portsDown := by unfold State.onTeam; split <;> rfl
@[simp] theorem onTeam_deltas (t : TRef) (f : Team → Team) : (s.onTeam t f).deltas = s.deltas := by unfold State.onTeam; split <;> rfl
@[simp] theorem onTeam_colls (t : TRef) (f : Team → Team) : (s.onTeam t f).colls = s.colls := by unfold State.onTeam; split <;> rfl
@[simp] theorem onTeam_rebuilds (t : TRef) (f : Team → Team) : (s.onTeam t f).rebuilds = s.rebuilds := by unfold State.onTeam; split <;> rfl
@[simp] theorem onTeam_checkpoints (t : TRef) (f : Team → Team) : (s.onTeam t f).checkpoints = s.checkpoints := by unfold State.onTeam; split <;> rfl
@[simp] theorem onTeam_vault (t : TRef) (f : Team → Team) : (s.onTeam t f).vault = s.vault := by unfold State.onTeam; split <;> rfl
@[simp] theorem onTeam_powerAsks (t : TRef) (f : Team → Team) : (s.onTeam t f).powerAsks = s.powerAsks := by unfold State.onTeam; split <;> rfl
@[simp] theorem onTeam_secVersion (t : TRef) (f : Team → Team) : (s.onTeam t f).secVersion = s.secVersion := by unfold State.onTeam; split <;> rfl
@[simp] theorem onTeam_image (t : TRef) (f : Team → Team) : (s.onTeam t f).image = s.image := by unfold State.onTeam; split <;> rfl
@[simp] theorem onTeam_chanDown (t : TRef) (f : Team → Team) : (s.onTeam t f).chanDown = s.chanDown := by unfold State.onTeam; split <;> rfl
@[simp] theorem onTeam_code (t : TRef) (f : Team → Team) : (s.onTeam t f).code = s.code := by unfold State.onTeam; split <;> rfl
@[simp] theorem onTeam_icache (t : TRef) (f : Team → Team) : (s.onTeam t f).icache = s.icache := by unfold State.onTeam; split <;> rfl
@[simp] theorem onTeam_holds (t : TRef) (f : Team → Team) : (s.onTeam t f).holds = s.holds := by unfold State.onTeam; split <;> rfl
@[simp] theorem onCtx_agenda (c : Nat) (f : Ctx → Ctx) : (s.onCtx c f).agenda = s.agenda := by unfold State.onCtx; split <;> rfl
@[simp] theorem onCtx_choices (c : Nat) (f : Ctx → Ctx) : (s.onCtx c f).choices = s.choices := by unfold State.onCtx; split <;> rfl
@[simp] theorem onCtx_tick (c : Nat) (f : Ctx → Ctx) : (s.onCtx c f).tick = s.tick := by unfold State.onCtx; split <;> rfl
@[simp] theorem onCtx_cur (c : Nat) (f : Ctx → Ctx) : (s.onCtx c f).cur = s.cur := by unfold State.onCtx; split <;> rfl
@[simp] theorem onCtx_clock (c : Nat) (f : Ctx → Ctx) : (s.onCtx c f).clock = s.clock := by unfold State.onCtx; split <;> rfl
@[simp] theorem onCtx_endpointUp (c : Nat) (f : Ctx → Ctx) : (s.onCtx c f).endpointUp = s.endpointUp := by unfold State.onCtx; split <;> rfl
@[simp] theorem onCtx_inReset (c : Nat) (f : Ctx → Ctx) : (s.onCtx c f).inReset = s.inReset := by unfold State.onCtx; split <;> rfl
@[simp] theorem onCtx_fatal (c : Nat) (f : Ctx → Ctx) : (s.onCtx c f).fatal = s.fatal := by unfold State.onCtx; split <;> rfl
@[simp] theorem onCtx_mem (c : Nat) (f : Ctx → Ctx) : (s.onCtx c f).mem = s.mem := by unfold State.onCtx; split <;> rfl
@[simp] theorem onCtx_hostMem (c : Nat) (f : Ctx → Ctx) : (s.onCtx c f).hostMem = s.hostMem := by unfold State.onCtx; split <;> rfl
@[simp] theorem onCtx_poison (c : Nat) (f : Ctx → Ctx) : (s.onCtx c f).poison = s.poison := by unfold State.onCtx; split <;> rfl
@[simp] theorem onCtx_leases (c : Nat) (f : Ctx → Ctx) : (s.onCtx c f).leases = s.leases := by unfold State.onCtx; split <;> rfl
@[simp] theorem onCtx_l1 (c : Nat) (f : Ctx → Ctx) : (s.onCtx c f).l1 = s.l1 := by unfold State.onCtx; split <;> rfl
@[simp] theorem onCtx_rdc (c : Nat) (f : Ctx → Ctx) : (s.onCtx c f).rdc = s.rdc := by unfold State.onCtx; split <;> rfl
@[simp] theorem onCtx_excl (c : Nat) (f : Ctx → Ctx) : (s.onCtx c f).excl = s.excl := by unfold State.onCtx; split <;> rfl
@[simp] theorem onCtx_upart (c : Nat) (f : Ctx → Ctx) : (s.onCtx c f).upart = s.upart := by unfold State.onCtx; split <;> rfl
@[simp] theorem onCtx_remoteHolders (c : Nat) (f : Ctx → Ctx) : (s.onCtx c f).remoteHolders = s.remoteHolders := by unfold State.onCtx; split <;> rfl
@[simp] theorem onCtx_accepted (c : Nat) (f : Ctx → Ctx) : (s.onCtx c f).accepted = s.accepted := by unfold State.onCtx; split <;> rfl
@[simp] theorem onCtx_tlb (c : Nat) (f : Ctx → Ctx) : (s.onCtx c f).tlb = s.tlb := by unfold State.onCtx; split <;> rfl
@[simp] theorem onCtx_invals (c : Nat) (f : Ctx → Ctx) : (s.onCtx c f).invals = s.invals := by unfold State.onCtx; split <;> rfl
@[simp] theorem onCtx_migrations (c : Nat) (f : Ctx → Ctx) : (s.onCtx c f).migrations = s.migrations := by unfold State.onCtx; split <;> rfl
@[simp] theorem onCtx_frameOwner (c : Nat) (f : Ctx → Ctx) : (s.onCtx c f).frameOwner = s.frameOwner := by unfold State.onCtx; split <;> rfl
@[simp] theorem onCtx_sends (c : Nat) (f : Ctx → Ctx) : (s.onCtx c f).sends = s.sends := by unfold State.onCtx; split <;> rfl
@[simp] theorem onCtx_cores (c : Nat) (f : Ctx → Ctx) : (s.onCtx c f).cores = s.cores := by unfold State.onCtx; split <;> rfl
@[simp] theorem onCtx_teams (c : Nat) (f : Ctx → Ctx) : (s.onCtx c f).teams = s.teams := by unfold State.onCtx; split <;> rfl
@[simp] theorem onCtx_groups (c : Nat) (f : Ctx → Ctx) : (s.onCtx c f).groups = s.groups := by unfold State.onCtx; split <;> rfl
@[simp] theorem onCtx_grids (c : Nat) (f : Ctx → Ctx) : (s.onCtx c f).grids = s.grids := by unfold State.onCtx; split <;> rfl
@[simp] theorem onCtx_reservation (c : Nat) (f : Ctx → Ctx) : (s.onCtx c f).reservation = s.reservation := by unfold State.onCtx; split <;> rfl
@[simp] theorem onCtx_kernels (c : Nat) (f : Ctx → Ctx) : (s.onCtx c f).kernels = s.kernels := by unfold State.onCtx; split <;> rfl
@[simp] theorem onCtx_firn (c : Nat) (f : Ctx → Ctx) : (s.onCtx c f).firn = s.firn := by unfold State.onCtx; split <;> rfl
@[simp] theorem onCtx_builds (c : Nat) (f : Ctx → Ctx) : (s.onCtx c f).builds = s.builds := by unfold State.onCtx; split <;> rfl
@[simp] theorem onCtx_nextFirn (c : Nat) (f : Ctx → Ctx) : (s.onCtx c f).nextFirn = s.nextFirn := by unfold State.onCtx; split <;> rfl
@[simp] theorem onCtx_queues (c : Nat) (f : Ctx → Ctx) : (s.onCtx c f).queues = s.queues := by unfold State.onCtx; split <;> rfl
@[simp] theorem onCtx_owners (c : Nat) (f : Ctx → Ctx) : (s.onCtx c f).owners = s.owners := by unfold State.onCtx; split <;> rfl
@[simp] theorem onCtx_ctl (c : Nat) (f : Ctx → Ctx) : (s.onCtx c f).ctl = s.ctl := by unfold State.onCtx; split <;> rfl
@[simp] theorem onCtx_thresholds (c : Nat) (f : Ctx → Ctx) : (s.onCtx c f).thresholds = s.thresholds := by unfold State.onCtx; split <;> rfl
@[simp] theorem onCtx_testPeriods (c : Nat) (f : Ctx → Ctx) : (s.onCtx c f).testPeriods = s.testPeriods := by unfold State.onCtx; split <;> rfl
@[simp] theorem onCtx_obs (c : Nat) (f : Ctx → Ctx) : (s.onCtx c f).obs = s.obs := by unfold State.onCtx; split <;> rfl
@[simp] theorem onCtx_saved (c : Nat) (f : Ctx → Ctx) : (s.onCtx c f).saved = s.saved := by unfold State.onCtx; split <;> rfl
@[simp] theorem onCtx_weights (c : Nat) (f : Ctx → Ctx) : (s.onCtx c f).weights = s.weights := by unfold State.onCtx; split <;> rfl
@[simp] theorem onCtx_weightsNow (c : Nat) (f : Ctx → Ctx) : (s.onCtx c f).weightsNow = s.weightsNow := by unfold State.onCtx; split <;> rfl
@[simp] theorem onCtx_bankSel (c : Nat) (f : Ctx → Ctx) : (s.onCtx c f).bankSel = s.bankSel := by unfold State.onCtx; split <;> rfl
@[simp] theorem onCtx_banks (c : Nat) (f : Ctx → Ctx) : (s.onCtx c f).banks = s.banks := by unfold State.onCtx; split <;> rfl
@[simp] theorem onCtx_msgs (c : Nat) (f : Ctx → Ctx) : (s.onCtx c f).msgs = s.msgs := by unfold State.onCtx; split <;> rfl
@[simp] theorem onCtx_nextCodeId (c : Nat) (f : Ctx → Ctx) : (s.onCtx c f).nextCodeId = s.nextCodeId := by unfold State.onCtx; split <;> rfl
@[simp] theorem onCtx_insts (c : Nat) (f : Ctx → Ctx) : (s.onCtx c f).insts = s.insts := by unfold State.onCtx; split <;> rfl
@[simp] theorem onCtx_recs (c : Nat) (f : Ctx → Ctx) : (s.onCtx c f).recs = s.recs := by unfold State.onCtx; split <;> rfl
@[simp] theorem onCtx_pools (c : Nat) (f : Ctx → Ctx) : (s.onCtx c f).pools = s.pools := by unfold State.onCtx; split <;> rfl
@[simp] theorem onCtx_fabTags (c : Nat) (f : Ctx → Ctx) : (s.onCtx c f).fabTags = s.fabTags := by unfold State.onCtx; split <;> rfl
@[simp] theorem onCtx_fabSeq (c : Nat) (f : Ctx → Ctx) : (s.onCtx c f).fabSeq = s.fabSeq := by unfold State.onCtx; split <;> rfl
@[simp] theorem onCtx_fabIn (c : Nat) (f : Ctx → Ctx) : (s.onCtx c f).fabIn = s.fabIn := by unfold State.onCtx; split <;> rfl
@[simp] theorem onCtx_kept (c : Nat) (f : Ctx → Ctx) : (s.onCtx c f).kept = s.kept := by unfold State.onCtx; split <;> rfl
@[simp] theorem onCtx_fabOut (c : Nat) (f : Ctx → Ctx) : (s.onCtx c f).fabOut = s.fabOut := by unfold State.onCtx; split <;> rfl
@[simp] theorem onCtx_lost (c : Nat) (f : Ctx → Ctx) : (s.onCtx c f).lost = s.lost := by unfold State.onCtx; split <;> rfl
@[simp] theorem onCtx_unreachable (c : Nat) (f : Ctx → Ctx) : (s.onCtx c f).unreachable = s.unreachable := by unfold State.onCtx; split <;> rfl
@[simp] theorem onCtx_portsDown (c : Nat) (f : Ctx → Ctx) : (s.onCtx c f).portsDown = s.portsDown := by unfold State.onCtx; split <;> rfl
@[simp] theorem onCtx_deltas (c : Nat) (f : Ctx → Ctx) : (s.onCtx c f).deltas = s.deltas := by unfold State.onCtx; split <;> rfl
@[simp] theorem onCtx_colls (c : Nat) (f : Ctx → Ctx) : (s.onCtx c f).colls = s.colls := by unfold State.onCtx; split <;> rfl
@[simp] theorem onCtx_rebuilds (c : Nat) (f : Ctx → Ctx) : (s.onCtx c f).rebuilds = s.rebuilds := by unfold State.onCtx; split <;> rfl
@[simp] theorem onCtx_checkpoints (c : Nat) (f : Ctx → Ctx) : (s.onCtx c f).checkpoints = s.checkpoints := by unfold State.onCtx; split <;> rfl
@[simp] theorem onCtx_vault (c : Nat) (f : Ctx → Ctx) : (s.onCtx c f).vault = s.vault := by unfold State.onCtx; split <;> rfl
@[simp] theorem onCtx_powerAsks (c : Nat) (f : Ctx → Ctx) : (s.onCtx c f).powerAsks = s.powerAsks := by unfold State.onCtx; split <;> rfl
@[simp] theorem onCtx_secVersion (c : Nat) (f : Ctx → Ctx) : (s.onCtx c f).secVersion = s.secVersion := by unfold State.onCtx; split <;> rfl
@[simp] theorem onCtx_image (c : Nat) (f : Ctx → Ctx) : (s.onCtx c f).image = s.image := by unfold State.onCtx; split <;> rfl
@[simp] theorem onCtx_chanDown (c : Nat) (f : Ctx → Ctx) : (s.onCtx c f).chanDown = s.chanDown := by unfold State.onCtx; split <;> rfl
@[simp] theorem onCtx_code (c : Nat) (f : Ctx → Ctx) : (s.onCtx c f).code = s.code := by unfold State.onCtx; split <;> rfl
@[simp] theorem onCtx_icache (c : Nat) (f : Ctx → Ctx) : (s.onCtx c f).icache = s.icache := by unfold State.onCtx; split <;> rfl
@[simp] theorem onCtx_holds (c : Nat) (f : Ctx → Ctx) : (s.onCtx c f).holds = s.holds := by unfold State.onCtx; split <;> rfl
@[simp] theorem onGrid_agenda (n : Nat) (f : Grid → Grid) : (s.onGrid n f).agenda = s.agenda := by unfold State.onGrid; split <;> rfl
@[simp] theorem onGrid_choices (n : Nat) (f : Grid → Grid) : (s.onGrid n f).choices = s.choices := by unfold State.onGrid; split <;> rfl
@[simp] theorem onGrid_tick (n : Nat) (f : Grid → Grid) : (s.onGrid n f).tick = s.tick := by unfold State.onGrid; split <;> rfl
@[simp] theorem onGrid_cur (n : Nat) (f : Grid → Grid) : (s.onGrid n f).cur = s.cur := by unfold State.onGrid; split <;> rfl
@[simp] theorem onGrid_clock (n : Nat) (f : Grid → Grid) : (s.onGrid n f).clock = s.clock := by unfold State.onGrid; split <;> rfl
@[simp] theorem onGrid_endpointUp (n : Nat) (f : Grid → Grid) : (s.onGrid n f).endpointUp = s.endpointUp := by unfold State.onGrid; split <;> rfl
@[simp] theorem onGrid_inReset (n : Nat) (f : Grid → Grid) : (s.onGrid n f).inReset = s.inReset := by unfold State.onGrid; split <;> rfl
@[simp] theorem onGrid_fatal (n : Nat) (f : Grid → Grid) : (s.onGrid n f).fatal = s.fatal := by unfold State.onGrid; split <;> rfl
@[simp] theorem onGrid_mem (n : Nat) (f : Grid → Grid) : (s.onGrid n f).mem = s.mem := by unfold State.onGrid; split <;> rfl
@[simp] theorem onGrid_hostMem (n : Nat) (f : Grid → Grid) : (s.onGrid n f).hostMem = s.hostMem := by unfold State.onGrid; split <;> rfl
@[simp] theorem onGrid_poison (n : Nat) (f : Grid → Grid) : (s.onGrid n f).poison = s.poison := by unfold State.onGrid; split <;> rfl
@[simp] theorem onGrid_leases (n : Nat) (f : Grid → Grid) : (s.onGrid n f).leases = s.leases := by unfold State.onGrid; split <;> rfl
@[simp] theorem onGrid_l1 (n : Nat) (f : Grid → Grid) : (s.onGrid n f).l1 = s.l1 := by unfold State.onGrid; split <;> rfl
@[simp] theorem onGrid_rdc (n : Nat) (f : Grid → Grid) : (s.onGrid n f).rdc = s.rdc := by unfold State.onGrid; split <;> rfl
@[simp] theorem onGrid_excl (n : Nat) (f : Grid → Grid) : (s.onGrid n f).excl = s.excl := by unfold State.onGrid; split <;> rfl
@[simp] theorem onGrid_upart (n : Nat) (f : Grid → Grid) : (s.onGrid n f).upart = s.upart := by unfold State.onGrid; split <;> rfl
@[simp] theorem onGrid_remoteHolders (n : Nat) (f : Grid → Grid) : (s.onGrid n f).remoteHolders = s.remoteHolders := by unfold State.onGrid; split <;> rfl
@[simp] theorem onGrid_accepted (n : Nat) (f : Grid → Grid) : (s.onGrid n f).accepted = s.accepted := by unfold State.onGrid; split <;> rfl
@[simp] theorem onGrid_tlb (n : Nat) (f : Grid → Grid) : (s.onGrid n f).tlb = s.tlb := by unfold State.onGrid; split <;> rfl
@[simp] theorem onGrid_invals (n : Nat) (f : Grid → Grid) : (s.onGrid n f).invals = s.invals := by unfold State.onGrid; split <;> rfl
@[simp] theorem onGrid_migrations (n : Nat) (f : Grid → Grid) : (s.onGrid n f).migrations = s.migrations := by unfold State.onGrid; split <;> rfl
@[simp] theorem onGrid_frameOwner (n : Nat) (f : Grid → Grid) : (s.onGrid n f).frameOwner = s.frameOwner := by unfold State.onGrid; split <;> rfl
@[simp] theorem onGrid_sends (n : Nat) (f : Grid → Grid) : (s.onGrid n f).sends = s.sends := by unfold State.onGrid; split <;> rfl
@[simp] theorem onGrid_ctxs (n : Nat) (f : Grid → Grid) : (s.onGrid n f).ctxs = s.ctxs := by unfold State.onGrid; split <;> rfl
@[simp] theorem onGrid_cores (n : Nat) (f : Grid → Grid) : (s.onGrid n f).cores = s.cores := by unfold State.onGrid; split <;> rfl
@[simp] theorem onGrid_teams (n : Nat) (f : Grid → Grid) : (s.onGrid n f).teams = s.teams := by unfold State.onGrid; split <;> rfl
@[simp] theorem onGrid_groups (n : Nat) (f : Grid → Grid) : (s.onGrid n f).groups = s.groups := by unfold State.onGrid; split <;> rfl
@[simp] theorem onGrid_reservation (n : Nat) (f : Grid → Grid) : (s.onGrid n f).reservation = s.reservation := by unfold State.onGrid; split <;> rfl
@[simp] theorem onGrid_kernels (n : Nat) (f : Grid → Grid) : (s.onGrid n f).kernels = s.kernels := by unfold State.onGrid; split <;> rfl
@[simp] theorem onGrid_firn (n : Nat) (f : Grid → Grid) : (s.onGrid n f).firn = s.firn := by unfold State.onGrid; split <;> rfl
@[simp] theorem onGrid_builds (n : Nat) (f : Grid → Grid) : (s.onGrid n f).builds = s.builds := by unfold State.onGrid; split <;> rfl
@[simp] theorem onGrid_nextFirn (n : Nat) (f : Grid → Grid) : (s.onGrid n f).nextFirn = s.nextFirn := by unfold State.onGrid; split <;> rfl
@[simp] theorem onGrid_queues (n : Nat) (f : Grid → Grid) : (s.onGrid n f).queues = s.queues := by unfold State.onGrid; split <;> rfl
@[simp] theorem onGrid_owners (n : Nat) (f : Grid → Grid) : (s.onGrid n f).owners = s.owners := by unfold State.onGrid; split <;> rfl
@[simp] theorem onGrid_ctl (n : Nat) (f : Grid → Grid) : (s.onGrid n f).ctl = s.ctl := by unfold State.onGrid; split <;> rfl
@[simp] theorem onGrid_thresholds (n : Nat) (f : Grid → Grid) : (s.onGrid n f).thresholds = s.thresholds := by unfold State.onGrid; split <;> rfl
@[simp] theorem onGrid_testPeriods (n : Nat) (f : Grid → Grid) : (s.onGrid n f).testPeriods = s.testPeriods := by unfold State.onGrid; split <;> rfl
@[simp] theorem onGrid_obs (n : Nat) (f : Grid → Grid) : (s.onGrid n f).obs = s.obs := by unfold State.onGrid; split <;> rfl
@[simp] theorem onGrid_saved (n : Nat) (f : Grid → Grid) : (s.onGrid n f).saved = s.saved := by unfold State.onGrid; split <;> rfl
@[simp] theorem onGrid_weights (n : Nat) (f : Grid → Grid) : (s.onGrid n f).weights = s.weights := by unfold State.onGrid; split <;> rfl
@[simp] theorem onGrid_weightsNow (n : Nat) (f : Grid → Grid) : (s.onGrid n f).weightsNow = s.weightsNow := by unfold State.onGrid; split <;> rfl
@[simp] theorem onGrid_bankSel (n : Nat) (f : Grid → Grid) : (s.onGrid n f).bankSel = s.bankSel := by unfold State.onGrid; split <;> rfl
@[simp] theorem onGrid_banks (n : Nat) (f : Grid → Grid) : (s.onGrid n f).banks = s.banks := by unfold State.onGrid; split <;> rfl
@[simp] theorem onGrid_msgs (n : Nat) (f : Grid → Grid) : (s.onGrid n f).msgs = s.msgs := by unfold State.onGrid; split <;> rfl
@[simp] theorem onGrid_nextCodeId (n : Nat) (f : Grid → Grid) : (s.onGrid n f).nextCodeId = s.nextCodeId := by unfold State.onGrid; split <;> rfl
@[simp] theorem onGrid_insts (n : Nat) (f : Grid → Grid) : (s.onGrid n f).insts = s.insts := by unfold State.onGrid; split <;> rfl
@[simp] theorem onGrid_recs (n : Nat) (f : Grid → Grid) : (s.onGrid n f).recs = s.recs := by unfold State.onGrid; split <;> rfl
@[simp] theorem onGrid_pools (n : Nat) (f : Grid → Grid) : (s.onGrid n f).pools = s.pools := by unfold State.onGrid; split <;> rfl
@[simp] theorem onGrid_fabTags (n : Nat) (f : Grid → Grid) : (s.onGrid n f).fabTags = s.fabTags := by unfold State.onGrid; split <;> rfl
@[simp] theorem onGrid_fabSeq (n : Nat) (f : Grid → Grid) : (s.onGrid n f).fabSeq = s.fabSeq := by unfold State.onGrid; split <;> rfl
@[simp] theorem onGrid_fabIn (n : Nat) (f : Grid → Grid) : (s.onGrid n f).fabIn = s.fabIn := by unfold State.onGrid; split <;> rfl
@[simp] theorem onGrid_kept (n : Nat) (f : Grid → Grid) : (s.onGrid n f).kept = s.kept := by unfold State.onGrid; split <;> rfl
@[simp] theorem onGrid_fabOut (n : Nat) (f : Grid → Grid) : (s.onGrid n f).fabOut = s.fabOut := by unfold State.onGrid; split <;> rfl
@[simp] theorem onGrid_lost (n : Nat) (f : Grid → Grid) : (s.onGrid n f).lost = s.lost := by unfold State.onGrid; split <;> rfl
@[simp] theorem onGrid_unreachable (n : Nat) (f : Grid → Grid) : (s.onGrid n f).unreachable = s.unreachable := by unfold State.onGrid; split <;> rfl
@[simp] theorem onGrid_portsDown (n : Nat) (f : Grid → Grid) : (s.onGrid n f).portsDown = s.portsDown := by unfold State.onGrid; split <;> rfl
@[simp] theorem onGrid_deltas (n : Nat) (f : Grid → Grid) : (s.onGrid n f).deltas = s.deltas := by unfold State.onGrid; split <;> rfl
@[simp] theorem onGrid_colls (n : Nat) (f : Grid → Grid) : (s.onGrid n f).colls = s.colls := by unfold State.onGrid; split <;> rfl
@[simp] theorem onGrid_rebuilds (n : Nat) (f : Grid → Grid) : (s.onGrid n f).rebuilds = s.rebuilds := by unfold State.onGrid; split <;> rfl
@[simp] theorem onGrid_checkpoints (n : Nat) (f : Grid → Grid) : (s.onGrid n f).checkpoints = s.checkpoints := by unfold State.onGrid; split <;> rfl
@[simp] theorem onGrid_vault (n : Nat) (f : Grid → Grid) : (s.onGrid n f).vault = s.vault := by unfold State.onGrid; split <;> rfl
@[simp] theorem onGrid_powerAsks (n : Nat) (f : Grid → Grid) : (s.onGrid n f).powerAsks = s.powerAsks := by unfold State.onGrid; split <;> rfl
@[simp] theorem onGrid_secVersion (n : Nat) (f : Grid → Grid) : (s.onGrid n f).secVersion = s.secVersion := by unfold State.onGrid; split <;> rfl
@[simp] theorem onGrid_image (n : Nat) (f : Grid → Grid) : (s.onGrid n f).image = s.image := by unfold State.onGrid; split <;> rfl
@[simp] theorem onGrid_chanDown (n : Nat) (f : Grid → Grid) : (s.onGrid n f).chanDown = s.chanDown := by unfold State.onGrid; split <;> rfl
@[simp] theorem onGrid_code (n : Nat) (f : Grid → Grid) : (s.onGrid n f).code = s.code := by unfold State.onGrid; split <;> rfl
@[simp] theorem onGrid_icache (n : Nat) (f : Grid → Grid) : (s.onGrid n f).icache = s.icache := by unfold State.onGrid; split <;> rfl
@[simp] theorem onGrid_holds (n : Nat) (f : Grid → Grid) : (s.onGrid n f).holds = s.holds := by unfold State.onGrid; split <;> rfl
@[simp] theorem onQueue_agenda (n : Nat) (f : Queue → Queue) : (s.onQueue n f).agenda = s.agenda := by unfold State.onQueue; split <;> rfl
@[simp] theorem onQueue_choices (n : Nat) (f : Queue → Queue) : (s.onQueue n f).choices = s.choices := by unfold State.onQueue; split <;> rfl
@[simp] theorem onQueue_tick (n : Nat) (f : Queue → Queue) : (s.onQueue n f).tick = s.tick := by unfold State.onQueue; split <;> rfl
@[simp] theorem onQueue_cur (n : Nat) (f : Queue → Queue) : (s.onQueue n f).cur = s.cur := by unfold State.onQueue; split <;> rfl
@[simp] theorem onQueue_clock (n : Nat) (f : Queue → Queue) : (s.onQueue n f).clock = s.clock := by unfold State.onQueue; split <;> rfl
@[simp] theorem onQueue_endpointUp (n : Nat) (f : Queue → Queue) : (s.onQueue n f).endpointUp = s.endpointUp := by unfold State.onQueue; split <;> rfl
@[simp] theorem onQueue_inReset (n : Nat) (f : Queue → Queue) : (s.onQueue n f).inReset = s.inReset := by unfold State.onQueue; split <;> rfl
@[simp] theorem onQueue_fatal (n : Nat) (f : Queue → Queue) : (s.onQueue n f).fatal = s.fatal := by unfold State.onQueue; split <;> rfl
@[simp] theorem onQueue_mem (n : Nat) (f : Queue → Queue) : (s.onQueue n f).mem = s.mem := by unfold State.onQueue; split <;> rfl
@[simp] theorem onQueue_hostMem (n : Nat) (f : Queue → Queue) : (s.onQueue n f).hostMem = s.hostMem := by unfold State.onQueue; split <;> rfl
@[simp] theorem onQueue_poison (n : Nat) (f : Queue → Queue) : (s.onQueue n f).poison = s.poison := by unfold State.onQueue; split <;> rfl
@[simp] theorem onQueue_leases (n : Nat) (f : Queue → Queue) : (s.onQueue n f).leases = s.leases := by unfold State.onQueue; split <;> rfl
@[simp] theorem onQueue_l1 (n : Nat) (f : Queue → Queue) : (s.onQueue n f).l1 = s.l1 := by unfold State.onQueue; split <;> rfl
@[simp] theorem onQueue_rdc (n : Nat) (f : Queue → Queue) : (s.onQueue n f).rdc = s.rdc := by unfold State.onQueue; split <;> rfl
@[simp] theorem onQueue_excl (n : Nat) (f : Queue → Queue) : (s.onQueue n f).excl = s.excl := by unfold State.onQueue; split <;> rfl
@[simp] theorem onQueue_upart (n : Nat) (f : Queue → Queue) : (s.onQueue n f).upart = s.upart := by unfold State.onQueue; split <;> rfl
@[simp] theorem onQueue_remoteHolders (n : Nat) (f : Queue → Queue) : (s.onQueue n f).remoteHolders = s.remoteHolders := by unfold State.onQueue; split <;> rfl
@[simp] theorem onQueue_accepted (n : Nat) (f : Queue → Queue) : (s.onQueue n f).accepted = s.accepted := by unfold State.onQueue; split <;> rfl
@[simp] theorem onQueue_tlb (n : Nat) (f : Queue → Queue) : (s.onQueue n f).tlb = s.tlb := by unfold State.onQueue; split <;> rfl
@[simp] theorem onQueue_invals (n : Nat) (f : Queue → Queue) : (s.onQueue n f).invals = s.invals := by unfold State.onQueue; split <;> rfl
@[simp] theorem onQueue_migrations (n : Nat) (f : Queue → Queue) : (s.onQueue n f).migrations = s.migrations := by unfold State.onQueue; split <;> rfl
@[simp] theorem onQueue_frameOwner (n : Nat) (f : Queue → Queue) : (s.onQueue n f).frameOwner = s.frameOwner := by unfold State.onQueue; split <;> rfl
@[simp] theorem onQueue_sends (n : Nat) (f : Queue → Queue) : (s.onQueue n f).sends = s.sends := by unfold State.onQueue; split <;> rfl
@[simp] theorem onQueue_ctxs (n : Nat) (f : Queue → Queue) : (s.onQueue n f).ctxs = s.ctxs := by unfold State.onQueue; split <;> rfl
@[simp] theorem onQueue_cores (n : Nat) (f : Queue → Queue) : (s.onQueue n f).cores = s.cores := by unfold State.onQueue; split <;> rfl
@[simp] theorem onQueue_teams (n : Nat) (f : Queue → Queue) : (s.onQueue n f).teams = s.teams := by unfold State.onQueue; split <;> rfl
@[simp] theorem onQueue_groups (n : Nat) (f : Queue → Queue) : (s.onQueue n f).groups = s.groups := by unfold State.onQueue; split <;> rfl
@[simp] theorem onQueue_grids (n : Nat) (f : Queue → Queue) : (s.onQueue n f).grids = s.grids := by unfold State.onQueue; split <;> rfl
@[simp] theorem onQueue_reservation (n : Nat) (f : Queue → Queue) : (s.onQueue n f).reservation = s.reservation := by unfold State.onQueue; split <;> rfl
@[simp] theorem onQueue_kernels (n : Nat) (f : Queue → Queue) : (s.onQueue n f).kernels = s.kernels := by unfold State.onQueue; split <;> rfl
@[simp] theorem onQueue_firn (n : Nat) (f : Queue → Queue) : (s.onQueue n f).firn = s.firn := by unfold State.onQueue; split <;> rfl
@[simp] theorem onQueue_builds (n : Nat) (f : Queue → Queue) : (s.onQueue n f).builds = s.builds := by unfold State.onQueue; split <;> rfl
@[simp] theorem onQueue_nextFirn (n : Nat) (f : Queue → Queue) : (s.onQueue n f).nextFirn = s.nextFirn := by unfold State.onQueue; split <;> rfl
@[simp] theorem onQueue_owners (n : Nat) (f : Queue → Queue) : (s.onQueue n f).owners = s.owners := by unfold State.onQueue; split <;> rfl
@[simp] theorem onQueue_ctl (n : Nat) (f : Queue → Queue) : (s.onQueue n f).ctl = s.ctl := by unfold State.onQueue; split <;> rfl
@[simp] theorem onQueue_thresholds (n : Nat) (f : Queue → Queue) : (s.onQueue n f).thresholds = s.thresholds := by unfold State.onQueue; split <;> rfl
@[simp] theorem onQueue_testPeriods (n : Nat) (f : Queue → Queue) : (s.onQueue n f).testPeriods = s.testPeriods := by unfold State.onQueue; split <;> rfl
@[simp] theorem onQueue_obs (n : Nat) (f : Queue → Queue) : (s.onQueue n f).obs = s.obs := by unfold State.onQueue; split <;> rfl
@[simp] theorem onQueue_saved (n : Nat) (f : Queue → Queue) : (s.onQueue n f).saved = s.saved := by unfold State.onQueue; split <;> rfl
@[simp] theorem onQueue_weights (n : Nat) (f : Queue → Queue) : (s.onQueue n f).weights = s.weights := by unfold State.onQueue; split <;> rfl
@[simp] theorem onQueue_weightsNow (n : Nat) (f : Queue → Queue) : (s.onQueue n f).weightsNow = s.weightsNow := by unfold State.onQueue; split <;> rfl
@[simp] theorem onQueue_bankSel (n : Nat) (f : Queue → Queue) : (s.onQueue n f).bankSel = s.bankSel := by unfold State.onQueue; split <;> rfl
@[simp] theorem onQueue_banks (n : Nat) (f : Queue → Queue) : (s.onQueue n f).banks = s.banks := by unfold State.onQueue; split <;> rfl
@[simp] theorem onQueue_msgs (n : Nat) (f : Queue → Queue) : (s.onQueue n f).msgs = s.msgs := by unfold State.onQueue; split <;> rfl
@[simp] theorem onQueue_nextCodeId (n : Nat) (f : Queue → Queue) : (s.onQueue n f).nextCodeId = s.nextCodeId := by unfold State.onQueue; split <;> rfl
@[simp] theorem onQueue_insts (n : Nat) (f : Queue → Queue) : (s.onQueue n f).insts = s.insts := by unfold State.onQueue; split <;> rfl
@[simp] theorem onQueue_recs (n : Nat) (f : Queue → Queue) : (s.onQueue n f).recs = s.recs := by unfold State.onQueue; split <;> rfl
@[simp] theorem onQueue_pools (n : Nat) (f : Queue → Queue) : (s.onQueue n f).pools = s.pools := by unfold State.onQueue; split <;> rfl
@[simp] theorem onQueue_fabTags (n : Nat) (f : Queue → Queue) : (s.onQueue n f).fabTags = s.fabTags := by unfold State.onQueue; split <;> rfl
@[simp] theorem onQueue_fabSeq (n : Nat) (f : Queue → Queue) : (s.onQueue n f).fabSeq = s.fabSeq := by unfold State.onQueue; split <;> rfl
@[simp] theorem onQueue_fabIn (n : Nat) (f : Queue → Queue) : (s.onQueue n f).fabIn = s.fabIn := by unfold State.onQueue; split <;> rfl
@[simp] theorem onQueue_kept (n : Nat) (f : Queue → Queue) : (s.onQueue n f).kept = s.kept := by unfold State.onQueue; split <;> rfl
@[simp] theorem onQueue_fabOut (n : Nat) (f : Queue → Queue) : (s.onQueue n f).fabOut = s.fabOut := by unfold State.onQueue; split <;> rfl
@[simp] theorem onQueue_lost (n : Nat) (f : Queue → Queue) : (s.onQueue n f).lost = s.lost := by unfold State.onQueue; split <;> rfl
@[simp] theorem onQueue_unreachable (n : Nat) (f : Queue → Queue) : (s.onQueue n f).unreachable = s.unreachable := by unfold State.onQueue; split <;> rfl
@[simp] theorem onQueue_portsDown (n : Nat) (f : Queue → Queue) : (s.onQueue n f).portsDown = s.portsDown := by unfold State.onQueue; split <;> rfl
@[simp] theorem onQueue_deltas (n : Nat) (f : Queue → Queue) : (s.onQueue n f).deltas = s.deltas := by unfold State.onQueue; split <;> rfl
@[simp] theorem onQueue_colls (n : Nat) (f : Queue → Queue) : (s.onQueue n f).colls = s.colls := by unfold State.onQueue; split <;> rfl
@[simp] theorem onQueue_rebuilds (n : Nat) (f : Queue → Queue) : (s.onQueue n f).rebuilds = s.rebuilds := by unfold State.onQueue; split <;> rfl
@[simp] theorem onQueue_checkpoints (n : Nat) (f : Queue → Queue) : (s.onQueue n f).checkpoints = s.checkpoints := by unfold State.onQueue; split <;> rfl
@[simp] theorem onQueue_vault (n : Nat) (f : Queue → Queue) : (s.onQueue n f).vault = s.vault := by unfold State.onQueue; split <;> rfl
@[simp] theorem onQueue_powerAsks (n : Nat) (f : Queue → Queue) : (s.onQueue n f).powerAsks = s.powerAsks := by unfold State.onQueue; split <;> rfl
@[simp] theorem onQueue_secVersion (n : Nat) (f : Queue → Queue) : (s.onQueue n f).secVersion = s.secVersion := by unfold State.onQueue; split <;> rfl
@[simp] theorem onQueue_image (n : Nat) (f : Queue → Queue) : (s.onQueue n f).image = s.image := by unfold State.onQueue; split <;> rfl
@[simp] theorem onQueue_chanDown (n : Nat) (f : Queue → Queue) : (s.onQueue n f).chanDown = s.chanDown := by unfold State.onQueue; split <;> rfl
@[simp] theorem onQueue_code (n : Nat) (f : Queue → Queue) : (s.onQueue n f).code = s.code := by unfold State.onQueue; split <;> rfl
@[simp] theorem onQueue_icache (n : Nat) (f : Queue → Queue) : (s.onQueue n f).icache = s.icache := by unfold State.onQueue; split <;> rfl
@[simp] theorem onQueue_holds (n : Nat) (f : Queue → Queue) : (s.onQueue n f).holds = s.holds := by unfold State.onQueue; split <;> rfl

/-! The scalar side of a group -/

theorem setS_zero (gr : Group) (x : W64) : gr.setS 0 x = gr := rfl
theorem setS_ne {d : SReg} (gr : Group) (x : W64) (h : d ≠ 0) : gr.setS d x = { gr with s := sset gr.s d.val x } := by
  simp [Group.setS, h]
@[simp] theorem sreg_zero (gr : Group) : gr.sreg 0 = 0 := by simp [Group.sreg]
theorem sreg_setS_same {d : SReg} (gr : Group) (x : W64) (h : d ≠ 0) : (gr.setS d x).sreg d = x := by
  simp [Group.setS, Group.sreg, h]
theorem sreg_setS_other {d a : SReg} (gr : Group) (x : W64) (h : a ≠ d) : (gr.setS d x).sreg a = gr.sreg a := by
  unfold Group.setS
  split
  · rfl
  · simp only [Group.sreg]; rw [sget_sset_other _ _ (fun e => h (Fin.ext e))]
@[simp] theorem creg_setC_same (gr : Group) (c : CReg) (b : Bool) : (gr.setC c b).creg c = b := by
  cases b <;> simp [Group.setC, Group.creg]
theorem creg_setC_other {c d : CReg} (gr : Group) (b : Bool) (h : d ≠ c) : (gr.setC c b).creg d = gr.creg d := by
  simp only [Group.setC, Group.creg]; rw [sget_sset_other _ _ (fun e => h (Fin.ext e))]
@[simp] theorem setS_role (gr : Group) (d : SReg) (x : W64) : (gr.setS d x).role = gr.role := by unfold Group.setS; split <;> rfl
@[simp] theorem setS_allot (gr : Group) (d : SReg) (x : W64) : (gr.setS d x).allot = gr.allot := by unfold Group.setS; split <;> rfl
@[simp] theorem setS_quarter (gr : Group) (d : SReg) (x : W64) : (gr.setS d x).quarter = gr.quarter := by unfold Group.setS; split <;> rfl
@[simp] theorem setS_age (gr : Group) (d : SReg) (x : W64) : (gr.setS d x).age = gr.age := by unfold Group.setS; split <;> rfl
@[simp] theorem setS_c (gr : Group) (d : SReg) (x : W64) : (gr.setS d x).c = gr.c := by unfold Group.setS; split <;> rfl
@[simp] theorem setS_k (gr : Group) (d : SReg) (x : W64) : (gr.setS d x).k = gr.k := by unfold Group.setS; split <;> rfl
@[simp] theorem setS_yS (gr : Group) (d : SReg) (x : W64) : (gr.setS d x).yS = gr.yS := by unfold Group.setS; split <;> rfl
@[simp] theorem setS_yL (gr : Group) (d : SReg) (x : W64) : (gr.setS d x).yL = gr.yL := by unfold Group.setS; split <;> rfl
@[simp] theorem setS_exmS (gr : Group) (d : SReg) (x : W64) : (gr.setS d x).exmS = gr.exmS := by unfold Group.setS; split <;> rfl
@[simp] theorem setS_exmL (gr : Group) (d : SReg) (x : W64) : (gr.setS d x).exmL = gr.exmL := by unfold Group.setS; split <;> rfl
@[simp] theorem setS_fmtS (gr : Group) (d : SReg) (x : W64) : (gr.setS d x).fmtS = gr.fmtS := by unfold Group.setS; split <;> rfl
@[simp] theorem setS_fmtL (gr : Group) (d : SReg) (x : W64) : (gr.setS d x).fmtL = gr.fmtL := by unfold Group.setS; split <;> rfl
@[simp] theorem setS_gfS (gr : Group) (d : SReg) (x : W64) : (gr.setS d x).gfS = gr.gfS := by unfold Group.setS; split <;> rfl
@[simp] theorem setS_gfL (gr : Group) (d : SReg) (x : W64) : (gr.setS d x).gfL = gr.gfL := by unfold Group.setS; split <;> rfl
@[simp] theorem setS_v (gr : Group) (d : SReg) (x : W64) : (gr.setS d x).v = gr.v := by unfold Group.setS; split <;> rfl
@[simp] theorem setS_p (gr : Group) (d : SReg) (x : W64) : (gr.setS d x).p = gr.p := by unfold Group.setS; split <;> rfl
@[simp] theorem setS_remap (gr : Group) (d : SReg) (x : W64) : (gr.setS d x).remap = gr.remap := by unfold Group.setS; split <;> rfl
@[simp] theorem setS_stack (gr : Group) (d : SReg) (x : W64) : (gr.setS d x).stack = gr.stack := by unfold Group.setS; split <;> rfl
@[simp] theorem setS_spc (gr : Group) (d : SReg) (x : W64) : (gr.setS d x).spc = gr.spc := by unfold Group.setS; split <;> rfl
@[simp] theorem setS_lpc (gr : Group) (d : SReg) (x : W64) : (gr.setS d x).lpc = gr.lpc := by unfold Group.setS; split <;> rfl
@[simp] theorem setS_sMarks (gr : Group) (d : SReg) (x : W64) : (gr.setS d x).sMarks = gr.sMarks := by unfold Group.setS; split <;> rfl
@[simp] theorem setS_lMarks (gr : Group) (d : SReg) (x : W64) : (gr.setS d x).lMarks = gr.lMarks := by unfold Group.setS; split <;> rfl
@[simp] theorem setS_laneBase (gr : Group) (d : SReg) (x : W64) : (gr.setS d x).laneBase = gr.laneBase := by unfold Group.setS; split <;> rfl
@[simp] theorem setS_run (gr : Group) (d : SReg) (x : W64) : (gr.setS d x).run = gr.run := by unfold Group.setS; split <;> rfl
@[simp] theorem setS_laneQ (gr : Group) (d : SReg) (x : W64) : (gr.setS d x).laneQ = gr.laneQ := by unfold Group.setS; split <;> rfl
@[simp] theorem setS_spilled (gr : Group) (d : SReg) (x : W64) : (gr.setS d x).spilled = gr.spilled := by unfold Group.setS; split <;> rfl
@[simp] theorem setS_enq (gr : Group) (d : SReg) (x : W64) : (gr.setS d x).enq = gr.enq := by unfold Group.setS; split <;> rfl
@[simp] theorem setS_ended (gr : Group) (d : SReg) (x : W64) : (gr.setS d x).ended = gr.ended := by unfold Group.setS; split <;> rfl
@[simp] theorem setS_waitS (gr : Group) (d : SReg) (x : W64) : (gr.setS d x).waitS = gr.waitS := by unfold Group.setS; split <;> rfl
@[simp] theorem setS_waitL (gr : Group) (d : SReg) (x : W64) : (gr.setS d x).waitL = gr.waitL := by unfold Group.setS; split <;> rfl
@[simp] theorem setS_sinceS (gr : Group) (d : SReg) (x : W64) : (gr.setS d x).sinceS = gr.sinceS := by unfold Group.setS; split <;> rfl
@[simp] theorem setS_sinceL (gr : Group) (d : SReg) (x : W64) : (gr.setS d x).sinceL = gr.sinceL := by unfold Group.setS; split <;> rfl
@[simp] theorem setS_status (gr : Group) (d : SReg) (x : W64) : (gr.setS d x).status = gr.status := by unfold Group.setS; split <;> rfl
@[simp] theorem setS_trap (gr : Group) (d : SReg) (x : W64) : (gr.setS d x).trap = gr.trap := by unfold Group.setS; split <;> rfl
@[simp] theorem setS_eng (gr : Group) (d : SReg) (x : W64) : (gr.setS d x).eng = gr.eng := by unfold Group.setS; split <;> rfl
@[simp] theorem setS_killed (gr : Group) (d : SReg) (x : W64) : (gr.setS d x).killed = gr.killed := by unfold Group.setS; split <;> rfl
@[simp] theorem setS_obj (gr : Group) (d : SReg) (x : W64) : (gr.setS d x).obj = gr.obj := by unfold Group.setS; split <;> rfl
@[simp] theorem setS_out (gr : Group) (d : SReg) (x : W64) : (gr.setS d x).out = gr.out := by unfold Group.setS; split <;> rfl
@[simp] theorem setS_nextId (gr : Group) (d : SReg) (x : W64) : (gr.setS d x).nextId = gr.nextId := by unfold Group.setS; split <;> rfl
@[simp] theorem setS_alt (gr : Group) (d : SReg) (x : W64) : (gr.setS d x).alt = gr.alt := by unfold Group.setS; split <;> rfl
@[simp] theorem setS_look (gr : Group) (d : SReg) (x : W64) : (gr.setS d x).look = gr.look := by unfold Group.setS; split <;> rfl
@[simp] theorem setS_tagDone (gr : Group) (d : SReg) (x : W64) : (gr.setS d x).tagDone = gr.tagDone := by unfold Group.setS; split <;> rfl
@[simp] theorem setS_tagPend (gr : Group) (d : SReg) (x : W64) : (gr.setS d x).tagPend = gr.tagPend := by unfold Group.setS; split <;> rfl
@[simp] theorem setS_tagRet (gr : Group) (d : SReg) (x : W64) : (gr.setS d x).tagRet = gr.tagRet := by unfold Group.setS; split <;> rfl
@[simp] theorem setS_tagSlots (gr : Group) (d : SReg) (x : W64) : (gr.setS d x).tagSlots = gr.tagSlots := by unfold Group.setS; split <;> rfl
@[simp] theorem setS_mxIssued (gr : Group) (d : SReg) (x : W64) : (gr.setS d x).mxIssued = gr.mxIssued := by unfold Group.setS; split <;> rfl
@[simp] theorem setS_mxDone (gr : Group) (d : SReg) (x : W64) : (gr.setS d x).mxDone = gr.mxDone := by unfold Group.setS; split <;> rfl
@[simp] theorem setS_mxEnded (gr : Group) (d : SReg) (x : W64) : (gr.setS d x).mxEnded = gr.mxEnded := by unfold Group.setS; split <;> rfl
@[simp] theorem setS_mxSeen (gr : Group) (d : SReg) (x : W64) : (gr.setS d x).mxSeen = gr.mxSeen := by unfold Group.setS; split <;> rfl
@[simp] theorem setS_mx (gr : Group) (d : SReg) (x : W64) : (gr.setS d x).mx = gr.mx := by unfold Group.setS; split <;> rfl
@[simp] theorem setS_unflushed (gr : Group) (d : SReg) (x : W64) : (gr.setS d x).unflushed = gr.unflushed := by unfold Group.setS; split <;> rfl
@[simp] theorem setS_grant (gr : Group) (d : SReg) (x : W64) : (gr.setS d x).grant = gr.grant := by unfold Group.setS; split <;> rfl
@[simp] theorem setS_lastMma (gr : Group) (d : SReg) (x : W64) : (gr.setS d x).lastMma = gr.lastMma := by unfold Group.setS; split <;> rfl
@[simp] theorem setS_skipS (gr : Group) (d : SReg) (x : W64) : (gr.setS d x).skipS = gr.skipS := by unfold Group.setS; split <;> rfl
@[simp] theorem setS_skipL (gr : Group) (d : SReg) (x : W64) : (gr.setS d x).skipL = gr.skipL := by unfold Group.setS; split <;> rfl
@[simp] theorem setS_lastNs (gr : Group) (d : SReg) (x : W64) : (gr.setS d x).lastNs = gr.lastNs := by unfold Group.setS; split <;> rfl
@[simp] theorem setS_ticket (gr : Group) (d : SReg) (x : W64) : (gr.setS d x).ticket = gr.ticket := by unfold Group.setS; split <;> rfl
@[simp] theorem setS_survDeg (gr : Group) (d : SReg) (x : W64) : (gr.setS d x).survDeg = gr.survDeg := by unfold Group.setS; split <;> rfl
@[simp] theorem setS_morFrames (gr : Group) (d : SReg) (x : W64) : (gr.setS d x).morFrames = gr.morFrames := by unfold Group.setS; split <;> rfl
@[simp] theorem setS_syncId (gr : Group) (d : SReg) (x : W64) : (gr.setS d x).syncId = gr.syncId := by unfold Group.setS; split <;> rfl
@[simp] theorem setS_mxFence (gr : Group) (d : SReg) (x : W64) : (gr.setS d x).mxFence = gr.mxFence := by unfold Group.setS; split <;> rfl
@[simp] theorem setS_tagLeft (gr : Group) (d : SReg) (x : W64) : (gr.setS d x).tagLeft = gr.tagLeft := by unfold Group.setS; split <;> rfl
@[simp] theorem setS_stopping (gr : Group) (d : SReg) (x : W64) : (gr.setS d x).stopping = gr.stopping := by unfold Group.setS; split <;> rfl
@[simp] theorem setC_role (gr : Group) (d : CReg) (b : Bool) : (gr.setC d b).role = gr.role := rfl
@[simp] theorem setC_allot (gr : Group) (d : CReg) (b : Bool) : (gr.setC d b).allot = gr.allot := rfl
@[simp] theorem setC_quarter (gr : Group) (d : CReg) (b : Bool) : (gr.setC d b).quarter = gr.quarter := rfl
@[simp] theorem setC_age (gr : Group) (d : CReg) (b : Bool) : (gr.setC d b).age = gr.age := rfl
@[simp] theorem setC_s (gr : Group) (d : CReg) (b : Bool) : (gr.setC d b).s = gr.s := rfl
@[simp] theorem setC_k (gr : Group) (d : CReg) (b : Bool) : (gr.setC d b).k = gr.k := rfl
@[simp] theorem setC_yS (gr : Group) (d : CReg) (b : Bool) : (gr.setC d b).yS = gr.yS := rfl
@[simp] theorem setC_yL (gr : Group) (d : CReg) (b : Bool) : (gr.setC d b).yL = gr.yL := rfl
@[simp] theorem setC_exmS (gr : Group) (d : CReg) (b : Bool) : (gr.setC d b).exmS = gr.exmS := rfl
@[simp] theorem setC_exmL (gr : Group) (d : CReg) (b : Bool) : (gr.setC d b).exmL = gr.exmL := rfl
@[simp] theorem setC_fmtS (gr : Group) (d : CReg) (b : Bool) : (gr.setC d b).fmtS = gr.fmtS := rfl
@[simp] theorem setC_fmtL (gr : Group) (d : CReg) (b : Bool) : (gr.setC d b).fmtL = gr.fmtL := rfl
@[simp] theorem setC_gfS (gr : Group) (d : CReg) (b : Bool) : (gr.setC d b).gfS = gr.gfS := rfl
@[simp] theorem setC_gfL (gr : Group) (d : CReg) (b : Bool) : (gr.setC d b).gfL = gr.gfL := rfl
@[simp] theorem setC_v (gr : Group) (d : CReg) (b : Bool) : (gr.setC d b).v = gr.v := rfl
@[simp] theorem setC_p (gr : Group) (d : CReg) (b : Bool) : (gr.setC d b).p = gr.p := rfl
@[simp] theorem setC_remap (gr : Group) (d : CReg) (b : Bool) : (gr.setC d b).remap = gr.remap := rfl
@[simp] theorem setC_stack (gr : Group) (d : CReg) (b : Bool) : (gr.setC d b).stack = gr.stack := rfl
@[simp] theorem setC_spc (gr : Group) (d : CReg) (b : Bool) : (gr.setC d b).spc = gr.spc := rfl
@[simp] theorem setC_lpc (gr : Group) (d : CReg) (b : Bool) : (gr.setC d b).lpc = gr.lpc := rfl
@[simp] theorem setC_sMarks (gr : Group) (d : CReg) (b : Bool) : (gr.setC d b).sMarks = gr.sMarks := rfl
@[simp] theorem setC_lMarks (gr : Group) (d : CReg) (b : Bool) : (gr.setC d b).lMarks = gr.lMarks := rfl
@[simp] theorem setC_laneBase (gr : Group) (d : CReg) (b : Bool) : (gr.setC d b).laneBase = gr.laneBase := rfl
@[simp] theorem setC_run (gr : Group) (d : CReg) (b : Bool) : (gr.setC d b).run = gr.run := rfl
@[simp] theorem setC_laneQ (gr : Group) (d : CReg) (b : Bool) : (gr.setC d b).laneQ = gr.laneQ := rfl
@[simp] theorem setC_spilled (gr : Group) (d : CReg) (b : Bool) : (gr.setC d b).spilled = gr.spilled := rfl
@[simp] theorem setC_enq (gr : Group) (d : CReg) (b : Bool) : (gr.setC d b).enq = gr.enq := rfl
@[simp] theorem setC_ended (gr : Group) (d : CReg) (b : Bool) : (gr.setC d b).ended = gr.ended := rfl
@[simp] theorem setC_waitS (gr : Group) (d : CReg) (b : Bool) : (gr.setC d b).waitS = gr.waitS := rfl
@[simp] theorem setC_waitL (gr : Group) (d : CReg) (b : Bool) : (gr.setC d b).waitL = gr.waitL := rfl
@[simp] theorem setC_sinceS (gr : Group) (d : CReg) (b : Bool) : (gr.setC d b).sinceS = gr.sinceS := rfl
@[simp] theorem setC_sinceL (gr : Group) (d : CReg) (b : Bool) : (gr.setC d b).sinceL = gr.sinceL := rfl
@[simp] theorem setC_status (gr : Group) (d : CReg) (b : Bool) : (gr.setC d b).status = gr.status := rfl
@[simp] theorem setC_trap (gr : Group) (d : CReg) (b : Bool) : (gr.setC d b).trap = gr.trap := rfl
@[simp] theorem setC_eng (gr : Group) (d : CReg) (b : Bool) : (gr.setC d b).eng = gr.eng := rfl
@[simp] theorem setC_killed (gr : Group) (d : CReg) (b : Bool) : (gr.setC d b).killed = gr.killed := rfl
@[simp] theorem setC_obj (gr : Group) (d : CReg) (b : Bool) : (gr.setC d b).obj = gr.obj := rfl
@[simp] theorem setC_out (gr : Group) (d : CReg) (b : Bool) : (gr.setC d b).out = gr.out := rfl
@[simp] theorem setC_nextId (gr : Group) (d : CReg) (b : Bool) : (gr.setC d b).nextId = gr.nextId := rfl
@[simp] theorem setC_alt (gr : Group) (d : CReg) (b : Bool) : (gr.setC d b).alt = gr.alt := rfl
@[simp] theorem setC_look (gr : Group) (d : CReg) (b : Bool) : (gr.setC d b).look = gr.look := rfl
@[simp] theorem setC_tagDone (gr : Group) (d : CReg) (b : Bool) : (gr.setC d b).tagDone = gr.tagDone := rfl
@[simp] theorem setC_tagPend (gr : Group) (d : CReg) (b : Bool) : (gr.setC d b).tagPend = gr.tagPend := rfl
@[simp] theorem setC_tagRet (gr : Group) (d : CReg) (b : Bool) : (gr.setC d b).tagRet = gr.tagRet := rfl
@[simp] theorem setC_tagSlots (gr : Group) (d : CReg) (b : Bool) : (gr.setC d b).tagSlots = gr.tagSlots := rfl
@[simp] theorem setC_mxIssued (gr : Group) (d : CReg) (b : Bool) : (gr.setC d b).mxIssued = gr.mxIssued := rfl
@[simp] theorem setC_mxDone (gr : Group) (d : CReg) (b : Bool) : (gr.setC d b).mxDone = gr.mxDone := rfl
@[simp] theorem setC_mxEnded (gr : Group) (d : CReg) (b : Bool) : (gr.setC d b).mxEnded = gr.mxEnded := rfl
@[simp] theorem setC_mxSeen (gr : Group) (d : CReg) (b : Bool) : (gr.setC d b).mxSeen = gr.mxSeen := rfl
@[simp] theorem setC_mx (gr : Group) (d : CReg) (b : Bool) : (gr.setC d b).mx = gr.mx := rfl
@[simp] theorem setC_unflushed (gr : Group) (d : CReg) (b : Bool) : (gr.setC d b).unflushed = gr.unflushed := rfl
@[simp] theorem setC_grant (gr : Group) (d : CReg) (b : Bool) : (gr.setC d b).grant = gr.grant := rfl
@[simp] theorem setC_lastMma (gr : Group) (d : CReg) (b : Bool) : (gr.setC d b).lastMma = gr.lastMma := rfl
@[simp] theorem setC_skipS (gr : Group) (d : CReg) (b : Bool) : (gr.setC d b).skipS = gr.skipS := rfl
@[simp] theorem setC_skipL (gr : Group) (d : CReg) (b : Bool) : (gr.setC d b).skipL = gr.skipL := rfl
@[simp] theorem setC_lastNs (gr : Group) (d : CReg) (b : Bool) : (gr.setC d b).lastNs = gr.lastNs := rfl
@[simp] theorem setC_ticket (gr : Group) (d : CReg) (b : Bool) : (gr.setC d b).ticket = gr.ticket := rfl
@[simp] theorem setC_survDeg (gr : Group) (d : CReg) (b : Bool) : (gr.setC d b).survDeg = gr.survDeg := rfl
@[simp] theorem setC_morFrames (gr : Group) (d : CReg) (b : Bool) : (gr.setC d b).morFrames = gr.morFrames := rfl
@[simp] theorem setC_syncId (gr : Group) (d : CReg) (b : Bool) : (gr.setC d b).syncId = gr.syncId := rfl
@[simp] theorem setC_mxFence (gr : Group) (d : CReg) (b : Bool) : (gr.setC d b).mxFence = gr.mxFence := rfl
@[simp] theorem setC_tagLeft (gr : Group) (d : CReg) (b : Bool) : (gr.setC d b).tagLeft = gr.tagLeft := rfl
@[simp] theorem setC_stopping (gr : Group) (d : CReg) (b : Bool) : (gr.setC d b).stopping = gr.stopping := rfl
@[simp] theorem setK_role (gr : Group) (d : KReg) (x : W64) : (gr.setK d x).role = gr.role := rfl
@[simp] theorem setK_allot (gr : Group) (d : KReg) (x : W64) : (gr.setK d x).allot = gr.allot := rfl
@[simp] theorem setK_quarter (gr : Group) (d : KReg) (x : W64) : (gr.setK d x).quarter = gr.quarter := rfl
@[simp] theorem setK_age (gr : Group) (d : KReg) (x : W64) : (gr.setK d x).age = gr.age := rfl
@[simp] theorem setK_s (gr : Group) (d : KReg) (x : W64) : (gr.setK d x).s = gr.s := rfl
@[simp] theorem setK_c (gr : Group) (d : KReg) (x : W64) : (gr.setK d x).c = gr.c := rfl
@[simp] theorem setK_yS (gr : Group) (d : KReg) (x : W64) : (gr.setK d x).yS = gr.yS := rfl
@[simp] theorem setK_yL (gr : Group) (d : KReg) (x : W64) : (gr.setK d x).yL = gr.yL := rfl
@[simp] theorem setK_exmS (gr : Group) (d : KReg) (x : W64) : (gr.setK d x).exmS = gr.exmS := rfl
@[simp] theorem setK_exmL (gr : Group) (d : KReg) (x : W64) : (gr.setK d x).exmL = gr.exmL := rfl
@[simp] theorem setK_fmtS (gr : Group) (d : KReg) (x : W64) : (gr.setK d x).fmtS = gr.fmtS := rfl
@[simp] theorem setK_fmtL (gr : Group) (d : KReg) (x : W64) : (gr.setK d x).fmtL = gr.fmtL := rfl
@[simp] theorem setK_gfS (gr : Group) (d : KReg) (x : W64) : (gr.setK d x).gfS = gr.gfS := rfl
@[simp] theorem setK_gfL (gr : Group) (d : KReg) (x : W64) : (gr.setK d x).gfL = gr.gfL := rfl
@[simp] theorem setK_v (gr : Group) (d : KReg) (x : W64) : (gr.setK d x).v = gr.v := rfl
@[simp] theorem setK_p (gr : Group) (d : KReg) (x : W64) : (gr.setK d x).p = gr.p := rfl
@[simp] theorem setK_remap (gr : Group) (d : KReg) (x : W64) : (gr.setK d x).remap = gr.remap := rfl
@[simp] theorem setK_stack (gr : Group) (d : KReg) (x : W64) : (gr.setK d x).stack = gr.stack := rfl
@[simp] theorem setK_spc (gr : Group) (d : KReg) (x : W64) : (gr.setK d x).spc = gr.spc := rfl
@[simp] theorem setK_lpc (gr : Group) (d : KReg) (x : W64) : (gr.setK d x).lpc = gr.lpc := rfl
@[simp] theorem setK_sMarks (gr : Group) (d : KReg) (x : W64) : (gr.setK d x).sMarks = gr.sMarks := rfl
@[simp] theorem setK_lMarks (gr : Group) (d : KReg) (x : W64) : (gr.setK d x).lMarks = gr.lMarks := rfl
@[simp] theorem setK_laneBase (gr : Group) (d : KReg) (x : W64) : (gr.setK d x).laneBase = gr.laneBase := rfl
@[simp] theorem setK_run (gr : Group) (d : KReg) (x : W64) : (gr.setK d x).run = gr.run := rfl
@[simp] theorem setK_laneQ (gr : Group) (d : KReg) (x : W64) : (gr.setK d x).laneQ = gr.laneQ := rfl
@[simp] theorem setK_spilled (gr : Group) (d : KReg) (x : W64) : (gr.setK d x).spilled = gr.spilled := rfl
@[simp] theorem setK_enq (gr : Group) (d : KReg) (x : W64) : (gr.setK d x).enq = gr.enq := rfl
@[simp] theorem setK_ended (gr : Group) (d : KReg) (x : W64) : (gr.setK d x).ended = gr.ended := rfl
@[simp] theorem setK_waitS (gr : Group) (d : KReg) (x : W64) : (gr.setK d x).waitS = gr.waitS := rfl
@[simp] theorem setK_waitL (gr : Group) (d : KReg) (x : W64) : (gr.setK d x).waitL = gr.waitL := rfl
@[simp] theorem setK_sinceS (gr : Group) (d : KReg) (x : W64) : (gr.setK d x).sinceS = gr.sinceS := rfl
@[simp] theorem setK_sinceL (gr : Group) (d : KReg) (x : W64) : (gr.setK d x).sinceL = gr.sinceL := rfl
@[simp] theorem setK_status (gr : Group) (d : KReg) (x : W64) : (gr.setK d x).status = gr.status := rfl
@[simp] theorem setK_trap (gr : Group) (d : KReg) (x : W64) : (gr.setK d x).trap = gr.trap := rfl
@[simp] theorem setK_eng (gr : Group) (d : KReg) (x : W64) : (gr.setK d x).eng = gr.eng := rfl
@[simp] theorem setK_killed (gr : Group) (d : KReg) (x : W64) : (gr.setK d x).killed = gr.killed := rfl
@[simp] theorem setK_obj (gr : Group) (d : KReg) (x : W64) : (gr.setK d x).obj = gr.obj := rfl
@[simp] theorem setK_out (gr : Group) (d : KReg) (x : W64) : (gr.setK d x).out = gr.out := rfl
@[simp] theorem setK_nextId (gr : Group) (d : KReg) (x : W64) : (gr.setK d x).nextId = gr.nextId := rfl
@[simp] theorem setK_alt (gr : Group) (d : KReg) (x : W64) : (gr.setK d x).alt = gr.alt := rfl
@[simp] theorem setK_look (gr : Group) (d : KReg) (x : W64) : (gr.setK d x).look = gr.look := rfl
@[simp] theorem setK_tagDone (gr : Group) (d : KReg) (x : W64) : (gr.setK d x).tagDone = gr.tagDone := rfl
@[simp] theorem setK_tagPend (gr : Group) (d : KReg) (x : W64) : (gr.setK d x).tagPend = gr.tagPend := rfl
@[simp] theorem setK_tagRet (gr : Group) (d : KReg) (x : W64) : (gr.setK d x).tagRet = gr.tagRet := rfl
@[simp] theorem setK_tagSlots (gr : Group) (d : KReg) (x : W64) : (gr.setK d x).tagSlots = gr.tagSlots := rfl
@[simp] theorem setK_mxIssued (gr : Group) (d : KReg) (x : W64) : (gr.setK d x).mxIssued = gr.mxIssued := rfl
@[simp] theorem setK_mxDone (gr : Group) (d : KReg) (x : W64) : (gr.setK d x).mxDone = gr.mxDone := rfl
@[simp] theorem setK_mxEnded (gr : Group) (d : KReg) (x : W64) : (gr.setK d x).mxEnded = gr.mxEnded := rfl
@[simp] theorem setK_mxSeen (gr : Group) (d : KReg) (x : W64) : (gr.setK d x).mxSeen = gr.mxSeen := rfl
@[simp] theorem setK_mx (gr : Group) (d : KReg) (x : W64) : (gr.setK d x).mx = gr.mx := rfl
@[simp] theorem setK_unflushed (gr : Group) (d : KReg) (x : W64) : (gr.setK d x).unflushed = gr.unflushed := rfl
@[simp] theorem setK_grant (gr : Group) (d : KReg) (x : W64) : (gr.setK d x).grant = gr.grant := rfl
@[simp] theorem setK_lastMma (gr : Group) (d : KReg) (x : W64) : (gr.setK d x).lastMma = gr.lastMma := rfl
@[simp] theorem setK_skipS (gr : Group) (d : KReg) (x : W64) : (gr.setK d x).skipS = gr.skipS := rfl
@[simp] theorem setK_skipL (gr : Group) (d : KReg) (x : W64) : (gr.setK d x).skipL = gr.skipL := rfl
@[simp] theorem setK_lastNs (gr : Group) (d : KReg) (x : W64) : (gr.setK d x).lastNs = gr.lastNs := rfl
@[simp] theorem setK_ticket (gr : Group) (d : KReg) (x : W64) : (gr.setK d x).ticket = gr.ticket := rfl
@[simp] theorem setK_survDeg (gr : Group) (d : KReg) (x : W64) : (gr.setK d x).survDeg = gr.survDeg := rfl
@[simp] theorem setK_morFrames (gr : Group) (d : KReg) (x : W64) : (gr.setK d x).morFrames = gr.morFrames := rfl
@[simp] theorem setK_syncId (gr : Group) (d : KReg) (x : W64) : (gr.setK d x).syncId = gr.syncId := rfl
@[simp] theorem setK_mxFence (gr : Group) (d : KReg) (x : W64) : (gr.setK d x).mxFence = gr.mxFence := rfl
@[simp] theorem setK_tagLeft (gr : Group) (d : KReg) (x : W64) : (gr.setK d x).tagLeft = gr.tagLeft := rfl
@[simp] theorem setK_stopping (gr : Group) (d : KReg) (x : W64) : (gr.setK d x).stopping = gr.stopping := rfl

end Sys2Proof.Machine
end

