-- ==== Sys2Proof/Laws/Free.lean ====
section
/-! SUPPORT. What a free choice, a translation, a trace record and a counted event change: one frame for each, and the
fields that it leaves, by field. -/

namespace Sys2Proof.Machine

/-! What a translation, a trace record and a counted event may change -/

/-- The second state is the first but for what a translation may change: what is cached and left to choose from, and, where a
frame passes to a new owner, its bytes with every copy of them and the deltas that this sends (R169, R172). -/
def Walked (s t : State) : Prop :=
  t = { s with tlb := t.tlb, choices := t.choices, tick := t.tick, mem := t.mem, poison := t.poison, l1 := t.l1, rdc := t.rdc,
               excl := t.excl, upart := t.upart, remoteHolders := t.remoteHolders, code := t.code, fabOut := t.fabOut,
               fabTags := t.fabTags, fabSeq := t.fabSeq, deltas := t.deltas, frameOwner := t.frameOwner }

/-- The same of what a trace record may change: its ring too (R332). -/
def Traced (s t : State) : Prop :=
  t = { s with tlb := t.tlb, choices := t.choices, tick := t.tick, mem := t.mem, poison := t.poison, l1 := t.l1, rdc := t.rdc,
               excl := t.excl, upart := t.upart, remoteHolders := t.remoteHolders, code := t.code, fabOut := t.fabOut,
               fabTags := t.fabTags, fabSeq := t.fabSeq, deltas := t.deltas, frameOwner := t.frameOwner, obs := t.obs }

/-- The same of what a counted event may change: counters and messages too (R336 to R338). -/
def Counted (s t : State) : Prop :=
  t = { s with tlb := t.tlb, choices := t.choices, tick := t.tick, mem := t.mem, poison := t.poison, l1 := t.l1, rdc := t.rdc,
               excl := t.excl, upart := t.upart, remoteHolders := t.remoteHolders, code := t.code, fabOut := t.fabOut,
               fabTags := t.fabTags, fabSeq := t.fabSeq, deltas := t.deltas, frameOwner := t.frameOwner, obs := t.obs,
               cores := t.cores, msgs := t.msgs }

theorem Walked.same (s : State) : Walked s s := rfl

theorem Walked.trans {s t u : State} (h : Walked s t) (k : Walked t u) : Walked s u :=
  Eq.trans k (congrArg (fun x : State =>
    { x with tlb := u.tlb, choices := u.choices, tick := u.tick, mem := u.mem, poison := u.poison, l1 := u.l1, rdc := u.rdc,
             excl := u.excl, upart := u.upart, remoteHolders := u.remoteHolders, code := u.code, fabOut := u.fabOut,
             fabTags := u.fabTags, fabSeq := u.fabSeq, deltas := u.deltas, frameOwner := u.frameOwner }) h)

theorem Traced.trans {s t u : State} (h : Traced s t) (k : Traced t u) : Traced s u :=
  Eq.trans k (congrArg (fun x : State =>
    { x with tlb := u.tlb, choices := u.choices, tick := u.tick, mem := u.mem, poison := u.poison, l1 := u.l1, rdc := u.rdc,
             excl := u.excl, upart := u.upart, remoteHolders := u.remoteHolders, code := u.code, fabOut := u.fabOut,
             fabTags := u.fabTags, fabSeq := u.fabSeq, deltas := u.deltas, frameOwner := u.frameOwner, obs := u.obs }) h)

theorem Counted.trans {s t u : State} (h : Counted s t) (k : Counted t u) : Counted s u :=
  Eq.trans k (congrArg (fun x : State =>
    { x with tlb := u.tlb, choices := u.choices, tick := u.tick, mem := u.mem, poison := u.poison, l1 := u.l1, rdc := u.rdc,
             excl := u.excl, upart := u.upart, remoteHolders := u.remoteHolders, code := u.code, fabOut := u.fabOut,
             fabTags := u.fabTags, fabSeq := u.fabSeq, deltas := u.deltas, frameOwner := u.frameOwner, obs := u.obs,
             cores := u.cores, msgs := u.msgs }) h)

theorem Walked.traced {s t : State} (h : Walked s t) : Traced s t := by
  rw [Walked] at h
  rw [h]
  rfl

theorem Traced.counted {s t : State} (h : Traced s t) : Counted s t := by
  rw [Traced] at h
  rw [h]
  rfl

/-- A list of steps that each change no more than that. -/
theorem Walked.foldl {α : Type} {f : State → α → State} (hf : ∀ s x, Walked s (f s x)) :
    ∀ (l : List α) (s : State), Walked s (l.foldl f s)
  | [], s => .same s
  | x :: l, s => (hf s x).trans (Walked.foldl hf l (f s x))

/-! Frames -/

/-- A free number changes only what is left to choose from. -/
theorem draw_frame (s : State) : ∃ l k, s.draw.2 = { s with choices := l, tick := k } := by
  unfold State.draw
  split
  · exact ⟨s.choices, s.tick + 1, by simp_all⟩
  · exact ⟨_, s.tick, rfl⟩

theorem pick_frame (s : State) (n : Nat) : ∃ l k, (s.pick n).2 = { s with choices := l, tick := k } := by
  unfold State.pick
  split
  · exact ⟨s.choices, s.tick, rfl⟩
  · exact draw_frame s

/-- A choice is one of those offered. -/
theorem pick_lt (s : State) {n : Nat} (h : 0 < n) : (s.pick n).1 < n := by
  unfold State.pick
  split
  · exact h
  · exact Nat.mod_lt _ h

/-- Nothing is drawn where there is only one outcome. -/
theorem pick_one (s : State) : s.pick 1 = (0, s) := rfl

theorem pickOf_frame {α : Type} (s : State) (l : List α) (x : α) :
    ∃ m k, (s.pickOf l x).2 = { s with choices := m, tick := k } := pick_frame s _

theorem draws_frame (n : Nat) : ∀ (s : State), ∃ l k, (draws n s).2 = { s with choices := l, tick := k } := by
  induction n with
  | zero => exact fun s => ⟨s.choices, s.tick, rfl⟩
  | succ n ih =>
    intro s
    obtain ⟨l, k, h⟩ := draw_frame s
    obtain ⟨l', k', h'⟩ := ih s.draw.2
    exact ⟨l', k', by simp only [draws]; rw [h', h]⟩

/-- Bytes put at a physical address change memory and poison alone. -/
theorem putBytes_frame (s : State) (pa n x : Nat) :
    ∃ p, s.putBytes pa n x = { s with mem := ssetLE s.mem pa n x, poison := p } := by
  unfold State.putBytes
  dsimp only
  split
  · exact ⟨_, rfl⟩
  · exact ⟨s.poison, rfl⟩

theorem putBytes_walked (s : State) (pa n x : Nat) : Walked s (s.putBytes pa n x) := by
  obtain ⟨p, h⟩ := putBytes_frame s pa n x
  rw [h]
  rfl

theorem pick_walked (s : State) (n : Nat) : Walked s (s.pick n).2 := by
  obtain ⟨l, k, h⟩ := pick_frame s n
  rw [h]
  rfl

theorem sendReq_frame (s : State) (d : Nat) (p : FabPkt) (w : ReqFor) :
    ∃ l k t q o, (s.sendReq d p w).2 = { s with choices := l, tick := k, fabTags := t, fabSeq := q, fabOut := o } := by
  unfold State.sendReq
  obtain ⟨l, k, h⟩ := draw_frame s
  dsimp only
  split
  · exact ⟨l, k, s.fabTags, s.fabSeq, s.fabOut, h⟩
  · rw [h]
    exact ⟨l, k, _, _, _, rfl⟩

/-- A delta of no group's changes the fabric's requests, or the set table alone. -/
theorem sendDelta_walked (s : State) (d : Delta) (h : d.owners = []) : Walked s (s.sendDelta d) := by
  unfold State.sendDelta State.deltaLost
  rw [h]
  split
  · exact putBytes_walked s (s.ctl.setTab + 16 * d.entry) 8 _
  split
  · rfl
  obtain ⟨l, k, t, q, o, e⟩ := sendReq_frame s d.die (deltaPacket d) (.delta d.die)
  dsimp only
  rw [e]
  rfl

theorem sendDeltas_walked (s : State) (pa n x : Nat) : Walked s (s.sendDeltas pa n x []) := by
  unfold State.sendDeltas
  split
  · rfl
  · exact (sendDelta_walked _ _ rfl).trans (sendDelta_walked _ _ rfl)

theorem rangeDeltas_walked (s : State) (old : Memory) (pa n : Nat) : Walked s (s.rangeDeltas old pa n []) := by
  unfold State.rangeDeltas
  split
  · rfl
  · refine .foldl (fun s p => ?_) _ _
    dsimp only
    split
    · rfl
    · exact sendDeltas_walked s _ _ _

theorem zeroRange_walked (s : State) (pa n : Nat) : Walked s (s.zeroRange pa n) := by
  unfold State.zeroRange
  dsimp only
  generalize hu : State.mk .. = u
  exact Walked.trans (t := u) (hu ▸ rfl) (rangeDeltas_walked _ _ _ _)

/-- A frame that passes to a new owner. -/
theorem takeOver_walked (s : State) (c : Option Nat) (pa n : Nat) (va : Option Nat) : Walked s (s.takeOver c pa n va) := by
  have h := fun c => Walked.foldl (f := fun (s : State) (f : FrameOwn) =>
    s.zeroRange (max f.pa pa) (min (f.pa + f.bytes) (pa + n) - max f.pa pa)) (fun s f => zeroRange_walked s _ _) (s.leftBy c pa n) s
  unfold State.takeOver
  cases c <;> dsimp only <;> split
  · rfl
  · exact (h none).trans rfl
  · rfl
  · exact (h _).trans rfl

theorem cacheTlb_walked (s : State) (t : Tlb) : Walked s (s.cacheTlb t) := by
  unfold State.cacheTlb
  split
  · rfl
  · dsimp only
    split
    · rfl
    · exact (pick_walked s _).trans rfl

theorem fillTlb_walked (s : State) (core : Option Nat) (t : Tlb) : Walked s (s.fillTlb core t) := by
  unfold State.fillTlb
  dsimp only
  have h : Walked s (match core with
      | some n => (s.cacheTlb { t with room := if t.lg = 16 then .small (coreDie n) else .last (coreDie n) }).cacheTlb
          { t with room := .core n }
      | none => s.cacheTlb { t with room := if t.lg = 16 then .small 0 else .last 0 }) := by
    cases core
    · exact cacheTlb_walked _ _
    · exact (cacheTlb_walked _ _).trans (cacheTlb_walked _ _)
  cases core <;> split
  · exact h
  · exact h.trans (takeOver_walked _ _ _ _ _)
  · exact h
  · exact h.trans (takeOver_walked _ _ _ _ _)

/-- A translation draws its outcome, caches what it walked and may pass a frame to its context. -/
theorem translate_walked (s : State) (x va : Nat) (core : Option Nat) : Walked s (s.translate x va core).2 := by
  unfold State.translate
  split
  · rfl
  · dsimp only
    split
    · exact (pick_walked s _).trans (fillTlb_walked _ _ _)
    · exact pick_walked s _

/-- A trace record changes its ring and what its translation and its bytes change. -/
theorem trace_traced (s : State) (x : Nat) (t : TraceInfo) : Traced s (s.trace x t) := by
  unfold State.trace
  split
  · rfl
  split
  · rfl
  split
  · rfl
  rename_i p _ _ _
  have h := translate_walked s x (p.trBase.toNat + 32 * (p.trTail % p.trCap)) none
  dsimp only
  split
  · split
    · exact (h.trans (putBytes_walked _ _ _ _)).traced.trans rfl
    · exact h.traced.trans rfl
  · exact h.traced.trans rfl

theorem Traced.foldl {α : Type} {f : State → α → State} (hf : ∀ s x, Traced s (f s x)) :
    ∀ (l : List α) (s : State), Traced s (l.foldl f s)
  | [], _ => rfl
  | x :: l, s => (hf s x).trans (Traced.foldl hf l (f s x))

theorem Counted.foldl {α : Type} {f : State → α → State} (hf : ∀ s x, Counted s (f s x)) :
    ∀ (l : List α) (s : State), Counted s (l.foldl f s)
  | [], _ => rfl
  | x :: l, s => (hf s x).trans (Counted.foldl hf l (f s x))

/-- A counted event changes its core's counters, and where a counter wraps, messages and what trace records change. -/
theorem count_counted (s : State) (n x ev k : Nat) : Counted s (s.count n x ev k) := by
  unfold State.count
  dsimp only
  split
  · rfl
  split
  · rfl
  refine Counted.trans (t := s.setCore n _) rfl (.foldl (fun s d => ?_) _ _)
  exact (Traced.foldl (fun s y => trace_traced s y _) _ s).counted.trans rfl

/-- No event counts where the core's observed function does not own the context (R337). -/
theorem count_unobserved (s : State) (n x ev k : Nat) (h : (s.core n).observed ≠ some (s.funcOf x)) :
    s.count n x ev k = s := by
  simp [State.count, h]

/-- An error record changes its bank, messages and the fatal state alone (R307, R310). -/
theorem recordError_frame (s : State) (e : ErrInfo) :
    ∃ b m f, s.recordError e = { s with banks := b, msgs := m, fatal := f } := by
  unfold State.recordError
  dsimp only
  split
  · exact ⟨_, _, true, rfl⟩
  · exact ⟨_, _, s.fatal, rfl⟩

/-! Fields left -/

/-! `draw` -/

@[simp] theorem draw_agenda (s : State) : s.draw.2.agenda = s.agenda := by
  obtain ⟨_, _, h⟩ := draw_frame s; rw [h]
@[simp] theorem draw_cur (s : State) : s.draw.2.cur = s.cur := by
  obtain ⟨_, _, h⟩ := draw_frame s; rw [h]
@[simp] theorem draw_clock (s : State) : s.draw.2.clock = s.clock := by
  obtain ⟨_, _, h⟩ := draw_frame s; rw [h]
@[simp] theorem draw_endpointUp (s : State) : s.draw.2.endpointUp = s.endpointUp := by
  obtain ⟨_, _, h⟩ := draw_frame s; rw [h]
@[simp] theorem draw_inReset (s : State) : s.draw.2.inReset = s.inReset := by
  obtain ⟨_, _, h⟩ := draw_frame s; rw [h]
@[simp] theorem draw_fatal (s : State) : s.draw.2.fatal = s.fatal := by
  obtain ⟨_, _, h⟩ := draw_frame s; rw [h]
@[simp] theorem draw_mem (s : State) : s.draw.2.mem = s.mem := by
  obtain ⟨_, _, h⟩ := draw_frame s; rw [h]
@[simp] theorem draw_hostMem (s : State) : s.draw.2.hostMem = s.hostMem := by
  obtain ⟨_, _, h⟩ := draw_frame s; rw [h]
@[simp] theorem draw_poison (s : State) : s.draw.2.poison = s.poison := by
  obtain ⟨_, _, h⟩ := draw_frame s; rw [h]
@[simp] theorem draw_leases (s : State) : s.draw.2.leases = s.leases := by
  obtain ⟨_, _, h⟩ := draw_frame s; rw [h]
@[simp] theorem draw_l1 (s : State) : s.draw.2.l1 = s.l1 := by
  obtain ⟨_, _, h⟩ := draw_frame s; rw [h]
@[simp] theorem draw_rdc (s : State) : s.draw.2.rdc = s.rdc := by
  obtain ⟨_, _, h⟩ := draw_frame s; rw [h]
@[simp] theorem draw_excl (s : State) : s.draw.2.excl = s.excl := by
  obtain ⟨_, _, h⟩ := draw_frame s; rw [h]
@[simp] theorem draw_upart (s : State) : s.draw.2.upart = s.upart := by
  obtain ⟨_, _, h⟩ := draw_frame s; rw [h]
@[simp] theorem draw_remoteHolders (s : State) : s.draw.2.remoteHolders = s.remoteHolders := by
  obtain ⟨_, _, h⟩ := draw_frame s; rw [h]
@[simp] theorem draw_accepted (s : State) : s.draw.2.accepted = s.accepted := by
  obtain ⟨_, _, h⟩ := draw_frame s; rw [h]
@[simp] theorem draw_tlb (s : State) : s.draw.2.tlb = s.tlb := by
  obtain ⟨_, _, h⟩ := draw_frame s; rw [h]
@[simp] theorem draw_invals (s : State) : s.draw.2.invals = s.invals := by
  obtain ⟨_, _, h⟩ := draw_frame s; rw [h]
@[simp] theorem draw_migrations (s : State) : s.draw.2.migrations = s.migrations := by
  obtain ⟨_, _, h⟩ := draw_frame s; rw [h]
@[simp] theorem draw_frameOwner (s : State) : s.draw.2.frameOwner = s.frameOwner := by
  obtain ⟨_, _, h⟩ := draw_frame s; rw [h]
@[simp] theorem draw_sends (s : State) : s.draw.2.sends = s.sends := by
  obtain ⟨_, _, h⟩ := draw_frame s; rw [h]
@[simp] theorem draw_code (s : State) : s.draw.2.code = s.code := by
  obtain ⟨_, _, h⟩ := draw_frame s; rw [h]
@[simp] theorem draw_icache (s : State) : s.draw.2.icache = s.icache := by
  obtain ⟨_, _, h⟩ := draw_frame s; rw [h]
@[simp] theorem draw_holds (s : State) : s.draw.2.holds = s.holds := by
  obtain ⟨_, _, h⟩ := draw_frame s; rw [h]
@[simp] theorem draw_ctxs (s : State) : s.draw.2.ctxs = s.ctxs := by
  obtain ⟨_, _, h⟩ := draw_frame s; rw [h]
@[simp] theorem draw_cores (s : State) : s.draw.2.cores = s.cores := by
  obtain ⟨_, _, h⟩ := draw_frame s; rw [h]
@[simp] theorem draw_teams (s : State) : s.draw.2.teams = s.teams := by
  obtain ⟨_, _, h⟩ := draw_frame s; rw [h]
@[simp] theorem draw_groups (s : State) : s.draw.2.groups = s.groups := by
  obtain ⟨_, _, h⟩ := draw_frame s; rw [h]
@[simp] theorem draw_grids (s : State) : s.draw.2.grids = s.grids := by
  obtain ⟨_, _, h⟩ := draw_frame s; rw [h]
@[simp] theorem draw_reservation (s : State) : s.draw.2.reservation = s.reservation := by
  obtain ⟨_, _, h⟩ := draw_frame s; rw [h]
@[simp] theorem draw_kernels (s : State) : s.draw.2.kernels = s.kernels := by
  obtain ⟨_, _, h⟩ := draw_frame s; rw [h]
@[simp] theorem draw_firn (s : State) : s.draw.2.firn = s.firn := by
  obtain ⟨_, _, h⟩ := draw_frame s; rw [h]
@[simp] theorem draw_builds (s : State) : s.draw.2.builds = s.builds := by
  obtain ⟨_, _, h⟩ := draw_frame s; rw [h]
@[simp] theorem draw_nextFirn (s : State) : s.draw.2.nextFirn = s.nextFirn := by
  obtain ⟨_, _, h⟩ := draw_frame s; rw [h]
@[simp] theorem draw_queues (s : State) : s.draw.2.queues = s.queues := by
  obtain ⟨_, _, h⟩ := draw_frame s; rw [h]
@[simp] theorem draw_owners (s : State) : s.draw.2.owners = s.owners := by
  obtain ⟨_, _, h⟩ := draw_frame s; rw [h]
@[simp] theorem draw_ctl (s : State) : s.draw.2.ctl = s.ctl := by
  obtain ⟨_, _, h⟩ := draw_frame s; rw [h]
@[simp] theorem draw_thresholds (s : State) : s.draw.2.thresholds = s.thresholds := by
  obtain ⟨_, _, h⟩ := draw_frame s; rw [h]
@[simp] theorem draw_testPeriods (s : State) : s.draw.2.testPeriods = s.testPeriods := by
  obtain ⟨_, _, h⟩ := draw_frame s; rw [h]
@[simp] theorem draw_obs (s : State) : s.draw.2.obs = s.obs := by
  obtain ⟨_, _, h⟩ := draw_frame s; rw [h]
@[simp] theorem draw_saved (s : State) : s.draw.2.saved = s.saved := by
  obtain ⟨_, _, h⟩ := draw_frame s; rw [h]
@[simp] theorem draw_weights (s : State) : s.draw.2.weights = s.weights := by
  obtain ⟨_, _, h⟩ := draw_frame s; rw [h]
@[simp] theorem draw_weightsNow (s : State) : s.draw.2.weightsNow = s.weightsNow := by
  obtain ⟨_, _, h⟩ := draw_frame s; rw [h]
@[simp] theorem draw_bankSel (s : State) : s.draw.2.bankSel = s.bankSel := by
  obtain ⟨_, _, h⟩ := draw_frame s; rw [h]
@[simp] theorem draw_banks (s : State) : s.draw.2.banks = s.banks := by
  obtain ⟨_, _, h⟩ := draw_frame s; rw [h]
@[simp] theorem draw_msgs (s : State) : s.draw.2.msgs = s.msgs := by
  obtain ⟨_, _, h⟩ := draw_frame s; rw [h]
@[simp] theorem draw_nextCodeId (s : State) : s.draw.2.nextCodeId = s.nextCodeId := by
  obtain ⟨_, _, h⟩ := draw_frame s; rw [h]
@[simp] theorem draw_insts (s : State) : s.draw.2.insts = s.insts := by
  obtain ⟨_, _, h⟩ := draw_frame s; rw [h]
@[simp] theorem draw_recs (s : State) : s.draw.2.recs = s.recs := by
  obtain ⟨_, _, h⟩ := draw_frame s; rw [h]
@[simp] theorem draw_pools (s : State) : s.draw.2.pools = s.pools := by
  obtain ⟨_, _, h⟩ := draw_frame s; rw [h]
@[simp] theorem draw_fabTags (s : State) : s.draw.2.fabTags = s.fabTags := by
  obtain ⟨_, _, h⟩ := draw_frame s; rw [h]
@[simp] theorem draw_fabSeq (s : State) : s.draw.2.fabSeq = s.fabSeq := by
  obtain ⟨_, _, h⟩ := draw_frame s; rw [h]
@[simp] theorem draw_fabIn (s : State) : s.draw.2.fabIn = s.fabIn := by
  obtain ⟨_, _, h⟩ := draw_frame s; rw [h]
@[simp] theorem draw_kept (s : State) : s.draw.2.kept = s.kept := by
  obtain ⟨_, _, h⟩ := draw_frame s; rw [h]
@[simp] theorem draw_fabOut (s : State) : s.draw.2.fabOut = s.fabOut := by
  obtain ⟨_, _, h⟩ := draw_frame s; rw [h]
@[simp] theorem draw_lost (s : State) : s.draw.2.lost = s.lost := by
  obtain ⟨_, _, h⟩ := draw_frame s; rw [h]
@[simp] theorem draw_unreachable (s : State) : s.draw.2.unreachable = s.unreachable := by
  obtain ⟨_, _, h⟩ := draw_frame s; rw [h]
@[simp] theorem draw_portsDown (s : State) : s.draw.2.portsDown = s.portsDown := by
  obtain ⟨_, _, h⟩ := draw_frame s; rw [h]
@[simp] theorem draw_deltas (s : State) : s.draw.2.deltas = s.deltas := by
  obtain ⟨_, _, h⟩ := draw_frame s; rw [h]
@[simp] theorem draw_colls (s : State) : s.draw.2.colls = s.colls := by
  obtain ⟨_, _, h⟩ := draw_frame s; rw [h]
@[simp] theorem draw_rebuilds (s : State) : s.draw.2.rebuilds = s.rebuilds := by
  obtain ⟨_, _, h⟩ := draw_frame s; rw [h]
@[simp] theorem draw_checkpoints (s : State) : s.draw.2.checkpoints = s.checkpoints := by
  obtain ⟨_, _, h⟩ := draw_frame s; rw [h]
@[simp] theorem draw_vault (s : State) : s.draw.2.vault = s.vault := by
  obtain ⟨_, _, h⟩ := draw_frame s; rw [h]
@[simp] theorem draw_powerAsks (s : State) : s.draw.2.powerAsks = s.powerAsks := by
  obtain ⟨_, _, h⟩ := draw_frame s; rw [h]
@[simp] theorem draw_secVersion (s : State) : s.draw.2.secVersion = s.secVersion := by
  obtain ⟨_, _, h⟩ := draw_frame s; rw [h]
@[simp] theorem draw_image (s : State) : s.draw.2.image = s.image := by
  obtain ⟨_, _, h⟩ := draw_frame s; rw [h]
@[simp] theorem draw_chanDown (s : State) : s.draw.2.chanDown = s.chanDown := by
  obtain ⟨_, _, h⟩ := draw_frame s; rw [h]

/-! `pick` -/

@[simp] theorem pick_agenda (s : State) (n : Nat) : (s.pick n).2.agenda = s.agenda := by
  obtain ⟨_, _, h⟩ := pick_frame s n; rw [h]
@[simp] theorem pick_cur (s : State) (n : Nat) : (s.pick n).2.cur = s.cur := by
  obtain ⟨_, _, h⟩ := pick_frame s n; rw [h]
@[simp] theorem pick_clock (s : State) (n : Nat) : (s.pick n).2.clock = s.clock := by
  obtain ⟨_, _, h⟩ := pick_frame s n; rw [h]
@[simp] theorem pick_endpointUp (s : State) (n : Nat) : (s.pick n).2.endpointUp = s.endpointUp := by
  obtain ⟨_, _, h⟩ := pick_frame s n; rw [h]
@[simp] theorem pick_inReset (s : State) (n : Nat) : (s.pick n).2.inReset = s.inReset := by
  obtain ⟨_, _, h⟩ := pick_frame s n; rw [h]
@[simp] theorem pick_fatal (s : State) (n : Nat) : (s.pick n).2.fatal = s.fatal := by
  obtain ⟨_, _, h⟩ := pick_frame s n; rw [h]
@[simp] theorem pick_mem (s : State) (n : Nat) : (s.pick n).2.mem = s.mem := by
  obtain ⟨_, _, h⟩ := pick_frame s n; rw [h]
@[simp] theorem pick_hostMem (s : State) (n : Nat) : (s.pick n).2.hostMem = s.hostMem := by
  obtain ⟨_, _, h⟩ := pick_frame s n; rw [h]
@[simp] theorem pick_poison (s : State) (n : Nat) : (s.pick n).2.poison = s.poison := by
  obtain ⟨_, _, h⟩ := pick_frame s n; rw [h]
@[simp] theorem pick_leases (s : State) (n : Nat) : (s.pick n).2.leases = s.leases := by
  obtain ⟨_, _, h⟩ := pick_frame s n; rw [h]
@[simp] theorem pick_l1 (s : State) (n : Nat) : (s.pick n).2.l1 = s.l1 := by
  obtain ⟨_, _, h⟩ := pick_frame s n; rw [h]
@[simp] theorem pick_rdc (s : State) (n : Nat) : (s.pick n).2.rdc = s.rdc := by
  obtain ⟨_, _, h⟩ := pick_frame s n; rw [h]
@[simp] theorem pick_excl (s : State) (n : Nat) : (s.pick n).2.excl = s.excl := by
  obtain ⟨_, _, h⟩ := pick_frame s n; rw [h]
@[simp] theorem pick_upart (s : State) (n : Nat) : (s.pick n).2.upart = s.upart := by
  obtain ⟨_, _, h⟩ := pick_frame s n; rw [h]
@[simp] theorem pick_remoteHolders (s : State) (n : Nat) : (s.pick n).2.remoteHolders = s.remoteHolders := by
  obtain ⟨_, _, h⟩ := pick_frame s n; rw [h]
@[simp] theorem pick_accepted (s : State) (n : Nat) : (s.pick n).2.accepted = s.accepted := by
  obtain ⟨_, _, h⟩ := pick_frame s n; rw [h]
@[simp] theorem pick_tlb (s : State) (n : Nat) : (s.pick n).2.tlb = s.tlb := by
  obtain ⟨_, _, h⟩ := pick_frame s n; rw [h]
@[simp] theorem pick_invals (s : State) (n : Nat) : (s.pick n).2.invals = s.invals := by
  obtain ⟨_, _, h⟩ := pick_frame s n; rw [h]
@[simp] theorem pick_migrations (s : State) (n : Nat) : (s.pick n).2.migrations = s.migrations := by
  obtain ⟨_, _, h⟩ := pick_frame s n; rw [h]
@[simp] theorem pick_frameOwner (s : State) (n : Nat) : (s.pick n).2.frameOwner = s.frameOwner := by
  obtain ⟨_, _, h⟩ := pick_frame s n; rw [h]
@[simp] theorem pick_sends (s : State) (n : Nat) : (s.pick n).2.sends = s.sends := by
  obtain ⟨_, _, h⟩ := pick_frame s n; rw [h]
@[simp] theorem pick_code (s : State) (n : Nat) : (s.pick n).2.code = s.code := by
  obtain ⟨_, _, h⟩ := pick_frame s n; rw [h]
@[simp] theorem pick_icache (s : State) (n : Nat) : (s.pick n).2.icache = s.icache := by
  obtain ⟨_, _, h⟩ := pick_frame s n; rw [h]
@[simp] theorem pick_holds (s : State) (n : Nat) : (s.pick n).2.holds = s.holds := by
  obtain ⟨_, _, h⟩ := pick_frame s n; rw [h]
@[simp] theorem pick_ctxs (s : State) (n : Nat) : (s.pick n).2.ctxs = s.ctxs := by
  obtain ⟨_, _, h⟩ := pick_frame s n; rw [h]
@[simp] theorem pick_cores (s : State) (n : Nat) : (s.pick n).2.cores = s.cores := by
  obtain ⟨_, _, h⟩ := pick_frame s n; rw [h]
@[simp] theorem pick_teams (s : State) (n : Nat) : (s.pick n).2.teams = s.teams := by
  obtain ⟨_, _, h⟩ := pick_frame s n; rw [h]
@[simp] theorem pick_groups (s : State) (n : Nat) : (s.pick n).2.groups = s.groups := by
  obtain ⟨_, _, h⟩ := pick_frame s n; rw [h]
@[simp] theorem pick_grids (s : State) (n : Nat) : (s.pick n).2.grids = s.grids := by
  obtain ⟨_, _, h⟩ := pick_frame s n; rw [h]
@[simp] theorem pick_reservation (s : State) (n : Nat) : (s.pick n).2.reservation = s.reservation := by
  obtain ⟨_, _, h⟩ := pick_frame s n; rw [h]
@[simp] theorem pick_kernels (s : State) (n : Nat) : (s.pick n).2.kernels = s.kernels := by
  obtain ⟨_, _, h⟩ := pick_frame s n; rw [h]
@[simp] theorem pick_firn (s : State) (n : Nat) : (s.pick n).2.firn = s.firn := by
  obtain ⟨_, _, h⟩ := pick_frame s n; rw [h]
@[simp] theorem pick_builds (s : State) (n : Nat) : (s.pick n).2.builds = s.builds := by
  obtain ⟨_, _, h⟩ := pick_frame s n; rw [h]
@[simp] theorem pick_nextFirn (s : State) (n : Nat) : (s.pick n).2.nextFirn = s.nextFirn := by
  obtain ⟨_, _, h⟩ := pick_frame s n; rw [h]
@[simp] theorem pick_queues (s : State) (n : Nat) : (s.pick n).2.queues = s.queues := by
  obtain ⟨_, _, h⟩ := pick_frame s n; rw [h]
@[simp] theorem pick_owners (s : State) (n : Nat) : (s.pick n).2.owners = s.owners := by
  obtain ⟨_, _, h⟩ := pick_frame s n; rw [h]
@[simp] theorem pick_ctl (s : State) (n : Nat) : (s.pick n).2.ctl = s.ctl := by
  obtain ⟨_, _, h⟩ := pick_frame s n; rw [h]
@[simp] theorem pick_thresholds (s : State) (n : Nat) : (s.pick n).2.thresholds = s.thresholds := by
  obtain ⟨_, _, h⟩ := pick_frame s n; rw [h]
@[simp] theorem pick_testPeriods (s : State) (n : Nat) : (s.pick n).2.testPeriods = s.testPeriods := by
  obtain ⟨_, _, h⟩ := pick_frame s n; rw [h]
@[simp] theorem pick_obs (s : State) (n : Nat) : (s.pick n).2.obs = s.obs := by
  obtain ⟨_, _, h⟩ := pick_frame s n; rw [h]
@[simp] theorem pick_saved (s : State) (n : Nat) : (s.pick n).2.saved = s.saved := by
  obtain ⟨_, _, h⟩ := pick_frame s n; rw [h]
@[simp] theorem pick_weights (s : State) (n : Nat) : (s.pick n).2.weights = s.weights := by
  obtain ⟨_, _, h⟩ := pick_frame s n; rw [h]
@[simp] theorem pick_weightsNow (s : State) (n : Nat) : (s.pick n).2.weightsNow = s.weightsNow := by
  obtain ⟨_, _, h⟩ := pick_frame s n; rw [h]
@[simp] theorem pick_bankSel (s : State) (n : Nat) : (s.pick n).2.bankSel = s.bankSel := by
  obtain ⟨_, _, h⟩ := pick_frame s n; rw [h]
@[simp] theorem pick_banks (s : State) (n : Nat) : (s.pick n).2.banks = s.banks := by
  obtain ⟨_, _, h⟩ := pick_frame s n; rw [h]
@[simp] theorem pick_msgs (s : State) (n : Nat) : (s.pick n).2.msgs = s.msgs := by
  obtain ⟨_, _, h⟩ := pick_frame s n; rw [h]
@[simp] theorem pick_nextCodeId (s : State) (n : Nat) : (s.pick n).2.nextCodeId = s.nextCodeId := by
  obtain ⟨_, _, h⟩ := pick_frame s n; rw [h]
@[simp] theorem pick_insts (s : State) (n : Nat) : (s.pick n).2.insts = s.insts := by
  obtain ⟨_, _, h⟩ := pick_frame s n; rw [h]
@[simp] theorem pick_recs (s : State) (n : Nat) : (s.pick n).2.recs = s.recs := by
  obtain ⟨_, _, h⟩ := pick_frame s n; rw [h]
@[simp] theorem pick_pools (s : State) (n : Nat) : (s.pick n).2.pools = s.pools := by
  obtain ⟨_, _, h⟩ := pick_frame s n; rw [h]
@[simp] theorem pick_fabTags (s : State) (n : Nat) : (s.pick n).2.fabTags = s.fabTags := by
  obtain ⟨_, _, h⟩ := pick_frame s n; rw [h]
@[simp] theorem pick_fabSeq (s : State) (n : Nat) : (s.pick n).2.fabSeq = s.fabSeq := by
  obtain ⟨_, _, h⟩ := pick_frame s n; rw [h]
@[simp] theorem pick_fabIn (s : State) (n : Nat) : (s.pick n).2.fabIn = s.fabIn := by
  obtain ⟨_, _, h⟩ := pick_frame s n; rw [h]
@[simp] theorem pick_kept (s : State) (n : Nat) : (s.pick n).2.kept = s.kept := by
  obtain ⟨_, _, h⟩ := pick_frame s n; rw [h]
@[simp] theorem pick_fabOut (s : State) (n : Nat) : (s.pick n).2.fabOut = s.fabOut := by
  obtain ⟨_, _, h⟩ := pick_frame s n; rw [h]
@[simp] theorem pick_lost (s : State) (n : Nat) : (s.pick n).2.lost = s.lost := by
  obtain ⟨_, _, h⟩ := pick_frame s n; rw [h]
@[simp] theorem pick_unreachable (s : State) (n : Nat) : (s.pick n).2.unreachable = s.unreachable := by
  obtain ⟨_, _, h⟩ := pick_frame s n; rw [h]
@[simp] theorem pick_portsDown (s : State) (n : Nat) : (s.pick n).2.portsDown = s.portsDown := by
  obtain ⟨_, _, h⟩ := pick_frame s n; rw [h]
@[simp] theorem pick_deltas (s : State) (n : Nat) : (s.pick n).2.deltas = s.deltas := by
  obtain ⟨_, _, h⟩ := pick_frame s n; rw [h]
@[simp] theorem pick_colls (s : State) (n : Nat) : (s.pick n).2.colls = s.colls := by
  obtain ⟨_, _, h⟩ := pick_frame s n; rw [h]
@[simp] theorem pick_rebuilds (s : State) (n : Nat) : (s.pick n).2.rebuilds = s.rebuilds := by
  obtain ⟨_, _, h⟩ := pick_frame s n; rw [h]
@[simp] theorem pick_checkpoints (s : State) (n : Nat) : (s.pick n).2.checkpoints = s.checkpoints := by
  obtain ⟨_, _, h⟩ := pick_frame s n; rw [h]
@[simp] theorem pick_vault (s : State) (n : Nat) : (s.pick n).2.vault = s.vault := by
  obtain ⟨_, _, h⟩ := pick_frame s n; rw [h]
@[simp] theorem pick_powerAsks (s : State) (n : Nat) : (s.pick n).2.powerAsks = s.powerAsks := by
  obtain ⟨_, _, h⟩ := pick_frame s n; rw [h]
@[simp] theorem pick_secVersion (s : State) (n : Nat) : (s.pick n).2.secVersion = s.secVersion := by
  obtain ⟨_, _, h⟩ := pick_frame s n; rw [h]
@[simp] theorem pick_image (s : State) (n : Nat) : (s.pick n).2.image = s.image := by
  obtain ⟨_, _, h⟩ := pick_frame s n; rw [h]
@[simp] theorem pick_chanDown (s : State) (n : Nat) : (s.pick n).2.chanDown = s.chanDown := by
  obtain ⟨_, _, h⟩ := pick_frame s n; rw [h]

/-! `draws` -/

@[simp] theorem draws_agenda (s : State) (n : Nat) : (draws n s).2.agenda = s.agenda := by
  obtain ⟨_, _, h⟩ := draws_frame n s; rw [h]
@[simp] theorem draws_cur (s : State) (n : Nat) : (draws n s).2.cur = s.cur := by
  obtain ⟨_, _, h⟩ := draws_frame n s; rw [h]
@[simp] theorem draws_clock (s : State) (n : Nat) : (draws n s).2.clock = s.clock := by
  obtain ⟨_, _, h⟩ := draws_frame n s; rw [h]
@[simp] theorem draws_endpointUp (s : State) (n : Nat) : (draws n s).2.endpointUp = s.endpointUp := by
  obtain ⟨_, _, h⟩ := draws_frame n s; rw [h]
@[simp] theorem draws_inReset (s : State) (n : Nat) : (draws n s).2.inReset = s.inReset := by
  obtain ⟨_, _, h⟩ := draws_frame n s; rw [h]
@[simp] theorem draws_fatal (s : State) (n : Nat) : (draws n s).2.fatal = s.fatal := by
  obtain ⟨_, _, h⟩ := draws_frame n s; rw [h]
@[simp] theorem draws_mem (s : State) (n : Nat) : (draws n s).2.mem = s.mem := by
  obtain ⟨_, _, h⟩ := draws_frame n s; rw [h]
@[simp] theorem draws_hostMem (s : State) (n : Nat) : (draws n s).2.hostMem = s.hostMem := by
  obtain ⟨_, _, h⟩ := draws_frame n s; rw [h]
@[simp] theorem draws_poison (s : State) (n : Nat) : (draws n s).2.poison = s.poison := by
  obtain ⟨_, _, h⟩ := draws_frame n s; rw [h]
@[simp] theorem draws_leases (s : State) (n : Nat) : (draws n s).2.leases = s.leases := by
  obtain ⟨_, _, h⟩ := draws_frame n s; rw [h]
@[simp] theorem draws_l1 (s : State) (n : Nat) : (draws n s).2.l1 = s.l1 := by
  obtain ⟨_, _, h⟩ := draws_frame n s; rw [h]
@[simp] theorem draws_rdc (s : State) (n : Nat) : (draws n s).2.rdc = s.rdc := by
  obtain ⟨_, _, h⟩ := draws_frame n s; rw [h]
@[simp] theorem draws_excl (s : State) (n : Nat) : (draws n s).2.excl = s.excl := by
  obtain ⟨_, _, h⟩ := draws_frame n s; rw [h]
@[simp] theorem draws_upart (s : State) (n : Nat) : (draws n s).2.upart = s.upart := by
  obtain ⟨_, _, h⟩ := draws_frame n s; rw [h]
@[simp] theorem draws_remoteHolders (s : State) (n : Nat) : (draws n s).2.remoteHolders = s.remoteHolders := by
  obtain ⟨_, _, h⟩ := draws_frame n s; rw [h]
@[simp] theorem draws_accepted (s : State) (n : Nat) : (draws n s).2.accepted = s.accepted := by
  obtain ⟨_, _, h⟩ := draws_frame n s; rw [h]
@[simp] theorem draws_tlb (s : State) (n : Nat) : (draws n s).2.tlb = s.tlb := by
  obtain ⟨_, _, h⟩ := draws_frame n s; rw [h]
@[simp] theorem draws_invals (s : State) (n : Nat) : (draws n s).2.invals = s.invals := by
  obtain ⟨_, _, h⟩ := draws_frame n s; rw [h]
@[simp] theorem draws_migrations (s : State) (n : Nat) : (draws n s).2.migrations = s.migrations := by
  obtain ⟨_, _, h⟩ := draws_frame n s; rw [h]
@[simp] theorem draws_frameOwner (s : State) (n : Nat) : (draws n s).2.frameOwner = s.frameOwner := by
  obtain ⟨_, _, h⟩ := draws_frame n s; rw [h]
@[simp] theorem draws_sends (s : State) (n : Nat) : (draws n s).2.sends = s.sends := by
  obtain ⟨_, _, h⟩ := draws_frame n s; rw [h]
@[simp] theorem draws_code (s : State) (n : Nat) : (draws n s).2.code = s.code := by
  obtain ⟨_, _, h⟩ := draws_frame n s; rw [h]
@[simp] theorem draws_icache (s : State) (n : Nat) : (draws n s).2.icache = s.icache := by
  obtain ⟨_, _, h⟩ := draws_frame n s; rw [h]
@[simp] theorem draws_holds (s : State) (n : Nat) : (draws n s).2.holds = s.holds := by
  obtain ⟨_, _, h⟩ := draws_frame n s; rw [h]
@[simp] theorem draws_ctxs (s : State) (n : Nat) : (draws n s).2.ctxs = s.ctxs := by
  obtain ⟨_, _, h⟩ := draws_frame n s; rw [h]
@[simp] theorem draws_cores (s : State) (n : Nat) : (draws n s).2.cores = s.cores := by
  obtain ⟨_, _, h⟩ := draws_frame n s; rw [h]
@[simp] theorem draws_teams (s : State) (n : Nat) : (draws n s).2.teams = s.teams := by
  obtain ⟨_, _, h⟩ := draws_frame n s; rw [h]
@[simp] theorem draws_groups (s : State) (n : Nat) : (draws n s).2.groups = s.groups := by
  obtain ⟨_, _, h⟩ := draws_frame n s; rw [h]
@[simp] theorem draws_grids (s : State) (n : Nat) : (draws n s).2.grids = s.grids := by
  obtain ⟨_, _, h⟩ := draws_frame n s; rw [h]
@[simp] theorem draws_reservation (s : State) (n : Nat) : (draws n s).2.reservation = s.reservation := by
  obtain ⟨_, _, h⟩ := draws_frame n s; rw [h]
@[simp] theorem draws_kernels (s : State) (n : Nat) : (draws n s).2.kernels = s.kernels := by
  obtain ⟨_, _, h⟩ := draws_frame n s; rw [h]
@[simp] theorem draws_firn (s : State) (n : Nat) : (draws n s).2.firn = s.firn := by
  obtain ⟨_, _, h⟩ := draws_frame n s; rw [h]
@[simp] theorem draws_builds (s : State) (n : Nat) : (draws n s).2.builds = s.builds := by
  obtain ⟨_, _, h⟩ := draws_frame n s; rw [h]
@[simp] theorem draws_nextFirn (s : State) (n : Nat) : (draws n s).2.nextFirn = s.nextFirn := by
  obtain ⟨_, _, h⟩ := draws_frame n s; rw [h]
@[simp] theorem draws_queues (s : State) (n : Nat) : (draws n s).2.queues = s.queues := by
  obtain ⟨_, _, h⟩ := draws_frame n s; rw [h]
@[simp] theorem draws_owners (s : State) (n : Nat) : (draws n s).2.owners = s.owners := by
  obtain ⟨_, _, h⟩ := draws_frame n s; rw [h]
@[simp] theorem draws_ctl (s : State) (n : Nat) : (draws n s).2.ctl = s.ctl := by
  obtain ⟨_, _, h⟩ := draws_frame n s; rw [h]
@[simp] theorem draws_thresholds (s : State) (n : Nat) : (draws n s).2.thresholds = s.thresholds := by
  obtain ⟨_, _, h⟩ := draws_frame n s; rw [h]
@[simp] theorem draws_testPeriods (s : State) (n : Nat) : (draws n s).2.testPeriods = s.testPeriods := by
  obtain ⟨_, _, h⟩ := draws_frame n s; rw [h]
@[simp] theorem draws_obs (s : State) (n : Nat) : (draws n s).2.obs = s.obs := by
  obtain ⟨_, _, h⟩ := draws_frame n s; rw [h]
@[simp] theorem draws_saved (s : State) (n : Nat) : (draws n s).2.saved = s.saved := by
  obtain ⟨_, _, h⟩ := draws_frame n s; rw [h]
@[simp] theorem draws_weights (s : State) (n : Nat) : (draws n s).2.weights = s.weights := by
  obtain ⟨_, _, h⟩ := draws_frame n s; rw [h]
@[simp] theorem draws_weightsNow (s : State) (n : Nat) : (draws n s).2.weightsNow = s.weightsNow := by
  obtain ⟨_, _, h⟩ := draws_frame n s; rw [h]
@[simp] theorem draws_bankSel (s : State) (n : Nat) : (draws n s).2.bankSel = s.bankSel := by
  obtain ⟨_, _, h⟩ := draws_frame n s; rw [h]
@[simp] theorem draws_banks (s : State) (n : Nat) : (draws n s).2.banks = s.banks := by
  obtain ⟨_, _, h⟩ := draws_frame n s; rw [h]
@[simp] theorem draws_msgs (s : State) (n : Nat) : (draws n s).2.msgs = s.msgs := by
  obtain ⟨_, _, h⟩ := draws_frame n s; rw [h]
@[simp] theorem draws_nextCodeId (s : State) (n : Nat) : (draws n s).2.nextCodeId = s.nextCodeId := by
  obtain ⟨_, _, h⟩ := draws_frame n s; rw [h]
@[simp] theorem draws_insts (s : State) (n : Nat) : (draws n s).2.insts = s.insts := by
  obtain ⟨_, _, h⟩ := draws_frame n s; rw [h]
@[simp] theorem draws_recs (s : State) (n : Nat) : (draws n s).2.recs = s.recs := by
  obtain ⟨_, _, h⟩ := draws_frame n s; rw [h]
@[simp] theorem draws_pools (s : State) (n : Nat) : (draws n s).2.pools = s.pools := by
  obtain ⟨_, _, h⟩ := draws_frame n s; rw [h]
@[simp] theorem draws_fabTags (s : State) (n : Nat) : (draws n s).2.fabTags = s.fabTags := by
  obtain ⟨_, _, h⟩ := draws_frame n s; rw [h]
@[simp] theorem draws_fabSeq (s : State) (n : Nat) : (draws n s).2.fabSeq = s.fabSeq := by
  obtain ⟨_, _, h⟩ := draws_frame n s; rw [h]
@[simp] theorem draws_fabIn (s : State) (n : Nat) : (draws n s).2.fabIn = s.fabIn := by
  obtain ⟨_, _, h⟩ := draws_frame n s; rw [h]
@[simp] theorem draws_kept (s : State) (n : Nat) : (draws n s).2.kept = s.kept := by
  obtain ⟨_, _, h⟩ := draws_frame n s; rw [h]
@[simp] theorem draws_fabOut (s : State) (n : Nat) : (draws n s).2.fabOut = s.fabOut := by
  obtain ⟨_, _, h⟩ := draws_frame n s; rw [h]
@[simp] theorem draws_lost (s : State) (n : Nat) : (draws n s).2.lost = s.lost := by
  obtain ⟨_, _, h⟩ := draws_frame n s; rw [h]
@[simp] theorem draws_unreachable (s : State) (n : Nat) : (draws n s).2.unreachable = s.unreachable := by
  obtain ⟨_, _, h⟩ := draws_frame n s; rw [h]
@[simp] theorem draws_portsDown (s : State) (n : Nat) : (draws n s).2.portsDown = s.portsDown := by
  obtain ⟨_, _, h⟩ := draws_frame n s; rw [h]
@[simp] theorem draws_deltas (s : State) (n : Nat) : (draws n s).2.deltas = s.deltas := by
  obtain ⟨_, _, h⟩ := draws_frame n s; rw [h]
@[simp] theorem draws_colls (s : State) (n : Nat) : (draws n s).2.colls = s.colls := by
  obtain ⟨_, _, h⟩ := draws_frame n s; rw [h]
@[simp] theorem draws_rebuilds (s : State) (n : Nat) : (draws n s).2.rebuilds = s.rebuilds := by
  obtain ⟨_, _, h⟩ := draws_frame n s; rw [h]
@[simp] theorem draws_checkpoints (s : State) (n : Nat) : (draws n s).2.checkpoints = s.checkpoints := by
  obtain ⟨_, _, h⟩ := draws_frame n s; rw [h]
@[simp] theorem draws_vault (s : State) (n : Nat) : (draws n s).2.vault = s.vault := by
  obtain ⟨_, _, h⟩ := draws_frame n s; rw [h]
@[simp] theorem draws_powerAsks (s : State) (n : Nat) : (draws n s).2.powerAsks = s.powerAsks := by
  obtain ⟨_, _, h⟩ := draws_frame n s; rw [h]
@[simp] theorem draws_secVersion (s : State) (n : Nat) : (draws n s).2.secVersion = s.secVersion := by
  obtain ⟨_, _, h⟩ := draws_frame n s; rw [h]
@[simp] theorem draws_image (s : State) (n : Nat) : (draws n s).2.image = s.image := by
  obtain ⟨_, _, h⟩ := draws_frame n s; rw [h]
@[simp] theorem draws_chanDown (s : State) (n : Nat) : (draws n s).2.chanDown = s.chanDown := by
  obtain ⟨_, _, h⟩ := draws_frame n s; rw [h]

/-! `translate` -/

@[simp] theorem translate_agenda (s : State) (x va : Nat) (core : Option Nat) : (s.translate x va core).2.agenda = s.agenda := by
  rw [show (s.translate x va core).2 = _ from translate_walked s x va core]
@[simp] theorem translate_cur (s : State) (x va : Nat) (core : Option Nat) : (s.translate x va core).2.cur = s.cur := by
  rw [show (s.translate x va core).2 = _ from translate_walked s x va core]
@[simp] theorem translate_clock (s : State) (x va : Nat) (core : Option Nat) : (s.translate x va core).2.clock = s.clock := by
  rw [show (s.translate x va core).2 = _ from translate_walked s x va core]
@[simp] theorem translate_endpointUp (s : State) (x va : Nat) (core : Option Nat) : (s.translate x va core).2.endpointUp = s.endpointUp := by
  rw [show (s.translate x va core).2 = _ from translate_walked s x va core]
@[simp] theorem translate_inReset (s : State) (x va : Nat) (core : Option Nat) : (s.translate x va core).2.inReset = s.inReset := by
  rw [show (s.translate x va core).2 = _ from translate_walked s x va core]
@[simp] theorem translate_fatal (s : State) (x va : Nat) (core : Option Nat) : (s.translate x va core).2.fatal = s.fatal := by
  rw [show (s.translate x va core).2 = _ from translate_walked s x va core]
@[simp] theorem translate_hostMem (s : State) (x va : Nat) (core : Option Nat) : (s.translate x va core).2.hostMem = s.hostMem := by
  rw [show (s.translate x va core).2 = _ from translate_walked s x va core]
@[simp] theorem translate_leases (s : State) (x va : Nat) (core : Option Nat) : (s.translate x va core).2.leases = s.leases := by
  rw [show (s.translate x va core).2 = _ from translate_walked s x va core]
@[simp] theorem translate_accepted (s : State) (x va : Nat) (core : Option Nat) : (s.translate x va core).2.accepted = s.accepted := by
  rw [show (s.translate x va core).2 = _ from translate_walked s x va core]
@[simp] theorem translate_invals (s : State) (x va : Nat) (core : Option Nat) : (s.translate x va core).2.invals = s.invals := by
  rw [show (s.translate x va core).2 = _ from translate_walked s x va core]
@[simp] theorem translate_migrations (s : State) (x va : Nat) (core : Option Nat) : (s.translate x va core).2.migrations = s.migrations := by
  rw [show (s.translate x va core).2 = _ from translate_walked s x va core]
@[simp] theorem translate_sends (s : State) (x va : Nat) (core : Option Nat) : (s.translate x va core).2.sends = s.sends := by
  rw [show (s.translate x va core).2 = _ from translate_walked s x va core]
@[simp] theorem translate_icache (s : State) (x va : Nat) (core : Option Nat) : (s.translate x va core).2.icache = s.icache := by
  rw [show (s.translate x va core).2 = _ from translate_walked s x va core]
@[simp] theorem translate_holds (s : State) (x va : Nat) (core : Option Nat) : (s.translate x va core).2.holds = s.holds := by
  rw [show (s.translate x va core).2 = _ from translate_walked s x va core]
@[simp] theorem translate_ctxs (s : State) (x va : Nat) (core : Option Nat) : (s.translate x va core).2.ctxs = s.ctxs := by
  rw [show (s.translate x va core).2 = _ from translate_walked s x va core]
@[simp] theorem translate_cores (s : State) (x va : Nat) (core : Option Nat) : (s.translate x va core).2.cores = s.cores := by
  rw [show (s.translate x va core).2 = _ from translate_walked s x va core]
@[simp] theorem translate_teams (s : State) (x va : Nat) (core : Option Nat) : (s.translate x va core).2.teams = s.teams := by
  rw [show (s.translate x va core).2 = _ from translate_walked s x va core]
@[simp] theorem translate_groups (s : State) (x va : Nat) (core : Option Nat) : (s.translate x va core).2.groups = s.groups := by
  rw [show (s.translate x va core).2 = _ from translate_walked s x va core]
@[simp] theorem translate_grids (s : State) (x va : Nat) (core : Option Nat) : (s.translate x va core).2.grids = s.grids := by
  rw [show (s.translate x va core).2 = _ from translate_walked s x va core]
@[simp] theorem translate_reservation (s : State) (x va : Nat) (core : Option Nat) : (s.translate x va core).2.reservation = s.reservation := by
  rw [show (s.translate x va core).2 = _ from translate_walked s x va core]
@[simp] theorem translate_kernels (s : State) (x va : Nat) (core : Option Nat) : (s.translate x va core).2.kernels = s.kernels := by
  rw [show (s.translate x va core).2 = _ from translate_walked s x va core]
@[simp] theorem translate_firn (s : State) (x va : Nat) (core : Option Nat) : (s.translate x va core).2.firn = s.firn := by
  rw [show (s.translate x va core).2 = _ from translate_walked s x va core]
@[simp] theorem translate_builds (s : State) (x va : Nat) (core : Option Nat) : (s.translate x va core).2.builds = s.builds := by
  rw [show (s.translate x va core).2 = _ from translate_walked s x va core]
@[simp] theorem translate_nextFirn (s : State) (x va : Nat) (core : Option Nat) : (s.translate x va core).2.nextFirn = s.nextFirn := by
  rw [show (s.translate x va core).2 = _ from translate_walked s x va core]
@[simp] theorem translate_queues (s : State) (x va : Nat) (core : Option Nat) : (s.translate x va core).2.queues = s.queues := by
  rw [show (s.translate x va core).2 = _ from translate_walked s x va core]
@[simp] theorem translate_owners (s : State) (x va : Nat) (core : Option Nat) : (s.translate x va core).2.owners = s.owners := by
  rw [show (s.translate x va core).2 = _ from translate_walked s x va core]
@[simp] theorem translate_ctl (s : State) (x va : Nat) (core : Option Nat) : (s.translate x va core).2.ctl = s.ctl := by
  rw [show (s.translate x va core).2 = _ from translate_walked s x va core]
@[simp] theorem translate_thresholds (s : State) (x va : Nat) (core : Option Nat) : (s.translate x va core).2.thresholds = s.thresholds := by
  rw [show (s.translate x va core).2 = _ from translate_walked s x va core]
@[simp] theorem translate_testPeriods (s : State) (x va : Nat) (core : Option Nat) : (s.translate x va core).2.testPeriods = s.testPeriods := by
  rw [show (s.translate x va core).2 = _ from translate_walked s x va core]
@[simp] theorem translate_obs (s : State) (x va : Nat) (core : Option Nat) : (s.translate x va core).2.obs = s.obs := by
  rw [show (s.translate x va core).2 = _ from translate_walked s x va core]
@[simp] theorem translate_saved (s : State) (x va : Nat) (core : Option Nat) : (s.translate x va core).2.saved = s.saved := by
  rw [show (s.translate x va core).2 = _ from translate_walked s x va core]
@[simp] theorem translate_weights (s : State) (x va : Nat) (core : Option Nat) : (s.translate x va core).2.weights = s.weights := by
  rw [show (s.translate x va core).2 = _ from translate_walked s x va core]
@[simp] theorem translate_weightsNow (s : State) (x va : Nat) (core : Option Nat) : (s.translate x va core).2.weightsNow = s.weightsNow := by
  rw [show (s.translate x va core).2 = _ from translate_walked s x va core]
@[simp] theorem translate_bankSel (s : State) (x va : Nat) (core : Option Nat) : (s.translate x va core).2.bankSel = s.bankSel := by
  rw [show (s.translate x va core).2 = _ from translate_walked s x va core]
@[simp] theorem translate_banks (s : State) (x va : Nat) (core : Option Nat) : (s.translate x va core).2.banks = s.banks := by
  rw [show (s.translate x va core).2 = _ from translate_walked s x va core]
@[simp] theorem translate_msgs (s : State) (x va : Nat) (core : Option Nat) : (s.translate x va core).2.msgs = s.msgs := by
  rw [show (s.translate x va core).2 = _ from translate_walked s x va core]
@[simp] theorem translate_nextCodeId (s : State) (x va : Nat) (core : Option Nat) : (s.translate x va core).2.nextCodeId = s.nextCodeId := by
  rw [show (s.translate x va core).2 = _ from translate_walked s x va core]
@[simp] theorem translate_insts (s : State) (x va : Nat) (core : Option Nat) : (s.translate x va core).2.insts = s.insts := by
  rw [show (s.translate x va core).2 = _ from translate_walked s x va core]
@[simp] theorem translate_recs (s : State) (x va : Nat) (core : Option Nat) : (s.translate x va core).2.recs = s.recs := by
  rw [show (s.translate x va core).2 = _ from translate_walked s x va core]
@[simp] theorem translate_pools (s : State) (x va : Nat) (core : Option Nat) : (s.translate x va core).2.pools = s.pools := by
  rw [show (s.translate x va core).2 = _ from translate_walked s x va core]
@[simp] theorem translate_fabIn (s : State) (x va : Nat) (core : Option Nat) : (s.translate x va core).2.fabIn = s.fabIn := by
  rw [show (s.translate x va core).2 = _ from translate_walked s x va core]
@[simp] theorem translate_kept (s : State) (x va : Nat) (core : Option Nat) : (s.translate x va core).2.kept = s.kept := by
  rw [show (s.translate x va core).2 = _ from translate_walked s x va core]
@[simp] theorem translate_lost (s : State) (x va : Nat) (core : Option Nat) : (s.translate x va core).2.lost = s.lost := by
  rw [show (s.translate x va core).2 = _ from translate_walked s x va core]
@[simp] theorem translate_unreachable (s : State) (x va : Nat) (core : Option Nat) : (s.translate x va core).2.unreachable = s.unreachable := by
  rw [show (s.translate x va core).2 = _ from translate_walked s x va core]
@[simp] theorem translate_portsDown (s : State) (x va : Nat) (core : Option Nat) : (s.translate x va core).2.portsDown = s.portsDown := by
  rw [show (s.translate x va core).2 = _ from translate_walked s x va core]
@[simp] theorem translate_colls (s : State) (x va : Nat) (core : Option Nat) : (s.translate x va core).2.colls = s.colls := by
  rw [show (s.translate x va core).2 = _ from translate_walked s x va core]
@[simp] theorem translate_rebuilds (s : State) (x va : Nat) (core : Option Nat) : (s.translate x va core).2.rebuilds = s.rebuilds := by
  rw [show (s.translate x va core).2 = _ from translate_walked s x va core]
@[simp] theorem translate_checkpoints (s : State) (x va : Nat) (core : Option Nat) : (s.translate x va core).2.checkpoints = s.checkpoints := by
  rw [show (s.translate x va core).2 = _ from translate_walked s x va core]
@[simp] theorem translate_vault (s : State) (x va : Nat) (core : Option Nat) : (s.translate x va core).2.vault = s.vault := by
  rw [show (s.translate x va core).2 = _ from translate_walked s x va core]
@[simp] theorem translate_powerAsks (s : State) (x va : Nat) (core : Option Nat) : (s.translate x va core).2.powerAsks = s.powerAsks := by
  rw [show (s.translate x va core).2 = _ from translate_walked s x va core]
@[simp] theorem translate_secVersion (s : State) (x va : Nat) (core : Option Nat) : (s.translate x va core).2.secVersion = s.secVersion := by
  rw [show (s.translate x va core).2 = _ from translate_walked s x va core]
@[simp] theorem translate_image (s : State) (x va : Nat) (core : Option Nat) : (s.translate x va core).2.image = s.image := by
  rw [show (s.translate x va core).2 = _ from translate_walked s x va core]
@[simp] theorem translate_chanDown (s : State) (x va : Nat) (core : Option Nat) : (s.translate x va core).2.chanDown = s.chanDown := by
  rw [show (s.translate x va core).2 = _ from translate_walked s x va core]

/-! `putBytes` -/

@[simp] theorem putBytes_agenda (s : State) (pa n x : Nat) : (s.putBytes pa n x).agenda = s.agenda := by
  obtain ⟨_, h⟩ := putBytes_frame s pa n x; rw [h]
@[simp] theorem putBytes_choices (s : State) (pa n x : Nat) : (s.putBytes pa n x).choices = s.choices := by
  obtain ⟨_, h⟩ := putBytes_frame s pa n x; rw [h]
@[simp] theorem putBytes_tick (s : State) (pa n x : Nat) : (s.putBytes pa n x).tick = s.tick := by
  obtain ⟨_, h⟩ := putBytes_frame s pa n x; rw [h]
@[simp] theorem putBytes_cur (s : State) (pa n x : Nat) : (s.putBytes pa n x).cur = s.cur := by
  obtain ⟨_, h⟩ := putBytes_frame s pa n x; rw [h]
@[simp] theorem putBytes_clock (s : State) (pa n x : Nat) : (s.putBytes pa n x).clock = s.clock := by
  obtain ⟨_, h⟩ := putBytes_frame s pa n x; rw [h]
@[simp] theorem putBytes_endpointUp (s : State) (pa n x : Nat) : (s.putBytes pa n x).endpointUp = s.endpointUp := by
  obtain ⟨_, h⟩ := putBytes_frame s pa n x; rw [h]
@[simp] theorem putBytes_inReset (s : State) (pa n x : Nat) : (s.putBytes pa n x).inReset = s.inReset := by
  obtain ⟨_, h⟩ := putBytes_frame s pa n x; rw [h]
@[simp] theorem putBytes_fatal (s : State) (pa n x : Nat) : (s.putBytes pa n x).fatal = s.fatal := by
  obtain ⟨_, h⟩ := putBytes_frame s pa n x; rw [h]
@[simp] theorem putBytes_hostMem (s : State) (pa n x : Nat) : (s.putBytes pa n x).hostMem = s.hostMem := by
  obtain ⟨_, h⟩ := putBytes_frame s pa n x; rw [h]
@[simp] theorem putBytes_leases (s : State) (pa n x : Nat) : (s.putBytes pa n x).leases = s.leases := by
  obtain ⟨_, h⟩ := putBytes_frame s pa n x; rw [h]
@[simp] theorem putBytes_l1 (s : State) (pa n x : Nat) : (s.putBytes pa n x).l1 = s.l1 := by
  obtain ⟨_, h⟩ := putBytes_frame s pa n x; rw [h]
@[simp] theorem putBytes_rdc (s : State) (pa n x : Nat) : (s.putBytes pa n x).rdc = s.rdc := by
  obtain ⟨_, h⟩ := putBytes_frame s pa n x; rw [h]
@[simp] theorem putBytes_excl (s : State) (pa n x : Nat) : (s.putBytes pa n x).excl = s.excl := by
  obtain ⟨_, h⟩ := putBytes_frame s pa n x; rw [h]
@[simp] theorem putBytes_upart (s : State) (pa n x : Nat) : (s.putBytes pa n x).upart = s.upart := by
  obtain ⟨_, h⟩ := putBytes_frame s pa n x; rw [h]
@[simp] theorem putBytes_remoteHolders (s : State) (pa n x : Nat) : (s.putBytes pa n x).remoteHolders = s.remoteHolders := by
  obtain ⟨_, h⟩ := putBytes_frame s pa n x; rw [h]
@[simp] theorem putBytes_accepted (s : State) (pa n x : Nat) : (s.putBytes pa n x).accepted = s.accepted := by
  obtain ⟨_, h⟩ := putBytes_frame s pa n x; rw [h]
@[simp] theorem putBytes_tlb (s : State) (pa n x : Nat) : (s.putBytes pa n x).tlb = s.tlb := by
  obtain ⟨_, h⟩ := putBytes_frame s pa n x; rw [h]
@[simp] theorem putBytes_invals (s : State) (pa n x : Nat) : (s.putBytes pa n x).invals = s.invals := by
  obtain ⟨_, h⟩ := putBytes_frame s pa n x; rw [h]
@[simp] theorem putBytes_migrations (s : State) (pa n x : Nat) : (s.putBytes pa n x).migrations = s.migrations := by
  obtain ⟨_, h⟩ := putBytes_frame s pa n x; rw [h]
@[simp] theorem putBytes_frameOwner (s : State) (pa n x : Nat) : (s.putBytes pa n x).frameOwner = s.frameOwner := by
  obtain ⟨_, h⟩ := putBytes_frame s pa n x; rw [h]
@[simp] theorem putBytes_sends (s : State) (pa n x : Nat) : (s.putBytes pa n x).sends = s.sends := by
  obtain ⟨_, h⟩ := putBytes_frame s pa n x; rw [h]
@[simp] theorem putBytes_code (s : State) (pa n x : Nat) : (s.putBytes pa n x).code = s.code := by
  obtain ⟨_, h⟩ := putBytes_frame s pa n x; rw [h]
@[simp] theorem putBytes_icache (s : State) (pa n x : Nat) : (s.putBytes pa n x).icache = s.icache := by
  obtain ⟨_, h⟩ := putBytes_frame s pa n x; rw [h]
@[simp] theorem putBytes_holds (s : State) (pa n x : Nat) : (s.putBytes pa n x).holds = s.holds := by
  obtain ⟨_, h⟩ := putBytes_frame s pa n x; rw [h]
@[simp] theorem putBytes_ctxs (s : State) (pa n x : Nat) : (s.putBytes pa n x).ctxs = s.ctxs := by
  obtain ⟨_, h⟩ := putBytes_frame s pa n x; rw [h]
@[simp] theorem putBytes_cores (s : State) (pa n x : Nat) : (s.putBytes pa n x).cores = s.cores := by
  obtain ⟨_, h⟩ := putBytes_frame s pa n x; rw [h]
@[simp] theorem putBytes_teams (s : State) (pa n x : Nat) : (s.putBytes pa n x).teams = s.teams := by
  obtain ⟨_, h⟩ := putBytes_frame s pa n x; rw [h]
@[simp] theorem putBytes_groups (s : State) (pa n x : Nat) : (s.putBytes pa n x).groups = s.groups := by
  obtain ⟨_, h⟩ := putBytes_frame s pa n x; rw [h]
@[simp] theorem putBytes_grids (s : State) (pa n x : Nat) : (s.putBytes pa n x).grids = s.grids := by
  obtain ⟨_, h⟩ := putBytes_frame s pa n x; rw [h]
@[simp] theorem putBytes_reservation (s : State) (pa n x : Nat) : (s.putBytes pa n x).reservation = s.reservation := by
  obtain ⟨_, h⟩ := putBytes_frame s pa n x; rw [h]
@[simp] theorem putBytes_kernels (s : State) (pa n x : Nat) : (s.putBytes pa n x).kernels = s.kernels := by
  obtain ⟨_, h⟩ := putBytes_frame s pa n x; rw [h]
@[simp] theorem putBytes_firn (s : State) (pa n x : Nat) : (s.putBytes pa n x).firn = s.firn := by
  obtain ⟨_, h⟩ := putBytes_frame s pa n x; rw [h]
@[simp] theorem putBytes_builds (s : State) (pa n x : Nat) : (s.putBytes pa n x).builds = s.builds := by
  obtain ⟨_, h⟩ := putBytes_frame s pa n x; rw [h]
@[simp] theorem putBytes_nextFirn (s : State) (pa n x : Nat) : (s.putBytes pa n x).nextFirn = s.nextFirn := by
  obtain ⟨_, h⟩ := putBytes_frame s pa n x; rw [h]
@[simp] theorem putBytes_queues (s : State) (pa n x : Nat) : (s.putBytes pa n x).queues = s.queues := by
  obtain ⟨_, h⟩ := putBytes_frame s pa n x; rw [h]
@[simp] theorem putBytes_owners (s : State) (pa n x : Nat) : (s.putBytes pa n x).owners = s.owners := by
  obtain ⟨_, h⟩ := putBytes_frame s pa n x; rw [h]
@[simp] theorem putBytes_ctl (s : State) (pa n x : Nat) : (s.putBytes pa n x).ctl = s.ctl := by
  obtain ⟨_, h⟩ := putBytes_frame s pa n x; rw [h]
@[simp] theorem putBytes_thresholds (s : State) (pa n x : Nat) : (s.putBytes pa n x).thresholds = s.thresholds := by
  obtain ⟨_, h⟩ := putBytes_frame s pa n x; rw [h]
@[simp] theorem putBytes_testPeriods (s : State) (pa n x : Nat) : (s.putBytes pa n x).testPeriods = s.testPeriods := by
  obtain ⟨_, h⟩ := putBytes_frame s pa n x; rw [h]
@[simp] theorem putBytes_obs (s : State) (pa n x : Nat) : (s.putBytes pa n x).obs = s.obs := by
  obtain ⟨_, h⟩ := putBytes_frame s pa n x; rw [h]
@[simp] theorem putBytes_saved (s : State) (pa n x : Nat) : (s.putBytes pa n x).saved = s.saved := by
  obtain ⟨_, h⟩ := putBytes_frame s pa n x; rw [h]
@[simp] theorem putBytes_weights (s : State) (pa n x : Nat) : (s.putBytes pa n x).weights = s.weights := by
  obtain ⟨_, h⟩ := putBytes_frame s pa n x; rw [h]
@[simp] theorem putBytes_weightsNow (s : State) (pa n x : Nat) : (s.putBytes pa n x).weightsNow = s.weightsNow := by
  obtain ⟨_, h⟩ := putBytes_frame s pa n x; rw [h]
@[simp] theorem putBytes_bankSel (s : State) (pa n x : Nat) : (s.putBytes pa n x).bankSel = s.bankSel := by
  obtain ⟨_, h⟩ := putBytes_frame s pa n x; rw [h]
@[simp] theorem putBytes_banks (s : State) (pa n x : Nat) : (s.putBytes pa n x).banks = s.banks := by
  obtain ⟨_, h⟩ := putBytes_frame s pa n x; rw [h]
@[simp] theorem putBytes_msgs (s : State) (pa n x : Nat) : (s.putBytes pa n x).msgs = s.msgs := by
  obtain ⟨_, h⟩ := putBytes_frame s pa n x; rw [h]
@[simp] theorem putBytes_nextCodeId (s : State) (pa n x : Nat) : (s.putBytes pa n x).nextCodeId = s.nextCodeId := by
  obtain ⟨_, h⟩ := putBytes_frame s pa n x; rw [h]
@[simp] theorem putBytes_insts (s : State) (pa n x : Nat) : (s.putBytes pa n x).insts = s.insts := by
  obtain ⟨_, h⟩ := putBytes_frame s pa n x; rw [h]
@[simp] theorem putBytes_recs (s : State) (pa n x : Nat) : (s.putBytes pa n x).recs = s.recs := by
  obtain ⟨_, h⟩ := putBytes_frame s pa n x; rw [h]
@[simp] theorem putBytes_pools (s : State) (pa n x : Nat) : (s.putBytes pa n x).pools = s.pools := by
  obtain ⟨_, h⟩ := putBytes_frame s pa n x; rw [h]
@[simp] theorem putBytes_fabTags (s : State) (pa n x : Nat) : (s.putBytes pa n x).fabTags = s.fabTags := by
  obtain ⟨_, h⟩ := putBytes_frame s pa n x; rw [h]
@[simp] theorem putBytes_fabSeq (s : State) (pa n x : Nat) : (s.putBytes pa n x).fabSeq = s.fabSeq := by
  obtain ⟨_, h⟩ := putBytes_frame s pa n x; rw [h]
@[simp] theorem putBytes_fabIn (s : State) (pa n x : Nat) : (s.putBytes pa n x).fabIn = s.fabIn := by
  obtain ⟨_, h⟩ := putBytes_frame s pa n x; rw [h]
@[simp] theorem putBytes_kept (s : State) (pa n x : Nat) : (s.putBytes pa n x).kept = s.kept := by
  obtain ⟨_, h⟩ := putBytes_frame s pa n x; rw [h]
@[simp] theorem putBytes_fabOut (s : State) (pa n x : Nat) : (s.putBytes pa n x).fabOut = s.fabOut := by
  obtain ⟨_, h⟩ := putBytes_frame s pa n x; rw [h]
@[simp] theorem putBytes_lost (s : State) (pa n x : Nat) : (s.putBytes pa n x).lost = s.lost := by
  obtain ⟨_, h⟩ := putBytes_frame s pa n x; rw [h]
@[simp] theorem putBytes_unreachable (s : State) (pa n x : Nat) : (s.putBytes pa n x).unreachable = s.unreachable := by
  obtain ⟨_, h⟩ := putBytes_frame s pa n x; rw [h]
@[simp] theorem putBytes_portsDown (s : State) (pa n x : Nat) : (s.putBytes pa n x).portsDown = s.portsDown := by
  obtain ⟨_, h⟩ := putBytes_frame s pa n x; rw [h]
@[simp] theorem putBytes_deltas (s : State) (pa n x : Nat) : (s.putBytes pa n x).deltas = s.deltas := by
  obtain ⟨_, h⟩ := putBytes_frame s pa n x; rw [h]
@[simp] theorem putBytes_colls (s : State) (pa n x : Nat) : (s.putBytes pa n x).colls = s.colls := by
  obtain ⟨_, h⟩ := putBytes_frame s pa n x; rw [h]
@[simp] theorem putBytes_rebuilds (s : State) (pa n x : Nat) : (s.putBytes pa n x).rebuilds = s.rebuilds := by
  obtain ⟨_, h⟩ := putBytes_frame s pa n x; rw [h]
@[simp] theorem putBytes_checkpoints (s : State) (pa n x : Nat) : (s.putBytes pa n x).checkpoints = s.checkpoints := by
  obtain ⟨_, h⟩ := putBytes_frame s pa n x; rw [h]
@[simp] theorem putBytes_vault (s : State) (pa n x : Nat) : (s.putBytes pa n x).vault = s.vault := by
  obtain ⟨_, h⟩ := putBytes_frame s pa n x; rw [h]
@[simp] theorem putBytes_powerAsks (s : State) (pa n x : Nat) : (s.putBytes pa n x).powerAsks = s.powerAsks := by
  obtain ⟨_, h⟩ := putBytes_frame s pa n x; rw [h]
@[simp] theorem putBytes_secVersion (s : State) (pa n x : Nat) : (s.putBytes pa n x).secVersion = s.secVersion := by
  obtain ⟨_, h⟩ := putBytes_frame s pa n x; rw [h]
@[simp] theorem putBytes_image (s : State) (pa n x : Nat) : (s.putBytes pa n x).image = s.image := by
  obtain ⟨_, h⟩ := putBytes_frame s pa n x; rw [h]
@[simp] theorem putBytes_chanDown (s : State) (pa n x : Nat) : (s.putBytes pa n x).chanDown = s.chanDown := by
  obtain ⟨_, h⟩ := putBytes_frame s pa n x; rw [h]

/-! `trace` -/

@[simp] theorem trace_agenda (s : State) (x : Nat) (t : TraceInfo) : (s.trace x t).agenda = s.agenda := by
  rw [show (s.trace x t) = _ from trace_traced s x t]
@[simp] theorem trace_cur (s : State) (x : Nat) (t : TraceInfo) : (s.trace x t).cur = s.cur := by
  rw [show (s.trace x t) = _ from trace_traced s x t]
@[simp] theorem trace_clock (s : State) (x : Nat) (t : TraceInfo) : (s.trace x t).clock = s.clock := by
  rw [show (s.trace x t) = _ from trace_traced s x t]
@[simp] theorem trace_endpointUp (s : State) (x : Nat) (t : TraceInfo) : (s.trace x t).endpointUp = s.endpointUp := by
  rw [show (s.trace x t) = _ from trace_traced s x t]
@[simp] theorem trace_inReset (s : State) (x : Nat) (t : TraceInfo) : (s.trace x t).inReset = s.inReset := by
  rw [show (s.trace x t) = _ from trace_traced s x t]
@[simp] theorem trace_fatal (s : State) (x : Nat) (t : TraceInfo) : (s.trace x t).fatal = s.fatal := by
  rw [show (s.trace x t) = _ from trace_traced s x t]
@[simp] theorem trace_hostMem (s : State) (x : Nat) (t : TraceInfo) : (s.trace x t).hostMem = s.hostMem := by
  rw [show (s.trace x t) = _ from trace_traced s x t]
@[simp] theorem trace_leases (s : State) (x : Nat) (t : TraceInfo) : (s.trace x t).leases = s.leases := by
  rw [show (s.trace x t) = _ from trace_traced s x t]
@[simp] theorem trace_accepted (s : State) (x : Nat) (t : TraceInfo) : (s.trace x t).accepted = s.accepted := by
  rw [show (s.trace x t) = _ from trace_traced s x t]
@[simp] theorem trace_invals (s : State) (x : Nat) (t : TraceInfo) : (s.trace x t).invals = s.invals := by
  rw [show (s.trace x t) = _ from trace_traced s x t]
@[simp] theorem trace_migrations (s : State) (x : Nat) (t : TraceInfo) : (s.trace x t).migrations = s.migrations := by
  rw [show (s.trace x t) = _ from trace_traced s x t]
@[simp] theorem trace_sends (s : State) (x : Nat) (t : TraceInfo) : (s.trace x t).sends = s.sends := by
  rw [show (s.trace x t) = _ from trace_traced s x t]
@[simp] theorem trace_icache (s : State) (x : Nat) (t : TraceInfo) : (s.trace x t).icache = s.icache := by
  rw [show (s.trace x t) = _ from trace_traced s x t]
@[simp] theorem trace_holds (s : State) (x : Nat) (t : TraceInfo) : (s.trace x t).holds = s.holds := by
  rw [show (s.trace x t) = _ from trace_traced s x t]
@[simp] theorem trace_ctxs (s : State) (x : Nat) (t : TraceInfo) : (s.trace x t).ctxs = s.ctxs := by
  rw [show (s.trace x t) = _ from trace_traced s x t]
@[simp] theorem trace_cores (s : State) (x : Nat) (t : TraceInfo) : (s.trace x t).cores = s.cores := by
  rw [show (s.trace x t) = _ from trace_traced s x t]
@[simp] theorem trace_teams (s : State) (x : Nat) (t : TraceInfo) : (s.trace x t).teams = s.teams := by
  rw [show (s.trace x t) = _ from trace_traced s x t]
@[simp] theorem trace_groups (s : State) (x : Nat) (t : TraceInfo) : (s.trace x t).groups = s.groups := by
  rw [show (s.trace x t) = _ from trace_traced s x t]
@[simp] theorem trace_grids (s : State) (x : Nat) (t : TraceInfo) : (s.trace x t).grids = s.grids := by
  rw [show (s.trace x t) = _ from trace_traced s x t]
@[simp] theorem trace_reservation (s : State) (x : Nat) (t : TraceInfo) : (s.trace x t).reservation = s.reservation := by
  rw [show (s.trace x t) = _ from trace_traced s x t]
@[simp] theorem trace_kernels (s : State) (x : Nat) (t : TraceInfo) : (s.trace x t).kernels = s.kernels := by
  rw [show (s.trace x t) = _ from trace_traced s x t]
@[simp] theorem trace_firn (s : State) (x : Nat) (t : TraceInfo) : (s.trace x t).firn = s.firn := by
  rw [show (s.trace x t) = _ from trace_traced s x t]
@[simp] theorem trace_builds (s : State) (x : Nat) (t : TraceInfo) : (s.trace x t).builds = s.builds := by
  rw [show (s.trace x t) = _ from trace_traced s x t]
@[simp] theorem trace_nextFirn (s : State) (x : Nat) (t : TraceInfo) : (s.trace x t).nextFirn = s.nextFirn := by
  rw [show (s.trace x t) = _ from trace_traced s x t]
@[simp] theorem trace_queues (s : State) (x : Nat) (t : TraceInfo) : (s.trace x t).queues = s.queues := by
  rw [show (s.trace x t) = _ from trace_traced s x t]
@[simp] theorem trace_owners (s : State) (x : Nat) (t : TraceInfo) : (s.trace x t).owners = s.owners := by
  rw [show (s.trace x t) = _ from trace_traced s x t]
@[simp] theorem trace_ctl (s : State) (x : Nat) (t : TraceInfo) : (s.trace x t).ctl = s.ctl := by
  rw [show (s.trace x t) = _ from trace_traced s x t]
@[simp] theorem trace_thresholds (s : State) (x : Nat) (t : TraceInfo) : (s.trace x t).thresholds = s.thresholds := by
  rw [show (s.trace x t) = _ from trace_traced s x t]
@[simp] theorem trace_testPeriods (s : State) (x : Nat) (t : TraceInfo) : (s.trace x t).testPeriods = s.testPeriods := by
  rw [show (s.trace x t) = _ from trace_traced s x t]
@[simp] theorem trace_saved (s : State) (x : Nat) (t : TraceInfo) : (s.trace x t).saved = s.saved := by
  rw [show (s.trace x t) = _ from trace_traced s x t]
@[simp] theorem trace_weights (s : State) (x : Nat) (t : TraceInfo) : (s.trace x t).weights = s.weights := by
  rw [show (s.trace x t) = _ from trace_traced s x t]
@[simp] theorem trace_weightsNow (s : State) (x : Nat) (t : TraceInfo) : (s.trace x t).weightsNow = s.weightsNow := by
  rw [show (s.trace x t) = _ from trace_traced s x t]
@[simp] theorem trace_bankSel (s : State) (x : Nat) (t : TraceInfo) : (s.trace x t).bankSel = s.bankSel := by
  rw [show (s.trace x t) = _ from trace_traced s x t]
@[simp] theorem trace_banks (s : State) (x : Nat) (t : TraceInfo) : (s.trace x t).banks = s.banks := by
  rw [show (s.trace x t) = _ from trace_traced s x t]
@[simp] theorem trace_msgs (s : State) (x : Nat) (t : TraceInfo) : (s.trace x t).msgs = s.msgs := by
  rw [show (s.trace x t) = _ from trace_traced s x t]
@[simp] theorem trace_nextCodeId (s : State) (x : Nat) (t : TraceInfo) : (s.trace x t).nextCodeId = s.nextCodeId := by
  rw [show (s.trace x t) = _ from trace_traced s x t]
@[simp] theorem trace_insts (s : State) (x : Nat) (t : TraceInfo) : (s.trace x t).insts = s.insts := by
  rw [show (s.trace x t) = _ from trace_traced s x t]
@[simp] theorem trace_recs (s : State) (x : Nat) (t : TraceInfo) : (s.trace x t).recs = s.recs := by
  rw [show (s.trace x t) = _ from trace_traced s x t]
@[simp] theorem trace_pools (s : State) (x : Nat) (t : TraceInfo) : (s.trace x t).pools = s.pools := by
  rw [show (s.trace x t) = _ from trace_traced s x t]
@[simp] theorem trace_fabIn (s : State) (x : Nat) (t : TraceInfo) : (s.trace x t).fabIn = s.fabIn := by
  rw [show (s.trace x t) = _ from trace_traced s x t]
@[simp] theorem trace_kept (s : State) (x : Nat) (t : TraceInfo) : (s.trace x t).kept = s.kept := by
  rw [show (s.trace x t) = _ from trace_traced s x t]
@[simp] theorem trace_lost (s : State) (x : Nat) (t : TraceInfo) : (s.trace x t).lost = s.lost := by
  rw [show (s.trace x t) = _ from trace_traced s x t]
@[simp] theorem trace_unreachable (s : State) (x : Nat) (t : TraceInfo) : (s.trace x t).unreachable = s.unreachable := by
  rw [show (s.trace x t) = _ from trace_traced s x t]
@[simp] theorem trace_portsDown (s : State) (x : Nat) (t : TraceInfo) : (s.trace x t).portsDown = s.portsDown := by
  rw [show (s.trace x t) = _ from trace_traced s x t]
@[simp] theorem trace_colls (s : State) (x : Nat) (t : TraceInfo) : (s.trace x t).colls = s.colls := by
  rw [show (s.trace x t) = _ from trace_traced s x t]
@[simp] theorem trace_rebuilds (s : State) (x : Nat) (t : TraceInfo) : (s.trace x t).rebuilds = s.rebuilds := by
  rw [show (s.trace x t) = _ from trace_traced s x t]
@[simp] theorem trace_checkpoints (s : State) (x : Nat) (t : TraceInfo) : (s.trace x t).checkpoints = s.checkpoints := by
  rw [show (s.trace x t) = _ from trace_traced s x t]
@[simp] theorem trace_vault (s : State) (x : Nat) (t : TraceInfo) : (s.trace x t).vault = s.vault := by
  rw [show (s.trace x t) = _ from trace_traced s x t]
@[simp] theorem trace_powerAsks (s : State) (x : Nat) (t : TraceInfo) : (s.trace x t).powerAsks = s.powerAsks := by
  rw [show (s.trace x t) = _ from trace_traced s x t]
@[simp] theorem trace_secVersion (s : State) (x : Nat) (t : TraceInfo) : (s.trace x t).secVersion = s.secVersion := by
  rw [show (s.trace x t) = _ from trace_traced s x t]
@[simp] theorem trace_image (s : State) (x : Nat) (t : TraceInfo) : (s.trace x t).image = s.image := by
  rw [show (s.trace x t) = _ from trace_traced s x t]
@[simp] theorem trace_chanDown (s : State) (x : Nat) (t : TraceInfo) : (s.trace x t).chanDown = s.chanDown := by
  rw [show (s.trace x t) = _ from trace_traced s x t]

/-! `count` -/

@[simp] theorem count_agenda (s : State) (n x ev k : Nat) : (s.count n x ev k).agenda = s.agenda := by
  rw [show (s.count n x ev k) = _ from count_counted s n x ev k]
@[simp] theorem count_cur (s : State) (n x ev k : Nat) : (s.count n x ev k).cur = s.cur := by
  rw [show (s.count n x ev k) = _ from count_counted s n x ev k]
@[simp] theorem count_clock (s : State) (n x ev k : Nat) : (s.count n x ev k).clock = s.clock := by
  rw [show (s.count n x ev k) = _ from count_counted s n x ev k]
@[simp] theorem count_endpointUp (s : State) (n x ev k : Nat) : (s.count n x ev k).endpointUp = s.endpointUp := by
  rw [show (s.count n x ev k) = _ from count_counted s n x ev k]
@[simp] theorem count_inReset (s : State) (n x ev k : Nat) : (s.count n x ev k).inReset = s.inReset := by
  rw [show (s.count n x ev k) = _ from count_counted s n x ev k]
@[simp] theorem count_fatal (s : State) (n x ev k : Nat) : (s.count n x ev k).fatal = s.fatal := by
  rw [show (s.count n x ev k) = _ from count_counted s n x ev k]
@[simp] theorem count_hostMem (s : State) (n x ev k : Nat) : (s.count n x ev k).hostMem = s.hostMem := by
  rw [show (s.count n x ev k) = _ from count_counted s n x ev k]
@[simp] theorem count_leases (s : State) (n x ev k : Nat) : (s.count n x ev k).leases = s.leases := by
  rw [show (s.count n x ev k) = _ from count_counted s n x ev k]
@[simp] theorem count_accepted (s : State) (n x ev k : Nat) : (s.count n x ev k).accepted = s.accepted := by
  rw [show (s.count n x ev k) = _ from count_counted s n x ev k]
@[simp] theorem count_invals (s : State) (n x ev k : Nat) : (s.count n x ev k).invals = s.invals := by
  rw [show (s.count n x ev k) = _ from count_counted s n x ev k]
@[simp] theorem count_migrations (s : State) (n x ev k : Nat) : (s.count n x ev k).migrations = s.migrations := by
  rw [show (s.count n x ev k) = _ from count_counted s n x ev k]
@[simp] theorem count_sends (s : State) (n x ev k : Nat) : (s.count n x ev k).sends = s.sends := by
  rw [show (s.count n x ev k) = _ from count_counted s n x ev k]
@[simp] theorem count_icache (s : State) (n x ev k : Nat) : (s.count n x ev k).icache = s.icache := by
  rw [show (s.count n x ev k) = _ from count_counted s n x ev k]
@[simp] theorem count_holds (s : State) (n x ev k : Nat) : (s.count n x ev k).holds = s.holds := by
  rw [show (s.count n x ev k) = _ from count_counted s n x ev k]
@[simp] theorem count_ctxs (s : State) (n x ev k : Nat) : (s.count n x ev k).ctxs = s.ctxs := by
  rw [show (s.count n x ev k) = _ from count_counted s n x ev k]
@[simp] theorem count_teams (s : State) (n x ev k : Nat) : (s.count n x ev k).teams = s.teams := by
  rw [show (s.count n x ev k) = _ from count_counted s n x ev k]
@[simp] theorem count_groups (s : State) (n x ev k : Nat) : (s.count n x ev k).groups = s.groups := by
  rw [show (s.count n x ev k) = _ from count_counted s n x ev k]
@[simp] theorem count_grids (s : State) (n x ev k : Nat) : (s.count n x ev k).grids = s.grids := by
  rw [show (s.count n x ev k) = _ from count_counted s n x ev k]
@[simp] theorem count_reservation (s : State) (n x ev k : Nat) : (s.count n x ev k).reservation = s.reservation := by
  rw [show (s.count n x ev k) = _ from count_counted s n x ev k]
@[simp] theorem count_kernels (s : State) (n x ev k : Nat) : (s.count n x ev k).kernels = s.kernels := by
  rw [show (s.count n x ev k) = _ from count_counted s n x ev k]
@[simp] theorem count_firn (s : State) (n x ev k : Nat) : (s.count n x ev k).firn = s.firn := by
  rw [show (s.count n x ev k) = _ from count_counted s n x ev k]
@[simp] theorem count_builds (s : State) (n x ev k : Nat) : (s.count n x ev k).builds = s.builds := by
  rw [show (s.count n x ev k) = _ from count_counted s n x ev k]
@[simp] theorem count_nextFirn (s : State) (n x ev k : Nat) : (s.count n x ev k).nextFirn = s.nextFirn := by
  rw [show (s.count n x ev k) = _ from count_counted s n x ev k]
@[simp] theorem count_queues (s : State) (n x ev k : Nat) : (s.count n x ev k).queues = s.queues := by
  rw [show (s.count n x ev k) = _ from count_counted s n x ev k]
@[simp] theorem count_owners (s : State) (n x ev k : Nat) : (s.count n x ev k).owners = s.owners := by
  rw [show (s.count n x ev k) = _ from count_counted s n x ev k]
@[simp] theorem count_ctl (s : State) (n x ev k : Nat) : (s.count n x ev k).ctl = s.ctl := by
  rw [show (s.count n x ev k) = _ from count_counted s n x ev k]
@[simp] theorem count_thresholds (s : State) (n x ev k : Nat) : (s.count n x ev k).thresholds = s.thresholds := by
  rw [show (s.count n x ev k) = _ from count_counted s n x ev k]
@[simp] theorem count_testPeriods (s : State) (n x ev k : Nat) : (s.count n x ev k).testPeriods = s.testPeriods := by
  rw [show (s.count n x ev k) = _ from count_counted s n x ev k]
@[simp] theorem count_saved (s : State) (n x ev k : Nat) : (s.count n x ev k).saved = s.saved := by
  rw [show (s.count n x ev k) = _ from count_counted s n x ev k]
@[simp] theorem count_weights (s : State) (n x ev k : Nat) : (s.count n x ev k).weights = s.weights := by
  rw [show (s.count n x ev k) = _ from count_counted s n x ev k]
@[simp] theorem count_weightsNow (s : State) (n x ev k : Nat) : (s.count n x ev k).weightsNow = s.weightsNow := by
  rw [show (s.count n x ev k) = _ from count_counted s n x ev k]
@[simp] theorem count_bankSel (s : State) (n x ev k : Nat) : (s.count n x ev k).bankSel = s.bankSel := by
  rw [show (s.count n x ev k) = _ from count_counted s n x ev k]
@[simp] theorem count_banks (s : State) (n x ev k : Nat) : (s.count n x ev k).banks = s.banks := by
  rw [show (s.count n x ev k) = _ from count_counted s n x ev k]
@[simp] theorem count_nextCodeId (s : State) (n x ev k : Nat) : (s.count n x ev k).nextCodeId = s.nextCodeId := by
  rw [show (s.count n x ev k) = _ from count_counted s n x ev k]
@[simp] theorem count_insts (s : State) (n x ev k : Nat) : (s.count n x ev k).insts = s.insts := by
  rw [show (s.count n x ev k) = _ from count_counted s n x ev k]
@[simp] theorem count_recs (s : State) (n x ev k : Nat) : (s.count n x ev k).recs = s.recs := by
  rw [show (s.count n x ev k) = _ from count_counted s n x ev k]
@[simp] theorem count_pools (s : State) (n x ev k : Nat) : (s.count n x ev k).pools = s.pools := by
  rw [show (s.count n x ev k) = _ from count_counted s n x ev k]
@[simp] theorem count_fabIn (s : State) (n x ev k : Nat) : (s.count n x ev k).fabIn = s.fabIn := by
  rw [show (s.count n x ev k) = _ from count_counted s n x ev k]
@[simp] theorem count_kept (s : State) (n x ev k : Nat) : (s.count n x ev k).kept = s.kept := by
  rw [show (s.count n x ev k) = _ from count_counted s n x ev k]
@[simp] theorem count_lost (s : State) (n x ev k : Nat) : (s.count n x ev k).lost = s.lost := by
  rw [show (s.count n x ev k) = _ from count_counted s n x ev k]
@[simp] theorem count_unreachable (s : State) (n x ev k : Nat) : (s.count n x ev k).unreachable = s.unreachable := by
  rw [show (s.count n x ev k) = _ from count_counted s n x ev k]
@[simp] theorem count_portsDown (s : State) (n x ev k : Nat) : (s.count n x ev k).portsDown = s.portsDown := by
  rw [show (s.count n x ev k) = _ from count_counted s n x ev k]
@[simp] theorem count_colls (s : State) (n x ev k : Nat) : (s.count n x ev k).colls = s.colls := by
  rw [show (s.count n x ev k) = _ from count_counted s n x ev k]
@[simp] theorem count_rebuilds (s : State) (n x ev k : Nat) : (s.count n x ev k).rebuilds = s.rebuilds := by
  rw [show (s.count n x ev k) = _ from count_counted s n x ev k]
@[simp] theorem count_checkpoints (s : State) (n x ev k : Nat) : (s.count n x ev k).checkpoints = s.checkpoints := by
  rw [show (s.count n x ev k) = _ from count_counted s n x ev k]
@[simp] theorem count_vault (s : State) (n x ev k : Nat) : (s.count n x ev k).vault = s.vault := by
  rw [show (s.count n x ev k) = _ from count_counted s n x ev k]
@[simp] theorem count_powerAsks (s : State) (n x ev k : Nat) : (s.count n x ev k).powerAsks = s.powerAsks := by
  rw [show (s.count n x ev k) = _ from count_counted s n x ev k]
@[simp] theorem count_secVersion (s : State) (n x ev k : Nat) : (s.count n x ev k).secVersion = s.secVersion := by
  rw [show (s.count n x ev k) = _ from count_counted s n x ev k]
@[simp] theorem count_image (s : State) (n x ev k : Nat) : (s.count n x ev k).image = s.image := by
  rw [show (s.count n x ev k) = _ from count_counted s n x ev k]
@[simp] theorem count_chanDown (s : State) (n x ev k : Nat) : (s.count n x ev k).chanDown = s.chanDown := by
  rw [show (s.count n x ev k) = _ from count_counted s n x ev k]

/-! Parts left -/

@[simp] theorem count_group (s : State) (n x ev k : Nat) (g : GRef) : (s.count n x ev k).group g = s.group g := by
  simp [State.group]
@[simp] theorem count_team (s : State) (n x ev k : Nat) (t : TRef) : (s.count n x ev k).team t = s.team t := by
  simp [State.team]
@[simp] theorem trace_group (s : State) (x : Nat) (t : TraceInfo) (g : GRef) : (s.trace x t).group g = s.group g := by
  simp [State.group]
@[simp] theorem trace_team (s : State) (x : Nat) (i : TraceInfo) (t : TRef) : (s.trace x i).team t = s.team t := by
  simp [State.team]

end Sys2Proof.Machine
end

