-- ==== Sys2Proof/Laws/Memory.lean ====
section
/-! SUPPORT. Every operation on memory keeps the canonical form of every memory: device memory, host memory, and the
scratch and tags of every team. -/

namespace Sys2Proof.Machine

/-! What the form depends on -/

/-- A team's scratch and tags are in canonical form. -/
def Team.scratchWf (t : Team) : Bool := swf t.scratch && swf t.tags

theorem memoriesWf_iff (s : State) : s.memoriesWf = true ↔
    s.mem.wf = true ∧ s.hostMem.wf = true ∧ ∀ p ∈ s.teams, p.2.scratchWf = true := by
  simp only [State.memoriesWf, Team.scratchWf, Bool.and_eq_true, List.all_eq_true, and_assoc]

/-- States with the same memories and teams have the same form. -/
theorem memoriesWf_same {s t : State} (hm : t.mem = s.mem) (hh : t.hostMem = s.hostMem) (ht : t.teams = s.teams) :
    t.memoriesWf = s.memoriesWf := by
  simp only [State.memoriesWf, hm, hh, ht]

/-- A change of device memory alone. -/
theorem memoriesWf_mem {s t : State} (h : s.memoriesWf = true) (hm : s.mem.wf = true → t.mem.wf = true)
    (hh : t.hostMem = s.hostMem) (ht : t.teams = s.teams) : t.memoriesWf = true := by
  rw [memoriesWf_iff] at *
  rw [hh, ht]
  exact ⟨hm h.1, h.2⟩

theorem mem_wf {s : State} (h : s.memoriesWf = true) : s.mem.wf = true := ((memoriesWf_iff s).mp h).1

theorem reset_memoriesWf : State.reset.memoriesWf = true := rfl

/-! Association lists -/

theorem mem_aput {κ α : Type} [DecidableEq κ] (m : Assoc κ α) (k : κ) (x : α) (p : κ × α) (h : p ∈ aput m k x) :
    p ∈ m ∨ p = (k, x) := by
  induction m with
  | nil => simpa [aput] using h
  | cons q m ih =>
    obtain ⟨a, y⟩ := q
    simp only [aput] at h
    split at h
    · rename_i e
      subst e
      obtain h | h := List.mem_cons.mp h
      · exact .inr h
      · exact .inl (List.mem_cons_of_mem _ h)
    · obtain h | h := List.mem_cons.mp h
      · exact .inl (h ▸ List.mem_cons_self)
      · obtain h | h := ih h
        · exact .inl (List.mem_cons_of_mem _ h)
        · exact .inr h

theorem aget_mem {κ α : Type} [DecidableEq κ] {m : Assoc κ α} {k : κ} {x : α} (h : aget m k = some x) : (k, x) ∈ m := by
  induction m with
  | nil => simp [aget] at h
  | cons q m ih =>
    obtain ⟨a, y⟩ := q
    simp only [aget] at h
    split at h
    · rename_i e
      subst e
      simp_all
    · exact List.mem_cons_of_mem _ (ih h)

/-! Teams -/

theorem memoriesWf_setTeam {s : State} (h : s.memoriesWf = true) (t : TRef) (x : Team) (hx : x.scratchWf = true) :
    (s.setTeam t x).memoriesWf = true := by
  rw [memoriesWf_iff] at *
  refine ⟨h.1, h.2.1, fun p hp => ?_⟩
  obtain hp | hp := mem_aput _ _ _ _ hp
  · exact h.2.2 p hp
  · subst hp; exact hx

theorem team_scratchWf {s : State} (h : s.memoriesWf = true) {t : TRef} {x : Team} (ht : s.team t = some x) :
    x.scratchWf = true := ((memoriesWf_iff s).mp h).2.2 _ (aget_mem ht)

/-- A change of a team that keeps its scratch and tags in form. -/
theorem memoriesWf_onTeam {s : State} (h : s.memoriesWf = true) (t : TRef) (f : Team → Team)
    (hf : ∀ x, x.scratchWf = true → (f x).scratchWf = true) : (s.onTeam t f).memoriesWf = true := by
  unfold State.onTeam
  split
  · exact h
  · rename_i x hx
    exact memoriesWf_setTeam h t _ (hf x (team_scratchWf h hx))

theorem scratchWf_write {x : Team} (h : x.scratchWf = true) (a n v : Nat) :
    ({ x with scratch := ssetLE x.scratch a n v } : Team).scratchWf = true := by
  simp only [Team.scratchWf, Bool.and_eq_true] at *
  exact ⟨swf_ssetLE n h.1 a v, h.2⟩

theorem scratchWf_setTag {x : Team} (h : x.scratchWf = true) (a : Nat) (b : Bool) : (x.setTag a b).scratchWf = true := by
  simp only [Team.scratchWf, Team.setTag, Bool.and_eq_true] at *
  exact ⟨h.1, swf_sset h.2 _ _⟩

/-! Parts that hold no memory -/

@[simp] theorem memoriesWf_onCore (s : State) (n : Nat) (f : Core → Core) : (s.onCore n f).memoriesWf = s.memoriesWf := rfl
@[simp] theorem memoriesWf_setGroup (s : State) (g : GRef) (x : Group) : (s.setGroup g x).memoriesWf = s.memoriesWf := rfl
@[simp] theorem memoriesWf_onGroup (s : State) (g : GRef) (f : Group → Group) :
    (s.onGroup g f).memoriesWf = s.memoriesWf := memoriesWf_same (by simp) (by simp) (by simp)
@[simp] theorem memoriesWf_onCtx (s : State) (n : Nat) (f : Ctx → Ctx) : (s.onCtx n f).memoriesWf = s.memoriesWf :=
  memoriesWf_same (by simp) (by simp) (by simp)
@[simp] theorem memoriesWf_onGrid (s : State) (n : Nat) (f : Grid → Grid) : (s.onGrid n f).memoriesWf = s.memoriesWf :=
  memoriesWf_same (by simp) (by simp) (by simp)
@[simp] theorem memoriesWf_onQueue (s : State) (n : Nat) (f : Queue → Queue) :
    (s.onQueue n f).memoriesWf = s.memoriesWf := memoriesWf_same (by simp) (by simp) (by simp)
@[simp] theorem memoriesWf_draw (s : State) : s.draw.2.memoriesWf = s.memoriesWf :=
  memoriesWf_same (by simp) (by simp) (by simp)
@[simp] theorem memoriesWf_pick (s : State) (n : Nat) : (s.pick n).2.memoriesWf = s.memoriesWf :=
  memoriesWf_same (by simp) (by simp) (by simp)
@[simp] theorem memoriesWf_draws (s : State) (n : Nat) : (draws n s).2.memoriesWf = s.memoriesWf :=
  memoriesWf_same (by simp) (by simp) (by simp)
@[simp] theorem memoriesWf_recordError (s : State) (e : ErrInfo) : (s.recordError e).memoriesWf = s.memoriesWf := by
  obtain ⟨_, _, _, h⟩ := recordError_frame s e
  rw [h]
  rfl
@[simp] theorem memoriesWf_leaseWrite (s : State) (p l : Nat) : (s.leaseWrite p l).memoriesWf = s.memoriesWf := rfl

/-! Fields that hold no memory -/

@[simp] theorem memoriesWf_with_agenda (s : State) (x : List Move) : { s with agenda := x }.memoriesWf = s.memoriesWf := rfl
@[simp] theorem memoriesWf_with_choices (s : State) (x : List Nat) : { s with choices := x }.memoriesWf = s.memoriesWf := rfl
@[simp] theorem memoriesWf_with_tick (s : State) (x : Nat) : { s with tick := x }.memoriesWf = s.memoriesWf := rfl
@[simp] theorem memoriesWf_with_cur (s : State) (x : Option Who) : { s with cur := x }.memoriesWf = s.memoriesWf := rfl
@[simp] theorem memoriesWf_with_clock (s : State) (x : Nat) : { s with clock := x }.memoriesWf = s.memoriesWf := rfl
@[simp] theorem memoriesWf_with_endpointUp (s : State) (x : Bool) : { s with endpointUp := x }.memoriesWf = s.memoriesWf := rfl
@[simp] theorem memoriesWf_with_inReset (s : State) (x : Bool) : { s with inReset := x }.memoriesWf = s.memoriesWf := rfl
@[simp] theorem memoriesWf_with_fatal (s : State) (x : Bool) : { s with fatal := x }.memoriesWf = s.memoriesWf := rfl
@[simp] theorem memoriesWf_with_poison (s : State) (x : List Nat) : { s with poison := x }.memoriesWf = s.memoriesWf := rfl
@[simp] theorem memoriesWf_with_leases (s : State) (x : Assoc Nat Lease) : { s with leases := x }.memoriesWf = s.memoriesWf := rfl
@[simp] theorem memoriesWf_with_l1 (s : State) (x : List Copy) : { s with l1 := x }.memoriesWf = s.memoriesWf := rfl
@[simp] theorem memoriesWf_with_rdc (s : State) (x : List Copy) : { s with rdc := x }.memoriesWf = s.memoriesWf := rfl
@[simp] theorem memoriesWf_with_excl (s : State) (x : List Excl) : { s with excl := x }.memoriesWf = s.memoriesWf := rfl
@[simp] theorem memoriesWf_with_upart (s : State) (x : List UPart) : { s with upart := x }.memoriesWf = s.memoriesWf := rfl
@[simp] theorem memoriesWf_with_remoteHolders (s : State) (x : List RemoteHolder) : { s with remoteHolders := x }.memoriesWf = s.memoriesWf := rfl
@[simp] theorem memoriesWf_with_accepted (s : State) (x : List RemoteHolder) : { s with accepted := x }.memoriesWf = s.memoriesWf := rfl
@[simp] theorem memoriesWf_with_tlb (s : State) (x : List Tlb) : { s with tlb := x }.memoriesWf = s.memoriesWf := rfl
@[simp] theorem memoriesWf_with_invals (s : State) (x : List Inval) : { s with invals := x }.memoriesWf = s.memoriesWf := rfl
@[simp] theorem memoriesWf_with_migrations (s : State) (x : List Migration) : { s with migrations := x }.memoriesWf = s.memoriesWf := rfl
@[simp] theorem memoriesWf_with_frameOwner (s : State) (x : List FrameOwn) : { s with frameOwner := x }.memoriesWf = s.memoriesWf := rfl
@[simp] theorem memoriesWf_with_sends (s : State) (x : List TileSend) : { s with sends := x }.memoriesWf = s.memoriesWf := rfl
@[simp] theorem memoriesWf_with_code (s : State) (x : List ((Nat × Bool × Nat) × Store 8)) : { s with code := x }.memoriesWf = s.memoriesWf := rfl
@[simp] theorem memoriesWf_with_icache (s : State) (x : List ILine) : { s with icache := x }.memoriesWf = s.memoriesWf := rfl
@[simp] theorem memoriesWf_with_holds (s : State) (x : List Held) : { s with holds := x }.memoriesWf = s.memoriesWf := rfl
@[simp] theorem memoriesWf_with_ctxs (s : State) (x : Assoc Nat Ctx) : { s with ctxs := x }.memoriesWf = s.memoriesWf := rfl
@[simp] theorem memoriesWf_with_cores (s : State) (x : Assoc Nat Core) : { s with cores := x }.memoriesWf = s.memoriesWf := rfl
@[simp] theorem memoriesWf_with_groups (s : State) (x : Assoc GRef Group) : { s with groups := x }.memoriesWf = s.memoriesWf := rfl
@[simp] theorem memoriesWf_with_grids (s : State) (x : Assoc Nat Grid) : { s with grids := x }.memoriesWf = s.memoriesWf := rfl
@[simp] theorem memoriesWf_with_reservation (s : State) (x : Option Nat) : { s with reservation := x }.memoriesWf = s.memoriesWf := rfl
@[simp] theorem memoriesWf_with_kernels (s : State) (x : List Kernel) : { s with kernels := x }.memoriesWf = s.memoriesWf := rfl
@[simp] theorem memoriesWf_with_firn (s : State) (x : List FirnEntry) : { s with firn := x }.memoriesWf = s.memoriesWf := rfl
@[simp] theorem memoriesWf_with_builds (s : State) (x : List Nat) : { s with builds := x }.memoriesWf = s.memoriesWf := rfl
@[simp] theorem memoriesWf_with_nextFirn (s : State) (x : Nat) : { s with nextFirn := x }.memoriesWf = s.memoriesWf := rfl
@[simp] theorem memoriesWf_with_queues (s : State) (x : Assoc Nat Queue) : { s with queues := x }.memoriesWf = s.memoriesWf := rfl
@[simp] theorem memoriesWf_with_owners (s : State) (x : Assoc Nat W64) : { s with owners := x }.memoriesWf = s.memoriesWf := rfl
@[simp] theorem memoriesWf_with_ctl (s : State) (x : Ctl) : { s with ctl := x }.memoriesWf = s.memoriesWf := rfl
@[simp] theorem memoriesWf_with_thresholds (s : State) (x : Assoc Nat Nat) : { s with thresholds := x }.memoriesWf = s.memoriesWf := rfl
@[simp] theorem memoriesWf_with_testPeriods (s : State) (x : Assoc Nat Nat) : { s with testPeriods := x }.memoriesWf = s.memoriesWf := rfl
@[simp] theorem memoriesWf_with_obs (s : State) (x : Assoc Nat ObsPage) : { s with obs := x }.memoriesWf = s.memoriesWf := rfl
@[simp] theorem memoriesWf_with_saved (s : State) (x : Assoc (Nat × Nat × Nat) Counter) : { s with saved := x }.memoriesWf = s.memoriesWf := rfl
@[simp] theorem memoriesWf_with_weights (s : State) (x : Store 16) : { s with weights := x }.memoriesWf = s.memoriesWf := rfl
@[simp] theorem memoriesWf_with_weightsNow (s : State) (x : Store 16) : { s with weightsNow := x }.memoriesWf = s.memoriesWf := rfl
@[simp] theorem memoriesWf_with_bankSel (s : State) (x : Store 8) : { s with bankSel := x }.memoriesWf = s.memoriesWf := rfl
@[simp] theorem memoriesWf_with_banks (s : State) (x : Assoc Nat Bank) : { s with banks := x }.memoriesWf = s.memoriesWf := rfl
@[simp] theorem memoriesWf_with_msgs (s : State) (x : List Msg) : { s with msgs := x }.memoriesWf = s.memoriesWf := rfl
@[simp] theorem memoriesWf_with_nextCodeId (s : State) (x : Nat) : { s with nextCodeId := x }.memoriesWf = s.memoriesWf := rfl
@[simp] theorem memoriesWf_with_insts (s : State) (x : List Inst) : { s with insts := x }.memoriesWf = s.memoriesWf := rfl
@[simp] theorem memoriesWf_with_recs (s : State) (x : List Rec) : { s with recs := x }.memoriesWf = s.memoriesWf := rfl
@[simp] theorem memoriesWf_with_pools (s : State) (x : List Pool) : { s with pools := x }.memoriesWf = s.memoriesWf := rfl
@[simp] theorem memoriesWf_with_fabTags (s : State) (x : List FabTag) : { s with fabTags := x }.memoriesWf = s.memoriesWf := rfl
@[simp] theorem memoriesWf_with_fabSeq (s : State) (x : Assoc (Nat × Nat) Nat) : { s with fabSeq := x }.memoriesWf = s.memoriesWf := rfl
@[simp] theorem memoriesWf_with_fabIn (s : State) (x : Assoc Nat Nat) : { s with fabIn := x }.memoriesWf = s.memoriesWf := rfl
@[simp] theorem memoriesWf_with_kept (s : State) (x : List KeptReply) : { s with kept := x }.memoriesWf = s.memoriesWf := rfl
@[simp] theorem memoriesWf_with_fabOut (s : State) (x : List FabPkt) : { s with fabOut := x }.memoriesWf = s.memoriesWf := rfl
@[simp] theorem memoriesWf_with_lost (s : State) (x : List Nat) : { s with lost := x }.memoriesWf = s.memoriesWf := rfl
@[simp] theorem memoriesWf_with_unreachable (s : State) (x : List Nat) : { s with unreachable := x }.memoriesWf = s.memoriesWf := rfl
@[simp] theorem memoriesWf_with_portsDown (s : State) (x : List Nat) : { s with portsDown := x }.memoriesWf = s.memoriesWf := rfl
@[simp] theorem memoriesWf_with_deltas (s : State) (x : List Delta) : { s with deltas := x }.memoriesWf = s.memoriesWf := rfl
@[simp] theorem memoriesWf_with_colls (s : State) (x : List CollData) : { s with colls := x }.memoriesWf = s.memoriesWf := rfl
@[simp] theorem memoriesWf_with_rebuilds (s : State) (x : List Rebuild) : { s with rebuilds := x }.memoriesWf = s.memoriesWf := rfl
@[simp] theorem memoriesWf_with_checkpoints (s : State) (x : List Checkpoint) : { s with checkpoints := x }.memoriesWf = s.memoriesWf := rfl
@[simp] theorem memoriesWf_with_vault (s : State) (x : List Chunk) : { s with vault := x }.memoriesWf = s.memoriesWf := rfl
@[simp] theorem memoriesWf_with_powerAsks (s : State) (x : List GRef) : { s with powerAsks := x }.memoriesWf = s.memoriesWf := rfl
@[simp] theorem memoriesWf_with_secVersion (s : State) (x : Assoc Nat Nat) : { s with secVersion := x }.memoriesWf = s.memoriesWf := rfl
@[simp] theorem memoriesWf_with_image (s : State) (x : Assoc Nat (List Byte × List Byte)) : { s with image := x }.memoriesWf = s.memoriesWf := rfl
@[simp] theorem memoriesWf_with_chanDown (s : State) (x : List Nat) : { s with chanDown := x }.memoriesWf = s.memoriesWf := rfl

/-! Choices and folds -/

theorem memoriesWf_ite {c : Prop} [Decidable c] {s t : State} (hs : s.memoriesWf = true) (ht : t.memoriesWf = true) :
    (if c then s else t).memoriesWf = true := by
  split <;> assumption

theorem memoriesWf_foldl {α : Type} (f : State → α → State) (hf : ∀ s x, s.memoriesWf = true → (f s x).memoriesWf = true) :
    ∀ (l : List α) (s : State), s.memoriesWf = true → (l.foldl f s).memoriesWf = true := by
  intro l
  induction l with
  | nil => exact fun _ h => h
  | cons x xs ih => exact fun s h => ih _ (hf s x h)

/-! Writes at a physical address -/

theorem memoriesWf_setMem {s : State} (h : s.memoriesWf = true) {m : Memory} (hm : m.wf = true) :
    (s.setMem m).memoriesWf = true := memoriesWf_mem h (fun _ => hm) rfl rfl

theorem memoriesWf_putBytes {s : State} (h : s.memoriesWf = true) (pa n x : Nat) : (s.putBytes pa n x).memoriesWf = true := by
  obtain ⟨p, e⟩ := putBytes_frame s pa n x
  rw [e]
  exact memoriesWf_mem h (fun w => swf_ssetLE n w pa x) rfl rfl

theorem memoriesWf_hostSet {s : State} (h : s.memoriesWf = true) (a n x : Nat) : (s.hostSet a n x).memoriesWf = true := by
  rw [memoriesWf_iff] at *
  exact ⟨h.1, swf_ssetLE n h.2.1 a x, h.2.2⟩

/-! Parity -/

@[simp] theorem memoriesWf_sendReq (s : State) (d : Nat) (p : FabPkt) (w : ReqFor) :
    (s.sendReq d p w).2.memoriesWf = s.memoriesWf := by
  obtain ⟨_, _, _, _, _, h⟩ := sendReq_frame s d p w
  rw [h]
  rfl

theorem memoriesWf_setDeg {s : State} (h : s.memoriesWf = true) (i : Nat) : (s.setDeg i).memoriesWf = true :=
  memoriesWf_putBytes h _ _ _

theorem memoriesWf_deltaLost {s : State} (h : s.memoriesWf = true) (i : Nat) (o : List GRef) :
    (s.deltaLost i o).memoriesWf = true := by
  unfold State.deltaLost
  refine memoriesWf_foldl _ (fun s g hs => ?_) o _ (memoriesWf_setDeg h i)
  split
  · exact memoriesWf_onTeam hs _ _ (fun x hx => hx)
  · simpa using hs

theorem memoriesWf_sendDelta {s : State} (h : s.memoriesWf = true) (d : Delta) : (s.sendDelta d).memoriesWf = true := by
  unfold State.sendDelta
  split
  · exact memoriesWf_deltaLost h _ _
  · split
    · exact h
    · exact (memoriesWf_with_deltas _ _).trans ((memoriesWf_sendReq s d.die _ _).trans h)

theorem memoriesWf_touchFrame {s : State} (h : s.memoriesWf = true) (o : List GRef) (i : Nat) :
    (s.touchFrame o i).memoriesWf = true := by
  unfold State.touchFrame
  refine memoriesWf_foldl _ (fun s g hs => ?_) o _ h
  split
  · exact memoriesWf_onTeam hs _ _ (fun x hx => by split <;> exact hx)
  · simpa using hs

theorem memoriesWf_sendDeltas {s : State} (h : s.memoriesWf = true) (pa n x : Nat) (o : List GRef) :
    (s.sendDeltas pa n x o).memoriesWf = true := by
  unfold State.sendDeltas
  split
  · exact h
  · exact memoriesWf_sendDelta (memoriesWf_sendDelta (memoriesWf_touchFrame h _ _) _) _

theorem memoriesWf_rangeDeltas {s : State} (h : s.memoriesWf = true) (old : Memory) (pa n : Nat) (o : List GRef) :
    (s.rangeDeltas old pa n o).memoriesWf = true := by
  unfold State.rangeDeltas
  refine memoriesWf_ite h (memoriesWf_foldl _ (fun s p hs => ?_) _ _ h)
  exact memoriesWf_ite hs (memoriesWf_sendDeltas hs _ _ _ _)

/-! Owners of frames, translations, records and counters -/

theorem memoriesWf_zeroRange {s : State} (h : s.memoriesWf = true) (pa n : Nat) : (s.zeroRange pa n).memoriesWf = true := by
  have e : ∀ u : State, u.mem = sclear s.mem pa n → u.hostMem = s.hostMem → u.teams = s.teams → u.memoriesWf = true :=
    fun u hm hh ht => memoriesWf_mem h (fun w => hm ▸ swf_sclear w pa n) hh ht
  unfold State.zeroRange
  refine memoriesWf_rangeDeltas ?_ _ _ _ _
  exact e _ rfl rfl rfl

theorem memoriesWf_takeOver {s : State} (h : s.memoriesWf = true) (c : Option Nat) (pa n : Nat) (va : Option Nat) :
    (s.takeOver c pa n va).memoriesWf = true := by
  have hz : ∀ c, ((s.leftBy c pa n).foldl (fun (s : State) (f : FrameOwn) =>
      s.zeroRange (max f.pa pa) (min (f.pa + f.bytes) (pa + n) - max f.pa pa)) s).memoriesWf = true :=
    fun c => memoriesWf_foldl _ (fun s f hs => memoriesWf_zeroRange hs _ _) _ _ h
  unfold State.takeOver
  cases c <;> exact memoriesWf_ite h ((memoriesWf_with_frameOwner _ _).trans (hz _))

@[simp] theorem memoriesWf_cacheTlb (s : State) (t : Tlb) : (s.cacheTlb t).memoriesWf = s.memoriesWf := by
  unfold State.cacheTlb
  dsimp only
  split
  · rfl
  · split
    · rfl
    · exact memoriesWf_pick s _

theorem memoriesWf_fillTlb {s : State} (h : s.memoriesWf = true) (core : Option Nat) (t : Tlb) :
    (s.fillTlb core t).memoriesWf = true := by
  unfold State.fillTlb
  cases core <;> dsimp only
  · have h1 := fun t => (memoriesWf_cacheTlb s t).trans h
    exact memoriesWf_ite (h1 _) (memoriesWf_takeOver (h1 _) _ _ _ _)
  · have h1 := fun t u => (memoriesWf_cacheTlb (s.cacheTlb t) u).trans ((memoriesWf_cacheTlb s t).trans h)
    exact memoriesWf_ite (h1 _ _) (memoriesWf_takeOver (h1 _ _) _ _ _ _)

theorem memoriesWf_translate {s : State} (h : s.memoriesWf = true) (x va : Nat) (core : Option Nat) :
    (s.translate x va core).2.memoriesWf = true := by
  have hp := fun n => (memoriesWf_pick s n).trans h
  unfold State.translate
  split
  · exact h
  · dsimp only
    split
    · exact memoriesWf_fillTlb (hp _) _ _
    · exact hp _

theorem memoriesWf_trace {s : State} (h : s.memoriesWf = true) (x : Nat) (t : TraceInfo) : (s.trace x t).memoriesWf = true := by
  unfold State.trace
  split
  · exact h
  · have ht := fun va => memoriesWf_translate h x va none
    have hf : ∀ u : State, u.memoriesWf = true → ∀ o, { u with obs := o }.memoriesWf = true :=
      fun u hu o => (memoriesWf_with_obs u o).trans hu
    refine memoriesWf_ite h (memoriesWf_ite (hf _ h _) ?_)
    dsimp only
    split
    · exact memoriesWf_ite (hf _ (memoriesWf_putBytes (ht _) _ _ _) _) (hf _ (ht _) _)
    · exact hf _ (ht _) _

theorem memoriesWf_count {s : State} (h : s.memoriesWf = true) (n x ev k : Nat) : (s.count n x ev k).memoriesWf = true := by
  unfold State.count
  refine memoriesWf_ite h (memoriesWf_ite h ?_)
  refine memoriesWf_foldl _ (fun s d hs => ?_) _ (s.setCore n _) h
  exact (memoriesWf_with_msgs _ _).trans (memoriesWf_foldl _ (fun s y hs => memoriesWf_trace hs y _) _ _ hs)

/-! Ranges -/

/-- Every key of a store in form above a bound is above it. -/
theorem wfAbove_keys {w : Nat} : ∀ {m : Store w} {l : Nat}, wfAbove (some l) m = true → ∀ p ∈ m, l < p.1 := by
  intro m
  induction m with
  | nil => simp
  | cons q m ih =>
    obtain ⟨k, x⟩ := q
    intro l h p hp
    rw [wfAbove_cons] at h
    simp only [Bool.and_eq_true, aboveBound, decide_eq_true_eq] at h
    obtain hp | hp := List.mem_cons.mp hp
    · subst hp; exact h.1.1
    · exact Nat.lt_trans h.1.1 (ih h.2 p hp)

/-- Two stores in form, the second above the first, are one in form. -/
theorem wfAbove_append {w : Nat} {b : Store w} (hb : swf b = true) :
    ∀ {a : Store w} {lo : Option Nat}, wfAbove lo a = true → (∀ p ∈ a, ∀ q ∈ b, p.1 < q.1) →
      (∀ q ∈ b, aboveBound lo q.1 = true) → wfAbove lo (a ++ b) = true := by
  intro a
  induction a with
  | nil =>
    intro lo _ _ hq
    cases b with
    | nil => rfl
    | cons q b =>
      obtain ⟨k, x⟩ := q
      have hb' : wfAbove none ((k, x) :: b) = true := hb
      rw [wfAbove_cons] at hb'
      simp only [Bool.and_eq_true] at hb'
      simp only [List.nil_append]
      rw [wfAbove_cons]
      simp only [Bool.and_eq_true]
      exact ⟨⟨hq _ List.mem_cons_self, hb'.1.2⟩, hb'.2⟩
  | cons p a ih =>
    obtain ⟨k, x⟩ := p
    intro lo ha hk _
    rw [wfAbove_cons] at ha
    simp only [Bool.and_eq_true] at ha
    rw [List.cons_append, wfAbove_cons]
    simp only [Bool.and_eq_true]
    refine ⟨ha.1, ih ha.2 (fun p hp => hk p (List.mem_cons_of_mem _ hp)) (fun q hq => ?_)⟩
    simpa [aboveBound] using hk (k, x) List.mem_cons_self q hq

/-- A store moved up, from an offset on, is in form. -/
theorem wfAbove_shift {w : Nat} (off pa : Nat) : ∀ {m : Store w} {lo : Option Nat}, wfAbove lo m = true →
    (∀ p ∈ m, off ≤ p.1) → ∀ lo' : Option Nat, (∀ p ∈ m, aboveBound lo' (p.1 - off + pa) = true) →
    wfAbove lo' (m.map (fun p => (p.1 - off + pa, p.2))) = true := by
  intro m
  induction m with
  | nil => intros; rfl
  | cons p m ih =>
    obtain ⟨k, x⟩ := p
    intro lo h ho lo' hl
    rw [wfAbove_cons] at h
    simp only [Bool.and_eq_true] at h
    rw [List.map_cons, wfAbove_cons]
    simp only [Bool.and_eq_true]
    refine ⟨⟨hl _ List.mem_cons_self, h.1.2⟩, ih h.2 (fun p hp => ho p (List.mem_cons_of_mem _ hp)) _ (fun p hp => ?_)⟩
    have h1 := wfAbove_keys h.2 p hp
    have h2 := ho (k, x) List.mem_cons_self
    simp only [aboveBound, decide_eq_true_eq]
    dsimp only at h2
    omega

/-- A range of a memory replaced by that of a record is in form. -/
theorem splice_wf {m r : Store 8} (hm : swf m = true) (hr : swf r = true) (pa n off : Nat) :
    swf (m.filter (fun p => decide (p.1 < pa)) ++
      (r.filter (fun p => decide (off ≤ p.1) && decide (p.1 < off + n))).map (fun p => (p.1 - off + pa, p.2)) ++
      m.filter (fun p => decide (pa + n ≤ p.1))) = true := by
  have hp : swf ((r.filter (fun p => decide (off ≤ p.1) && decide (p.1 < off + n))).map
      (fun p => (p.1 - off + pa, p.2))) = true :=
    wfAbove_shift off pa (wfAbove_filter _ hr) (fun p hp => by simp at hp; omega) none (fun _ _ => rfl)
  have mid : ∀ q ∈ (r.filter (fun p => decide (off ≤ p.1) && decide (p.1 < off + n))).map
      (fun p => (p.1 - off + pa, p.2)), pa ≤ q.1 ∧ q.1 < pa + n := by
    intro q hq
    simp only [List.mem_map, List.mem_filter, Bool.and_eq_true, decide_eq_true_eq] at hq
    obtain ⟨p, ⟨_, h1, h2⟩, rfl⟩ := hq
    dsimp only
    omega
  have low : swf (m.filter (fun p => decide (p.1 < pa)) ++
      (r.filter (fun p => decide (off ≤ p.1) && decide (p.1 < off + n))).map (fun p => (p.1 - off + pa, p.2))) = true :=
    wfAbove_append hp (wfAbove_filter _ hm) (fun p hp q hq => by
      have := (mid q hq).1
      simp only [List.mem_filter, decide_eq_true_eq] at hp
      omega) (fun _ _ => rfl)
  refine wfAbove_append (wfAbove_filter _ hm) low (fun p hp q hq => ?_) (fun _ _ => rfl)
  simp only [List.mem_filter, decide_eq_true_eq] at hq
  obtain hp | hp := List.mem_append.mp hp
  · simp only [List.mem_filter, decide_eq_true_eq] at hp
    omega
  · have := (mid p hp).2
    omega

/-- A range replaced by a piece of a store in form leaves a memory in form. -/
theorem splice_swf {m : Memory} {r : Store 8} (hm : m.wf = true) (hr : swf r = true) (pa n off : Nat) :
    (splice m pa n off r).wf = true := splice_wf hm hr pa n off

/-! Pages that move -/

theorem memoriesWf_rewriteEntry {s : State} (h : s.memoriesWf = true) (m : Migration) :
    (s.rewriteEntry m).memoriesWf = true := by
  unfold State.rewriteEntry
  dsimp only
  split
  · exact memoriesWf_ite (memoriesWf_putBytes h _ _ _) h
  · exact h

theorem memoriesWf_switchPage {s : State} (h : s.memoriesWf = true) (m : Migration) : (s.switchPage m).memoriesWf = true := by
  have h1 := memoriesWf_takeOver h (some m.ctx) m.new m.bytes (some (m.va / m.bytes * m.bytes))
  have h2 := memoriesWf_rewriteEntry (memoriesWf_rangeDeltas
    (memoriesWf_setMem h1 (splice_swf (mem_wf h1) (mem_wf h1) m.new m.bytes m.old))
    (s.takeOver (some m.ctx) m.new m.bytes (some (m.va / m.bytes * m.bytes))).mem m.new m.bytes []) m
  exact (memoriesWf_same rfl rfl rfl).trans h2

theorem memoriesWf_unlock {s : State} (h : s.memoriesWf = true) (pa : Nat) : (s.unlock pa).2.memoriesWf = true := by
  unfold State.unlock
  split
  · exact memoriesWf_switchPage h _
  · split <;> exact h

/-! The home of a line -/

theorem memoriesWf_homeWatch {s : State} (h : s.memoriesWf = true) (pa n : Nat) (a : W64) :
    (s.homeWatch pa n a).memoriesWf = true := by
  unfold State.homeWatch
  refine memoriesWf_foldl _ (fun s i hs => ?_) _ _ h
  split
  · exact hs
  · exact memoriesWf_trace hs _ _

theorem memoriesWf_homePut {s : State} (h : s.memoriesWf = true) (w : Writer) (pa n x : Nat) (m : Bool) :
    (s.homePut w pa n x m).memoriesWf = true := by
  have h1 := memoriesWf_putBytes (memoriesWf_unlock h pa) (s.unlock pa).1 n x
  unfold State.homePut
  refine memoriesWf_homeWatch ?_ _ _ _
  exact memoriesWf_ite (memoriesWf_sendDeltas ((memoriesWf_leaseWrite _ _ _).trans h1) _ _ _ _) ((memoriesWf_leaseWrite _ _ _).trans h1)

theorem memoriesWf_applyPartial {s : State} (h : s.memoriesWf = true) (u : UPart) : (s.applyPartial u).memoriesWf = true := by
  unfold State.applyPartial
  exact memoriesWf_foldl _ (fun s p hs => memoriesWf_homePut hs _ _ _ _ _) _ _ h

theorem memoriesWf_sendPartial {s : State} (h : s.memoriesWf = true) (u : UPart) : (s.sendPartial u).memoriesWf = true := by
  unfold State.sendPartial
  split
  · exact memoriesWf_applyPartial h u
  · refine memoriesWf_foldl _ (fun s p hs => ?_) _ _ h
    have hq : ∀ d q w, (s.sendReq d q w).2.memoriesWf = true := fun d q w => (memoriesWf_sendReq s d q w).trans hs
    exact memoriesWf_ite (hq _ _ _) ((memoriesWf_with_upart _ _).trans (hq _ _ _))

theorem memoriesWf_takeRemote {s : State} (h : s.memoriesWf = true) (r : RemoteHolder) :
    (s.takeRemote r).memoriesWf = true := by
  unfold State.takeRemote
  dsimp only
  split
  · exact h
  · exact memoriesWf_foldl _ (fun s p hs => memoriesWf_homePut hs _ _ _ _ _) _ _ ((memoriesWf_draws _ 34).trans h)

theorem memoriesWf_flushLine {s : State} (h : s.memoriesWf = true) (l : Nat) (by_ : Option Nat) :
    (s.flushLine l by_).memoriesWf = true := by
  unfold State.flushLine
  have h1 : ∀ x, ((s.remoteHolders.filter (fun (r : RemoteHolder) => r.line == l)).foldl (fun (s : State) r => s.takeRemote r)
      { s.recallExcl by_ l with fabOut := x }).memoriesWf = true :=
    fun x => memoriesWf_foldl _ (fun s r hs => memoriesWf_takeRemote hs r) _ _ h
  exact memoriesWf_ite (h1 _) (memoriesWf_foldl _ (fun s u hs => memoriesWf_applyPartial hs u) _ _ ((memoriesWf_with_upart _ _).trans (h1 _)))

theorem memoriesWf_recallRange {s : State} (h : s.memoriesWf = true) (pa n : Nat) : (s.recallRange pa n).memoriesWf = true := by
  unfold State.recallRange
  exact memoriesWf_foldl _ (fun s l hs => memoriesWf_flushLine hs l _) _ _ h

theorem memoriesWf_homeGet {s : State} (h : s.memoriesWf = true) (pa n : Nat) (by_ : Option Nat) :
    (s.homeGet pa n by_).2.memoriesWf = true := memoriesWf_flushLine h _ _

theorem memoriesWf_homeSet {s : State} (h : s.memoriesWf = true) (w : Writer) (pa n x : Nat) (m : Bool) (by_ : Option Nat) :
    (s.homeSet w pa n x m by_).memoriesWf = true := memoriesWf_homePut (memoriesWf_flushLine h _ _) w pa n x m

theorem memoriesWf_leaseRead {s : State} (h : s.memoriesWf = true) (p pa n : Nat) : (s.leaseRead p pa n).memoriesWf = true := by
  unfold State.leaseRead
  exact memoriesWf_foldl _ (fun s l hs => (memoriesWf_with_leases s _).trans hs) _ _ h

@[simp] theorem memoriesWf_leaseRange (s : State) (a : Bool) (p pa n : Nat) :
    (s.leaseRange a p pa n).memoriesWf = s.memoriesWf := rfl

theorem memoriesWf_agentGet {s : State} (h : s.memoriesWf = true) (pa n : Nat) : (s.agentGet pa n).2.memoriesWf = true :=
  memoriesWf_leaseRead (memoriesWf_recallRange h pa n) _ _ _

theorem memoriesWf_putRange {s : State} (h : s.memoriesWf = true) (pa n off : Nat) {r : Store 8} (hr : swf r = true)
    (o : List GRef) (all : Bool) : (s.putRange pa n off r o all).memoriesWf = true := by
  have h1 := memoriesWf_recallRange (memoriesWf_unlock h pa) (s.unlock pa).1 n
  have h2 := fun a b p n => (memoriesWf_leaseRange (State.setMem _ _) a b p n).trans
    (memoriesWf_setMem h1 (splice_swf (mem_wf h1) hr (s.unlock pa).1 n off))
  unfold State.putRange
  refine memoriesWf_rangeDeltas ?_ _ _ _ _
  exact (memoriesWf_with_poison _ _).trans (h2 _ _ _ _)

theorem memoriesWf_copyRange {s : State} (h : s.memoriesWf = true) (a b n : Nat) (o : List GRef) :
    (s.copyRange a b n o).memoriesWf = true := by
  have h1 := memoriesWf_leaseRead (memoriesWf_recallRange h a n) s.nowPts a n
  exact memoriesWf_putRange h1 b n a (mem_wf h1) o true

/-! Accesses of a core -/

@[simp] theorem memoriesWf_setPts (s : State) (n p : Nat) : (s.setPts n p).memoriesWf = s.memoriesWf := rfl

@[simp] theorem memoriesWf_meetCores (s : State) (m n : Nat) : (s.meetCores m n).memoriesWf = s.memoriesWf := by
  unfold State.meetCores
  split <;> rfl

/-- A cache that gives up a line may send a partial home. -/
theorem memoriesWf_makeRoom {s : State} (h : s.memoriesWf = true) (u : UHolder) : (s.makeRoom u).memoriesWf = true := by
  have hp := fun n => (memoriesWf_pick s n).trans h
  unfold State.makeRoom
  refine memoriesWf_ite h ?_
  dsimp only
  split
  · exact hp _
  · exact hp _
  · exact memoriesWf_sendPartial ((memoriesWf_with_upart _ _).trans (hp _)) _
  · exact hp _

theorem memoriesWf_keepL1 {s : State} (h : s.memoriesWf = true) (c : Copy) : (s.keepL1 c).memoriesWf = true :=
  memoriesWf_ite h ((memoriesWf_with_l1 _ _).trans (memoriesWf_makeRoom ((memoriesWf_with_l1 _ _).trans h) _))

theorem memoriesWf_keepRdc {s : State} (h : s.memoriesWf = true) (c : Copy) : (s.keepRdc c).memoriesWf = true :=
  memoriesWf_ite h ((memoriesWf_with_rdc _ _).trans (memoriesWf_makeRoom ((memoriesWf_with_rdc _ _).trans h) _))

theorem memoriesWf_grantCopy {s : State} (h : s.memoriesWf = true) (o p l : Nat) (by_ : Option Nat) :
    (s.grantCopy o p l by_).2.memoriesWf = true := (memoriesWf_with_leases _ _).trans (memoriesWf_flushLine h l by_)

theorem memoriesWf_takeExcl {s : State} (h : s.memoriesWf = true) (d l n : Nat) : (s.takeExcl d l n).memoriesWf = true := by
  have hp := (memoriesWf_pick s 2).trans h
  unfold State.takeExcl
  refine memoriesWf_ite h (memoriesWf_ite hp ?_)
  exact memoriesWf_makeRoom (memoriesWf_flushLine hp _ _) _

theorem memoriesWf_fillCopy {s : State} (h : s.memoriesWf = true) (n l k : Nat) : (s.fillCopy n l k).2.memoriesWf = true := by
  unfold State.fillCopy
  dsimp only
  split
  · exact memoriesWf_grantCopy h n _ l _
  · have h1 := memoriesWf_takeExcl h (coreDie n) l k
    generalize s.takeExcl (coreDie n) l k = u at h1
    have fetch : ∀ v : State, v.memoriesWf = true → ∀ c, (if
        (v.grantCopy n (s.core n).pts l (some (coreDie n))).2.excl.contains ⟨coreDie n, l⟩ = true
        then (v.grantCopy n (s.core n).pts l (some (coreDie n))).2
        else (v.grantCopy n (s.core n).pts l (some (coreDie n))).2.keepRdc c).memoriesWf = true := fun v hv c =>
      memoriesWf_ite (memoriesWf_grantCopy hv _ _ _ _) (memoriesWf_keepRdc (memoriesWf_grantCopy hv _ _ _ _) c)
    split
    · exact fetch u h1 _
    · split
      · exact (memoriesWf_pick u 2).trans h1
      · exact fetch _ ((memoriesWf_pick u 2).trans h1) _

@[simp] theorem memoriesWf_readCopy (s : State) (n : Nat) (x : Copy) (pa k : Nat) :
    (s.readCopy n x pa k).2.memoriesWf = s.memoriesWf := rfl

theorem memoriesWf_coreGet {s : State} (h : s.memoriesWf = true) (g : GRef) (pa n k : Nat) :
    (s.coreGet g pa n k).2.memoriesWf = true := by
  have fill : ∀ u : State, u.memoriesWf = true → ∀ c,
      (((u.count g.core (u.ctxOf g) 0x06 1).fillCopy g.core (lineOf pa) k).2.keepL1 c).memoriesWf = true :=
    fun u hu c => memoriesWf_keepL1 (memoriesWf_fillCopy (memoriesWf_count hu _ _ _ _) _ _ _) c
  unfold State.coreGet
  dsimp only
  split
  · exact (memoriesWf_readCopy _ _ _ _ _).trans (fill s h _)
  · split
    · exact (memoriesWf_readCopy _ _ _ _ _).trans ((memoriesWf_pick s 2).trans h)
    · exact (memoriesWf_readCopy _ _ _ _ _).trans (fill _ ((memoriesWf_pick s 2).trans h) _)

theorem memoriesWf_coreSet {s : State} (h : s.memoriesWf = true) (g : GRef) (pa n x : Nat) (m : Bool) (k : Nat) :
    (s.coreSet g pa n x m k).memoriesWf = true := by
  have h1 := memoriesWf_takeExcl h (coreDie g.core) (lineOf pa) k
  unfold State.coreSet
  exact (memoriesWf_setPts _ _ _).trans ((memoriesWf_with_l1 _ _).trans (memoriesWf_homeSet h1 _ pa n x m _))

theorem memoriesWf_coreRmw {s : State} (h : s.memoriesWf = true) (g : GRef) (o : AOp) (w : AWidth) (pa x y : Nat) (m : Bool)
    (k : Nat) : (s.coreRmw g o w pa x y m k).2.memoriesWf = true :=
  memoriesWf_coreSet (memoriesWf_homeGet h _ _ _) g _ _ _ m k

@[simp] theorem memoriesWf_placeReduction (s : State) (g : GRef) (r : Option Nat) (l : Nat) :
    (s.placeReduction g r l).memoriesWf = s.memoriesWf := by
  cases r <;> rfl

theorem memoriesWf_gather {s : State} (h : s.memoriesWf = true) (g : GRef) (u : UHolder) (r : Option Nat) (o : AOp) (w : AWidth)
    (pa x : Nat) (m : Bool) : (s.gather g u r o w pa x m).memoriesWf = true := by
  have start : ∀ v : State, v.memoriesWf = true → ∀ p : UPart,
      { v.makeRoom u with upart := (v.makeRoom u).upart ++ [p] }.memoriesWf = true :=
    fun v hv p => (memoriesWf_with_upart _ _).trans (memoriesWf_makeRoom hv u)
  unfold State.gather
  dsimp only
  generalize hv : State.placeReduction _ g r (lineOf pa) = v
  have h1 : v.memoriesWf = true := by
    rw [← hv, memoriesWf_placeReduction]
    exact memoriesWf_ite (memoriesWf_flushLine h _ _) h
  split
  · split
    · exact (memoriesWf_with_upart _ _).trans h1
    · exact start _ (memoriesWf_sendPartial ((memoriesWf_with_upart v _).trans h1) _) _
  · exact start v h1 _

theorem memoriesWf_coreReduce {s : State} (h : s.memoriesWf = true) (g : GRef) (o : AOp) (w : AWidth) (pa x : Nat) (m : Bool)
    (k : Nat) : (s.coreReduce g o w pa x m k).memoriesWf = true := by
  have h1 := (memoriesWf_pick s 3).trans h
  unfold State.coreReduce
  dsimp only
  split
  · exact memoriesWf_coreRmw h1 ..
  · exact memoriesWf_ite (memoriesWf_coreRmw h1 ..) (memoriesWf_gather h1 ..)
  · exact memoriesWf_ite (memoriesWf_coreRmw h1 ..) (memoriesWf_gather h1 ..)

theorem memoriesWf_flushGroup {s : State} (h : s.memoriesWf = true) (g : GRef) : (s.flushGroup g).memoriesWf = true := by
  unfold State.flushGroup
  exact memoriesWf_foldl _ (fun s u hs => memoriesWf_sendPartial hs u) _ _ ((memoriesWf_with_upart s _).trans h)

theorem memoriesWf_flushPeerLine {s : State} (h : s.memoriesWf = true) (d r c l : Nat) :
    (s.flushPeerLine d r c l).memoriesWf = true := by
  unfold State.flushPeerLine
  exact memoriesWf_foldl _ (fun s u hs => memoriesWf_sendPartial hs u) _ _ ((memoriesWf_with_upart s _).trans h)

/-! Units and objects -/

theorem memoriesWf_hostUnit {s : State} (h : s.memoriesWf = true) (u : AUnit) : (s.hostUnit u).2.memoriesWf = true := by
  unfold State.hostUnit
  split
  · exact h
  · exact memoriesWf_hostSet h _ _ _
  · split
    · exact h
    · exact memoriesWf_hostSet h _ _ _
  · exact h

theorem memoriesWf_scratchUnit {s : State} (h : s.memoriesWf = true) (g : GRef) (t : TRef) (u : AUnit) :
    (s.scratchUnit g t u).2.memoriesWf = true := by
  have h1 := memoriesWf_count ((memoriesWf_meetCores s g.core t.core).trans h) g.core (s.ctxOf g) 0x07 1
  unfold State.scratchUnit
  dsimp only
  split
  · exact h1
  · rename_i tm ht
    have hw := team_scratchWf h1 ht
    split
    · exact h1
    · exact memoriesWf_setTeam h1 t _ (scratchWf_write hw _ _ _)
    · exact memoriesWf_setTeam h1 t _ (scratchWf_setTag hw _ _)
    · exact h1
    · exact h1

theorem memoriesWf_placeGet {s : State} (h : s.memoriesWf = true) (p : Place) (o n : Nat) :
    (s.placeGet p o n).2.memoriesWf = true := by
  cases p with
  | scratch t a => exact h
  | mem pa m => exact memoriesWf_homeGet h _ _ _

theorem memoriesWf_placeSet {s : State} (h : s.memoriesWf = true) (g : GRef) (p : Place) (o n x : Nat) :
    (s.placeSet g p o n x).memoriesWf = true := by
  cases p with
  | scratch t a => exact memoriesWf_onTeam h t _ (fun y hy => scratchWf_write hy _ _ _)
  | mem pa m => exact memoriesWf_coreSet h g _ _ _ _ _

theorem memoriesWf_placeSetTag {s : State} (h : s.memoriesWf = true) (p : Place) (o : Nat) (b : Bool) :
    (s.placeSetTag p o b).memoriesWf = true := by
  cases p with
  | scratch t a => exact memoriesWf_onTeam h t _ (fun y hy => scratchWf_setTag hy _ _)
  | mem pa m => exact h

/-! Records -/

theorem swf_writes (r : List (Nat × Byte)) : swf (r.foldr (fun b m => sset m b.1 b.2) ([] : Store 8)) = true := by
  induction r with
  | nil => rfl
  | cons p r ih => exact swf_sset ih _ _

/-- A record is written in canonical form. -/
theorem canonical_swf (r : Store 8) : swf (canonical r) = true := by
  unfold canonical
  split
  · assumption
  · exact swf_writes r

theorem placeCode_wf {m : Memory} (h : m.wf = true) (n w : Nat) : (placeCode m n w).wf = true :=
  swf_ssetLE _ (swf_ssetLE _ (swf_ssetLE _ (swf_ssetLE _ (swf_ssetLE _ h _ _) _ _) _ _) _ _) _ _

end Sys2Proof.Machine
end

