-- ==== Sys2Proof/Laws/Words.lean ====
section
/-! SUPPORT. What a word of a stream can do: the runners of scalar and lane words, the advance of a stream past its
word, what a lane word writes, and what stopping at a trap leaves. -/

namespace Sys2Proof.Machine

/-! Runners -/

theorem onScalar_at {s : State} {g : GRef} {gr : Group} (hc : s.cur = some (.scalar g)) (hg : s.group g = some gr)
    (k : GRef → Group → State) : onScalar s k = .next (k g gr) := by
  simp [onScalar, hc, hg]

theorem onLane_at {s : State} {g : GRef} {gr : Group} (hc : s.cur = some (.lane g)) (hg : s.group g = some gr)
    (k : GRef → Group → State) : onLane s k = .next (k g gr) := by
  simp [onLane, hc, hg]

/-- All that a scalar word can do: its meaning acts on the group of the stream at work, or there is no such stream. -/
theorem onScalar_cases (s : State) (k : GRef → Group → State) :
    (∃ g gr, s.cur = some (.scalar g) ∧ s.group g = some gr ∧ onScalar s k = .next (k g gr)) ∨
      onScalar s k = .fault .noStream := by
  unfold onScalar
  split
  · split
    · exact .inl ⟨_, _, ‹_›, ‹_›, rfl⟩
    · exact .inr rfl
  · exact .inr rfl

theorem onLane_cases (s : State) (k : GRef → Group → State) :
    (∃ g gr, s.cur = some (.lane g) ∧ s.group g = some gr ∧ onLane s k = .next (k g gr)) ∨
      onLane s k = .fault .noStream := by
  unfold onLane
  split
  · split
    · exact .inl ⟨_, _, ‹_›, ‹_›, rfl⟩
    · exact .inr rfl
  · exact .inr rfl

/-- A scalar word never ends in a refusal. -/
theorem onScalar_next {s t : State} {k : GRef → Group → State} (h : onScalar s k = .next t) :
    ∃ g gr, s.cur = some (.scalar g) ∧ s.group g = some gr ∧ t = k g gr := by
  obtain ⟨g, gr, hc, hg, e⟩ | e := onScalar_cases s k
  · exact ⟨g, gr, hc, hg, by simpa using (e.symm.trans h).symm⟩
  · simp [e] at h

theorem onLane_next {s t : State} {k : GRef → Group → State} (h : onLane s k = .next t) :
    ∃ g gr, s.cur = some (.lane g) ∧ s.group g = some gr ∧ t = k g gr := by
  obtain ⟨g, gr, hc, hg, e⟩ | e := onLane_cases s k
  · exact ⟨g, gr, hc, hg, by simpa using (e.symm.trans h).symm⟩
  · simp [e] at h

/-! The advance of a stream -/

@[simp] theorem scalarDone_group (s : State) (g : GRef) (gr : Group) (n : Nat) :
    (s.scalarDone g gr n).group g = some (gr.atS (nextSPc gr.spc n) false) := by simp [State.scalarDone]

theorem scalarDone_other {g h : GRef} (s : State) (gr : Group) (n : Nat) (hn : h ≠ g) :
    (s.scalarDone g gr n).group h = s.group h := by
  simp [State.scalarDone, group_setGroup_other _ _ hn]

@[simp] theorem scalarJump_group (s : State) (g : GRef) (gr : Group) (pc : W64) (m : Bool) :
    (s.scalarJump g gr pc m).group g = some (gr.atS pc m) := by simp [State.scalarJump]

theorem scalarJump_other {g h : GRef} (s : State) (gr : Group) (pc : W64) (m : Bool) (hn : h ≠ g) :
    (s.scalarJump g gr pc m).group h = s.group h := by
  simp [State.scalarJump, group_setGroup_other _ _ hn]

@[simp] theorem laneDone_group (s : State) (g : GRef) (gr : Group) (n : Nat) :
    (s.laneDone g gr n).group g = some (gr.stepLook.atL (nextLPc gr.lpc n) false) := by simp [State.laneDone]

theorem laneDone_other {g h : GRef} (s : State) (gr : Group) (n : Nat) (hn : h ≠ g) :
    (s.laneDone g gr n).group h = s.group h := by
  simp [State.laneDone, group_setGroup_other _ _ hn]

@[simp] theorem laneJump_group (s : State) (g : GRef) (gr : Group) (pc : W64) (m : Bool) :
    (s.laneJump g gr pc m).group g = some (gr.endLook.atL pc m) := by simp [State.laneJump]

theorem laneJump_other {g h : GRef} (s : State) (gr : Group) (pc : W64) (m : Bool) (hn : h ≠ g) :
    (s.laneJump g gr pc m).group h = s.group h := by
  simp [State.laneJump, group_setGroup_other _ _ hn]

@[simp] theorem holdS_group (s : State) (g : GRef) (gr : Group) (w : Wait) :
    (s.holdS g gr w).group g =
      some { gr with waitS := some w, sinceS := if gr.waitS.isSome then gr.sinceS else s.clock } := by
  simp [State.holdS]

@[simp] theorem holdL_group (s : State) (g : GRef) (gr : Group) (w : Wait) :
    (s.holdL g gr w).group g =
      some { gr with waitL := some w, sinceL := if gr.waitL.isSome then gr.sinceL else s.clock } := by
  simp [State.holdL]

/-- A word that has issued leaves every other part of the package but counters, and what the wrap of one writes. -/
theorem scalarDone_frame (s : State) (g : GRef) (gr : Group) (n : Nat) :
    Counted (s.setGroup g (gr.atS (nextSPc gr.spc n) false)) (s.scalarDone g gr n) := count_counted ..

theorem laneDone_frame (s : State) (g : GRef) (gr : Group) (n : Nat) :
    Counted (s.setGroup g (gr.stepLook.atL (nextLPc gr.lpc n) false)) (s.laneDone g gr n) := count_counted ..

/-! Events that wrap no counter -/

theorem foldl_id {α β : Type} (f : β → α → β) (b : β) (l : List α) (h : l = []) : l.foldl f b = b := by simp [h]

/-- Where no counter of the core that takes an event wraps with INT set, only counters of that core change. -/
theorem count_quiet {s : State} {n x ev k : Nat}
    (h : ∀ y ∈ (s.core n).counters, y.2.ctl.getLsbD 15 = true → y.2.ctl.toNat % 256 = ev →
      y.2.value.toNat + k < 2 ^ 48 ∨ y.2.ctl.getLsbD 17 = false) :
    s.count n x ev k = s ∨ ∃ cs, s.count n x ev k = s.setCore n { s.core n with counters := cs } := by
  unfold State.count
  dsimp only
  split
  · exact .inl rfl
  split
  · exact .inl rfl
  refine .inr ⟨_, foldl_id _ _ _ ?_⟩
  simp only [List.map_eq_nil_iff, List.filter_eq_nil_iff, Bool.and_eq_true, not_and, beq_iff_eq]
  intro y hy hh
  unfold Counter.add
  dsimp only
  obtain hw | hi := h y hy hh.1 hh.2
  · rw [if_pos hw]
    simp
  · split
    · simp
    · exact Bool.eq_false_iff.mp hi

/-! The stream's place, by field -/

@[simp] theorem atS_s (gr : Group) (pc : W64) (m : Bool) : (gr.atS pc m).s = gr.s := rfl
@[simp] theorem atS_c (gr : Group) (pc : W64) (m : Bool) : (gr.atS pc m).c = gr.c := rfl
@[simp] theorem atS_k (gr : Group) (pc : W64) (m : Bool) : (gr.atS pc m).k = gr.k := rfl
@[simp] theorem atS_yS (gr : Group) (pc : W64) (m : Bool) : (gr.atS pc m).yS = gr.yS := rfl
@[simp] theorem atS_v (gr : Group) (pc : W64) (m : Bool) : (gr.atS pc m).v = gr.v := rfl
@[simp] theorem atS_p (gr : Group) (pc : W64) (m : Bool) : (gr.atS pc m).p = gr.p := rfl
@[simp] theorem atS_spc (gr : Group) (pc : W64) (m : Bool) : (gr.atS pc m).spc = pc := rfl
@[simp] theorem atS_lpc (gr : Group) (pc : W64) (m : Bool) : (gr.atS pc m).lpc = gr.lpc := rfl
@[simp] theorem atS_status (gr : Group) (pc : W64) (m : Bool) : (gr.atS pc m).status = gr.status := rfl
@[simp] theorem atS_sreg (gr : Group) (pc : W64) (m : Bool) (r : SReg) : (gr.atS pc m).sreg r = gr.sreg r := rfl
@[simp] theorem atS_creg (gr : Group) (pc : W64) (m : Bool) (r : CReg) : (gr.atS pc m).creg r = gr.creg r := rfl
@[simp] theorem atL_s (gr : Group) (pc : W64) (m : Bool) : (gr.atL pc m).s = gr.s := rfl
@[simp] theorem atL_v (gr : Group) (pc : W64) (m : Bool) : (gr.atL pc m).v = gr.v := rfl
@[simp] theorem atL_p (gr : Group) (pc : W64) (m : Bool) : (gr.atL pc m).p = gr.p := rfl
@[simp] theorem atL_spc (gr : Group) (pc : W64) (m : Bool) : (gr.atL pc m).spc = gr.spc := rfl
@[simp] theorem atL_lpc (gr : Group) (pc : W64) (m : Bool) : (gr.atL pc m).lpc = pc := rfl
@[simp] theorem atL_exmL (gr : Group) (pc : W64) (m : Bool) : (gr.atL pc m).exmL = gr.exmL := rfl
@[simp] theorem atL_status (gr : Group) (pc : W64) (m : Bool) : (gr.atL pc m).status = gr.status := rfl

/-! Windows change only what a read may still return -/

theorem stepLook_frame (gr : Group) : ∃ a l, gr.stepLook = { gr with alt := a, look := l } := by
  unfold Group.stepLook
  split
  · exact ⟨gr.alt, gr.look, rfl⟩
  · exact ⟨_, _, rfl⟩

theorem endLook_frame (gr : Group) : ∃ a l, gr.endLook = { gr with alt := a, look := l } := by
  unfold Group.endLook
  split
  · exact ⟨gr.alt, gr.look, rfl⟩
  · exact ⟨_, _, rfl⟩

/-! What a lane word writes -/

theorem putV_frame (gr : Group) (r l : Nat) (x : W32) :
    ∃ v a o, gr.putV r l x = { gr with v := v, alt := a, out := o } := ⟨_, _, _, rfl⟩

theorem putP_frame (gr : Group) (r l : Nat) (b : Bool) : ∃ p a, gr.putP r l b = { gr with p := p, alt := a } := ⟨_, _, rfl⟩

theorem writeLane_frame (gr : Group) (la : Bool) (id r l x : Nat) :
    ∃ v a o, gr.writeLane la id r l x = { gr with v := v, alt := a, out := o } := by
  obtain ⟨v, a, o, h⟩ := putV_frame gr r l (BitVec.ofNat 32 x)
  unfold Group.writeLane
  dsimp only
  rw [h]
  split
  · exact ⟨v, _, o, rfl⟩
  · exact ⟨v, a, o, rfl⟩

theorem writePred_frame (gr : Group) (la : Bool) (id r l : Nat) (b : Bool) :
    ∃ p a, gr.writePred la id r l b = { gr with p := p, alt := a } := by
  obtain ⟨p, a, h⟩ := putP_frame gr r l b
  unfold Group.writePred
  dsimp only
  rw [h]
  split
  · exact ⟨p, _, rfl⟩
  · exact ⟨p, a, rfl⟩

/-- The results of a lane word change registers, predicates, what a read may still return, the registers that loads in
flight still write, GF and the numbering of words alone. -/
theorem commit_frame (gr : Group) (la : Bool) (o : LaneOut) :
    ∃ v p a u f n, gr.commit la o = { gr with v := v, p := p, alt := a, out := u, gfL := f, nextId := n } := by
  unfold Group.commit
  have regs : ∀ (ph : Nat → Nat) (l : List (Nat × Nat × Nat)) (x : Group), ∃ v a u,
      l.foldl (fun gr' y => gr'.writeLane la gr.nextId y.1 (ph y.2.1) y.2.2) x = { x with v := v, alt := a, out := u } := by
    intro ph l
    induction l with
    | nil => exact fun x => ⟨x.v, x.alt, x.out, rfl⟩
    | cons y ys ih =>
      intro x
      obtain ⟨v, a, u, h⟩ := writeLane_frame x la gr.nextId y.1 (ph y.2.1) y.2.2
      obtain ⟨v', a', u', h'⟩ := ih (x.writeLane la gr.nextId y.1 (ph y.2.1) y.2.2)
      exact ⟨v', a', u', by rw [List.foldl_cons, h', h]⟩
  have preds : ∀ (ph : Nat → Nat) (l : List (Nat × Nat × Bool)) (x : Group), ∃ p a,
      l.foldl (fun gr' y => gr'.writePred la gr.nextId y.1 (ph y.2.1) y.2.2) x = { x with p := p, alt := a } := by
    intro ph l
    induction l with
    | nil => exact fun x => ⟨x.p, x.alt, rfl⟩
    | cons y ys ih =>
      intro x
      obtain ⟨v, a, h⟩ := writePred_frame x la gr.nextId y.1 (ph y.2.1) y.2.2
      obtain ⟨v', a', h'⟩ := ih (x.writePred la gr.nextId y.1 (ph y.2.1) y.2.2)
      exact ⟨v', a', by rw [List.foldl_cons, h', h]⟩
  obtain ⟨v, a, u, h⟩ := regs (fun l => gr.remap.getD l l) o.regs gr
  obtain ⟨p, a', h'⟩ := preds (fun l => gr.remap.getD l l) o.preds { gr with v := v, alt := a, out := u }
  exact ⟨v, p, a', u, _, _, by dsimp only; rw [h, h']⟩

/-- A lane word with results leaves its group with those results at the next word, and no other group changed. -/
theorem laneFinish_group (s : State) (g : GRef) (gr : Group) (h : LaneHdr) (sels : List Sel) (o : LaneOut) :
    ∃ v p a u f n l, (s.laneFinish g gr h sels o).group g =
      some ({ gr with v := v, p := p, alt := a, out := u, gfL := f, nextId := n, look := l }.atL (nextLPc gr.lpc (laneSlots sels)) false) := by
  obtain ⟨a0, l0, h0⟩ := stepLook_frame gr
  obtain ⟨v, p, a, u, f, n, h1⟩ := commit_frame gr.stepLook (h.la != 0) o
  unfold State.laneFinish
  dsimp only
  rw [h1, h0]
  simp only [count_group, group_setGroup_same]
  split
  · exact ⟨v, p, a, u, f, n, _, rfl⟩
  · exact ⟨v, p, a, u, f, n, l0, rfl⟩

theorem laneFinish_other {g h : GRef} (s : State) (gr : Group) (hd : LaneHdr) (sels : List Sel) (o : LaneOut) (hn : h ≠ g) :
    (s.laneFinish g gr hd sels o).group h = s.group h := by
  unfold State.laneFinish
  simp [group_setGroup_other _ _ hn]

/-- A lane word leaves every other part of the package but counters, and what the wrap of one writes. -/
theorem laneFinish_frame (s : State) (g : GRef) (gr : Group) (h : LaneHdr) (sels : List Sel) (o : LaneOut) :
    ∃ gr', Counted (s.setGroup g gr') (s.laneFinish g gr h sels o) := ⟨_, count_counted ..⟩

/-- What a lane word reads is read with free choices alone (R81, R165). -/
theorem view_frame (s : State) (gr : Group) : ∃ l k, (s.view gr).2 = { s with choices := l, tick := k } := by
  unfold State.view
  dsimp only
  generalize (⟨_, _, _, _, _, _⟩ : LaneView) = w
  generalize gr.alt = as
  induction as generalizing w s with
  | nil => exact ⟨s.choices, s.tick, rfl⟩
  | cons a as ih =>
    obtain ⟨l, k, h⟩ := pick_frame s 2
    obtain ⟨l', k', h'⟩ := ih (s := (s.pick 2).2) (w := w.offer a ((s.pick 2).1 == 1))
    exact ⟨l', k', by rw [List.foldl_cons, h', h]⟩

/-- The interlock of a word changes only what it may still read. -/
theorem interlockRegs_frame (gr : Group) (r p : List Nat) : ∃ a, gr.interlockRegs r p = { gr with alt := a } := ⟨_, rfl⟩

theorem interlock_frame (gr : Group) (f : LaneView → List Nat → LaneOut) : ∃ a, gr.interlock f = { gr with alt := a } := by
  unfold Group.interlock
  dsimp only
  split
  · exact ⟨gr.alt, rfl⟩
  · exact ⟨_, rfl⟩

/-- Where no lookahead window is open, nothing is interlocked. -/
theorem interlockRegs_paths {gr : Group} (h : ∀ a ∈ gr.alt, a.path.isSome = true) (r p : List Nat) :
    gr.interlockRegs r p = gr := by
  unfold Group.interlockRegs
  dsimp only
  rw [List.filter_eq_self.mpr (fun a ha => by simp [h a ha])]

/-! Stopping at a trap -/

/-- Where a group of a core's own trap queue stops, it is trapped with both streams at their words (R43, R268). -/
theorem stopGroup_waits (s : State) (g : GRef) (gr : Group) (h : (s.stopGroup g).group g = some gr) :
    gr.waitS = none ∧ gr.waitL = none ∧ gr.alt = [] ∧ gr.look = [] ∧ gr.tagPend = [] := by
  replace h : ((((s.drain g).finishMx g).unarrive g).cancelSpawn g |>.onGroup g Group.halted).group g = some gr := h
  generalize State.cancelSpawn _ g = u at h
  unfold State.onGroup at h
  split at h
  · simp_all
  · simp only [group_setGroup_same, Option.some.injEq] at h
    subst h
    exact ⟨rfl, rfl, rfl, rfl, rfl⟩

end Sys2Proof.Machine
end

