-- ==== Sys2Proof/Tests/Slice0.lean ====
section
/-! SUPPORT. Tests: words of the spec's encodings and what they decode to, terms that `WellFormed` refuses, states that meet
the hypotheses of the statements, and single steps whose results follow from the spec's tables by hand. -/

namespace Sys2Proof.Tests

open Sys2Proof Sys2Proof.Machine

section

-- One theorem at a time: the kernel evaluates every one of them.
set_option Elab.async false

/-! Ways to show an equation of a result that is no decidable proposition -/

theorem ok_of {ε α : Type} {x : Except ε α} {y : α} (h : x.toOption = some y) : x = .ok y := by
  cases x <;> simp_all [Except.toOption]

def errOf {ε α : Type} : Except ε α → Option ε
  | .error e => some e
  | .ok _ => none

theorem err_of {ε α : Type} {x : Except ε α} {y : ε} (h : errOf x = some y) : x = .error y := by
  cases x <;> simp_all [errOf]

theorem except_of {ε α : Type} {x y : Except ε α} (h : x.toOption = y.toOption) (k : errOf x = errOf y) : x = y := by
  cases x <;> cases y <;> simp_all [errOf, Except.toOption]

theorem pair_of {ε α σ : Type} {x y : Except ε α × σ} (h : x.1.toOption = y.1.toOption) (k : errOf x.1 = errOf y.1)
    (l : x.2 = y.2) : x = y := Prod.ext (except_of h k) l

theorem ok_pair {ε α σ : Type} {x : Except ε α × σ} {a : α} {s : σ} (h : x.1.toOption = some a) (l : x.2 = s) :
    x = (.ok a, s) := Prod.ext (ok_of h) l

def nextOf (o : Host.Outcome State Fault Refusal) : Option State := match o with
  | .next t => some t
  | _ => none

theorem next_of {o : Host.Outcome State Fault Refusal} {t : State} (h : nextOf o = some t) : o = .next t := by
  cases o <;> simp_all [nextOf]

/-! States -/

def g0 : GRef := ⟨0, 0, 0⟩
def t0 : TRef := ⟨0, 0⟩

/-- A team with 4096 bytes of scratch. -/
def tm0 : Team := { Team.fresh 1 1 0 with scrSize := 4096 }

/-- A grid of four teams that runs. -/
def grid0 : Grid :=
  { ctx := 1, x := 2, y := 2, z := 1, krec := 0, codeId := 0, roles := [⟨0, 0, 0, 0⟩, ⟨0, 0, 0, 0⟩, ⟨0, 0, 0, 0⟩, ⟨1, 64, 0x8000, 0x4000⟩],
    origRoles := [], scratch := 4096, cluster := false, coresident := false, fmt := 0, level := 1, entered := 0,
    zeroSince := none, policy := 0, phase := .placed, complete := false, depAddr := 0, depVal := 0, sigAddr := 0, sigVal := 0,
    sigLost := false, argCopy := 0, argBytes := 0, issuer := .none, depth := 0, next := 4, ended := 0, residual := none,
    rejected := false, missed := false, status := .running, seqBase := 0, step := 0, inst := none, parked := [] }

/-- A package whose context 1 maps the first 32 MiB onto itself. -/
def base : State :=
  { State.reset.placeWord 32 0 with
    groups := [], teams := [(t0, tm0)], grids := [(1, grid0)], agenda := [], endpointUp := true, tlb := [⟨1, 0, 25, 0x3B, .last 0⟩] }

/-- A group with some registers set. -/
def gr0 : Group :=
  { Group.fresh .control 64 0 0 0 0x8000 0 with
    s := [(1, 5), (2, 3), (3, 7), (4, 0xFFFFFFFFFFFFFFFF), (5, 0x8000000000000000), (6, 0x100), (7, 0x40000)], c := [(1, 1)],
    v := [(32, 9), (33, 1), (64, 2)], p := [(0, 0xFF)] }

/-- A group of the lane side: a block runs. -/
def gl0 : Group := { gr0 with lpc := 0x4000, run := some ⟨[(0, 0x40000), (1, 0x40000)], 0⟩ }

/-- The package with a group whose scalar, or lane, word is at work. -/
def sS (gr : Group) : State := { base with groups := [(g0, gr)], cur := some (.scalar g0) }
def sL (gr : Group) : State := { base with groups := [(g0, gr)], cur := some (.lane g0) }

def h0 : LaneHdr := ⟨.fold, .always, .always, 0, 0, 0, 0, 0⟩

/-- The next state of an answer, for the states that these tests build. -/
def nx (o : Host.Outcome State Fault Refusal) : State := match o with
  | .next t => t
  | _ => State.reset

/-! Words of the spec's encodings, and what they decode to. A word is put together field by field: the scalar formats of Table
FMT-1, the lane word of Table FMT-2 and the queue word of R327; the codes are those of Tables ASM-4 to ASM-12 and HQ-7. -/

def srWord (op d a b fn : Nat) : Nat := op * 2 ^ 26 + d * 2 ^ 18 + a * 2 ^ 12 + b * 2 ^ 6 + fn
def siWord (op d a imm : Nat) : Nat := op * 2 ^ 26 + d * 2 ^ 18 + a * 2 ^ 12 + imm
def sxWord (op fn a b c : Nat) : Nat := op * 2 ^ 26 + fn * 2 ^ 16 + a * 2 ^ 10 + b * 2 ^ 4 + c
def sbWord (op cond a delta slot : Nat) : Nat := op * 2 ^ 26 + cond * 2 ^ 20 + a * 2 ^ 14 + delta * 2 ^ 5 + slot
/-- A lane word with guards 0b0111 and every field of its control part zero. -/
def lword (op d a b c e fn imm : Nat) : Nat :=
  op * 2 ^ 88 + 7 * 2 ^ 82 + 7 * 2 ^ 78 + d * 2 ^ 58 + a * 2 ^ 49 + b * 2 ^ 40 + c * 2 ^ 31 + e * 2 ^ 22 + fn * 2 ^ 16 + imm
def qword (op d a b w i imm : Nat) : Nat :=
  op * 2 ^ 56 + d * 2 ^ 52 + a * 2 ^ 48 + b * 2 ^ 44 + w * 2 ^ 42 + i * 2 ^ 41 + imm

/-- The header of such a word. -/
def hd : LaneHdr := ⟨.dyn, .always, .always, 0, 0, 0, 0, 0⟩

def scalarRead (p : Nat × Nat × Instr) : Bool :=
  (decodeScalar p.1 p.2.1).toOption == some p.2.2 && encodeScalar p.2.2 == some (p.1, p.2.1)
def laneRead (p : Nat × Instr) : Bool := (decodeLane p.1 0).toOption == some p.2 && encodeLane p.2 == some (p.1, 0)
def queueRead (p : Nat × Instr) : Bool := (decodeQueue p.1).toOption == some p.2 && encodeQueue p.2 == some p.1

/-- Table ASM-6 (ALU forms) and the immediate forms of Table ASM-4. -/
theorem test_decode_scalar_alu : List.all [
    (srWord 1 5 6 7 0, 0, .saddReg .dyn 5 6 7), (srWord 1 5 6 7 1, 0, .ssubReg .dyn 5 6 7), (srWord 1 5 6 7 2, 0, .smulReg .dyn 5 6 7),
    (srWord 1 5 6 7 0x33, 0, .sdivReg .dyn true true 5 6 7), (srWord 1 5 6 7 4, 0, .sandReg .dyn 5 6 7),
    (srWord 1 5 6 7 5, 0, .sorReg .dyn 5 6 7), (srWord 1 5 6 7 6, 0, .sxorReg .dyn 5 6 7), (srWord 1 5 6 7 7, 0, .sshlReg .dyn 5 6 7),
    (srWord 1 5 6 7 8, 0, .sshrReg .dyn 5 6 7), (srWord 1 5 6 7 9, 0, .ssarReg .dyn 5 6 7),
    (srWord 1 5 6 7 0x1A, 0, .sminReg .dyn true 5 6 7), (srWord 1 5 6 7 0xB, 0, .smaxReg .dyn false 5 6 7),
    (siWord 2 5 6 0xFFF, 0, .saddImm .dyn 5 6 0xFFF), (siWord 3 5 6 0x7FF, 0, .ssubImm .dyn 5 6 0x7FF),
    (siWord 4 5 6 1, 0, .smulImm .dyn 5 6 1), (siWord 5 5 6 2, 0, .sdivImm .dyn 5 6 2), (siWord 6 5 6 3, 0, .sandImm .dyn 5 6 3),
    (siWord 7 5 6 4, 0, .sorImm .dyn 5 6 4), (siWord 8 5 6 5, 0, .sxorImm .dyn 5 6 5), (siWord 9 5 6 63, 0, .sshlImm .dyn 5 6 63),
    (siWord 0xA 5 6 7, 0, .sshrImm .dyn 5 6 7), (siWord 0xB 5 6 8, 0, .ssarImm .dyn 5 6 8), (siWord 0xC 5 6 9, 0, .sminImm .dyn 5 6 9),
    (siWord 0xD 5 6 10, 0, .smaxImm .dyn 5 6 10), (sxWord 0xE 6 5 6 7, 0, .scmp .dyn .ltu 5 6 7),
    (sxWord 0xE 0x11 5 63 2, 0, .scmpImm .dyn .ne 5 63 2), (srWord 0xF 5 6 7 3, 0, .ssel .dyn 5 6 7 3),
    (srWord 0x10 5 6 0 0, 0, .smov .dyn 5 6), (srWord 0x10 5 7 0 1, 0, .smovFromC .dyn 5 7), (srWord 0x10 7 6 0 2, 0, .smovToC .dyn 7 6),
    (srWord 0x11 5 0 0 0, 0x123456789ABCDEF0, .sli .dyn 5 0x123456789ABCDEF0),
    (siWord 0x12 5 6 (0x1FF * 8 + 6), 0, .sld .dyn .i32 5 6 0x1FF), (siWord 0x13 5 6 (8 * 8 + 3), 0, .sst .dyn .b64 5 6 8),
    (sxWord 0x14 0x98 5 6 7, 0, .satom .dyn .cas .w64 5 6 7), (siWord 0x1B 0 6 0x800, 0, .lrun .dyn 6 0x800),
    (srWord 0x1C 15 6 0 0, 0, .kset .dyn 15 6), (srWord 0x1D 5 7 0 0, 0, .yget .dyn 5 7), (0x78040012, 0, .srd .dyn 1 0x12),
    (0x7C1C000D, 0, .swr .dyn 7 0xD), (srWord 0x20 0 6 0 0, 0, .setfmt .dyn 6)] scalarRead = true := by decide +kernel

/-- The transfers, the timelines, the engine commands, the objects and the groups of Table ASM-7. -/
theorem test_decode_scalar_system : List.all [
    (sbWord 0x15 0xB 0 0x1FF 29, 0, .sbr .dyn true 3 ⟨0x1FF, 29⟩), (sbWord 0x16 0 0 2 1, 0, .sjmp .dyn ⟨2, 1⟩),
    (srWord 0x17 0 0 0 0, 0x8000, .sjmpFar .dyn 0x8000), (sbWord 0x18 0 63 2 1, 0, .scall .dyn 63 ⟨2, 1⟩),
    (srWord 0x19 5 0 0 0, 0x8000, .scallFar .dyn 5 0x8000), (sbWord 0x1A 0 6 0x1FE 0, 0, .sloop .dyn 6 ⟨0x1FE, 0⟩),
    (sxWord 0x21 3 5 0 0, 0, .waittl .dyn .mx 5), (sxWord 0x22 1 0 6 0, 0, .tlget .dyn .kv 6), (sxWord 0x23 0 5 6 0, 0, .cpy .dyn 5 6),
    (sxWord 0x24 0 5 6 0, 0, .gath .dyn 5 6), (sxWord 0x25 0 5 6 0, 0, .coll .dyn 5 6), (sxWord 0x26 0 5 6 0, 0, .kvalloc .dyn 5 6),
    (sxWord 0x27 0 5 6 0, 0, .kvref .dyn 5 6), (sxWord 0x28 0 5 6 0, 0, .kvunref .dyn 5 6), (sxWord 0x29 0 5 6 0, 0, .kvcow .dyn 5 6),
    (sxWord 0x2A 0 5 6 0, 0, .kvtierCi .dyn 5 6), (sxWord 0x2A 1 5 6 0, 0, .kvtierAq .dyn 5 6), (sxWord 0x2B 0 5 6 0, 0, .kvsend .dyn 5 6),
    (sxWord 0x2C 31 5 6 0, 0, .rqget .dyn 31 5 6), (sxWord 0x2D 4 5 6 0, 0, .rqset .dyn 4 5 6), (sxWord 0x2E 0 5 6 0, 0, .rqemit .dyn 5 6),
    (sxWord 0x2F 0 5 6 0, 0, .barinit .dyn 5 6), (sxWord 0x30 0 5 0 0, 0, .bararr .dyn 5), (sxWord 0x30 1 5 0 0, 0, .bararrDrop .dyn 5),
    (sxWord 0x31 0 5 6 0, 0, .barwait .dyn 5 6), (sxWord 0x32 0 5 6 0, 0, .barxpct .dyn 5 6), (sxWord 0x33 0 5 6 0, 0, .ringinit .dyn 5 6),
    (sxWord 0x34 0 5 6 0, 0, .ringacqP .dyn 5 6), (sxWord 0x34 1 5 6 0, 0, .ringacqC .dyn 5 6), (sxWord 0x35 0 5 6 0, 0, .ringrelP .dyn 5 6),
    (sxWord 0x35 1 5 6 0, 0, .ringrelC .dyn 5 6), (sxWord 0x36 0 5 6 0, 0, .spawn .dyn 5 6), (sxWord 0x37 0 5 6 0, 0, .join .dyn 5 6),
    (sxWord 0x38 0 5 6 0, 0, .pwrq .dyn 5 6), (0xE4000000, 0, .snop .dyn), (sxWord 0x39 1 0 0 0, 0, .lsync .dyn),
    (sxWord 0x39 2 0 0 0, 0, .yield .dyn), (sxWord 0x39 3 0 0 0, 0, .exit .dyn), (sxWord 0x39 4 5 0 0, 0, .sret .dyn 5),
    (sxWord 0x39 5 0 0 0, 0, .brkpt .dyn), (sxWord 0x39 6 0 63 0, 0, .trap .dyn 63), (sxWord 0x39 0x10 0 0 0, 0, .fence .dyn),
    (sxWord 0x39 0x11 0 0 0, 0, .fenceSys .dyn), (sxWord 0x39 0x12 0 0 0, 0, .fenceSurv .dyn), (sxWord 0x3A 0 5 6 0, 0, .hread 5 6),
    (sxWord 0x3A 1 5 6 0, 0, .hwrite 5 6), (sxWord 0x3A 2 5 0 0, 0, .hresume 5), (sxWord 0x3A 3 5 0 0, 0, .hkill 5),
    (sxWord 0x3A 4 0 0 0, 0, .hpark), (sxWord 0x3A 5 0 0 0, 0, .eret)] scalarRead = true := by decide +kernel

/-- Integer, bit and predicate lane words (Tables ASM-8 to ASM-10); 0x100 names k0, 0x13F the last inline constant. -/
theorem test_decode_lane_integer : List.all [
    (lword 1 2 0 0x101 0 0 0x26 0, .iadd hd .n32 true 2 (.v 0) (.k 1)), (lword 2 2 0 4 0 0 3 0, .isub hd .i64 false 2 (.v 0) (.v 4)),
    (lword 3 2 0 1 0 0 0x22 0, .imul hd .i32 true 2 (.v 0) (.v 1)), (lword 4 2 0 1 0x13F 0 6 0, .imad hd .n32 false 2 (.v 0) (.v 1) (.inl 31)),
    (lword 5 2 0 1 0 0 4 0, .imin hd .n8 2 (.v 0) (.v 1)), (lword 6 2 0 1 0 0 0 0, .imax hd .i8 2 (.v 0) (.v 1)),
    (lword 7 2 1 0 0 0 0x21 0, .iabs hd .i16 true 2 (.v 1)), (lword 8 2 1 0 0 0 2 0, .ineg hd .i32 false 2 (.v 1)),
    (lword 9 2 0 1 0 0 0x28 0, .shl hd .b32 true 2 (.v 0) (.v 1)), (lword 0xA 2 0 1 0 0 9 0, .shr hd .b64 false 2 (.v 0) (.v 1)),
    (lword 0xB 2 0 1 0 0 3 0, .sar hd .i64 false 2 (.v 0) (.v 1)), (lword 0xC 2 0 1 0 0 8 0, .and hd .b32 2 (.v 0) (.v 1)),
    (lword 0xD 2 0 1 0 0 8 0, .or hd .b32 2 (.v 0) (.v 1)), (lword 0xE 2 0 1 0 0 8 0, .xor hd .b32 2 (.v 0) (.v 1)),
    (lword 0xF 2 0 1 3 0 8 0x4A, .logic hd .b32 2 1 true false 2 (.v 0) (.v 1) (.v 3)),
    (lword 0xF 2 0 1 3 0 8 0x80, .logic hd .b32 0 0 false true 2 (.v 0) (.v 1) (.v 3)), (lword 0x10 2 1 0 0 0 8 0, .popc hd .b32 2 (.v 1)),
    (lword 0x11 2 4 0 0 0 9 0, .clz hd .b64 2 (.v 4)), (lword 0x12 2 1 0 0 0 8 0, .brev hd .b32 2 (.v 1)),
    (lword 0x13 2 1 0 0 0 2 (32 * 32 + 31), .bfe hd .i32 (.fixed 31 32) 2 (.v 1)), (lword 0x13 2 1 3 0 0 0x26 0, .bfe hd .n32 (.var (.v 3)) 2 (.v 1)),
    (lword 0x14 2 1 0 5 0 8 (5 * 32 + 4), .bfi hd (.fixed 4 5) 2 (.v 1) (.v 5)), (lword 0x15 2 0 1 3 0 8 0, .prmt hd 2 (.v 0) (.v 1) (.v 3)),
    (lword 0x16 6 0 1 0 0 (5 * 8 + 7) 0, .isetp hd .n8 .ge 6 (.v 0) (.v 1)), (lword 0x17 2 0 1 0 0 8 0xE, .sel hd .b32 ⟨6, true⟩ 2 (.v 0) (.v 1)),
    (lword 0x18 2 0 1 3 0 0x22 0, .idot4 hd .i32 true 2 (.v 0) (.v 1) (.v 3)), (lword 0x40 2 1 0 0 0 8 0, .mov hd .b32 2 (.v 1)),
    (lword 0x41 2 0 1 0 0 8 3, .shfl hd .b32 .xor 2 0 (.v 1)), (lword 0x42 2 0 1 0 0 8 0, .bcast hd .b32 2 0 (.v 1)),
    (lword 0x43 2 0 0 0 0 0 0, .getl hd 2), (lword 0x44 2 0 0 0 0 3 9, .vote hd .ballot ⟨1, true⟩ 2),
    (lword 0x45 2 1 0 0 0 0x28 0, .matchLanes hd .b32 true 2 (.v 1)), (lword 0x46 2 1 0 0 0 0xA 0xF2, .redux hd .f32 .max 7 true 2 (.v 1)),
    (lword 0x47 2 1 0 0 0 0x22 1, .scan hd .i32 .min true 2 (.v 1)), (lword 0x48 2 1 3 0 0 0x26 0, .gsort hd .n32 true 2 (.v 1) (.v 3)),
    (lword 0x49 6 0 0 0 0 0 0, .elect hd 6), (lword 0x4A 2 0 0 0 0 0 0, .exmget hd 2), (lword 0x4B 0 1 0 0 0 0 0, .exmset hd (.v 1)),
    (lword 0x4C 2 0 0 0 0 0 3, .regroup hd 2 3), (lword 0x74 2 4 6 0 0 0 0, .rand hd 2 (.v 4) (.v 6))] laneRead = true := by decide +kernel

/-- Floating-point and conversion words. -/
theorem test_decode_lane_float : List.all [
    (lword 0x20 2 0 1 0 0 0xA 0, .fadd hd 2 (.v 0) (.v 1)), (lword 0x21 2 0 1 0 0 0xA 0, .fmul hd 2 (.v 0) (.v 1)),
    (lword 0x22 2 0 1 3 0 0xA 0, .ffma hd 2 (.v 0) (.v 1) (.v 3)), (lword 0x23 2 0 1 0 0 0x2A 0, .fmin hd true 2 (.v 0) (.v 1)),
    (lword 0x24 2 0 1 0 0 0xA 0, .fmax hd false 2 (.v 0) (.v 1)), (lword 0x25 6 0 1 0 0 (7 * 8 + 2) 0, .fsetp hd .bf16 .nan 6 (.v 0) (.v 1)),
    (lword 0x26 6 1 0 0 0 1 0x3FF, .fclass hd .f16 0x3FF 6 (.v 1)), (lword 0x27 2 1 0 0 0 0x2A 0, .frnd hd .f32 true 2 (.v 1)),
    (lword 0x28 2 0 1 0 0 0xB 0, .hadd2 hd .f16 2 (.v 0) (.v 1)), (lword 0x29 2 0 1 0 0 0xC 0, .hmul2 hd .bf16 2 (.v 0) (.v 1)),
    (lword 0x2A 2 0 1 3 0 0xB 0, .hfma2 hd .f16 2 (.v 0) (.v 1) (.v 3)), (lword 0x2B 2 1 0 0 0 0xD 0xA, .cvt hd .e4m3 .f32 2 (.v 1)),
    (lword 0x2C 2 0 1 3 5 0x10 0, .pack hd .i4 2 (.v 0) (.v 1) (.v 3) (.v 5)), (lword 0x2D 2 1 0 0 0 0x11 3, .unpk hd .dpt8 3 2 (.v 1)),
    (lword 0x30 2 1 0 0 0 0xA 0, .rcp hd 2 (.v 1)), (lword 0x31 2 1 0 0 0 0xA 0, .rsq hd 2 (.v 1)), (lword 0x32 2 1 0 0 0 0xA 0, .sqrt hd 2 (.v 1)),
    (lword 0x33 2 1 0 0 0 0xA 0, .ex2 hd 2 (.v 1)), (lword 0x34 2 1 0 0 0 0xA 0, .lg2 hd 2 (.v 1)), (lword 0x35 2 1 0 0 0 0xA 0, .sin hd 2 (.v 1)),
    (lword 0x36 2 1 0 0 0 0xA 0, .cos hd 2 (.v 1)), (lword 0x37 2 1 0 0 0 0xA 0, .tanh hd 2 (.v 1))] laneRead = true := by decide +kernel

/-- Control, memory and matrix words. The reconvergence field of `LBR` is C and E together. -/
theorem test_decode_lane_memory : List.all [
    (lword 0x50 0 0 0 (3 * 16 / 512) (3 * 16 + 5) 0 0xFFF2, .lbr hd 0xFFF 2 3 5), (lword 0x51 0 0 0 0 0 0 0, .ljoin hd),
    (lword 0x52 0 0 0 0 0 0 0, .lend hd), (lword 0x53 0 0 0 0 0 0 0, .lnop hd), (lword 0x54 0 0 0 0 0 0 0xFFFF, .lcall hd (.near 0xFFFF)),
    (lword 0x54 0 0x10F 0 0 0 1 0, .lcall hd (.far 15)), (lword 0x55 0 0 0 0 0 0 0, .lret hd),
    (lword 0x60 2 0 1 0 0 0xD 0x8000, .ldg hd ⟨.b64, true, .none⟩ 2 (.v 0) (.v 1) 0x8000),
    (lword 0x61 0 0 1 4 0 6 16, .stg hd ⟨.b128, false, .none⟩ (.v 0) (.v 1) (.v 4) 16),
    (lword 0x62 2 0 1 0 0 0x24 4, .lds hd ⟨.b32, false, .fk⟩ 2 (.v 0) (.v 1) 4),
    (lword 0x63 0 0 1 3 0 0x14 4, .sts hd ⟨.b32, false, .e⟩ (.v 0) (.v 1) (.v 3) 4),
    (lword 0x64 2 0 1 0 0 0 1, .ldx hd ⟨.i8, false, .none⟩ 2 (.v 0) (.v 1) 1),
    (lword 0x65 0 0 1 3 0 3 2, .stx hd ⟨.n16, false, .none⟩ (.v 0) (.v 1) (.v 3) 2),
    (lword 0x66 2 0 1 0 0 4 8, .rld hd ⟨.b32, false, .none⟩ 2 (.v 0) (.v 1) 8),
    (lword 0x67 0 0 1 3 0 4 8, .rst hd ⟨.b32, false, .none⟩ (.v 0) (.v 1) (.v 3) 8),
    (lword 0x68 2 0 1 3 0 8 4, .ratom hd .xch .w32 false 2 (.v 0) (.v 1) (.v 3) (.v 0) 4),
    (lword 0x69 2 0 1 4 6 0x19 4, .atom hd .cas .w64 false 2 (.v 0) (.v 1) (.v 4) (.v 6) 4),
    (lword 0x6A 0 0 1 3 0 0xA 4, .red hd .fadd .w32 (.v 0) (.v 1) (.v 3) 4),
    (lword 0x6B 0 0 1 0 0 1 4, .tagset hd true (.v 0) (.v 1) 4), (lword 0x6C 2 0 1 0 0 0 4, .tagget hd 2 (.v 0) (.v 1) 4),
    (lword 0x6D 0 0x13F 0 0 0 3 0, .waitp hd .rm (.inl 31)), (lword 0x6E 0 0 1 0 0 1 4, .pref hd true (.v 0) (.v 1) 4),
    (lword 0x70 0 8 16 0x102 0x101 0 0, .mma hd false 8 (.v 16) 2 (.k 1)), (lword 0x71 0 0x102 0 0 0 0 0, .mxzero hd 2),
    (lword 0x72 2 0x102 1 0 0 0xA 0, .mxread hd .f32 2 2 (.v 1)), (lword 0x73 0 0 0 0 0 1 0, .mxflush hd none),
    (lword 0x73 0 0x102 0 0 0 0 0, .mxflush hd (some 2))] laneRead = true := by decide +kernel

/-- Guards, cache hint, lookahead and the extension slot of a double-slot word (R68, R69, R75). -/
theorem test_decode_lane_fields :
    (decodeLane (lword 1 2 0 0x1FE 0 0 2 0) 0xFFFFFFFF).toOption = some (.iadd { hd with ext := 0xFFFFFFFF } .i32 false 2 (.v 0) .ext32) ∧
    (decodeLane (lword 1 2 0 0x1FD 0 0 3 0) (2 ^ 64 - 1)).toOption =
      some (.iadd { hd with ext := 0xFFFFFFFFFFFFFFFF } .i64 false 2 (.v 0) .ext64) ∧
    (decodeLane (lword 1 2 0 0x1FF 0 0 2 0xFFFE) 0).toOption = some (.iadd { hd with imm := 0xFFFE } .i32 false 2 (.v 0) .imm16) ∧
    (decodeLane (0x60 * 2 ^ 88 + 2 * 2 ^ 86 + 3 * 2 ^ 82 + 0xE * 2 ^ 78 + 2 * 2 ^ 74 + 2 * 2 ^ 58 + 4 * 2 ^ 16) 0).toOption =
      some (.ldg ⟨.static, .pos 3, .neg 6, 2, 0, 0, 0, 0⟩ ⟨.b32, false, .none⟩ 2 (.v 0) (.v 0) 0) := by decide +kernel

/-- Words of queue programs (Table HQ-7). -/
theorem test_decode_queue : List.all [
    (qword 1 5 0 0 0 0 0xFFFFFFFF, .qmovi 5 0xFFFFFFFF), (0x0230000000000008, .qld 3 0 0 8), (qword 3 5 6 0 1 0 4, .qldw 5 1 6 4),
    (qword 4 0 6 7 2 0 4, .qstw 2 6 7 4), (qword 5 5 6 7 0 0 0, .qadd 5 6 (.reg 7)), (qword 6 5 6 0 0 1 9, .qsub 5 6 (.imm 9)),
    (qword 7 5 6 7 0 0 0, .qand 5 6 (.reg 7)), (qword 8 5 6 7 0 0 0, .qor 5 6 (.reg 7)), (qword 9 5 6 7 0 0 0, .qshl 5 6 (.reg 7)),
    (qword 0xA 5 6 7 0 0 0, .qshr 5 6 (.reg 7)), (qword 0xB 5 6 7 0 0 3, .qcmp 5 6 7 .geu), (qword 0xC 0 6 0 0 0 2, .qbr 6 false 2),
    (qword 0xC 0 0 0 0 1 2, .qbr 0 true 2), (qword 0xD 5 0 0 0 0 (255 * 2 ^ 16 + 7), .qloop 5 7 255), (0x0E40080000000000, .qlaunch 4 2 0 0),
    (qword 0xF 5 6 0 3 0 (2 * 2 ^ 20 + 0xFFFC), .qcopy 3 5 2 6 0xFFFC), (qword 0x10 0 6 7 1 0 8, .qsignal 1 6 7 8),
    (0x1100340000000000, .qwaitv 1 0 3 0), (qword 0x12 5 6 0 1 0 (0x41 * 2 ^ 24 + 64), .qcallf 5 1 6 0x41 64),
    (0x1304000000000000, .qdone 4), (qword 0x14 0 0 0 0 0 255, .qfail 255)] queueRead = true := by decide +kernel

/-- Encodings that are not instructions (R113, R67, R70, R71, R79, R327). -/
theorem test_decode_refuses :
    (decodeScalar 0 0).toOption = none ∧ (decodeScalar (srWord 0x3B 0 0 0 0) 0).toOption = none ∧
    (decodeScalar (srWord 1 5 6 7 0x10) 0).toOption = none ∧ (decodeScalar (srWord 1 5 6 7 0xC) 0).toOption = none ∧
    (decodeScalar (3 * 2 ^ 24 + srWord 1 5 6 7 0) 0).toOption = none ∧ (decodeScalar (srWord 0x10 5 6 1 0) 0).toOption = none ∧
    (decodeLane (lword 0x80 0 0 0 0 0 0 0) 0).toOption = none ∧ (decodeLane (lword 1 2 0 1 0 0 8 0) 0).toOption = none ∧
    (decodeLane (lword 1 2 0x110 1 0 0 2 0) 0).toOption = none ∧ (decodeLane (lword 1 3 0 2 0 0 3 0) 0).toOption = none ∧
    (decodeLane (lword 0x16 7 0 1 0 0 0 0) 0).toOption = none ∧ (decodeLane (lword 1 2 0 1 7 0 2 0) 0).toOption = none ∧
    (decodeQueue 0).toOption = none ∧ (decodeQueue (qword 0x15 0 0 0 0 0 0)).toOption = none ∧
    (decodeQueue (qword 0xB 5 6 7 0 0 6)).toOption = none := by decide +kernel

/-! States, queues, memories and operands of the witnesses -/

def sP : State := State.reset.placeWord 32 0x041461C0

def gP : Group := placedGroup .control false

def sP1 : State := ((({ sP with agenda := [] }).pick (({ sP with agenda := [] }).ready 0 0 false).length).2).served g0 0 false

def sP2 : State := (sP1.fetchLine 1 (codeLine false 0x8000)).2.fillCode 0 false 1 (codeLine false 0x8000)

def packet0 : Packet := { seq := 0, kind := 0x40, status := none, value := 0, word3 := 0, rej := false, miss := false, sigf := false, failCode := 0, waitGrids := [], waitOther := false, callGrid := none, dropped := none, linkFrom := none }

def sm : State := { sS gr0 with mem := ssetLE base.mem 0x40100 8 0xF234567890ABCDEF }

def ca (s : State) (gr : Group) (va n m : Nat) (rd wr host : Bool) := s.checkGlobal 1 va n m rd wr host (!gr.skipS.wp) (some 0) (s.teamIdOf g0)

def smR : State := { sS gr0 with mem := ssetLE base.mem 0x12000 8 0x2B, tlb := [] }

def smH : State := { sS gr0 with mem := ssetLE (ssetLE base.mem 0x12000 8 0x7B) 0x12000 8 0x5B, hostMem := ssetLE [] 0x40080 8 0x1234567890, tlb := [] }

def smM : State := { sm with migrations := [⟨0x40000, 0x50000, 0x10000, 1, 0x40000⟩] }

def h1 : LaneHdr := ⟨.fold, .pos 0, .always, 0, 0, 0, 0xFFF0, 0x8000000180000003⟩

def sliW : Nat × Nat := (encodeScalar (.sli .dyn 3 0x8000000000000001)).getD (0,0)

def iaddW1 : Nat × Nat := (encodeLane (.iadd h0 .i32 true 8 (.v 0) (.v 1))).getD (0,0)

def gE1 : Group := { gr0 with enq := 1 }

def pg0 : ObsPage := { ObsPage.fresh with wp := [(0xC000000000040000, 12)] }

def smW : State := { sm with obs := [(1, pg0)] }

def sFat : State := { base with fatal := true, agenda := [.scalar 0 0] }

def sDev : State := { base with agenda := [.event .firnBuild] }

def sMis : State := sS gr0

def xlC : Xl := ⟨0x20000, true, true, true, false, false⟩

def codeS : State := { base with mem := ssetLE [] 0x20008 12 (sliW.1 + sliW.2 * 2^32) }

def codeL1 : State := { base with mem := ssetLE [] 0x20008 24 (iaddW1.1) }

def tmC : Team := { tm0 with children := (List.range 16).map (fun i => ⟨BitVec.ofNat 64 i, some 1, false⟩) }

def sSp (tm : Team) (g : Group) : State := { sS g with teams := [(t0, tm)] }

def gSp : Group := { gr0 with s := [(1, 0x40000)] }

def h1z : LaneHdr := { h1 with imm := 0 }

def iaddW2 : Nat × Nat := (encodeLane (.iadd h1z .i64 true 8 (.v 0) .ext64)).getD (0,0)

def codeL2 : State := { base with mem := ssetLE [] 0x20008 24 (iaddW2.1 + iaddW2.2 * 2^96) }

def sN (spc : W64) : Group := { gr0 with spc := spc, s := [(1, 5), (2, 0x8020), (3, 0x8001), (4,1), (5, 0x8021),(6,0)] }

def sT (gr : Group) : State := { sS gr with mem := ssetLE base.mem 0x20080 8 (0x00000005 + 0x5 * 2^32) }

def gFull : Group := { gr0 with laneQ := List.replicate 16 ⟨0, [], 0, 0⟩, enq := 17, ended := 1 }

def sSump (gr : Group) : State := { sS gr with ctxs := [(1, { Ctx.fresh 0x10000 with sumpQ := 0x10000 })] }

def obj : W64 := 0x8000000000000040

def gB (n : W64) : Group := { gr0 with s := [(1, obj), (2, n), (3,0)] }

def tmB (m : Store 8) (tags : Store 1) : Team := { tm0 with scratch := m, tags := tags }

def sB (gr : Group) (tm : Team) : State := { sS gr with teams := [(t0, tm)] }

def bar32 : Store 8 := ssetLE [] 0x40 16 (3 + 2 * 2^16)

def bar31 : Store 8 := ssetLE [] 0x40 16 (3 + 0 * 2^16 + 2^32 + 5 * 2^64)

def gB2 : Group := { gB 0x1000000000000 with obj := [⟨obj, false, true⟩] }

def gBw (ph : Bool) : Group := { gB 4 with obj := [⟨obj, false, ph⟩] }

def barBrk : Store 8 := ssetLE [] 0x40 16 (3 + 2 * 2^16 + 2 ^ 33)

def ring (p c : Nat) (slots : Nat) : Store 8 := ssetLE [] 0x40 32 (4 + p * 2^64 + c * 2^96 + slots * 2^128)

def gRun : Group := { gr0 with enq := 2, ended := 1 }

def gM (act : W64) (gt : Option (Nat × Nat)) : Group := { gr0 with role := .matrix, s := [(1, act)], grant := gt }

def objs8 : List ObjEntry := (List.range 8).map (fun i => ⟨BitVec.ofNat 64 (0x100 + 16 * i), false, true⟩)

def cpyD : Nat := 5 + 0 * 2^64 + 0x100 * 2^128 + (8 + 2 * 2^32) * 2^192 + (8 + 8 * 2^32) * 2^256

def sE (gr : Group) (d : Nat) : State := { sS gr with mem := ssetLE base.mem 0x40100 64 d }

def gE (a : W64) : Group := { gr0 with s := [(1, a), (2, 3)] }

def rdE (a : W64) (d n : Nat) (wr : Bool) := (sE (gE a) d).readDesc 1 a.toNat n wr

def inst0 : Inst := { num := 2, ctx := 1, desc := 0x50000, words := List.replicate 32 0, status := .running, ahead := 0, etail := 0, step := 0, phase := .grids 0 1, batch := [⟨5, 0, 1, true, true, false, false, false⟩], plan := [[]], packets := [], idle := none, stops := [], freed := [] }

def rec0 : Rec := { idx := 5, inst := 2, words := [(0, 0x99), (10, 3)] }

def sR (gr : Group) (x : Inst) : State := { sS gr with insts := [x], recs := [rec0] }

def gR (a b : W64) : Group := { gr0 with s := [(1, a), (2, b)] }

def cmd1 (n : Nat) : EngCmd := ⟨.ce, n, 0, .cpy, 0x40100, [], [], none, []⟩

def tm32 : Team := { tm0 with cmds := (List.range 32).map cmd1, issuedCe := 32 }

def sE32 : State := { sE (gE 0x40100) cpyD with teams := [(t0, tm32)], ctxs := [(1, { Ctx.fresh 0x10000 with sumpQ := 63 })] }

def rd32 := sE32.readDesc 1 0x40100 64 false

def ck32 := engineChecks .cpy g0 0x40100 (rd32.1.toOption.getD []) rd32.2

def sB' (gr : Group) (tm : Team) : State := { sS gr with teams := [(t0, tm)] }

def gJ (h : W64) : Group := { gr0 with s := [(1, h)] }

def tmJ (g : Option Nat) : Team := { tm0 with children := [⟨9, g, false⟩] }

def sJ (x : Grid) : State := { sB' (gJ 9) (tmJ (some 4)) with grids := [(1, grid0), (4, x)] }

def trp (c : Cause) : Trap := { cause := c, info := 3, eng := false, ln := false, addr := 0x55, lanes := 0, orig := 0 }

def gH (sel x : W64) : Group := { Group.fresh .control 32 0 0 0 0x9000 0 with s := [(1, sel), (2, x)] }

def tgT : Group := { gr0 with status := .trapped, trap := some { cause := .illegal, info := 0, eng := false, ln := false, addr := 0, lanes := 0, orig := 0 }, k := [(3,4)], yS := [(1,2)], yL := [(1,3)] }

def actH : Activation := ⟨0, 0, tgT.trap, 0, 1⟩

def hg : GRef := handlerGroup 0

def sH (sel x : W64) (tg : Group) : State := { base with groups := [(g0, tg), (hg, gH sel x)], cur := some (.scalar hg), cores := [(0, { Core.fresh with act := some actH, trapQ := [(0,0),(1,3)] })] }

def sel (cls idx lane : Nat) : W64 := BitVec.ofNat 64 (cls * 256 + idx * 4096 + lane * 2^24)

def tgE : Group := { tgT with status := .active, trap := none }

def vals : List Nat := [0x80000000, 0xFFFFFFFF, 0x7FFFFFFF, 5, 0x80, 0x7F, 0xFF80FF7F, 0x12345678, 0, 1, 33, 0x3F800000, 0x7F800000, 0xFFC00000, 0xFF800000, 0x40490FDB]

def mk (seed : Nat) : Store 32 := ((List.range 8).flatMap (fun r => (List.range 32).map (fun l => (32*r+l, BitVec.ofNat 32 (vals.getD ((l*(r+1+seed) + r*3 + seed) % 16) 0))))).filter (fun p => p.2 != 0)

def gV : Group := { gl0 with v := mk 0, exmL := 0x00FF0FFF, p := [(0, 0xFFF0F), (1, 0x123)] }

def sLC (gr : Group) : State := { sL gr with mem := ssetLE base.mem 0x20080 8 (0x5 + 0x5 * 2^16) }

def gC : Group := { gV with lpc := 0x4001 }

def e0 : StackEntry := { kind := .diverge, mask := 0xF000, lpc := 0x4012, fmt := 0, pnd := true }

def gC0 : Group := { gC with exmL := 0, stack := [{e0 with kind := .call}] }

def gC2 : Group := { gC with stack := [{e0 with pnd := false, lpc := 0x4001}] }

def gC3 : Group := { gC with stack := [{e0 with pnd := false}] }

def gC5 : Group := { gC with stack := [e0], run := some ⟨[], 0⟩ , enq := 1}

def fIadd (w : LaneView) (l : Nat) : Nat × W32 := intWritten 32 true true (readInt 32 true (w.src h1 (otyOf .i32) (.v 0) l) + readInt 32 true (w.src h1 (otyOf .i32) (.v 1) l))

def tIadd : State := nx (exec (.iadd h1 .i32 true 8 (.v 0) (.v 1)) (sL gV))

def mkA : Store 32 := (List.range 32).flatMap (fun l => [(l, BitVec.ofNat 32 (16 * l)), (32 + l, BitVec.ofNat 32 (l+1)), (64+l, BitVec.ofNat 32 (4*l)), (96+l, 0x11)])

def gA : Group := { gl0 with v := ((mkA.filter (fun p => p.1 < 32)) ++ (mkA.filter (fun p => 32 ≤ p.1 && p.1 < 64)) ++ (mkA.filter (fun p => 64 ≤ p.1 && p.1 < 96)) ++ (mkA.filter (fun p => 96 ≤ p.1))).filter (fun p => p.2 != 0), exmL := 0xFF, p := [(0, 0xFF)], run := some ⟨[(0, 0x40000),(1,0x40)], 0⟩ }

def fn (w : MWidth) (a : Bool := false) : MemFn := ⟨w, a, .none⟩

def sFab : State := { sL gA with ctl := { State.reset.ctl with joined := true, rank := 3 }, ctxs := [(1, {Ctx.fresh 0x10000 with expBase := 0x40000, expLen := 0x100000})]}

def wA := ((sL gA).view gA).1

def sA1 := ((sL gA).view gA).2

def globA (red : Bool) (op : AOp) (n : Nat) (w : LaneView) (s : State) (l : Nat) :=
  s.checkGlobal 1 (globalVa h0 (.k 0) (.v 0) 16 w l) n n (!red) true (!red && (op == .add || op == .xch || op == .cas)) true (some 0)
    (s.teamIdOf g0)

def rA (red) := checkLanes (globA red .add 4 wA) (wA.active h0) sA1

def gTg (_ : Nat) : Group := { gl0 with v := [(0, 0x40), (32, 0), (64, 0xABCD)], exmL := 1 }

def tmT (full : Bool) : Team := { tm0 with scratch := ssetLE [] 0x40 8 0x1122334455667788, tags := if full then [(16,1)] else [] }

def sTg (full : Bool) : State := { sL (gTg 0) with teams := [(t0, tmT full)] }

def gMx (g : Option (Nat × Nat)) (va : W64) : Group := { gl0 with role := .matrix, v := mk 3, run := some ⟨[(2, va)], 0⟩, grant := g, fmtL := 0x00, unflushed := [(0x42000, 0x42000), (0x44000, 0x44000)], mxIssued := 4, mxDone := 4 }

def vwM (g) (va) := seen (sL (gMx g va)) (gMx g va) [] []

def ctM (g) (va) (rd : Bool) (wr : Bool):= (vwM g va).2.checkTile 1 va.toNat rd wr (some 0)

def gMx2 : Group := { gMx none 0x42000 with exmL := 0x10, fmtL := 0xF, v := [(0*32+4, 3)] }

def pk0 : Packet := { seq := 7, kind := 0x40, status := none, value := 0, word3 := 0, rej := false, miss := false, sigf := false, failCode := 0, waitGrids := [], waitOther := false, callGrid := none, dropped := none, linkFrom := none }

def q0 : Queue := { Queue.fresh with state := .running, ctx := 1, resident := true, words := [0], busy := true, body := [0x40 + 7*2^32, 0x50000, 0x123, 5,6,7,8,9], prog := 8, packets := [pk0], seq := 8, tail := 9, wins := [(0x40000, 256, 3), (0x50000, 128, 1), (0,0,0)], q := [(1,5),(2,0xFFFFFFFFFFFFFFFF),(3,0x10), (4, 0x108)], seg := 0x80000, segBytes := 4096, level := 2 }

def sQ_2 (q : Queue) : State := { base with queues := [(3, q)], cur := some (.queue 3) }

def sm_2 : State := { sQ_2 q0 with mem := ssetLE base.mem 0x40010 16 0x1122334455667788FFEEDDCCBBAA9988 }

def wr (s : State) (w : QWin) (off n : Nat) := q0.winRead w off n s

def q0u : Queue := { q0 with wins := [(0x8000000000, 256, 3), (0x50000, 128, 1), (0,0,0)] }

def qV : Queue := { q0 with waitv := some (1, 0x10, 5) }

def qV2 : Queue := { q0 with waitv := some (1, 0x10, 0xFFFFEDDCCBBAA9988) }

def q0c : Queue := { q0 with q := [(3, 0x14), (4, 0x20)] }

def smc : State := { sm_2 with queues := [(3, q0c)] }

def sc1 := (q0c.winRead 1 0x14 4 smc).2

def sc2 := (sc1.vwrite (sc1.agent 6 0) 1 (0x50000 + 0x20) 4 0xFFEEDDCC true).2

def qLp : Queue := { q0 with loop := none, pc := 5 }

def bodyN (pol : Nat) : Nat := 0x60000 * 2^64 + (1 + 2^32) * 2^128 + pol * 4 * 2^192 + 1 * 2^256

def recN : Nat := 0x1234 * 2^64 + (1 + 256) * 2^(8*0x88) + 0x8000 * 2^(8*0x90)

def memK (pol : Nat) : Memory := ssetLE (ssetLE base.mem 0x40200 128 (bodyN pol)) 0x60000 168 recN

def qL : Queue := { q0 with wins := [(0x40200, 128, 3), (0x50000, 128, 1), (0,0,0)], q := [(3,0)] }

def sQL (q : Queue) (b : Nat) : State := { sQ_2 q with mem := ssetLE (memK 1) 0x40200 128 b, choices := [9, 0x123456789, 77], kernels := [⟨1, 0x70000, 0x60000, 0x1234⟩] }

def w1 (b : Nat) := qL.winRead 1 (qL.offsetIn 1 3 0 128) 128 (sQL qL b)

def en (b : Nat) := (w1 b).2.enterLaunch (queueLaunch qL 3 pk0 (bodyWord b 3)) b

def kd (k : Nat) (b : Nat) := let r := qL.winRead 1 (qL.offsetIn 1 3 0 (packetBytes ((kindLen k).getD 0))) (packetBytes ((kindLen k).getD 0)) (sQL qL b)
  (r, performKind k { slot := 3, q := qL, seq := 7, w := wordsOf b ((packetBytes ((kindLen k).getD 0)) / 8) } r.2)

def qF : Queue := { qL with func := 2 }

def kdF := performKind 7 { slot := 3, q := qF, seq := 7, w := wordsOf (bodyN 1) 8 } (qF.winRead 1 (qF.offsetIn 1 3 0 64) 64 (sQL qF (bodyN 1))).2

def qb (b : List Nat) : Queue := { q0 with body := b }

def sb (b : List Nat) : State := { sQL (qb b) (bodyN 1) with choices := [9, 0x123456789, 77] }

def lb := wordsOf (bodyN 1) 16

def s1l := ((sb lb).enterLaunch (queueLaunch (qb lb) 3 pk0 (lb.getD 3 0)) (bodyN 1)).2

def lb0 : List Nat := [0, 0x1000, 0, 0, 0, 0, 0, 0]

def s1r := ((sb lb0).enterLaunch (queueLaunch (qb lb0) 3 pk0 0) (wordsNum lb0)).2

def lld : List Nat := [0, 0x70000, 0x60000, 0, 0, 0, 0, 0]

def sld : State := { sb lld with mem := ssetLE (memK 1) 0x60000 168 (recN + 0x4B594E31 + 0xA8 * 2^32 + 2^(8*0x1C) + 2^(8*0x1E)) }

def r1d := (sld.readRecord 1 0x60000)

def s2d := (r1d.2.vwrite (r1d.2.agent 6 0) 1 0x60008 8 r1d.2.nextCodeId true).2

def lpr : List Nat := [0, 0, 0, 0, 0, 0, 0, 0]

def lpg : List Nat := [0, 0x61000, 0, 0, 0, 0, 0, 0]

def spg : State := { sb lpg with mem := ssetLE [] 0x61000 8 0x1304000000000000 }

def spg1 := (spg.loadProgram (qb lpg).wins 0x61000).2

def lct : List Nat := [0, 1, 0x10000, 50 + 7 * 2^32, 0, 100 + 16 * 2^32, 0x800000, 0x900000, 0x10000, 0xA00000, 0x100000, 0xB00000, 0x100000, 0xC00000, 0,0,0,0,0,0,0,0,0,0,0,0,0,0,0,0,0,0]

def lcb : List Nat := [0, 1, 0x10000, 50 + 7 * 2^32, 0, 2^31 + 16 * 2^32]

def lcc : List Nat := 0 :: 0x1001 :: lct.drop 2

def qVF (b : List Nat) : Queue := {qb b with func := 2}

def lpe (d k : Nat) : List Nat := [0, 1, d + k * 2^32]

def sOff : State := {sb (lpe 5 6) with ctxs := [(1, {Ctx.fresh 0x10000 with phase := .off})]}

def qLk : Queue := qb [0x80 + 7*2^32, 0x80001]

def qLr : Queue := qb [0x80 + 7*2^32, 0x70000, 0x60000]

def sLr : State := { sb [0] with queues := [(3, qLr)], mem := ssetLE (memK 1) 0x600A0 8 0xFFFFFFFFFFFFFFFF }

def gSpw : Group := { gr0 with s := [(1, 0x40200)] }

def sSpw : State := { sS gSpw with mem := memK 1, kernels := [⟨1, 0x70000, 0x60000, 0x1234⟩], choices := [5, 6, 7] }

def spV := sSpw.vread 1 0x40200 128 false

def spI : LaunchBy := { ctx := 1, level := 1, issuer := .spawn 1 0, depth := 1, inst := none, seqBase := 0, step := 0 }

def spE := spV.2.enterLaunch spI (spV.1.toOption.getD 0)

def spN : Nat := match spE.1 with | .grid n => n | _ => 0

def spT : Team := (spE.2.team t0).getD tm0

def spH : W64 := handleOf spN spE.2.draw.1

def spS := (spE.2.draw.2.setTeam t0 { spT with children := spT.children ++ [⟨spH, some spN, false⟩] }).testDependence spN

def lrs : List Nat := [0, 2]

def pkd : Parked := { slot := 2, teamId := 0, reason := 0, wantResume := false, team := tm0, groups := [(0, gr0)] }

def srs : State := { sb lrs with grids := [(1, { grid0 with parked := [pkd] })], ctxs := [(1, { Ctx.fresh 0x10000 with parkN := 16, parkBase := 0x800000, usedSlots := [2] })] }

def srsV : State := { srs with mem := ssetLE srs.mem (0x800000 + 2^20*2 + 0x27) 1 0x80 }

def vI : Inval := ⟨1, 0x40000, 0x1000, 3, 7⟩

def sI : State := { base with queues := [(3, {q0 with packets := [{pk0 with waitOther := true}]})], invals := [vI], tlb := [⟨1, 0x40000, 12, 1, .last 0⟩, ⟨1, 0x80000, 12, 1, .last 0⟩, ⟨2, 0x40000, 12, 1, .last 0⟩] }

def svb (a n : Nat) : List Nat := [0, 0x60100, a + n * 256]

def inst0_2 : Inst := { num := 5, ctx := 1, desc := 0x60100, words := [], status := .running, ahead := 0, etail := 0, step := 0, phase := .start 2, batch := [], plan := [], packets := [], idle := none, stops := [], freed := [] }

def svi (x : Inst) (b : List Nat) : State := { sQ_2 (qb b) with insts := [x] }

def instS : Inst := { inst0_2 with phase := .start 1 }

def instH : Inst := { inst0_2 with status := .halted }

def svr : State := svi instH (svb 2 5)

def svr1 := (svr.vwrite svr.wellhead 1 (0x60100 + 0x68) 8 1 false)

def descN : Nat := 0x30000 + 16 * 2^64 + 0x31000 * 2^(8*0x18) + 64 * 2^(8*0x20) + 0x61000 * 2^(8*0x30) + 0x64000 * 2^(8*0x38) + 16 * 2^(8*0x40) + 8 * 2^(8*0x44) + 4 * 2^(8*0x48) + 1 * 2^(8*0x4A) + 16 * 2^(8*0x4B) + 8 * 2^(8*0x4C) + 1 * 2^(8*0x50) + 2 * 2^(8*0x54) + 0x63000 * 2^(8*0x58) + 7 * 2^(8*0x60)

def planN : Nat := 1 + 0x62000 * 2^128

def memS : Memory := ssetLE (ssetLE (ssetLE (memK 1) 0x60100 128 descN) 0x61000 48 planN) 0x62000 128 (bodyN 1)

def svS (b : List Nat) : State := { sQ_2 (qb b) with mem := memS, kernels := [⟨1, 0x70000, 0x60000, 0x1234⟩] }

def r0 := (svS (svb 0 5)).serveStart 1 0x60100 5

def cs0 : List Nat := [0, 0]

def sck (b : List Nat) (ph : Phase) (f : Nat) : State := { sQ_2 { qb b with func := f } with choices := [1, 0], ctxs := [(1, {Ctx.fresh 0x10000 with phase := ph})], vault := [{ ctx := 1, pa := some 0x40000, bytes := 16, data := [(0x40001, 7)], recs := [], poison := [], digest := 0}] , mem := ssetLE base.mem 0x40000 16 0x01020304 }

def nC (s : State) := s.namedContexts

def k1 : Chunk := { ctx := 1, pa := some 0x40000, bytes := 16, data := [(0x40001, 7)], recs := [], poison := [], digest := 0}

def scc : State := { base with ctxs := [(1, {Ctx.fresh 0x10000 with phase := .off})], mem := ssetLE base.mem 0x40000 16 0x01020304, checkpoints := [⟨3, 7, [1]⟩], vault := [{k1 with ctx := 2}], queues := [(3, {q0 with packets := [{pk0 with waitOther := true}]})] }

def scc1 := ([1] : List Nat).foldl (fun s c => s.sendContext c) { scc with checkpoints := [] }

def qdis : Queue := { Queue.fresh with func := 2 }

def qdN : Nat := 0x80000 + 4096 * 2^64 + 1 * 2^(8*0xC) + 0x81000 * 2^(8*0x10) + 16 * 2^(8*0x18) + 0 + 0x82000 * 2^(8*0x20) + 64 * 2^(8*0x28) + 1 * 2^(8*0x34) + 5 * 2^(8*0x70)

def sqs (q : Queue) (d : Nat) : State := { base with queues := [(3, q), (9, qdis)], mem := ssetLE base.mem 0x90000 128 d }

def qri : Queue := { q0 with busy := false, packets := [], state := .idle, progress := 5, tail := 5, desc := 0x90000, ctail := 9, ftail := 8 }

def qw : Queue := { qri with busy := true, waitv := some (1,2,3), packets := [pk0], state := .running }

def qt : Queue := { qri with state := .running, tail := 9, seq := 8 , progress := 8 }

def hdr (k sq ln : Nat) : Nat := k + ln * 2^8 + sq * 2^32

def sqt (q : Queue) (h : Nat) : State := { sqs q 0 with mem := ssetLE base.mem 0x80000 64 (h + 0x123456789 * 2^64) }

def qce : Queue := { qri with packets := [{pk0 with status := some 3, value := 0x55, word3 := 0x66, rej := true, failCode := 0x1234}], state := .running, ccap := 16, comp := 0x82000, cseq := 20 }

def sbk : State := {base with banks := [(5, ⟨2^63+2^62+5, 1,2,3,4⟩)]}

def sCfg (d : Nat) : State := { base with endpointUp := false, inReset := true, choices := [d] }

def grD : Grid := { grid0 with phase := .dependence, depAddr := 0x50000, depVal := 5, krec := 0x60000, origRoles := grid0.roles }

def sG (g : Grid) (v : Nat) : State := { base with grids := [(1, g)], mem := ssetLE (memK 1) 0x50000 8 v, kernels := [⟨1, 0x70000, 0x60000, 0x1234⟩], teams := [], groups := [] }

def rd (g : Grid) (v : Nat) := (sG g v).vread g.ctx g.depAddr.toNat 8 true

def ke (st : FirnState) : FirnEntry := { id := 9, ctx := 1, key := ((rd grD 5).2.keyFor 1 grD).1.getD [], codeId := 0, krec := 0x60000, state := st, base := 0x300000, lines := 4, mapAt := 0, roles := [], lastHit := 0, matching := true }

def grP : Grid := { grid0 with phase := .ready, next := 2, entered := 0 }

def sPl (g : Grid) : State := { sG g 0 with teams := [(⟨0,0⟩, tm0), (⟨1,2⟩, tm0)], groups := [(g0, gr0)] }

def grX : Grid := {grP with roles := [⟨0, 0, 0, 0⟩, ⟨0, 0, 0, 0⟩, ⟨0, 0, 0, 0⟩, ⟨30, 256, 0x8000, 0x4000⟩], next := 0}

def out : State := { sPl grX with cores := (List.range 384).map (fun i => (i, {Core.fresh with inService := false})) }

def grE : Group := { gr0 with status := .exited }

def sR_2 (gg : Group) (g : Grid) : State := { sG g 0 with teams := [(t0, tm0)], groups := [(g0, gg)], grids := [(1, g)] }

def sRg (g : Grid) : State := { sR_2 gr0 g with teams := [], groups := [], mem := ssetLE base.mem (argPlace 1 + 8) 4 0x12345 }

def gq : Grid := {grid0 with ended := 4, argBytes := 16, issuer := .spawn 7 0}

def sDf (st : FirnState) : State := { sG grD 5 with firn := [ke st] }

def grZ : Grid := { grD with depAddr := 0, krec := 0x60000 }

def pC : Packet := { pk0 with callGrid := some 2 }

def grC : Grid := { grid0 with issuer := .queue 3 7, ended := 4, next := 4 }

def sGC : State := { base with grids := [(2, grC)], teams := [], queues := [(3, { q0 with packets := [pC] })] }

def cxP : Ctx := { Ctx.fresh 0x10000 with parkN := 4, parkBase := 0x800000, usedSlots := [0] }

def tmW (r : Nat) : Team := { tm0 with parkWanted := some r }

def sP_2 (tm : Team) (g : Group) (x : Ctx) : State := { base with teams := [(t0, tm)], groups := [(g0, g)], ctxs := [(1, x)] }

def tmJ_2 : Team := { tm0 with children := [⟨0x77, some 2, false⟩] }

def grJ : Group := { gr0 with waitS := some (.join 0x77 3) }

def g2 : Grid := { grid0 with next := 0, roles := [⟨0, 0, 0, 0⟩, ⟨0, 0, 0, 0⟩, ⟨0, 0, 0, 0⟩, ⟨30, 256, 0x8000, 0x4000⟩] }

def sJ_2 : State := { sP_2 tmJ_2 grJ cxP with grids := [(1, grid0), (2, g2)] , cores := (List.range 384).map (fun i => (i, {Core.fresh with inService := i == 0}))}

def st (tm : Team) (g : Group) (x : Ctx) : State :=
  ((sP_2 tm g x).onTeam t0 (fun t => { t with parkWanted := some (tm.parkWanted.getD 0) })).stopTeam t0

def st2 (tm : Team) (g : Group) (x : Ctx) : State := (st tm g x).sendTeam t0

def gOut : Group := { gr0 with out := [⟨0, .gl, false, [⟨.global, .store, 0x40000, 0x40000, 4, 0, 0, 0, 0, [], false, 0⟩], 0, 0, none, []⟩] }

def tw : Team := tmW 1

def s2w := st2 tw gr0 cxP

def iw := parkInfo tw (s2w.teamGroups t0) 1

def gsw := sortBy (fun (a b : GRef × Group) => decide (a.1.gid < b.1.gid)) (s2w.teamGroups t0)

def r3 := s2w.putRecord 1 (0x800000 + 2^20*1) (recordLen 4096 (gsw.map (fun p => p.2.allot))) (s2w.record tw gsw iw)

def cxd (k : Phase) : Ctx := { cxP with phase := k }

def xq : Ctx := { cxd (.park 100) with preemptQ := [(3, 7)] }

def trW : Trap := { cause := .watchpoint, info := 0, eng := false, ln := false, addr := 0, lanes := 0, orig := 0 }

def tmH (h : Nat) : Team := { tm0 with handler := BitVec.ofNat 64 h, tagwd := 10, hndwd := 100 }

def grT : Group := { gr0 with status := .trapped, trap := some trW }

def sA (tm : Team) (g : Group) (c : Core) (ck : Nat) : State := { sP_2 tm g cxP with cores := [(0, c)], clock := ck }

def a0 : Activation := ⟨0, 0, some trW, 55, 1⟩

def grBw : Group := { gr0 with waitS := some (.barrier 0x55 true 3), sinceS := 7 }

def grRw : Group := { gr0 with waitS := some (.ring 0x56 true 3 4), sinceS := 7 }

def uT : AUnit := ⟨.global, .load false, 0x40000, 0x40000, 4, 5, 5, 0, 0, [], false, 0⟩

def grLw : Group := { gl0 with waitL := some .tag, sinceL := 7, tagPend := [uT, {uT with lane := 7}] }

def sPre : State := { sP_2 tm0 gr0 (cxd (.drain 50 90)) with clock := 50, teams := [(t0, tm0), (⟨5,0⟩, {tm0 with ctx := 2})] }

def gFar : Group := { gr0 with out := [⟨0, .gl, false, [⟨.fabric 4, .store, 0x40000, 0x40000, 4, 0, 0, 0, 0, [], false, 0⟩], 0, 0, some 1, []⟩] }

def sW (g : Group) : State := { base with groups := [(g0, g), (⟨0,0,1⟩, gr0)] }

def eB : LaneEntry := ⟨0x4000, [(3, 9)], 0x5, 0xFF⟩

def oL : OutOp := ⟨5, .gl, false, [⟨.global, .load false, 0x40000, 0x40000, 4, 0, 2, 0, 0, [some 40], false, 0⟩], 0, 0, none, []⟩

def uP : UPart := { holder := .core 0, line := 0x40000/128, rank := none, ctx := 1, op := .add, w := .w32, mor := false, cells := [(0x40004, 0xFFFFFFFF)], owners := [g0] }

def uP1 : AUnit := ⟨.global, .store, 0x40000, 0x40000, 4, 0, 2, 9, 0, [], false, 0⟩

def oS : OutOp := ⟨5, .gl, false, [uP1], 0, 0, none, []⟩

def gL1 : Group := { gl0 with out := [oS] }

def tsX : TileSend := { core := 0, ctx := 1, pa := 0x42000, mor := false, cells := [(5, 7)], from_ := [g0] }

def sMx0 : State := { sW gl0 with sends := [tsX] }

def sMx0_2 : State := sW gl0

def mx (k : MxKind) (b : Bool) (z t : List Nat) : MxCmd := { num := 5, kind := k, va := 0x40000, pa := 0x40000, mor := false, rowsA := List.replicate 32 3, colsB := List.replicate 32 5, scales := [], fmt := 0, scr := none, captured := [], begun := b, toZero := z, tiles := t }

def stg : Staging := ⟨1, 0x40000, false, [(3, 7), (9, 0xFFFFFFFFFFFFFFFF)], [g0], []⟩

def snd : TileSend := ⟨0, 1, 0x40000, false, [(3, 7)], [g0], []⟩

def sM (g : Group) (st : List Staging) (sd : List TileSend) : State := { sW g with cores := [(0, {Core.fresh with staging := st})], sends := sd, mem := ssetLE base.mem 0x40000 64 (2^512-1) }

def cpy (sp src dst : Nat) (landed : List Nat) : EngCmd := ⟨.ce, 5, 0, .cpy, 0, [sp, src, dst, 8 + 2*2^32, 16 + 32 * 2^32, 0, 0, 0], landed, none, []⟩

def tmC_2 (c : EngCmd) : Team := { tm0 with cmds := [c], scratch := [(0x104, 9), (0x105, 8), (0x114,7)], doneCe := 4 }

def sC (c : EngCmd) : State := { base with teams := [(t0, tmC_2 c)], groups := [(g0, gr0)], mem := ssetLE base.mem 0x40000 64 (0x1122334455667788 * 2^32), cur := none }

def c4 := cpy 4 0x40000 0x200 [0]

def ck4 (c : EngCmd) (src : Nat) := (sC c).checkGlobal ((sC c).ctxOf (t0.group 0)) src 4 4 true false true false (some 0)
  ((sC c).teamIdOf (t0.group 0))

def c1 := cpy 1 0x100 0x40000 [0]

def ck1 := (sC c1).checkGlobal ((sC c1).ctxOf (t0.group 0)) 0x40004 4 4 false true true false (some 0)
  ((sC c1).teamIdOf (t0.group 0))

def kvc (op : EngOp) (l r : Nat) (n : Nat) : EngCmd := ⟨.kv, 5, 0, op, 0, [n * 2^32, l, r, 0], [], none, []⟩

def tmK (c : EngCmd) : Team := { tm0 with cmds := [c], doneKv := 4 }

def sK (c : EngCmd) : State := { base with teams := [(t0, tmK c)], mem := ssetLE base.mem 0x50000 64 0x0000000200000001 , insts := [{ num := 5, ctx := 1, desc := 0x60100, words := wordsOf descN 16, status := .running, ahead := 0, etail := 0, step := 0, phase := .grids 0 1, batch := [], plan := [[]], packets := [], idle := none, stops := [], freed := [] }] }

def kr (c : EngCmd) := (sK c).vread 1 (c.w 1) (4 * kvCount c.desc) true

def kr2 (c : EngCmd) := checkPieces 1 true [(c.w 2, 8)] (kr c).2

def plK : Pool := { inst := 5, pool := 0, desc := [0x80000, 4*2^32 + 100, 2*2^32 + 64, 0x100000, 16, 0, 0, 1], ids := [1, 2], frames := [(0,0), (0,1)] }

def sK2 (c : EngCmd) : State := { sK c with pools := [plK] }

def kvc_2 (op : EngOp) (l r : Nat) (n : Nat) : EngCmd := ⟨.kv, 5, 0, op, 0, [n * 2^16, l, r, 0], [], none, []⟩

def poolK_2 := ((sK2 (kvc_2 .kvref 0x50000 0x50100 2)).instOf t0).bind (fun y => (sK2 (kvc_2 .kvref 0x50000 0x50100 2)).poolOf y 0)

def pK := (poolK_2.map (·.2)).getD ⟨0,0,0,0,0,0,0,0,0,0,0,0⟩

def sK3 (c : EngCmd) : State := { sK2 c with mem := ssetLE (ssetLE (sK2 c).mem (0x80000 + 32) 32 (0x100000 + (1 + 1*2^32) * 2^64)) (0x80000 + 64) 32 (0x100800 + (1 + 1*2^32) * 2^64) }

def kr3 (c : EngCmd) := (sK3 c).vread 1 (c.w 1) (4 * kvCount c.desc) true

def kr23 (c : EngCmd) := checkPieces 1 true [(c.w 2, 8)] (kr3 c).2

def cK : EngCmd := kvc_2 .kvref 0x50000 0x50100 2

def a3 (c : EngCmd) := (kr23 c).2.kvAct ((kr23 c).2.kvWriter t0 c) pK c.op (kvCount c.desc)
  (unpackIds ((kr3 c).1.toOption.getD 0) (kvCount c.desc)) false

def cS : EngCmd := ⟨.kv, 5, 0, .kvsend, 0, [0, 0, 0x50100, 0], [3, 2, 2], none, []⟩

def cSm : EngCmd := ⟨.kv, 5, 0, .kvsend, 0, [0, 0, 0x50100, 0], [3, 2 + 2^16, 2], none, []⟩

def iK : Inst := { num := 5, ctx := 1, desc := 0x60100, words := wordsOf descN 16, status := .running, ahead := 0, etail := 0, step := 0, phase := .grids 0 1, batch := [⟨2, 0, 0, false, false, false, false, false⟩], plan := [[]], packets := [], idle := none, stops := [], freed := [] }

def sS1 (c : EngCmd) (d : Nat) : State := { sK2 c with insts := [iK], choices := [d] }

def words (st : Nat) : List Nat := [77, st] ++ List.replicate 30 0

def rK (st : Nat) : Rec := { idx := 0, inst := 5, words := ((((words st).map (· % 2 ^ 64)).zipIdx.filter (fun x => x.1 != 0)).map (fun x => (x.2, BitVec.ofNat 64 x.1)) : Store 64) }

def sRc (st : Nat) : State := { sK2 cK with insts := [iK], choices := [7, 21] ++ words st ++ [4,2,64] ++ [1,2] }

def iB : Inst := { iK with phase := .start 1, batch := [], plan := [[0x62000,0,0,0]], packets := [bodyN 1] }

def sV (x : Inst) : State := { base with mem := memS, insts := [x], kernels := [⟨1, 0x70000, 0x60000, 0x1234⟩], teams := [], groups := [] }

def sVw (x : Inst) : State := (x.read (x.desc + 0x2C) 4 (x.read (x.desc + 0x10) 4 (sV x)).2).2

def eh := ((iB.read (iB.desc + 0x2C) 4 (sVw iB)).1).toOption.getD 9

def iG (i : Nat) (b : List BEntry) : Inst := { iB with phase := .grids i 1, plan := [[0x62000,0,0,0], [0x62000,0,0,0]], packets := [bodyN 1, bodyN 1], batch := b }

def gD : Grid := { grid0 with status := .done, complete := true }

def sGd (i : Nat) (b : List BEntry) : State := { sV (iG i b) with grids := [(1, gD)] }

def e1 : BEntry := ⟨3, 4, 5, true, true, true, false, false⟩

def rc : Rec := { idx := 3, inst := 5, words := [(1, 2), (2, 100 + 50 * 2^32), (3, 10 + 4 * 2^32)] }

def coll (landed : List Nat) (n : Nat) : EngCmd := ⟨.co, 5, 0, .coll, 0, [n*2^32, 0x40000, 0x50000, 0x51000, 2, 0x77, 0, 0], landed, none, []⟩

def tmO (c : EngCmd) : Team := { tm0 with cmds := [c], doneCo := 4 }

def sO (c : EngCmd) (ch : List Nat) (r : Nat) : State := { base with teams := [(t0, tmO c)], groups := [(g0, gr0)], choices := ch, ctl := { base.ctl with joined := true, rank := 3 }, mem := ssetLE (ssetLE base.mem 0x51000 8 (3 + r * 2^32)) 0x40000 16 0x000000050000000700000009 }

def vr (r : Nat) := (sO (coll [] 3) [0] r).vread 1 0x51000 8 false

def cd (rk : Nat) (el : List Nat) (rs : List Nat) : CollData := { collid := 0x77, rank := rk, hdr := [3*2^32], elems := el, ranks := rs, ctx := 1, fault := none }

def scd (x : CollData) (ch : List Nat) : State := { (sO (coll [0] 3) ch 7) with colls := [x] }

def sNoC : State := { base with teams := [], choices := [2, 1, 7, 0, 1, 4, 0, 0, 0] }

def ttl (c : List Nat) : State := { base with choices := c }

def sT_2 (p k : Nat) (cr : Core) : State := { base with testPeriods := [(2, p)], clock := k, cores := [(2, cr)], teams := [], choices := [1, 5] }

def crT : Core := {Core.fresh with testDue := true, staging := [⟨1, 0x40000, false, [(3, 7)], [g0], []⟩]}

def gHeld : Group := { gr0 with waitS := some (.power 3), grant := some (0, 5) }

def sPw : State := { base with groups := [(g0, gHeld)], powerAsks := [g0], choices := [2, 7] }

def memM_2 : Memory := ssetLE (ssetLE (ssetLE (ssetLE base.mem 0x12008 8 0x13001) 0x13000 8 0x14001) 0x14000 8 (0x100000 + 0x3B)) 0x100010 8 0x1122334455667788

def sMg (ch : List Nat) : State := { base with mem := memM_2, choices := ch, cores := [], groups := [], teams := [] }

def mg : Migration := ⟨0x100000, 0x40010000, 65536, 1, 0x40000000⟩

def sSw : State := { sMg [] with migrations := [mg], tlb := [⟨1, 0x40000000, 16, 0x10003B, .last 0⟩, ⟨1, 0, 30, 0x3B, .last 0⟩] }

def feB (ctx : Nat) (m : Bool) : FirnEntry := { id := 9, ctx := ctx, key := [1,2,3], codeId := 0, krec := 0x60000, state := .building, base := 0, lines := 0, mapAt := 0, roles := [], lastHit := 0, matching := m }

def sFb (e : FirnEntry) : State := { base with mem := memK 1, firn := [e], builds := [9, 4], kernels := [⟨1, 0x70000, 0x60000, 0x1234⟩] }

def sBd : State := { base with builds := [9], firn := [{ id := 9, ctx := 1, key := [], codeId := 0x1234, krec := 0x60000, state := .building, base := 0, lines := 0, mapAt := 0, roles := [], lastHit := 0, matching := true }] }

def rq (off wide op opnd sq : Nat) : List Nat := [1, 7, 5, 4, 4, 1, off, wide, op, 100, opnd, 0x33, sq, 0, 9, 55, 66]

def cxE : Ctx := { Ctx.fresh 0x10000 with expBase := 0x40000, expLen := 0x1000 }

def sF (ch : List Nat) : State := { base with choices := ch, ctl := { base.ctl with joined := true, rank := 3 }, ctxs := [(1, cxE)], mem := ssetLE base.mem 0x40100 16 0x1122334455667788FFEEDDCCBBAA9988, fabIn := [(15, 5)] }

/-- The request that is drawn in a state, what arrives of it, and its window. -/
def rqS (s : State) (o : Nat) := (s.settleHeld.drawReq o).1

def arS (s : State) (o : Nat) := (s.settleHeld.drawReq o).2.linkArrival (rqS s o).pkt

def winS (s : State) (o : Nat) := let q := rqS s o; (arS s o).2.window q.pkt.ctx q.pkt.offset q.bytes (q.pkt.opc != 2) (q.pkt.opc != 1)

def kp : KeptReply := { src := 7, tag := 5, ogen := 4, reply := { (rqS (sF (rq 0x100 4 0 0 5)) 1).pkt with opc := 0x81 }, expiry := 900 }

def sFk : State := { sF ((rq 0x100 4 0 0 5).set 3 5) with kept := [kp] }

def ftg (opc : Nat) (why : ReqFor) : FabTag := { die := 0, tag := 9, gen := 15, ogen := 3, pkt := { kp.reply with opc := opc, dst := 4 }, sentAt := 10, retries := 1, busy := true, why := why }

def uR (k : UKind) (d : List (Option Nat)) : AUnit := ⟨.fabric 4, k, 0x100, 0x100, 4, 0, 2, 0, 0, d, false, 0⟩

def oR (u : AUnit) : OutOp := ⟨5, .gl, false, [u], 0, 0, some 9, []⟩

def sRp (opc : Nat) (u : AUnit) (ch : List Nat) : State := { sF (ch ++ [0, 9]) with groups := [(g0, { gl0 with out := [oR u] })], fabTags := [ftg opc (.lane g0)] }

def fTO := ftg 2 (.lane g0)

def sTO (r k : Nat) : State := { sRp 2 (uR .store []) [] with fabTags := [{fTO with retries := r}], clock := k }

def dl : Delta := { die := 0, holder := 4, frame := 0x100, offset := 0, xor_ := 5, bytes := 8, tag := some 9, owners := [g0], entry := 0 }

def sDl : State := { sRp 5 (uR .store []) [0, 5, 0, 0, 0, 0] with fabTags := [ftg 5 (.delta 0)], deltas := [dl] }

def hR : RemoteHolder := ⟨0x40100/128, 4, 0⟩

def uPr : UPart := { holder := .rdc 0, line := 0x40100/128, rank := some 4, ctx := 1, op := .add, w := .w32, mor := false, cells := [(0x40104, 0xFF)], owners := [g0] }

def sRe : State := { sF [0,9,0,1,2] with accepted := [hR], upart := [uPr], groups := [(g0,gl0)] }

def sLo : State := { sF [0, 9, 576+4, 5,6] with accepted := [hR, {hR with rank := 5}], remoteHolders := [hR], upart := [uPr], deltas := [dl], fabTags := [ftg 2 (.lane g0)], groups := [(g0, { gl0 with out := [oR (uR .store [])] })] }

def sNJ : State := { sF (rq 0x100 4 0 0 5) with ctl := base.ctl }

def sNone : State := { sF [0, 9, 2, 5, 0, 0] with fabTags := [] }

def sL1 : State := sRp 1 (uR (.load false) [some 40]) [1, 3, 0x77, 5, 8, 0]

def sL2 : State := sRp 1 (uR (.load false) [some 40]) [0, 3, 0x77, 5, 8, 0]

def sL3 : State := sRp 1 (uR (.load false) [some 40]) [0, 5, 0x77, 5, 8, 0]

def sL5 : State := sRp 1 (uR (.load false) [some 40]) ([0, 5, 0x77, 5, 8, 1] ++ List.range 16)

def gL3 : Group := { gl0 with out := [oR (uR (.load false) [some 40])] }

def sL4 : State := sRp 2 (uR .store []) [0, 5, 0x77, 5, 8, 0]

def gL4 : Group := { gl0 with out := [oR (uR .store [])] }

def sUnj : State := { sLo with ctl := {sLo.ctl with joined := false} }

def sRy : State := sF [0,9,0,1,2]

def sbp : State := { sb lpg with mem := [] }

def spgB := (sbp.loadProgram (qb lpg).wins 0x61000)

def gP2 : Group := { gr0 with s := [(1, 2)] }

def instM : Inst := { inst0 with words := wordsOf descN 16, desc := 0x60100 }

def sRm : State := { sR (gR 5 7) instM with mem := memS }

def gAsk : Group := { gHeld with grant := none }

def i4 : Inst := { iB with phase := .start 4 }

def recM : Nat := recN + 0x4B594E31 + 0xAA * 2^32 + 2^(8*0x1C) + 2^(8*0x1E) + 0xA8 * 2^(8*0x24)

def nmT : Nat := 0x6B

def sld2 : State := { sb lld with mem := ssetLE (ssetLE (memK 1) 0x60000 168 recM) 0x600A8 2 nmT }


def sGr : State := { sG grD 5 with ctxs := [(1, { Ctx.fresh 0x10000 with resBase := 0x300000, resLen := 0x10000 })] }

def rdR := sGr.vread 1 0x50000 8 true

def chL : List Nat := [1, 2, 3, 4, 2, 5, 6, 2, 9]

def sNoL : State := { sNoC with choices := chL }

def scL : State := scd (cd 7 [] [3, 7]) [2, 9]

def gHf : Group := { gH 0x80000000 0 with out := gFar.out }

def sHf : State := { sH 0x80000000 0 tgT with groups := [(g0, tgT), (hg, gHf)] }

def sJg : State := { sB' (gJ 9) (tmJ (some 4)) with grids := [(1, grid0)] }

def cT : EngCmd := kvc_2 .kvtierCi 0x50000 0x50100 2

def sKm : State := { sK3 cK with teams := [(t0, tmK cK), (⟨1, 0⟩, tmK { cT with landed := [1] })] }

def rKs : Rec := { rK 1 with idx := 2, sends := [(0, 0, 5)] }

def sKs : State := { sS1 cSm 0 with recs := [rKs] }

def sRcX : State := { sRc 1 with choices := [7, 21] ++ words 1 ++ [4, 2, 63] ++ [1, 2] }

def gSpl : Group := { gr0 with waitS := some .spill }

def bodyF : Nat := bodyN 1 + 0x8000000000 * 2^320

def recF : Nat := recN + 8 * 2^(8*0x20)

def memF : Memory := ssetLE (ssetLE (memK 1) 0x40200 128 bodyF) 0x60000 168 recF

def lbF : List Nat := wordsOf bodyF 16

def sbF : State := { sb lbF with mem := memF }

def sQF : State := { sQL qL bodyF with mem := memF }

def sSpF : State := { sSpw with mem := memF }

def sld3 : State := { sb lld with mem := ssetLE (memK 1) 0x60000 168 recM }

def sLk : State := { sqt qt (hdr 1 8 0) with choices := [1] }

def grPn : Grid := { grP with cluster := true, x := 40 }

def tmPk : Team := { tw with parkSlot := some 1 }

def cxV (b : W64) : Ctx := { cxP with parkBase := b, usedSlots := [1, 0] }

def gWin : Group := { gr0 with out := gFar.out }


def grXn : Grid := { grX with next := 2 }

def outN : State := { sPl grXn with cores := out.cores }

def smU : State := { sm with rebuilds := [⟨3, 0, [0x40000]⟩] }

def spVw := ({ sSpw with mem := memK 2, ctxs := sGr.ctxs } : State).vread 1 0x40200 128 false

def spEw := spVw.2.enterLaunch spI (spVw.1.toOption.getD 0)

def spNw : Nat := match spEw.1 with | .grid n => n | _ => 0

def spTw : Team := (spEw.2.team t0).getD tm0

def spHw : W64 := handleOf spNw spEw.2.draw.1

def spSw := (spEw.2.draw.2.setTeam t0 { spTw with children := spTw.children ++ [⟨spHw, some spNw, false⟩] }).testDependence spNw

def tkH (q : Queue) (h : Nat) := (((sqt q h).pread 0x80000 8).2).linkHeld (h % 256)

def rpS (s : State) (f : FabTag) := ((s.drawReply f).2.linkArrival (s.drawReply f).1)

def nC2 (s : State) := draws ((draws 5 s).1.getD 4 0 % 577) (draws 5 s).2

def nC3 (s : State) := (nC2 s).2.collPacket 6 ((draws 5 s).1.getD 0 0 % 576)

def gCk : Group := { gC with run := some ⟨[(0, 0x40000), (1, 0x4010)], 0⟩ }

/-! Values that the witnesses of more than one hypothesis name -/

def packetW1 : Packet :=
  { seq := 7, kind := 64, status := none, value := BitVec.ofNat 64 0, word3 := BitVec.ofNat 64 0, rej := false, miss := false, sigf := false, failCode := 0, waitGrids := [], waitOther := true, callGrid := none, dropped := none, linkFrom := none : Packet }

def queueW1 : Queue :=
  { desc := 0, func := 0, state := QState.running, disabling := false, ctx := 1, level := 2, seg := 524288, segBytes := 4096, offset := 0, seq := 8, tail := 9, progress := 0, resident := true, shadowTail := none, cseq := 0, comp := 0, ccap := 0, ctail := 0, free := 0, fcap := 0, ftail := 0, prog := 8, newProg := none, words := [0], wins := [(262144, 256, 3), (327680, 128, 1), (0, 0, 0)], packets := [packetW1], body := [30064771136, 327680, 291, 5, 6, 7, 8, 9], pc := 0, q := [(1, BitVec.ofNat 64 5), (2, BitVec.ofNat 64 18446744073709551615), (3, BitVec.ofNat 64 16), (4, BitVec.ofNat 64 264)], loop := none, ran := 0, busy := true, waitv := none, tailAt := 0 : Queue }

def aUnitW1 : AUnit :=
  { space := Space.global, kind := UKind.load false, va := 262144, pa := 262144, bytes := 4, lane := 0, phys := 2, data := 0, cmp := 0, dst := [some 40], mor := false : AUnit }

def outOpW1 : OutOp :=
  { id := 5, path := PathClass.gl, ret := false, units := [aUnitW1], allLanes := (0 : W32), pc := (0 : W64), sent := none : OutOp }

def instW1 : Inst :=
  { num := 5, ctx := 2, desc := 393472, words := [], status := InstStatus.halted, ahead := 0, etail := 0, step := 0, phase := StepPhase.start 2, batch := [], plan := [], packets := [], idle := none, stops := [], freed := [] : Inst }

def chunkW1 : Chunk :=
  { ctx := 1, pa := some 262144, bytes := 16, data := [(262145, BitVec.ofNat 8 7)], recs := [], poison := [], digest := 0 : Chunk }

def chunkW2 : Chunk :=
  { ctx := 1, pa := some 0, bytes := 1048576, data := [(65536, BitVec.ofNat 8 1), (65537, BitVec.ofNat 8 16), (65538, BitVec.ofNat 8 1), (69632, BitVec.ofNat 8 1), (69633, BitVec.ofNat 8 32), (69634, BitVec.ofNat 8 1), (73728, BitVec.ofNat 8 59), (131072, BitVec.ofNat 8 1), (131076, BitVec.ofNat 8 1), (262144, BitVec.ofNat 8 4), (262145, BitVec.ofNat 8 3), (262146, BitVec.ofNat 8 2), (262147, BitVec.ofNat 8 1)], recs := [], poison := [], digest := 0 : Chunk }

def chunkW3 : Chunk :=
  { ctx := 2, pa := some 262144, bytes := 16, data := [(262145, BitVec.ofNat 8 7)], recs := [], poison := [], digest := 0 : Chunk }

def bankW1 : Bank :=
  { status := (2 : W64) ^ 63 + (2 : W64) ^ 62 + (5 : W64), addr := (1 : W64), ctx := (2 : W64), synd := (3 : W64), time := (4 : W64) : Bank }

def firnEntryW1 : FirnEntry := { id := 9, ctx := 1, key := ([0, 8589934594, 1] ++ List.replicate 13 0), codeId := BitVec.ofNat 64 0, krec := BitVec.ofNat 64 393216, state := FirnState.valid, base := 3145728, lines := 4, mapAt := 0, roles := [], lastHit := 0, matching := true : FirnEntry }

def firnEntryW2 : FirnEntry := { id := 9, ctx := 1, key := ([0, 8589934594, 1] ++ List.replicate 13 0), codeId := BitVec.ofNat 64 0, krec := BitVec.ofNat 64 393216, state := FirnState.rejected, base := 3145728, lines := 4, mapAt := 0, roles := [], lastHit := 0, matching := true : FirnEntry }

def firnEntryW3 : FirnEntry := { id := 9, ctx := 1, key := ([0, 8589934594, 1] ++ List.replicate 13 0), codeId := BitVec.ofNat 64 0, krec := BitVec.ofNat 64 393216, state := FirnState.building, base := 3145728, lines := 4, mapAt := 0, roles := [], lastHit := 0, matching := true : FirnEntry }

def packetW2 : Packet :=
  { seq := 7, kind := 64, status := none, value := BitVec.ofNat 64 0, word3 := BitVec.ofNat 64 0, rej := false, miss := false, sigf := false, failCode := 0, waitGrids := [], waitOther := false, callGrid := some 2, dropped := none, linkFrom := none : Packet }

def queueW2 : Queue :=
  { desc := 0, func := 0, state := QState.running, disabling := false, ctx := 1, level := 2, seg := 524288, segBytes := 4096, offset := 0, seq := 8, tail := 9, progress := 0, resident := true, shadowTail := none, cseq := 0, comp := 0, ccap := 0, ctail := 0, free := 0, fcap := 0, ftail := 0, prog := 8, newProg := none, words := [0], wins := [(262144, 256, 3), (327680, 128, 1), (0, 0, 0)], packets := [packetW2], body := [30064771136, 327680, 291, 5, 6, 7, 8, 9], pc := 0, q := [(1, BitVec.ofNat 64 5), (2, BitVec.ofNat 64 18446744073709551615), (3, BitVec.ofNat 64 16), (4, BitVec.ofNat 64 264)], loop := none, ran := 0, busy := true, waitv := none, tailAt := 0 : Queue }

def gridW1 : Grid :=
  { ctx := 1, x := 2, y := 2, z := 1, krec := BitVec.ofNat 64 0, codeId := BitVec.ofNat 64 0, roles := [{ groups := 0, allot := 0, entry := BitVec.ofNat 64 0, base := BitVec.ofNat 64 0 : RoleEntry }, { groups := 0, allot := 0, entry := BitVec.ofNat 64 0, base := BitVec.ofNat 64 0 : RoleEntry }, { groups := 0, allot := 0, entry := BitVec.ofNat 64 0, base := BitVec.ofNat 64 0 : RoleEntry }, { groups := 1, allot := 64, entry := BitVec.ofNat 64 32768, base := BitVec.ofNat 64 16384 : RoleEntry }], origRoles := [], scratch := 4096, cluster := false, coresident := false, fmt := BitVec.ofNat 32 0, level := 1, entered := 0, zeroSince := none, policy := 0, phase := LaunchPhase.placed, complete := false, depAddr := BitVec.ofNat 64 0, depVal := BitVec.ofNat 64 0, sigAddr := BitVec.ofNat 64 0, sigVal := BitVec.ofNat 64 0, sigLost := false, argCopy := BitVec.ofNat 64 0, argBytes := 0, issuer := Issuer.none, depth := 0, next := 4, ended := 0, residual := none, rejected := false, missed := false, status := GridStatus.running, seqBase := BitVec.ofNat 64 0, step := BitVec.ofNat 64 0, inst := none, parked := [] : Grid }

def laneEntryW1 : LaneEntry :=
  { target := BitVec.ofNat 64 16384, k := [(3, BitVec.ofNat 64 9)], fmt := BitVec.ofNat 32 5, exm := BitVec.ofNat 32 255 : LaneEntry }

def aUnitW2 : AUnit :=
  { space := Space.global, kind := UKind.store, va := 262148, pa := 262148, bytes := 4, lane := 0, phys := 2, data := 4886718345, cmp := 0, dst := [], mor := false : AUnit }

def aUnitW3 : AUnit :=
  { space := Space.host, kind := UKind.store, va := 262144, pa := 262144, bytes := 4, lane := 0, phys := 2, data := 4886718345, cmp := 0, dst := [], mor := false : AUnit }

def firnEntryW4 : FirnEntry := { id := 9, ctx := 1, key := [], codeId := (4660 : W64), krec := (393216 : W64), state := FirnState.building, base := 0, lines := 0, mapAt := 0, roles := [], lastHit := 0, matching := true : FirnEntry }

def firnEntryW5 : FirnEntry := { id := 9, ctx := 1, key := [], codeId := (4660 : W64), krec := (549755813888 : W64), state := FirnState.building, base := 0, lines := 0, mapAt := 0, roles := [], lastHit := 0, matching := true : FirnEntry }

def bEntryW1 : BEntry :=
  { idx := 5, pos := 0, len := 1, sample := true, dec := true, emitted := false, counted := false, ended := false : BEntry }

def bEntryW2 : BEntry :=
  { idx := 5, pos := 0, len := 1, sample := false, dec := true, emitted := false, counted := false, ended := false : BEntry }

def instW2 : Inst :=
  { num := 2, ctx := 1, desc := 327680, words := (List.replicate 32 0), status := InstStatus.running, ahead := 0, etail := 0, step := 0, phase := StepPhase.grids 0 1, batch := [bEntryW2], plan := [[]], packets := [], idle := none, stops := [], freed := [] : Inst }

def gridW2 : Grid :=
  { ctx := 1, x := 2, y := 2, z := 1, krec := BitVec.ofNat 64 0, codeId := BitVec.ofNat 64 0, roles := [{ groups := 0, allot := 0, entry := BitVec.ofNat 64 0, base := BitVec.ofNat 64 0 : RoleEntry }, { groups := 0, allot := 0, entry := BitVec.ofNat 64 0, base := BitVec.ofNat 64 0 : RoleEntry }, { groups := 0, allot := 0, entry := BitVec.ofNat 64 0, base := BitVec.ofNat 64 0 : RoleEntry }, { groups := 1, allot := 64, entry := BitVec.ofNat 64 32768, base := BitVec.ofNat 64 16384 : RoleEntry }], origRoles := [], scratch := 4096, cluster := false, coresident := false, fmt := BitVec.ofNat 32 0, level := 1, entered := 0, zeroSince := none, policy := 0, phase := LaunchPhase.placed, complete := true, depAddr := BitVec.ofNat 64 0, depVal := BitVec.ofNat 64 0, sigAddr := BitVec.ofNat 64 0, sigVal := BitVec.ofNat 64 0, sigLost := false, argCopy := BitVec.ofNat 64 0, argBytes := 0, issuer := Issuer.none, depth := 0, next := 4, ended := 0, residual := none, rejected := false, missed := false, status := GridStatus.done, seqBase := BitVec.ofNat 64 0, step := BitVec.ofNat 64 0, inst := none, parked := [] : Grid }

def gridW3 : Grid :=
  { ctx := 1, x := 2, y := 2, z := 1, krec := BitVec.ofNat 64 0, codeId := BitVec.ofNat 64 0, roles := [{ groups := 0, allot := 0, entry := BitVec.ofNat 64 0, base := BitVec.ofNat 64 0 : RoleEntry }, { groups := 0, allot := 0, entry := BitVec.ofNat 64 0, base := BitVec.ofNat 64 0 : RoleEntry }, { groups := 0, allot := 0, entry := BitVec.ofNat 64 0, base := BitVec.ofNat 64 0 : RoleEntry }, { groups := 1, allot := 64, entry := BitVec.ofNat 64 32768, base := BitVec.ofNat 64 16384 : RoleEntry }], origRoles := [], scratch := 4096, cluster := false, coresident := false, fmt := BitVec.ofNat 32 0, level := 1, entered := 0, zeroSince := none, policy := 0, phase := LaunchPhase.placed, complete := true, depAddr := BitVec.ofNat 64 0, depVal := BitVec.ofNat 64 0, sigAddr := BitVec.ofNat 64 0, sigVal := BitVec.ofNat 64 0, sigLost := false, argCopy := BitVec.ofNat 64 0, argBytes := 0, issuer := Issuer.none, depth := 0, next := 4, ended := 0, residual := none, rejected := false, missed := false, status := GridStatus.killed, seqBase := BitVec.ofNat 64 0, step := BitVec.ofNat 64 0, inst := none, parked := [] : Grid }

def gridW4 : Grid :=
  { ctx := 1, x := 2, y := 2, z := 1, krec := BitVec.ofNat 64 0, codeId := BitVec.ofNat 64 0, roles := [{ groups := 0, allot := 0, entry := BitVec.ofNat 64 0, base := BitVec.ofNat 64 0 : RoleEntry }, { groups := 0, allot := 0, entry := BitVec.ofNat 64 0, base := BitVec.ofNat 64 0 : RoleEntry }, { groups := 0, allot := 0, entry := BitVec.ofNat 64 0, base := BitVec.ofNat 64 0 : RoleEntry }, { groups := 1, allot := 64, entry := BitVec.ofNat 64 32768, base := BitVec.ofNat 64 16384 : RoleEntry }], origRoles := [], scratch := 4096, cluster := false, coresident := false, fmt := BitVec.ofNat 32 0, level := 1, entered := 0, zeroSince := none, policy := 0, phase := LaunchPhase.placed, complete := true, depAddr := BitVec.ofNat 64 0, depVal := BitVec.ofNat 64 0, sigAddr := BitVec.ofNat 64 0, sigVal := BitVec.ofNat 64 0, sigLost := false, argCopy := BitVec.ofNat 64 0, argBytes := 0, issuer := Issuer.none, depth := 0, next := 4, ended := 0, residual := none, rejected := false, missed := false, status := GridStatus.faulted 3 Cause.quota, seqBase := BitVec.ofNat 64 0, step := BitVec.ofNat 64 0, inst := none, parked := [] : Grid }

def trapW1 : Trap :=
  { cause := Cause.illegal, info := BitVec.ofNat 32 0, eng := false, ln := false, addr := BitVec.ofNat 64 0, lanes := BitVec.ofNat 32 0, orig := BitVec.ofNat 64 0 : Trap }

def fabPktW1 : FabPkt :=
  { opc := 2, vc := 0, dst := 4, src := 7, tag := 5, gen := 4, ogen := 4, rty := false, status := 0, offset := 256, time := 100, attr := 4, opnd := 0, cmp := 51, ctx := 1, seq := 5, data := [] : FabPkt }

def fabTagW1 : FabTag :=
  { die := 0, tag := 9, gen := 15, ogen := 3, pkt := fabPktW1, sentAt := 10, retries := 1, busy := false, why := ReqFor.lane { core := 0, slot := 0, gid := 0 : GRef } : FabTag }

def groupW1 : Group :=
  { role := Role.control, allot := 64, quarter := 0, age := 0, s := [(1, BitVec.ofNat 64 5), (2, BitVec.ofNat 64 3), (3, BitVec.ofNat 64 7), (4, BitVec.ofNat 64 18446744073709551615), (5, BitVec.ofNat 64 9223372036854775808), (6, BitVec.ofNat 64 256), (7, BitVec.ofNat 64 262144)], c := [(1, BitVec.ofNat 1 1)], k := [(3, BitVec.ofNat 64 4)], yS := [(1, BitVec.ofNat 64 2)], yL := [(1, BitVec.ofNat 64 3)], exmS := BitVec.ofNat 32 4294967295, exmL := BitVec.ofNat 32 4294967295, fmtS := BitVec.ofNat 32 0, fmtL := BitVec.ofNat 32 0, gfS := BitVec.ofNat 32 0, gfL := BitVec.ofNat 32 0, v := [(32, BitVec.ofNat 32 9), (33, BitVec.ofNat 32 1), (64, BitVec.ofNat 32 2)], p := [(0, BitVec.ofNat 32 255)], remap := [0, 1, 2, 3, 4, 5, 6, 7, 8, 9, 10, 11, 12, 13, 14, 15, 16, 17, 18, 19, 20, 21, 22, 23, 24, 25, 26, 27, 28, 29, 30, 31], stack := [], spc := BitVec.ofNat 64 32768, lpc := BitVec.ofNat 64 0, sMarks := true, lMarks := false, laneBase := BitVec.ofNat 64 0, run := none, laneQ := [], spilled := [], enq := 0, ended := 0, waitS := none, waitL := none, sinceS := 0, sinceL := 0, status := GStatus.trapped, trap := none, eng := [], killed := false, obj := [], out := [], nextId := 0, alt := [], look := [], tagDone := BitVec.ofNat 32 0, tagPend := [], tagRet := false, tagSlots := 0, mxIssued := 0, mxDone := 0, mxEnded := 0, mxSeen := 0, mx := [], unflushed := [], grant := none, lastMma := 0, skipS := { nop := false, bp := false, wp := false : Skip }, skipL := { nop := false, bp := false, wp := false : Skip }, lastNs := 0, ticket := none, survDeg := false, morFrames := [], syncId := 0, tagLeft := BitVec.ofNat 32 0 : Group }

/-! Ill-formed terms, one for each check that `WellFormed` makes: the rule named is the one broken. -/

theorem test_ill_formed : List.all [
    (.sst .dyn .i32 1 2 0, .undefinedFn), (.satom .dyn .fadd .w32 1 2 0, .undefinedFn), (.satom .dyn .add .w32 1 2 3, .reservedField),
    (.sloop .dyn 0 ⟨0, 0⟩, .reservedField), (.srd .dyn 1 0x17, .undefinedFn), (.swr .dyn 1 0x0B, .undefinedFn),
    (.iadd hd .f32 false 2 (.v 0) (.v 1), .undefinedFn), (.iadd hd .i64 false 3 (.v 0) (.v 2), .badRegister),
    (.iadd { hd with ch := 1 } .i32 false 2 (.v 0) (.v 1), .badCacheHint), (.iadd { hd with la := 1 } .i32 false 2 (.v 0) (.v 1), .badLookahead),
    (.iadd hd .i32 false 2 (.v 0) .ext64, .badSelector), (.iadd hd .i64 false 2 (.v 1) (.v 2), .badSelector),
    (.iadd { hd with imm := 1 } .i32 false 2 (.v 0) (.v 1), .reservedField), (.iadd { hd with ext := 1 } .i32 false 2 (.v 0) (.v 1), .reservedField),
    (.iadd { hd with ext := 0x100000000 } .i32 false 2 (.v 0) .ext32, .reservedField),
    (.iadd { hd with ext := 1 } .i64 false 2 .ext32 .ext64, .badSelector), (.imul hd .i64 true 2 (.v 0) (.v 2), .undefinedFn),
    (.imad hd .i8 false 2 (.v 0) (.v 1) (.v 3), .undefinedFn), (.iabs hd .n32 false 2 (.v 1), .undefinedFn),
    (.shl hd .i32 false 2 (.v 0) (.v 1), .undefinedFn), (.shl hd .b64 false 3 (.v 0) (.v 1), .badRegister),
    (.sar hd .b32 false 2 (.v 0) (.v 1), .undefinedFn), (.logic hd .b32 1 0 false true 2 (.v 0) (.v 1) (.v 3), .reservedField),
    (.popc hd .i32 2 (.v 1), .undefinedFn), (.bfe hd .b32 (.fixed 0 8) 2 (.v 1), .undefinedFn),
    (.bfe hd .i32 (.fixed 0 8) 2 .imm16, .badSelector), (.hadd2 hd .f32 2 (.v 0) (.v 1), .undefinedFn),
    (.hfma2 hd .f32 2 (.v 0) (.v 1) (.v 3), .undefinedFn), (.cvt hd .b32 .f32 2 (.v 1), .undefinedFn), (.cvt hd .i64 .f32 3 (.v 1), .badRegister),
    (.pack hd .f32 2 (.v 0) (.v 1) (.v 0) (.v 0), .undefinedFn), (.pack hd .f16 2 (.v 0) (.v 1) (.v 3) (.v 0), .reservedField),
    (.unpk hd .i8 4 2 (.v 1), .badImmediate), (.shfl hd .i32 .idx 2 0 (.v 1), .undefinedFn), (.shfl hd .b64 .idx 2 1 (.v 4), .badRegister),
    (.vote hd .all ⟨0, false⟩ 7, .badRegister), (.matchLanes hd .i32 false 2 (.v 1), .undefinedFn),
    (.redux hd .b32 .add 0 false 2 (.v 1), .undefinedFn), (.scan hd .i32 .and false 2 (.v 1), .undefinedFn),
    (.gsort hd .b32 false 2 (.v 1) (.v 3), .undefinedFn), (.gsort hd .i32 false 3 (.v 1) (.v 5), .badRegister),
    (.lend { hd with ga := .pos 1 }, .badGuard), (.ldg hd ⟨.b32, true, .none⟩ 2 (.v 0) (.v 1) 0, .undefinedFn),
    (.ldg hd ⟨.b128, false, .none⟩ 2 (.v 0) (.v 1) 0, .badRegister), (.ldg hd ⟨.b32, false, .none⟩ 2 (.v 1) (.v 0) 0, .badSelector),
    (.lds hd ⟨.b32, false, .e⟩ 2 (.v 0) (.v 1) 0, .undefinedFn), (.stg hd ⟨.i8, false, .none⟩ (.v 0) (.v 1) (.v 3) 0, .undefinedFn),
    (.stg hd ⟨.b64, false, .none⟩ (.v 0) (.v 1) (.v 3) 0, .badSelector), (.rld hd ⟨.b32, false, .none⟩ 2 (.v 1) (.v 3) 0, .badSelector),
    (.atom hd .fadd .w64 false 2 (.v 0) (.v 1) (.v 4) (.v 0) 0, .undefinedFn), (.atom hd .add .w32 true 2 (.v 0) (.v 1) (.v 3) (.v 0) 0, .reservedField),
    (.atom hd .add .w64 false 3 (.v 0) (.v 1) (.v 4) (.v 0) 0, .badRegister), (.red hd .cas .w32 (.v 0) (.v 1) (.v 3) 0, .undefinedFn),
    (.waitp hd .gl (.v 1), .badSelector), (.mma hd false 4 (.v 8) 0 (.k 1), .badRegister), (.mma hd true 8 (.v 8) 0 (.k 1), .badSelector),
    (.mxread hd .b32 2 0 (.v 1), .undefinedFn), (.qbr 1 false 0, .badImmediate), (.qloop 1 0 1, .badImmediate), (.qloop 1 65 1, .badImmediate),
    (.qloop 1 1 0, .badImmediate), (.qcopy 0 1 2 3 2, .badImmediate), (.qfail 0, .badImmediate)]
      (fun (p : Instr × Reject) => p.1.check == some p.2) = true := by decide +kernel

/-- Words that the round-trip statements speak of. -/
theorem meets_round_trips :
    (Instr.qld 3 0 0 8).WellFormed ∧ encodeQueue (.qld 3 0 0 8) = some 0x0230000000000008 ∧
    (Instr.saddImm .dyn 5 6 0xFFF).WellFormed ∧ encodeScalar (.saddImm .dyn 5 6 0xFFF) = some (siWord 2 5 6 0xFFF, 0) ∧
    (Instr.iadd hd .n32 true 2 (.v 0) (.k 1)).WellFormed ∧
    encodeLane (.iadd hd .n32 true 2 (.v 0) (.k 1)) = some (lword 1 2 0 0x101 0 0 0x26 0, 0) := by decide +kernel

def sPlaced : State := State.reset.placeWord 32 (srWord 1 5 0 0 0)
/-- A step from a state whose memories are canonical. -/
theorem meets_memories_canonical : sPlaced.memoriesWf = true ∧ (nextOf (step sPlaced)).isSome = true := by decide +kernel

/-! Single steps. Registers before: s1 = 5, s2 = 3, s3 = 7, s4 = 2^64 - 1, s5 = 2^63, s6 = 0x100; v0 is 9, and v1 is 1, in lane 0
and lane 1 respectively; the results follow from the words' pages. -/

/-- A scalar register after a word. -/
def afterS (i : Instr) (r : SReg) : Option W64 := (nextOf (exec i (sS gr0))).bind (fun t => (t.group g0).map (·.sreg r))
/-- A condition register after a word. -/
def afterC (i : Instr) (r : CReg) : Option Bool := (nextOf (exec i (sS gr0))).bind (fun t => (t.group g0).map (·.creg r))
/-- The scalar stopping point after a word. -/
def afterPc (i : Instr) : Option W64 := (nextOf (exec i (sS gr0))).bind (fun t => (t.group g0).map (·.spc))
/-- The trap that a word takes. -/
def afterTrap (i : Instr) : Option Cause := (nextOf (exec i (sS gr0))).bind (fun t => (t.group g0).bind (fun g => g.trap.map (·.cause)))

theorem test_sadd_wraps : afterS (.saddImm .dyn 9 4 1) 9 = some 0 ∧ afterS (.saddReg .dyn 0 4 4) 0 = some 0 := by decide +kernel
theorem test_sub_mul : afterS (.ssubReg .dyn 9 2 1) 9 = some 0xFFFFFFFFFFFFFFFE ∧ afterS (.smulImm .dyn 9 1 0xFFF) 9 = some (-5) := by
  decide +kernel
/-- The quotient of -2^63 by -1 wraps; a zero divisor gives quotient 0 and the dividend as remainder (R118). -/
theorem test_sdiv_corners : afterS (.sdivReg .dyn false false 9 5 4) 9 = some 0x8000000000000000 ∧
    afterS (.sdivReg .dyn true false 9 1 0) 9 = some 0 ∧ afterS (.sdivReg .dyn false true 9 1 0) 9 = some 5 := by
  decide +kernel
theorem test_shifts : afterS (.ssarImm .dyn 9 5 63) 9 = some 0xFFFFFFFFFFFFFFFF ∧ afterS (.sshrImm .dyn 9 5 63) 9 = some 1 ∧
    afterS (.sshlReg .dyn 9 1 6) 9 = some 5 := by decide +kernel
theorem test_scmp_signs : afterC (.scmp .dyn .lt 4 1 3) 3 = some true ∧ afterC (.scmp .dyn .ltu 4 1 3) 3 = some false := by decide +kernel
theorem test_min_signs : afterS (.sminReg .dyn false 9 4 1) 9 = some 0xFFFFFFFFFFFFFFFF ∧ afterS (.sminReg .dyn true 9 4 1) 9 = some 5 := by
  decide +kernel
/-- The condition holds when the register differs from the inversion bit; a `SLI` is three slots long (R64, R66). -/
theorem test_select_and_length : afterS (.ssel .dyn 9 1 2 1) 9 = some 5 ∧ afterPc (.sli .dyn 9 1) = some 0x8003 ∧
    afterPc (.snop .dyn) = some 0x8001 := by decide +kernel
/-- How the grid of the group's team stands after a word. -/
def afterGrid (i : Instr) : Option GridStatus := (nextOf (exec i (sS gr0))).bind (fun t => (t.grid 1).map (·.status))
/-- `TRAP` is the group's trap; a word of the handler alone is ILLEGAL, which without a handler faults the grid (Table TRAP-1). -/
theorem test_trap_word : afterTrap (.trap .dyn 5) = some .trapInsn ∧ afterGrid (.hread 1 2) = some (.faulted 0 .illegal) ∧
    afterGrid (.srd .dyn 9 0x20) = some (.faulted 0 .illegal) := by decide +kernel

/-- A lane register after a lane word in the group `gl0`, all lanes enabled. -/
def afterL (i : Instr) (r l : Nat) : Option W32 := (nextOf (exec i (sL gl0))).bind (fun t => (t.group g0).map (fun g => sget g.v (vkey r l)))
/-- A lane predicate after a lane word. -/
def afterP (i : Instr) (p : Nat) : Option W32 := (nextOf (exec i (sL gl0))).bind (fun t => (t.group g0).map (fun g => sget g.p p))

/-- v1 is 9 and v2 is 2 in lane 0; v1 is 1 in lane 1. -/
theorem test_lane_values : gl0.v = [(32, 9), (33, 1), (64, 2)] ∧ vkey 1 0 = 32 ∧ vkey 2 0 = 64 := by decide
theorem test_iadd_isub : afterL (.iadd hd .i32 false 8 (.v 1) (.v 2)) 8 0 = some 11 ∧
    afterL (.isub hd .i32 false 8 (.v 2) (.v 1)) 8 0 = some 0xFFFFFFF9 := by decide +kernel
theorem test_imul_hi_imad : afterL (.imul { hd with imm := 0xFFFF } .i32 true 8 (.v 1) .imm16) 8 0 = some 0xFFFFFFFF ∧
    afterL (.imad hd .n32 false 8 (.v 1) (.v 1) (.v 2)) 8 0 = some 83 := by decide +kernel
theorem test_bits : afterL (.popc hd .b32 8 (.v 1)) 8 0 = some 2 ∧ afterL (.clz hd .b32 8 (.v 1)) 8 0 = some 28 ∧
    afterL (.brev hd .b32 8 (.v 1)) 8 0 = some 0x90000000 := by decide +kernel
theorem test_bfe_signs : afterL (.bfe hd .i32 (.fixed 0 4) 8 (.v 1)) 8 0 = some 0xFFFFFFF9 ∧
    afterL (.bfe hd .n32 (.fixed 0 4) 8 (.v 1)) 8 0 = some 9 := by decide +kernel
/-- 1.0 + 1.0 is 2.0; 3.5 of FP16 to FP32; 2.5 rounds to even (R124). -/
theorem test_float : afterL (.fadd hd 8 (.inl 17) (.inl 17)) 8 0 = some 0x40000000 ∧
    afterL (.cvt { hd with ext := 0x4300 } .f32 .f16 8 .ext32) 8 0 = some 0x40600000 ∧
    afterL (.frnd { hd with ext := 0x40200000 } .f32 false 8 .ext32) 8 0 = some 0x40000000 := by decide +kernel
theorem test_cross_lane : afterL (.redux hd .n32 .add 0 false 8 (.v 1)) 8 31 = some 10 ∧
    afterL (.getl hd 8) 8 31 = some 31 ∧ afterL (.bcast hd .b32 8 1 (.inl 1)) 8 0 = some 1 := by decide +kernel
theorem test_isetp_elect : afterP (.isetp hd .n32 .gt 3 (.v 1) (.inl 1)) 3 = some 1 ∧ afterP (.elect hd 3) 3 = some 1 := by decide +kernel

/-- A queue register after a word on the packet's program; q1 holds 5, q2 2^64 - 1 and q4 0x108. -/
def afterQ (i : Instr) (r : Nat) : Option W64 := (nextOf (exec i (sQ_2 q0))).bind (fun t => (t.queue 3).map (fun q => sget q.q r))
theorem test_queue_words : afterQ (.qadd 6 2 (.imm 1)) 6 = some 0 ∧ afterQ (.qcmp 6 1 2 .lt) 6 = some 0 ∧
    afterQ (.qcmp 6 1 2 .ltu) 6 = some 1 ∧ afterQ (.qmovi 6 0x80000000) 6 = some 0xFFFFFFFF80000000 := by decide +kernel

/-! Witnesses: for every statement with hypotheses, states and operands that meet them. Above each group stand the arguments that
the statement is applied to; a hypothesis that an earlier group of the same theorem already shows is not repeated. -/

theorem meets_StepRunsStreamWord :
    -- StepRunsStreamWord sP sP1 sP2 0 0 false [] g0 gP (.saddReg .dyn 5 6 7)
    WordStands sP1 sP2 g0 gP false (Instr.saddReg Bt.dyn (5 : SReg) (6 : SReg) (7 : SReg)) ∧
    (sP.agenda = [if false = true then Move.lane 0 0 else Move.scalar 0 0]) ∧
    sP.fatal = false ∧
    sP.inReset = false ∧
    ({ sP with agenda := [] }.ready 0 0 false)[({ sP with agenda := [] }.pick ({ sP with agenda := [] }.ready 0 0
      false).length).fst]? = some (g0, gP) ∧
    sP1 = ({ sP with agenda := [] }.pick ({ sP with agenda := [] }.ready 0 0 false).length).snd.served g0 0 false ∧
    sP1.group g0 = some gP ∧
    gP.mayIssue false = true ∧
    gP.stopping = none ∧
    sP1.heldUp g0 gP false = false ∧
    (false = false → gP.owesAccess = false) ∧
    sP1.rewait g0 gP false = none ∧
    NoBreakpoint sP2 g0 gP false :=
  ⟨⟨by decide, by decide, _, _, _, rfl, rfl, by decide, by decide, by decide, by decide, by decide +kernel, by decide, by decide, by decide⟩,
    (by unfold NoBreakpoint; decide +kernel)⟩

theorem meets_LineSlotsDecode :
    -- LineSlotsDecode sP 1 ((match (sP.fetchLine 1 (codeLine false 0x8000)).1 with | .ok x => x.1 | .error _ => ⟨0,true,true…
    (decodeScalar (sP.codeBytes 1 (match (sP.fetchLine 1 (codeLine false 32768)).fst with | Except.ok x => x.fst | Except.error a => { pa := 0, r := true, w := true, x := true, host := false, mor := false : Xl }) (8 + 0 * 4) 4) 0 = Except.ok (Instr.saddReg Bt.dyn (5 : SReg) (6 : SReg) (7 : SReg))) ∧
    (isSlWord (sP.codeBytes 1 (match (sP.fetchLine 1 (codeLine false 32768)).fst with | Except.ok x => x.fst | Except.error a => { pa := 0, r := true, w := true, x := true, host := false, mor := false : Xl }) (8 + 0 * 4) 4) = false) ∧
    -- (LineSlotsDecode codeL2 1 xlC 1 0 (.iadd h1z .i64 true 8 (.v 0) .ext64)).2.2.2 (codeL2.codeBytes 1 xlC 8 12) (codeL2.c…
    decodeLane (codeL2.codeBytes 1 xlC 8 12) (codeL2.codeBytes 1 xlC 20 12) = Except.ok (Instr.iadd h1z LType.i64 true (8 :
      VReg) (Sel.v (0 : VReg)) Sel.ext64) ∧
    (codeL2.codeBytes 1 xlC 8 12 = codeL2.codeBytes 1 xlC (8 + 0 * 12) 12 ∧
    codeL2.codeBytes 1 xlC 20 12 = codeL2.codeBytes 1 xlC (8 + (0 + 1) * 12) 12 ∧
    isDoubleSlot (codeL2.codeBytes 1 xlC 8 12) = true ∧
    0 ≠ 9 ∧
    startMark 1 (0 + 1) = false ∧
    codeL2.codeBytes 1 xlC 20 12 < 2 ^ 64) ∧
    -- LineSlotsDecode codeS 1 xlC 1 0 (.sli .dyn 3 0x8000000000000001)
    decodeScalar (codeS.codeBytes 1 xlC (8 + 0 * 4) 4) (codeS.codeBytes 1 xlC (8 + (0 + 1) * 4) 8) = Except.ok (Instr.sli
      Bt.dyn (3 : SReg) (9223372036854775809 : W64)) ∧
    (0 ≤ 27 ∧
    startMark 1 (0 + 2) = false ∧
    isSlWord (codeS.codeBytes 1 xlC (8 + 0 * 4) 4) = true) ∧
    -- LineSlotsDecode codeL1 1 xlC 1 0 (.iadd h0 .i32 true 8 (.v 0) (.v 1))
    decodeLane (codeL1.codeBytes 1 xlC (8 + 0 * 12) 12) 0 = Except.ok (Instr.iadd h0 LType.i32 true (8 : VReg) (Sel.v (0 :
      VReg)) (Sel.v (1 : VReg))) ∧
    isDoubleSlot (codeL1.codeBytes 1 xlC (8 + 0 * 12) 12) = false :=
  ⟨(except_of (by decide +kernel) (by decide +kernel)), by decide +kernel, (except_of (by decide +kernel) (by decide +kernel)),
    by decide +kernel, (except_of (by decide +kernel) (by decide +kernel)), by decide +kernel,
    (except_of (by decide +kernel) (by decide +kernel)), by decide +kernel⟩

theorem meets_LaneIntegerResults :
    -- LaneIntegerResults (sL gV) g0 gV h0 .i32 32 true true 8 (.v 0) (.v 1) (.v 4)
    LaneAt (sL gV) g0 gV ∧
    (LType.i32, 32, true) ∈ intTypes :=
  by unfold LaneAt; decide +kernel

theorem meets_DivisionAndProductRules :
    -- DivisionAndProductRules.1 (sS gr0) g0 gr0 .dyn 3 5 4 0
    ScalarAt (sS gr0) g0 gr0 ∧
    gr0.sreg (4 : SReg) ≠ (0 : W64) ∧
    BitVec.toInt (gr0.sreg (5 : SReg)) = -(2 : Int) ^ 63 ∧
    BitVec.toInt (gr0.sreg (4 : SReg)) = (-1 : Int) ∧
    -- DivisionAndProductRules.1 (sS gr0) g0 gr0 .dyn 3 4 0 0xFFF
    gr0.sreg (0 : SReg) = (0 : W64) ∧
    BitVec.signExtend 64 (4095 : BitVec 12) ≠ (0 : W64) ∧
    -- DivisionAndProductRules.2 (sL gV) g0 gV h1 .i32 true 8 (.v 0) (.v 1)
    LaneAt (sL gV) g0 gV ∧
    (LType.i32, true) ∈ [(LType.i32, true), (LType.n32, false)] :=
  by unfold LaneAt ScalarAt; decide +kernel

theorem meets_ShiftCountRules :
    -- ShiftCountRules.1 (sL gV) g0 gV h1 .b32 .i32 32 true 8 (.v 0) (.v 1)
    LaneAt (sL gV) g0 gV ∧
    (LType.b32, LType.i32, 32) ∈ [(LType.b32, LType.i32, 32), (LType.b64, LType.i64, 64)] ∧
    -- ShiftCountRules.2 (sS gr0) g0 gr0 .dyn 3 5 4 63
    ScalarAt (sS gr0) g0 gr0 :=
  by unfold LaneAt ScalarAt; decide +kernel

theorem meets_LaneBitwiseResults :
    -- LaneBitwiseResults (sL gV) g0 gV h1 .b32 32 8 (.v 0) (.v 1) (.v 2) 5 6 true false true ⟨0, true⟩ (.fixed 4 8)
    LaneAt (sL gV) g0 gV ∧
    (LType.b32, 32) ∈ [(LType.b32, 32), (LType.b64, 64)] :=
  by unfold LaneAt; decide +kernel

theorem meets_LanePredicateResults :
    -- LanePredicateResults (sL gV) g0 gV h1 .i8 .i8 8 true .f32 23 8 .lt .lt 0x155 2 (.v 0) (.v 1)
    LaneAt (sL gV) g0 gV ∧
    (FTy.f32, 23, 8) ∈ [(FTy.f32, 23, 8), (FTy.f16, 10, 5), (FTy.bf16, 7, 8)] ∧
    (SetpTy.i8, LType.i8, 8, true) ∈ [(SetpTy.i8, LType.i8, 8, true), (SetpTy.i16, LType.i16, 16, true), (SetpTy.i32,
      LType.i32, 32, true), (SetpTy.i64, LType.i64, 64, true), (SetpTy.n8, LType.n8, 8, false), (SetpTy.n16, LType.n16, 16,
      false), (SetpTy.n32, LType.n32, 32, false), (SetpTy.n64, LType.n64, 64, false)] :=
  by unfold LaneAt; decide +kernel

theorem meets_LaneFloatResults :
    -- LaneFloatResults (sL gV) g0 gV h1 .f32 .f32 true true 8 (.v 0) (.v 1) (.v 2)
    LaneAt (sL gV) g0 gV ∧
    (FTy.f32, FFmt.f32) ∈ [(FTy.f32, FFmt.f32), (FTy.f16, FFmt.f16), (FTy.bf16, FFmt.bf16)] :=
  by unfold LaneAt; decide +kernel

theorem meets_FloatSpecialValues :
    -- FloatSpecialValues .f32 0x7FC00000 .rup false 0x80000001 0x7F800001 0xFF
    ((FFmt.f32, 2143289344) ∈ [(FFmt.f32, 2143289344), (FFmt.f16, 32256), (FFmt.bf16, 32704)] ∧
    2147483649 < 2 ^ (FFmt.f32.mb + FFmt.f32.eb + 1) ∧
    2139095041 < 2 ^ (FFmt.f32.mb + FFmt.f32.eb + 1) ∧
    255 < 2 ^ (FFmt.f32.mb + FFmt.f32.eb + 1) ∧
    (nanBits FFmt.f32 2147483649 ∨ nanBits FFmt.f32 2139095041) ∧
    (nanBits FFmt.f32 2147483649 ∨ nanBits FFmt.f32 2139095041 ∨ nanBits FFmt.f32 255) ∧
    finBits FFmt.f32 2147483649 ∧
    -- FloatSpecialValues .f16 0x7E00 .rdn false 0xFFFF 0x7BFF 0xFF
    (FFmt.f16, 32256) ∈ [(FFmt.f32, 2143289344), (FFmt.f16, 32256), (FFmt.bf16, 32704)] ∧
    65535 < 2 ^ (FFmt.f16.mb + FFmt.f16.eb + 1) ∧
    31743 < 2 ^ (FFmt.f16.mb + FFmt.f16.eb + 1) ∧
    255 < 2 ^ (FFmt.f16.mb + FFmt.f16.eb + 1) ∧
    (nanBits FFmt.f16 65535 ∨ nanBits FFmt.f16 31743) ∧
    (nanBits FFmt.f16 65535 ∨ nanBits FFmt.f16 31743 ∨ nanBits FFmt.f16 255) ∧
    nanBits FFmt.f16 65535 ∧
    ¬nanBits FFmt.f16 31743 ∧
    -- FloatSpecialValues .bf16 0x7FC0 .rtz true 0x0080 0x8080 0xFF
    (FFmt.bf16, 32704) ∈ [(FFmt.f32, 2143289344), (FFmt.f16, 32256), (FFmt.bf16, 32704)] ∧
    128 < 2 ^ (FFmt.bf16.mb + FFmt.bf16.eb + 1) ∧
    32896 < 2 ^ (FFmt.bf16.mb + FFmt.bf16.eb + 1)) ∧
    255 < 2 ^ (FFmt.bf16.mb + FFmt.bf16.eb + 1) ∧
    finBits FFmt.bf16 128 ∧
    2 ^ FFmt.bf16.mb ≤ 128 ∧
    128 < 2 ^ (FFmt.bf16.mb + FFmt.bf16.eb) ∧
    -- (FloatSpecialValues .f32 0x7FC00000 .rne false 0x7F800001 5 0).2.2.2.2.2.2 true true
    5 < 2 ^ (FFmt.f32.mb + FFmt.f32.eb + 1) ∧
    0 < 2 ^ (FFmt.f32.mb + FFmt.f32.eb + 1) ∧
    nanBits FFmt.f32 2139095041 ∧
    ¬nanBits FFmt.f32 5 :=
  ⟨(by unfold finBits nanBits; decide +kernel), (by unfold finBits nanBits; decide +kernel)⟩

theorem meets_CrossLaneResults :
    -- CrossLaneResults (sL gV) g0 gV h1 .b64 true .down .any ⟨1,true⟩ false 8 0 2 (.v 2) (.v 4)
    LaneAt (sL gV) g0 gV ∧
    (LType.b64, true) ∈ [(LType.b32, false), (LType.b64, true)] ∧
    ((seen (sL gV) gV (resultRegs (8 : VReg) true) []).fst.active h1 = 0 :: List.filter (fun l => BitVec.getLsbD (seen (sL gV)
      gV (resultRegs (8 : VReg) true) []).fst.exm l && (seen (sL gV) gV (resultRegs (8 : VReg) true) []).fst.guard h1.ga l &&
      (seen (sL gV) gV (resultRegs (8 : VReg) true) []).fst.guard h1.gb l) [1, 2, 3, 4, 5, 6, 7, 8, 9, 10, 11, 12, 13, 14, 15,
      16, 17, 18, 19, 20, 21, 22, 23, 24, 25, 26, 27, 28, 29, 30, 31]) ∧
    ((seen (sL gV) gV [] []).fst.active h1 = 0 :: List.filter (fun l => BitVec.getLsbD (seen (sL gV) gV [] []).fst.exm l &&
      (seen (sL gV) gV [] []).fst.guard h1.ga l && (seen (sL gV) gV [] []).fst.guard h1.gb l) [1, 2, 3, 4, 5, 6, 7, 8, 9, 10,
      11, 12, 13, 14, 15, 16, 17, 18, 19, 20, 21, 22, 23, 24, 25, 26, 27, 28, 29, 30, 31]) ∧
    VoteMode.any ≠ VoteMode.ballot ∧
    (true = true ↔ match VoteMode.any with | VoteMode.all => ∀ (m : Nat), m ∈ (seen (sL gV) gV [] [(↑(8 : VReg) : Nat)]).fst.active h1 → ((seen (sL gV) gV [] [(↑(8 : VReg) : Nat)]).fst.pred (↑{ p := (1 : PReg), inv := true : PSel }.p : Nat) m != { p := (1 : PReg), inv := true : PSel }.inv) = true | VoteMode.any => ∃ m, m ∈ (seen (sL gV) gV [] [(↑(8 : VReg) : Nat)]).fst.active h1 ∧ ((seen (sL gV) gV [] [(↑(8 : VReg) : Nat)]).fst.pred (↑{ p := (1 : PReg), inv := true : PSel }.p : Nat) m != { p := (1 : PReg), inv := true : PSel }.inv) = true | x => ∀ (m : Nat), m ∈ (seen (sL gV) gV [] [(↑(8 : VReg) : Nat)]).fst.active h1 → ∀ (n : Nat), n ∈ (seen (sL gV) gV [] [(↑(8 : VReg) : Nat)]).fst.active h1 → (seen (sL gV) gV [] [(↑(8 : VReg) : Nat)]).fst.pred (↑{ p := (1 : PReg), inv := true : PSel }.p : Nat) m = (seen (sL gV) gV [] [(↑(8 : VReg) : Nat)]).fst.pred (↑{ p := (1 : PReg), inv := true : PSel }.p : Nat) n) ∧
    -- CrossLaneResults (sL {gV with exmL := 0}) g0 {gV with exmL := 0} h1 .b32 false .idx .ballot ⟨1,true⟩ true 8 0 2 (.v 2)…
    LaneAt (sL { gV with exmL := (0 : W32) }) g0 { gV with exmL := (0 : W32) } ∧
    (LType.b32, false) ∈ [(LType.b32, false), (LType.b64, true)] ∧
    (seen (sL { gV with exmL := (0 : W32) }) { gV with exmL := (0 : W32) } (resultRegs (8 : VReg) false) []).fst.active h1 = [] ∧
    (seen (sL { gV with exmL := (0 : W32) }) { gV with exmL := (0 : W32) } [] []).fst.active h1 = [] :=
  by unfold LaneAt; decide +kernel

theorem meets_ReductionScanSortResults :
    -- ReductionScanSortResults (sL gV) g0 gV h1 .i32 true .add 3 true false true 8 (.v 0) (.v 1) (seen (sL gV) gV [8] []).1 …
    seen (sL gV) gV [(↑(8 : VReg) : Nat)] [] = ((seen (sL gV) gV [8] []).fst, (seen (sL gV) gV [8] []).snd) ∧
    (LaneAt (sL gV) g0 gV ∧
    (LType.i32, true) ∈ [(LType.i32, true), (LType.n32, false)] ∧
    (seen (sL gV) gV [8] []).fst.active h1 ≠ []) ∧
    -- ReductionScanSortResults (sL {gV with exmL := 0}) g0 {gV with exmL := 0} h1 .i32 true .min 3 false true false 8 (.v 0)…
    seen (sL { gV with exmL := (0 : W32) }) { gV with exmL := (0 : W32) } [(↑(8 : VReg) : Nat)] [] = ((seen (sL
      { gV with exmL := (0 : W32) }) { gV with exmL := (0 : W32) } [8] []).fst, (seen (sL { gV with exmL := (0 : W32) })
      { gV with exmL := (0 : W32) } [8] []).snd) ∧
    (LaneAt (sL { gV with exmL := (0 : W32) }) g0 { gV with exmL := (0 : W32) } ∧
    (seen (sL { gV with exmL := (0 : W32) }) { gV with exmL := (0 : W32) } [8] []).fst.active h1 = []) ∧
    -- ReductionScanSortResults (sL gV) g0 gV h1 .n32 false .max 3 true false false 8 (.v 0) (.v 1) (seen (sL gV) gV [8] []).…
    (LType.n32, false) ∈ [(LType.i32, true), (LType.n32, false)] :=
  ⟨rfl, (by unfold LaneAt; decide +kernel), rfl, (by unfold LaneAt; decide +kernel), by decide +kernel⟩

theorem meets_LaneConversionResults :
    -- LaneConversionResults (sL gV) g0 gV h1 .f16 .f32 .i8 8 3 8 (.v 0) (.v 1) (.v 2) (.v 3)
    LaneAt (sL gV) g0 gV ∧
    (LType.i8, 8) ∈ [(LType.i8, 8), (LType.n8, 8), (LType.e4m3, 8), (LType.e5m2, 8), (LType.dpt8, 8)] ∧
    (LType.i8, 8) ∈ [(LType.i8, 8), (LType.n8, 8), (LType.i4, 4)] ∧
    (↑(3 : Fin 8) : Nat) < (32 / 8 : Nat) ∧
    -- LaneConversionResults (sL gV) g0 gV h1 .dpt8 .f16 .i4 4 7 8 (.v 0) (.v 1) (.v 2) (.v 3)
    (LType.i4, 4) ∈ [(LType.i4, 4), (LType.e2m1, 4)] ∧
    (LType.i4, 4) ∈ [(LType.i8, 8), (LType.n8, 8), (LType.i4, 4)] ∧
    (↑(7 : Fin 8) : Nat) < (32 / 4 : Nat) ∧
    -- LaneConversionResults (sL gV) g0 gV h1 .i8 .f32 .f16 16 1 8 (.v 0) (.v 1) (.v 2) (.v 3)
    (LType.f16, 16) ∈ [(LType.f16, 16), (LType.bf16, 16)] ∧
    (LType.f16, 16) ∈ [(LType.e4m3, 8), (LType.e5m2, 8), (LType.dpt8, 8), (LType.e2m1, 4), (LType.f16, 16), (LType.bf16, 16)] ∧
    (↑(1 : Fin 8) : Nat) < (32 / 16 : Nat) :=
  by unfold LaneAt; decide +kernel

theorem meets_LaneControlResults_1 :
    -- LaneControlResults (sLC gC) ((sLC gC).view gC.endLook).2 g0 gC h1 ((sLC gC).view gC.endLook).1 1 2 1 2 (.near 1) e0 []
    (sLC gC).view gC.endLook = (((sLC gC).view gC.endLook).fst, ((sLC gC).view gC.endLook).snd) ∧
    (LaneAt (sLC gC) g0 gC ∧
    ((sLC gC).view gC.endLook).snd.pushMeet g0 gC = none ∧
    laneMask (((sLC gC).view gC.endLook).fst.active h1) ≠ (0 : W32) ∧
    gC.exmL &&& ~~~laneMask (((sLC gC).view gC.endLook).fst.active h1) ≠ (0 : W32) ∧
    nextLPc gC.lpc 1 ≠ BitVec.ofInt 64 (((↑(BitVec.toNat gC.lpc / 16) : Int) + BitVec.toInt (1 : BitVec 14)) * (16 : Int) +
      (↑(↑(2 : Fin 16) : Nat) : Int)) ∧
    (gC.stack = [] ∨ gC.stack = [e0] ∧ e0.kind ≠ StackKind.call) ∧
    gC.stack = [] ∧
    (sLC gC).hostOf g0 gC = false ∧
    gC.out = [] ∧
    gC.mx = [] ∧
    gC.look = [] ∧
    gC.run = some { k := [(0, BitVec.ofNat 64 262144), (1, BitVec.ofNat 64 262144)], depth := 0 : Run }) ∧
    -- LaneControlResults (sLC gC0) ((sLC gC0).view gC0.endLook).2 g0 gC0 h0 ((sLC gC0).view gC0.endLook).1 1 3 0 2 (.far 1) …
    (sLC gC0).view gC0.endLook = (((sLC gC0).view gC0.endLook).fst, ((sLC gC0).view gC0.endLook).snd) ∧
    (LaneAt (sLC gC0) g0 gC0 ∧
    ((sLC gC0).view gC0.endLook).snd.pushMeet g0 gC0 = none ∧
    laneMask (((sLC gC0).view gC0.endLook).fst.active h0) = (0 : W32) ∧
    gC0.stack = [{ e0 with kind := StackKind.call }] ∧
    { e0 with kind := StackKind.call }.kind = StackKind.call ∧
    gC0.run = some { k := [(0, BitVec.ofNat 64 262144), (1, BitVec.ofNat 64 262144)], depth := 0 : Run } ∧
    { k := [(0, BitVec.ofNat 64 262144), (1, BitVec.ofNat 64 262144)], depth := 0 : Run }.depth < gC0.stack.length) ∧
    -- LaneControlResults (sLC gC2) ((sLC gC2).view gC2.endLook).2 g0 gC2 h0 ((sLC gC2).view gC2.endLook).1 1 3 0 2 (.far 1) …
    (sLC gC2).view gC2.endLook = (((sLC gC2).view gC2.endLook).fst, ((sLC gC2).view gC2.endLook).snd) ∧
    LaneAt (sLC gC2) g0 gC2 ∧
    ((sLC gC2).view gC2.endLook).snd.pushMeet g0 gC2 = none ∧
    laneMask (((sLC gC2).view gC2.endLook).fst.active h0) ≠ (0 : W32) ∧
    (gC2.exmL &&& ~~~laneMask (((sLC gC2).view gC2.endLook).fst.active h0) = (0 : W32) ∨ nextLPc gC2.lpc 1 = BitVec.ofInt 64
      (((↑(BitVec.toNat gC2.lpc / 16) : Int) + BitVec.toInt (0 : BitVec 14)) * (16 : Int) + (↑(↑(2 : Fin 16) : Nat) : Int))) ∧
    (gC2.stack = [] ∨ gC2.stack = [{ e0 with lpc := (16385 : W64), pnd := false }] ∧
      { e0 with lpc := (16385 : W64), pnd := false }.kind ≠ StackKind.call) ∧
    gC2.stack = [{ e0 with lpc := (16385 : W64), pnd := false }] ∧
    { e0 with lpc := (16385 : W64), pnd := false }.kind = StackKind.diverge ∧
    { e0 with lpc := (16385 : W64), pnd := false }.pnd = false ∧
    { e0 with lpc := (16385 : W64), pnd := false }.lpc = gC2.lpc ∧
    gC2.run = some { k := [(0, BitVec.ofNat 64 262144), (1, BitVec.ofNat 64 262144)], depth := 0 : Run } ∧
    { k := [(0, BitVec.ofNat 64 262144), (1, BitVec.ofNat 64 262144)], depth := 0 : Run }.depth < gC2.stack.length :=
  ⟨rfl, (by unfold LaneAt; decide +kernel), rfl, (by unfold LaneAt; decide +kernel), rfl, (by unfold LaneAt; decide +kernel)⟩

theorem meets_LaneControlResults_2 :
    -- LaneControlResults (sLC gC3) ((sLC gC3).view gC3.endLook).2 g0 gC3 h0 ((sLC gC3).view gC3.endLook).1 1 3 0 2 (.far 1) …
    (sLC gC3).view gC3.endLook = (((sLC gC3).view gC3.endLook).fst, ((sLC gC3).view gC3.endLook).snd) ∧
    (LaneAt (sLC gC3) g0 gC3 ∧
    ((sLC gC3).view gC3.endLook).snd.pushMeet g0 gC3 = none ∧
    laneMask (((sLC gC3).view gC3.endLook).fst.active h0) ≠ (0 : W32) ∧
    (gC3.exmL &&& ~~~laneMask (((sLC gC3).view gC3.endLook).fst.active h0) = (0 : W32) ∨ nextLPc gC3.lpc 1 = BitVec.ofInt 64
      (((↑(BitVec.toNat gC3.lpc / 16) : Int) + BitVec.toInt (0 : BitVec 14)) * (16 : Int) + (↑(↑(2 : Fin 16) : Nat) : Int))) ∧
    (gC3.stack = [] ∨ gC3.stack = [{ e0 with pnd := false }] ∧ { e0 with pnd := false }.kind ≠ StackKind.call) ∧
    gC3.stack = [{ e0 with pnd := false }] ∧
    { e0 with pnd := false }.kind = StackKind.diverge ∧
    { e0 with pnd := false }.pnd = false ∧
    { e0 with pnd := false }.lpc ≠ gC3.lpc ∧
    gC3.run = some { k := [(0, BitVec.ofNat 64 262144), (1, BitVec.ofNat 64 262144)], depth := 0 : Run } ∧
    { k := [(0, BitVec.ofNat 64 262144), (1, BitVec.ofNat 64 262144)], depth := 0 : Run }.depth < gC3.stack.length) ∧
    -- LaneControlResults (sLC gC5) ((sLC gC5).view gC5.endLook).2 g0 gC5 h0 ((sLC gC5).view gC5.endLook).1 1 3 0 2 (.far 1) …
    (sLC gC5).view gC5.endLook = (((sLC gC5).view gC5.endLook).fst, ((sLC gC5).view gC5.endLook).snd) ∧
    LaneAt (sLC gC5) g0 gC5 ∧
    ((sLC gC5).view gC5.endLook).snd.pushMeet g0 gC5 = none ∧
    laneMask (((sLC gC5).view gC5.endLook).fst.active h0) ≠ (0 : W32) ∧
    (gC5.exmL &&& ~~~laneMask (((sLC gC5).view gC5.endLook).fst.active h0) = (0 : W32) ∨ nextLPc gC5.lpc 1 = BitVec.ofInt 64
      (((↑(BitVec.toNat gC5.lpc / 16) : Int) + BitVec.toInt (0 : BitVec 14)) * (16 : Int) + (↑(↑(2 : Fin 16) : Nat) : Int))) ∧
    (gC5.stack = [] ∨ gC5.stack = [e0] ∧ e0.kind ≠ StackKind.call) ∧
    gC5.stack = [e0] ∧
    e0.kind = StackKind.diverge ∧
    e0.pnd = true ∧
    gC5.run = some { k := [], depth := 0 : Run } ∧
    { k := [], depth := 0 : Run }.depth < gC5.stack.length :=
  ⟨rfl, (by unfold LaneAt; decide +kernel), rfl, (by unfold LaneAt; decide +kernel)⟩

theorem meets_RegroupResults :
    -- RegroupResults (sL gV) g0 gV h0 2 3 tm0
    LaneAt (sL gV) g0 gV ∧
    g0.isHandler = false ∧
    (sL gV).team g0.team = some tm0 ∧
    tm0.region gV.role = none ∧
    (sL gV).pushMeet g0 gV = none ∧
    gV.out = [] ∧
    gV.alt = [] ∧
    gV.status = GStatus.active ∧
    (sL gV).participants g0.team gV.role = [(g0, gV)] ∧
    ((sL gV).view gV).fst.active h0 ≠ [] ∧
    gV.look = [] ∧
    -- (RegroupResults { sL gV with groups := [(g0, gV), (⟨0,0,1⟩, gV)] } g0 gV h0 2 3 tm0).1 ⟨0,0,1⟩ gV
    LaneAt { sL gV with groups := [(g0, gV), ({ core := 0, slot := 0, gid := 1 : GRef }, gV)] } g0 gV ∧
    { sL gV with groups := [(g0, gV), ({ core := 0, slot := 0, gid := 1 : GRef }, gV)] }.team g0.team = some tm0 ∧
    { sL gV with groups := [(g0, gV), ({ core := 0, slot := 0, gid := 1 : GRef }, gV)] }.pushMeet g0 gV = none ∧
    { core := 0, slot := 0, gid := 1 : GRef } ≠ g0 ∧
    { core := 0, slot := 0, gid := 1 : GRef }.gid ≠ g0.gid ∧
    ({ core := 0, slot := 0, gid := 1 : GRef }, gV) ∈
      { sL gV with groups := [(g0, gV), ({ core := 0, slot := 0, gid := 1 : GRef }, gV)] }.participants g0.team gV.role :=
  by unfold LaneAt; decide +kernel

theorem meets_LaneResultFrame :
    -- LaneResultFrame (sL gV) tIadd g0 gV h1 [.v 0, .v 1] (.iadd h1 .i32 true 8 (.v 0) (.v 1))
    exec (Instr.iadd h1 LType.i32 true (8 : VReg) (Sel.v (0 : VReg)) (Sel.v (1 : VReg))) (sL gV) = Host.Outcome.next tIadd ∧
    LaneAt (sL gV) g0 gV ∧
    RemapOk gV :=
  ⟨(next_of (by decide +kernel)), (by unfold LaneAt RemapOk; decide +kernel)⟩

theorem meets_LaneAccessIssue :
    -- LaneAccessIssue (sL gA) g0 gA h0 (fn .i8) 8 false (.v 0) (.v 2) (.v 1) 1
    LaneAt (sL gA) g0 gA ∧
    ((fn MWidth.i8).atomic = true → (fn MWidth.i8).width = MWidth.b64 ∨ (fn MWidth.i8).width = MWidth.b128) ∧
    (fn MWidth.i8).tag = TagMode.none :=
  by unfold LaneAt; decide +kernel

theorem meets_LaneAtomicAndFabricIssue :
    -- ((LaneAtomicAndFabricIssue (sL gA) g0 gA h0 (fn .b32) .add .w32 true 8 .gl true (.k 0) (.v 0) (.v 1) (.v 2) 16).2.2.2.…
    seen (sL gA) gA [] [] = (wA, sA1) ∧
    (checkLanes (fun s l => s.checkGlobal (s.ctxOf g0) (globalVa h0 (Sel.k (0 : KReg)) (Sel.v (0 : VReg)) (16 : W16) wA l)
      AWidth.w32.bytes AWidth.w32.bytes (!false) true (!false && (AOp.add == AOp.add || AOp.add == AOp.xch || AOp.add ==
      AOp.cas)) (!gA.skipL.wp) (some g0.core) (s.teamIdOf g0)) (wA.active h0) sA1 = ((rA false).fst, (rA false).snd)) ∧
    (LaneAt (sL gA) g0 gA ∧
    ((fn MWidth.b32).atomic = true → (fn MWidth.b32).width = MWidth.b64 ∨ (fn MWidth.b32).width = MWidth.b128) ∧
    gA.pathCount PathClass.st < 63 ∧
    ¬AOp.add ∈ [AOp.xch, AOp.cas, AOp.fadd] ∧
    firstCause (rA false).fst = none ∧
    (∀ (x : Nat × Xl), x ∈ passed (rA false).fst → x.snd.host = false ∧ (rA false).snd.locked x.snd.pa = false)) ∧
    -- ((LaneAtomicAndFabricIssue (sL gA) g0 gA h0 (fn .b32) .add .w32 true 8 .gl true (.k 0) (.v 0) (.v 1) (.v 2) 16).2.2.2.…
    (checkLanes (fun s l => s.checkGlobal (s.ctxOf g0) (globalVa h0 (Sel.k (0 : KReg)) (Sel.v (0 : VReg)) (16 : W16) wA l)
      AWidth.w32.bytes AWidth.w32.bytes (!true) true (!true && (AOp.add == AOp.add || AOp.add == AOp.xch || AOp.add ==
      AOp.cas)) (!gA.skipL.wp) (some g0.core) (s.teamIdOf g0)) (wA.active h0) sA1 = ((rA true).fst, (rA true).snd)) ∧
    (firstCause (rA true).fst = none ∧
    (∀ (x : Nat × Xl), x ∈ passed (rA true).fst → x.snd.host = false ∧ (rA true).snd.locked x.snd.pa = false)) ∧
    -- LaneAtomicAndFabricIssue sFab g0 gA h0 (fn .b64) .fadd .w32 true 8 .rm true (.k 1) (.v 1) (.v 2) (.v 0) 16
    LaneAt sFab g0 gA ∧
    ((fn MWidth.b64).atomic = true → (fn MWidth.b64).width = MWidth.b64 ∨ (fn MWidth.b64).width = MWidth.b128) ∧
    (true = false ∨ AOp.fadd ∈ [AOp.xch, AOp.cas, AOp.fadd]) ∧
    AOp.fadd ∈ [AOp.xch, AOp.cas, AOp.fadd] ∧
    gA.out = [] :=
  ⟨rfl, Prod.eta _ |>.symm, (by unfold LaneAt; decide +kernel), Prod.eta _ |>.symm, by decide +kernel,
    (by unfold LaneAt; decide +kernel)⟩

theorem meets_AccessUnitRules :
    -- AccessUnitRules (fn .b64) 8 h0 (inSpace .global 0x2000) 0x1000 3 4 0x112233445566778899 (fun _ => false) 1
    ((fn MWidth.b64).atomic = true → (fn MWidth.b64).width = MWidth.b64 ∨ (fn MWidth.b64).width = MWidth.b128) ∧
    1 < (fn MWidth.b64).width.bytes / ordUnit (fn MWidth.b64) ∧
    -- (AccessUnitRules (fn .b64) 8 h0 (inSpace .global 0x2000) 0x1000 3 4 0x11 (fun _ => false) 1).2.2.2.2.2.1 ⟨0x2000, true…
    4 < 8 ∧
    { pa := 8199, r := true, w := true, x := true, host := false, mor := false : Xl }.pa =
      { pa := 8192, r := true, w := true, x := true, host := false, mor := false : Xl }.pa + (8 - 1) ∧
    { pa := 8199, r := true, w := true, x := true, host := false, mor := false : Xl } =
      { { pa := 8192, r := true, w := true, x := true, host := false, mor := false : Xl } with pa := { pa := 8199, r := true, w := true, x := true, host := false, mor := false : Xl }.pa } ∧
    -- (AccessUnitRules (fn .b64) 8 h0 (inSpace .global 0x2000) 0xFFFC 3 4 0x11 (fun _ => false) 1).2.2.2.2.2.2 ⟨0x2000, true…
    8 ≤ { pa := 8199, r := true, w := true, x := true, host := false, mor := false : Xl }.pa + 1 ∧
    (65532 + 4) / 65536 ≠ (65532 / 65536 : Nat) :=
  by decide +kernel

theorem meets_TaggedAccessResults :
    -- TaggedAccessResults (sTg true) g0 (gTg 0) h0 true 8 (.v 0) (.v 1) (.v 2) 0 t0 (tmT true) 0x40 0
    (LaneAt (sTg true) g0 (gTg 0) ∧
    (gTg 0).alt = [] ∧
    (gTg 0).out = [] ∧
    (gTg 0).tagDone = (0 : W32) ∧
    (gTg 0).status = GStatus.active ∧
    ((sTg true).view (gTg 0)).fst.active h0 = [0] ∧
    t0 = (sTg true).teamRefOf g0 ∧
    (sTg true).team t0 = some (tmT true) ∧
    64 = scratchVa h0 (Sel.v (0 : VReg)) (Sel.v (1 : VReg)) (0 : W16) ((sTg true).view (gTg 0)).fst 0 ∧
    64 % 4 = 0 ∧
    64 + 4 ≤ (tmT true).scrSize ∧
    (∀ (p : GRef × Group), p ∈ (sTg true).groups → p.fst ≠ g0 → p.snd.tagPend = []) ∧
    (tmT true).tag 64 = true ∧
    -- TaggedAccessResults (sTg false) g0 (gTg 0) h0 false 8 (.v 0) (.v 1) (.v 2) 0 t0 (tmT false) 0x40 0
    LaneAt (sTg false) g0 (gTg 0) ∧
    ((sTg false).view (gTg 0)).fst.active h0 = [0] ∧
    t0 = (sTg false).teamRefOf g0) ∧
    (sTg false).team t0 = some (tmT false) ∧
    64 = scratchVa h0 (Sel.v (0 : VReg)) (Sel.v (1 : VReg)) (0 : W16) ((sTg false).view (gTg 0)).fst 0 ∧
    64 + 4 ≤ (tmT false).scrSize ∧
    (∀ (p : GRef × Group), p ∈ (sTg false).groups → p.fst ≠ g0 → p.snd.tagPend = []) ∧
    (tmT false).tag 64 = false :=
  ⟨(by unfold LaneAt; decide +kernel), by decide +kernel⟩

theorem meets_MatrixWordResults_1 :
    -- MatrixWordResults (sL (gMx (some (2,5)) 0x42000)) (vwM (some (2,5)) 0x42000).2 (ctM (some (2,5)) 0x42000 true true).2 …
    seen (sL (gMx (some (2, 5)) (270336 : W64))) (gMx (some (2, 5)) (270336 : W64)) [] [] = ((vwM (some (2, 5)) (270336 :
      W64)).fst, (vwM (some (2, 5)) (270336 : W64)).snd) ∧
    (vwM (some (2, 5)) (270336 : W64)).snd.checkTile ((vwM (some (2, 5)) (270336 : W64)).snd.ctxOf g0) 270336 true true (some
      g0.core) = ((ctM (some (2, 5)) (270336 : W64) true true).fst, (ctM (some (2, 5)) (270336 : W64) true true).snd) ∧
    (ctM (some (2, 5)) (270336 : W64) true true).fst = .ok
      { pa := 270336, r := true, w := true, x := true, host := false, mor := false : Xl } ∧
    (vwM (some (2, 5)) (270336 : W64)).snd.checkTile ((vwM (some (2, 5)) (270336 : W64)).snd.ctxOf g0) 270336 false true (some
      g0.core) = ((ctM (some (2, 5)) (270336 : W64) true true).fst, (ctM (some (2, 5)) (270336 : W64) true true).snd) ∧
    (LaneAt (sL (gMx (some (2, 5)) (270336 : W64))) g0 (gMx (some (2, 5)) (270336 : W64)) ∧
    270336 = (sget (vwM (some (2, 5)) (270336 : W64)).fst.k (↑(2 : KReg) : Nat)).toNat ∧
    mxFmtOk (vwM (some (2, 5)) (270336 : W64)).fst.fmt = true ∧
    laneMask ((vwM (some (2, 5)) (270336 : W64)).fst.active h0) = (4294967295 : W32) ∧
    (gMx (some (2, 5)) (270336 : W64)).grant ≠ none ∧
    270336 % 8192 = 0) ∧
    -- MatrixWordResults (sL (gMx none 0x42000)) (vwM none 0x42000).2 (ctM none 0x42000 false true).2 g0 (gMx none 0x42000) h…
    seen (sL (gMx none (270336 : W64))) (gMx none (270336 : W64)) [] [] = ((vwM none (270336 : W64)).fst, (vwM none (270336 :
      W64)).snd) ∧
    (vwM none (270336 : W64)).snd.checkTile ((vwM none (270336 : W64)).snd.ctxOf g0) 270336 true true (some g0.core) = ((ctM
      none (270336 : W64) false true).fst, (ctM none (270336 : W64) false true).snd) ∧
    (ctM none (270336 : W64) false true).fst = .ok
      { pa := 270336, r := true, w := true, x := true, host := false, mor := false : Xl } ∧
    (vwM none (270336 : W64)).snd.checkTile ((vwM none (270336 : W64)).snd.ctxOf g0) 270336 false true (some g0.core) = ((ctM
      none (270336 : W64) false true).fst, (ctM none (270336 : W64) false true).snd) ∧
    (LaneAt (sL (gMx none (270336 : W64))) g0 (gMx none (270336 : W64)) ∧
    270336 = (sget (vwM none (270336 : W64)).fst.k (↑(2 : KReg) : Nat)).toNat ∧
    mxFmtOk (vwM none (270336 : W64)).fst.fmt = true ∧
    laneMask ((vwM none (270336 : W64)).fst.active h0) = (4294967295 : W32) ∧
    (gMx none (270336 : W64)).grant = none) ∧
    -- MatrixWordResults (sL (gMx none 0x42010)) (vwM none 0x42010).2 (ctM none 0x42010 true true).2 g0 (gMx none 0x42010) h0…
    seen (sL (gMx none (270352 : W64))) (gMx none (270352 : W64)) [] [] = ((vwM none (270352 : W64)).fst, (vwM none (270352 :
      W64)).snd) ∧
    (vwM none (270352 : W64)).snd.checkTile ((vwM none (270352 : W64)).snd.ctxOf g0) 270352 true true (some g0.core) = ((ctM
      none (270352 : W64) true true).fst, (ctM none (270352 : W64) true true).snd) ∧
    (ctM none (270352 : W64) true true).fst = .error { cause := Cause.accumulator, info := 0 : Meet } ∧
    (vwM none (270352 : W64)).snd.checkTile ((vwM none (270352 : W64)).snd.ctxOf g0) 270352 false true (some g0.core) = ((ctM
      none (270352 : W64) true true).fst, (ctM none (270352 : W64) true true).snd) ∧
    (seen (sL (gMx none (270352 : W64))) (gMx none (270352 : W64)) [(↑(4 : VReg) : Nat)] []).snd.checkTile ((seen (sL (gMx none
      (270352 : W64))) (gMx none (270352 : W64)) [(↑(4 : VReg) : Nat)] []).snd.ctxOf g0) 270352 true false (some g0.core) =
      ((ctM none (270352 : W64) true true).fst, (ctM none (270352 : W64) true true).snd) ∧
    (LaneAt (sL (gMx none (270352 : W64))) g0 (gMx none (270352 : W64)) ∧
    270352 = (sget (vwM none (270352 : W64)).fst.k (↑(2 : KReg) : Nat)).toNat ∧
    mxFmtOk (vwM none (270352 : W64)).fst.fmt = true ∧
    laneMask ((vwM none (270352 : W64)).fst.active h0) = (4294967295 : W32) ∧
    270352 % 8192 ≠ 0) ∧
    -- MatrixWordResults (sL gMx2) (seen (sL gMx2) gMx2 [] []).2 ((seen (sL gMx2) gMx2 [] []).2.checkTile 1 0x42000 true fals…
    seen (sL gMx2) gMx2 [] [] = ((seen (sL gMx2) gMx2 [] []).fst, (seen (sL gMx2) gMx2 [] []).snd) ∧
    (seen (sL gMx2) gMx2 [] []).snd.checkTile ((seen (sL gMx2) gMx2 [] []).snd.ctxOf g0) 270336 false true (some g0.core) =
      (((seen (sL gMx2) gMx2 [] []).snd.checkTile 1 270336 true false (some 0)).fst, ((seen (sL gMx2) gMx2 [] []).snd.checkTile
      1 270336 true false (some 0)).snd) ∧
    ((seen (sL gMx2) gMx2 [] []).snd.checkTile 1 270336 true false (some 0)).fst = .ok
      { pa := 270336, r := true, w := true, x := true, host := false, mor := false : Xl } ∧
    (seen (sL gMx2) gMx2 [(↑(4 : VReg) : Nat)] []).snd.checkTile ((seen (sL gMx2) gMx2 [(↑(4 : VReg) : Nat)] []).snd.ctxOf g0)
      270336 true false (some g0.core) = (((seen (sL gMx2) gMx2 [] []).snd.checkTile 1 270336 true false (some 0)).fst, ((seen
      (sL gMx2) gMx2 [] []).snd.checkTile 1 270336 true false (some 0)).snd) ∧
    LaneAt (sL gMx2) g0 gMx2 ∧
    270336 = (sget (seen (sL gMx2) gMx2 [] []).fst.k (↑(2 : KReg) : Nat)).toNat ∧
    mxFmtOk (seen (sL gMx2) gMx2 [] []).fst.fmt = false ∧
    ((seen (sL gMx2) gMx2 [] []).snd.checkTile 1 270336 true false (some 0)).snd.poison = [] ∧
    ((seen (sL gMx2) gMx2 [] []).snd.checkTile 1 270336 true false (some 0)).snd.chanDown = [] ∧
    (∀ (x : MxCmd), x ∈ gMx2.mx → x.kind ≠ MxKind.mma ∨ x.pa ≠
      { pa := 270336, r := true, w := true, x := true, host := false, mor := false : Xl }.pa) ∧
    (seen (sL gMx2) gMx2 [(↑(4 : VReg) : Nat)] []).fst.active h0 = [4] :=
  ⟨rfl, (ok_pair (by decide +kernel) (by decide +kernel)), (ok_of (by decide +kernel)),
    (ok_pair (by decide +kernel) (by decide +kernel)), (by unfold LaneAt; decide +kernel), rfl,
    (ok_pair (by decide +kernel) (by decide +kernel)), (ok_of (by decide +kernel)),
    (ok_pair (by decide +kernel) (by decide +kernel)), (by unfold LaneAt; decide +kernel), rfl,
    (pair_of (by decide +kernel) (by decide +kernel) (by decide +kernel)), (err_of (by decide +kernel)),
    (pair_of (by decide +kernel) (by decide +kernel) (by decide +kernel)),
    (pair_of (by decide +kernel) (by decide +kernel) (by decide +kernel)), (by unfold LaneAt; decide +kernel), rfl,
    (ok_pair (by decide +kernel) (by decide +kernel)), (ok_of (by decide +kernel)),
    (ok_pair (by decide +kernel) (by decide +kernel)), (by unfold LaneAt; decide +kernel)⟩

theorem meets_MatrixWordResults_2 :
    -- MatrixWordResults (sL {gMx none 0x42000 with exmL := 0x7FFFFFFF}) (seen (sL {gMx none 0x42000 with exmL := 0x7FFFFFFF}…
    seen (sL { gMx none (270336 : W64) with exmL := (2147483647 : W32) })
      { gMx none (270336 : W64) with exmL := (2147483647 : W32) } [] [] = ((seen (sL
      { gMx none (270336 : W64) with exmL := (2147483647 : W32) }) { gMx none (270336 : W64) with exmL := (2147483647 : W32) }
      [] []).fst, (seen (sL { gMx none (270336 : W64) with exmL := (2147483647 : W32) })
      { gMx none (270336 : W64) with exmL := (2147483647 : W32) } [] []).snd) ∧
    LaneAt (sL { gMx none (270336 : W64) with exmL := (2147483647 : W32) }) g0
      { gMx none (270336 : W64) with exmL := (2147483647 : W32) } ∧
    270336 = (sget (seen (sL { gMx none (270336 : W64) with exmL := (2147483647 : W32) })
      { gMx none (270336 : W64) with exmL := (2147483647 : W32) } [] []).fst.k (↑(2 : KReg) : Nat)).toNat ∧
    mxFmtOk (seen (sL { gMx none (270336 : W64) with exmL := (2147483647 : W32) })
      { gMx none (270336 : W64) with exmL := (2147483647 : W32) } [] []).fst.fmt = true ∧
    laneMask ((seen (sL { gMx none (270336 : W64) with exmL := (2147483647 : W32) })
      { gMx none (270336 : W64) with exmL := (2147483647 : W32) } [] []).fst.active h0) ≠ (4294967295 : W32) :=
  ⟨rfl, (by unfold LaneAt; decide +kernel)⟩

theorem meets_QueueWordResults :
    -- QueueWordResults (sQ_2 q0) 3 q0 pk0 4 0 0 (.reg 0) 4 0 0
    QueueAt (sQ_2 q0) 3 q0 pk0 ∧
    ((0 : W64) = if (0 : QReg) = (0 : QReg) then (0 : BitVec 64) else sget q0.q (↑(0 : QReg) : Nat)) ∧
    (match QVal.reg (0 : QReg) with | QVal.reg b => (0 : W64) = if b = (0 : QReg) then (0 : BitVec 64) else sget q0.q (↑b : Nat) | QVal.imm i => (0 : W64) = BitVec.signExtend 64 i) ∧
    -- (QueueWordResults (sQ_2 qLp) 3 qLp pk0 0 2 1 (.imm 0) 0 0xFFFFFFFFFFFFFFFF 0).2.2.2.2.2.2.2.2.2.2.2.2.2 ⟨1, 3, 3, 2, 3…
    QueueAt (sQ_2 qLp) 3 qLp pk0 ∧
    ((18446744073709551615 : W64) = if (2 : QReg) = (0 : QReg) then (0 : BitVec 64) else sget qLp.q (↑(2 : QReg) : Nat)) ∧
    (match QVal.imm (0 : W32) with | QVal.reg b => (0 : W64) = if b = (0 : QReg) then (0 : BitVec 64) else sget qLp.q (↑b : Nat) | QVal.imm i => (0 : W64) = BitVec.signExtend 64 i) ∧
    { reg := 1, first := 3, len := 3, iter := 2, count := 3 : QLoop }.reg = (↑(1 : QReg) : Nat) ∧
    qLp.pc + 1 = { reg := 1, first := 3, len := 3, iter := 2, count := 3 : QLoop }.first +
      { reg := 1, first := 3, len := 3, iter := 2, count := 3 : QLoop }.len ∧
    { reg := 1, first := 3, len := 3, iter := 2, count := 3 : QLoop }.count ≤
      { reg := 1, first := 3, len := 3, iter := 2, count := 3 : QLoop }.iter + 1 :=
  by unfold QueueAt; decide +kernel

theorem meets_QueueMemoryResults_1 :
    -- QueueMemoryResults sm_2 3 q0 pk0 5 4 2 1 2 0x1C 256 0x24 0x40000
    (q0.winRead (1 : QWin) ((36 / 8 : Nat) * 8) 8 sm_2).fst = .ok 0 ∧
    (q0.winRead (1 : QWin) ((36 / 4 : Nat) * 4) 4 sm_2).fst = .ok 0 ∧
    ((sm_2.vwrite (sm_2.agent 6 0) q0.ctx (262144 + (36 / 4 : Nat) * 4) 4 ((if (2 : QReg) = (0 : QReg) then 0 else (sget q0.q
      (↑(2 : QReg) : Nat)).toNat) % 256 ^ 4) true).fst = Except.ok ()) ∧
    ((sm_2.vwrite (sm_2.agent 6 0) q0.ctx (262144 + (36 / 8 : Nat) * 8) 8 ((if (2 : QReg) = (0 : QReg) then 0 else (sget q0.q
      (↑(2 : QReg) : Nat)).toNat) % 256 ^ 8) true).fst = Except.ok ()) ∧
    (QueueAt sm_2 3 q0 pk0 ∧
    (256 = if (↑(1 : QWin) : Nat) = 0 then 1024 else (q0.wins.getD ((↑(1 : QWin) : Nat) - 1) (0, 0, 0)).snd.fst) ∧
    262144 = (q0.wins.getD ((↑(1 : QWin) : Nat) - 1) (0, 0, 0)).fst ∧
    (36 = ((if (4 : QReg) = (0 : QReg) then 0 else (sget q0.q (↑(4 : QReg) : Nat)).toNat) + BitVec.toNat (28 : W32)) % 256) ∧
    (1 : QWin) ≠ (0 : QWin) ∧
    (0 < if (2 : QReg) = (0 : QReg) then 0 else (sget q0.q (↑(2 : QReg) : Nat)).toNat) ∧
    BitVec.toNat (0 : BitVec 16) < 4) ∧
    -- QueueMemoryResults (sQ_2 q0u) 3 q0u pk0 5 3 2 1 2 0 256 0x10 0x8000000000
    (q0u.winRead (1 : QWin) ((16 / 8 : Nat) * 8) 8 (sQ_2 q0u)).fst = .error ({ cause := Cause.translation, info := 0 : Meet },
      549755813904) ∧
    (q0u.winRead (1 : QWin) ((16 / 4 : Nat) * 4) 4 (sQ_2 q0u)).fst = .error ({ cause := Cause.translation, info := 0 : Meet },
      549755813904) ∧
    (((sQ_2 q0u).vwrite ((sQ_2 q0u).agent 6 0) q0u.ctx (549755813888 + (16 / 4 : Nat) * 4) 4 ((if (2 : QReg) = (0 : QReg) then
      0 else (sget q0u.q (↑(2 : QReg) : Nat)).toNat) % 256 ^ 4) true).fst = .error
      ({ cause := Cause.translation, info := 0 : Meet }, 549755813888 + (16 / 4 : Nat) * 4)) ∧
    (((sQ_2 q0u).vwrite ((sQ_2 q0u).agent 6 0) q0u.ctx (549755813888 + (16 / 8 : Nat) * 8) 8 ((if (2 : QReg) = (0 : QReg) then
      0 else (sget q0u.q (↑(2 : QReg) : Nat)).toNat) % 256 ^ 8) true).fst = .error
      ({ cause := Cause.translation, info := 0 : Meet }, 549755813888 + (16 / 8 : Nat) * 8)) ∧
    (QueueAt (sQ_2 q0u) 3 q0u pk0 ∧
    (256 = if (↑(1 : QWin) : Nat) = 0 then 1024 else (q0u.wins.getD ((↑(1 : QWin) : Nat) - 1) (0, 0, 0)).snd.fst) ∧
    549755813888 = (q0u.wins.getD ((↑(1 : QWin) : Nat) - 1) (0, 0, 0)).fst ∧
    (16 = ((if (3 : QReg) = (0 : QReg) then 0 else (sget q0u.q (↑(3 : QReg) : Nat)).toNat) + BitVec.toNat (0 : W32)) % 256) ∧
    (q0u.winRead (1 : QWin) ((16 / 8 : Nat) * 8) 8 (sQ_2 q0u)).snd.queue 3 = some q0u ∧
    (q0u.winRead (1 : QWin) ((16 / 4 : Nat) * 4) 4 (sQ_2 q0u)).snd.queue 3 = some q0u ∧
    (((sQ_2 q0u).vwrite ((sQ_2 q0u).agent 6 0) q0u.ctx (549755813888 + (16 / 4 : Nat) * 4) 4 ((if (2 : QReg) = (0 : QReg) then
      0 else (sget q0u.q (↑(2 : QReg) : Nat)).toNat) % 256 ^ 4) true).snd.queue 3 = some q0u) ∧
    (((sQ_2 q0u).vwrite ((sQ_2 q0u).agent 6 0) q0u.ctx (549755813888 + (16 / 8 : Nat) * 8) 8 ((if (2 : QReg) = (0 : QReg) then
      0 else (sget q0u.q (↑(2 : QReg) : Nat)).toNat) % 256 ^ 8) true).snd.queue 3 = some q0u)) ∧
    -- ((QueueMemoryResults smc 3 q0c pk0 4 3 2 2 1 0 128 0x14 0x50000).2.2.2.2.2.2) 4 0x14 0x20 0xFFEEDDCC sc1 sc2
    q0c.winRead (1 : QWin) 20 4 smc = (Except.ok 4293844428, sc1) ∧
    sc1.vwrite (sc1.agent 6 0) q0c.ctx (327680 + 32) 4 4293844428 true = (Except.ok (), sc2) ∧
    QueueAt smc 3 q0c pk0 ∧
    (128 = if (↑(2 : QWin) : Nat) = 0 then 1024 else (q0c.wins.getD ((↑(2 : QWin) : Nat) - 1) (0, 0, 0)).snd.fst) ∧
    327680 = (q0c.wins.getD ((↑(2 : QWin) : Nat) - 1) (0, 0, 0)).fst ∧
    (20 = ((if (3 : QReg) = (0 : QReg) then 0 else (sget q0c.q (↑(3 : QReg) : Nat)).toNat) + BitVec.toNat (0 : W32)) % 128) ∧
    BitVec.toNat (4 : W16) = 4 ∧
    (2 : QWin) ≠ (0 : QWin) ∧
    (32 = (if (4 : QReg) = (0 : QReg) then 0 else (sget q0c.q (↑(4 : QReg) : Nat)).toNat) % 128 / 4 * 4) ∧
    (20 = (if (3 : QReg) = (0 : QReg) then 0 else (sget q0c.q (↑(3 : QReg) : Nat)).toNat) % windowLen q0c.wins (1 : QWin) / 4 *
      4) ∧
    32 < 128 ∧
    20 < windowLen q0c.wins (1 : QWin) :=
  ⟨(ok_of (by decide +kernel)), (ok_of (by decide +kernel)), (except_of (by decide +kernel) (by decide +kernel)),
    (except_of (by decide +kernel) (by decide +kernel)), (by unfold QueueAt; decide +kernel), (err_of (by decide +kernel)),
    (err_of (by decide +kernel)), (err_of (by decide +kernel)), (err_of (by decide +kernel)),
    (by unfold QueueAt; decide +kernel), (ok_pair (by decide +kernel) (by decide +kernel)),
    (ok_pair (by decide +kernel) (by decide +kernel)), (by unfold QueueAt; decide +kernel)⟩

theorem meets_QueueMemoryResults_2 :
    -- QueueMemoryResults (sQ_2 q0) 3 q0 pk0 5 4 2 0 2 0x1C 1024 0x124 0x40000
    (q0.winRead (0 : QWin) ((292 / 8 : Nat) * 8) 8 (sQ_2 q0)).fst = .ok (byteField (wordsNum q0.body) ((292 / 8 : Nat) * 8) 8) ∧
    (q0.winRead (0 : QWin) ((292 / 4 : Nat) * 4) 4 (sQ_2 q0)).fst = .ok (byteField (wordsNum q0.body) ((292 / 4 : Nat) * 4) 4) ∧
    (QueueAt (sQ_2 q0) 3 q0 pk0 ∧
    (1024 = if (↑(0 : QWin) : Nat) = 0 then 1024 else (q0.wins.getD ((↑(0 : QWin) : Nat) - 1) (0, 0, 0)).snd.fst) ∧
    262144 = (q0.wins.getD ((↑(0 : QWin) : Nat) - 1) (0, 0, 0)).fst ∧
    (292 = ((if (4 : QReg) = (0 : QReg) then 0 else (sget q0.q (↑(4 : QReg) : Nat)).toNat) + BitVec.toNat (28 : W32)) % 1024) ∧
    (byteField (wordsNum q0.body) ((292 / 8 : Nat) * 8) 8 < if (2 : QReg) = (0 : QReg) then 0 else (sget q0.q (↑(2 : QReg) :
      Nat)).toNat)) ∧
    -- (QueueMemoryResults sm_2 3 q0 pk0 5 3 1 1 2 0 256 0x10 0x40000).2.2.2.2.1 0xFFEEDDCCBBAA9988 (q0.winRead 1 0x10 8 sm_2…
    q0.winRead (1 : QWin) ((16 / 8 : Nat) * 8) 8 sm_2 = (Except.ok 18441921395520346504, (q0.winRead (1 : QWin) 16 8 sm_2).snd) ∧
    (16 = ((if (3 : QReg) = (0 : QReg) then 0 else (sget q0.q (↑(3 : QReg) : Nat)).toNat) + BitVec.toNat (0 : W32)) % 256) ∧
    (5 = if (1 : QReg) = (0 : QReg) then 0 else (sget q0.q (↑(1 : QReg) : Nat)).toNat) ∧
    5 ≤ 18441921395520346504 :=
  ⟨(ok_of (by decide +kernel)), (ok_of (by decide +kernel)), (by unfold QueueAt; decide +kernel),
    (ok_pair (by decide +kernel) (by decide +kernel)), by decide +kernel⟩

theorem meets_QueueWaitEnds :
    -- QueueWaitEnds {sm_2 with queues := [(3,qV)]} (qV.winRead 1 0x10 8 {sm_2 with queues := [(3,qV)]}).2 3 qV 1 0x10 5 0xFF…
    qV.winRead (1 : QWin) 16 8 { sm_2 with queues := [(3, qV)] } = (Except.ok 18441921395520346504, (qV.winRead (1 : QWin) 16 8
      { sm_2 with queues := [(3, qV)] }).snd) ∧
    ({ sm_2 with queues := [(3, qV)] }.queue 3 = some qV ∧
    qV.loop = none ∧
    qV.waitv = some ((↑(1 : QWin) : Nat), 16, 5) ∧
    qV.resident = true ∧
    (qV.winRead (1 : QWin) 16 8 { sm_2 with queues := [(3, qV)] }).snd.queue 3 = some qV ∧
    5 ≤ 18441921395520346504) ∧
    -- QueueWaitEnds {sm_2 with queues := [(3,qV2)]} (qV2.winRead 1 0x10 8 {sm_2 with queues := [(3,qV2)]}).2 3 qV2 1 0x10 0x…
    qV2.winRead (1 : QWin) 16 8 { sm_2 with queues := [(3, qV2)] } = (Except.ok 18441921395520346504, (qV2.winRead (1 : QWin)
      16 8 { sm_2 with queues := [(3, qV2)] }).snd) ∧
    ({ sm_2 with queues := [(3, qV2)] }.queue 3 = some qV2 ∧
    qV2.loop = none ∧
    qV2.waitv = some ((↑(1 : QWin) : Nat), 16, 295147586100790991240) ∧
    qV2.resident = true ∧
    (qV2.winRead (1 : QWin) 16 8 { sm_2 with queues := [(3, qV2)] }).snd.queue 3 = some qV2 ∧
    18441921395520346504 < 295147586100790991240) ∧
    -- QueueWaitEnds {sm_2 with queues := [(3,{qV2 with resident := false})]} sm_2 3 {qV2 with resident := false} 1 0x10 0xFF…
    { sm_2 with queues := [(3, { qV2 with resident := false })] }.queue 3 = some { qV2 with resident := false } ∧
    { qV2 with resident := false }.loop = none ∧
    { qV2 with resident := false }.waitv = some ((↑(1 : QWin) : Nat), 16, 295147586100790991240) ∧
    { qV2 with resident := false }.resident = false :=
  ⟨(ok_pair (by decide +kernel) (by decide +kernel)), by decide +kernel, (ok_pair (by decide +kernel) (by decide +kernel)),
    by decide +kernel, by decide +kernel⟩

theorem meets_QueueLaunchAndCall :
    -- (QueueLaunchAndCall (sQL qL (bodyN 1)) (w1 (bodyN 1)).2 (en (bodyN 1)).2 3 qL pk0 5 3 1 0 0 0 (bodyN 1) 9).1 (.grid 9)
    qL.winRead (1 : QWin) (qL.offsetIn (1 : QWin) (3 : QReg) (BitVec.toNat (0 : W32)) 128) 128 (sQL qL (bodyN 1)) = (Except.ok
      (bodyN 1), (w1 (bodyN 1)).snd) ∧
    (QueueAt (sQL qL (bodyN 1)) 3 qL pk0 ∧
    (w1 (bodyN 1)).snd.enterLaunch (queueLaunch qL 3 pk0 (bodyWord (bodyN 1) 3)) (bodyN 1) = (Entered.grid 9, (en (bodyN
      1)).snd) ∧
    (en (bodyN 1)).snd.queue 3 = some qL) ∧
    -- (QueueLaunchAndCall (sQL qL 0) (w1 0).2 (en 0).2 3 qL pk0 5 3 1 0 0 0 0 9).1 .refused
    qL.winRead (1 : QWin) (qL.offsetIn (1 : QWin) (3 : QReg) (BitVec.toNat (0 : W32)) 128) 128 (sQL qL 0) = (Except.ok 0, (w1
      0).snd) ∧
    (QueueAt (sQL qL 0) 3 qL pk0 ∧
    (w1 0).snd.enterLaunch (queueLaunch qL 3 pk0 (bodyWord 0 3)) 0 = (Entered.refused, (en 0).snd) ∧
    (en 0).snd.queue 3 = some qL) ∧
    -- (QueueLaunchAndCall (sQL qL 0) (qL.winRead 1 (qL.offsetIn 1 3 0 64) 64 (sQL qL 0)).2 (sQL qL 0) 3 qL pk0 5 3 1 0 0 0 0…
    qL.winRead (1 : QWin) (qL.offsetIn (1 : QWin) (3 : QReg) (BitVec.toNat (0 : BitVec 24)) 64) 64 (sQL qL 0) = (Except.ok 0,
      (qL.winRead (1 : QWin) (qL.offsetIn (1 : QWin) (3 : QReg) 0 64) 64 (sQL qL 0)).snd) ∧
    (BitVec.toNat (0 : Byte) = 0 ∧
    (qL.winRead (1 : QWin) (qL.offsetIn (1 : QWin) (3 : QReg) 0 64) 64 (sQL qL 0)).snd.queue 3 = some qL) ∧
    -- (QueueLaunchAndCall (sQL qL (bodyN 1)) (kd 4 (bodyN 1)).1.2 (kd 4 (bodyN 1)).2.2 3 qL pk0 5 3 1 0 0 4 (bodyN 1) 9).2.1…
    qL.winRead (1 : QWin) (qL.offsetIn (1 : QWin) (3 : QReg) (BitVec.toNat (0 : BitVec 24)) (packetBytes ((kindLen 4).getD 0)))
      (packetBytes ((kindLen 4).getD 0)) (sQL qL (bodyN 1)) = (Except.ok (bodyN 1), (kd 4 (bodyN 1)).fst.snd) ∧
    (packetBytes ((kindLen 4).getD 0) = packetBytes ((kindLen (BitVec.toNat (4 : Byte))).getD 0) ∧
    performKind (BitVec.toNat (4 : Byte))
      { slot := 3, q := qL, seq := pk0.seq, w := wordsOf (bodyN 1) (packetBytes ((kindLen 4).getD 0) / 8) : Job } (kd 4 (bodyN
      1)).fst.snd = ((kd 4 (bodyN 1)).snd.fst, (kd 4 (bodyN 1)).snd.snd) ∧
    (kd 4 (bodyN 1)).snd.snd.queue 3 = some qL ∧
    (kd 4 (bodyN 1)).snd.fst = KindRes.done 0) ∧
    -- (QueueLaunchAndCall (sQL qL (bodyN 1)) (kd 5 (bodyN 1)).1.2 (kd 5 (bodyN 1)).2.2 3 qL pk0 5 3 1 0 0 5 (bodyN 1) 9).2.1…
    qL.winRead (1 : QWin) (qL.offsetIn (1 : QWin) (3 : QReg) (BitVec.toNat (0 : BitVec 24)) (packetBytes ((kindLen 5).getD 0)))
      (packetBytes ((kindLen 5).getD 0)) (sQL qL (bodyN 1)) = (Except.ok (bodyN 1), (kd 5 (bodyN 1)).fst.snd) ∧
    (packetBytes ((kindLen 5).getD 0) = packetBytes ((kindLen (BitVec.toNat (5 : Byte))).getD 0) ∧
    performKind (BitVec.toNat (5 : Byte))
      { slot := 3, q := qL, seq := pk0.seq, w := wordsOf (bodyN 1) (packetBytes ((kindLen 5).getD 0) / 8) : Job } (kd 5 (bodyN
      1)).fst.snd = ((kd 5 (bodyN 1)).snd.fst, (kd 5 (bodyN 1)).snd.snd) ∧
    (kd 5 (bodyN 1)).snd.snd.queue 3 = some qL ∧
    (kd 5 (bodyN 1)).snd.fst = KindRes.pending) ∧
    -- (QueueLaunchAndCall (sQL qF (bodyN 1)) (qF.winRead 1 (qF.offsetIn 1 3 0 64) 64 (sQL qF (bodyN 1))).2 kdF.2 3 qF pk0 5 …
    qF.winRead (1 : QWin) (qF.offsetIn (1 : QWin) (3 : QReg) (BitVec.toNat (0 : BitVec 24)) 64) 64 (sQL qF (bodyN 1)) =
      (Except.ok (bodyN 1 % 2 ^ 512), (qF.winRead (1 : QWin) (qF.offsetIn (1 : QWin) (3 : QReg) 0 64) 64 (sQL qF (bodyN
      1))).snd) ∧
    (QueueAt (sQL qF (bodyN 1)) 3 qF pk0 ∧
    64 = packetBytes ((kindLen (BitVec.toNat (7 : Byte))).getD 0) ∧
    performKind (BitVec.toNat (7 : Byte))
      { slot := 3, q := qF, seq := pk0.seq, w := wordsOf (bodyN 1 % 2 ^ 512) (64 / 8 : Nat) : Job } (qF.winRead (1 : QWin)
      (qF.offsetIn (1 : QWin) (3 : QReg) 0 64) 64 (sQL qF (bodyN 1))).snd = (kdF.fst, kdF.snd) ∧
    kdF.snd.queue 3 = some qF ∧
    kdF.fst = KindRes.forbidden) ∧
    -- ((QueueLaunchAndCall sQF (qL.winRead 1 (qL.offsetIn 1 3 0 128) 128 sQF).2 ((qL.winRead 1 (qL.offsetIn 1 3 0 128) 128 s…
    qL.winRead (1 : QWin) (qL.offsetIn (1 : QWin) (3 : QReg) (BitVec.toNat (0 : W32)) 128) 128 sQF = (Except.ok bodyF,
      (qL.winRead (1 : QWin) (qL.offsetIn (1 : QWin) (3 : QReg) 0 128) 128 sQF).snd) ∧
    QueueAt sQF 3 qL pk0 ∧
    (qL.winRead (1 : QWin) (qL.offsetIn (1 : QWin) (3 : QReg) 0 128) 128 sQF).snd.enterLaunch (queueLaunch qL 3 pk0 (bodyWord
      bodyF 3)) bodyF = (((qL.winRead (1 : QWin) (qL.offsetIn (1 : QWin) (3 : QReg) 0 128) 128 sQF).snd.enterLaunch
      (queueLaunch qL 3 pk0 (bodyWord bodyF 3)) bodyF).fst, ((qL.winRead (1 : QWin) (qL.offsetIn (1 : QWin) (3 : QReg) 0 128)
      128 sQF).snd.enterLaunch (queueLaunch qL 3 pk0 (bodyWord bodyF 3)) bodyF).snd) ∧
    ((qL.winRead (1 : QWin) (qL.offsetIn (1 : QWin) (3 : QReg) 0 128) 128 sQF).snd.enterLaunch (queueLaunch qL 3 pk0 (bodyWord
      bodyF 3)) bodyF).snd.queue 3 = some qL ∧
    ((qL.winRead (1 : QWin) (qL.offsetIn (1 : QWin) (3 : QReg) 0 128) 128 sQF).snd.enterLaunch (queueLaunch qL 3 pk0 (bodyWord
      bodyF 3)) bodyF).fst = Entered.failed { cause := Cause.translation, info := 0 : Meet } 549755813888 :=
  ⟨(ok_pair (by decide +kernel) (by decide +kernel)), (by unfold QueueAt; decide +kernel),
    (ok_pair (by decide +kernel) (by decide +kernel)), (by unfold QueueAt; decide +kernel),
    (ok_pair (by decide +kernel) (by decide +kernel)), by decide +kernel, (ok_pair (by decide +kernel) (by decide +kernel)),
    by decide +kernel, (ok_pair (by decide +kernel) (by decide +kernel)), by decide +kernel,
    (ok_pair (by decide +kernel) (by decide +kernel)), (by unfold QueueAt; decide +kernel),
    (ok_pair (by decide +kernel) (by decide +kernel)), (by unfold QueueAt; decide +kernel)⟩

theorem meets_PacketKindResults_1 :
    -- ((PacketKindResults sLr (sLr.readRecord 1 0x60000).2 base 3 qLr pk0).2.2.2.2.1 ((sLr.readRecord 1 0x60000).1.toOption.…
    sLr.readRecord qLr.ctx (qLr.body.getD 2 0) = (Except.ok ((sLr.readRecord 1 393216).fst.toOption.getD (recOf 0)),
      (sLr.readRecord 1 393216).snd) ∧
    (PacketAt sLr 3 qLr pk0 ∧
    recordOk ((sLr.readRecord 1 393216).fst.toOption.getD (recOf 0)) = false ∧
    (sLr.readRecord 1 393216).snd.queue 3 = some qLr) ∧
    -- PacketKindResults (sb lb) s1l s1l 3 (qb lb) pk0
    (PacketAt (sb lb) 3 (qb lb) pk0 ∧
    (qb lb).body.getD 1 0 % (qb lb).segBytes = 0 ∧
    (qb lb).body.getD 1 0 + (qb lb).segBytes ≤ memTop ∧
    s1l.queue 3 = some (qb lb) ∧
    ((sb lb).enterLaunch (queueLaunch (qb lb) 3 pk0 ((qb lb).body.getD 3 0)) (wordsNum (qb lb).body)).snd = s1l ∧
    ((sb lb).enterLaunch (queueLaunch (qb lb) 3 pk0 ((qb lb).body.getD 3 0)) (wordsNum (qb lb).body)).fst = Entered.grid (9) ∧
    ((sb lb).ctx (qb lb).ctx).isSome = true ∧
    (qb lb).prog ≠ 0 ∧
    -- PacketKindResults (sb lb0) s1r s1r 3 (qb lb0) pk0
    PacketAt (sb lb0) 3 (qb lb0) pk0 ∧
    (qb lb0).body.getD 1 0 % (qb lb0).segBytes = 0 ∧
    (qb lb0).body.getD 1 0 + (qb lb0).segBytes ≤ memTop ∧
    s1r.queue 3 = some (qb lb0) ∧
    ((sb lb0).enterLaunch (queueLaunch (qb lb0) 3 pk0 ((qb lb0).body.getD 3 0)) (wordsNum (qb lb0).body)).snd = s1r ∧
    ((sb lb0).enterLaunch (queueLaunch (qb lb0) 3 pk0 ((qb lb0).body.getD 3 0)) (wordsNum (qb lb0).body)).fst = Entered.refused ∧
    ((sb lb0).ctx (qb lb0).ctx).isSome = true ∧
    (qb lb0).prog ≠ 0) ∧
    -- PacketKindResults (sb lpr) s1r s1r 3 (qb lpr) pk0
    (PacketAt (sb lpr) 3 (qb lpr) pk0 ∧
    (qb lpr).body.getD 1 0 % (qb lpr).segBytes = 0 ∧
    (qb lpr).body.getD 1 0 + (qb lpr).segBytes ≤ memTop ∧
    ((sb lpr).ctx (qb lpr).ctx).isSome = true ∧
    (qb lpr).body.getD 1 0 = 0 ∧
    (qb lpr).prog ≠ 0 ∧
    -- (PacketKindResults spg spg1 spg1 3 (qb lpg) pk0).2.2.2.2.2.2.2.2.1 (spg.loadProgram (qb lpg).wins 0x61000).1
    PacketAt spg 3 (qb lpg) pk0 ∧
    (qb lpg).body.getD 1 0 ≠ 0 ∧
    spg.loadProgram (qb lpg).wins ((qb lpg).body.getD 1 0) = ((spg.loadProgram (qb lpg).wins 397312).fst, spg1) ∧
    spg1.queue 3 = some (qb lpg) ∧
    (spg.loadProgram (qb lpg).wins 397312).fst = some [1370220186627473408] ∧
    -- (PacketKindResults sbp spgB.2 spgB.2 3 (qb lpg) pk0).2.2.2.2.2.2.2.2.1 spgB.1
    PacketAt sbp 3 (qb lpg) pk0 ∧
    sbp.loadProgram (qb lpg).wins ((qb lpg).body.getD 1 0) = (spgB.fst, spgB.snd) ∧
    spgB.snd.queue 3 = some (qb lpg) ∧
    spgB.fst = none) ∧
    -- (PacketKindResults (sQ_2 {qb lpg with prog := 0}) spgB.2 spgB.2 3 {qb lpg with prog := 0} pk0).2.2.2.2.2.2.2.2.2.1
    PacketAt (sQ_2 { qb lpg with prog := 0 }) 3 { qb lpg with prog := 0 } pk0 ∧
    { qb lpg with prog := 0 }.prog = 0 ∧
    -- (PacketKindResults { sb [0] with queues := [(3, qLk)] } base base 3 qLk pk0).2.1
    PacketAt { sb [0] with queues := [(3, qLk)] } 3 qLk pk0 ∧
    (qLk.body.getD 1 0 % qLk.segBytes ≠ 0 ∨ memTop < qLk.body.getD 1 0 + qLk.segBytes) :=
  ⟨(ok_pair (by decide +kernel) (by decide +kernel)), (by unfold PacketAt; decide +kernel),
    (by unfold PacketAt; decide +kernel), (by unfold PacketAt; decide +kernel), (by unfold PacketAt; decide +kernel)⟩

theorem meets_PacketKindResults_2 :
    -- ((PacketKindResults sld2 (sld2.readRecord 1 0x60000).2 ((sld2.readRecord 1 0x60000).2.vread 1 0x600A8 2 true).2 3 (qb …
    sld2.readRecord (qb lld).ctx ((qb lld).body.getD 2 0) = (Except.ok (recOf recM), (sld2.readRecord 1 393216).snd) ∧
    (sld2.readRecord 1 393216).snd.vread (qb lld).ctx ((qb lld).body.getD 2 0 + (recOf recM).nameAt.fst) (recOf
      recM).nameAt.snd true = (Except.ok nmT, ((sld2.readRecord 1 393216).snd.vread 1 393384 2 true).snd) ∧
    ((sld2.readRecord 1 393216).snd.vread 1 393384 2 true).snd.vwrite (((sld2.readRecord 1 393216).snd.vread 1 393384 2
      true).snd.agent 6 0) (qb lld).ctx ((qb lld).body.getD 2 0 + 8) 8 ((sld2.readRecord 1 393216).snd.vread 1 393384 2
      true).snd.nextCodeId true = (Except.ok (), (((sld2.readRecord 1 393216).snd.vread 1 393384 2 true).snd.vwrite
      (((sld2.readRecord 1 393216).snd.vread 1 393384 2 true).snd.agent 6 0) 1 393224 8 ((sld2.readRecord 1 393216).snd.vread 1
      393384 2 true).snd.nextCodeId true).snd) ∧
    (PacketAt sld2 3 (qb lld) pk0 ∧
    recordOk (recOf recM) = true ∧
    nameOk nmT (recOf recM).nameAt.snd = true) ∧
    -- ((PacketKindResults sld3 (sld3.readRecord 1 0x60000).2 ((sld3.readRecord 1 0x60000).2.vread 1 0x600A8 2 true).2 3 (qb …
    sld3.readRecord (qb lld).ctx ((qb lld).body.getD 2 0) = (Except.ok (recOf recM), (sld3.readRecord 1 393216).snd) ∧
    (sld3.readRecord 1 393216).snd.vread (qb lld).ctx ((qb lld).body.getD 2 0 + (recOf recM).nameAt.fst) (recOf
      recM).nameAt.snd true = (Except.ok 0, ((sld3.readRecord 1 393216).snd.vread 1 393384 2 true).snd) ∧
    (PacketAt sld3 3 (qb lld) pk0 ∧
    nameOk 0 (recOf recM).nameAt.snd = false ∧
    ((sld3.readRecord 1 393216).snd.vread 1 393384 2 true).snd.queue 3 = some (qb lld)) ∧
    -- (PacketKindResults { sb [0] with queues := [(3, qLk)], ctxs := [] } base base 3 qLk pk0).2.2.2.2.2.1
    PacketAt { sb [0] with ctxs := [], queues := [(3, qLk)] } 3 qLk pk0 ∧
    { sb [0] with ctxs := [], queues := [(3, qLk)] }.ctx qLk.ctx = none ∧
    -- ((PacketKindResults sbF (sbF.enterLaunch (queueLaunch (qb lbF) 3 pk0 (lbF.getD 3 0)) bodyF).2 base 3 (qb lbF) pk0).2.2…
    PacketAt sbF 3 (qb lbF) pk0 ∧
    sbF.enterLaunch (queueLaunch (qb lbF) 3 pk0 ((qb lbF).body.getD 3 0)) (wordsNum (qb lbF).body) = ((sbF.enterLaunch
      (queueLaunch (qb lbF) 3 pk0 (lbF.getD 3 0)) bodyF).fst, (sbF.enterLaunch (queueLaunch (qb lbF) 3 pk0 (lbF.getD 3 0))
      bodyF).snd) ∧
    (sbF.enterLaunch (queueLaunch (qb lbF) 3 pk0 (lbF.getD 3 0)) bodyF).snd.queue 3 = some (qb lbF) ∧
    (sbF.enterLaunch (queueLaunch (qb lbF) 3 pk0 (lbF.getD 3 0)) bodyF).fst = Entered.failed
      { cause := Cause.translation, info := 0 : Meet } 549755813888 :=
  ⟨(ok_pair (by decide +kernel) (by decide +kernel)), (ok_pair (by decide +kernel) (by decide +kernel)),
    (ok_pair (by decide +kernel) (by decide +kernel)), (by unfold PacketAt; decide +kernel),
    (ok_pair (by decide +kernel) (by decide +kernel)), (ok_pair (by decide +kernel) (by decide +kernel)),
    (by unfold PacketAt; decide +kernel), (by unfold PacketAt; decide +kernel)⟩

theorem meets_ContextKindResults_1 :
    -- ContextKindResults (sb lct) 3 (qb lct) pk0
    (PacketAt (sb lct) 3 (qb lct) pk0 ∧
    ((sb lct).ctx (qb lct).ctx).isSome = true ∧
    (qb lct).func = 0 ∧
    (sb lct).ctx ((qb lct).body.getD 1 0) = some (Ctx.fresh 65536) ∧
    (qb lct).body.getD 2 0 % 2 ^ 32 ≤ 10 ^ 6 ∧
    (qb lct).body.getD 2 0 / 2 ^ 32 ≤ 10 ^ 6 ∧
    (Ctx.fresh 65536).phase = Phase.running ∧
    -- (ContextKindResults (sb lct) 3 (qb lct) pk0).2.2.1 1 (Ctx.fresh 0x10000)
    1 = wordField (qb lct).body 8 4 ∧
    ((qb lct).func = 0 ∨ (sb lct).funcOf 1 = (qb lct).func) ∧
    contextOk (qb lct).body = true ∧
    (∀ (e : Nat × Ctx), e ∈ (sb lct).ctxs → e.fst % 4096 = 1 % 4096 → e.fst = 1) ∧
    Ctx.fresh 65536 = ((sb lct).ctx 1).getD (Ctx.fresh 0) ∧
    wordField (qb lct).body 32 8 = 0) ∧
    -- (ContextKindResults (sb lcb) 3 (qb lcb) pk0).2.2.1 1 (Ctx.fresh 0x10000)
    (PacketAt (sb lcb) 3 (qb lcb) pk0 ∧
    1 = wordField (qb lcb).body 8 4 ∧
    ((qb lcb).func = 0 ∨ (sb lcb).funcOf 1 = (qb lcb).func) ∧
    contextOk (qb lcb).body = false ∧
    -- ((ContextKindResults (sb lcc) 3 (qb lcc) pk0).2.2.1 0x1001 (Ctx.fresh 0x10000)).2.1 1 (Ctx.fresh 0x10000)
    PacketAt (sb lcc) 3 (qb lcc) pk0 ∧
    4097 = wordField (qb lcc).body 8 4 ∧
    ((qb lcc).func = 0 ∨ (sb lcc).funcOf 4097 = (qb lcc).func) ∧
    (1, Ctx.fresh 65536) ∈ (sb lcc).ctxs ∧
    1 ≠ 4097 ∧
    1 % 4096 = 4097 % 4096 ∧
    -- ContextKindResults (sQ_2 (qVF lct)) 3 (qVF lct) pk0
    PacketAt (sQ_2 (qVF lct)) 3 (qVF lct) pk0 ∧
    ((sQ_2 (qVF lct)).ctx (qVF lct).ctx).isSome = true ∧
    (qVF lct).func ≠ 0) ∧
    (sQ_2 (qVF lct)).funcOf (wordField (qVF lct).body 8 4) ≠ (qVF lct).func ∧
    -- (ContextKindResults (sb (lpe 5 1000001)) 3 (qb (lpe 5 1000001)) pk0).2.2.2.2.2.1 1 (Ctx.fresh 0x10000) 5 1000001
    PacketAt (sb (lpe 5 1000001)) 3 (qb (lpe 5 1000001)) pk0 ∧
    1 = (qb (lpe 5 1000001)).body.getD 1 0 ∧
    (qb (lpe 5 1000001)).func = 0 ∧
    (sb (lpe 5 1000001)).ctx 1 = some (Ctx.fresh 65536) ∧
    5 = (qb (lpe 5 1000001)).body.getD 2 0 % 2 ^ 32 ∧
    1000001 = (qb (lpe 5 1000001)).body.getD 2 0 / 2 ^ 32 ∧
    (10 ^ 6 < 5 ∨ 10 ^ 6 < 1000001) :=
  ⟨(by unfold PacketAt; decide +kernel), (by unfold PacketAt; decide +kernel), (by unfold PacketAt; decide +kernel)⟩

theorem meets_ContextKindResults_2 :
    -- (ContextKindResults sOff 3 (qb (lpe 5 6)) pk0).2.2.2.2.2.1 1 {Ctx.fresh 0x10000 with phase := .off} 5 6
    (PacketAt sOff 3 (qb (lpe 5 6)) pk0 ∧
    1 = (qb (lpe 5 6)).body.getD 1 0 ∧
    (qb (lpe 5 6)).func = 0 ∧
    sOff.ctx 1 = some { Ctx.fresh 65536 with phase := Phase.off } ∧
    5 = (qb (lpe 5 6)).body.getD 2 0 % 2 ^ 32 ∧
    6 = (qb (lpe 5 6)).body.getD 2 0 / 2 ^ 32 ∧
    5 ≤ 10 ^ 6 ∧
    6 ≤ 10 ^ 6 ∧
    { Ctx.fresh 65536 with phase := Phase.off }.phase = Phase.off ∧
    -- (ContextKindResults srs 3 (qb lrs) pk0).2.2.2.2.2.2 ((srs.ctx 1).getD (Ctx.fresh 0)) 1 { grid0 with parked := [pkd] } …
    PacketAt srs 3 (qb lrs) pk0 ∧
    srs.ctx (qb lrs).ctx = some ((srs.ctx 1).getD (Ctx.fresh 0)) ∧
    (List.find? (fun g => g.snd.ctx == (qb lrs).ctx && g.snd.parked.any fun p => p.slot == (qb lrs).body.getD 1 0) srs.grids =
      some (1, { grid0 with parked := [pkd] })) ∧
    (List.find? (fun p => p.slot == (qb lrs).body.getD 1 0) { grid0 with parked := [pkd] }.parked = some pkd) ∧
    (((srs.ctx 1).getD (Ctx.fresh 0)).parkN ≤ (qb lrs).body.getD 1 0 ∨ srs.slotValid (qb lrs).ctx ((srs.ctx 1).getD (Ctx.fresh
      0)) ((qb lrs).body.getD 1 0) = false ∨ srs.placeAgain { grid0 with parked := [pkd] } pkd = false)) ∧
    -- (ContextKindResults srsV 3 (qb lrs) pk0).2.2.2.2.2.2 ((srsV.ctx 1).getD (Ctx.fresh 0)) 1 { grid0 with parked := [pkd] …
    PacketAt srsV 3 (qb lrs) pk0 ∧
    srsV.ctx (qb lrs).ctx = some ((srsV.ctx 1).getD (Ctx.fresh 0)) ∧
    (List.find? (fun g => g.snd.ctx == (qb lrs).ctx && g.snd.parked.any fun p => p.slot == (qb lrs).body.getD 1 0) srsV.grids =
      some (1, { grid0 with parked := [pkd] })) ∧
    (qb lrs).body.getD 1 0 < ((srsV.ctx 1).getD (Ctx.fresh 0)).parkN ∧
    srsV.slotValid (qb lrs).ctx ((srsV.ctx 1).getD (Ctx.fresh 0)) ((qb lrs).body.getD 1 0) = true ∧
    srsV.placeAgain { grid0 with parked := [pkd] } pkd = true ∧
    { grid0 with parked := [pkd] }.cluster = false ∧
    -- ContextKindResults {sb [0,1] with ctxs := []} 3 (qb [0,1]) pk0
    PacketAt { sb [0, 1] with ctxs := [] } 3 (qb [0, 1]) pk0 ∧
    { sb [0, 1] with ctxs := [] }.ctx (qb [0, 1]).ctx = none :=
  ⟨(by unfold PacketAt; decide +kernel), (by unfold PacketAt; decide +kernel)⟩

theorem meets_SpawnResults_1 :
    -- ((SpawnResults sSpF (sSpF.vread 1 0x40200 128 false).2 ((sSpF.vread 1 0x40200 128 false).2.enterLaunch spI bodyF).2 ba…
    sSpF.vread tm0.ctx 262656 128 false = (Except.ok bodyF, (sSpF.vread 1 262656 128 false).snd) ∧
    (ScalarAt sSpF g0 gSpw ∧
    sSpF.team g0.team = some tm0 ∧
    262656 = BitVec.toNat (gSpw.sreg (1 : SReg)) ∧
    sSpF.liveChildren tm0 < 16 ∧
    262656 % 8 = 0 ∧
    spI.ctx = tm0.ctx ∧
    spI.issuer = Issuer.spawn tm0.grid tm0.teamId ∧
    spI.depth = tm0.depth + 1 ∧
    spI.seqBase = (0 : W64) ∧
    spI.step = (0 : W64) ∧
    (spI.level = (Option.map (fun x => x.level) ((sSpF.vread 1 262656 128 false).snd.grid tm0.grid)).getD 0) ∧
    (spI.inst = ((sSpF.vread 1 262656 128 false).snd.grid tm0.grid).bind fun x => x.inst) ∧
    (sSpF.vread 1 262656 128 false).snd.enterLaunch spI bodyF = (((sSpF.vread 1 262656 128 false).snd.enterLaunch spI
      bodyF).fst, ((sSpF.vread 1 262656 128 false).snd.enterLaunch spI bodyF).snd) ∧
    ((sSpF.vread 1 262656 128 false).snd.enterLaunch spI bodyF).fst = Entered.failed
      { cause := Cause.translation, info := 0 : Meet } 549755813888) ∧
    -- SpawnResults (sSp tmC gSp) base base base g0 gSp gSp .dyn 1 2 tmC tm0 0 0x40000 .refused none 0
    ScalarAt (sSp tmC gSp) g0 gSp ∧
    g0.isHandler = false ∧
    (sSp tmC gSp).team g0.team = some tmC ∧
    262144 = BitVec.toNat (gSp.sreg (1 : SReg)) ∧
    16 ≤ (sSp tmC gSp).liveChildren tmC ∧
    -- SpawnResults (sSp {tm0 with depth := 4} gSp) base base base g0 gSp gSp .dyn 1 2 {tm0 with depth := 4} tm0 0 0x40000 .r…
    ScalarAt (sSp { tm0 with depth := 4 } gSp) g0 gSp ∧
    (sSp { tm0 with depth := 4 } gSp).team g0.team = some { tm0 with depth := 4 } ∧
    (sSp { tm0 with depth := 4 } gSp).liveChildren { tm0 with depth := 4 } < 16 ∧
    4 ≤ { tm0 with depth := 4 }.depth ∧
    -- SpawnResults (sS gr0) base base base g0 gr0 gr0 .dyn 1 2 tm0 tm0 0 5 .refused none 0
    ScalarAt (sS gr0) g0 gr0 ∧
    (sS gr0).team g0.team = some tm0 ∧
    5 = BitVec.toNat (gr0.sreg (1 : SReg)) ∧
    (sS gr0).liveChildren tm0 < 16 ∧
    tm0.depth < 4 ∧
    5 % 8 ≠ 0 :=
  ⟨(ok_pair (by decide +kernel) (by decide +kernel)), (by unfold ScalarAt; decide +kernel),
    (by unfold ScalarAt; decide +kernel)⟩

theorem meets_SpawnResults_2 :
    -- (((SpawnResults ({ sSpw with mem := memK 2, ctxs := sGr.ctxs } : State) spVw.2 spEw.2 spSw g0 gSpw ((spSw.group g0).ge…
    { sSpw with mem := memK 2, ctxs := sGr.ctxs }.vread tm0.ctx 262656 128 false = (Except.ok (spVw.fst.toOption.getD 0),
      spVw.snd) ∧
    (spEw.fst = Entered.refused ∧ some spNw = none ∧ spSw = spEw.snd.draw.snd.setTeam g0.team
      { spTw with children := spTw.children ++ [{ handle := spHw, grid := none, joined := false : Child }] } ∨ ∃ n, spEw.fst =
      Entered.grid n ∧ some spNw = some n ∧ spSw = (spEw.snd.draw.snd.setTeam g0.team
      { spTw with children := spTw.children ++ [{ handle := spHw, grid := some n, joined := false : Child }] }).testDependence
      n) ∧
    ScalarAt { sSpw with mem := memK 2, ctxs := sGr.ctxs } g0 gSpw ∧
    { sSpw with mem := memK 2, ctxs := sGr.ctxs }.team g0.team = some tm0 ∧
    { sSpw with mem := memK 2, ctxs := sGr.ctxs }.liveChildren tm0 < 16 ∧
    (spI.level = (Option.map (fun x => x.level) (spVw.snd.grid tm0.grid)).getD 0) ∧
    (spI.inst = (spVw.snd.grid tm0.grid).bind fun x => x.inst) ∧
    spVw.snd.enterLaunch spI (spVw.fst.toOption.getD 0) = (spEw.fst, spEw.snd) ∧
    spEw.snd.team g0.team = some spTw ∧
    spHw = handleOf ((some spNw).getD 4294967295) spEw.snd.draw.fst ∧
    spSw.group g0 = some ((spSw.group g0).getD gSpw) ∧
    spSw.grid spNw = some ((spSw.grid spNw).getD grid0) ∧
    ((spSw.grid spNw).getD grid0).phase = LaunchPhase.specialise :=
  ⟨(ok_pair (by decide +kernel) (by decide +kernel)), .inr ⟨_, by decide +kernel, rfl, rfl⟩,
    (by unfold ScalarAt; decide +kernel)⟩

theorem meets_InvalidationEnds :
    -- InvalidationEnds sI vI
    sI.invals = [vI] ∧
    sI.rangeQuiet vI.ctx vI.base vI.bytes = true ∧
    { ctx := 1, base := 524288, lg := 12, pte := (1 : W64) : Tlb } ∈ (nx (exec Instr.invalidationComplete sI)).tlb ∧
    { ctx := 1, base := 524288, lg := 12, pte := (1 : W64) : Tlb }.ctx = vI.ctx ∧
    (sI.sendContext vI.ctx).queue vI.queue = some queueW1 ∧
    queueW1.packets = [packetW1] ∧
    packetW1.seq = vI.seq ∧
    packetW1.status = none ∧
    -- InvalidationEnds {sI with groups := [(g0, {gl0 with out := [⟨5, .gl, false, [⟨.global, .load false, 0x40000, 0x40000, …
    { sI with groups := [(g0, { gl0 with out := [outOpW1] })] }.invals = [vI] ∧
    { sI with groups := [(g0, { gl0 with out := [outOpW1] })] }.rangeQuiet vI.ctx vI.base vI.bytes = false :=
  by decide +kernel

theorem meets_ServeKindResults :
    -- ServeKindResults {svi instH (svb 2 5) with recs := [⟨1, 4, [], []⟩, ⟨2, 5, [], []⟩]} 3 (qb (svb 2 5)) pk0 5
    ({ svi instH (svb 2 5) with recs := [{ idx := 1, inst := 4, words := [] : Rec }, { idx := 2, inst := 5, words := [] : Rec }] }.vwrite
      { svi instH (svb 2 5) with recs := [{ idx := 1, inst := 4, words := [] : Rec }, { idx := 2, inst := 5, words := [] : Rec }] }.wellhead
      (qb (svb 2 5)).ctx (instH.desc + 104) 8 1 false).fst = Except.ok () ∧
    (PacketAt
      { svi instH (svb 2 5) with recs := [{ idx := 1, inst := 4, words := [] : Rec }, { idx := 2, inst := 5, words := [] : Rec }] }
      3 (qb (svb 2 5)) pk0 ∧
    ({ svi instH (svb 2 5) with recs := [{ idx := 1, inst := 4, words := [] : Rec }, { idx := 2, inst := 5, words := [] : Rec }] }.inst
      5).isSome = true ∧
    ({ svi instH (svb 2 5) with recs := [{ idx := 1, inst := 4, words := [] : Rec }, { idx := 2, inst := 5, words := [] : Rec }] }.serveStart
      (qb (svb 2 5)).ctx ((qb (svb 2 5)).body.getD 1 0) 5).snd.queue 3 = some (qb (svb 2 5)) ∧
    { svi instH (svb 2 5) with recs := [{ idx := 1, inst := 4, words := [] : Rec }, { idx := 2, inst := 5, words := [] : Rec }] }.inst
      5 = some instH ∧
    instH.ctx = (qb (svb 2 5)).ctx ∧
    instH.desc = (qb (svb 2 5)).body.getD 1 0 ∧
    (instH.status = InstStatus.halted ∨ instH.phase = StepPhase.start 1) ∧
    { svi instH (svb 2 5) with recs := [{ idx := 1, inst := 4, words := [] : Rec }, { idx := 2, inst := 5, words := [] : Rec }] }.instMoves
      instH = false ∧
    { idx := 1, inst := 4, words := [] : Rec } ∈ (nx (exec Instr.serveStop
      { svi instH (svb 2 5) with recs := [{ idx := 1, inst := 4, words := [] : Rec }, { idx := 2, inst := 5, words := [] : Rec }] })).recs ∧
    instH.status = InstStatus.halted ∧
    ({ svi instH (svb 2 5) with recs := [{ idx := 1, inst := 4, words := [] : Rec }, { idx := 2, inst := 5, words := [] : Rec }] }.vwrite
      { svi instH (svb 2 5) with recs := [{ idx := 1, inst := 4, words := [] : Rec }, { idx := 2, inst := 5, words := [] : Rec }] }.wellhead
      (qb (svb 2 5)).ctx (instH.desc + 104) 8 1 false).snd.queue 3 = some (qb (svb 2 5)) ∧
    ({ svi instH (svb 2 5) with recs := [{ idx := 1, inst := 4, words := [] : Rec }, { idx := 2, inst := 5, words := [] : Rec }] }.vwrite
      { svi instH (svb 2 5) with recs := [{ idx := 1, inst := 4, words := [] : Rec }, { idx := 2, inst := 5, words := [] : Rec }] }.wellhead
      (qb (svb 2 5)).ctx (instH.desc + 104) 8 1 false).snd.insts =
      { svi instH (svb 2 5) with recs := [{ idx := 1, inst := 4, words := [] : Rec }, { idx := 2, inst := 5, words := [] : Rec }] }.insts) ∧
    -- ServeKindResults (svi inst0_2 (svb 0 5)) 3 (qb (svb 0 5)) pk0 5
    (PacketAt (svi inst0_2 (svb 0 5)) 3 (qb (svb 0 5)) pk0 ∧
    5 = (qb (svb 0 5)).body.getD 2 0 / 2 ^ 8 % 16 ∧
    ((svi inst0_2 (svb 0 5)).inst 5).isSome = true ∧
    ((qb (svb 0 5)).body.getD 2 0 / 2 ^ 12 = 0 ∧ (qb (svb 0 5)).body.getD 2 0 / 4 % 2 ^ 6 = 0) ∧
    ((svi inst0_2 (svb 0 5)).serveStart (qb (svb 0 5)).ctx ((qb (svb 0 5)).body.getD 1 0) 5).snd.queue 3 = some (qb (svb 0 5)) ∧
    (svi inst0_2 (svb 0 5)).inst 5 = some inst0_2 ∧
    inst0_2.ctx = (qb (svb 0 5)).ctx ∧
    inst0_2.desc = (qb (svb 0 5)).body.getD 1 0 ∧
    inst0_2.status = InstStatus.running ∧
    inst0_2.phase ≠ StepPhase.start 1 ∧
    (inst0_2.status ≠ InstStatus.halted ∨ inst0_2.ctx ≠ (qb (svb 0 5)).ctx) ∧
    -- ServeKindResults (svi instH (0::0x60100::[1+64])) 3 (qb (0::0x60100::[1+64])) pk0 0
    PacketAt (svi instH [0, 393472, 1 + 64]) 3 (qb [0, 393472, 1 + 64]) pk0 ∧
    0 = (qb [0, 393472, 1 + 64]).body.getD 2 0 / 2 ^ 8 % 16 ∧
    (¬((qb [0, 393472, 1 + 64]).body.getD 2 0 / 2 ^ 12 = 0 ∧ (qb [0, 393472, 1 + 64]).body.getD 2 0 / 4 % 2 ^ 6 = 0)) ∧
    (svi instH [0, 393472, 1 + 64]).inst 0 = none) ∧
    -- ServeKindResults (svi {instH with ctx := 2} (svb 2 5)) 3 (qb (svb 2 5)) pk0 5
    PacketAt (svi { instH with ctx := 2 } (svb 2 5)) 3 (qb (svb 2 5)) pk0 ∧
    5 = (qb (svb 2 5)).body.getD 2 0 / 2 ^ 8 % 16 ∧
    ((svi { instH with ctx := 2 } (svb 2 5)).inst 5).isSome = true ∧
    ((qb (svb 2 5)).body.getD 2 0 / 2 ^ 12 = 0 ∧ (qb (svb 2 5)).body.getD 2 0 / 4 % 2 ^ 6 = 0) ∧
    ((svi { instH with ctx := 2 } (svb 2 5)).serveStart (qb (svb 2 5)).ctx ((qb (svb 2 5)).body.getD 1 0) 5).snd.queue 3 = some
      (qb (svb 2 5)) ∧
    (svi { instH with ctx := 2 } (svb 2 5)).inst 5 = some instW1 ∧
    (instW1.ctx ≠ (qb (svb 2 5)).ctx ∨ instW1.desc ≠ (qb (svb 2 5)).body.getD 1 0) ∧
    (instW1.status ≠ InstStatus.halted ∨ instW1.ctx ≠ (qb (svb 2 5)).ctx) ∧
    -- (ServeKindResults (svS (svb 0 5)) 3 (qb (svb 0 5)) pk0 5).2.2.2.2.1 r0.1 r0.2
    PacketAt (svS (svb 0 5)) 3 (qb (svb 0 5)) pk0 ∧
    (svS (svb 0 5)).serveStart (qb (svb 0 5)).ctx ((qb (svb 0 5)).body.getD 1 0) 5 = (r0.fst, r0.snd) ∧
    r0.snd.queue 3 = some (qb (svb 0 5)) ∧
    r0.fst = true :=
  ⟨(except_of (by decide +kernel) (by decide +kernel)), (by unfold PacketAt; decide +kernel),
    (by unfold PacketAt; decide +kernel), (by unfold PacketAt; decide +kernel)⟩

theorem meets_CheckpointResults :
    -- CheckpointResults.1 (sck cs0 .off 0) 3 { qb cs0 with func := 0 } pk0 (nC (sck cs0 .off 0)).1 (nC (sck cs0 .off 0)).2
    (PacketAt (sck cs0 Phase.off 0) 3 { qb cs0 with func := 0 } pk0 ∧
    (sck cs0 Phase.off 0).namedContexts = ((nC (sck cs0 Phase.off 0)).fst, (nC (sck cs0 Phase.off 0)).snd) ∧
    { qb cs0 with func := 0 }.func = 0 ∧
    (nC (sck cs0 Phase.off 0)).snd.allOff (nC (sck cs0 Phase.off 0)).fst = true ∧
    PlainHomes (sck cs0 Phase.off 0) ∧
    NothingLocked (sck cs0 Phase.off 0) ∧
    (sck cs0 Phase.off 0).ctl.setTab = 0 ∧
    (List.filter (fun k => (nC (sck cs0 Phase.off 0)).fst.contains k.ctx) (nC (sck cs0 Phase.off 0)).snd.vault = [chunkW1]) ∧
    swf chunkW1.data = true ∧
    chunkW1.pa = some 262144 ∧
    (∀ (b : Nat × BitVec 8), b ∈ chunkW1.data → 262144 ≤ b.fst ∧ b.fst < 262144 + chunkW1.bytes) ∧
    ((nC (sck cs0 Phase.off 0)).snd.pick 2).fst = 0) ∧
    (262144 ≤ 262144 ∧
    262144 < 262144 + chunkW1.bytes ∧
    (0 < 262144 ∨ 262144 + chunkW1.bytes ≤ 0) ∧
    -- CheckpointResults.1 (sck cs0 .running 0) 3 { qb cs0 with func := 0 } pk0 (nC (sck cs0 .running 0)).1 (nC (sck cs0 .run…
    PacketAt (sck cs0 Phase.running 0) 3 { qb cs0 with func := 0 } pk0 ∧
    (sck cs0 Phase.running 0).namedContexts = ((nC (sck cs0 Phase.running 0)).fst, (nC (sck cs0 Phase.running 0)).snd) ∧
    (nC (sck cs0 Phase.running 0)).snd.allOff (nC (sck cs0 Phase.running 0)).fst = false ∧
    -- CheckpointResults.1 (sck cs0 .off 1) 3 { qb cs0 with func := 1 } pk0 (nC (sck cs0 .off 1)).1 (nC (sck cs0 .off 1)).2
    PacketAt (sck cs0 Phase.off 1) 3 { qb cs0 with func := 1 } pk0 ∧
    (sck cs0 Phase.off 1).namedContexts = ((nC (sck cs0 Phase.off 1)).fst, (nC (sck cs0 Phase.off 1)).snd) ∧
    { qb cs0 with func := 1 }.func ≠ 0 ∧
    -- CheckpointResults.2 scc scc1 ⟨3, 7, [1]⟩ []
    scc.checkpoints = [{ queue := 3, seq := 7, ctxs := [1] : Checkpoint }] ∧
    (scc1 = List.foldl (fun s c => s.sendContext c) { scc with checkpoints := [] }
      { queue := 3, seq := 7, ctxs := [1] : Checkpoint }.ctxs) ∧
    scc1.poison = [] ∧
    scc1.checkpoints = [] ∧
    (∃ x ∈ (nx (exec Instr.checkpointComplete scc)).vault, x.ctx ∈ [1] ∧ x.pa = some 0) ∧
    chunkW2.ctx ∈ { queue := 3, seq := 7, ctxs := [1] : Checkpoint }.ctxs ∧
    chunkW2.pa = some 0) ∧
    scc1.vault = scc.vault ∧
    chunkW3 ∈ scc.vault ∧
    ¬chunkW3.ctx ∈ { queue := 3, seq := 7, ctxs := [1] : Checkpoint }.ctxs :=
  ⟨(by unfold NothingLocked PacketAt PlainHomes; decide +kernel), (by unfold PacketAt; decide +kernel), by decide +kernel⟩

theorem meets_StepRunsQueueWord :
    -- StepRunsQueueWord (State.reset.placeWord 64 0x0230000000000008) 0 [] (placedQueue 0x0230000000000008) packet0 (.qld 3 …
    decodeQueue ((placedQueue 157625986957967368).words.getD (placedQueue 157625986957967368).pc 0) = Except.ok (Instr.qld (3 :
      QReg) (0 : QWin) (0 : QReg) (8 : W32)) ∧
    (State.reset.placeWord 64 157625986957967368).agenda = [Move.queueWord 0] ∧
    (State.reset.placeWord 64 157625986957967368).fatal = false ∧
    (State.reset.placeWord 64 157625986957967368).inReset = false ∧
    (State.reset.placeWord 64 157625986957967368).queue 0 = some (placedQueue 157625986957967368) ∧
    (placedQueue 157625986957967368).current = some packet0 ∧
    (placedQueue 157625986957967368).resident = true ∧
    (placedQueue 157625986957967368).waitv = none ∧
    packet0.waitOther = false ∧
    (placedQueue 157625986957967368).prog ≠ 0 ∧
    (placedQueue 157625986957967368).ran < wordLimit :=
  ⟨(except_of (by decide +kernel) (by decide +kernel)), by decide +kernel⟩

theorem meets_ScalarLoadResults :
    -- ScalarLoadResults sm (ca sm gr0 0x40080 8 8 true false true).2 g0 gr0 .dyn .b64 3 7 0x80 (0x40080) 8 (ca sm gr0 0x4008…
    sm.checkGlobal (sm.ctxOf g0) (BitVec.toNat (262272 : W64)) 8 8 true false true (!gr0.skipS.wp) (some g0.core) (sm.teamIdOf
      g0) = ((ca sm gr0 262272 8 8 true false true).fst, (ca sm gr0 262272 8 8 true false true).snd) ∧
    (ca sm gr0 262272 8 8 true false true).fst = .ok
      { pa := 262272, r := true, w := true, x := true, host := false, mor := false : Xl } ∧
    (ScalarAt sm g0 gr0 ∧
    (262272 : W64) = gr0.sreg (7 : SReg) + BitVec.signExtend 64 (128 : BitVec 9) ∧
    8 = SSize.b64.bytes ∧
    { pa := 262272, r := true, w := true, x := true, host := false, mor := false : Xl }.host = false ∧
    PlainHomes (ca sm gr0 262272 8 8 true false true).snd ∧
    NoWrap (ca sm gr0 262272 8 8 true false true).snd g0.core 6 1 ∧
    NoCopy (ca sm gr0 262272 8 8 true false true).snd g0.core (lineOf
      { pa := 262272, r := true, w := true, x := true, host := false, mor := false : Xl }.pa) ∧
    { pa := 262272, r := true, w := true, x := true, host := false, mor := false : Xl }.pa % 8 = 0) ∧
    -- ScalarLoadResults sm (ca sm gr0 0x40001 2 2 true false true).2 g0 gr0 .dyn .i16 3 7 1 (0x40001) 2 (ca sm gr0 0x40001 2…
    sm.checkGlobal (sm.ctxOf g0) (BitVec.toNat (262145 : W64)) 2 2 true false true (!gr0.skipS.wp) (some g0.core) (sm.teamIdOf
      g0) = ((ca sm gr0 262145 2 2 true false true).fst, (ca sm gr0 262145 2 2 true false true).snd) ∧
    (ca sm gr0 262145 2 2 true false true).fst = .error { cause := Cause.alignment, info := 0 : Meet } ∧
    ((262145 : W64) = gr0.sreg (7 : SReg) + BitVec.signExtend 64 (1 : BitVec 9) ∧
    2 = SSize.i16.bytes) ∧
    -- ScalarLoadResults smH (ca smH gr0 0x40080 4 4 true false true).2 g0 gr0 .dyn .i32 3 7 0x80 (0x40080) 4 (ca smH gr0 0x4…
    smH.checkGlobal (smH.ctxOf g0) (BitVec.toNat (262272 : W64)) 4 4 true false true (!gr0.skipS.wp) (some g0.core)
      (smH.teamIdOf g0) = ((ca smH gr0 262272 4 4 true false true).fst, (ca smH gr0 262272 4 4 true false true).snd) ∧
    (ca smH gr0 262272 4 4 true false true).fst = .ok
      { pa := 262272, r := true, w := true, x := false, host := true, mor := false : Xl } ∧
    ScalarAt smH g0 gr0 ∧
    4 = SSize.i32.bytes ∧
    { pa := 262272, r := true, w := true, x := false, host := true, mor := false : Xl }.host = true ∧
    PlainHomes (ca smH gr0 262272 4 4 true false true).snd ∧
    NoWrap (ca smH gr0 262272 4 4 true false true).snd g0.core 6 1 ∧
    NoCopy (ca smH gr0 262272 4 4 true false true).snd g0.core (lineOf
      { pa := 262272, r := true, w := true, x := false, host := true, mor := false : Xl }.pa) ∧
    { pa := 262272, r := true, w := true, x := false, host := true, mor := false : Xl }.pa % 4 = 0 :=
  ⟨(ok_pair (by decide +kernel) (by decide +kernel)), (ok_of (by decide +kernel)),
    (by unfold NoCopy NoWrap PlainHomes ScalarAt; decide +kernel),
    (pair_of (by decide +kernel) (by decide +kernel) (by decide +kernel)), (err_of (by decide +kernel)), by decide +kernel,
    (ok_pair (by decide +kernel) (by decide +kernel)), (ok_of (by decide +kernel)),
    (by unfold NoCopy NoWrap PlainHomes ScalarAt; decide +kernel)⟩

theorem meets_ScalarStoreResults :
    -- ScalarStoreResults sm (ca sm gr0 0x40080 4 4 false true true).2 g0 gr0 .dyn .n32 4 7 0x80 (0x40080) 4 (ca sm gr0 0x400…
    sm.checkGlobal (sm.ctxOf g0) (BitVec.toNat (262272 : W64)) 4 4 false true true (!gr0.skipS.wp) (some g0.core) (sm.teamIdOf
      g0) = ((ca sm gr0 262272 4 4 false true true).fst, (ca sm gr0 262272 4 4 false true true).snd) ∧
    (ca sm gr0 262272 4 4 false true true).fst = .ok
      { pa := 262272, r := true, w := true, x := true, host := false, mor := false : Xl } ∧
    (ScalarAt sm g0 gr0 ∧
    (262272 : W64) = gr0.sreg (7 : SReg) + BitVec.signExtend 64 (128 : BitVec 9) ∧
    4 = SSize.n32.bytes ∧
    PlainHomes (ca sm gr0 262272 4 4 false true true).snd ∧
    NoObjectWaits (ca sm gr0 262272 4 4 false true true).snd ∧
    NoWrap (ca sm gr0 262272 4 4 false true true).snd g0.core 2 1 ∧
    { pa := 262272, r := true, w := true, x := true, host := false, mor := false : Xl }.host = false ∧
    (ca sm gr0 262272 4 4 false true true).snd.mustHold (Held.scalar g0)
      { pa := 262272, r := true, w := true, x := true, host := false, mor := false : Xl }.pa = false ∧
    { pa := 262272, r := true, w := true, x := true, host := false, mor := false : Xl }.mor = false ∧
    (0 < { pa := 262272, r := true, w := true, x := true, host := false, mor := false : Xl }.pa ∨
      { pa := 262272, r := true, w := true, x := true, host := false, mor := false : Xl }.pa + 4 ≤ 0) ∧
    { core := 0, slot := 0, gid := 1 : GRef } ≠ g0) ∧
    -- ScalarStoreResults sm (ca sm gr0 0x40002 4 4 false true true).2 g0 gr0 .dyn .n32 4 7 2 (0x40002) 4 (ca sm gr0 0x40002 …
    sm.checkGlobal (sm.ctxOf g0) (BitVec.toNat (262146 : W64)) 4 4 false true true (!gr0.skipS.wp) (some g0.core) (sm.teamIdOf
      g0) = ((ca sm gr0 262146 4 4 false true true).fst, (ca sm gr0 262146 4 4 false true true).snd) ∧
    (ca sm gr0 262146 4 4 false true true).fst = .error { cause := Cause.alignment, info := 0 : Meet } ∧
    (262146 : W64) = gr0.sreg (7 : SReg) + BitVec.signExtend 64 (2 : BitVec 9) ∧
    -- ScalarStoreResults smH (ca smH gr0 0x40080 4 4 false true true).2 g0 gr0 .dyn .n32 4 7 0x80 (0x40080) 4 (ca smH gr0 0x…
    smH.checkGlobal (smH.ctxOf g0) (BitVec.toNat (262272 : W64)) 4 4 false true true (!gr0.skipS.wp) (some g0.core)
      (smH.teamIdOf g0) = ((ca smH gr0 262272 4 4 false true true).fst, (ca smH gr0 262272 4 4 false true true).snd) ∧
    (ca smH gr0 262272 4 4 false true true).fst = .ok
      { pa := 262272, r := true, w := true, x := false, host := true, mor := false : Xl } ∧
    (ScalarAt smH g0 gr0 ∧
    NoObjectWaits (ca smH gr0 262272 4 4 false true true).snd ∧
    NoWrap (ca smH gr0 262272 4 4 false true true).snd g0.core 2 1 ∧
    { pa := 262272, r := true, w := true, x := false, host := true, mor := false : Xl }.host = true ∧
    (0 < { pa := 262272, r := true, w := true, x := false, host := true, mor := false : Xl }.pa ∨
      { pa := 262272, r := true, w := true, x := false, host := true, mor := false : Xl }.pa + 4 ≤ 0)) ∧
    -- (ScalarStoreResults smM (ca smM gr0 0x40080 4 4 false true true).2 g0 gr0 .dyn .n32 4 7 0x80 (0x40080) 4 (ca smM gr0 0…
    smM.checkGlobal (smM.ctxOf g0) (BitVec.toNat (262272 : W64)) 4 4 false true true (!gr0.skipS.wp) (some g0.core)
      (smM.teamIdOf g0) = ((ca smM gr0 262272 4 4 false true true).fst, (ca smM gr0 262272 4 4 false true true).snd) ∧
    (ca smM gr0 262272 4 4 false true true).fst = Except.ok
      { pa := 262272, r := true, w := true, x := true, host := false, mor := false : Xl } ∧
    (ScalarAt smM g0 gr0 ∧
    (ca smM gr0 262272 4 4 false true true).snd.mustHold (Held.scalar g0)
      { pa := 262272, r := true, w := true, x := true, host := false, mor := false : Xl }.pa = true) ∧
    -- (ScalarStoreResults smM (ca smM gr0 0x40080 4 4 false true true).2 g0 gr0 .dyn .n32 4 7 0x80 (0x40080) 4 (ca smM gr0 0…
    (ca smM gr0 262272 4 4 false true true).snd.locked
      { pa := 262272, r := true, w := true, x := true, host := false, mor := false : Xl }.pa = true :=
  ⟨(ok_pair (by decide +kernel) (by decide +kernel)), (ok_of (by decide +kernel)),
    (by unfold NoObjectWaits NoWrap PlainHomes ScalarAt; decide +kernel),
    (pair_of (by decide +kernel) (by decide +kernel) (by decide +kernel)), (err_of (by decide +kernel)), by decide +kernel,
    (ok_pair (by decide +kernel) (by decide +kernel)), (ok_of (by decide +kernel)),
    (by unfold NoObjectWaits NoWrap ScalarAt; decide +kernel), (ok_pair (by decide +kernel) (by decide +kernel)),
    (except_of (by decide +kernel) (by decide +kernel)), (by unfold ScalarAt; decide +kernel), by decide +kernel⟩

theorem meets_ScalarAtomicResults :
    -- ScalarAtomicResults sm (ca sm gr0 0x40000 4 4 true true false).2 g0 gr0 .dyn .add .w32 7 4 2 2 (ca sm gr0 0x40000 4 4 …
    sm.checkGlobal (sm.ctxOf g0) (BitVec.toNat (gr0.sreg (7 : SReg))) AWidth.w32.bytes AWidth.w32.bytes true true false
      (!gr0.skipS.wp) (some g0.core) (sm.teamIdOf g0) = ((ca sm gr0 262144 4 4 true true false).fst, (ca sm gr0 262144 4 4 true
      true false).snd) ∧
    (ca sm gr0 262144 4 4 true true false).fst = .ok
      { pa := 262144, r := true, w := true, x := true, host := false, mor := false : Xl } ∧
    (ScalarAt sm g0 gr0 ∧
    (↑(2 : SReg) : Nat) = (↑(2 : Fin 16) : Nat) ∧
    PlainHomes (ca sm gr0 262144 4 4 true true false).snd ∧
    NoObjectWaits (ca sm gr0 262144 4 4 true true false).snd ∧
    NoWrap (ca sm gr0 262144 4 4 true true false).snd g0.core 2 1 ∧
    (ca sm gr0 262144 4 4 true true false).snd.mustHold (Held.scalar g0)
      { pa := 262144, r := true, w := true, x := true, host := false, mor := false : Xl }.pa = false ∧
    { pa := 262144, r := true, w := true, x := true, host := false, mor := false : Xl }.mor = false ∧
    (0 < { pa := 262144, r := true, w := true, x := true, host := false, mor := false : Xl }.pa ∨
      { pa := 262144, r := true, w := true, x := true, host := false, mor := false : Xl }.pa + AWidth.w32.bytes ≤ 0) ∧
    { core := 0, slot := 0, gid := 1 : GRef } ≠ g0) ∧
    -- ScalarAtomicResults smM (ca smM gr0 0x40000 8 8 true true false).2 g0 gr0 .dyn .cas .w64 7 4 9 9 (ca smM gr0 0x40000 8…
    smM.checkGlobal (smM.ctxOf g0) (BitVec.toNat (gr0.sreg (7 : SReg))) AWidth.w64.bytes AWidth.w64.bytes true true false
      (!gr0.skipS.wp) (some g0.core) (smM.teamIdOf g0) = ((ca smM gr0 262144 8 8 true true false).fst, (ca smM gr0 262144 8 8
      true true false).snd) ∧
    (ca smM gr0 262144 8 8 true true false).fst = .ok
      { pa := 262144, r := true, w := true, x := true, host := false, mor := false : Xl } ∧
    (ScalarAt smM g0 gr0 ∧
    (↑(9 : SReg) : Nat) = (↑(9 : Fin 16) : Nat) ∧
    (ca smM gr0 262144 8 8 true true false).snd.mustHold (Held.scalar g0)
      { pa := 262144, r := true, w := true, x := true, host := false, mor := false : Xl }.pa = true) ∧
    -- ScalarAtomicResults sMis (ca sMis gr0 5 4 4 true true false).2 g0 gr0 .dyn .add .w32 1 2 3 3 (ca sMis gr0 5 4 4 true t…
    sMis.checkGlobal (sMis.ctxOf g0) (BitVec.toNat (gr0.sreg (1 : SReg))) AWidth.w32.bytes AWidth.w32.bytes true true false
      (!gr0.skipS.wp) (some g0.core) (sMis.teamIdOf g0) = ((ca sMis gr0 5 4 4 true true false).fst, (ca sMis gr0 5 4 4 true
      true false).snd) ∧
    (ca sMis gr0 5 4 4 true true false).fst = .error { cause := Cause.alignment, info := 0 : Meet } ∧
    ScalarAt sMis g0 gr0 ∧
    (↑(3 : SReg) : Nat) = (↑(3 : Fin 16) : Nat) :=
  ⟨(ok_pair (by decide +kernel) (by decide +kernel)), (ok_of (by decide +kernel)),
    (by unfold NoObjectWaits NoWrap PlainHomes ScalarAt; decide +kernel), (ok_pair (by decide +kernel) (by decide +kernel)),
    (ok_of (by decide +kernel)), (by unfold ScalarAt; decide +kernel),
    (pair_of (by decide +kernel) (by decide +kernel) (by decide +kernel)), (err_of (by decide +kernel)),
    (by unfold ScalarAt; decide +kernel)⟩

theorem meets_AtomicOperations :
    -- AtomicOperations .w32 0xFFFFFFFF 5 0xFFFFFFFF
    4294967295 < 2 ^ AWidth.w32.bits ∧
    5 < 2 ^ AWidth.w32.bits ∧
    AOp.add ≠ AOp.fadd ∧
    -- AtomicOperations .w64 0xFFFFFFFFFFFFFFFF 5 3
    18446744073709551615 < 2 ^ AWidth.w64.bits ∧
    5 < 2 ^ AWidth.w64.bits ∧
    18446744073709551615 ≠ 3 :=
  by decide +kernel

theorem meets_AccessCheckOrder_1 :
    -- AccessCheckOrder sm 1 0x40000 4 4 true false true true (some 0) 0 (sm.translate 1 0x40000 (some 0)).1 ((sm.translate 1…
    (sm.translate 1 262144 (some 0) = ((sm.translate 1 262144 (some 0)).fst, (sm.translate 1 262144 (some 0)).snd) ∧
    (∀ (xl : Xl), (sm.translate 1 262144 (some 0)).fst = some xl → (if (262144 + 4 - 1) / 65536 = (262144 / 65536 : Nat) then
      (some { xl with pa := xl.pa + (4 - 1) }, (sm.translate 1 262144 (some 0)).snd) else (sm.translate 1 262144 (some
      0)).snd.translate 1 (262144 + 4 - 1) (some 0)) = (Option.map (fun xl => { xl with pa := xl.pa + (4 - 1) }) (sm.translate
      1 262144 (some 0)).fst, (sm.translate 1 262144 (some 0)).snd)) ∧
    262144 % 4 = 0 ∧
    (sm.translate 1 262144 (some 0)).fst = some
      { pa := 262144, r := true, w := true, x := true, host := false, mor := false : Xl } ∧
    (Option.map (fun xl => { xl with pa := xl.pa + (4 - 1) }) (sm.translate 1 262144 (some 0)).fst = some
      { pa := 262147, r := true, w := true, x := true, host := false, mor := false : Xl }) ∧
    (¬(Denied (sm.translate 1 262144 (some 0)).snd
      { pa := 262144, r := true, w := true, x := true, host := false, mor := false : Xl } true false true ∨ Denied
      (sm.translate 1 262144 (some 0)).snd { pa := 262147, r := true, w := true, x := true, host := false, mor := false : Xl }
      true false true)) ∧
    (¬(Owed (sm.translate 1 262144 (some 0)).snd
      { pa := 262144, r := true, w := true, x := true, host := false, mor := false : Xl } ∨ Owed (sm.translate 1 262144 (some
      0)).snd { pa := 262147, r := true, w := true, x := true, host := false, mor := false : Xl })) ∧
    (true = false ∨ (sm.translate 1 262144 (some 0)).snd.watchHit 1 262144 4 true false = none) ∧
    (¬(true = true ∧ { pa := 262144, r := true, w := true, x := true, host := false, mor := false : Xl }.host = false ∧
      (sm.translate 1 262144 (some 0)).snd.poisoned
      { pa := 262144, r := true, w := true, x := true, host := false, mor := false : Xl }.pa (min 4 (65536 - 262144 % 65536)) =
      true)) ∧
    (¬(true = true ∧ { pa := 262147, r := true, w := true, x := true, host := false, mor := false : Xl }.host = false ∧
      (sm.translate 1 262144 (some 0)).snd.poisoned
      { pa := 262147, r := true, w := true, x := true, host := false, mor := false : Xl }.pa 1 = true)) ∧
    -- AccessCheckOrder sm 1 0x40001 4 4 true false true true (some 0) 0 (sm.translate 1 0x40001 (some 0)).1 ((sm.translate 1…
    sm.translate 1 262145 (some 0) = ((sm.translate 1 262145 (some 0)).fst, (sm.translate 1 262145 (some 0)).snd)) ∧
    ((∀ (xl : Xl), (sm.translate 1 262145 (some 0)).fst = some xl → (if (262145 + 4 - 1) / 65536 = (262145 / 65536 : Nat) then
      (some { xl with pa := xl.pa + (4 - 1) }, (sm.translate 1 262145 (some 0)).snd) else (sm.translate 1 262145 (some
      0)).snd.translate 1 (262145 + 4 - 1) (some 0)) = (Option.map (fun xl => { xl with pa := xl.pa + (4 - 1) }) (sm.translate
      1 262145 (some 0)).fst, (sm.translate 1 262145 (some 0)).snd)) ∧
    262145 % 4 ≠ 0 ∧
    -- AccessCheckOrder sm 1 0x8000000000 4 4 true false true true (some 0) 0 (sm.translate 1 0x8000000000 (some 0)).1 ((sm.t…
    sm.translate 1 549755813888 (some 0) = ((sm.translate 1 549755813888 (some 0)).fst, (sm.translate 1 549755813888 (some
      0)).snd) ∧
    (∀ (xl : Xl), (sm.translate 1 549755813888 (some 0)).fst = some xl → (if (549755813888 + 4 - 1) / 65536 = (549755813888 /
      65536 : Nat) then (some { xl with pa := xl.pa + (4 - 1) }, (sm.translate 1 549755813888 (some 0)).snd) else (sm.translate
      1 549755813888 (some 0)).snd.translate 1 (549755813888 + 4 - 1) (some 0)) = (Option.map (fun xl =>
      { xl with pa := xl.pa + (4 - 1) }) (sm.translate 1 549755813888 (some 0)).fst, (sm.translate 1 549755813888 (some
      0)).snd)) ∧
    549755813888 % 4 = 0 ∧
    (sm.translate 1 549755813888 (some 0)).fst = none ∧
    -- AccessCheckOrder ({ sm with poison := [0x40000/128] } : State) 1 0x40000 4 4 true false true true (some 0) 0 (({ sm wi…
    { sm with poison := [(262144 / 128 : Nat)] }.translate 1 262144 (some 0) =
      (({ sm with poison := [(262144 / 128 : Nat)] }.translate 1 262144 (some 0)).fst,
      ({ sm with poison := [(262144 / 128 : Nat)] }.translate 1 262144 (some 0)).snd) ∧
    (∀ (xl : Xl), ({ sm with poison := [(262144 / 128 : Nat)] }.translate 1 262144 (some 0)).fst = some xl → (if (262144 + 4 -
      1) / 65536 = (262144 / 65536 : Nat) then (some { xl with pa := xl.pa + (4 - 1) },
      ({ sm with poison := [(262144 / 128 : Nat)] }.translate 1 262144 (some 0)).snd) else
      ({ sm with poison := [(262144 / 128 : Nat)] }.translate 1 262144 (some 0)).snd.translate 1 (262144 + 4 - 1) (some 0)) =
      (Option.map (fun xl => { xl with pa := xl.pa + (4 - 1) }) ({ sm with poison := [(262144 / 128 : Nat)] }.translate 1
      262144 (some 0)).fst, ({ sm with poison := [(262144 / 128 : Nat)] }.translate 1 262144 (some 0)).snd)) ∧
    ({ sm with poison := [(262144 / 128 : Nat)] }.translate 1 262144 (some 0)).fst = some
      { pa := 262144, r := true, w := true, x := true, host := false, mor := false : Xl } ∧
    (Option.map (fun xl => { xl with pa := xl.pa + (4 - 1) }) ({ sm with poison := [(262144 / 128 : Nat)] }.translate 1 262144
      (some 0)).fst = some { pa := 262147, r := true, w := true, x := true, host := false, mor := false : Xl }) ∧
    (¬(Denied ({ sm with poison := [(262144 / 128 : Nat)] }.translate 1 262144 (some 0)).snd
      { pa := 262144, r := true, w := true, x := true, host := false, mor := false : Xl } true false true ∨ Denied
      ({ sm with poison := [(262144 / 128 : Nat)] }.translate 1 262144 (some 0)).snd
      { pa := 262147, r := true, w := true, x := true, host := false, mor := false : Xl } true false true)) ∧
    (¬(Owed ({ sm with poison := [(262144 / 128 : Nat)] }.translate 1 262144 (some 0)).snd
      { pa := 262144, r := true, w := true, x := true, host := false, mor := false : Xl } ∨ Owed
      ({ sm with poison := [(262144 / 128 : Nat)] }.translate 1 262144 (some 0)).snd
      { pa := 262147, r := true, w := true, x := true, host := false, mor := false : Xl }))) ∧
    ((true = false ∨ ({ sm with poison := [(262144 / 128 : Nat)] }.translate 1 262144 (some 0)).snd.watchHit 1 262144 4 true
      false = none) ∧
    (true = true ∧ { pa := 262144, r := true, w := true, x := true, host := false, mor := false : Xl }.host = false ∧
      ({ sm with poison := [(262144 / 128 : Nat)] }.translate 1 262144 (some 0)).snd.poisoned
      { pa := 262144, r := true, w := true, x := true, host := false, mor := false : Xl }.pa (min 4 (65536 - 262144 % 65536)) =
      true) ∧
    -- AccessCheckOrder smR 1 0x40000 4 4 false true true true (some 0) 0 (smR.translate 1 0x40000 (some 0)).1 ((smR.translat…
    smR.translate 1 262144 (some 0) = ((smR.translate 1 262144 (some 0)).fst, (smR.translate 1 262144 (some 0)).snd) ∧
    (∀ (xl : Xl), (smR.translate 1 262144 (some 0)).fst = some xl → (if (262144 + 4 - 1) / 65536 = (262144 / 65536 : Nat) then
      (some { xl with pa := xl.pa + (4 - 1) }, (smR.translate 1 262144 (some 0)).snd) else (smR.translate 1 262144 (some
      0)).snd.translate 1 (262144 + 4 - 1) (some 0)) = (Option.map (fun xl => { xl with pa := xl.pa + (4 - 1) }) (smR.translate
      1 262144 (some 0)).fst, (smR.translate 1 262144 (some 0)).snd)) ∧
    (smR.translate 1 262144 (some 0)).fst = some
      { pa := 262144, r := true, w := false, x := true, host := false, mor := false : Xl } ∧
    (Option.map (fun xl => { xl with pa := xl.pa + (4 - 1) }) (smR.translate 1 262144 (some 0)).fst = some
      { pa := 262147, r := true, w := false, x := true, host := false, mor := false : Xl }) ∧
    (Denied (smR.translate 1 262144 (some 0)).snd
      { pa := 262144, r := true, w := false, x := true, host := false, mor := false : Xl } false true true ∨ Denied
      (smR.translate 1 262144 (some 0)).snd
      { pa := 262147, r := true, w := false, x := true, host := false, mor := false : Xl } false true true) ∧
    -- AccessCheckOrder smW 1 0x40FFC 4 4 true false true true (some 0) 0 (smW.translate 1 0x40FFC (some 0)).1 ((smW.translat…
    smW.translate 1 266236 (some 0) = ((smW.translate 1 266236 (some 0)).fst, (smW.translate 1 266236 (some 0)).snd) ∧
    (∀ (xl : Xl), (smW.translate 1 266236 (some 0)).fst = some xl → (if (266236 + 4 - 1) / 65536 = (266236 / 65536 : Nat) then
      (some { xl with pa := xl.pa + (4 - 1) }, (smW.translate 1 266236 (some 0)).snd) else (smW.translate 1 266236 (some
      0)).snd.translate 1 (266236 + 4 - 1) (some 0)) = (Option.map (fun xl => { xl with pa := xl.pa + (4 - 1) }) (smW.translate
      1 266236 (some 0)).fst, (smW.translate 1 266236 (some 0)).snd)) ∧
    266236 % 4 = 0 ∧
    (smW.translate 1 266236 (some 0)).fst = some
      { pa := 266236, r := true, w := true, x := true, host := false, mor := false : Xl } ∧
    (Option.map (fun xl => { xl with pa := xl.pa + (4 - 1) }) (smW.translate 1 266236 (some 0)).fst = some
      { pa := 266239, r := true, w := true, x := true, host := false, mor := false : Xl }) ∧
    (¬(Denied (smW.translate 1 266236 (some 0)).snd
      { pa := 266236, r := true, w := true, x := true, host := false, mor := false : Xl } true false true ∨ Denied
      (smW.translate 1 266236 (some 0)).snd { pa := 266239, r := true, w := true, x := true, host := false, mor := false : Xl }
      true false true))) ∧
    (¬(Owed (smW.translate 1 266236 (some 0)).snd
      { pa := 266236, r := true, w := true, x := true, host := false, mor := false : Xl } ∨ Owed (smW.translate 1 266236 (some
      0)).snd { pa := 266239, r := true, w := true, x := true, host := false, mor := false : Xl })) ∧
    (smW.translate 1 266236 (some 0)).snd.watchHit 1 266236 4 true false = some (0) :=
  ⟨(by unfold Denied Owed; decide +kernel), (by unfold Denied Owed; decide +kernel), (by unfold Denied; decide +kernel),
    (by unfold Owed; decide +kernel)⟩

theorem meets_AccessCheckOrder_2 :
    -- AccessCheckOrder sm 1 0x3FFFFFFC 16 4 true false true true (some 0) 0 (sm.translate 1 0x3FFFFFFC (some 0)).1 ((sm.tran…
    (sm.translate 1 1073741820 (some 0) = ((sm.translate 1 1073741820 (some 0)).fst, (sm.translate 1 1073741820 (some 0)).snd) ∧
    (∀ (xl : Xl), (sm.translate 1 1073741820 (some 0)).fst = some xl → (if (1073741820 + 16 - 1) / 65536 = (1073741820 / 65536
      : Nat) then (some { xl with pa := xl.pa + (16 - 1) }, (sm.translate 1 1073741820 (some 0)).snd) else (sm.translate 1
      1073741820 (some 0)).snd.translate 1 (1073741820 + 16 - 1) (some 0)) = (((sm.translate 1 1073741820 (some
      0)).snd.translate 1 (1073741820 + 16 - 1) (some 0)).fst, ((sm.translate 1 1073741820 (some 0)).snd.translate 1
      (1073741820 + 16 - 1) (some 0)).snd)) ∧
    1073741820 % 4 = 0 ∧
    (sm.translate 1 1073741820 (some 0)).fst.isSome = true ∧
    ((sm.translate 1 1073741820 (some 0)).snd.translate 1 (1073741820 + 16 - 1) (some 0)).fst = none ∧
    -- AccessCheckOrder ({ sm with poison := [0x50000/128] } : State) 1 0x4FFF8 16 4 true false true true (some 0) 0 (({ sm w…
    { sm with poison := [(327680 / 128 : Nat)] }.translate 1 327672 (some 0) =
      (({ sm with poison := [(327680 / 128 : Nat)] }.translate 1 327672 (some 0)).fst,
      ({ sm with poison := [(327680 / 128 : Nat)] }.translate 1 327672 (some 0)).snd) ∧
    (∀ (xl : Xl), ({ sm with poison := [(327680 / 128 : Nat)] }.translate 1 327672 (some 0)).fst = some xl → (if (327672 + 16 -
      1) / 65536 = (327672 / 65536 : Nat) then (some { xl with pa := xl.pa + (16 - 1) },
      ({ sm with poison := [(327680 / 128 : Nat)] }.translate 1 327672 (some 0)).snd) else
      ({ sm with poison := [(327680 / 128 : Nat)] }.translate 1 327672 (some 0)).snd.translate 1 (327672 + 16 - 1) (some 0)) =
      ((({ sm with poison := [(327680 / 128 : Nat)] }.translate 1 327672 (some 0)).snd.translate 1 (327672 + 16 - 1) (some
      0)).fst, (({ sm with poison := [(327680 / 128 : Nat)] }.translate 1 327672 (some 0)).snd.translate 1 (327672 + 16 - 1)
      (some 0)).snd)) ∧
    327672 % 4 = 0 ∧
    ({ sm with poison := [(327680 / 128 : Nat)] }.translate 1 327672 (some 0)).fst = some
      { pa := 327672, r := true, w := true, x := true, host := false, mor := false : Xl } ∧
    (({ sm with poison := [(327680 / 128 : Nat)] }.translate 1 327672 (some 0)).snd.translate 1 (327672 + 16 - 1) (some 0)).fst
      = some { pa := 327687, r := true, w := true, x := true, host := false, mor := false : Xl } ∧
    (¬(Denied (({ sm with poison := [(327680 / 128 : Nat)] }.translate 1 327672 (some 0)).snd.translate 1 (327672 + 16 - 1)
      (some 0)).snd { pa := 327672, r := true, w := true, x := true, host := false, mor := false : Xl } true false true ∨
      Denied (({ sm with poison := [(327680 / 128 : Nat)] }.translate 1 327672 (some 0)).snd.translate 1 (327672 + 16 - 1)
      (some 0)).snd { pa := 327687, r := true, w := true, x := true, host := false, mor := false : Xl } true false true)) ∧
    (¬(Owed (({ sm with poison := [(327680 / 128 : Nat)] }.translate 1 327672 (some 0)).snd.translate 1 (327672 + 16 - 1) (some
      0)).snd { pa := 327672, r := true, w := true, x := true, host := false, mor := false : Xl } ∨ Owed
      (({ sm with poison := [(327680 / 128 : Nat)] }.translate 1 327672 (some 0)).snd.translate 1 (327672 + 16 - 1) (some
      0)).snd { pa := 327687, r := true, w := true, x := true, host := false, mor := false : Xl })) ∧
    (true = false ∨ (({ sm with poison := [(327680 / 128 : Nat)] }.translate 1 327672 (some 0)).snd.translate 1 (327672 + 16 -
      1) (some 0)).snd.watchHit 1 327672 16 true false = none)) ∧
    (¬(true = true ∧ { pa := 327672, r := true, w := true, x := true, host := false, mor := false : Xl }.host = false ∧
      (({ sm with poison := [(327680 / 128 : Nat)] }.translate 1 327672 (some 0)).snd.translate 1 (327672 + 16 - 1) (some
      0)).snd.poisoned { pa := 327672, r := true, w := true, x := true, host := false, mor := false : Xl }.pa (min 16 (65536 -
      327672 % 65536)) = true)) ∧
    (true = true ∧ { pa := 327687, r := true, w := true, x := true, host := false, mor := false : Xl }.host = false ∧
      (({ sm with poison := [(327680 / 128 : Nat)] }.translate 1 327672 (some 0)).snd.translate 1 (327672 + 16 - 1) (some
      0)).snd.poisoned { pa := 327687, r := true, w := true, x := true, host := false, mor := false : Xl }.pa 1 = true) ∧
    -- AccessCheckOrder smU 1 0x40000 4 4 true false true true (some 0) 0 (smU.translate 1 0x40000 (some 0)).1 (((smU.transla…
    smU.translate 1 262144 (some 0) = ((smU.translate 1 262144 (some 0)).fst, (smU.translate 1 262144 (some 0)).snd) ∧
    (∀ (xl : Xl), (smU.translate 1 262144 (some 0)).fst = some xl → (if (262144 + 4 - 1) / 65536 = (262144 / 65536 : Nat) then
      (some { xl with pa := xl.pa + (4 - 1) }, (smU.translate 1 262144 (some 0)).snd) else (smU.translate 1 262144 (some
      0)).snd.translate 1 (262144 + 4 - 1) (some 0)) = ((Option.map (fun xl => { xl with pa := xl.pa + (4 - 1) })
      (smU.translate 1 262144 (some 0)).fst, (smU.translate 1 262144 (some 0)).snd).fst, (Option.map (fun xl =>
      { xl with pa := xl.pa + (4 - 1) }) (smU.translate 1 262144 (some 0)).fst, (smU.translate 1 262144 (some 0)).snd).snd)) ∧
    (smU.translate 1 262144 (some 0)).fst = some
      { pa := 262144, r := true, w := true, x := true, host := false, mor := false : Xl } ∧
    ((Option.map (fun xl => { xl with pa := xl.pa + (4 - 1) }) (smU.translate 1 262144 (some 0)).fst, (smU.translate 1 262144
      (some 0)).snd).fst = some { pa := 262147, r := true, w := true, x := true, host := false, mor := false : Xl }) ∧
    (¬(Denied (Option.map (fun xl => { xl with pa := xl.pa + (4 - 1) }) (smU.translate 1 262144 (some 0)).fst, (smU.translate 1
      262144 (some 0)).snd).snd { pa := 262144, r := true, w := true, x := true, host := false, mor := false : Xl } true false
      true ∨ Denied (Option.map (fun xl => { xl with pa := xl.pa + (4 - 1) }) (smU.translate 1 262144 (some 0)).fst,
      (smU.translate 1 262144 (some 0)).snd).snd
      { pa := 262147, r := true, w := true, x := true, host := false, mor := false : Xl } true false true)) ∧
    (Owed (Option.map (fun xl => { xl with pa := xl.pa + (4 - 1) }) (smU.translate 1 262144 (some 0)).fst, (smU.translate 1
      262144 (some 0)).snd).snd { pa := 262144, r := true, w := true, x := true, host := false, mor := false : Xl } ∨ Owed
      (Option.map (fun xl => { xl with pa := xl.pa + (4 - 1) }) (smU.translate 1 262144 (some 0)).fst, (smU.translate 1 262144
      (some 0)).snd).snd { pa := 262147, r := true, w := true, x := true, host := false, mor := false : Xl }) :=
  ⟨(by unfold Denied Owed; decide +kernel), (by unfold Denied Owed; decide +kernel)⟩

theorem meets_QueueSlotResults_1 :
    -- (QueueSlotResults (sqs qdis qdN) 3 qdis).1 0x90000 qdN ((sqs qdis qdN).pread 0x90000 128).2
    ((sqs qdis qdN).endpointUp = true ∧
    (sqs qdis qdN).queue 3 = some qdis ∧
    3 < 4096 ∧
    qdis.state = QState.disabled ∧
    589824 ≠ 0 ∧
    589824 % 128 = 0 ∧
    589824 + 128 ≤ memTop ∧
    (sqs qdis qdN).pread 589824 128 = (qdN, ((sqs qdis qdN).pread 589824 128).snd) ∧
    queueDescOk qdN = true ∧
    byteField qdN 56 8 = 0 ∧
    -- (QueueSlotResults (sqs qdis (qdN+1)) 3 qdis).2.1 0x90000 (qdN+1) ((sqs qdis (qdN+1)).pread 0x90000 128).2
    (sqs qdis (qdN + 1)).endpointUp = true ∧
    (sqs qdis (qdN + 1)).queue 3 = some qdis ∧
    (sqs qdis (qdN + 1)).pread 589824 128 = (qdN + 1, ((sqs qdis (qdN + 1)).pread 589824 128).snd) ∧
    queueDescOk (qdN + 1) = false ∧
    -- (QueueSlotResults (sqs qdis qdN) 3 qdis).2.2
    (qdis.state ≠ QState.disabled ∨ 0 = 0 ∨ 0 % 128 ≠ 0 ∨ memTop < 0 + 128) ∧
    (qdis.disabling = false ∨ qdis.packets ≠ []) ∧
    -- (QueueSlotResults (sqs {qri with disabling := true} qdN) 3 {qri with disabling := true}).2.2
    (sqs { qri with disabling := true } qdN).endpointUp = true ∧
    (sqs { qri with disabling := true } qdN).queue 3 = some { qri with disabling := true }) ∧
    (({ qri with disabling := true }.state ≠ QState.disabled ∨ 0 = 0 ∨ 0 % 128 ≠ 0 ∨ memTop < 0 + 128) ∧
    { qri with disabling := true }.state ≠ QState.disabled ∧
    { qri with disabling := true }.state = QState.idle ∧
    { qri with disabling := true }.packets = [] ∧
    { qri with disabling := true }.resident = true ∧
    { qri with disabling := true }.disabling = true ∧
    0 ≠ 3 ∧
    PlainHomes (sqs { qri with disabling := true } qdN) ∧
    NothingLocked (sqs { qri with disabling := true } qdN) ∧
    NoObjectWaits (sqs { qri with disabling := true } qdN) ∧
    (sqs { qri with disabling := true } qdN).frameOwner = [] ∧
    (sqs { qri with disabling := true } qdN).ctl.setLen = 0 ∧
    { qri with disabling := true }.desc % 128 = 0) ∧
    (0 < { qri with disabling := true }.desc + 28 ∨ { qri with disabling := true }.desc + 32 ≤ 0) ∧
    (0 < { qri with disabling := true }.desc + 44 ∨ { qri with disabling := true }.desc + 48 ≤ 0) ∧
    (0 < { qri with disabling := true }.desc + 112 ∨ { qri with disabling := true }.desc + 116 ≤ 0) ∧
    { qri with disabling := true }.busy = false :=
  ⟨by decide +kernel, (by unfold NoObjectWaits NothingLocked PlainHomes; decide +kernel), by decide +kernel⟩

theorem meets_QueueSlotResults_2 :
    -- (QueueSlotResults (sqs {qri with resident := false} qdN) 3 {qri with resident := false}).2.2
    ((sqs { qri with resident := false } qdN).endpointUp = true ∧
    (sqs { qri with resident := false } qdN).queue 3 = some { qri with resident := false } ∧
    ({ qri with resident := false }.state ≠ QState.disabled ∨ 0 = 0 ∨ 0 % 128 ≠ 0 ∨ memTop < 0 + 128) ∧
    { qri with resident := false }.state ≠ QState.disabled ∧
    { qri with resident := false }.resident = false ∧
    ({ qri with resident := false }.disabling = false ∨ { qri with resident := false }.packets ≠ []) ∧
    (List.filter (fun p => !p.snd.resident && p.snd.state != QState.disabled) (sqs { qri with resident := false } qdN).queues =
      [(3, { qri with resident := false })]) ∧
    (sqs { qri with resident := false } qdN).residents < 256 ∧
    -- (QueueSlotResults (sqs qw qdN) 3 qw).2.2
    (sqs qw qdN).endpointUp = true ∧
    (sqs qw qdN).queue 3 = some qw ∧
    (qw.state ≠ QState.disabled ∨ 0 = 0 ∨ 0 % 128 ≠ 0 ∨ memTop < 0 + 128) ∧
    qw.state ≠ QState.disabled ∧
    (qw.disabling = false ∨ qw.packets ≠ []) ∧
    qw.resident = true ∧
    qw.busy = true ∧
    qw.packets.length = 1) ∧
    qw.waitv = some (1, 2, 3) ∧
    -- (QueueSlotResults (sqs {qw with waitv := none} qdN) 3 {qw with waitv := none}).2.2
    (sqs { qw with waitv := none } qdN).endpointUp = true ∧
    (sqs { qw with waitv := none } qdN).queue 3 = some { qw with waitv := none } ∧
    ({ qw with waitv := none }.state ≠ QState.disabled ∨ 0 = 0 ∨ 0 % 128 ≠ 0 ∨ memTop < 0 + 128) ∧
    { qw with waitv := none }.state ≠ QState.disabled ∧
    ({ qw with waitv := none }.disabling = false ∨ { qw with waitv := none }.packets ≠ []) ∧
    { qw with waitv := none }.resident = true ∧
    { qw with waitv := none }.busy = true ∧
    { qw with waitv := none }.waitv = none :=
  ⟨by decide +kernel, by decide +kernel⟩

theorem meets_PacketTakeResults :
    -- (PacketTakeResults (sqt qt (hdr 2 8 0)) ((sqt qt (hdr 2 8 0)).pread 0x80000 8).2 (tkH qt (hdr 2 8 0)).2 ((tkH qt (hdr …
    ((sqt qt (hdr 2 8 0)).queue 3 = some qt ∧
    qt.newProg = none ∧
    (sqt qt (hdr 2 8 0)).pread (qt.seg + qt.offset) 8 = (hdr 2 8 0, ((sqt qt (hdr 2 8 0)).pread 524288 8).snd) ∧
    64 = 64 * 2 ^ min 4 (hdr 2 8 0 / 2 ^ 8 % 2 ^ 4) ∧
    ((sqt qt (hdr 2 8 0)).pread 524288 8).snd.linkHeld (hdr 2 8 0 % 256) = ((tkH qt (hdr 2 8 0)).fst, (tkH qt (hdr 2 8 0)).snd) ∧
    hdr 2 8 0 % 256 ≠ 1 ∧
    qt.takes = true ∧
    (tkH qt (hdr 2 8 0)).fst = false ∧
    hdr 2 8 0 / 2 ^ 32 = qt.seq ∧
    (qt.headerOk (hdr 2 8 0) = false ∨ (sqt qt (hdr 2 8 0)).mayIssueKind qt (hdr 2 8 0 % 256) = false) ∧
    -- (PacketTakeResults (sqt qt (hdr 2 7 0)) ((sqt qt (hdr 2 7 0)).pread 0x80000 8).2 (tkH qt (hdr 2 7 0)).2 ((tkH qt (hdr …
    (sqt qt (hdr 2 7 0)).queue 3 = some qt ∧
    (sqt qt (hdr 2 7 0)).pread (qt.seg + qt.offset) 8 = (hdr 2 7 0, ((sqt qt (hdr 2 7 0)).pread 524288 8).snd) ∧
    64 = 64 * 2 ^ min 4 (hdr 2 7 0 / 2 ^ 8 % 2 ^ 4) ∧
    ((sqt qt (hdr 2 7 0)).pread 524288 8).snd.linkHeld (hdr 2 7 0 % 256) = ((tkH qt (hdr 2 7 0)).fst, (tkH qt (hdr 2 7 0)).snd) ∧
    hdr 2 7 0 % 256 ≠ 1 ∧
    (tkH qt (hdr 2 7 0)).fst = false ∧
    hdr 2 7 0 / 2 ^ 32 ≠ qt.seq ∧
    -- (PacketTakeResults (sqt {qt with state := .error} (hdr 2 8 0)) ((sqt {qt with state := .error} (hdr 2 8 0)).pread 0x80…
    (sqt { qt with state := QState.error } (hdr 2 8 0)).queue 3 = some { qt with state := QState.error } ∧
    { qt with state := QState.error }.newProg = none ∧
    (sqt { qt with state := QState.error } (hdr 2 8 0)).pread ({ qt with state := QState.error }.seg +
      { qt with state := QState.error }.offset) 8 = (hdr 2 8 0, ((sqt { qt with state := QState.error } (hdr 2 8 0)).pread
      524288 8).snd) ∧
    ((sqt { qt with state := QState.error } (hdr 2 8 0)).pread 524288 8).snd.linkHeld (hdr 2 8 0 % 256) = ((tkH
      { qt with state := QState.error } (hdr 2 8 0)).fst, (tkH { qt with state := QState.error } (hdr 2 8 0)).snd) ∧
    { qt with state := QState.error }.takes = false ∧
    -- (PacketTakeResults (sqt qt (hdr 0 8 0)) ((sqt qt (hdr 0 8 0)).pread 0x80000 8).2 (tkH qt (hdr 0 8 0)).2 ((tkH qt (hdr …
    (sqt qt (hdr 0 8 0)).queue 3 = some qt) ∧
    (sqt qt (hdr 0 8 0)).pread (qt.seg + qt.offset) 8 = (hdr 0 8 0, ((sqt qt (hdr 0 8 0)).pread 524288 8).snd) ∧
    64 = 64 * 2 ^ min 4 (hdr 0 8 0 / 2 ^ 8 % 2 ^ 4) ∧
    ((sqt qt (hdr 0 8 0)).pread 524288 8).snd.linkHeld (hdr 0 8 0 % 256) = ((tkH qt (hdr 0 8 0)).fst, (tkH qt (hdr 0 8 0)).snd) ∧
    hdr 0 8 0 % 256 ≠ 1 ∧
    (tkH qt (hdr 0 8 0)).fst = false ∧
    hdr 0 8 0 / 2 ^ 32 = qt.seq ∧
    qt.headerOk (hdr 0 8 0) = true ∧
    (sqt qt (hdr 0 8 0)).mayIssueKind qt (hdr 0 8 0 % 256) = true ∧
    (tkH qt (hdr 0 8 0)).snd.pread (qt.seg + qt.offset) 64 = (hdr 0 8 0 + 4886718345 * 2 ^ 64, ((tkH qt (hdr 0 8 0)).snd.pread
      524288 64).snd) ∧
    -- PacketTakeResults sLk (sLk.pread 0x80000 8).2 ((sLk.pread 0x80000 8).2.linkHeld 1).2 base 3 qt (hdr 1 8 0) 8 1 64 0 ((…
    sLk.queue 3 = some qt ∧
    sLk.pread (qt.seg + qt.offset) 8 = (hdr 1 8 0, (sLk.pread 524288 8).snd) ∧
    8 = hdr 1 8 0 / 2 ^ 32 ∧
    1 = hdr 1 8 0 % 256 ∧
    64 = 64 * 2 ^ min 4 (hdr 1 8 0 / 2 ^ 8 % 2 ^ 4) ∧
    (sLk.pread 524288 8).snd.linkHeld 1 = (((sLk.pread 524288 8).snd.linkHeld 1).fst, ((sLk.pread 524288 8).snd.linkHeld
      1).snd) ∧
    ((sLk.pread 524288 8).snd.linkHeld 1).fst = true :=
  ⟨by decide +kernel, by decide +kernel⟩

theorem meets_CompletionEntryResults :
    -- CompletionEntryResults (sqs qce 0) 3 qce (qce.packets.headD pk0) [] 3
    (sqs qce 0).queue 3 = some qce ∧
    qce.packets = [qce.packets.headD pk0] ∧
    (qce.packets.headD pk0).status = some 3 ∧
    (qce.packets.headD pk0).waitGrids = [] ∧
    (qce.packets.headD pk0).dropped = none ∧
    (qce.packets.headD pk0).linkFrom = none ∧
    (qce.busy = true → ([] : List Packet) ≠ []) ∧
    qce.resident = true ∧
    (sqs qce 0).completionRoom qce = true ∧
    -- CompletionEntryResults (sqs {qce with resident := false} 0) 3 {qce with resident := false} (qce.packets.headD pk0) [] …
    (sqs { qce with resident := false } 0).queue 3 = some { qce with resident := false } ∧
    { qce with resident := false }.packets = [qce.packets.headD pk0] ∧
    ({ qce with resident := false }.busy = true → ([] : List Packet) ≠ []) ∧
    ({ qce with resident := false }.resident = false ∨ (sqs { qce with resident := false } 0).completionRoom
      { qce with resident := false } = false) :=
  by decide +kernel

theorem meets_HostAccessResults :
    -- HostAccessResults base 0x50003 7 0x1122334455667788
    base.endpointUp = true ∧
    PlainHomes base ∧
    NoObjectWaits base ∧
    327683 + 7 ≤ memTop ∧
    NothingLocked base ∧
    base.leftBy none 327683 7 = [] ∧
    base.ctl.setLen = 0 ∧
    (0 < 327683 ∨ 327683 + 7 ≤ 0) ∧
    327683 < memTop ∧
    0 ≠ lineOf 327683 ∧
    -- HostAccessResults base (memTop - 3) 4 0x112233
    memTop < memTop - 3 + 4 ∧
    memTop - 3 < memTop ∧
    0 ≠ lineOf (memTop - 3) :=
  by unfold NoObjectWaits NothingLocked PlainHomes; decide +kernel

theorem meets_RegisterWriteResults :
    -- RegisterWriteResults base 0
    (base.endpointUp = true ∧
    0 < 2 ^ 64 ∧
    (0 % 2 ^ 32 = 0 ∨ 1000 < 0 % 2 ^ 32) ∧
    0 % 16 = 0 ∧
    0 < 2 ^ 39 ∧
    base.ctl.joined = false ∧
    0 % 2 ^ 10 ≤ 575 ∧
    (0 ≠ 4 ∧ 0 ≠ 8 ∨ 0 % 0 ≠ 0 ∨ 16 < 0) ∧
    0 < 1 ∧
    0 < 16777216 ∧
    0 % 8 = 0 ∧
    0 / 2 ^ 32 % 32 ≤ 16 ∧
    0 < 4096 ∧
    1 ≠ 0 ∧
    0 ≤ 16 ∧
    0 < 384 ∧
    0 < 8 ∧
    (base.counterOf (0) (0) (0)).ctl &&& (229631 : W64) = (base.counterOf (0) (0) (0)).ctl ∧
    -- RegisterWriteResults base 1000
    1000 < 2 ^ 64 ∧
    1 ≤ 1000 % 2 ^ 32) ∧
    1000 % 2 ^ 32 ≤ 1000 ∧
    (1000 % 16 ≠ 0 ∨ 2 ^ 39 ≤ 1000) ∧
    (base.ctl.joined = true ∨ 575 < 1000 % 2 ^ 10) ∧
    1000 / 2 ^ 32 % 32 ≤ 16 ∧
    -- (RegisterWriteResults sbk (2^63)).2.2.2.2.2.2.2.2.2.2.2.1 5 ⟨2^63+2^62+5, 1,2,3,4⟩
    sbk.endpointUp = true ∧
    2 ^ 63 < 2 ^ 64 ∧
    aget sbk.banks 5 = some bankW1 ∧
    -- (RegisterWriteResults sbk 0).2.2.2.2.2.2.2.2.2.2.2.2.2 5 ⟨2^63+2^62+5, 1, 2, 3, 4⟩ (2^31)
    5 < 644 :=
  ⟨by decide +kernel, by decide +kernel⟩

theorem meets_RetirementAndResetResults :
    -- RetirementAndResetResults base
    base.endpointUp = true ∧
    0 < 384 ∧
    1 ≠ 0 ∧
    base.team { core := 0, slot := 0 : TRef } = some tm0 ∧
    { core := 0, slot := 0 : TRef }.core = 0 ∧
    -- RetirementAndResetResults (sCfg 0)
    (sCfg 0).endpointUp = false ∧
    ((sCfg 0).inReset = true ∨ (sCfg 0).firmwareOk = false) :=
  by decide +kernel

theorem meets_DependenceResults_1 :
    -- (((DependenceResults (sG grD 4) (rd grD 4).2 ((rd grD 4).2.keyFor 1 grD).2 1 grD ((rd grD 4).2.keyFor 1 grD).1)).2.1).…
    (sG grD 4).vread grD.ctx (BitVec.toNat grD.depAddr) 8 true = ((rd grD 4).fst, (rd grD 4).snd) ∧
    (rd grD 4).fst = .ok 4 ∧
    ((sG grD 4).grid 1 = some grD ∧
    grD.phase = LaunchPhase.dependence ∧
    grD.depAddr ≠ (0 : W64) ∧
    BitVec.toNat grD.depAddr % 8 = 0 ∧
    4 < BitVec.toNat grD.depVal) ∧
    -- (((DependenceResults (sG {grD with depAddr := 0x8000000000} 4) (rd {grD with depAddr := 0x8000000000} 4).2 ((rd {grD w…
    (sG { grD with depAddr := (549755813888 : W64) } 4).vread { grD with depAddr := (549755813888 : W64) }.ctx (BitVec.toNat
      { grD with depAddr := (549755813888 : W64) }.depAddr) 8 true = ((rd { grD with depAddr := (549755813888 : W64) } 4).fst,
      (rd { grD with depAddr := (549755813888 : W64) } 4).snd) ∧
    (rd { grD with depAddr := (549755813888 : W64) } 4).fst = .error ({ cause := Cause.translation, info := 0 : Meet },
      549755813888) ∧
    ((sG { grD with depAddr := (549755813888 : W64) } 4).grid 1 = some { grD with depAddr := (549755813888 : W64) } ∧
    { grD with depAddr := (549755813888 : W64) }.phase = LaunchPhase.dependence ∧
    { grD with depAddr := (549755813888 : W64) }.depAddr ≠ (0 : W64) ∧
    BitVec.toNat { grD with depAddr := (549755813888 : W64) }.depAddr % 8 = 0) ∧
    -- ((DependenceResults (sDf .valid) ((sDf .valid).vread 1 0x50000 8 true).2 ((((sDf .valid).vread 1 0x50000 8 true).2).ke…
    (grD.depAddr = (0 : W64) ∧ ((sDf FirnState.valid).vread 1 327680 8 true).snd = sDf FirnState.valid ∨ grD.depAddr ≠ (0 :
      W64) ∧ BitVec.toNat grD.depAddr % 8 = 0 ∧ ∃ x, BitVec.toNat grD.depVal ≤ x ∧ (sDf FirnState.valid).vread grD.ctx
      (BitVec.toNat grD.depAddr) 8 true = (Except.ok x, ((sDf FirnState.valid).vread 1 327680 8 true).snd)) ∧
    ((sDf FirnState.valid).grid 1 = some grD ∧
    ((sDf FirnState.valid).vread 1 327680 8 true).snd.keyFor 1 grD = ((((sDf FirnState.valid).vread 1 327680 8 true).snd.keyFor
      1 grD).fst, (((sDf FirnState.valid).vread 1 327680 8 true).snd.keyFor 1 grD).snd) ∧
    (((sDf FirnState.valid).vread 1 327680 8 true).snd.keyFor 1 grD).snd.grid 1 = some grD ∧
    (((sDf FirnState.valid).vread 1 327680 8 true).snd.keyFor 1 grD).fst = some ([0, 8589934594, 1] ++ List.replicate 13 0) ∧
    (List.find? (fun e => e.ctx == grD.ctx && e.matching && e.key == ([0, 8589934594, 1] ++ List.replicate 13 0)) (((sDf FirnState.valid).vread 1 327680 8 true).snd.keyFor 1 grD).snd.firn = some firnEntryW1) ∧
    firnEntryW1.state = FirnState.valid) ∧
    -- ((DependenceResults (sDf .rejected) ((sDf .rejected).vread 1 0x50000 8 true).2 ((((sDf .rejected).vread 1 0x50000 8 tr…
    (grD.depAddr = (0 : W64) ∧ ((sDf FirnState.rejected).vread 1 327680 8 true).snd = sDf FirnState.rejected ∨ grD.depAddr ≠ (0
      : W64) ∧ BitVec.toNat grD.depAddr % 8 = 0 ∧ ∃ x, BitVec.toNat grD.depVal ≤ x ∧ (sDf FirnState.rejected).vread grD.ctx
      (BitVec.toNat grD.depAddr) 8 true = (Except.ok x, ((sDf FirnState.rejected).vread 1 327680 8 true).snd)) ∧
    ((sDf FirnState.rejected).grid 1 = some grD ∧
    ((sDf FirnState.rejected).vread 1 327680 8 true).snd.keyFor 1 grD = ((((sDf FirnState.rejected).vread 1 327680 8
      true).snd.keyFor 1 grD).fst, (((sDf FirnState.rejected).vread 1 327680 8 true).snd.keyFor 1 grD).snd) ∧
    (((sDf FirnState.rejected).vread 1 327680 8 true).snd.keyFor 1 grD).snd.grid 1 = some grD ∧
    (((sDf FirnState.rejected).vread 1 327680 8 true).snd.keyFor 1 grD).fst = some ([0, 8589934594, 1] ++ List.replicate 13 0) ∧
    (List.find? (fun e => e.ctx == grD.ctx && e.matching && e.key == ([0, 8589934594, 1] ++ List.replicate 13 0)) (((sDf FirnState.rejected).vread 1 327680 8 true).snd.keyFor 1 grD).snd.firn = some firnEntryW2) ∧
    firnEntryW2.state = FirnState.rejected) ∧
    -- ((DependenceResults (sDf .building) ((sDf .building).vread 1 0x50000 8 true).2 ((((sDf .building).vread 1 0x50000 8 tr…
    (grD.depAddr = (0 : W64) ∧ ((sDf FirnState.building).vread 1 327680 8 true).snd = sDf FirnState.building ∨ grD.depAddr ≠ (0
      : W64) ∧ BitVec.toNat grD.depAddr % 8 = 0 ∧ ∃ x, BitVec.toNat grD.depVal ≤ x ∧ (sDf FirnState.building).vread grD.ctx
      (BitVec.toNat grD.depAddr) 8 true = (Except.ok x, ((sDf FirnState.building).vread 1 327680 8 true).snd)) ∧
    ((sDf FirnState.building).grid 1 = some grD ∧
    ((sDf FirnState.building).vread 1 327680 8 true).snd.keyFor 1 grD = ((((sDf FirnState.building).vread 1 327680 8
      true).snd.keyFor 1 grD).fst, (((sDf FirnState.building).vread 1 327680 8 true).snd.keyFor 1 grD).snd) ∧
    (((sDf FirnState.building).vread 1 327680 8 true).snd.keyFor 1 grD).snd.grid 1 = some grD ∧
    (((sDf FirnState.building).vread 1 327680 8 true).snd.keyFor 1 grD).fst = some ([0, 8589934594, 1] ++ List.replicate 13 0) ∧
    (List.find? (fun e => e.ctx == grD.ctx && e.matching && e.key == ([0, 8589934594, 1] ++ List.replicate 13 0)) (((sDf FirnState.building).vread 1 327680 8 true).snd.keyFor 1 grD).snd.firn = some firnEntryW3) ∧
    firnEntryW3.state = FirnState.building) ∧
    -- ((DependenceResults (sG {grD with depAddr := 0x50001} 4) (rd {grD with depAddr := 0x50001} 4).2 ((rd {grD with depAddr…
    (sG { grD with depAddr := (327681 : W64) } 4).grid 1 = some { grD with depAddr := (327681 : W64) } ∧
    { grD with depAddr := (327681 : W64) }.phase = LaunchPhase.dependence ∧
    { grD with depAddr := (327681 : W64) }.depAddr ≠ (0 : W64) ∧
    BitVec.toNat { grD with depAddr := (327681 : W64) }.depAddr % 8 ≠ 0 ∧
    -- ((DependenceResults (sG {grD with phase := .ready} 4) (rd {grD with phase := .ready} 4).2 ((rd {grD with phase := .rea…
    (sG { grD with phase := LaunchPhase.ready } 4).grid 1 = some { grD with phase := LaunchPhase.ready } ∧
    { grD with phase := LaunchPhase.ready }.phase ≠ LaunchPhase.dependence :=
  ⟨(pair_of (by decide +kernel) (by decide +kernel) (by decide +kernel)), (ok_of (by decide +kernel)), by decide +kernel,
    (pair_of (by decide +kernel) (by decide +kernel) (by decide +kernel)), (err_of (by decide +kernel)), by decide +kernel,
    (.inr ⟨by decide, by decide, 5, by decide, ok_pair (by decide +kernel) rfl⟩), by decide +kernel,
    (.inr ⟨by decide, by decide, 5, by decide, ok_pair (by decide +kernel) rfl⟩), by decide +kernel,
    (.inr ⟨by decide, by decide, 5, by decide, ok_pair (by decide +kernel) rfl⟩), by decide +kernel, by decide +kernel⟩

theorem meets_DependenceResults_2 :
    -- ((DependenceResults (sG grD 5) (rd grD 5).2 ((rd grD 5).2.keyFor 1 grD).2 1 grD ((rd grD 5).2.keyFor 1 grD).1)).2.2
    (grD.depAddr = (0 : W64) ∧ (rd grD 5).snd = sG grD 5 ∨ grD.depAddr ≠ (0 : W64) ∧ BitVec.toNat grD.depAddr % 8 = 0 ∧ ∃ x,
      BitVec.toNat grD.depVal ≤ x ∧ (sG grD 5).vread grD.ctx (BitVec.toNat grD.depAddr) 8 true = (Except.ok x, (rd grD 5).snd)) ∧
    ((sG grD 5).grid 1 = some grD ∧
    (rd grD 5).snd.keyFor 1 grD = (((rd grD 5).snd.keyFor 1 grD).fst, ((rd grD 5).snd.keyFor 1 grD).snd) ∧
    ((rd grD 5).snd.keyFor 1 grD).snd.grid 1 = some grD ∧
    (State.firnRoom grD.ctx 384 ((rd grD 5).snd.keyFor 1 grD).snd.firn.length ((rd grD 5).snd.keyFor 1 grD).snd).fst = none ∧
    ((rd grD 5).snd.keyFor 1 grD).fst = some ([0, 8589934594, 1] ++ List.replicate 13 0) ∧
    (List.find? (fun e => e.ctx == grD.ctx && e.matching && e.key == ([0, 8589934594, 1] ++ List.replicate 13 0)) ((rd grD 5).snd.keyFor 1 grD).snd.firn = none)) ∧
    -- (DependenceResults (sG {grZ with krec := 0x8000000000} 5) (sG {grZ with krec := 0x8000000000} 5) ((sG {grZ with krec :…
    ({ grZ with krec := (549755813888 : W64) }.depAddr = (0 : W64) ∧ sG { grZ with krec := (549755813888 : W64) } 5 = sG
      { grZ with krec := (549755813888 : W64) } 5 ∨ { grZ with krec := (549755813888 : W64) }.depAddr ≠ (0 : W64) ∧
      BitVec.toNat { grZ with krec := (549755813888 : W64) }.depAddr % 8 = 0 ∧ ∃ x, BitVec.toNat
      { grZ with krec := (549755813888 : W64) }.depVal ≤ x ∧ (sG { grZ with krec := (549755813888 : W64) } 5).vread
      { grZ with krec := (549755813888 : W64) }.ctx (BitVec.toNat { grZ with krec := (549755813888 : W64) }.depAddr) 8 true =
      (Except.ok x, sG { grZ with krec := (549755813888 : W64) } 5)) ∧
    ((sG { grZ with krec := (549755813888 : W64) } 5).grid 1 = some { grZ with krec := (549755813888 : W64) } ∧
    { grZ with krec := (549755813888 : W64) }.phase = LaunchPhase.dependence ∧
    (sG { grZ with krec := (549755813888 : W64) } 5).keyFor 1 { grZ with krec := (549755813888 : W64) } = (((sG
      { grZ with krec := (549755813888 : W64) } 5).keyFor 1 { grZ with krec := (549755813888 : W64) }).fst, ((sG
      { grZ with krec := (549755813888 : W64) } 5).keyFor 1 { grZ with krec := (549755813888 : W64) }).snd) ∧
    ((sG { grZ with krec := (549755813888 : W64) } 5).keyFor 1 { grZ with krec := (549755813888 : W64) }).snd.grid 1 = some
      { grZ with krec := (549755813888 : W64) } ∧
    ((sG { grZ with krec := (549755813888 : W64) } 5).keyFor 1 { grZ with krec := (549755813888 : W64) }).fst = none) ∧
    -- (DependenceResults sGr rdR.2 (rdR.2.keyFor 1 grD).2 1 grD (rdR.2.keyFor 1 grD).1).2.2
    (grD.depAddr = (0 : W64) ∧ rdR.snd = sGr ∨ grD.depAddr ≠ (0 : W64) ∧ BitVec.toNat grD.depAddr % 8 = 0 ∧ ∃ x, BitVec.toNat
      grD.depVal ≤ x ∧ sGr.vread grD.ctx (BitVec.toNat grD.depAddr) 8 true = (Except.ok x, rdR.snd)) ∧
    sGr.grid 1 = some grD ∧
    rdR.snd.keyFor 1 grD = ((rdR.snd.keyFor 1 grD).fst, (rdR.snd.keyFor 1 grD).snd) ∧
    (rdR.snd.keyFor 1 grD).snd.grid 1 = some grD ∧
    (rdR.snd.keyFor 1 grD).snd.firn.length < 2048 ∧
    (State.firnRoom grD.ctx 384 (rdR.snd.keyFor 1 grD).snd.firn.length (rdR.snd.keyFor 1 grD).snd).fst.isSome = true ∧
    (rdR.snd.keyFor 1 grD).fst = some ([0, 8589934594, 1] ++ List.replicate 13 0) ∧
    (List.find? (fun e => e.ctx == grD.ctx && e.matching && e.key == ([0, 8589934594, 1] ++ List.replicate 13 0)) (rdR.snd.keyFor 1 grD).snd.firn = none) :=
  ⟨(.inr ⟨by decide, by decide, 5, by decide, ok_pair (by decide +kernel) rfl⟩), by decide +kernel, .inl ⟨by decide, rfl⟩,
    by decide +kernel, (.inr ⟨by decide, by decide, 5, by decide, ok_pair (by decide +kernel) rfl⟩), by decide +kernel⟩

theorem meets_PlacementResults :
    -- ((PlacementResults {sPl grP with clock := 1000000} 0 1 grP [])).2.2
    ({ sPl grP with clock := 1000000 }.launchOrder = [(1, grP)] ∧
    { sPl grP with clock := 1000000 }.takes 0 = true ∧
    ((grP.parked.any fun p => p.wantResume) = false) ∧
    grP.next < grP.teams ∧
    grP.cluster = false ∧
    grP.coresident = false ∧
    { sPl grP with clock := 1000000 }.grid 1 = some grP ∧
    { sPl grP with clock := 1000000 }.freeSlots 0 ≠ [] ∧
    { sPl grP with clock := 1000000 }.fit 0 grP.roles grP.scratch = some [1] ∧
    { sPl grP with clock := 1000000 }.placeable grP = true ∧
    max (grP.entered + grP.level * { sPl grP with clock := 1000000 }.ageClocks grP.ctx) (grP.zeroSince.getD 0) + 4 *
      { sPl grP with clock := 1000000 }.ageClocks grP.ctx ≤ { sPl grP with clock := 1000000 }.clock ∧
    -- PlacementResults out 0 1 grX []
    out.launchOrder = [(1, grX)] ∧
    out.takes 0 = false ∧
    out.placeable grX = false ∧
    grX.next = 0 ∧
    -- PlacementResults {sPl grP with clock := 3} 0 1 grP []
    { sPl grP with clock := 3 }.launchOrder = [(1, grP)] ∧
    { sPl grP with clock := 3 }.takes 0 = true ∧
    { sPl grP with clock := 3 }.grid 1 = some grP ∧
    { sPl grP with clock := 3 }.freeSlots 0 ≠ [] ∧
    { sPl grP with clock := 3 }.fit 0 grP.roles grP.scratch = some [1] ∧
    { sPl grP with clock := 3 }.placeable grP = true ∧
    { sPl grP with clock := 3 }.clock < max (grP.entered + grP.level * { sPl grP with clock := 3 }.ageClocks grP.ctx)
      (grP.zeroSince.getD 0) + 4 * { sPl grP with clock := 3 }.ageClocks grP.ctx ∧
    -- PlacementResults outN 0 1 grXn []
    outN.launchOrder = [(1, grXn)] ∧
    outN.takes 0 = false) ∧
    outN.placeable grXn = false ∧
    grXn.next ≠ 0 :=
  ⟨by decide +kernel, by decide +kernel⟩

theorem meets_RetirementResults :
    -- (RetirementResults (sR_2 grE grid0) t0 tm0 1 grid0)
    ((sR_2 grE grid0).team t0 = some tm0 ∧
    (sR_2 grE grid0).retires t0 tm0 = true ∧
    NoObjectWaits (sR_2 grE grid0) ∧
    (sR_2 grE grid0).grid tm0.grid = some grid0 ∧
    ((sR_2 grE grid0).core t0.core).act = none ∧
    (sR_2 grE grid0).grid 1 = some grid0 ∧
    (grid0.complete = true ∨ (sR_2 grE grid0).gridEnded 1 grid0 = false) ∧
    -- (RetirementResults (sR_2 gr0 grid0) t0 tm0 1 grid0)
    (sR_2 gr0 grid0).team t0 = some tm0 ∧
    (sR_2 gr0 grid0).retires t0 tm0 = false ∧
    (sR_2 gr0 grid0).grid 1 = some grid0 ∧
    (grid0.complete = true ∨ (sR_2 gr0 grid0).gridEnded 1 grid0 = false) ∧
    -- ((RetirementResults (sRg gq) t0 tm0 1 gq).2.2.2).1 7 0
    (sRg gq).grid 1 = some gq ∧
    gq.complete = false ∧
    (sRg gq).gridEnded 1 gq = true ∧
    gq.sigAddr = (0 : W64) ∧
    ¬1 ∈ (sRg gq).childGrids 1 ∧
    gq.issuer = Issuer.spawn 7 0 ∧
    -- (RetirementResults sGC t0 tm0 2 grC).2.2.2
    sGC.grid 2 = some grC ∧
    grC.complete = false ∧
    sGC.gridEnded 2 grC = true) ∧
    grC.sigAddr = (0 : W64) ∧
    ¬2 ∈ sGC.childGrids 2 ∧
    grC.status = GridStatus.running ∧
    sGC.queue (3) = some queueW2 ∧
    queueW2.packets = [packetW2] ∧
    grC.issuer = Issuer.queue (3) packetW2.seq ∧
    packetW2.status = none ∧
    packetW2.callGrid = some 2 :=
  ⟨(by unfold NoObjectWaits; decide +kernel), by decide +kernel⟩

theorem meets_ParkResults_1 :
    -- (((((ParkResults (sP_2 tw gr0 cxP) t0 tw)).2.2.2.1 (tw.parkWanted.getD 0) (st tw gr0 cxP))).2 tw tw cxP s2w).2 1 iw r3…
    (s2w.putRecord tw.ctx (BitVec.toNat cxP.parkBase + 2 ^ 20 * 1) (recordLen tw.scrSize (List.map (fun p => p.snd.allot)
      (sortBy (fun a b => decide (a.fst.gid < b.fst.gid)) (s2w.teamGroups t0)))) (s2w.record tw (sortBy (fun a b => decide
      (a.fst.gid < b.fst.gid)) (s2w.teamGroups t0)) iw) = (Except.ok (), r3.snd)) ∧
    ((sP_2 tw gr0 cxP).team t0 = some tw ∧
    tw.parkWanted = some (tw.parkWanted.getD 0) ∧
    tw.parkSlot = none ∧
    tw.cluster = false ∧
    ((sP_2 tw gr0 cxP).core t0.core).act = none ∧
    (st tw gr0 cxP = ((sP_2 tw gr0 cxP).onTeam t0 fun t => { t with parkWanted := some (tw.parkWanted.getD 0) }).stopTeam t0) ∧
    (st tw gr0 cxP).quiet t0 = true ∧
    (st tw gr0 cxP).team t0 = some tw ∧
    s2w = (st tw gr0 cxP).sendTeam t0 ∧
    s2w.team t0 = some tw ∧
    s2w.ctx tw.ctx = some cxP ∧
    cxP.freeSlot = some 1 ∧
    tw.parkWanted.getD 0 ≠ 0 ∧
    iw = parkInfo tw (s2w.teamGroups t0) (tw.parkWanted.getD 0) ∧
    r3.snd.team t0 = some tw ∧
    r3.snd.ctx tw.ctx = some cxP) ∧
    -- ParkResults sJ_2 t0 tmJ_2
    sJ_2.team t0 = some tmJ_2 ∧
    sJ_2.joinStuck t0 = some 2 ∧
    tmJ_2.parkWanted = none ∧
    (tmJ_2.parkWanted = none ∨ tmJ_2.parkSlot.isSome = true) ∧
    tmJ_2.parkSlot = none ∧
    sJ_2.grid (1) = some gridW1 ∧
    -- ((((ParkResults (sP_2 (tmW 1) gr0 {cxP with usedSlots := [0,1,2,3]}) t0 (tmW 1))).2.2.2.1 ((tmW 1).parkWanted.getD 0) …
    (sP_2 (tmW 1) gr0 { cxP with usedSlots := [0, 1, 2, 3] }).team t0 = some (tmW 1) ∧
    (tmW 1).parkWanted = some ((tmW 1).parkWanted.getD 0) ∧
    (tmW 1).parkSlot = none ∧
    (tmW 1).cluster = false ∧
    ((sP_2 (tmW 1) gr0 { cxP with usedSlots := [0, 1, 2, 3] }).core t0.core).act = none ∧
    (st (tmW 1) gr0 { cxP with usedSlots := [0, 1, 2, 3] } = ((sP_2 (tmW 1) gr0 { cxP with usedSlots := [0, 1, 2, 3] }).onTeam
      t0 fun t => { t with parkWanted := some ((tmW 1).parkWanted.getD 0) }).stopTeam t0) ∧
    (st (tmW 1) gr0 { cxP with usedSlots := [0, 1, 2, 3] }).quiet t0 = true ∧
    (st (tmW 1) gr0 { cxP with usedSlots := [0, 1, 2, 3] }).team t0 = some (((st (tmW 1) gr0
      { cxP with usedSlots := [0, 1, 2, 3] }).team t0).getD tm0) ∧
    (((st (tmW 1) gr0 { cxP with usedSlots := [0, 1, 2, 3] }).team t0).getD tm0).parkWanted = some ((tmW 1).parkWanted.getD 0) ∧
    (((st (tmW 1) gr0 { cxP with usedSlots := [0, 1, 2, 3] }).team t0).getD tm0).parkSlot = none ∧
    st2 (tmW 1) gr0 { cxP with usedSlots := [0, 1, 2, 3] } = (st (tmW 1) gr0 { cxP with usedSlots := [0, 1, 2, 3] }).sendTeam
      t0 ∧
    (st2 (tmW 1) gr0 { cxP with usedSlots := [0, 1, 2, 3] }).team t0 = some (((st2 (tmW 1) gr0
      { cxP with usedSlots := [0, 1, 2, 3] }).team t0).getD tm0) ∧
    (st2 (tmW 1) gr0 { cxP with usedSlots := [0, 1, 2, 3] }).ctx (((st2 (tmW 1) gr0
      { cxP with usedSlots := [0, 1, 2, 3] }).team t0).getD tm0).ctx = some { cxP with usedSlots := [0, 1, 2, 3] } ∧
    { cxP with usedSlots := [0, 1, 2, 3] }.freeSlot = none :=
  ⟨(ok_pair (by decide +kernel) (by decide +kernel)), by decide +kernel, by decide +kernel⟩

theorem meets_ParkResults_2 :
    -- (ParkResults (sP_2 {tw with parkSlot := some 1} gr0 {cxP with usedSlots := [1, 0]}) t0 {tw with parkSlot := some 1})
    ((sP_2 { tw with parkSlot := some 1 } gr0 { cxP with usedSlots := [1, 0] }).team t0 = some { tw with parkSlot := some 1 } ∧
    (sP_2 { tw with parkSlot := some 1 } gr0 { cxP with usedSlots := [1, 0] }).joinStuck t0 = none ∧
    ({ tw with parkSlot := some 1 }.parkWanted = none ∨ { tw with parkSlot := some 1 }.parkSlot.isSome = true) ∧
    (sP_2 { tw with parkSlot := some 1 } gr0 { cxP with usedSlots := [1, 0] }).grid (1) = some grid0 ∧
    -- ((ParkResults (sP_2 (tmW 0) gFar cxP) t0 (tmW 0))).2.2.2.1 0 (st (tmW 0) gFar cxP)
    (sP_2 (tmW 0) gFar cxP).team t0 = some (tmW 0) ∧
    (tmW 0).parkWanted = some 0 ∧
    (tmW 0).parkSlot = none ∧
    (tmW 0).cluster = false ∧
    ((sP_2 (tmW 0) gFar cxP).core t0.core).act = none ∧
    (st (tmW 0) gFar cxP = ((sP_2 (tmW 0) gFar cxP).onTeam t0 fun t => { t with parkWanted := some 0 }).stopTeam t0) ∧
    (st (tmW 0) gFar cxP).quiet t0 = false ∧
    -- (ParkResults (sP_2 tmPk gr0 (cxV 0x8000000000)) t0 tmPk).2.2.2.2.2.1 1 (cxV 0x8000000000) grid0 ((sP_2 tmPk gr0 (cxV 0…
    (sP_2 tmPk gr0 (cxV (549755813888 : W64))).team t0 = some tmPk ∧
    tmPk.parkSlot = some 1 ∧
    (sP_2 tmPk gr0 (cxV (549755813888 : W64))).ctx tmPk.ctx = some (cxV (549755813888 : W64)) ∧
    (sP_2 tmPk gr0 (cxV (549755813888 : W64))).translate tmPk.ctx (BitVec.toNat (cxV (549755813888 : W64)).parkBase + 2 ^ 20 *
      1 + 39) = (((sP_2 tmPk gr0 (cxV (549755813888 : W64))).translate 1 (549755813888 + 2 ^ 20 + 39)).fst, ((sP_2 tmPk gr0
      (cxV (549755813888 : W64))).translate 1 (549755813888 + 2 ^ 20 + 39)).snd) ∧
    ((sP_2 tmPk gr0 (cxV (549755813888 : W64))).translate 1 (549755813888 + 2 ^ 20 + 39)).fst = none ∧
    -- (ParkResults ({ sP_2 tmPk gr0 (cxV 0x800000) with tlb := [], mem := smR.mem } : State) t0 tmPk).2.2.2.2.2.1 1 (cxV 0x8…
    { sP_2 tmPk gr0 (cxV (8388608 : W64)) with mem := smR.mem, tlb := [] }.team t0 = some tmPk ∧
    { sP_2 tmPk gr0 (cxV (8388608 : W64)) with mem := smR.mem, tlb := [] }.ctx tmPk.ctx = some (cxV (8388608 : W64)) ∧
    { sP_2 tmPk gr0 (cxV (8388608 : W64)) with mem := smR.mem, tlb := [] }.translate tmPk.ctx (BitVec.toNat (cxV (8388608 :
      W64)).parkBase + 2 ^ 20 * 1 + 39) = (({ sP_2 tmPk gr0 (cxV (8388608 : W64)) with mem := smR.mem, tlb := [] }.translate 1
      (8388608 + 2 ^ 20 + 39)).fst, ({ sP_2 tmPk gr0 (cxV (8388608 : W64)) with mem := smR.mem, tlb := [] }.translate 1
      (8388608 + 2 ^ 20 + 39)).snd) ∧
    ({ sP_2 tmPk gr0 (cxV (8388608 : W64)) with mem := smR.mem, tlb := [] }.translate 1 (8388608 + 2 ^ 20 + 39)).fst = some
      { pa := 9437223, r := true, w := false, x := true, host := false, mor := false : Xl } ∧
    ({ pa := 9437223, r := true, w := false, x := true, host := false, mor := false : Xl }.w = false ∨
      { pa := 9437223, r := true, w := false, x := true, host := false, mor := false : Xl }.host = true) ∧
    -- (ParkResults (sP_2 tmPk gr0 (cxV 0x800000)) t0 tmPk).2.2.2.2.2.1 1 (cxV 0x800000) grid0 ((sP_2 tmPk gr0 (cxV 0x800000)…
    (sP_2 tmPk gr0 (cxV (8388608 : W64))).team t0 = some tmPk) ∧
    (sP_2 tmPk gr0 (cxV (8388608 : W64))).ctx tmPk.ctx = some (cxV (8388608 : W64)) ∧
    (sP_2 tmPk gr0 (cxV (8388608 : W64))).translate tmPk.ctx (BitVec.toNat (cxV (8388608 : W64)).parkBase + 2 ^ 20 * 1 + 39) =
      (((sP_2 tmPk gr0 (cxV (8388608 : W64))).translate 1 (8388608 + 2 ^ 20 + 39)).fst, ((sP_2 tmPk gr0 (cxV (8388608 :
      W64))).translate 1 (8388608 + 2 ^ 20 + 39)).snd) ∧
    (sP_2 tmPk gr0 (cxV (8388608 : W64))).grid tmPk.grid = some grid0 ∧
    NoObjectWaits (sP_2 tmPk gr0 (cxV (8388608 : W64))) ∧
    ((sP_2 tmPk gr0 (cxV (8388608 : W64))).core t0.core).act = none ∧
    ((sP_2 tmPk gr0 (cxV (8388608 : W64))).translate 1 (8388608 + 2 ^ 20 + 39)).fst = some
      { pa := 9437223, r := true, w := true, x := true, host := false, mor := false : Xl } ∧
    { pa := 9437223, r := true, w := true, x := true, host := false, mor := false : Xl }.w = true ∧
    { pa := 9437223, r := true, w := true, x := true, host := false, mor := false : Xl }.host = false ∧
    -- (ParkResults { sJ_2 with teams := [(t0, { tmJ_2 with parkWanted := some 1 })] } t0 { tmJ_2 with parkWanted := some 1 }…
    { sJ_2 with teams := [(t0, { tmJ_2 with parkWanted := some 1 })] }.team t0 = some { tmJ_2 with parkWanted := some 1 } ∧
    { sJ_2 with teams := [(t0, { tmJ_2 with parkWanted := some 1 })] }.joinStuck t0 = some 2 ∧
    { tmJ_2 with parkWanted := some 1 }.parkWanted.isSome = true :=
  ⟨by decide +kernel, (by unfold NoObjectWaits; decide +kernel)⟩

theorem meets_PreemptionResults :
    -- ((PreemptionResults { sP_2 tm0 gr0 (cxd (.drain 100 50)) with clock := 99, teams := [tm0].map (fun t => (t0, t)) } 1 (…
    (({ sP_2 tm0 gr0 (cxd (Phase.drain 100 50)) with clock := 99, teams := List.map (fun t => (t0, t)) [tm0] }.ctx 1 = some
      (cxd (Phase.drain 100 50))) ∧
    (cxd (Phase.drain 100 50)).phase = Phase.drain 100 50 ∧
    ({ sP_2 tm0 gr0 (cxd (Phase.drain 100 50)) with clock := 99, teams := List.map (fun t => (t0, t)) [tm0] }.clock < 100) ∧
    ({ sP_2 tm0 gr0 (cxd (Phase.drain 100 50)) with clock := 99, teams := List.map (fun t => (t0, t)) [tm0] }.ctxTeams 1 ≠ []) ∧
    -- ((PreemptionResults { sP_2 tm0 gr0 (cxd (.park 100)) with clock := 99, teams := [tm0].map (fun t => (t0, t)) } 1 (cxd …
    ({ sP_2 tm0 gr0 (cxd (Phase.park 100)) with clock := 99, teams := List.map (fun t => (t0, t)) [tm0] }.ctx 1 = some (cxd
      (Phase.park 100))) ∧
    (cxd (Phase.park 100)).phase = Phase.park 100 ∧
    ({ sP_2 tm0 gr0 (cxd (Phase.park 100)) with clock := 99, teams := List.map (fun t => (t0, t)) [tm0] }.clock < 100 ∨
      { sP_2 tm0 gr0 (cxd (Phase.park 100)) with clock := 99, teams := List.map (fun t => (t0, t)) [tm0] }.ctxTeams 1 = []) ∧
    ({ sP_2 tm0 gr0 (cxd (Phase.park 100)) with clock := 99, teams := List.map (fun t => (t0, t)) [tm0] }.ctxTeams 1 ≠ []) ∧
    -- (((PreemptionResults { sP_2 tm0 gr0 (cxd (.park 100)) with clock := 100, teams := [tm0].map (fun t => (t0, t)) } 1 (cx…
    ({ sP_2 tm0 gr0 (cxd (Phase.park 100)) with clock := 100, teams := List.map (fun t => (t0, t)) [tm0] }.ctx 1 = some (cxd
      (Phase.park 100))) ∧
    (100 ≤ { sP_2 tm0 gr0 (cxd (Phase.park 100)) with clock := 100, teams := List.map (fun t => (t0, t)) [tm0] }.clock) ∧
    ({ sP_2 tm0 gr0 (cxd (Phase.park 100)) with clock := 100, teams := List.map (fun t => (t0, t)) [tm0] }.ctxTeams 1 = [(t0,
      tm0)]) ∧
    ({ sP_2 tm0 gr0 (cxd (Phase.park 100)) with clock := 100, teams := List.map (fun t => (t0, t)) [tm0] }.grid tm0.grid = some
      grid0) ∧
    grid0.status = GridStatus.running ∧
    (∀ (p : GRef × Group), p ∈
      { sP_2 tm0 gr0 (cxd (Phase.park 100)) with clock := 100, teams := List.map (fun t => (t0, t)) [tm0] }.groups →
      p.snd.waitS = none) ∧
    -- ((PreemptionResults { sP_2 tm0 gr0 (cxd (.park 100)) with clock := 99, teams := [].map (fun t => (t0, t)) } 1 (cxd (.p…
    ({ sP_2 tm0 gr0 (cxd (Phase.park 100)) with clock := 99, teams := List.map (fun t => (t0, t)) [] }.ctx 1 = some (cxd
      (Phase.park 100))) ∧
    ({ sP_2 tm0 gr0 (cxd (Phase.park 100)) with clock := 99, teams := List.map (fun t => (t0, t)) [] }.clock < 100 ∨
      { sP_2 tm0 gr0 (cxd (Phase.park 100)) with clock := 99, teams := List.map (fun t => (t0, t)) [] }.ctxTeams 1 = []) ∧
    ({ sP_2 tm0 gr0 (cxd (Phase.park 100)) with clock := 99, teams := List.map (fun t => (t0, t)) [] }.ctxTeams 1 = []) ∧
    (cxd (Phase.park 100)).preemptQ = [] ∧
    -- ((PreemptionResults { sP_2 tm0 gr0 xq with clock := 5, teams := [], queues := [(3, {q0 with packets := [{pk0 with wait…
    { sP_2 tm0 gr0 xq with clock := 5, teams := [], queues := [(3, { q0 with packets := [{ pk0 with waitOther := true }] })] }.ctx
      1 = some xq) ∧
    xq.phase = Phase.park 100 ∧
    { sP_2 tm0 gr0 xq with clock := 5, teams := [], queues := [(3, { q0 with packets := [{ pk0 with waitOther := true }] })] }.ctxTeams
      1 = [] ∧
    xq.preemptQ = [(3, 7)] ∧
    { sP_2 tm0 gr0 xq with clock := 5, teams := [], queues := [(3, { q0 with packets := [{ pk0 with waitOther := true }] })] }.queue
      3 = some { q0 with packets := [{ pk0 with waitOther := true }] } ∧
    { q0 with packets := [{ pk0 with waitOther := true }] }.packets = [{ pk0 with waitOther := true }] ∧
    { pk0 with waitOther := true }.seq = 7 ∧
    { pk0 with waitOther := true }.status = none ∧
    -- (PreemptionResults { sP_2 tm0 gr0 (cxd .running) with clock := 99, teams := [tm0].map (fun t => (t0, t)) } 1 (cxd .run…
    ({ sP_2 tm0 gr0 (cxd Phase.running) with clock := 99, teams := List.map (fun t => (t0, t)) [tm0] }.ctx 1 = some (cxd
      Phase.running)) ∧
    (cxd Phase.running).phase = Phase.running ∧
    -- ((PreemptionResults sPre 1 (cxd (.drain 50 90))).1 50 90).2
    sPre.ctx 1 = some (cxd (Phase.drain 50 90)) ∧
    (cxd (Phase.drain 50 90)).phase = Phase.drain 50 90 ∧
    (50 ≤ sPre.clock ∨ sPre.ctxTeams 1 = []) ∧
    sPre.team { core := 0, slot := 0 : TRef } = some tm0 ∧
    tm0.ctx = 1 ∧
    sPre.retires { core := 0, slot := 0 : TRef } tm0 = false ∧
    tm0.parkWanted = none :=
  ⟨by decide +kernel, by decide +kernel⟩

theorem meets_ActivationResults_1 :
    -- (ActivationResults (sA (tmH 0x9000) grT {Core.fresh with trapQ := [(0,0), (1,1)]} 55) 0 0 0 [(1,1)] grT (tmH 0x9000))
    ((sA (tmH 36864) grT { Core.fresh with trapQ := [(0, 0), (1, 1)] } 55).group { core := 0, slot := 0, gid := 0 : GRef } =
      some grT ∧
    (sA (tmH 36864) grT { Core.fresh with trapQ := [(0, 0), (1, 1)] } 55).team { core := 0, slot := 0 : TRef } = some (tmH
      36864) ∧
    ((sA (tmH 36864) grT { Core.fresh with trapQ := [(0, 0), (1, 1)] } 55).core 0).act = none ∧
    ((sA (tmH 36864) grT { Core.fresh with trapQ := [(0, 0), (1, 1)] } 55).core 0).trapQ = [(0, 0), (1, 1)] ∧
    0 < 16 ∧
    (tmH 36864).handler ≠ (0 : W64) ∧
    (tmH 36864).parkWanted = none ∧
    -- (ActivationResults (sA (tmH 0) grT {Core.fresh with trapQ := [(0,0), (1,1)]} 55) 0 0 0 [(1,1)] grT (tmH 0))
    (sA (tmH 0) grT { Core.fresh with trapQ := [(0, 0), (1, 1)] } 55).group { core := 0, slot := 0, gid := 0 : GRef } = some
      grT ∧
    (sA (tmH 0) grT { Core.fresh with trapQ := [(0, 0), (1, 1)] } 55).team { core := 0, slot := 0 : TRef } = some (tmH 0) ∧
    ((sA (tmH 0) grT { Core.fresh with trapQ := [(0, 0), (1, 1)] } 55).core 0).act = none ∧
    ((sA (tmH 0) grT { Core.fresh with trapQ := [(0, 0), (1, 1)] } 55).core 0).trapQ = [(0, 0), (1, 1)] ∧
    (tmH 0).handler = (0 : W64) ∧
    (tmH 0).parkWanted = none ∧
    grT.trap = some trW ∧
    trW.cause.parks = true ∧
    -- (ActivationResults (sA (tmH 0x9000) grT {Core.fresh with act := some a0} 55) 0 0 0 [] grT (tmH 0x9000))
    (sA (tmH 36864) grT { Core.fresh with act := some a0 } 55).group { core := 0, slot := 0, gid := 0 : GRef } = some grT ∧
    (sA (tmH 36864) grT { Core.fresh with act := some a0 } 55).team { core := 0, slot := 0 : TRef } = some (tmH 36864) ∧
    ((sA (tmH 36864) grT { Core.fresh with act := some a0 } 55).core 0).act = some a0 ∧
    ((sA (tmH 36864) grT { Core.fresh with act := some a0 } 55).core 0).trapQ = [] ∧
    a0.slot = 0 ∧
    (sA (tmH 36864) grT { Core.fresh with act := some a0 } 55).clock < a0.since + 1800 * (tmH 36864).hndwd ∧
    -- ((ActivationResults (sA (tmH 0x9000) grT {Core.fresh with act := some a0} (55+180000)) 0 0 0 [] grT (tmH 0x9000))).2.2…
    (sA (tmH 36864) grT { Core.fresh with act := some a0 } (55 + 180000)).group { core := 0, slot := 0, gid := 0 : GRef } =
      some grT ∧
    (sA (tmH 36864) grT { Core.fresh with act := some a0 } (55 + 180000)).team { core := 0, slot := 0 : TRef } = some (tmH
      36864) ∧
    ((sA (tmH 36864) grT { Core.fresh with act := some a0 } (55 + 180000)).core 0).act = some a0) ∧
    a0.since + 1800 * (tmH 36864).hndwd ≤ (sA (tmH 36864) grT { Core.fresh with act := some a0 } (55 + 180000)).clock ∧
    -- (((ActivationResults (sA (tmH 0x9000) grBw Core.fresh (7 + 18000)) 0 0 0 [] grBw (tmH 0x9000))).2.2.2.2.2).1 0x55 true…
    (sA (tmH 36864) grBw Core.fresh (7 + 18000)).group { core := 0, slot := 0, gid := 0 : GRef } = some grBw ∧
    (sA (tmH 36864) grBw Core.fresh (7 + 18000)).team { core := 0, slot := 0 : TRef } = some (tmH 36864) ∧
    grBw.status = GStatus.active ∧
    grBw.waitS = some (Wait.barrier (85 : W64) true (3 : SReg)) ∧
    (tmH 36864).tagwd ≠ 0 ∧
    grBw.sinceS + 1800 * (tmH 36864).tagwd ≤ (sA (tmH 36864) grBw Core.fresh (7 + 18000)).clock ∧
    -- (((ActivationResults (sA (tmH 0x9000) grBw Core.fresh (7 + 17999)) 0 0 0 [] grBw (tmH 0x9000))).2.2.2.2.2).1 0x55 true…
    (sA (tmH 36864) grBw Core.fresh (7 + 17999)).group { core := 0, slot := 0, gid := 0 : GRef } = some grBw ∧
    (sA (tmH 36864) grBw Core.fresh (7 + 17999)).team { core := 0, slot := 0 : TRef } = some (tmH 36864) ∧
    ((tmH 36864).tagwd = 0 ∨ (sA (tmH 36864) grBw Core.fresh (7 + 17999)).clock < grBw.sinceS + 1800 * (tmH 36864).tagwd) ∧
    -- (((ActivationResults (sA (tmH 0x9000) grRw Core.fresh (7 + 18000)) 0 0 0 [] grRw (tmH 0x9000))).2.2.2.2.2).2.1 0x56 tr…
    (sA (tmH 36864) grRw Core.fresh (7 + 18000)).group { core := 0, slot := 0, gid := 0 : GRef } = some grRw ∧
    (sA (tmH 36864) grRw Core.fresh (7 + 18000)).team { core := 0, slot := 0 : TRef } = some (tmH 36864) ∧
    grRw.status = GStatus.active ∧
    grRw.waitS = some (Wait.ring (86 : W64) true (3 : W32) 4) ∧
    grRw.sinceS + 1800 * (tmH 36864).tagwd ≤ (sA (tmH 36864) grRw Core.fresh (7 + 18000)).clock :=
  ⟨by decide +kernel, by decide +kernel⟩

theorem meets_ActivationResults_2 :
    -- (((ActivationResults (sA (tmH 0x9000) grLw Core.fresh (7 + 18000)) 0 0 0 [] grLw (tmH 0x9000))).2.2.2.2.2).2.2 uT [{uT…
    (sA (tmH 36864) grLw Core.fresh (7 + 18000)).group { core := 0, slot := 0, gid := 0 : GRef } = some grLw ∧
    (sA (tmH 36864) grLw Core.fresh (7 + 18000)).team { core := 0, slot := 0 : TRef } = some (tmH 36864) ∧
    grLw.status = GStatus.active ∧
    grLw.waitL = some Wait.tag ∧
    grLw.tagPend = [uT, { uT with lane := 7 }] ∧
    grLw.sinceL + 1800 * (tmH 36864).tagwd ≤ (sA (tmH 36864) grLw Core.fresh (7 + 18000)).clock ∧
    -- (ActivationResults (sA { tmH 0x9000 with parkWanted := some 1 } grT { Core.fresh with trapQ := [(0, 0), (1, 1)] } 55) …
    (sA { tmH 36864 with parkWanted := some 1 } grT { Core.fresh with trapQ := [(0, 0), (1, 1)] } 55).group
      { core := 0, slot := 0, gid := 0 : GRef } = some grT ∧
    (sA { tmH 36864 with parkWanted := some 1 } grT { Core.fresh with trapQ := [(0, 0), (1, 1)] } 55).team
      { core := 0, slot := 0 : TRef } = some { tmH 36864 with parkWanted := some 1 } ∧
    ((sA { tmH 36864 with parkWanted := some 1 } grT { Core.fresh with trapQ := [(0, 0), (1, 1)] } 55).core 0).act = none ∧
    ((sA { tmH 36864 with parkWanted := some 1 } grT { Core.fresh with trapQ := [(0, 0), (1, 1)] } 55).core 0).trapQ = [(0, 0),
      (1, 1)] ∧
    { tmH 36864 with parkWanted := some 1 }.parkWanted.isSome = true :=
  by decide +kernel

theorem meets_WaitReleaseResults_1 :
    -- ((WaitReleaseResults {sW { gr0 with laneQ := [eB, eB] } with clock := 0} 0 0 0 g0 { gr0 with laneQ := [eB, eB] })).1 e…
    (g0 = { core := 0, slot := 0, gid := 0 : GRef } ∧
    { sW { gr0 with laneQ := [eB, eB] } with clock := 0 }.group g0 = some { gr0 with laneQ := [eB, eB] } ∧
    { gr0 with laneQ := [eB, eB] }.status = GStatus.active ∧
    { gr0 with laneQ := [eB, eB] }.run = none ∧
    { gr0 with laneQ := [eB, eB] }.laneQ = [eB, eB] ∧
    -- (WaitReleaseResults {sW gl0 with clock := 0} 0 0 0 g0 gl0)
    { sW gl0 with clock := 0 }.group g0 = some gl0 ∧
    gl0.status = GStatus.active ∧
    (gl0.run ≠ none ∨ gl0.laneQ = []) ∧
    (gl0.spilled = [] ∨ 16 ≤ gl0.laneQ.length) ∧
    (gl0.waitS ≠ some Wait.lsync ∨ gl0.ended < gl0.enq) ∧
    gl0.waitS ≠ some Wait.exitWait ∧
    -- ((WaitReleaseResults {sW { gl0 with spilled := [eB, eB] } with clock := 0} 0 0 0 g0 { gl0 with spilled := [eB, eB] }))…
    { sW { gl0 with spilled := [eB, eB] } with clock := 0 }.group g0 = some { gl0 with spilled := [eB, eB] } ∧
    { gl0 with spilled := [eB, eB] }.status = GStatus.active ∧
    { gl0 with spilled := [eB, eB] }.laneQ.length < 16 ∧
    { gl0 with spilled := [eB, eB] }.spilled = [laneEntryW1, laneEntryW1] ∧
    ({ gl0 with spilled := [eB, eB] }.waitS ≠ some Wait.lsync ∨ { gl0 with spilled := [eB, eB] }.ended <
      { gl0 with spilled := [eB, eB] }.enq) ∧
    { gl0 with spilled := [eB, eB] }.waitS ≠ some Wait.exitWait ∧
    -- ((WaitReleaseResults {sW { gr0 with waitS := some .lsync, enq := 4, ended := 4, yL := [(1, 2)], gfL := 3, mxEnded := 8…
    { sW { gr0 with yL := [(1, (2 : BitVec 64))], gfL := (3 : W32), enq := 4, ended := 4, waitS := some Wait.lsync, mxEnded := 8 } with clock := 0 }.group
      g0 = some
      { gr0 with yL := [(1, (2 : BitVec 64))], gfL := (3 : W32), enq := 4, ended := 4, waitS := some Wait.lsync, mxEnded := 8 } ∧
    { gr0 with yL := [(1, (2 : BitVec 64))], gfL := (3 : W32), enq := 4, ended := 4, waitS := some Wait.lsync, mxEnded := 8 }.status
      = GStatus.active) ∧
    ({ gr0 with yL := [(1, (2 : BitVec 64))], gfL := (3 : W32), enq := 4, ended := 4, waitS := some Wait.lsync, mxEnded := 8 }.spilled
      = [] ∨ 16 ≤
      { gr0 with yL := [(1, (2 : BitVec 64))], gfL := (3 : W32), enq := 4, ended := 4, waitS := some Wait.lsync, mxEnded := 8 }.laneQ.length) ∧
    { gr0 with yL := [(1, (2 : BitVec 64))], gfL := (3 : W32), enq := 4, ended := 4, waitS := some Wait.lsync, mxEnded := 8 }.waitS
      = some Wait.lsync ∧
    { gr0 with yL := [(1, (2 : BitVec 64))], gfL := (3 : W32), enq := 4, ended := 4, waitS := some Wait.lsync, mxEnded := 8 }.enq
      ≤
      { gr0 with yL := [(1, (2 : BitVec 64))], gfL := (3 : W32), enq := 4, ended := 4, waitS := some Wait.lsync, mxEnded := 8 }.ended ∧
    { gr0 with yL := [(1, (2 : BitVec 64))], gfL := (3 : W32), enq := 4, ended := 4, waitS := some Wait.lsync, mxEnded := 8 }.waitS
      ≠ some Wait.exitWait ∧
    -- ((WaitReleaseResults {sW { gr0 with waitS := some .exitWait } with clock := 0} 0 0 0 g0 { gr0 with waitS := some .exit…
    { sW { gr0 with waitS := some Wait.exitWait } with clock := 0 }.group g0 = some { gr0 with waitS := some Wait.exitWait } ∧
    { gr0 with waitS := some Wait.exitWait }.status = GStatus.active ∧
    ({ gr0 with waitS := some Wait.exitWait }.spilled = [] ∨ 16 ≤ { gr0 with waitS := some Wait.exitWait }.laneQ.length) ∧
    ({ gr0 with waitS := some Wait.exitWait }.waitS ≠ some Wait.lsync ∨ { gr0 with waitS := some Wait.exitWait }.ended <
      { gr0 with waitS := some Wait.exitWait }.enq) ∧
    { gr0 with waitS := some Wait.exitWait }.waitS = some Wait.exitWait ∧
    g0.isHandler = false ∧
    { gr0 with waitS := some Wait.exitWait }.enq ≤ { gr0 with waitS := some Wait.exitWait }.ended ∧
    { gr0 with waitS := some Wait.exitWait }.eng = [] ∧
    { gr0 with waitS := some Wait.exitWait }.out = [] ∧
    { gr0 with waitS := some Wait.exitWait }.obj = [] ∧
    NoWrap { sW { gr0 with waitS := some Wait.exitWait } with clock := 0 } 0 2 1 ∧
    { sW { gr0 with waitS := some Wait.exitWait } with clock := 0 }.team g0.team = some tm0 ∧
    tm0.region { gr0 with waitS := some Wait.exitWait }.role = none ∧
    { core := 0, slot := 0, gid := 1 : GRef } ≠ g0 :=
  ⟨by decide +kernel, (by unfold NoWrap; decide +kernel)⟩

theorem meets_WaitReleaseResults_2 :
    -- ((WaitReleaseResults {sW { gl0 with grant := some (3, 4), lastMma := 5 } with clock := 16389} 0 0 0 g0 { gl0 with gran…
    ({ sW { gl0 with grant := some (3, 4), lastMma := 5 } with clock := 16389 }.group g0 = some
      { gl0 with grant := some (3, 4), lastMma := 5 } ∧
    { gl0 with grant := some (3, 4), lastMma := 5 }.status = GStatus.active ∧
    ({ gl0 with grant := some (3, 4), lastMma := 5 }.spilled = [] ∨ 16 ≤
      { gl0 with grant := some (3, 4), lastMma := 5 }.laneQ.length) ∧
    ({ gl0 with grant := some (3, 4), lastMma := 5 }.waitS ≠ some Wait.lsync ∨
      { gl0 with grant := some (3, 4), lastMma := 5 }.ended < { gl0 with grant := some (3, 4), lastMma := 5 }.enq) ∧
    { gl0 with grant := some (3, 4), lastMma := 5 }.waitS ≠ some Wait.exitWait ∧
    { gl0 with grant := some (3, 4), lastMma := 5 }.grant = some (3, 4) ∧
    { gl0 with grant := some (3, 4), lastMma := 5 }.lastMma + 16384 ≤
      { sW { gl0 with grant := some (3, 4), lastMma := 5 } with clock := 16389 }.clock ∧
    -- ((WaitReleaseResults {sW { gl0 with grant := some (3, 4), lastMma := 5 } with clock := 16388} 0 0 0 g0 { gl0 with gran…
    { sW { gl0 with grant := some (3, 4), lastMma := 5 } with clock := 16388 }.group g0 = some
      { gl0 with grant := some (3, 4), lastMma := 5 } ∧
    { sW { gl0 with grant := some (3, 4), lastMma := 5 } with clock := 16388 }.clock <
      { gl0 with grant := some (3, 4), lastMma := 5 }.lastMma + 16384 ∧
    -- ((WaitReleaseResults {sW { gr0 with waitS := some (.timeline .ce 0) } with clock := 0} 0 0 0 g0 { gr0 with waitS := so…
    { sW { gr0 with waitS := some (Wait.timeline TlClass.ce 0) } with clock := 0 }.group g0 = some
      { gr0 with waitS := some (Wait.timeline TlClass.ce 0) } ∧
    { gr0 with waitS := some (Wait.timeline TlClass.ce 0) }.status = GStatus.active ∧
    { gr0 with waitS := some (Wait.timeline TlClass.ce 0) }.waitS = some (Wait.timeline TlClass.ce 0) ∧
    0 ≤ { sW { gr0 with waitS := some (Wait.timeline TlClass.ce 0) } with clock := 0 }.timeline g0
      { gr0 with waitS := some (Wait.timeline TlClass.ce 0) } TlClass.ce ∧
    -- ((WaitReleaseResults {sW { gr0 with waitS := some (.timeline .ce 4) } with clock := 0} 0 0 0 g0 { gr0 with waitS := so…
    { sW { gr0 with waitS := some (Wait.timeline TlClass.ce 4) } with clock := 0 }.group g0 = some
      { gr0 with waitS := some (Wait.timeline TlClass.ce 4) } ∧
    { gr0 with waitS := some (Wait.timeline TlClass.ce 4) }.status = GStatus.active ∧
    { gr0 with waitS := some (Wait.timeline TlClass.ce 4) }.waitS = some (Wait.timeline TlClass.ce 4) ∧
    { sW { gr0 with waitS := some (Wait.timeline TlClass.ce 4) } with clock := 0 }.timeline g0
      { gr0 with waitS := some (Wait.timeline TlClass.ce 4) } TlClass.ce < 4 ∧
    -- ((WaitReleaseResults {sW { gl0 with waitL := some (.waitp .gl 0 1) } with clock := 0} 0 0 0 g0 { gl0 with waitL := som…
    { sW { gl0 with waitL := some (Wait.waitp PathClass.gl 0 1) } with clock := 0 }.group g0 = some
      { gl0 with waitL := some (Wait.waitp PathClass.gl 0 1) } ∧
    { gl0 with waitL := some (Wait.waitp PathClass.gl 0 1) }.status = GStatus.active ∧
    { gl0 with waitL := some (Wait.waitp PathClass.gl 0 1) }.waitL = some (Wait.waitp PathClass.gl 0 1) ∧
    { gl0 with waitL := some (Wait.waitp PathClass.gl 0 1) }.pathCount PathClass.gl ≤ 0 ∧
    -- ((WaitReleaseResults {sW { gl0 with waitL := some (.waitp .gl 0 1), out := [oL] } with clock := 0} 0 0 0 g0 { gl0 with…
    { sW { gl0 with waitL := some (Wait.waitp PathClass.gl 0 1), out := [oL] } with clock := 0 }.group g0 = some
      { gl0 with waitL := some (Wait.waitp PathClass.gl 0 1), out := [oL] }) ∧
    { gl0 with waitL := some (Wait.waitp PathClass.gl 0 1), out := [oL] }.status = GStatus.active ∧
    { gl0 with waitL := some (Wait.waitp PathClass.gl 0 1), out := [oL] }.waitL = some (Wait.waitp PathClass.gl 0 1) ∧
    0 < { gl0 with waitL := some (Wait.waitp PathClass.gl 0 1), out := [oL] }.pathCount PathClass.gl :=
  ⟨by decide +kernel, by decide +kernel⟩

theorem meets_FenceReleaseResults_1 :
    -- (FenceReleaseResults (sW { gr0 with waitS := some (.fence 0 0 0 0) }) 0 0 0 g0 { gr0 with waitS := some (.fence 0 0 0 …
    (∀ (f : FabTag), f ∈ (sW { gr0 with waitS := some (Wait.fence 0 0 0 0) }).fabTags → f.busy = true → f.why ≠ ReqFor.lane g0
      ∧ ∀ (os : List GRef), f.why = ReqFor.partial_ os → ¬g0 ∈ os) ∧
    (g0 = { core := 0, slot := 0, gid := 0 : GRef } ∧
    (sW { gr0 with waitS := some (Wait.fence 0 0 0 0) }).group g0 = some { gr0 with waitS := some (Wait.fence 0 0 0 0) } ∧
    { gr0 with waitS := some (Wait.fence 0 0 0 0) }.status = GStatus.active ∧
    g0.isHandler = false ∧
    (sW { gr0 with waitS := some (Wait.fence 0 0 0 0) }).team g0.team = some tm0 ∧
    { gr0 with waitS := some (Wait.fence 0 0 0 0) }.waitS = some (Wait.fence 0 0 0 0) ∧
    0 ≠ 2 ∧
    { gr0 with waitS := some (Wait.fence 0 0 0 0) }.enq ≤ { gr0 with waitS := some (Wait.fence 0 0 0 0) }.ended ∧
    { gr0 with waitS := some (Wait.fence 0 0 0 0) }.out = [] ∧
    (∀ (u : UPart), u ∈ (sW { gr0 with waitS := some (Wait.fence 0 0 0 0) }).upart → ¬g0 ∈ u.owners)) ∧
    -- (FenceReleaseResults (sW { gr0 with waitS := some (.fence 2 0 0 0), c := [(0,1), (1,1)] }) 0 0 0 g0 { gr0 with waitS :…
    (∀ (f : FabTag), f ∈ (sW
      { gr0 with c := [(0, (1 : BitVec 1)), (1, (1 : BitVec 1))], waitS := some (Wait.fence 2 0 0 0) }).fabTags → f.busy = true
      → f.why ≠ ReqFor.lane g0 ∧ ∀ (os : List GRef), f.why = ReqFor.partial_ os → ¬g0 ∈ os) ∧
    ((sW { gr0 with c := [(0, (1 : BitVec 1)), (1, (1 : BitVec 1))], waitS := some (Wait.fence 2 0 0 0) }).group g0 = some
      { gr0 with c := [(0, (1 : BitVec 1)), (1, (1 : BitVec 1))], waitS := some (Wait.fence 2 0 0 0) } ∧
    { gr0 with c := [(0, (1 : BitVec 1)), (1, (1 : BitVec 1))], waitS := some (Wait.fence 2 0 0 0) }.status = GStatus.active ∧
    (sW { gr0 with c := [(0, (1 : BitVec 1)), (1, (1 : BitVec 1))], waitS := some (Wait.fence 2 0 0 0) }).team g0.team = some
      tm0 ∧
    { gr0 with c := [(0, (1 : BitVec 1)), (1, (1 : BitVec 1))], waitS := some (Wait.fence 2 0 0 0) }.waitS = some (Wait.fence 2
      0 0 0) ∧
    { gr0 with c := [(0, (1 : BitVec 1)), (1, (1 : BitVec 1))], waitS := some (Wait.fence 2 0 0 0) }.enq ≤
      { gr0 with c := [(0, (1 : BitVec 1)), (1, (1 : BitVec 1))], waitS := some (Wait.fence 2 0 0 0) }.ended ∧
    { gr0 with c := [(0, (1 : BitVec 1)), (1, (1 : BitVec 1))], waitS := some (Wait.fence 2 0 0 0) }.out = [] ∧
    (∀ (u : UPart), u ∈ (sW
      { gr0 with c := [(0, (1 : BitVec 1)), (1, (1 : BitVec 1))], waitS := some (Wait.fence 2 0 0 0) }).upart → ¬g0 ∈ u.owners) ∧
    0 ≤ tm0.doneCe ∧
    0 ≤ tm0.doneKv ∧
    0 ≤ tm0.doneCo ∧
    { gr0 with c := [(0, (1 : BitVec 1)), (1, (1 : BitVec 1))], waitS := some (Wait.fence 2 0 0 0) }.mxFence ≤
      { gr0 with c := [(0, (1 : BitVec 1)), (1, (1 : BitVec 1))], waitS := some (Wait.fence 2 0 0 0) }.mxDone ∧
    (∀ (e : Staging), e ∈ ((sW
      { gr0 with c := [(0, (1 : BitVec 1)), (1, (1 : BitVec 1))], waitS := some (Wait.fence 2 0 0 0) }).core 0).staging → e.mor
      = true → ¬g0 ∈ e.from_) ∧
    (∀ (x : TileSend), x ∈ (sW
      { gr0 with c := [(0, (1 : BitVec 1)), (1, (1 : BitVec 1))], waitS := some (Wait.fence 2 0 0 0) }).sends → x.mor = true →
      ¬g0 ∈ x.from_)) ∧
    ((sW { gr0 with c := [(0, (1 : BitVec 1)), (1, (1 : BitVec 1))], waitS := some (Wait.fence 2 0 0 0) }).deltas = [] ∧
    { gr0 with c := [(0, (1 : BitVec 1)), (1, (1 : BitVec 1))], waitS := some (Wait.fence 2 0 0 0) }.survDeg = false ∧
    tm0.survBad = [] ∧
    { gr0 with c := [(0, (1 : BitVec 1)), (1, (1 : BitVec 1))], waitS := some (Wait.fence 2 0 0 0) }.morFrames = [] ∧
    tm0.mor = []) ∧
    -- (FenceReleaseResults (sW { gr0 with waitS := some (.fence 2 0 0 0), enq := 3 }) 0 0 0 g0 { gr0 with waitS := some (.fe…
    (sW { gr0 with enq := 3, waitS := some (Wait.fence 2 0 0 0) }).group g0 = some
      { gr0 with enq := 3, waitS := some (Wait.fence 2 0 0 0) } ∧
    { gr0 with enq := 3, waitS := some (Wait.fence 2 0 0 0) }.status = GStatus.active ∧
    (sW { gr0 with enq := 3, waitS := some (Wait.fence 2 0 0 0) }).team g0.team = some tm0 ∧
    { gr0 with enq := 3, waitS := some (Wait.fence 2 0 0 0) }.waitS = some (Wait.fence 2 0 0 0) ∧
    { gr0 with enq := 3, waitS := some (Wait.fence 2 0 0 0) }.ended <
      { gr0 with enq := 3, waitS := some (Wait.fence 2 0 0 0) }.enq :=
  ⟨(fun _ h => nomatch h), by decide +kernel, (fun _ h => nomatch h), by decide +kernel, by decide +kernel, by decide +kernel⟩

theorem meets_FenceReleaseResults_2 :
    -- (FenceReleaseResults (sW { gr0 with waitS := some (.fence 1 0 0 0), enq := 3 }) 0 0 0 g0 { gr0 with waitS := some (.fe…
    (sW { gr0 with enq := 3, waitS := some (Wait.fence 1 0 0 0) }).group g0 = some
      { gr0 with enq := 3, waitS := some (Wait.fence 1 0 0 0) } ∧
    { gr0 with enq := 3, waitS := some (Wait.fence 1 0 0 0) }.status = GStatus.active ∧
    (sW { gr0 with enq := 3, waitS := some (Wait.fence 1 0 0 0) }).team g0.team = some tm0 ∧
    { gr0 with enq := 3, waitS := some (Wait.fence 1 0 0 0) }.waitS = some (Wait.fence 1 0 0 0) ∧
    1 ≠ 2 ∧
    { gr0 with enq := 3, waitS := some (Wait.fence 1 0 0 0) }.ended <
      { gr0 with enq := 3, waitS := some (Wait.fence 1 0 0 0) }.enq :=
  by decide +kernel

theorem meets_AccessPerformedResults_1 :
    -- (AccessPerformedResults { sW { gl0 with out := [{ oL with units := [⟨.global, .load false, 0x40000, 0x40000, 4, 0, 2, …
    (g0 = { core := 0, slot := 0, gid := 0 : GRef } ∧
    { sW { gl0 with out := [{ oL with units := [aUnitW1, aUnitW1] }] } with mem := ssetLE base.mem 262144 16 5302590746052724293842418636, hostMem := [(262147, (9 : BitVec 8))] }.group
      g0 = some { gl0 with out := [{ oL with units := [aUnitW1, aUnitW1] }] } ∧
    { gl0 with out := [{ oL with units := [aUnitW1, aUnitW1] }] }.out = [{ oL with units := [aUnitW1, aUnitW1] }] ∧
    { oL with units := [aUnitW1, aUnitW1] }.units = [aUnitW1, aUnitW1] ∧
    aUnitW1.bytes = 4 ∧
    aUnitW1.pa % 4 = 0 ∧
    PlainHomes
      { sW { gl0 with out := [{ oL with units := [aUnitW1, aUnitW1] }] } with mem := ssetLE base.mem 262144 16 5302590746052724293842418636, hostMem := [(262147, (9 : BitVec 8))] } ∧
    NoObjectWaits
      { sW { gl0 with out := [{ oL with units := [aUnitW1, aUnitW1] }] } with mem := ssetLE base.mem 262144 16 5302590746052724293842418636, hostMem := [(262147, (9 : BitVec 8))] } ∧
    { sW { gl0 with out := [{ oL with units := [aUnitW1, aUnitW1] }] } with mem := ssetLE base.mem 262144 16 5302590746052724293842418636, hostMem := [(262147, (9 : BitVec 8))] }.holds
      = [] ∧
    NoWrap
      { sW { gl0 with out := [{ oL with units := [aUnitW1, aUnitW1] }] } with mem := ssetLE base.mem 262144 16 5302590746052724293842418636, hostMem := [(262147, (9 : BitVec 8))] }
      0 6 1 ∧
    aUnitW1.space = Space.global ∧
    aUnitW1.kind = UKind.load false ∧
    NoCopy
      { sW { gl0 with out := [{ oL with units := [aUnitW1, aUnitW1] }] } with mem := ssetLE base.mem 262144 16 5302590746052724293842418636, hostMem := [(262147, (9 : BitVec 8))] }
      0 (lineOf aUnitW1.pa) ∧
    { sW { gl0 with out := [{ oL with units := [aUnitW1, aUnitW1] }] } with mem := ssetLE base.mem 262144 16 5302590746052724293842418636, hostMem := [(262147, (9 : BitVec 8))] }.unbuilt
      aUnitW1.pa = false ∧
    { gl0 with out := [{ oL with units := [aUnitW1, aUnitW1] }] }.stopping = none ∧
    aUnitW1.dst = [some 40]) ∧
    -- (AccessPerformedResults { sW { gl0 with out := [{ oL with units := [⟨.global, .store, 0x40004, 0x40004, 4, 0, 2, 0x123…
    { sW { gl0 with out := [{ oL with units := [aUnitW2, aUnitW2] }] } with mem := ssetLE base.mem 262144 16 5302590746052724293842418636, hostMem := [(262147, (9 : BitVec 8))] }.group
      g0 = some { gl0 with out := [{ oL with units := [aUnitW2, aUnitW2] }] } ∧
    { gl0 with out := [{ oL with units := [aUnitW2, aUnitW2] }] }.out = [{ oL with units := [aUnitW2, aUnitW2] }] ∧
    { oL with units := [aUnitW2, aUnitW2] }.units = [aUnitW2, aUnitW2] ∧
    aUnitW2.bytes = 4 ∧
    aUnitW2.pa % 4 = 0 ∧
    PlainHomes
      { sW { gl0 with out := [{ oL with units := [aUnitW2, aUnitW2] }] } with mem := ssetLE base.mem 262144 16 5302590746052724293842418636, hostMem := [(262147, (9 : BitVec 8))] } ∧
    NoObjectWaits
      { sW { gl0 with out := [{ oL with units := [aUnitW2, aUnitW2] }] } with mem := ssetLE base.mem 262144 16 5302590746052724293842418636, hostMem := [(262147, (9 : BitVec 8))] } ∧
    { sW { gl0 with out := [{ oL with units := [aUnitW2, aUnitW2] }] } with mem := ssetLE base.mem 262144 16 5302590746052724293842418636, hostMem := [(262147, (9 : BitVec 8))] }.holds
      = [] ∧
    NoWrap
      { sW { gl0 with out := [{ oL with units := [aUnitW2, aUnitW2] }] } with mem := ssetLE base.mem 262144 16 5302590746052724293842418636, hostMem := [(262147, (9 : BitVec 8))] }
      0 6 1 ∧
    aUnitW2.space = Space.global ∧
    aUnitW2.kind = UKind.store ∧
    aUnitW2.dst = [] ∧
    aUnitW2.mor = false ∧
    { sW { gl0 with out := [{ oL with units := [aUnitW2, aUnitW2] }] } with mem := ssetLE base.mem 262144 16 5302590746052724293842418636, hostMem := [(262147, (9 : BitVec 8))] }.locked
      aUnitW2.pa = false ∧
    (0 < aUnitW2.pa ∨ aUnitW2.pa + 4 ≤ 0) :=
  ⟨(by unfold NoCopy NoObjectWaits NoWrap PlainHomes; decide +kernel),
    (by unfold NoObjectWaits NoWrap PlainHomes; decide +kernel)⟩

theorem meets_AccessPerformedResults_2 :
    -- (AccessPerformedResults { sW { gl0 with out := [{ oL with units := [⟨.host, .store, 0x40000, 0x40000, 4, 0, 2, 0x12345…
    ({ sW { gl0 with out := [{ oL with units := [aUnitW3, aUnitW3] }] } with mem := ssetLE base.mem 262144 16 5302590746052724293842418636, hostMem := [(262147, (9 : BitVec 8))] }.group
      g0 = some { gl0 with out := [{ oL with units := [aUnitW3, aUnitW3] }] } ∧
    { gl0 with out := [{ oL with units := [aUnitW3, aUnitW3] }] }.out = [{ oL with units := [aUnitW3, aUnitW3] }] ∧
    { oL with units := [aUnitW3, aUnitW3] }.units = [aUnitW3, aUnitW3] ∧
    aUnitW3.bytes = 4 ∧
    aUnitW3.pa % 4 = 0 ∧
    PlainHomes
      { sW { gl0 with out := [{ oL with units := [aUnitW3, aUnitW3] }] } with mem := ssetLE base.mem 262144 16 5302590746052724293842418636, hostMem := [(262147, (9 : BitVec 8))] } ∧
    NoObjectWaits
      { sW { gl0 with out := [{ oL with units := [aUnitW3, aUnitW3] }] } with mem := ssetLE base.mem 262144 16 5302590746052724293842418636, hostMem := [(262147, (9 : BitVec 8))] } ∧
    { sW { gl0 with out := [{ oL with units := [aUnitW3, aUnitW3] }] } with mem := ssetLE base.mem 262144 16 5302590746052724293842418636, hostMem := [(262147, (9 : BitVec 8))] }.holds
      = [] ∧
    NoWrap
      { sW { gl0 with out := [{ oL with units := [aUnitW3, aUnitW3] }] } with mem := ssetLE base.mem 262144 16 5302590746052724293842418636, hostMem := [(262147, (9 : BitVec 8))] }
      0 6 1 ∧
    aUnitW3.space = Space.host ∧
    aUnitW3.kind = UKind.store ∧
    aUnitW3.dst = [] ∧
    (0 < aUnitW3.pa ∨ aUnitW3.pa + 4 ≤ 0) ∧
    -- AccessPerformedResults (sW gl0) 0 0 0 g0 gl0 oL uP1 []
    (sW gl0).group g0 = some gl0 ∧
    gl0.out = []) ∧
    (sW gl0).holds = [] ∧
    -- AccessPerformedResults {sW gL1 with migrations := [⟨0x40000, 0x50000, 0x10000, 1, 0x40000⟩]} 0 0 0 g0 gL1 oS uP1 []
    { sW gL1 with migrations := [{ old := 262144, new := 327680, bytes := 65536, ctx := 1, va := 262144 : Migration }] }.group
      g0 = some gL1 ∧
    gL1.out = [oS] ∧
    oS.units = [uP1] ∧
    uP1.bytes = 4 ∧
    uP1.pa % 4 = 0 ∧
    PlainHomes
      { sW gL1 with migrations := [{ old := 262144, new := 327680, bytes := 65536, ctx := 1, va := 262144 : Migration }] } ∧
    NoObjectWaits
      { sW gL1 with migrations := [{ old := 262144, new := 327680, bytes := 65536, ctx := 1, va := 262144 : Migration }] } ∧
    { sW gL1 with migrations := [{ old := 262144, new := 327680, bytes := 65536, ctx := 1, va := 262144 : Migration }] }.holds
      = [] ∧
    NoWrap { sW gL1 with migrations := [{ old := 262144, new := 327680, bytes := 65536, ctx := 1, va := 262144 : Migration }] }
      0 6 1 ∧
    uP1.space = Space.global ∧
    uP1.kind = UKind.store ∧
    { sW gL1 with migrations := [{ old := 262144, new := 327680, bytes := 65536, ctx := 1, va := 262144 : Migration }] }.locked
      uP1.pa = true ∧
    { sW gL1 with migrations := [{ old := 262144, new := 327680, bytes := 65536, ctx := 1, va := 262144 : Migration }] }.unbuilt
      uP1.pa = false :=
  ⟨(by unfold NoObjectWaits NoWrap PlainHomes; decide +kernel), (by unfold NoObjectWaits NoWrap PlainHomes; decide +kernel)⟩

theorem meets_CompletionAndFlushResults :
    -- CompletionAndFlushResults.2.1 { sW gl0 with upart := [uP], mem := ssetLE base.mem 0x40000 16 0x112233445566778899AABBC…
    { sW gl0 with mem := ssetLE base.mem 262144 16 5302590746052724293842418636, upart := [uP] }.upart = [uP] ∧
    { sW gl0 with mem := ssetLE base.mem 262144 16 5302590746052724293842418636, upart := [uP] }.remoteHolders = [] ∧
    (∀ (p : Nat × ObsPage), p ∈
      { sW gl0 with mem := ssetLE base.mem 262144 16 5302590746052724293842418636, upart := [uP] }.obs → p.snd.hwPages = []) ∧
    NothingLocked { sW gl0 with mem := ssetLE base.mem 262144 16 5302590746052724293842418636, upart := [uP] } ∧
    uP.rank = none ∧
    uP.cells = [(262148, 4294967295)] ∧
    uP.op = AOp.add ∧
    uP.w = AWidth.w32 ∧
    uP.mor = false ∧
    4294967295 < 2 ^ 32 ∧
    (0 < 262148 ∨ 262148 + 4 ≤ 0) ∧
    -- CompletionAndFlushResults.2.2 { sW gl0 with upart := [uP]} 1
    { sW gl0 with upart := [uP] }.upart.length ≤ 1 ∧
    -- CompletionAndFlushResults.1 (sW gl0) 0 0 0 gl0
    (sW gl0).group { core := 0, slot := 0, gid := 0 : GRef } = some gl0 :=
  by unfold NothingLocked; decide +kernel

theorem meets_MatrixStepResults_1 :
    -- ((MatrixStepResults sMx0 0 0 0 0 g0 gl0 ⟨0, .zero, 0, 0, false, [], [], [], 0, none, [], false, [], [], 0⟩ []).2.2.2.2…
    (g0 = { core := 0, slot := 0, gid := 0 : GRef } ∧
    sMx0.group g0 = some gl0 ∧
    sMx0.sends = [tsX] ∧
    tsX.cells = [(5, (7 : BitVec 64))] ∧
    PlainHomes sMx0 ∧
    tsX.mor = false ∧
    tsX.pa % 8 = 0 ∧
    NothingLocked sMx0 ∧
    (0 < tsX.pa + 8 * 5 ∨ tsX.pa + 8 * 5 + 8 ≤ 0) ∧
    -- MatrixStepResults sMx0_2 0 0 0 0 g0 gl0 ⟨0, .zero, 0, 0, false, [], [], [], 0, none, [], false, [], [], 0⟩ []
    sMx0_2.group g0 = some gl0 ∧
    gl0.mx = [] ∧
    (sMx0_2.core 0).staging.length ≤ 0 ∧
    sMx0_2.sends.length ≤ 0 ∧
    -- (MatrixStepResults (sM { gr0 with mx := (mx .mma true [] []) :: [] } [] []) 0 0 0 0 g0 { gr0 with mx := (mx .mma true …
    (sM { gr0 with mx := [mx MxKind.mma true [] []] } [] []).group g0 = some { gr0 with mx := [mx MxKind.mma true [] []] } ∧
    { gr0 with mx := [mx MxKind.mma true [] []] }.mx = [mx MxKind.mma true [] []]) ∧
    ((∀ (d : MxCmd), d ∈ [] → d.num ≠ (mx MxKind.mma true [] []).num) ∧
    (mx MxKind.mma true [] []).kind = MxKind.mma ∧
    (mx MxKind.mma true [] []).begun = true ∧
    ((sM { gr0 with mx := [mx MxKind.mma true [] []] } [] []).core 0).staging = [] ∧
    ((sM { gr0 with mx := [mx MxKind.mma true [] []] } [] []).core 0).staging.length ≤ 0 ∧
    (sM { gr0 with mx := [mx MxKind.mma true [] []] } [] []).sends.length ≤ 0 ∧
    -- ((MatrixStepResults (sM { gr0 with mx := (mx (.flush false) false [] [0x40000]) :: [] } [stg] []) 0 0 0 0 g0 { gr0 wit…
    (sM { gr0 with mx := [mx (MxKind.flush false) false [] [262144]] } [stg] []).group g0 = some
      { gr0 with mx := [mx (MxKind.flush false) false [] [262144]] } ∧
    { gr0 with mx := [mx (MxKind.flush false) false [] [262144]] }.mx = [mx (MxKind.flush false) false [] [262144]] ∧
    (∀ (d : MxCmd), d ∈ [] → d.num ≠ (mx (MxKind.flush false) false [] [262144]).num) ∧
    (mx (MxKind.flush false) false [] [262144]).begun = false ∧
    (mx (MxKind.flush false) false [] [262144]).kind = MxKind.flush false ∧
    stg ∈ ((sM { gr0 with mx := [mx (MxKind.flush false) false [] [262144]] } [stg] []).core 0).staging ∧
    stg.ctx = (sM { gr0 with mx := [mx (MxKind.flush false) false [] [262144]] } [stg] []).ctxOf g0 ∧
    stg.pa ∈ (mx (MxKind.flush false) false [] [262144]).tiles ∧
    -- (((MatrixStepResults (sM { gr0 with mx := (mx (.flush false) true [] [0x40000]) :: [] } [stg] [snd]) 0 0 0 0 g0 { gr0 …
    (sM { gr0 with mx := [mx (MxKind.flush false) true [] [262144]] } [stg] [snd]).group g0 = some
      { gr0 with mx := [mx (MxKind.flush false) true [] [262144]] } ∧
    { gr0 with mx := [mx (MxKind.flush false) true [] [262144]] }.mx = [mx (MxKind.flush false) true [] [262144]]) ∧
    (∀ (d : MxCmd), d ∈ [] → d.num ≠ (mx (MxKind.flush false) true [] [262144]).num) ∧
    (mx (MxKind.flush false) true [] [262144]).kind = MxKind.flush false ∧
    (mx (MxKind.flush false) true [] [262144]).begun = true ∧
    (∃ x, x ∈ (sM { gr0 with mx := [mx (MxKind.flush false) true [] [262144]] } [stg] [snd]).sends ∧ g0 ∈ x.from_ ∧ x.pa ∈ (mx
      (MxKind.flush false) true [] [262144]).tiles) ∧
    -- (((MatrixStepResults (sM { gr0 with mx := (mx (.flush false) true [] [0x40000]) :: [] } [stg] [{snd with from_ := []}]…
    (sM { gr0 with mx := [mx (MxKind.flush false) true [] [262144]] } [stg] [{ snd with from_ := [] }]).group g0 = some
      { gr0 with mx := [mx (MxKind.flush false) true [] [262144]] } ∧
    (∀ (x : TileSend), x ∈ (sM { gr0 with mx := [mx (MxKind.flush false) true [] [262144]] } [stg]
      [{ snd with from_ := [] }]).sends → ¬g0 ∈ x.from_ ∨ ¬x.pa ∈ (mx (MxKind.flush false) true [] [262144]).tiles) :=
  ⟨(by unfold NothingLocked PlainHomes; decide +kernel), by decide +kernel, by decide +kernel⟩

theorem meets_MatrixStepResults_2 :
    -- (((MatrixStepResults (sM { gr0 with mx := (mx .zero true [3] [0x40000]) :: [] } [stg] []) 0 0 0 0 g0 { gr0 with mx := …
    ((sM { gr0 with mx := [mx MxKind.zero true [3] [262144]] } [stg] []).group g0 = some
      { gr0 with mx := [mx MxKind.zero true [3] [262144]] } ∧
    { gr0 with mx := [mx MxKind.zero true [3] [262144]] }.mx = [mx MxKind.zero true [3] [262144]] ∧
    (∀ (d : MxCmd), d ∈ [] → d.num ≠ (mx MxKind.zero true [3] [262144]).num) ∧
    (mx MxKind.zero true [3] [262144]).kind = MxKind.zero ∧
    (mx MxKind.zero true [3] [262144]).begun = true ∧
    (mx MxKind.zero true [3] [262144]).toZero = [3] ∧
    (∀ (x : TileSend), x ∈ (sM { gr0 with mx := [mx MxKind.zero true [3] [262144]] } [stg] []).sends → ¬g0 ∈ x.from_ ∨ x.pa ≠
      (mx MxKind.zero true [3] [262144]).pa) ∧
    PlainHomes (sM { gr0 with mx := [mx MxKind.zero true [3] [262144]] } [stg] []) ∧
    NothingLocked (sM { gr0 with mx := [mx MxKind.zero true [3] [262144]] } [stg] []) ∧
    (mx MxKind.zero true [3] [262144]).mor = false ∧
    (mx MxKind.zero true [3] [262144]).pa % 8 = 0) ∧
    (0 < (mx MxKind.zero true [3] [262144]).pa + 8 * 3 ∨ (mx MxKind.zero true [3] [262144]).pa + 8 * 3 + 8 ≤ 0) ∧
    -- ((MatrixStepResults (sM { gr0 with mx := (mx .zero true [3] [0x40000]) :: [] } [stg] []) 0 0 0 0 g0 { gr0 with mx := (…
    ((sM { gr0 with mx := [mx MxKind.zero true [3] [262144]] } [stg] []).core 0).staging = [stg] ∧
    -- ((MatrixStepResults { sMx0 with migrations := [⟨0x40000, 0x50000, 0x10000, 1, 0x40000⟩] } 0 0 0 0 g0 gl0 ⟨0, .zero, 0,…
    { sMx0 with migrations := [{ old := 262144, new := 327680, bytes := 65536, ctx := 1, va := 262144 : Migration }] }.group g0
      = some gl0 ∧
    { sMx0 with migrations := [{ old := 262144, new := 327680, bytes := 65536, ctx := 1, va := 262144 : Migration }] }.sends =
      [tsX] ∧
    PlainHomes
      { sMx0 with migrations := [{ old := 262144, new := 327680, bytes := 65536, ctx := 1, va := 262144 : Migration }] } ∧
    { sMx0 with migrations := [{ old := 262144, new := 327680, bytes := 65536, ctx := 1, va := 262144 : Migration }] }.locked
      tsX.pa = true :=
  ⟨(by unfold NothingLocked PlainHomes; decide +kernel), (by unfold PlainHomes; decide +kernel)⟩

theorem meets_ServiceResults :
    -- (ServiceResults.2.2.2.2.1 { base with choices := [6, 1] } 6 [1]).2.2
    { base with choices := [6, 1] }.choices = [6, 1] ∧
    6 % 5 ∈ [1, 2, 3] ∧
    -- (ServiceResults.2.2.2.2.2 { base with inReset := true }).2
    { base with inReset := true }.inReset = true ∧
    -- ServiceResults.1 (ttl [3, 1, 2]) 3 1 [2]
    (ttl [3, 1, 2]).endpointUp = true ∧
    (ttl [3, 1, 2]).choices = [3, 1, 2] ∧
    1 % 2 = 1 ∧
    ¬3 ∈ (ttl [3, 1, 2]).chanDown ∧
    -- ServiceResults.1 (ttl [3, 2, 2]) 3 2 [2]
    (ttl [3, 2, 2]).endpointUp = true ∧
    (ttl [3, 2, 2]).choices = [3, 2, 2] ∧
    2 % 2 = 0 ∧
    -- ServiceResults.2.1 (ttl [3, 2, 2]) 3 [2,2]
    ¬3 % 36 ∈ (ttl [3, 2, 2]).portsDown ∧
    -- ServiceResults.2.1 ({ttl [39, 2, 2] with portsDown := [3,4]}) 39 [2,2]
    { ttl [39, 2, 2] with portsDown := [3, 4] }.endpointUp = true ∧
    { ttl [39, 2, 2] with portsDown := [3, 4] }.choices = [39, 2, 2] ∧
    39 % 36 ∈ { ttl [39, 2, 2] with portsDown := [3, 4] }.portsDown ∧
    -- ServiceResults.2.2.2.2.1 (ttl [5, 8, 1]) 5 [8,1]
    (ttl [5, 8, 1]).choices = [5, 8, 1] ∧
    5 % 5 = 0 ∧
    -- ServiceResults.2.2.2.2.1 (ttl [9, 8, 1]) 9 [8,1]
    (ttl [9, 8, 1]).choices = [9, 8, 1] ∧
    9 % 5 = 4 ∧
    -- ServiceResults.2.2.2.2.2 base
    base.inReset = false :=
  by decide +kernel

theorem meets_ScalarArithmeticResults :
    -- ScalarArithmeticResults (sS gr0) g0 gr0 .dyn 0 4 5 0xFFF 63
    ScalarAt (sS gr0) g0 gr0 :=
  by unfold ScalarAt; decide +kernel

theorem meets_ScalarSelectAndMoveResults :
    -- ScalarSelectAndMoveResults (sS gr0) g0 gr0 .dyn 0 1 2 1 0xFFFFFFFFFFFFFFFF 15 7
    ScalarAt (sS gr0) g0 gr0 :=
  by unfold ScalarAt; decide +kernel

theorem meets_ScalarRegisterFrame :
    -- ScalarRegisterFrame (sS gr0) (nx (exec (.saddReg .dyn 0 1 2) (sS gr0))) g0 gr0 (.saddReg .dyn 0 1 2)
    exec (Instr.saddReg Bt.dyn (0 : SReg) (1 : SReg) (2 : SReg)) (sS gr0) = Host.Outcome.next (nx (exec (Instr.saddReg Bt.dyn
      (0 : SReg) (1 : SReg) (2 : SReg)) (sS gr0))) ∧
    ScalarAt (sS gr0) g0 gr0 ∧
    ((Instr.saddReg Bt.dyn (0 : SReg) (1 : SReg) (2 : SReg)).scalarDest.isSome = true ∨ (Instr.saddReg Bt.dyn (0 : SReg) (1 :
      SReg) (2 : SReg)).condDest.isSome = true) ∧
    { core := 0, slot := 0, gid := 1 : GRef } ≠ g0 ∧
    NoWrap (sS gr0) g0.core 2 1 :=
  ⟨(next_of (by decide +kernel)), (by unfold NoWrap ScalarAt; decide +kernel)⟩

theorem meets_ScalarMoveForms :
    -- ScalarMoveForms (sS gr0) g0 gr0 .dyn 0 1 1
    ScalarAt (sS gr0) g0 gr0 ∧
    gr0.sreg (1 : SReg) ≠ (0 : W64) ∧
    -- ScalarMoveForms (sS gr0) g0 gr0 .dyn 0 8 1
    gr0.sreg (8 : SReg) = (0 : W64) :=
  by unfold ScalarAt; decide +kernel

theorem meets_ScalarCompareResults :
    -- ScalarCompareResults (sS gr0) g0 gr0 .dyn .ge 1 2 63 7
    ScalarAt (sS gr0) g0 gr0 :=
  by unfold ScalarAt; decide +kernel

theorem meets_FenceWaits :
    -- FenceWaits (sS gE1) g0 gE1 .dyn tm0 2 (.fenceSurv .dyn)
    ScalarAt (sS gE1) g0 gE1 ∧
    g0.isHandler = false ∧
    (sS gE1).team g0.team = some tm0 ∧
    gE1.waitS = none ∧
    (Instr.fenceSurv Bt.dyn, 2) ∈ [(Instr.fence Bt.dyn, 0), (Instr.fenceSys Bt.dyn, 1), (Instr.fenceSurv Bt.dyn, 2)] ∧
    (gE1.ended < gE1.enq ∨ gE1.out = [] ∧ (∀ (u : UPart), u ∈ (sS gE1).upart → ¬g0 ∈ u.owners) ∧ ((sS gE1).core
      g0.core).staging = [] ∧ ∃ f, f ∈ (sS gE1).fabTags ∧ f.busy = true ∧ f.why = ReqFor.lane g0) :=
  by unfold ScalarAt; decide +kernel

theorem meets_MemoryWriteLaw :
    -- MemoryWriteLaw [(5, 1)] 5 2 0x1020003
    Memory.wf [(5, (1 : BitVec 8))] = true ∧
    (0 < 5 ∨ 5 + 2 ≤ 0) :=
  by decide +kernel

theorem meets_FatalStopsEveryStep :
    -- FatalStopsEveryStep sFat (.scalar 0 0)
    sFat.fatal = true ∧
    Move.scalar 0 0 ≠ Move.event Instr.powerOnReset ∧
    sFat.nextMove.fst = Move.scalar 0 0 :=
  by decide +kernel

theorem meets_StepRunsDeviceStep :
    -- StepRunsDeviceStep sDev .firnBuild []
    sDev.agenda = [Move.event Instr.firnBuild] ∧
    sDev.fatal = false ∧
    sDev.inReset = false :=
  by decide +kernel

theorem meets_ScalarTransferResults :
    -- ScalarTransferResults (sT (sN 0x8001)) g0 (sN 0x8001) .dyn 7 2 1 false ⟨1, 2⟩ 0x8022 (BitVec.ofInt 64 (((0x8001 / 32 :…
    ScalarAt (sT (sN (32769 : W64))) g0 (sN (32769 : W64)) ∧
    BitVec.ofInt 64 (((↑(32769 / 32 : Nat) : Int) + (1 : Int)) * (32 : Int) + (2 : Int)) = BitVec.ofInt 64 (((↑(BitVec.toNat
      (sN (32769 : W64)).spc / 32) : Int) + { delta := (1 : BitVec 9), slot := (2 : Fin 32) : SOff }.delta.toInt) * (32 : Int)
      + (↑(↑{ delta := (1 : BitVec 9), slot := (2 : Fin 32) : SOff }.slot : Nat) : Int)) ∧
    (sN (32769 : W64)).creg (1 : CReg) ≠ false ∧
    1 < BitVec.toNat ((sN (32769 : W64)).sreg (2 : SReg)) ∧
    -- ScalarTransferResults (sT (sN 0x8001)) g0 (sN 0x8001) .dyn 7 2 1 true ⟨1, 0⟩ 0x8020 (BitVec.ofInt 64 (((0x8001 / 32 : …
    BitVec.ofInt 64 (((↑(32769 / 32 : Nat) : Int) + (1 : Int)) * (32 : Int) + (0 : Int)) = BitVec.ofInt 64 (((↑(BitVec.toNat
      (sN (32769 : W64)).spc / 32) : Int) + { delta := (1 : BitVec 9), slot := (0 : Fin 32) : SOff }.delta.toInt) * (32 : Int)
      + (↑(↑{ delta := (1 : BitVec 9), slot := (0 : Fin 32) : SOff }.slot : Nat) : Int)) ∧
    (sN (32769 : W64)).creg (1 : CReg) = true ∧
    -- ScalarTransferResults (sT (sN 0x8001)) g0 (sN 0x8001) .dyn 7 4 1 true ⟨-1, 0⟩ 0x40000000000 (BitVec.ofInt 64 (((0x8001…
    BitVec.ofInt 64 (((↑(32769 / 32 : Nat) : Int) + (-1 : Int)) * (32 : Int) + (0 : Int)) = BitVec.ofInt 64 (((↑(BitVec.toNat
      (sN (32769 : W64)).spc / 32) : Int) + { delta := (-1 : BitVec 9), slot := (0 : Fin 32) : SOff }.delta.toInt) * (32 : Int)
      + (↑(↑{ delta := (-1 : BitVec 9), slot := (0 : Fin 32) : SOff }.slot : Nat) : Int)) ∧
    BitVec.toNat ((sN (32769 : W64)).sreg (4 : SReg)) ≤ 1 :=
  by unfold ScalarAt; decide +kernel

theorem meets_TransferTargetChecks :
    -- TransferTargetChecks (sT gr0) 1 false false 0x8022
    (((sT gr0).fetchLine 1 (if false = true then (32802 / 16 : Nat) * 128 else (32802 / 32 : Nat) * 128)).fst = .ok
      ({ pa := 131200, r := true, w := true, x := true, host := false, mor := false : Xl }, 21474836485)) ∧
    (((if false = true then 32802 % 16 else 32802 % 32) < if false = true then 10 else 30) ∧
    ((if false = true then (32802 / 16 : Nat) * 128 else (32802 / 32 : Nat) * 128) < 2 ^ 56) ∧
    (false = true → (if false = true then 32802 % 16 else 32802 % 32) = 0) ∧
    (Nat.testBit 21474836485 (if false = true then 32802 % 16 else 32802 % 32) = true ∧ Nat.testBit 21474836485 ((if false =
      true then 16 else 32) + if false = true then 32802 % 16 else 32802 % 32) = true)) ∧
    -- TransferTargetChecks (sT gr0) 1 false false 0x8021
    (((sT gr0).fetchLine 1 (if false = true then (32801 / 16 : Nat) * 128 else (32801 / 32 : Nat) * 128)).fst = .ok
      ({ pa := 131200, r := true, w := true, x := true, host := false, mor := false : Xl }, 21474836485)) ∧
    (((if false = true then 32801 % 16 else 32801 % 32) < if false = true then 10 else 30) ∧
    ((if false = true then (32801 / 16 : Nat) * 128 else (32801 / 32 : Nat) * 128) < 2 ^ 56) ∧
    (false = true → (if false = true then 32801 % 16 else 32801 % 32) = 0) ∧
    (Nat.testBit 21474836485 (if false = true then 32801 % 16 else 32801 % 32) = false ∨ Nat.testBit 21474836485 ((if false =
      true then 16 else 32) + if false = true then 32801 % 16 else 32801 % 32) = false)) ∧
    -- TransferTargetChecks (sT gr0) 1 false false 0x40000000000
    (((sT gr0).fetchLine 1 (if false = true then (4398046511104 / 16 : Nat) * 128 else (4398046511104 / 32 : Nat) * 128)).fst =
      .error { cause := Cause.translation, info := 1 : Meet }) ∧
    (((if false = true then 4398046511104 % 16 else 4398046511104 % 32) < if false = true then 10 else 30) ∧
    ((if false = true then (4398046511104 / 16 : Nat) * 128 else (4398046511104 / 32 : Nat) * 128) < 2 ^ 56) ∧
    (false = true → (if false = true then 4398046511104 % 16 else 4398046511104 % 32) = 0)) ∧
    -- TransferTargetChecks (sT gr0) 1 false true 0x8022
    (((if false = true then 10 else 30) ≤ if false = true then 32802 % 16 else 32802 % 32) ∨ (2 ^ 56 ≤ if false = true then
      (32802 / 16 : Nat) * 128 else (32802 / 32 : Nat) * 128) ∨ true = true ∧ (if false = true then 32802 % 16 else 32802 % 32)
      ≠ 0) :=
  ⟨(ok_of (by decide +kernel)), by decide +kernel, (ok_of (by decide +kernel)), by decide +kernel,
    (err_of (by decide +kernel)), by decide +kernel, by decide +kernel⟩

theorem meets_LaneBlockAndTimelineWords :
    -- LaneBlockAndTimelineWords (sS gFull) g0 gFull .dyn 0 0x10 .mx
    ScalarAt (sS gFull) g0 gFull ∧
    (16 ≤ gFull.laneQ.length ∨ gFull.spilled ≠ []) ∧
    (sS gFull).sumpFits ((sS gFull).ctxOf g0) 144 = false ∧
    gFull.ended < gFull.enq ∧
    BitVec.toNat (gFull.sreg (0 : SReg)) ≤ (sS gFull).timeline g0 gFull TlClass.mx ∧
    -- LaneBlockAndTimelineWords (sSump gFull) g0 gFull .dyn 0 0x10 .kv
    ScalarAt (sSump gFull) g0 gFull ∧
    (sSump gFull).sumpFits ((sSump gFull).ctxOf g0) 144 = true ∧
    BitVec.toNat (gFull.sreg (0 : SReg)) ≤ (sSump gFull).timeline g0 gFull TlClass.kv ∧
    -- LaneBlockAndTimelineWords (sS gSpl) g0 gSpl .dyn 1 0x10 .ce
    ScalarAt (sS gSpl) g0 gSpl ∧
    (¬(16 ≤ gSpl.laneQ.length ∨ gSpl.spilled ≠ [])) ∧
    gSpl.waitS = some Wait.spill ∧
    gSpl.enq ≤ gSpl.ended ∧
    (sS gSpl).timeline g0 gSpl TlClass.ce < BitVec.toNat (gSpl.sreg (1 : SReg)) :=
  by unfold ScalarAt; decide +kernel

theorem meets_FormatWriteChecks :
    -- FormatWriteChecks (sS gr0) g0 gr0 .dyn 6 0x100
    ScalarAt (sS gr0) g0 gr0 ∧
    256 = BitVec.toNat (gr0.sreg (6 : SReg)) % 2 ^ 32 ∧
    (¬(256 / 2 ^ 24 ≠ 0 ∨ 2 ≤ 256 / 2 ^ 8 % 4 ∨ 9 ≤ 256 % 16 ∨ 9 ≤ 256 / 2 ^ 4 % 16 ∨ 3 ≤ 256 / 2 ^ 13 % 8)) ∧
    -- FormatWriteChecks (sS gr0) g0 gr0 .dyn 4 0xFFFFFFFF
    4294967295 = BitVec.toNat (gr0.sreg (4 : SReg)) % 2 ^ 32 ∧
    (4294967295 / 2 ^ 24 ≠ 0 ∨ 2 ≤ 4294967295 / 2 ^ 8 % 4 ∨ 9 ≤ 4294967295 % 16 ∨ 9 ≤ 4294967295 / 2 ^ 4 % 16 ∨ 3 ≤ 4294967295
      / 2 ^ 13 % 8) :=
  by unfold ScalarAt; decide +kernel

theorem meets_SpecialRegisterAccess :
    -- SpecialRegisterAccess (sS gr0) g0 gr0 .dyn 1 0x08
    ScalarAt (sS gr0) g0 gr0 ∧
    (8 : Byte) ≠ (16 : Byte) ∧
    (sS gr0).readSpecial g0 gr0 (BitVec.toNat (8 : Byte)) = some (BitVec.ofNat 64 ((sS gr0).presented g0).core) ∧
    g0.isHandler = false ∧
    (sS gr0).team g0.team = some tm0 ∧
    32 ≤ 32 ∧
    32 ≤ 38 ∧
    BitVec.toNat (gr0.sreg (1 : SReg)) < 32 ∧
    gr0.enq ≤ gr0.ended ∧
    (8 : Byte) ≠ (12 : Byte) ∧
    (8 : Byte) ≠ (13 : Byte) ∧
    (8 : Byte) ≠ (14 : Byte) ∧
    -- SpecialRegisterAccess (sS gr0) g0 gr0 .dyn 6 0x20
    (sS gr0).readSpecial g0 gr0 (BitVec.toNat (32 : Byte)) = none ∧
    32 ≤ BitVec.toNat (gr0.sreg (6 : SReg)) ∧
    (32 : Byte) ≠ (12 : Byte) ∧
    (32 : Byte) ≠ (13 : Byte) ∧
    (32 : Byte) ≠ (14 : Byte) :=
  by unfold ScalarAt; decide +kernel

theorem meets_CopyUnitResults_1 :
    -- (((CopyUnitResults (sC c1) t0 (tmC_2 c1) c1 1 2 (1 / 2) (1 % 2 * 4) (c1.w 1 + 1 / 2 * 16 + 1 % 2 * 4) (c1.w 2 + 1 / 2 …
    (sC c1).checkGlobal ((sC c1).ctxOf (t0.group 0)) ((c1.w 2 + (1 / 2 : Nat) * 32 + 1 % 2 * 4) % 2 ^ 64) 4 4 false true true
      false (some t0.core) ((sC c1).teamIdOf (t0.group 0)) = (Except.ok
      { pa := 262148, r := true, w := true, x := true, host := false, mor := false : Xl }, ck1.snd) ∧
    (CopyStands (sC c1) t0 (tmC_2 c1) c1 ∧
    NoObjectWaits (sC c1) ∧
    2 = c1.w 3 % 2 ^ 32 / 4 ∧
    c1.w 1 + (1 / 2 : Nat) * 16 + 1 % 2 * 4 = c1.w 1 + (1 / 2 : Nat) * (c1.w 4 % 2 ^ 32) + 1 % 2 * 4 ∧
    c1.w 2 + (1 / 2 : Nat) * 32 + 1 % 2 * 4 = c1.w 2 + (1 / 2 : Nat) * (c1.w 4 / 2 ^ 32) + 1 % 2 * 4 ∧
    1 < c1.w 3 / 2 ^ 32 * 2 ∧
    ¬1 ∈ c1.landed ∧
    (c1.w 2 + (1 / 2 : Nat) * 32 + 1 % 2 * 4) % 4 = 0 ∧
    c1.w 0 % 16 = 1 ∧
    ck1.snd.team t0 = some (tmC_2 c1) ∧
    NoObjectWaits ck1.snd ∧
    { pa := 262148, r := true, w := true, x := true, host := false, mor := false : Xl }.host = false) ∧
    (ck1.snd.locked { pa := 262148, r := true, w := true, x := true, host := false, mor := false : Xl }.pa = false ∧
    { pa := 262148, r := true, w := true, x := true, host := false, mor := false : Xl }.mor = false ∧
    PlainHomes ck1.snd) ∧
    -- (CopyUnitResults (sC (cpy 5 0x100 0x200 [])) t0 (tmC_2 (cpy 5 0x100 0x200 [])) (cpy 5 0x100 0x200 []) 4 2 (4 / 2) (4 %…
    (CopyStands (sC (cpy 5 256 512 [])) t0 (tmC_2 (cpy 5 256 512 [])) (cpy 5 256 512 []) ∧
    NoObjectWaits (sC (cpy 5 256 512 [])) ∧
    2 = (cpy 5 256 512 []).w 3 % 2 ^ 32 / 4 ∧
    (cpy 5 256 512 []).w 1 + (4 / 2 : Nat) * 16 + 4 % 2 * 4 = (cpy 5 256 512 []).w 1 + (4 / 2 : Nat) * ((cpy 5 256 512 []).w 4
      % 2 ^ 32) + 4 % 2 * 4 ∧
    (cpy 5 256 512 []).w 2 + (4 / 2 : Nat) * 32 + 4 % 2 * 4 = (cpy 5 256 512 []).w 2 + (4 / 2 : Nat) * ((cpy 5 256 512 []).w 4
      / 2 ^ 32) + 4 % 2 * 4 ∧
    ((cpy 5 256 512 []).w 3 / 2 ^ 32 * 2 ≤ 4 ∨ 4 ∈ (cpy 5 256 512 []).landed)) ∧
    -- (CopyUnitResults (sC (cpy 5 0x100 0x200 [0])) t0 (tmC_2 (cpy 5 0x100 0x200 [0])) (cpy 5 0x100 0x200 [0]) 1 2 (1 / 2) (…
    CopyStands (sC (cpy 5 256 512 [0])) t0 (tmC_2 (cpy 5 256 512 [0])) (cpy 5 256 512 [0]) ∧
    NoObjectWaits (sC (cpy 5 256 512 [0])) ∧
    2 = (cpy 5 256 512 [0]).w 3 % 2 ^ 32 / 4 ∧
    (cpy 5 256 512 [0]).w 1 + (1 / 2 : Nat) * 16 + 1 % 2 * 4 = (cpy 5 256 512 [0]).w 1 + (1 / 2 : Nat) * ((cpy 5 256 512 [0]).w
      4 % 2 ^ 32) + 1 % 2 * 4 ∧
    (cpy 5 256 512 [0]).w 2 + (1 / 2 : Nat) * 32 + 1 % 2 * 4 = (cpy 5 256 512 [0]).w 2 + (1 / 2 : Nat) * ((cpy 5 256 512 [0]).w
      4 / 2 ^ 32) + 1 % 2 * 4 ∧
    1 < (cpy 5 256 512 [0]).w 3 / 2 ^ 32 * 2 ∧
    ¬1 ∈ (cpy 5 256 512 [0]).landed ∧
    ((cpy 5 256 512 [0]).w 2 + (1 / 2 : Nat) * 32 + 1 % 2 * 4) % 4 = 0 ∧
    (cpy 5 256 512 [0]).w 0 % 16 = 5 :=
  ⟨(ok_pair (by decide +kernel) (by decide +kernel)), (by unfold CopyStands NoObjectWaits; decide +kernel),
    (by unfold PlainHomes; decide +kernel), (by unfold CopyStands NoObjectWaits; decide +kernel),
    (by unfold CopyStands NoObjectWaits; decide +kernel)⟩

theorem meets_CopyUnitResults_2 :
    -- ((((CopyUnitResults (sC c4) t0 (tmC_2 c4) c4 1 2 (1 / 2) (1 % 2 * 4) (c4.w 1 + 1 / 2 * 16 + 1 % 2 * 4) (c4.w 2 + 1 / 2…
    (sC c4).checkGlobal ((sC c4).ctxOf (t0.group 0)) ((c4.w 1 + (1 / 2 : Nat) * 16 + 1 % 2 * 4) % 2 ^ 64) 4 4 true false true
      false (some t0.core) ((sC c4).teamIdOf (t0.group 0)) = ((ck4 c4 262148).fst, (ck4 c4 262148).snd) ∧
    (ck4 c4 262148).fst = Except.ok { pa := 262148, r := true, w := true, x := true, host := false, mor := false : Xl } ∧
    (CopyStands (sC c4) t0 (tmC_2 c4) c4 ∧
    NoObjectWaits (sC c4) ∧
    2 = c4.w 3 % 2 ^ 32 / 4 ∧
    c4.w 1 + (1 / 2 : Nat) * 16 + 1 % 2 * 4 = c4.w 1 + (1 / 2 : Nat) * (c4.w 4 % 2 ^ 32) + 1 % 2 * 4 ∧
    c4.w 2 + (1 / 2 : Nat) * 32 + 1 % 2 * 4 = c4.w 2 + (1 / 2 : Nat) * (c4.w 4 / 2 ^ 32) + 1 % 2 * 4 ∧
    1 < c4.w 3 / 2 ^ 32 * 2 ∧
    ¬1 ∈ c4.landed ∧
    (c4.w 2 + (1 / 2 : Nat) * 32 + 1 % 2 * 4) % 4 = 0 ∧
    c4.w 0 % 16 = 4 ∧
    (ck4 c4 262148).snd.team t0 = some (tmC_2 c4) ∧
    NoObjectWaits (ck4 c4 262148).snd) ∧
    PlainHomes (ck4 c4 262148).snd ∧
    -- (((CopyUnitResults (sC (cpy 4 0x8000000000 0x200 [0])) t0 (tmC_2 (cpy 4 0x8000000000 0x200 [0])) (cpy 4 0x8000000000 0…
    (sC (cpy 4 549755813888 512 [0])).checkGlobal ((sC (cpy 4 549755813888 512 [0])).ctxOf (t0.group 0)) (((cpy 4 549755813888
      512 [0]).w 1 + (1 / 2 : Nat) * 16 + 1 % 2 * 4) % 2 ^ 64) 4 4 true false true false (some t0.core) ((sC (cpy 4
      549755813888 512 [0])).teamIdOf (t0.group 0)) = ((ck4 (cpy 4 549755813888 512 [0]) 549755813892).fst, (ck4 (cpy 4
      549755813888 512 [0]) 549755813892).snd) ∧
    (ck4 (cpy 4 549755813888 512 [0]) 549755813892).fst = .error { cause := Cause.translation, info := 0 : Meet } ∧
    CopyStands (sC (cpy 4 549755813888 512 [0])) t0 (tmC_2 (cpy 4 549755813888 512 [0])) (cpy 4 549755813888 512 [0]) ∧
    NoObjectWaits (sC (cpy 4 549755813888 512 [0])) ∧
    2 = (cpy 4 549755813888 512 [0]).w 3 % 2 ^ 32 / 4 ∧
    (cpy 4 549755813888 512 [0]).w 1 + (1 / 2 : Nat) * 16 + 1 % 2 * 4 = (cpy 4 549755813888 512 [0]).w 1 + (1 / 2 : Nat) *
      ((cpy 4 549755813888 512 [0]).w 4 % 2 ^ 32) + 1 % 2 * 4 ∧
    (cpy 4 549755813888 512 [0]).w 2 + (1 / 2 : Nat) * 32 + 1 % 2 * 4 = (cpy 4 549755813888 512 [0]).w 2 + (1 / 2 : Nat) *
      ((cpy 4 549755813888 512 [0]).w 4 / 2 ^ 32) + 1 % 2 * 4 ∧
    1 < (cpy 4 549755813888 512 [0]).w 3 / 2 ^ 32 * 2 ∧
    ¬1 ∈ (cpy 4 549755813888 512 [0]).landed ∧
    ((cpy 4 549755813888 512 [0]).w 2 + (1 / 2 : Nat) * 32 + 1 % 2 * 4) % 4 = 0 ∧
    (cpy 4 549755813888 512 [0]).w 0 % 16 = 4 ∧
    (ck4 (cpy 4 549755813888 512 [0]) 549755813892).snd.team t0 = some (tmC_2 (cpy 4 549755813888 512 [0])) ∧
    NoObjectWaits (ck4 (cpy 4 549755813888 512 [0]) 549755813892).snd :=
  ⟨(pair_of (by decide +kernel) (by decide +kernel) (by decide +kernel)), (except_of (by decide +kernel) (by decide +kernel)),
    (by unfold CopyStands NoObjectWaits; decide +kernel), (by unfold PlainHomes; decide +kernel),
    (pair_of (by decide +kernel) (by decide +kernel) (by decide +kernel)), (err_of (by decide +kernel)),
    (by unfold CopyStands NoObjectWaits; decide +kernel)⟩

theorem meets_CopyCompletionResults :
    -- (CopyCompletionResults { sC (cpy 5 0x100 0x200 [0,1,2]) with teams := [(t0, (tmC_2 (cpy 5 0x100 0x200 [0,1,2])))] } t0…
    CopyStands { sC (cpy 5 256 512 [0, 1, 2]) with teams := [(t0, tmC_2 (cpy 5 256 512 [0, 1, 2]))] } t0 (tmC_2 (cpy 5 256 512
      [0, 1, 2])) (cpy 5 256 512 [0, 1, 2]) ∧
    (cpy 5 256 512 [0, 1, 2]).w 6 = 0 ∧
    (cpy 5 256 512 [0, 1, 2]).landed.length < (cpy 5 256 512 [0, 1, 2]).w 3 / 2 ^ 32 * ((cpy 5 256 512 [0, 1, 2]).w 3 % 2 ^ 32
      / 4) ∧
    -- (CopyCompletionResults { sC (cpy 5 0x100 0x200 [0,1,2,3]) with teams := [(t0, (tmC_2 (cpy 5 0x100 0x200 [0,1,2,3])))] …
    CopyStands { sC (cpy 5 256 512 [0, 1, 2, 3]) with teams := [(t0, tmC_2 (cpy 5 256 512 [0, 1, 2, 3]))] } t0 (tmC_2 (cpy 5
      256 512 [0, 1, 2, 3])) (cpy 5 256 512 [0, 1, 2, 3]) ∧
    (cpy 5 256 512 [0, 1, 2, 3]).w 6 = 0 ∧
    (cpy 5 256 512 [0, 1, 2, 3]).w 3 / 2 ^ 32 * ((cpy 5 256 512 [0, 1, 2, 3]).w 3 % 2 ^ 32 / 4) ≤ (cpy 5 256 512 [0, 1, 2,
      3]).landed.length ∧
    (tmC_2 (cpy 5 256 512 [0, 1, 2, 3])).finCe = [] :=
  by unfold CopyStands; decide +kernel

theorem meets_KvCommandResults_1 :
    -- ((KvCommandResults.1 (sK (kvc .kvref 0x50000 0x50100 2)) (kr (kvc .kvref 0x50000 0x50100 2)).2 (kr2 (kvc .kvref 0x5000…
    (sK (kvc EngOp.kvref 327680 327936 2)).vread ((sK (kvc EngOp.kvref 327680 327936 2)).ctxOf (t0.group 0)) ((kvc EngOp.kvref
      327680 327936 2).w 1) (4 * kvCount (kvc EngOp.kvref 327680 327936 2).desc) true = (Except.ok ((kr (kvc EngOp.kvref 327680
      327936 2)).fst.toOption.getD 0), (kr (kvc EngOp.kvref 327680 327936 2)).snd) ∧
    checkPieces ((sK (kvc EngOp.kvref 327680 327936 2)).ctxOf (t0.group 0)) true [((kvc EngOp.kvref 327680 327936 2).w 2, 8)]
      (kr (kvc EngOp.kvref 327680 327936 2)).snd = (Except.ok ((kr2 (kvc EngOp.kvref 327680 327936 2)).fst.toOption.getD []),
      (kr2 (kvc EngOp.kvref 327680 327936 2)).snd) ∧
    ((sK (kvc EngOp.kvref 327680 327936 2)).team t0 = some (tmK (kvc EngOp.kvref 327680 327936 2)) ∧
    (tmK (kvc EngOp.kvref 327680 327936 2)).cmds = [kvc EngOp.kvref 327680 327936 2] ∧
    (kvc EngOp.kvref 327680 327936 2).cls = EngCls.kv ∧
    (kvc EngOp.kvref 327680 327936 2).landed = [] ∧
    (kvc EngOp.kvref 327680 327936 2).op ≠ EngOp.kvsend ∧
    (kvc EngOp.kvref 327680 327936 2).op ∈ [EngOp.kvref, EngOp.kvunref, EngOp.kvtierCi, EngOp.kvtierAq] ∧
    (kvc EngOp.kvref 327680 327936 2).w 1 % 4 = 0 ∧
    (kvc EngOp.kvref 327680 327936 2).w 2 % 8 = 0 ∧
    ((((kr2 (kvc EngOp.kvref 327680 327936 2)).snd.instOf t0).bind fun y => (kr2 (kvc EngOp.kvref 327680 327936 2)).snd.poolOf
      y (kvPool (kvc EngOp.kvref 327680 327936 2).desc)) = none)) ∧
    -- ((((KvCommandResults.1 (sK3 cK) (kr3 cK).2 (kr23 cK).2 t0 (tmK cK) cK ((kr3 cK).1.toOption.getD 0))).2 ((kr23 cK).1.to…
    (sK3 cK).vread ((sK3 cK).ctxOf (t0.group 0)) (cK.w 1) (4 * kvCount cK.desc) true = (Except.ok ((kr3 cK).fst.toOption.getD
      0), (kr3 cK).snd) ∧
    checkPieces ((sK3 cK).ctxOf (t0.group 0)) true [(cK.w 2, 8)] (kr3 cK).snd = (Except.ok ((kr23 cK).fst.toOption.getD []),
      (kr23 cK).snd) ∧
    ((sK3 cK).team t0 = some (tmK cK) ∧
    (tmK cK).cmds = [cK] ∧
    cK.cls = EngCls.kv ∧
    cK.landed = [] ∧
    cK.op ≠ EngOp.kvsend ∧
    cK.op ∈ [EngOp.kvref, EngOp.kvunref, EngOp.kvtierCi, EngOp.kvtierAq] ∧
    cK.w 1 % 4 = 0 ∧
    cK.w 2 % 8 = 0 ∧
    ((((kr23 cK).snd.instOf t0).bind fun y => (kr23 cK).snd.poolOf y (kvPool cK.desc)) = some (plK, pK)) ∧
    (kr23 cK).snd.poolMoves t0 cK pK = false ∧
    (kr23 cK).snd.kvAct ((kr23 cK).snd.kvWriter t0 cK) pK cK.op (kvCount cK.desc) (unpackIds ((kr3 cK).fst.toOption.getD 0)
      (kvCount cK.desc)) false = ((a3 cK).fst, (a3 cK).snd.fst, (a3 cK).snd.snd) ∧
    (a3 cK).fst = some kvOk) ∧
    -- ((KvCommandResults.1 sKm (sKm.vread 1 0x50000 8 true).2 (checkPieces 1 true [(0x50100, 8)] (sKm.vread 1 0x50000 8 true…
    sKm.vread (sKm.ctxOf (t0.group 0)) (cK.w 1) (4 * kvCount cK.desc) true = (Except.ok ((sKm.vread 1 327680 8
      true).fst.toOption.getD 0), (sKm.vread 1 327680 8 true).snd) ∧
    checkPieces (sKm.ctxOf (t0.group 0)) true [(cK.w 2, 8)] (sKm.vread 1 327680 8 true).snd = (Except.ok ((checkPieces 1 true
      [(327936, 8)] (sKm.vread 1 327680 8 true).snd).fst.toOption.getD []), (checkPieces 1 true [(327936, 8)] (sKm.vread 1
      327680 8 true).snd).snd) ∧
    (sKm.team t0 = some (tmK cK) ∧
    ((((checkPieces 1 true [(327936, 8)] (sKm.vread 1 327680 8 true).snd).snd.instOf t0).bind fun y => (checkPieces 1 true
      [(327936, 8)] (sKm.vread 1 327680 8 true).snd).snd.poolOf y (kvPool cK.desc)) = some (plK, pK)) ∧
    (checkPieces 1 true [(327936, 8)] (sKm.vread 1 327680 8 true).snd).snd.poolMoves t0 cK pK = true) ∧
    -- ((KvCommandResults.1 (sK (kvc .kvref 0x50001 0x50100 2)) (kr (kvc .kvref 0x50001 0x50100 2)).2 (kr2 (kvc .kvref 0x5000…
    (sK (kvc EngOp.kvref 327681 327936 2)).team t0 = some (tmK (kvc EngOp.kvref 327681 327936 2)) ∧
    (tmK (kvc EngOp.kvref 327681 327936 2)).cmds = [kvc EngOp.kvref 327681 327936 2] ∧
    (kvc EngOp.kvref 327681 327936 2).cls = EngCls.kv ∧
    (kvc EngOp.kvref 327681 327936 2).landed = [] ∧
    (kvc EngOp.kvref 327681 327936 2).op ≠ EngOp.kvsend ∧
    ((kvc EngOp.kvref 327681 327936 2).w 1 % 4 ≠ 0 ∨ (kvc EngOp.kvref 327681 327936 2).w 2 % 8 ≠ 0) ∧
    -- KvCommandResults.2.1 base t0 tm0
    base.team t0 = some tm0 ∧
    tm0.cmds = [] ∧
    -- (KvCommandResults.2.2 (sK3 cK) ((sK3 cK).engWriter t0 cK) pK 1 [9])
    (sK3 cK).canGrant pK 1 = true ∧
    -- (KvCommandResults.2.2 (sK3 cK) ((sK3 cK).engWriter t0 cK) pK 15 [9])
    (sK3 cK).canGrant pK 15 = false :=
  ⟨(ok_pair (by decide +kernel) (by decide +kernel)), (ok_pair (by decide +kernel) (by decide +kernel)), by decide +kernel,
    (ok_pair (by decide +kernel) (by decide +kernel)), (ok_pair (by decide +kernel) (by decide +kernel)), by decide +kernel,
    (ok_pair (by decide +kernel) (by decide +kernel)), (ok_pair (by decide +kernel) (by decide +kernel)), by decide +kernel,
    by decide +kernel⟩

theorem meets_KvCommandResults_2 :
    -- ((((KvCommandResults.1 (sK3 cT) (kr3 cT).2 (kr23 cT).2 t0 (tmK cT) cT ((kr3 cT).1.toOption.getD 0))).2 ((kr23 cT).1.to…
    (sK3 cT).vread ((sK3 cT).ctxOf (t0.group 0)) (cT.w 1) (4 * kvCount cT.desc) true = (Except.ok ((kr3 cT).fst.toOption.getD
      0), (kr3 cT).snd) ∧
    checkPieces ((sK3 cT).ctxOf (t0.group 0)) true [(cT.w 2, 8)] (kr3 cT).snd = (Except.ok ((kr23 cT).fst.toOption.getD []),
      (kr23 cT).snd) ∧
    ((sK3 cT).team t0 = some (tmK cT) ∧
    (tmK cT).cmds = [cT] ∧
    cT.cls = EngCls.kv ∧
    cT.landed = [] ∧
    cT.op ≠ EngOp.kvsend ∧
    cT.op ∈ [EngOp.kvref, EngOp.kvunref, EngOp.kvtierCi, EngOp.kvtierAq] ∧
    cT.w 1 % 4 = 0 ∧
    cT.w 2 % 8 = 0 ∧
    ((((kr23 cT).snd.instOf t0).bind fun y => (kr23 cT).snd.poolOf y (kvPool cT.desc)) = some (plK, pK)) ∧
    (kr23 cT).snd.poolMoves t0 cT pK = false ∧
    (kr23 cT).snd.kvAct ((kr23 cT).snd.kvWriter t0 cT) pK cT.op (kvCount cT.desc) (unpackIds ((kr3 cT).fst.toOption.getD 0)
      (kvCount cT.desc)) false = ((a3 cT).fst, (a3 cT).snd.fst, (a3 cT).snd.snd) ∧
    (a3 cT).fst = none) ∧
    -- ((KvCommandResults.2.2 (sK3 cK) ((sK3 cK).engWriter t0 cK) pK 1 [9]) false).2.2 .kvref (pagesOf pK [9] (sK3 cK)).2
    EngOp.kvref ≠ EngOp.kvalloc ∧
    pagesOf pK [9] (sK3 cK) = (none, (pagesOf pK [9] (sK3 cK)).snd) :=
  ⟨(ok_pair (by decide +kernel) (by decide +kernel)), (ok_pair (by decide +kernel) (by decide +kernel)), by decide +kernel,
    by decide +kernel⟩

theorem meets_KvSendCompletion :
    -- (KvSendCompletion (sS1 cS 0) ((sS1 cS 0).pick 3).2 t0 (tmK cS) cS iK ((sS1 cS 0).pick 3).1)
    ((sS1 cS 0).team t0 = some (tmK cS) ∧
    (tmK cS).cmds = [cS] ∧
    cS.op = EngOp.kvsend ∧
    cS.landed ≠ [] ∧
    (sS1 cS 0).instOf t0 = some iK ∧
    (sS1 cS 0).pick 3 = (((sS1 cS 0).pick 3).fst, ((sS1 cS 0).pick 3).snd) ∧
    ((sS1 cS 0).pick 3).fst = 0 ∧
    ((cS.landed.getD 1 0).testBit 16 = false ∨ ((sS1 cS 0).pick 3).snd.sentRec iK.num t0 cS = none) ∧
    -- (KvSendCompletion (sS1 cS 1) ((sS1 cS 1).pick 3).2 t0 (tmK cS) cS iK ((sS1 cS 1).pick 3).1)
    (sS1 cS 1).team t0 = some (tmK cS) ∧
    (sS1 cS 1).instOf t0 = some iK ∧
    (sS1 cS 1).pick 3 = (((sS1 cS 1).pick 3).fst, ((sS1 cS 1).pick 3).snd) ∧
    ((sS1 cS 1).pick 3).fst = 1 ∧
    -- (KvSendCompletion (sS1 cS 2) ((sS1 cS 2).pick 3).2 t0 (tmK cS) cS iK ((sS1 cS 2).pick 3).1)
    (sS1 cS 2).team t0 = some (tmK cS) ∧
    (sS1 cS 2).instOf t0 = some iK ∧
    (sS1 cS 2).pick 3 = (((sS1 cS 2).pick 3).fst, ((sS1 cS 2).pick 3).snd) ∧
    ((sS1 cS 2).pick 3).fst = 2 ∧
    -- (KvSendCompletion sKs (sKs.pick 3).2 t0 (tmK cSm) cSm iK 0).2.2.2 rKs
    sKs.team t0 = some (tmK cSm) ∧
    (tmK cSm).cmds = [cSm] ∧
    cSm.op = EngOp.kvsend ∧
    cSm.landed ≠ [] ∧
    sKs.instOf t0 = some iK ∧
    sKs.pick 3 = (0, (sKs.pick 3).snd) ∧
    (cSm.landed.getD 1 0).testBit 16 = true) ∧
    (sKs.pick 3).snd.sentRec iK.num t0 cSm = some rKs ∧
    ((iK.batch.any fun e => e.idx == rKs.idx) = true) :=
  ⟨by decide +kernel, by decide +kernel⟩

theorem meets_KvSendReception :
    -- ((KvSendReception (sRc 1) {sRc 1 with choices := [1,2]} 7 21 (words 1) [4,2,64] [1,2])).2 iK pK 0 (rK 1)
    (sRc 1).choices = 7 :: 21 :: words 1 ++ [4, 2, 64] ++ [1, 2] ∧
    (words 1).length = 32 ∧
    [4, 2, 64].length = 3 ∧
    (sRc 1).inst (21 % 16) = some iK ∧
    iK.status = InstStatus.running ∧
    (rK 1 =
      { idx := 0, inst := 21 % 16, words := List.map (fun x => (x.snd, BitVec.ofNat 64 x.fst)) (List.filter (fun x => x.fst != 0) (List.map (fun x => x % 2 ^ 64) (words 1)).zipIdx) : Rec }) ∧
    { sRc 1 with choices := [1, 2] }.poolFor iK (rK 1) = some pK ∧
    { sRc 1 with choices := [1, 2] }.freeRecIdx = some 0 ∧
    [4, 2, 64] = [pK.lgT, pK.layers, pK.rowb] ∧
    (rK 1).nPages = 0 ∧
    ((rK 1).state = 1 ∨ (rK 1).state = 2) ∧
    { sRc 1 with choices := [1, 2] }.instMoves iK = false ∧
    ({ sRc 1 with choices := [1, 2] }.recsOf iK.num).length < iK.recQuota ∧
    { sRc 1 with choices := [1, 2] }.members iK < { sRc 1 with choices := [1, 2] }.share iK ∧
    -- (KvSendReception {sRc 1 with insts := []} {sRc 1 with insts := [], choices := [1,2]} 7 21 (words 1) [4,2,64] [1,2]).1
    { sRc 1 with insts := [] }.choices = 7 :: 21 :: words 1 ++ [4, 2, 64] ++ [1, 2] ∧
    { sRc 1 with choices := [1, 2], insts := [] } = { { sRc 1 with insts := [] } with choices := [1, 2] } ∧
    { sRc 1 with insts := [] }.inst (21 % 16) = none ∧
    -- (KvSendReception sRcX { sRcX with choices := [1, 2] } 7 21 (words 1) [4, 2, 63] [1, 2]).2 iK pK 0 (rK 1)
    sRcX.choices = 7 :: 21 :: words 1 ++ [4, 2, 63] ++ [1, 2] ∧
    [4, 2, 63].length = 3 ∧
    sRcX.inst (21 % 16) = some iK ∧
    { sRcX with choices := [1, 2] }.poolFor iK (rK 1) = some pK ∧
    { sRcX with choices := [1, 2] }.freeRecIdx = some 0 ∧
    [4, 2, 63] ≠ [pK.lgT, pK.layers, pK.rowb] :=
  by decide +kernel

theorem meets_ServingStepResults_1 :
    -- ((ServingStepResults.2 (sVw iB) iB)).1 eh
    iB.read (iB.desc + 16) 4 (sVw iB) = (Except.ok iB.ahead, sVw iB) ∧
    iB.read (iB.desc + 44) 4 (sVw iB) = (Except.ok eh, sVw iB) ∧
    ((sVw iB).insts = [iB] ∧
    iB.status = InstStatus.running ∧
    (∀ (y : Ctx), (sVw iB).ctx iB.ctx = some y → y.phase = Phase.running) ∧
    iB.stops = [] ∧
    (sVw iB).instMoves iB = false ∧
    iB.phase = StepPhase.start 1 ∧
    iB.idle = none ∧
    iB.freed = [] ∧
    (sVw iB).recs = [] ∧
    (sVw iB).pools = [] ∧
    iB.batch = [] ∧
    2 * iB.maxSeq + 16 ≤ (eh + iB.ecap + 2 ^ 32 - iB.etail) % 2 ^ 32) ∧
    -- ((ServingStepResults.2 (sV (iG 0 [])) (iG 0 []))).2.2.1 0 1 grid0
    (sV (iG 0 [])).insts = [iG 0 []] ∧
    (iG 0 []).status = InstStatus.running ∧
    (∀ (y : Ctx), (sV (iG 0 [])).ctx (iG 0 []).ctx = some y → y.phase = Phase.running) ∧
    (iG 0 []).stops = [] ∧
    (sV (iG 0 [])).instMoves (iG 0 []) = false ∧
    (iG 0 []).phase = StepPhase.grids 0 1 ∧
    (sV (iG 0 [])).grid 1 = some grid0 ∧
    (grid0.complete = false ∨ grid0.status ≠ GridStatus.done) ∧
    -- ((ServingStepResults.2 (sGd 0 []) (iG 0 []))).2.2.2.1 0 1 gD
    (sGd 0 []).insts = [iG 0 []] ∧
    (∀ (y : Ctx), (sGd 0 []).ctx (iG 0 []).ctx = some y → y.phase = Phase.running) ∧
    (sGd 0 []).instMoves (iG 0 []) = false ∧
    (sGd 0 []).grid 1 = some gD ∧
    gD.complete = true ∧
    gD.status = GridStatus.done ∧
    0 + 1 < (iG 0 []).plan.length :=
  ⟨(ok_pair (by decide +kernel) (by decide +kernel)), (ok_pair (by decide +kernel) (by decide +kernel)), by decide +kernel,
    by decide +kernel⟩

theorem meets_ServingStepResults_2 :
    -- ((ServingStepResults.2 (sVw ({ iB with phase := .start 3 } : Inst)) ({ iB with phase := .start 3 } : Inst))).2.1 3 (((…
    { iB with phase := StepPhase.start 3 }.room (sVw { iB with phase := StepPhase.start 3 }) = (Except.ok
      (({ iB with phase := StepPhase.start 3 }.room (sVw { iB with phase := StepPhase.start 3 })).fst.toOption.getD 0),
      ({ iB with phase := StepPhase.start 3 }.room (sVw { iB with phase := StepPhase.start 3 })).snd) ∧
    ((sVw { iB with phase := StepPhase.start 3 }).insts = [{ iB with phase := StepPhase.start 3 }] ∧
    { iB with phase := StepPhase.start 3 }.status = InstStatus.running ∧
    (∀ (y : Ctx), (sVw { iB with phase := StepPhase.start 3 }).ctx { iB with phase := StepPhase.start 3 }.ctx = some y →
      y.phase = Phase.running) ∧
    { iB with phase := StepPhase.start 3 }.stops = [] ∧
    (sVw { iB with phase := StepPhase.start 3 }).instMoves { iB with phase := StepPhase.start 3 } = false ∧
    { iB with phase := StepPhase.start 3 }.phase = StepPhase.start 3 ∧
    3 ≠ 1 ∧
    2 * { iB with phase := StepPhase.start 3 }.maxSeq ≤ ({ iB with phase := StepPhase.start 3 }.room (sVw
      { iB with phase := StepPhase.start 3 })).fst.toOption.getD 0) ∧
    -- ((ServingStepResults.2 (sVw ({ iB with phase := .start 4 } : Inst)) ({ iB with phase := .start 4 } : Inst))).2.1 4 (((…
    { iB with phase := StepPhase.start 4 }.room (sVw { iB with phase := StepPhase.start 4 }) = (Except.ok
      (({ iB with phase := StepPhase.start 4 }.room (sVw { iB with phase := StepPhase.start 4 })).fst.toOption.getD 0),
      ({ iB with phase := StepPhase.start 4 }.room (sVw { iB with phase := StepPhase.start 4 })).snd) ∧
    ((sVw { iB with phase := StepPhase.start 4 }).insts = [{ iB with phase := StepPhase.start 4 }] ∧
    { iB with phase := StepPhase.start 4 }.status = InstStatus.running ∧
    (∀ (y : Ctx), (sVw { iB with phase := StepPhase.start 4 }).ctx { iB with phase := StepPhase.start 4 }.ctx = some y →
      y.phase = Phase.running) ∧
    { iB with phase := StepPhase.start 4 }.stops = [] ∧
    (sVw { iB with phase := StepPhase.start 4 }).instMoves { iB with phase := StepPhase.start 4 } = false ∧
    { iB with phase := StepPhase.start 4 }.phase = StepPhase.start 4 ∧
    4 ≠ 1 ∧
    2 * { iB with phase := StepPhase.start 4 }.maxSeq ≤ ({ iB with phase := StepPhase.start 4 }.room (sVw
      { iB with phase := StepPhase.start 4 })).fst.toOption.getD 0) ∧
    -- ((ServingStepResults.2 {sGd 1 [e1] with recs := [rc]} (iG 1 [e1]))).2.2.2.2 1 1 gD e1 rc
    { sGd 1 [e1] with recs := [rc] }.insts = [iG 1 [e1]] ∧
    (iG 1 [e1]).status = InstStatus.running ∧
    (∀ (y : Ctx), { sGd 1 [e1] with recs := [rc] }.ctx (iG 1 [e1]).ctx = some y → y.phase = Phase.running) ∧
    (iG 1 [e1]).stops = [] ∧
    { sGd 1 [e1] with recs := [rc] }.instMoves (iG 1 [e1]) = false ∧
    (iG 1 [e1]).phase = StepPhase.grids 1 1 ∧
    { sGd 1 [e1] with recs := [rc] }.grid 1 = some gD ∧
    1 + 1 = (iG 1 [e1]).plan.length ∧
    (iG 1 [e1]).batch = [e1] ∧
    e1.counted = false ∧
    e1.ended = false ∧
    (e1.sample = true → e1.emitted = true) ∧
    { sGd 1 [e1] with recs := [rc] }.recOf (iG 1 [e1]).num e1.idx = some rc ∧
    rc.get 1 8 1 = 0 ∧
    rc.gen ≠ rc.maxNew ∧
    rc.state = 2 ∧
    -- ServingStepResults.1 base
    base.insts = [] :=
  ⟨(ok_pair (by decide +kernel) (by decide +kernel)), by decide +kernel, (ok_pair (by decide +kernel) (by decide +kernel)),
    by decide +kernel, by decide +kernel⟩

theorem meets_ServingStepResults_3 :
    -- ((ServingStepResults.2 (sVw ({ iB with phase := .start 5 } : Inst)) ({ iB with phase := .start 5 } : Inst))).2.1 5 (((…
    { iB with phase := StepPhase.start 5 }.room (sVw { iB with phase := StepPhase.start 5 }) = (Except.ok
      (({ iB with phase := StepPhase.start 5 }.room (sVw { iB with phase := StepPhase.start 5 })).fst.toOption.getD 0),
      ({ iB with phase := StepPhase.start 5 }.room (sVw { iB with phase := StepPhase.start 5 })).snd) ∧
    ((sVw { iB with phase := StepPhase.start 5 }).insts = [{ iB with phase := StepPhase.start 5 }] ∧
    { iB with phase := StepPhase.start 5 }.status = InstStatus.running ∧
    (∀ (y : Ctx), (sVw { iB with phase := StepPhase.start 5 }).ctx { iB with phase := StepPhase.start 5 }.ctx = some y →
      y.phase = Phase.running) ∧
    { iB with phase := StepPhase.start 5 }.stops = [] ∧
    (sVw { iB with phase := StepPhase.start 5 }).instMoves { iB with phase := StepPhase.start 5 } = false ∧
    { iB with phase := StepPhase.start 5 }.phase = StepPhase.start 5 ∧
    5 ≠ 1 ∧
    2 * { iB with phase := StepPhase.start 5 }.maxSeq ≤ ({ iB with phase := StepPhase.start 5 }.room (sVw
      { iB with phase := StepPhase.start 5 })).fst.toOption.getD 0 ∧
    ({ iB with phase := StepPhase.start 5 }.room (sVw { iB with phase := StepPhase.start 5 })).snd.insts = (sVw
      { iB with phase := StepPhase.start 5 }).insts) ∧
    -- ((ServingStepResults.2 (sVw ({ iB with phase := .start 4, etail := 60 } : Inst)) ({ iB with phase := .start 4, etail :…
    { iB with etail := 60, phase := StepPhase.start 4 }.room (sVw { iB with etail := 60, phase := StepPhase.start 4 }) =
      (Except.ok (({ iB with etail := 60, phase := StepPhase.start 4 }.room (sVw
      { iB with etail := 60, phase := StepPhase.start 4 })).fst.toOption.getD 0),
      ({ iB with etail := 60, phase := StepPhase.start 4 }.room (sVw { iB with etail := 60, phase := StepPhase.start 4 })).snd) ∧
    (sVw { iB with etail := 60, phase := StepPhase.start 4 }).insts = [{ iB with etail := 60, phase := StepPhase.start 4 }] ∧
    { iB with etail := 60, phase := StepPhase.start 4 }.status = InstStatus.running ∧
    (∀ (y : Ctx), (sVw { iB with etail := 60, phase := StepPhase.start 4 }).ctx
      { iB with etail := 60, phase := StepPhase.start 4 }.ctx = some y → y.phase = Phase.running) ∧
    { iB with etail := 60, phase := StepPhase.start 4 }.stops = [] ∧
    (sVw { iB with etail := 60, phase := StepPhase.start 4 }).instMoves { iB with etail := 60, phase := StepPhase.start 4 } =
      false ∧
    { iB with etail := 60, phase := StepPhase.start 4 }.phase = StepPhase.start 4 ∧
    ({ iB with etail := 60, phase := StepPhase.start 4 }.room (sVw
      { iB with etail := 60, phase := StepPhase.start 4 })).fst.toOption.getD 0 < 2 *
      { iB with etail := 60, phase := StepPhase.start 4 }.maxSeq :=
  ⟨(ok_pair (by decide +kernel) (by decide +kernel)), by decide +kernel, (ok_pair (by decide +kernel) (by decide +kernel)),
    by decide +kernel⟩

theorem meets_CollectiveResults_1 :
    -- (CollectiveResults.2.2.1 (sO (coll [] 3) [0] 2) (vr 2).2 t0 (coll [] 3) ((vr 2).1.toOption.getD 0)) 2 [3,2]
    (sO (coll [] 3) [0] 2).vread ((sO (coll [] 3) [0] 2).ctxOf (t0.group 0)) ((coll [] 3).w 3) (4 * collRanks (coll [] 3).desc)
      false = (Except.ok ((vr 2).fst.toOption.getD 0), (vr 2).snd) ∧
    (([3, 2] = List.map (fun i => (vr 2).fst.toOption.getD 0 / 256 ^ (4 * i) % 2 ^ 32) (List.range (collRanks (coll []
      3).desc))) ∧
    firstDescent [3, 2] = some 2) ∧
    -- (CollectiveResults.2.2.1 {(sO (coll [] 3) [0] 7) with ctl := {base.ctl with joined := false}} ({(sO (coll [] 3) [0] 7)…
    { sO (coll [] 3) [0] 7 with ctl := { base.ctl with joined := false } }.vread
      ({ sO (coll [] 3) [0] 7 with ctl := { base.ctl with joined := false } }.ctxOf (t0.group 0)) ((coll [] 3).w 3) (4 *
      collRanks (coll [] 3).desc) false = (Except.ok ((vr 7).fst.toOption.getD 0),
      ({ sO (coll [] 3) [0] 7 with ctl := { base.ctl with joined := false } }.vread 1 331776 8 false).snd) ∧
    (([3, 7] = List.map (fun i => (vr 7).fst.toOption.getD 0 / 256 ^ (4 * i) % 2 ^ 32) (List.range (collRanks (coll []
      3).desc))) ∧
    firstDescent [3, 7] = none ∧
    (¬({ sO (coll [] 3) [0] 7 with ctl := { base.ctl with joined := false } }.vread 1 331776 8 false).snd.ctl.rank ∈ [3, 7] ∨
      ({ sO (coll [] 3) [0] 7 with ctl := { base.ctl with joined := false } }.vread 1 331776 8 false).snd.ctl.joined = false)) ∧
    -- CollectiveResults.1 (sO (coll [] 3) [0] 7) ((sO (coll [] 3) [0] 7).pick 2).2 t0 (coll [] 3)
    ((sO (coll [] 3) [0] 7).newColls = [(t0, coll [] 3)] ∧
    (sO (coll [] 3) [0] 7).pick 2 = (0, ((sO (coll [] 3) [0] 7).pick 2).snd) ∧
    -- CollectiveResults.2.2.2.1 (scd (cd 3 [] [3,7]) [0]) (cd 3 [] [3,7])
    (scd (cd 3 [] [3, 7]) [0]).colls = [cd 3 [] [3, 7]] ∧
    ((cd 3 [] [3, 7]).rank = (scd (cd 3 [] [3, 7]) [0]).ctl.rank ∨ (cd 3 [] [3, 7]).elems ≠ [] ∨ (cd 3 [] [3, 7]).fault ≠ none) ∧
    -- ((CollectiveResults.2.2.2.2.1 {scd (cd 3 [9,7,5] [3,7]) [] with [] := []} t0 (tmO (coll [0] 3)) (coll [0] 3) (cd 3 [9,…
    { scd (cd 3 [9, 7, 5] [3, 7]) [] with lost := [] }.team t0 = some (tmO (coll [0] 3)) ∧
    (tmO (coll [0] 3)).cmds = [coll [0] 3] ∧
    (coll [0] 3).cls = EngCls.co ∧
    (coll [0] 3).landed = [0] ∧
    { scd (cd 3 [9, 7, 5] [3, 7]) [] with lost := [] }.colls = [cd 3 [9, 7, 5] [3, 7]] ∧
    (cd 3 [9, 7, 5] [3, 7]).collid = (coll [0] 3).w 5 ∧
    (cd 3 [9, 7, 5] [3, 7]).ctx = { scd (cd 3 [9, 7, 5] [3, 7]) [] with lost := [] }.ctxOf (t0.group 0) ∧
    (cd 3 [9, 7, 5] [3, 7]).rank = { scd (cd 3 [9, 7, 5] [3, 7]) [] with lost := [] }.ctl.rank ∧
    (cd 3 [9, 7, 5] [3, 7]).ranks = [{ scd (cd 3 [9, 7, 5] [3, 7]) [] with lost := [] }.ctl.rank, 7] ∧
    7 ≠ { scd (cd 3 [9, 7, 5] [3, 7]) [] with lost := [] }.ctl.rank ∧
    { scd (cd 3 [9, 7, 5] [3, 7]) [] with lost := [] }.lost.contains
      { scd (cd 3 [9, 7, 5] [3, 7]) [] with lost := [] }.ctl.rank = false ∧
    (cd 3 [9, 7, 5] [3, 7]).hdr = [(coll [0] 3).w 0] ∧
    (cd 3 [9, 7, 5] [3, 7]).fault = none ∧
    { scd (cd 3 [9, 7, 5] [3, 7]) [] with lost := [] }.lost.contains 7 = false ∧
    -- ((CollectiveResults.2.2.2.2.1 {scd (cd 3 [9,7,5] [3,7]) [] with [7] := [7]} t0 (tmO (coll [0] 3)) (coll [0] 3) (cd 3 […
    { scd (cd 3 [9, 7, 5] [3, 7]) [] with lost := [7] }.team t0 = some (tmO (coll [0] 3)) ∧
    { scd (cd 3 [9, 7, 5] [3, 7]) [] with lost := [7] }.colls = [cd 3 [9, 7, 5] [3, 7]] ∧
    (cd 3 [9, 7, 5] [3, 7]).ctx = { scd (cd 3 [9, 7, 5] [3, 7]) [] with lost := [7] }.ctxOf (t0.group 0) ∧
    (cd 3 [9, 7, 5] [3, 7]).rank = { scd (cd 3 [9, 7, 5] [3, 7]) [] with lost := [7] }.ctl.rank) ∧
    (cd 3 [9, 7, 5] [3, 7]).ranks = [{ scd (cd 3 [9, 7, 5] [3, 7]) [] with lost := [7] }.ctl.rank, 7] ∧
    7 ≠ { scd (cd 3 [9, 7, 5] [3, 7]) [] with lost := [7] }.ctl.rank ∧
    { scd (cd 3 [9, 7, 5] [3, 7]) [] with lost := [7] }.lost.contains
      { scd (cd 3 [9, 7, 5] [3, 7]) [] with lost := [7] }.ctl.rank = false ∧
    { scd (cd 3 [9, 7, 5] [3, 7]) [] with lost := [7] }.lost.contains 7 = true :=
  ⟨(ok_pair (by decide +kernel) (by decide +kernel)), by decide +kernel, (ok_pair (by decide +kernel) (by decide +kernel)),
    by decide +kernel, by decide +kernel, by decide +kernel⟩

theorem meets_CollectiveResults_2 :
    -- CollectiveResults.2.1 sNoC (draws 5 sNoC).2 (nC2 sNoC).2 (nC3 sNoC).2 (draws 5 sNoC).1 (nC2 sNoC).1 (nC3 sNoC).1
    draws 5 sNoC = ((draws 5 sNoC).fst, (draws 5 sNoC).snd) ∧
    draws ((draws 5 sNoC).fst.getD 4 0 % 577) (draws 5 sNoC).snd = ((nC2 sNoC).fst, (nC2 sNoC).snd) ∧
    (nC2 sNoC).snd.collPacket 6 ((draws 5 sNoC).fst.getD 0 0 % 576) = ((nC3 sNoC).fst, (nC3 sNoC).snd) ∧
    (sNoC.newColls = [] ∧
    (nC3 sNoC).fst = true) ∧
    -- (CollectiveResults.2.2.1 { (sO (coll [] 3) [0] 7) with lost := [7] } ({ (sO (coll [] 3) [0] 7) with lost := [7] }.vrea…
    { sO (coll [] 3) [0] 7 with lost := [7] }.vread ({ sO (coll [] 3) [0] 7 with lost := [7] }.ctxOf (t0.group 0)) ((coll []
      3).w 3) (4 * collRanks (coll [] 3).desc) false = (Except.ok ((vr 7).fst.toOption.getD 0),
      ({ sO (coll [] 3) [0] 7 with lost := [7] }.vread 1 331776 8 false).snd) ∧
    (({ sO (coll [] 3) [0] 7 with lost := [7] }.vread 1 331776 8 false).snd.ctl.rank ∈ [3, 7] ∧
    ({ sO (coll [] 3) [0] 7 with lost := [7] }.vread 1 331776 8 false).snd.ctl.joined = true ∧
    (List.find? (fun r => ({ sO (coll [] 3) [0] 7 with lost := [7] }.vread 1 331776 8 false).snd.lost.contains r) [3, 7] = some
      7)) ∧
    -- ((CollectiveResults.2.2.2.2.1 {scd (cd 3 [9,7,5] [3]) [] with [] := []} t0 (tmO (coll [0] 3)) (coll [0] 3) (cd 3 [9,7,…
    ({ scd (cd 3 [9, 7, 5] [3]) [] with lost := [] }.team t0 = some (tmO (coll [0] 3)) ∧
    { scd (cd 3 [9, 7, 5] [3]) [] with lost := [] }.colls = [cd 3 [9, 7, 5] [3]] ∧
    (cd 3 [9, 7, 5] [3]).collid = (coll [0] 3).w 5 ∧
    (cd 3 [9, 7, 5] [3]).ctx = { scd (cd 3 [9, 7, 5] [3]) [] with lost := [] }.ctxOf (t0.group 0) ∧
    (cd 3 [9, 7, 5] [3]).rank = { scd (cd 3 [9, 7, 5] [3]) [] with lost := [] }.ctl.rank ∧
    (cd 3 [9, 7, 5] [3]).ranks = [{ scd (cd 3 [9, 7, 5] [3]) [] with lost := [] }.ctl.rank] ∧
    { scd (cd 3 [9, 7, 5] [3]) [] with lost := [] }.lost.contains { scd (cd 3 [9, 7, 5] [3]) [] with lost := [] }.ctl.rank =
      false ∧
    (cd 3 [9, 7, 5] [3]).hdr = [(coll [0] 3).w 0] ∧
    (cd 3 [9, 7, 5] [3]).fault = none ∧
    (cd 3 [9, 7, 5] [3]).elems.length = collCount (coll [0] 3).desc ∧
    collOp (coll [0] 3).desc = 0 ∧
    collWidth (coll [0] 3).desc = 4 ∧
    collWrite t0 (coll [0] 3) (cd 3 [9, 7, 5] [3]).ranks (cd 3 [9, 7, 5] [3]).elems 0
      { scd (cd 3 [9, 7, 5] [3]) [] with lost := [] } = (true, (collWrite t0 (coll [0] 3) [3] [9, 7, 5] 0 (scd (cd 3 [9, 7, 5]
      [3]) [])).snd) ∧
    (collWrite t0 (coll [0] 3) [3] [9, 7, 5] 0 (scd (cd 3 [9, 7, 5] [3]) [])).snd.colls =
      { scd (cd 3 [9, 7, 5] [3]) [] with lost := [] }.colls ∧
    -- CollectiveResults.2.2.2.1 (scd (cd 7 [] [3,7]) [0,5,6,7,8]) (cd 7 [] [3,7])
    (scd (cd 7 [] [3, 7]) [0, 5, 6, 7, 8]).colls = [cd 7 [] [3, 7]] ∧
    (cd 7 [] [3, 7]).rank ≠ (scd (cd 7 [] [3, 7]) [0, 5, 6, 7, 8]).ctl.rank ∧
    (cd 7 [] [3, 7]).elems = [] ∧
    (cd 7 [] [3, 7]).fault = none ∧
    ((scd (cd 7 [] [3, 7]) [0, 5, 6, 7, 8]).collPacket 133 (cd 7 [] [3, 7]).rank).fst = true ∧
    -- CollectiveResults.2.1 sNoL (draws 5 sNoL).2 (nC2 sNoL).2 (nC3 sNoL).2 (draws 5 sNoL).1 (nC2 sNoL).1 (nC3 sNoL).1
    sNoL.newColls = [] ∧
    draws 5 sNoL = ((draws 5 sNoL).fst, (draws 5 sNoL).snd) ∧
    draws ((draws 5 sNoL).fst.getD 4 0 % 577) (draws 5 sNoL).snd = ((nC2 sNoL).fst, (nC2 sNoL).snd) ∧
    (nC2 sNoL).snd.collPacket 6 ((draws 5 sNoL).fst.getD 0 0 % 576) = ((nC3 sNoL).fst, (nC3 sNoL).snd) ∧
    (nC3 sNoL).fst = false) ∧
    -- (CollectiveResults.2.2.2.1 scL (cd 7 [] [3, 7])).2 false (scL.collPacket 0x85 7).2
    scL.colls = [cd 7 [] [3, 7]] ∧
    (cd 7 [] [3, 7]).rank ≠ scL.ctl.rank ∧
    scL.collPacket 133 (cd 7 [] [3, 7]).rank = (false, (scL.collPacket 133 7).snd) :=
  ⟨rfl, rfl, rfl, by decide +kernel, (ok_pair (by decide +kernel) (by decide +kernel)), by decide +kernel, by decide +kernel,
    by decide +kernel⟩

theorem meets_PlatformStepResults_1 :
    -- PlatformStepResults.2.2.2.1 base
    (base.powerAsks = [] ∧
    -- PlatformStepResults.2.2.2.2.2.2.1 (sT_2 1 1799999999 Core.fresh) 2 1
    1 = (aget (sT_2 1 1799999999 Core.fresh).testPeriods 2).getD 0 ∧
    (1 = 0 ∨ (sT_2 1 1799999999 Core.fresh).clock < ((sT_2 1 1799999999 Core.fresh).core 2).testAt + 1 * 1800000000 ∨ (sT_2 1
      1799999999 Core.fresh).reservation ≠ none ∨ ((sT_2 1 1799999999 Core.fresh).core 2).inService = false) ∧
    (((sT_2 1 1799999999 Core.fresh).core 2).testDue = false ∨ (sT_2 1 1799999999 Core.fresh).coreTeams 2 ≠ [] ∨ (sT_2 1
      1799999999 Core.fresh).reservation ≠ none) ∧
    -- PlatformStepResults.2.2.2.2.2.2.1 (sT_2 1 1800000000 Core.fresh) 2 1
    1 = (aget (sT_2 1 1800000000 Core.fresh).testPeriods 2).getD 0 ∧
    1 ≠ 0 ∧
    ((sT_2 1 1800000000 Core.fresh).core 2).testAt + 1 * 1800000000 ≤ (sT_2 1 1800000000 Core.fresh).clock ∧
    (sT_2 1 1800000000 Core.fresh).reservation = none ∧
    ((sT_2 1 1800000000 Core.fresh).core 2).inService = true ∧
    (((sT_2 1 1800000000 Core.fresh).core 2).testDue = false ∨ (sT_2 1 1800000000 Core.fresh).coreTeams 2 ≠ [] ∨ (sT_2 1
      1800000000 Core.fresh).reservation ≠ none) ∧
    -- (PlatformStepResults.2.2.2.2.2.2.1 {sT_2 1 5 crT with l1 := [⟨2, 5, [], ⟨0,0⟩, none, 0, 0⟩, ⟨1, 5, [], ⟨0,0⟩, none, 0,…
    1 = (aget
      { sT_2 1 5 crT with l1 := [{ holder := 2, line := 5, data := [], lease := { wts := 0, rts := 0 : Lease } : Copy }, { holder := 1, line := 5, data := [], lease := { wts := 0, rts := 0 : Lease } : Copy }] }.testPeriods
      2).getD 0 ∧
    ({ sT_2 1 5 crT with l1 := [{ holder := 2, line := 5, data := [], lease := { wts := 0, rts := 0 : Lease } : Copy }, { holder := 1, line := 5, data := [], lease := { wts := 0, rts := 0 : Lease } : Copy }] }.core
      2).testDue = true ∧
    { sT_2 1 5 crT with l1 := [{ holder := 2, line := 5, data := [], lease := { wts := 0, rts := 0 : Lease } : Copy }, { holder := 1, line := 5, data := [], lease := { wts := 0, rts := 0 : Lease } : Copy }] }.coreTeams
      2 = [] ∧
    { sT_2 1 5 crT with l1 := [{ holder := 2, line := 5, data := [], lease := { wts := 0, rts := 0 : Lease } : Copy }, { holder := 1, line := 5, data := [], lease := { wts := 0, rts := 0 : Lease } : Copy }] }.reservation
      = none ∧
    { sT_2 1 5 crT with l1 := [{ holder := 2, line := 5, data := [], lease := { wts := 0, rts := 0 : Lease } : Copy }, { holder := 1, line := 5, data := [], lease := { wts := 0, rts := 0 : Lease } : Copy }] }.upart
      = [] ∧
    { sT_2 1 5 crT with l1 := [{ holder := 2, line := 5, data := [], lease := { wts := 0, rts := 0 : Lease } : Copy }, { holder := 1, line := 5, data := [], lease := { wts := 0, rts := 0 : Lease } : Copy }] }.choices
      = [1, 5] ∧
    { holder := 1, line := 5, data := [], lease := { wts := 0, rts := 0 : Lease } : Copy } ∈ (nx (exec (Instr.selfTestSlot 2)
      { sT_2 1 5 crT with l1 := [{ holder := 2, line := 5, data := [], lease := { wts := 0, rts := 0 : Lease } : Copy }, { holder := 1, line := 5, data := [], lease := { wts := 0, rts := 0 : Lease } : Copy }] })).l1) ∧
    1 % 2 = 1 ∧
    -- (PlatformStepResults.2.2.2.2.2.2.1 {sT_2 1 5 crT with choices := [2]} 2 1).2.2.2 2 []
    1 = (aget { sT_2 1 5 crT with choices := [2] }.testPeriods 2).getD 0 ∧
    ({ sT_2 1 5 crT with choices := [2] }.core 2).testDue = true ∧
    { sT_2 1 5 crT with choices := [2] }.coreTeams 2 = [] ∧
    { sT_2 1 5 crT with choices := [2] }.reservation = none ∧
    { sT_2 1 5 crT with choices := [2] }.upart = [] ∧
    { sT_2 1 5 crT with choices := [2] }.choices = [2] ∧
    2 % 2 = 0 ∧
    -- PlatformStepResults.2.2.2.2.2.2.2.1 (sS gr0) 0 1
    ((sS gr0).obsPage (1 % 4096)).lsPer = 0 ∧
    -- PlatformStepResults.2.2.2.2.2.2.2.2.1 {sS gr0 with obs := [(1, {ObsPage.fresh with lsPer := 5})]} 0 1 g0 gr0
    ({ sS gr0 with obs := [(1, { ObsPage.fresh with lsPer := 5 })] }.obsPage (1 % 4096)).lsPer ≠ 0 ∧
    g0.gid < 32 ∧
    g0.slot < 16 ∧
    (List.filter (fun p => p.fst.core == 0 && !p.fst.isHandler && p.snd.status != GStatus.exited &&
      { sS gr0 with obs := [(1, { ObsPage.fresh with lsPer := 5 })] }.ctxOf p.fst == 1)
      { sS gr0 with obs := [(1, { ObsPage.fresh with lsPer := 5 })] }.groups = [(g0, gr0)]) ∧
    -- PlatformStepResults.2.2.2.2.2.2.2.2.2.1 {base with excl := [⟨1,2⟩]}
    { base with excl := [{ die := 1, line := 2 : Excl }] }.excl.length ≤ 1 ∧
    -- PlatformStepResults.2.2.2.2.2.2.2.2.2.2 (ttl [3, 8, 1]) 3 8 [1]
    (ttl [3, 8, 1]).choices = [3, 8, 1] ∧
    3 % 3 = 0 ∧
    -- PlatformStepResults.2.2.2.2.2.2.2.2.2.2 (ttl [4, 8, 1]) 4 8 [1]
    (ttl [4, 8, 1]).choices = [4, 8, 1] ∧
    4 % 3 = 1 ∧
    -- PlatformStepResults.2.2.2.2.2.2.2.2.2.2 (ttl [5, 8, 1]) 5 8 [1]
    (ttl [5, 8, 1]).choices = [5, 8, 1] ∧
    5 % 3 = 2 ∧
    -- PlatformStepResults.2.2.2.2.1 {sPw with groups := [(g0, gr0)]} g0 gr0 []
    { sPw with groups := [(g0, gr0)] }.powerAsks = [g0] ∧
    { sPw with groups := [(g0, gr0)] }.group g0 = some gr0 ∧
    gr0.asksPower = false :=
  ⟨by decide +kernel, by decide +kernel⟩

theorem meets_PlatformStepResults_2 :
    -- PlatformStepResults.2.2.2.2.2.1 sPw g0 gHeld []
    sPw.powerAsks = [g0] ∧
    sPw.group g0 = some gHeld ∧
    gHeld.asksPower = true ∧
    -- PlatformStepResults.2.1 { ttl [12, 1] with teams := [] } 12 [1]
    { ttl [12, 1] with teams := [] }.choices = [12, 1] ∧
    12 % 12 = 0 ∧
    { ttl [12, 1] with teams := [] }.teams = [] ∧
    0 < 384 :=
  by decide +kernel

theorem meets_MigrationResults :
    -- MigrationResults.1 {base with ctxs := []}
    ({ base with ctxs := [] }.ctxs = [] ∧
    -- MigrationResults.2.2.1 base
    base.migrations = [] ∧
    -- (MigrationResults.2.1 (sMg [0x40000000, 0x4001, 5]) 1 (Ctx.fresh 0x10000) 0x40000000 0x4001 0x14000 (0x100000 + 0x3B) …
    (sMg [1073741824, 16385, 5]).ctxs = [(1, Ctx.fresh 65536)] ∧
    (sMg [1073741824, 16385, 5]).choices = [1073741824, 16385, 5] ∧
    PlainHomes (sMg [1073741824, 16385, 5]) ∧
    (sMg [1073741824, 16385, 5]).sends = [] ∧
    (sMg [1073741824, 16385, 5]).cores = [] ∧
    leafAt (sMg [1073741824, 16385, 5]).mem (1073741824 % 2 ^ 57) walkLevels (Ctx.fresh 65536).ptRoot = some (81920, 1048576 +
      59, 16) ∧
    1048576 = (1048576 + 59) / 2 ^ 16 % 2 ^ 36 * 2 ^ 16 ∧
    (1048576 + 59).testBit 6 = false ∧
    ((1048576 + 59).testBit 7 = true → (sMg [1073741824, 16385, 5]).allMoraine (16385 % (memTop / 2 ^ 16) * 2 ^ 16) (2 ^ 16) =
      true) ∧
    (sMg [1073741824, 16385, 5]).rangeFree (16385 % (memTop / 2 ^ 16) * 2 ^ 16) (2 ^ 16) = true ∧
    (sMg [1073741824, 16385, 5]).poolUses 1048576 (2 ^ 16) = false ∧
    (sMg [1073741824, 16385, 5]).locked 1048576 = false ∧
    -- (MigrationResults.2.1 (sMg [0x40000000, 0x10, 5]) 1 (Ctx.fresh 0x10000) 0x40000000 0x10 0x14000 (0x100000 + 0x3B) 16 0…
    (sMg [1073741824, 16, 5]).ctxs = [(1, Ctx.fresh 65536)] ∧
    (sMg [1073741824, 16, 5]).choices = [1073741824, 16, 5] ∧
    PlainHomes (sMg [1073741824, 16, 5])) ∧
    ((sMg [1073741824, 16, 5]).sends = [] ∧
    (sMg [1073741824, 16, 5]).cores = [] ∧
    leafAt (sMg [1073741824, 16, 5]).mem (1073741824 % 2 ^ 57) walkLevels (Ctx.fresh 65536).ptRoot = some (81920, 1048576 + 59,
      16) ∧
    ((1048576 + 59).testBit 6 = true ∨ (1048576 + 59).testBit 7 = true ∧ (sMg [1073741824, 16, 5]).allMoraine (16 % (memTop / 2
      ^ 16) * 2 ^ 16) (2 ^ 16) = false ∨ (sMg [1073741824, 16, 5]).rangeFree (16 % (memTop / 2 ^ 16) * 2 ^ 16) (2 ^ 16) = false
      ∨ (sMg [1073741824, 16, 5]).poolUses 1048576 (2 ^ 16) = true ∨ (sMg [1073741824, 16, 5]).locked 1048576 = true) ∧
    -- MigrationResults.2.2.2 sSw mg [] (Ctx.fresh 0x10000) 0x14000 0x10003B 16
    sSw.migrations = [mg] ∧
    sSw.holds = [] ∧
    sSw.leftBy (some mg.ctx) mg.new mg.bytes = [] ∧
    sSw.mem.wf = true ∧
    sSw.ctx mg.ctx = some (Ctx.fresh 65536) ∧
    leafAt (splice sSw.mem mg.new mg.bytes mg.old sSw.mem) mg.va walkLevels (Ctx.fresh 65536).ptRoot = some (81920, 1048635,
      16) ∧
    1048635 / 2 ^ 16 % 2 ^ 36 * 2 ^ 16 = mg.old ∧
    mg.new < 2 ^ 52 ∧
    mg.new % 2 ^ 16 = 0 ∧
    (81920 + 8 ≤ mg.new ∨ mg.new + mg.bytes ≤ 81920) ∧
    0 < mg.bytes ∧
    (0 < mg.new ∨ mg.new + mg.bytes ≤ 0)) ∧
    (0 < 81920 ∨ 81920 + 8 ≤ 0) :=
  ⟨(by unfold PlainHomes; decide +kernel), by decide +kernel, by decide +kernel⟩

theorem meets_UndefinedAndBuildResults :
    -- (UndefinedAndBuildResults.2.2 ({ sBd with firn := [({ id := 9, ctx := 1, key := [], codeId := 0x1234, krec := 0x800000…
    { sBd with firn := [firnEntryW5] }.readRecord firnEntryW5.ctx (BitVec.toNat firnEntryW5.krec) = (Except.error
      ({ cause := Cause.translation, info := 0 : Meet }, 549755813888), ({ sBd with firn := [firnEntryW5] }.readRecord 1
      549755813888).snd) ∧
    ({ sBd with firn := [firnEntryW5] }.builds = [firnEntryW5.id] ∧
    { sBd with firn := [firnEntryW5] }.firn = [firnEntryW5] ∧
    firnEntryW5.state = FirnState.building) ∧
    -- UndefinedAndBuildResults.1 (sS gr0) g0
    (sS gr0).cur = some (Who.scalar g0) ∧
    -- UndefinedAndBuildResults.1 (sL gl0) g0
    (sL gl0).cur = some (Who.lane g0) ∧
    -- UndefinedAndBuildResults.2.1 base
    base.builds = [] ∧
    -- UndefinedAndBuildResults.2.2 sBd base { id := 9, ctx := 1, key := [], codeId := 0x1234, krec := 0x60000, state := .bui…
    sBd.builds = [firnEntryW4.id] ∧
    sBd.firn = [firnEntryW4] ∧
    firnEntryW4.state = FirnState.building :=
  ⟨(pair_of (by decide +kernel) (by decide +kernel) (by decide +kernel)), by decide +kernel, by decide +kernel⟩

theorem meets_BarrierWordResults :
    -- BarrierWordResults (sB (gB 4) (tmB bar32 [])) g0 (gB 4) .dyn 1 2 t0 (tmB bar32 []) 0x40 (3 + 2 * 2^16) 3 2 0 4 false
    ((sB (gB (4 : W64)) (tmB bar32 [])).objPlace g0 ((gB (4 : W64)).sreg (1 : SReg)) 16 false !(gB (4 : W64)).skipS.wp) =
      (Except.ok (Place.scratch t0 64), sB (gB (4 : W64)) (tmB bar32 [])) ∧
    (ScalarAt (sB (gB (4 : W64)) (tmB bar32 [])) g0 (gB (4 : W64)) ∧
    (sB (gB (4 : W64)) (tmB bar32 [])).team t0 = some (tmB bar32 []) ∧
    3 + 2 * 2 ^ 16 = sgetLE (tmB bar32 []).scratch 64 16 ∧
    barOf (3 + 2 * 2 ^ 16) = (3, 2, false, false, 0) ∧
    4 = BitVec.toNat ((gB (4 : W64)).sreg (2 : SReg)) ∧
    NoObjectWaits (sB (gB (4 : W64)) (tmB bar32 [])) ∧
    NoWrap (sB (gB (4 : W64)) (tmB bar32 [])) g0.core 2 1 ∧
    1 ≤ 4 ∧
    4 ≤ 65535 ∧
    (gB (4 : W64)).obj = [] ∧
    4 < 2 ^ 48) ∧
    -- BarrierWordResults (sB gB2 (tmB bar31 [])) g0 gB2 .dyn 1 2 t0 (tmB bar31 []) 0x40 (3 + 0 * 2^16 + 2^32 + 5 * 2^64) 3 0…
    ((sB gB2 (tmB bar31 [])).objPlace g0 (gB2.sreg (1 : SReg)) 16 false !gB2.skipS.wp) = (Except.ok (Place.scratch t0 64), sB
      gB2 (tmB bar31 [])) ∧
    (ScalarAt (sB gB2 (tmB bar31 [])) g0 gB2 ∧
    (sB gB2 (tmB bar31 [])).team t0 = some (tmB bar31 []) ∧
    3 + 0 * 2 ^ 16 + 2 ^ 32 + 5 * 2 ^ 64 = sgetLE (tmB bar31 []).scratch 64 16 ∧
    barOf (3 + 0 * 2 ^ 16 + 2 ^ 32 + 5 * 2 ^ 64) = (3, 0, true, false, 5) ∧
    281474976710656 = BitVec.toNat (gB2.sreg (2 : SReg)) ∧
    NoObjectWaits (sB gB2 (tmB bar31 [])) ∧
    NoWrap (sB gB2 (tmB bar31 [])) g0.core 2 1 ∧
    (281474976710656 = 0 ∨ 65535 < 281474976710656) ∧
    gB2.obj = [{ addr := gB2.sreg (1 : SReg), ring := false, phase := true : ObjEntry }] ∧
    2 ^ 48 ≤ 281474976710656) ∧
    -- (BarrierWordResults (sB gB2 (tmB bar31 [])) g0 gB2 .dyn 1 2 t0 (tmB bar31 []) 0x40 (3 + 0 * 2^16 + 2^32 + 5 * 2^64) 3 …
    { gB2 with obj := objs8 }.obj.length = 8 ∧
    (∀ (e : ObjEntry), e ∈ { gB2 with obj := objs8 }.obj → e.addr ≠ gB2.sreg (1 : SReg)) ∧
    { gB2 with obj := objs8 } = { gB2 with obj := { gB2 with obj := objs8 }.obj } :=
  ⟨(ok_pair (by decide +kernel) (by decide +kernel)), (by unfold NoObjectWaits NoWrap ScalarAt; decide +kernel),
    (ok_pair (by decide +kernel) (by decide +kernel)), (by unfold NoObjectWaits NoWrap ScalarAt; decide +kernel),
    by decide +kernel⟩

theorem meets_BarrierWaitResults :
    -- BarrierWaitResults (sB (gBw true) (tmB bar32 [])) g0 (gBw true) .dyn 1 2 t0 (tmB bar32 []) 0x40 (3 + 2 * 2^16) 3 2 0 f…
    ((sB (gBw true) (tmB bar32 [])).objPlace g0 ((gBw true).sreg (1 : SReg)) 16 false !(gBw true).skipS.wp) = (Except.ok
      (Place.scratch t0 64), sB (gBw true) (tmB bar32 [])) ∧
    (ScalarAt (sB (gBw true) (tmB bar32 [])) g0 (gBw true) ∧
    (sB (gBw true) (tmB bar32 [])).team t0 = some (tmB bar32 []) ∧
    3 + 2 * 2 ^ 16 = sgetLE (tmB bar32 []).scratch 64 16 ∧
    barOf (3 + 2 * 2 ^ 16) = (3, 2, false, false, 0) ∧
    (gBw true).obj = [{ addr := (gBw true).sreg (1 : SReg), ring := false, phase := true : ObjEntry }] ∧
    true ≠ false) ∧
    -- BarrierWaitResults (sB (gBw false) (tmB bar32 [])) g0 (gBw false) .dyn 1 2 t0 (tmB bar32 []) 0x40 (3 + 2 * 2^16) 3 2 0…
    ((sB (gBw false) (tmB bar32 [])).objPlace g0 ((gBw false).sreg (1 : SReg)) 16 false !(gBw false).skipS.wp) = (Except.ok
      (Place.scratch t0 64), sB (gBw false) (tmB bar32 [])) ∧
    (ScalarAt (sB (gBw false) (tmB bar32 [])) g0 (gBw false) ∧
    (sB (gBw false) (tmB bar32 [])).team t0 = some (tmB bar32 []) ∧
    (gBw false).obj = [{ addr := (gBw false).sreg (1 : SReg), ring := false, phase := false : ObjEntry }]) ∧
    -- BarrierWaitResults (sB (gBw false) (tmB barBrk [])) g0 (gBw false) .dyn 1 2 t0 (tmB barBrk []) 0x40 (3 + 2 * 2^16+2^33…
    ((sB (gBw false) (tmB barBrk [])).objPlace g0 ((gBw false).sreg (1 : SReg)) 16 false !(gBw false).skipS.wp) = (Except.ok
      (Place.scratch t0 64), sB (gBw false) (tmB barBrk [])) ∧
    ScalarAt (sB (gBw false) (tmB barBrk [])) g0 (gBw false) ∧
    (sB (gBw false) (tmB barBrk [])).team t0 = some (tmB barBrk []) ∧
    3 + 2 * 2 ^ 16 + 2 ^ 33 = sgetLE (tmB barBrk []).scratch 64 16 ∧
    barOf (3 + 2 * 2 ^ 16 + 2 ^ 33) = (3, 2, false, true, 0) :=
  ⟨(ok_pair (by decide +kernel) (by decide +kernel)), (by unfold ScalarAt; decide +kernel),
    (ok_pair (by decide +kernel) (by decide +kernel)), (by unfold ScalarAt; decide +kernel),
    (ok_pair (by decide +kernel) (by decide +kernel)), (by unfold ScalarAt; decide +kernel)⟩

theorem meets_RingWordResults :
    -- RingWordResults (sB (gB 4) (tmB (ring 5 1 (2^32)) [])) g0 (gB 4) .dyn 1 2 t0 (tmB (ring 5 1 (2^32)) []) 0x40 4 1 5 1
    (sB (gB (4 : W64)) (tmB (ring 5 1 (2 ^ 32)) [])).objPlace g0 ((gB (4 : W64)).sreg (1 : SReg)) 16 true = (Except.ok
      (Place.scratch t0 64), sB (gB (4 : W64)) (tmB (ring 5 1 (2 ^ 32)) [])) ∧
    (sB (gB (4 : W64)) (tmB (ring 5 1 (2 ^ 32)) [])).objPlace g0 ((gB (4 : W64)).sreg (1 : SReg)) (16 + 4 * 4) true =
      (Except.ok (Place.scratch t0 64), sB (gB (4 : W64)) (tmB (ring 5 1 (2 ^ 32)) [])) ∧
    (ScalarAt (sB (gB (4 : W64)) (tmB (ring 5 1 (2 ^ 32)) [])) g0 (gB (4 : W64)) ∧
    (sB (gB (4 : W64)) (tmB (ring 5 1 (2 ^ 32)) [])).team t0 = some (tmB (ring 5 1 (2 ^ 32)) []) ∧
    64 % 16 = 0 ∧
    4 ∈ [1, 2, 4, 8, 16, 32, 64] ∧
    NoObjectWaits (sB (gB (4 : W64)) (tmB (ring 5 1 (2 ^ 32)) [])) ∧
    NoWrap (sB (gB (4 : W64)) (tmB (ring 5 1 (2 ^ 32)) [])) g0.core 2 1 ∧
    BitVec.toNat ((gB (4 : W64)).sreg (2 : SReg)) = 4 ∧
    sgetLE (tmB (ring 5 1 (2 ^ 32)) []).scratch 64 4 = 4 ∧
    (sgetLE (tmB (ring 5 1 (2 ^ 32)) []).scratch (64 + 4) 4).testBit 1 = false ∧
    (gB (4 : W64)).ticket = none ∧
    (gB (4 : W64)).obj = [] ∧
    sgetLE (tmB (ring 5 1 (2 ^ 32)) []).scratch (64 + 8) 4 = 5 ∧
    1 = 5 % 4 ∧
    1 = (5 / 4 : Nat) % 2 ∧
    (tmB (ring 5 1 (2 ^ 32)) []).tag (64 + 16 + 4 * 1) = false ∧
    sgetLE (tmB (ring 5 1 (2 ^ 32)) []).scratch (64 + 16 + 4 * 1) 4 % 2 = 1) ∧
    -- RingWordResults (sB (gB 1) (tmB (ring 1 1 0) [(0x54/4,1)])) g0 (gB 1) .dyn 1 2 t0 (tmB (ring 1 1 0) [(0x54/4,1)]) 0x40…
    (sB (gB (1 : W64)) (tmB (ring 1 1 0) [((84 / 4 : Nat), (1 : BitVec 1))])).objPlace g0 ((gB (1 : W64)).sreg (1 : SReg)) 16
      true = (Except.ok (Place.scratch t0 64), sB (gB (1 : W64)) (tmB (ring 1 1 0) [((84 / 4 : Nat), (1 : BitVec 1))])) ∧
    (sB (gB (1 : W64)) (tmB (ring 1 1 0) [((84 / 4 : Nat), (1 : BitVec 1))])).objPlace g0 ((gB (1 : W64)).sreg (1 : SReg)) (16
      + 4 * 4) true = (Except.ok (Place.scratch t0 64), sB (gB (1 : W64)) (tmB (ring 1 1 0) [((84 / 4 : Nat), (1 : BitVec
      1))])) ∧
    (ScalarAt (sB (gB (1 : W64)) (tmB (ring 1 1 0) [((84 / 4 : Nat), (1 : BitVec 1))])) g0 (gB (1 : W64)) ∧
    (sB (gB (1 : W64)) (tmB (ring 1 1 0) [((84 / 4 : Nat), (1 : BitVec 1))])).team t0 = some (tmB (ring 1 1 0) [((84 / 4 :
      Nat), (1 : BitVec 1))]) ∧
    NoObjectWaits (sB (gB (1 : W64)) (tmB (ring 1 1 0) [((84 / 4 : Nat), (1 : BitVec 1))])) ∧
    NoWrap (sB (gB (1 : W64)) (tmB (ring 1 1 0) [((84 / 4 : Nat), (1 : BitVec 1))])) g0.core 2 1 ∧
    sgetLE (tmB (ring 1 1 0) [((84 / 4 : Nat), (1 : BitVec 1))]).scratch 64 4 = 4 ∧
    (sgetLE (tmB (ring 1 1 0) [((84 / 4 : Nat), (1 : BitVec 1))]).scratch (64 + 4) 4).testBit 1 = false ∧
    (gB (1 : W64)).ticket = none ∧
    (gB (1 : W64)).obj = [] ∧
    sgetLE (tmB (ring 1 1 0) [((84 / 4 : Nat), (1 : BitVec 1))]).scratch (64 + 12) 4 = 1 ∧
    1 = 1 % 4 ∧
    0 = (1 / 4 : Nat) % 2 ∧
    (tmB (ring 1 1 0) [((84 / 4 : Nat), (1 : BitVec 1))]).tag (64 + 16 + 4 * 1) = true ∧
    sgetLE (tmB (ring 1 1 0) [((84 / 4 : Nat), (1 : BitVec 1))]).scratch (64 + 16 + 4 * 1) 4 % 2 = 0 ∧
    sgetLE (tmB (ring 1 1 0) [((84 / 4 : Nat), (1 : BitVec 1))]).scratch (64 + 8) 4 = 1 ∧
    ((tmB (ring 1 1 0) [((84 / 4 : Nat), (1 : BitVec 1))]).tag (64 + 16 + 4 * 1) = true ∨ sgetLE (tmB (ring 1 1 0) [((84 / 4 :
      Nat), (1 : BitVec 1))]).scratch (64 + 16 + 4 * 1) 4 % 2 ≠ 0) ∧
    BitVec.toNat ((gB (1 : W64)).sreg (2 : SReg)) = 1) ∧
    1 < 2 ^ 32 :=
  ⟨(ok_pair (by decide +kernel) (by decide +kernel)), (ok_pair (by decide +kernel) (by decide +kernel)),
    (by unfold NoObjectWaits NoWrap ScalarAt; decide +kernel), (ok_pair (by decide +kernel) (by decide +kernel)),
    (ok_pair (by decide +kernel) (by decide +kernel)), (by unfold NoObjectWaits NoWrap ScalarAt; decide +kernel),
    by decide +kernel⟩

theorem meets_FenceResults :
    -- FenceResults (sS gr0) g0 gr0 .dyn tm0
    (∀ (f : FabTag), f ∈ (sS gr0).fabTags → f.busy = true → f.why ≠ ReqFor.lane g0 ∧ ∀ (os : List GRef), f.why =
      ReqFor.partial_ os → ¬g0 ∈ os) ∧
    ScalarAt (sS gr0) g0 gr0 ∧
    g0.isHandler = false ∧
    (sS gr0).team g0.team = some tm0 ∧
    gr0.enq ≤ gr0.ended ∧
    gr0.out = [] ∧
    gr0.waitS = none ∧
    (∀ (u : UPart), u ∈ (sS gr0).upart → ¬g0 ∈ u.owners) ∧
    tm0.issuedCe ≤ tm0.doneCe ∧
    tm0.issuedKv ≤ tm0.doneKv ∧
    tm0.issuedCo ≤ tm0.doneCo ∧
    gr0.mxIssued ≤ gr0.mxDone ∧
    (sS gr0).deltas = [] ∧
    ((sS gr0).core g0.core).staging = [] ∧
    (sS gr0).sends = [] ∧
    gr0.survDeg = false ∧
    tm0.survBad = [] ∧
    gr0.morFrames = [] ∧
    tm0.mor = [] :=
  ⟨(fun _ h => nomatch h), (by unfold ScalarAt; decide +kernel)⟩

theorem meets_ExitEndsGroup :
    -- ExitEndsGroup (sS gr0) g0 gr0 .dyn tm0
    ScalarAt (sS gr0) g0 gr0 ∧
    g0.isHandler = false ∧
    (sS gr0).team g0.team = some tm0 ∧
    tm0.region gr0.role = none ∧
    gr0.enq ≤ gr0.ended ∧
    gr0.eng = [] ∧
    gr0.out = [] ∧
    gr0.obj = [] ∧
    NoWrap (sS gr0) g0.core 2 1 ∧
    { core := 0, slot := 0, gid := 1 : GRef } ≠ g0 ∧
    -- ExitEndsGroup (sS gRun) g0 gRun .dyn tm0
    ScalarAt (sS gRun) g0 gRun ∧
    (sS gRun).team g0.team = some tm0 ∧
    tm0.region gRun.role = none ∧
    gRun.ended < gRun.enq :=
  by unfold NoWrap ScalarAt; decide +kernel

theorem meets_PowerRequestResults :
    -- PowerRequestResults (sS (gM 0 none)) g0 (gM 0 none) .dyn 1 2
    (ScalarAt (sS (gM (0 : W64) none)) g0 (gM (0 : W64) none) ∧
    ((gM (0 : W64) none).role = Role.matrix ∧ g0.isHandler = false) ∧
    (gM (0 : W64) none).grant = none ∧
    BitVec.toNat ((gM (0 : W64) none).sreg (1 : SReg)) = 0 ∧
    -- PowerRequestResults (sS (gM 1 none)) g0 (gM 1 none) .dyn 1 2
    ScalarAt (sS (gM (1 : W64) none)) g0 (gM (1 : W64) none) ∧
    ((gM (1 : W64) none).role = Role.matrix ∧ g0.isHandler = false) ∧
    BitVec.toNat ((gM (1 : W64) none).sreg (1 : SReg)) = 1 ∧
    -- PowerRequestResults (sS (gM 2 none)) g0 (gM 2 none) .dyn 1 2
    ScalarAt (sS (gM (2 : W64) none)) g0 (gM (2 : W64) none) ∧
    ((gM (2 : W64) none).role = Role.matrix ∧ g0.isHandler = false) ∧
    (gM (2 : W64) none).grant = none ∧
    BitVec.toNat ((gM (2 : W64) none).sreg (1 : SReg)) = 2 ∧
    -- PowerRequestResults (sS (gM 2 (some (3,9)))) g0 (gM 2 (some (3,9))) .dyn 1 2
    ScalarAt (sS (gM (2 : W64) (some (3, 9)))) g0 (gM (2 : W64) (some (3, 9)))) ∧
    ((gM (2 : W64) (some (3, 9))).role = Role.matrix ∧ g0.isHandler = false) ∧
    (gM (2 : W64) (some (3, 9))).grant = some (3, 9) ∧
    BitVec.toNat ((gM (2 : W64) (some (3, 9))).sreg (1 : SReg)) = 2 ∧
    -- PowerRequestResults (sS (gM 0 (some (3,9)))) g0 (gM 0 (some (3,9))) .dyn 1 0
    ScalarAt (sS (gM (0 : W64) (some (3, 9)))) g0 (gM (0 : W64) (some (3, 9))) ∧
    ((gM (0 : W64) (some (3, 9))).role = Role.matrix ∧ g0.isHandler = false) ∧
    (gM (0 : W64) (some (3, 9))).grant = some (3, 9) ∧
    BitVec.toNat ((gM (0 : W64) (some (3, 9))).sreg (1 : SReg)) = 0 ∧
    -- PowerRequestResults (sS (gM 3 (some (3,9)))) g0 (gM 3 (some (3,9))) .dyn 1 0
    ScalarAt (sS (gM (3 : W64) (some (3, 9)))) g0 (gM (3 : W64) (some (3, 9))) ∧
    3 ≤ BitVec.toNat ((gM (3 : W64) (some (3, 9))).sreg (1 : SReg)) ∧
    -- PowerRequestResults (sS gr0) g0 gr0 .dyn 0 3
    ScalarAt (sS gr0) g0 gr0 ∧
    BitVec.toNat (gr0.sreg (0 : SReg)) < 3 ∧
    (¬(gr0.role = Role.matrix ∧ g0.isHandler = false)) :=
  ⟨(by unfold ScalarAt; decide +kernel), (by unfold ScalarAt; decide +kernel)⟩

theorem meets_EngineCommandsIssue :
    -- EngineCommandsIssue (sE (gE 0x40100) cpyD) (rdE 0x40100 cpyD 64 false).2 (cpyCheck g0 0x40100 ((rdE 0x40100 cpyD 64 fa…
    (sE (gE (262400 : W64)) cpyD).readDesc ((sE (gE (262400 : W64)) cpyD).ctxOf g0) (BitVec.toNat ((gE (262400 : W64)).sreg (1
      : SReg))) 64 false = ((rdE (262400 : W64) cpyD 64 false).fst, (rdE (262400 : W64) cpyD 64 false).snd) ∧
    (rdE (262400 : W64) cpyD 64 false).fst = .ok [5, 0, 256, 8589934600, 34359738376, 0, 0, 0] ∧
    ScalarAt (sE (gE (262400 : W64)) cpyD) g0 (gE (262400 : W64)) ∧
    (Instr.cpy Bt.dyn (1 : SReg) (2 : SReg)).engine = some ((1 : SReg), (2 : SReg), EngCls.ce, EngOp.cpy, 64, false) ∧
    engineChecks EngOp.cpy g0 (BitVec.toNat ((gE (262400 : W64)).sreg (1 : SReg))) [5, 0, 256, 8589934600, 34359738376, 0, 0,
      0] (rdE (262400 : W64) cpyD 64 false).snd = ((cpyCheck g0 262400 ((rdE (262400 : W64) cpyD 64 false).fst.toOption.getD
      []) (rdE (262400 : W64) cpyD 64 false).snd).fst, (cpyCheck g0 262400 ((rdE (262400 : W64) cpyD 64
      false).fst.toOption.getD []) (rdE (262400 : W64) cpyD 64 false).snd).snd) ∧
    ((cpyCheck g0 262400 ((rdE (262400 : W64) cpyD 64 false).fst.toOption.getD []) (rdE (262400 : W64) cpyD 64 false).snd).fst
      = none ∧
    (cpyCheck g0 262400 ((rdE (262400 : W64) cpyD 64 false).fst.toOption.getD []) (rdE (262400 : W64) cpyD 64
      false).snd).snd.team g0.team = some tm0) ∧
    ((cpyCheck g0 262400 ((rdE (262400 : W64) cpyD 64 false).fst.toOption.getD []) (rdE (262400 : W64) cpyD 64
      false).snd).snd.group g0 = some (gE (262400 : W64)) ∧
    1 = tm0.issuedOf EngCls.ce + 1 ∧
    ((List.filter (fun c => c.cls == EngCls.ce) tm0.cmds).length < 32 ∨ (cpyCheck g0 262400 ((rdE (262400 : W64) cpyD 64
      false).fst.toOption.getD []) (rdE (262400 : W64) cpyD 64 false).snd).snd.sumpFits tm0.ctx 64 = true)) ∧
    -- EngineCommandsIssue (sE (gE 0x40100) 7) (rdE 0x40100 7 64 false).2 (cpyCheck g0 0x40100 ((rdE 0x40100 7 64 false).1.to…
    (sE (gE (262400 : W64)) 7).readDesc ((sE (gE (262400 : W64)) 7).ctxOf g0) (BitVec.toNat ((gE (262400 : W64)).sreg (1 :
      SReg))) 64 false = ((rdE (262400 : W64) 7 64 false).fst, (rdE (262400 : W64) 7 64 false).snd) ∧
    (rdE (262400 : W64) 7 64 false).fst = .ok ([7] ++ List.replicate 7 0) ∧
    ScalarAt (sE (gE (262400 : W64)) 7) g0 (gE (262400 : W64)) ∧
    engineChecks EngOp.cpy g0 (BitVec.toNat ((gE (262400 : W64)).sreg (1 : SReg))) ([7] ++ List.replicate 7 0) (rdE (262400 :
      W64) 7 64 false).snd = ((cpyCheck g0 262400 ((rdE (262400 : W64) 7 64 false).fst.toOption.getD []) (rdE (262400 : W64) 7
      64 false).snd).fst, (cpyCheck g0 262400 ((rdE (262400 : W64) 7 64 false).fst.toOption.getD []) (rdE (262400 : W64) 7 64
      false).snd).snd) ∧
    (cpyCheck g0 262400 ((rdE (262400 : W64) 7 64 false).fst.toOption.getD []) (rdE (262400 : W64) 7 64 false).snd).fst = some
      ({ cause := Cause.illegal, info := 0 : Meet }, 262400) ∧
    -- EngineCommandsIssue (sE (gE 0x40101) 7) (rdE 0x40101 7 64 false).2 (rdE 0x40101 7 64 false).2 g0 (gE 0x40101) (gE 0x40…
    (sE (gE (262401 : W64)) 7).readDesc ((sE (gE (262401 : W64)) 7).ctxOf g0) (BitVec.toNat ((gE (262401 : W64)).sreg (1 :
      SReg))) 64 false = ((rdE (262401 : W64) 7 64 false).fst, (rdE (262401 : W64) 7 64 false).snd) ∧
    (rdE (262401 : W64) 7 64 false).fst = .error { cause := Cause.alignment, info := 0 : Meet } ∧
    ScalarAt (sE (gE (262401 : W64)) 7) g0 (gE (262401 : W64)) ∧
    -- EngineCommandsIssue sE32 rd32.2 ck32.2 g0 (gE 0x40100) (gE 0x40100) tm32 (.cpy .dyn 1 2) 1 2 .ce .cpy 64 false rd32.1 …
    sE32.readDesc (sE32.ctxOf g0) (BitVec.toNat ((gE (262400 : W64)).sreg (1 : SReg))) 64 false = (rd32.fst, rd32.snd) ∧
    rd32.fst = .ok [5, 0, 256, 8589934600, 34359738376, 0, 0, 0] ∧
    ScalarAt sE32 g0 (gE (262400 : W64)) ∧
    engineChecks EngOp.cpy g0 (BitVec.toNat ((gE (262400 : W64)).sreg (1 : SReg))) [5, 0, 256, 8589934600, 34359738376, 0, 0,
      0] rd32.snd = (ck32.fst, ck32.snd) ∧
    ck32.fst = none ∧
    ck32.snd.team g0.team = some tm32 ∧
    ck32.snd.group g0 = some (gE (262400 : W64)) ∧
    33 = tm32.issuedOf EngCls.ce + 1 ∧
    (¬((List.filter (fun c => c.cls == EngCls.ce) tm32.cmds).length < 32 ∨ ck32.snd.sumpFits tm32.ctx 64 = true)) :=
  ⟨(pair_of (by decide +kernel) (by decide +kernel) (by decide +kernel)), (ok_of (by decide +kernel)),
    (by unfold ScalarAt; decide +kernel), by decide +kernel, by decide +kernel, by decide +kernel, by decide +kernel,
    (pair_of (by decide +kernel) (by decide +kernel) (by decide +kernel)), (ok_of (by decide +kernel)),
    (by unfold ScalarAt; decide +kernel), by decide +kernel, by decide +kernel,
    (pair_of (by decide +kernel) (by decide +kernel) (by decide +kernel)), (err_of (by decide +kernel)),
    (by unfold ScalarAt; decide +kernel), (pair_of (by decide +kernel) (by decide +kernel) (by decide +kernel)),
    (ok_of (by decide +kernel)), (by unfold ScalarAt; decide +kernel), by decide +kernel, by decide +kernel⟩

theorem meets_RequestRecordWords :
    -- RequestRecordWords (sR (gR 5 7) inst0) g0 (gR 5 7) .dyn 10 1 2 5
    (ScalarAt (sR (gR (5 : W64) (7 : W64)) inst0) g0 (gR (5 : W64) (7 : W64)) ∧
    5 = BitVec.toNat ((gR (5 : W64) (7 : W64)).sreg (1 : SReg)) ∧
    5 < 2 ^ 14 ∧
    (sR (gR (5 : W64) (7 : W64)) inst0).sampler ((sR (gR (5 : W64) (7 : W64)) inst0).teamRefOf g0) = some inst0 ∧
    (List.find? (fun e => e.idx == 5) inst0.batch = some bEntryW1) ∧
    (sR (gR (5 : W64) (7 : W64)) inst0).recOf inst0.num 5 = some rec0 ∧
    (↑(10 : Fin 32) : Nat) ∈ [10, 11, 12, 13, 14, 16, 17, 18, 19, 20, 21, 22, 23] ∧
    BitVec.toNat ((gR (5 : W64) (7 : W64)).sreg (2 : SReg)) < 2 ^ 33 ∧
    bEntryW1.sample = true ∧
    bEntryW1.emitted = false ∧
    -- RequestRecordWords (sR (gR 5 0x200000000) inst0) g0 (gR 5 0x200000000) .dyn 15 1 2 5
    ScalarAt (sR (gR (5 : W64) (8589934592 : W64)) inst0) g0 (gR (5 : W64) (8589934592 : W64)) ∧
    5 = BitVec.toNat ((gR (5 : W64) (8589934592 : W64)).sreg (1 : SReg)) ∧
    (sR (gR (5 : W64) (8589934592 : W64)) inst0).sampler ((sR (gR (5 : W64) (8589934592 : W64)) inst0).teamRefOf g0) = some
      inst0 ∧
    (sR (gR (5 : W64) (8589934592 : W64)) inst0).recOf inst0.num 5 = some rec0 ∧
    ¬(↑(15 : Fin 32) : Nat) ∈ [10, 11, 12, 13, 14, 16, 17, 18, 19, 20, 21, 22, 23] ∧
    2 ^ 33 ≤ BitVec.toNat ((gR (5 : W64) (8589934592 : W64)).sreg (2 : SReg)) ∧
    -- RequestRecordWords (sR (gR 5 7) {inst0 with batch := [⟨5, 0, 1, false, true, false, false, false⟩]}) g0 (gR 5 7) .dyn …
    ScalarAt (sR (gR (5 : W64) (7 : W64)) { inst0 with batch := [bEntryW2] }) g0 (gR (5 : W64) (7 : W64)) ∧
    (sR (gR (5 : W64) (7 : W64)) { inst0 with batch := [bEntryW2] }).sampler ((sR (gR (5 : W64) (7 : W64))
      { inst0 with batch := [bEntryW2] }).teamRefOf g0) = some instW2) ∧
    (List.find? (fun e => e.idx == 5) instW2.batch = some bEntryW2) ∧
    (sR (gR (5 : W64) (7 : W64)) { inst0 with batch := [bEntryW2] }).recOf instW2.num 5 = some rec0 ∧
    ¬(↑(9 : Fin 32) : Nat) ∈ [10, 11, 12, 13, 14, 16, 17, 18, 19, 20, 21, 22, 23] ∧
    (bEntryW2.sample = false ∨ bEntryW2.emitted = true) ∧
    -- RequestRecordWords (sR (gR 0x4000 7) inst0) g0 (gR 0x4000 7) .dyn 10 1 2 0x4000
    ScalarAt (sR (gR (16384 : W64) (7 : W64)) inst0) g0 (gR (16384 : W64) (7 : W64)) ∧
    16384 = BitVec.toNat ((gR (16384 : W64) (7 : W64)).sreg (1 : SReg)) ∧
    2 ^ 14 ≤ 16384 ∧
    -- RequestRecordWords (sS (gR 5 7)) g0 (gR 5 7) .dyn 10 1 2 5
    ScalarAt (sS (gR (5 : W64) (7 : W64))) g0 (gR (5 : W64) (7 : W64)) ∧
    (sS (gR (5 : W64) (7 : W64))).sampler ((sS (gR (5 : W64) (7 : W64))).teamRefOf g0) = none :=
  ⟨(by unfold ScalarAt; decide +kernel), (by unfold ScalarAt; decide +kernel)⟩

theorem meets_JoinResults :
    -- JoinResults (sB' (gJ 8) (tmJ none)) g0 (gJ 8) .dyn 1 2 (tmJ none) ⟨9, none, false⟩
    (ScalarAt (sB' (gJ (8 : W64)) (tmJ none)) g0 (gJ (8 : W64)) ∧
    g0.isHandler = false ∧
    (sB' (gJ (8 : W64)) (tmJ none)).team g0.team = some (tmJ none) ∧
    (∀ (k : Child), k ∈ (tmJ none).children → k.handle ≠ (gJ (8 : W64)).sreg (1 : SReg)) ∧
    -- JoinResults (sB' (gJ 9) (tmJ none)) g0 (gJ 9) .dyn 1 2 (tmJ none) ⟨9, none, false⟩
    ScalarAt (sB' (gJ (9 : W64)) (tmJ none)) g0 (gJ (9 : W64)) ∧
    (sB' (gJ (9 : W64)) (tmJ none)).team g0.team = some (tmJ none) ∧
    (List.find? (fun k => k.handle == (gJ (9 : W64)).sreg (1 : SReg)) (tmJ none).children = some
      { handle := (9 : W64), grid := none, joined := false : Child }) ∧
    { handle := (9 : W64), grid := none, joined := false : Child }.grid = none ∧
    -- JoinResults (sJ grid0) g0 (gJ 9) .dyn 1 2 (tmJ (some 4)) ⟨9, some 4, false⟩
    ScalarAt (sJ grid0) g0 (gJ (9 : W64)) ∧
    (sJ grid0).team g0.team = some (tmJ (some 4)) ∧
    (List.find? (fun k => k.handle == (gJ (9 : W64)).sreg (1 : SReg)) (tmJ (some 4)).children = some
      { handle := (9 : W64), grid := some 4, joined := false : Child }) ∧
    { handle := (9 : W64), grid := some 4, joined := false : Child }.grid = some 4 ∧
    (sJ grid0).grid 4 = some grid0 ∧
    grid0.complete = false) ∧
    -- JoinResults (sJ {grid0 with complete := true, status := .done}) g0 (gJ 9) .dyn 1 2 (tmJ (some 4)) ⟨9, some 4, false⟩
    (ScalarAt (sJ { grid0 with complete := true, status := GridStatus.done }) g0 (gJ (9 : W64)) ∧
    (sJ { grid0 with complete := true, status := GridStatus.done }).team g0.team = some (tmJ (some 4)) ∧
    (sJ { grid0 with complete := true, status := GridStatus.done }).grid 4 = some gridW2 ∧
    gridW2.complete = true ∧
    gridW2.status = GridStatus.done ∧
    -- JoinResults (sJ {grid0 with complete := true, status := .killed}) g0 (gJ 9) .dyn 1 2 (tmJ (some 4)) ⟨9, some 4, false⟩
    ScalarAt (sJ { grid0 with complete := true, status := GridStatus.killed }) g0 (gJ (9 : W64)) ∧
    (sJ { grid0 with complete := true, status := GridStatus.killed }).team g0.team = some (tmJ (some 4)) ∧
    (sJ { grid0 with complete := true, status := GridStatus.killed }).grid 4 = some gridW3 ∧
    gridW3.complete = true ∧
    gridW3.status = GridStatus.killed ∧
    -- JoinResults (sJ {grid0 with complete := true, status := .faulted 3 .quota}) g0 (gJ 9) .dyn 1 2 (tmJ (some 4)) ⟨9, some…
    ScalarAt (sJ { grid0 with complete := true, status := GridStatus.faulted 3 Cause.quota }) g0 (gJ (9 : W64)) ∧
    (sJ { grid0 with complete := true, status := GridStatus.faulted 3 Cause.quota }).team g0.team = some (tmJ (some 4)) ∧
    (sJ { grid0 with complete := true, status := GridStatus.faulted 3 Cause.quota }).grid 4 = some gridW4 ∧
    gridW4.complete = true ∧
    gridW4.status = GridStatus.faulted 3 Cause.quota ∧
    -- (JoinResults sJg g0 (gJ 9) .dyn 1 2 (tmJ (some 4)) ⟨9, some 4, false⟩).2 |>.2.1 4
    ScalarAt sJg g0 (gJ (9 : W64))) ∧
    sJg.team g0.team = some (tmJ (some 4)) ∧
    sJg.grid 4 = none :=
  ⟨(by unfold ScalarAt; decide +kernel), (by unfold ScalarAt; decide +kernel), by decide +kernel⟩

theorem meets_TrapEntry :
    -- TrapEntry (sS gr0) g0 gr0 tm0 (trp .quota)
    (∀ (n : Nat) (d : SReg), gr0.waitS ≠ some (Wait.specialise n d)) ∧
    ((sS gr0).group g0 = some gr0 ∧
    (sS gr0).team g0.team = some tm0 ∧
    g0.isHandler = false ∧
    gr0.mx = [] ∧
    tm0.region gr0.role = none ∧
    (trp Cause.quota).cause ≠ Cause.hold ∧
    gr0.waitS ≠ some Wait.spill ∧
    gr0.out = [] ∧
    tm0.parkWanted = none ∧
    tm0.handler = (0 : W64) ∧
    (trp Cause.quota).cause ∈ [Cause.translation, Cause.watchpoint, Cause.breakpoint, Cause.trapInsn, Cause.quota] ∧
    ((sS gr0).stopGroup g0).group g0 = some gr0.halted ∧
    gr0.halted.unitCount = 0 ∧
    ((sS gr0).drain g0).group g0 = some gr0 ∧
    gr0.unitCount = 0) ∧
    -- (TrapEntry (sS gWin) g0 gWin tm0 (trp .illegal)).2.1 (((sS gWin).stopGroup g0).group g0 |>.getD gWin)
    (∀ (n : Nat) (d : SReg), gWin.waitS ≠ some (Wait.specialise n d)) ∧
    ((sS gWin).group g0 = some gWin ∧
    (sS gWin).team g0.team = some tm0 ∧
    gWin.mx = [] ∧
    tm0.region gWin.role = none ∧
    gWin.waitS ≠ some Wait.spill ∧
    ((sS gWin).stopGroup g0).group g0 = some ((((sS gWin).stopGroup g0).group g0).getD gWin) ∧
    ((((sS gWin).stopGroup g0).group g0).getD gWin).unitCount ≠ 0) ∧
    -- TrapEntry (sS gr0) g0 gr0 tm0 (trp .illegal)
    (trp Cause.illegal).cause ≠ Cause.hold ∧
    ¬(trp Cause.illegal).cause ∈ [Cause.translation, Cause.watchpoint, Cause.breakpoint, Cause.trapInsn, Cause.quota] ∧
    -- TrapEntry (sB' gr0 {tm0 with handler := 0x9000}) g0 gr0 {tm0 with handler := 0x9000} (trp .illegal)
    (sB' gr0 { tm0 with handler := (36864 : W64) }).group g0 = some gr0 ∧
    (sB' gr0 { tm0 with handler := (36864 : W64) }).team g0.team = some { tm0 with handler := (36864 : W64) } ∧
    { tm0 with handler := (36864 : W64) }.region gr0.role = none ∧
    { tm0 with handler := (36864 : W64) }.parkWanted = none ∧
    { tm0 with handler := (36864 : W64) }.handler ≠ (0 : W64) ∧
    ((sB' gr0 { tm0 with handler := (36864 : W64) }).stopGroup g0).group g0 = some gr0.halted ∧
    ((sB' gr0 { tm0 with handler := (36864 : W64) }).drain g0).group g0 = some gr0 ∧
    -- (TrapEntry (sB' gr0 (tmW 1)) g0 gr0 (tmW 1) (trp .illegal)).1
    (sB' gr0 (tmW 1)).group g0 = some gr0 ∧
    (sB' gr0 (tmW 1)).team g0.team = some (tmW 1) ∧
    (tmW 1).region gr0.role = none ∧
    (tmW 1).parkWanted.isSome = true ∧
    -- (TrapEntry (sS gWin) g0 gWin tm0 (trp .illegal)).2.2 (((sS gWin).drain g0).group g0 |>.getD gWin)
    ((sS gWin).drain g0).group g0 = some ((((sS gWin).drain g0).group g0).getD gWin) ∧
    ((((sS gWin).drain g0).group g0).getD gWin).unitCount ≠ 0 :=
  ⟨(fun _ _ h => nomatch h), by decide +kernel, (fun _ _ h => nomatch h), by decide +kernel, by decide +kernel⟩

theorem meets_TrapWordResults :
    -- TrapWordResults (sS gr0) g0 gr0 .dyn 63
    ScalarAt (sS gr0) g0 gr0 ∧
    gr0.skipS.nop = false ∧
    -- TrapWordResults (sS {gr0 with skipS := ⟨true,true,true⟩}) g0 {gr0 with skipS := ⟨true,true,true⟩} .dyn 63
    ScalarAt (sS { gr0 with skipS := { nop := true, bp := true, wp := true : Skip } }) g0
      { gr0 with skipS := { nop := true, bp := true, wp := true : Skip } } ∧
    { gr0 with skipS := { nop := true, bp := true, wp := true : Skip } }.skipS.nop = true :=
  by unfold ScalarAt; decide +kernel

theorem meets_TrapCauseWord :
    -- hx : Sys2Proof.TrapCauseWord
    Cause.hold.code = Cause.hold.code :=
  by decide +kernel

theorem meets_HandlerReadWrite_1 :
    -- HandlerReadWrite (sH (sel 0 3 0) 9 tgT) hg (gH (sel 0 3 0) 9) actH t0 tm0 1 2 g0 tgT 0 3 0
    (HandlerAt (sH (sel 0 3 0) (9 : W64) tgT) hg (gH (sel 0 3 0) (9 : W64)) actH t0 tm0 (1 : SReg) g0 tgT ∧
    BitVec.toNat ((gH (sel 0 3 0) (9 : W64)).sreg (1 : SReg)) / 2 ^ 31 = 0 ∧
    tgT.status = GStatus.trapped ∧
    0 = BitVec.toNat ((gH (sel 0 3 0) (9 : W64)).sreg (1 : SReg)) / 2 ^ 8 % 16 ∧
    3 = BitVec.toNat ((gH (sel 0 3 0) (9 : W64)).sreg (1 : SReg)) / 2 ^ 12 % 4096 ∧
    0 = BitVec.toNat ((gH (sel 0 3 0) (9 : W64)).sreg (1 : SReg)) / 2 ^ 24 % 32 ∧
    0 < 3 ∧
    3 < 64) ∧
    -- HandlerReadWrite (sH (sel 0 0 0) 9 tgT) hg (gH (sel 0 0 0) 9) actH t0 tm0 1 2 g0 tgT 0 0 0
    (HandlerAt (sH (sel 0 0 0) (9 : W64) tgT) hg (gH (sel 0 0 0) (9 : W64)) actH t0 tm0 (1 : SReg) g0 tgT ∧
    BitVec.toNat ((gH (sel 0 0 0) (9 : W64)).sreg (1 : SReg)) / 2 ^ 31 = 0 ∧
    0 = BitVec.toNat ((gH (sel 0 0 0) (9 : W64)).sreg (1 : SReg)) / 2 ^ 8 % 16 ∧
    0 = BitVec.toNat ((gH (sel 0 0 0) (9 : W64)).sreg (1 : SReg)) / 2 ^ 12 % 4096 ∧
    0 = BitVec.toNat ((gH (sel 0 0 0) (9 : W64)).sreg (1 : SReg)) / 2 ^ 24 % 32) ∧
    -- HandlerReadWrite (sH (sel 1 7 0) 9 tgT) hg (gH (sel 1 7 0) 9) actH t0 tm0 1 2 g0 tgT 1 7 0
    (HandlerAt (sH (sel 1 7 0) (9 : W64) tgT) hg (gH (sel 1 7 0) (9 : W64)) actH t0 tm0 (1 : SReg) g0 tgT ∧
    BitVec.toNat ((gH (sel 1 7 0) (9 : W64)).sreg (1 : SReg)) / 2 ^ 31 = 0 ∧
    1 = BitVec.toNat ((gH (sel 1 7 0) (9 : W64)).sreg (1 : SReg)) / 2 ^ 8 % 16 ∧
    7 = BitVec.toNat ((gH (sel 1 7 0) (9 : W64)).sreg (1 : SReg)) / 2 ^ 12 % 4096 ∧
    0 = BitVec.toNat ((gH (sel 1 7 0) (9 : W64)).sreg (1 : SReg)) / 2 ^ 24 % 32 ∧
    7 < 8) ∧
    -- HandlerReadWrite (sH (sel 2 15 0) 9 tgT) hg (gH (sel 2 15 0) 9) actH t0 tm0 1 2 g0 tgT 2 15 0
    (HandlerAt (sH (sel 2 15 0) (9 : W64) tgT) hg (gH (sel 2 15 0) (9 : W64)) actH t0 tm0 (1 : SReg) g0 tgT ∧
    BitVec.toNat ((gH (sel 2 15 0) (9 : W64)).sreg (1 : SReg)) / 2 ^ 31 = 0 ∧
    2 = BitVec.toNat ((gH (sel 2 15 0) (9 : W64)).sreg (1 : SReg)) / 2 ^ 8 % 16 ∧
    15 = BitVec.toNat ((gH (sel 2 15 0) (9 : W64)).sreg (1 : SReg)) / 2 ^ 12 % 4096 ∧
    0 = BitVec.toNat ((gH (sel 2 15 0) (9 : W64)).sreg (1 : SReg)) / 2 ^ 24 % 32 ∧
    15 < 16) ∧
    -- HandlerReadWrite (sH (sel 3 7 0) 9 tgT) hg (gH (sel 3 7 0) 9) actH t0 tm0 1 2 g0 tgT 3 7 0
    (HandlerAt (sH (sel 3 7 0) (9 : W64) tgT) hg (gH (sel 3 7 0) (9 : W64)) actH t0 tm0 (1 : SReg) g0 tgT ∧
    BitVec.toNat ((gH (sel 3 7 0) (9 : W64)).sreg (1 : SReg)) / 2 ^ 31 = 0 ∧
    3 = BitVec.toNat ((gH (sel 3 7 0) (9 : W64)).sreg (1 : SReg)) / 2 ^ 8 % 16 ∧
    7 = BitVec.toNat ((gH (sel 3 7 0) (9 : W64)).sreg (1 : SReg)) / 2 ^ 12 % 4096 ∧
    0 = BitVec.toNat ((gH (sel 3 7 0) (9 : W64)).sreg (1 : SReg)) / 2 ^ 24 % 32) ∧
    -- HandlerReadWrite (sH (sel 4 1 0) 9 tgT) hg (gH (sel 4 1 0) 9) actH t0 tm0 1 2 g0 tgT 4 1 0
    HandlerAt (sH (sel 4 1 0) (9 : W64) tgT) hg (gH (sel 4 1 0) (9 : W64)) actH t0 tm0 (1 : SReg) g0 tgT ∧
    BitVec.toNat ((gH (sel 4 1 0) (9 : W64)).sreg (1 : SReg)) / 2 ^ 31 = 0 ∧
    4 = BitVec.toNat ((gH (sel 4 1 0) (9 : W64)).sreg (1 : SReg)) / 2 ^ 8 % 16 ∧
    1 = BitVec.toNat ((gH (sel 4 1 0) (9 : W64)).sreg (1 : SReg)) / 2 ^ 12 % 4096 ∧
    0 = BitVec.toNat ((gH (sel 4 1 0) (9 : W64)).sreg (1 : SReg)) / 2 ^ 24 % 32 ∧
    1 < 8 :=
  ⟨(by unfold HandlerAt ScalarAt; decide +kernel), (by unfold HandlerAt ScalarAt; decide +kernel),
    (by unfold HandlerAt ScalarAt; decide +kernel), (by unfold HandlerAt ScalarAt; decide +kernel),
    (by unfold HandlerAt ScalarAt; decide +kernel), (by unfold HandlerAt ScalarAt; decide +kernel)⟩

theorem meets_HandlerReadWrite_2 :
    -- HandlerReadWrite (sH (sel 5 63 31) 9 tgT) hg (gH (sel 5 63 31) 9) actH t0 tm0 1 2 g0 tgT 5 63 31
    (HandlerAt (sH (sel 5 63 31) (9 : W64) tgT) hg (gH (sel 5 63 31) (9 : W64)) actH t0 tm0 (1 : SReg) g0 tgT ∧
    BitVec.toNat ((gH (sel 5 63 31) (9 : W64)).sreg (1 : SReg)) / 2 ^ 31 = 0 ∧
    5 = BitVec.toNat ((gH (sel 5 63 31) (9 : W64)).sreg (1 : SReg)) / 2 ^ 8 % 16 ∧
    63 = BitVec.toNat ((gH (sel 5 63 31) (9 : W64)).sreg (1 : SReg)) / 2 ^ 12 % 4096 ∧
    31 = BitVec.toNat ((gH (sel 5 63 31) (9 : W64)).sreg (1 : SReg)) / 2 ^ 24 % 32 ∧
    63 < tgT.allot ∧
    tgT.remap = laneList) ∧
    -- HandlerReadWrite (sH (sel 7 0 0) 9 tgT) hg (gH (sel 7 0 0) 9) actH t0 tm0 1 2 g0 tgT 7 0 0
    (HandlerAt (sH (sel 7 0 0) (9 : W64) tgT) hg (gH (sel 7 0 0) (9 : W64)) actH t0 tm0 (1 : SReg) g0 tgT ∧
    BitVec.toNat ((gH (sel 7 0 0) (9 : W64)).sreg (1 : SReg)) / 2 ^ 31 = 0 ∧
    7 = BitVec.toNat ((gH (sel 7 0 0) (9 : W64)).sreg (1 : SReg)) / 2 ^ 8 % 16 ∧
    0 = BitVec.toNat ((gH (sel 7 0 0) (9 : W64)).sreg (1 : SReg)) / 2 ^ 12 % 4096 ∧
    0 = BitVec.toNat ((gH (sel 7 0 0) (9 : W64)).sreg (1 : SReg)) / 2 ^ 24 % 32) ∧
    -- HandlerReadWrite (sH (sel 7 1 0) 9 tgT) hg (gH (sel 7 1 0) 9) actH t0 tm0 1 2 g0 tgT 7 1 0
    (HandlerAt (sH (sel 7 1 0) (9 : W64) tgT) hg (gH (sel 7 1 0) (9 : W64)) actH t0 tm0 (1 : SReg) g0 tgT ∧
    BitVec.toNat ((gH (sel 7 1 0) (9 : W64)).sreg (1 : SReg)) / 2 ^ 31 = 0 ∧
    7 = BitVec.toNat ((gH (sel 7 1 0) (9 : W64)).sreg (1 : SReg)) / 2 ^ 8 % 16 ∧
    1 = BitVec.toNat ((gH (sel 7 1 0) (9 : W64)).sreg (1 : SReg)) / 2 ^ 12 % 4096 ∧
    0 = BitVec.toNat ((gH (sel 7 1 0) (9 : W64)).sreg (1 : SReg)) / 2 ^ 24 % 32) ∧
    -- HandlerReadWrite (sH (sel 7 2 0) 9 tgT) hg (gH (sel 7 2 0) 9) actH t0 tm0 1 2 g0 tgT 7 2 0
    (HandlerAt (sH (sel 7 2 0) (9 : W64) tgT) hg (gH (sel 7 2 0) (9 : W64)) actH t0 tm0 (1 : SReg) g0 tgT ∧
    BitVec.toNat ((gH (sel 7 2 0) (9 : W64)).sreg (1 : SReg)) / 2 ^ 31 = 0 ∧
    7 = BitVec.toNat ((gH (sel 7 2 0) (9 : W64)).sreg (1 : SReg)) / 2 ^ 8 % 16 ∧
    2 = BitVec.toNat ((gH (sel 7 2 0) (9 : W64)).sreg (1 : SReg)) / 2 ^ 12 % 4096 ∧
    0 = BitVec.toNat ((gH (sel 7 2 0) (9 : W64)).sreg (1 : SReg)) / 2 ^ 24 % 32) ∧
    -- HandlerReadWrite (sH (sel 7 3 0) 9 tgT) hg (gH (sel 7 3 0) 9) actH t0 tm0 1 2 g0 tgT 7 3 0
    (HandlerAt (sH (sel 7 3 0) (9 : W64) tgT) hg (gH (sel 7 3 0) (9 : W64)) actH t0 tm0 (1 : SReg) g0 tgT ∧
    BitVec.toNat ((gH (sel 7 3 0) (9 : W64)).sreg (1 : SReg)) / 2 ^ 31 = 0 ∧
    7 = BitVec.toNat ((gH (sel 7 3 0) (9 : W64)).sreg (1 : SReg)) / 2 ^ 8 % 16 ∧
    3 = BitVec.toNat ((gH (sel 7 3 0) (9 : W64)).sreg (1 : SReg)) / 2 ^ 12 % 4096 ∧
    0 = BitVec.toNat ((gH (sel 7 3 0) (9 : W64)).sreg (1 : SReg)) / 2 ^ 24 % 32) ∧
    -- HandlerReadWrite (sH (sel 7 9 0) 9 tgT) hg (gH (sel 7 9 0) 9) actH t0 tm0 1 2 g0 tgT 7 9 0
    (HandlerAt (sH (sel 7 9 0) (9 : W64) tgT) hg (gH (sel 7 9 0) (9 : W64)) actH t0 tm0 (1 : SReg) g0 tgT ∧
    BitVec.toNat ((gH (sel 7 9 0) (9 : W64)).sreg (1 : SReg)) / 2 ^ 31 = 0 ∧
    7 = BitVec.toNat ((gH (sel 7 9 0) (9 : W64)).sreg (1 : SReg)) / 2 ^ 8 % 16 ∧
    9 = BitVec.toNat ((gH (sel 7 9 0) (9 : W64)).sreg (1 : SReg)) / 2 ^ 12 % 4096 ∧
    0 = BitVec.toNat ((gH (sel 7 9 0) (9 : W64)).sreg (1 : SReg)) / 2 ^ 24 % 32 ∧
    tgT.trap = some trapW1) ∧
    -- HandlerReadWrite (sH (sel 7 8 0) 2 tgT) hg (gH (sel 7 8 0) 2) actH t0 tm0 1 2 g0 tgT 7 8 0
    HandlerAt (sH (sel 7 8 0) (2 : W64) tgT) hg (gH (sel 7 8 0) (2 : W64)) actH t0 tm0 (1 : SReg) g0 tgT ∧
    BitVec.toNat ((gH (sel 7 8 0) (2 : W64)).sreg (1 : SReg)) / 2 ^ 31 = 0 ∧
    7 = BitVec.toNat ((gH (sel 7 8 0) (2 : W64)).sreg (1 : SReg)) / 2 ^ 8 % 16 ∧
    8 = BitVec.toNat ((gH (sel 7 8 0) (2 : W64)).sreg (1 : SReg)) / 2 ^ 12 % 4096 ∧
    0 = BitVec.toNat ((gH (sel 7 8 0) (2 : W64)).sreg (1 : SReg)) / 2 ^ 24 % 32 ∧
    (gH (sel 7 8 0) (2 : W64)).sreg (2 : SReg) = (2 : W64) :=
  ⟨(by unfold HandlerAt ScalarAt; decide +kernel), (by unfold HandlerAt ScalarAt; decide +kernel),
    (by unfold HandlerAt ScalarAt; decide +kernel), (by unfold HandlerAt ScalarAt; decide +kernel),
    (by unfold HandlerAt ScalarAt; decide +kernel), (by unfold HandlerAt ScalarAt; decide +kernel),
    (by unfold HandlerAt ScalarAt; decide +kernel)⟩

theorem meets_HandlerReadWrite_3 :
    -- HandlerReadWrite (sH (sel 7 8 0) 9 tgT) hg (gH (sel 7 8 0) 9) actH t0 tm0 1 2 g0 tgT 7 8 0
    HandlerAt (sH (sel 7 8 0) (9 : W64) tgT) hg (gH (sel 7 8 0) (9 : W64)) actH t0 tm0 (1 : SReg) g0 tgT ∧
    BitVec.toNat ((gH (sel 7 8 0) (9 : W64)).sreg (1 : SReg)) / 2 ^ 31 = 0 ∧
    7 = BitVec.toNat ((gH (sel 7 8 0) (9 : W64)).sreg (1 : SReg)) / 2 ^ 8 % 16 ∧
    8 = BitVec.toNat ((gH (sel 7 8 0) (9 : W64)).sreg (1 : SReg)) / 2 ^ 12 % 4096 ∧
    0 = BitVec.toNat ((gH (sel 7 8 0) (9 : W64)).sreg (1 : SReg)) / 2 ^ 24 % 32 ∧
    (gH (sel 7 8 0) (9 : W64)).sreg (2 : SReg) ≠ (2 : W64) :=
  by unfold HandlerAt ScalarAt; decide +kernel

theorem meets_HandlerResumeKillPark :
    -- HandlerResumeKillPark (sH 0 0 tgT) hg (gH 0 0) actH t0 tm0 1 g0 tgT
    (HandlerAt (sH (0 : W64) (0 : W64) tgT) hg (gH (0 : W64) (0 : W64)) actH t0 tm0 (1 : SReg) g0 tgT ∧
    actH.slot < 16 ∧
    g0.gid < 32 ∧
    actH.gid < 32 ∧
    tgT.status = GStatus.trapped ∧
    BitVec.toNat ((gH (0 : W64) (0 : W64)).sreg (1 : SReg)) / 2 ^ 31 = 0 ∧
    tgT.caused = some Cause.illegal ∧
    (gH (0 : W64) (0 : W64)).out = [] ∧
    (∀ (u : UPart), u ∈ (sH (0 : W64) (0 : W64) tgT).upart → ¬hg ∈ u.owners) ∧
    (sH (0 : W64) (0 : W64) tgT).group (t0.group actH.gid) = some tgT) ∧
    ((tgT.status = GStatus.exited → tgT.eng = []) ∧
    -- HandlerResumeKillPark (sH 0 0 tgE) hg (gH 0 0) actH t0 tm0 1 g0 tgE
    HandlerAt (sH (0 : W64) (0 : W64) tgE) hg (gH (0 : W64) (0 : W64)) actH t0 tm0 (1 : SReg) g0 tgE ∧
    tgE.status ≠ GStatus.trapped ∧
    tgE.status ≠ GStatus.exited ∧
    tgE.caused = none ∧
    (∀ (u : UPart), u ∈ (sH (0 : W64) (0 : W64) tgE).upart → ¬hg ∈ u.owners) ∧
    (sH (0 : W64) (0 : W64) tgE).group (t0.group actH.gid) = some tgE ∧
    (tgE.status = GStatus.exited → tgE.eng = [])) ∧
    -- HandlerResumeKillPark (sH 0x80000000 0 tgT) hg (gH 0x80000000 0) actH t0 tm0 1 g0 tgT
    (HandlerAt (sH (2147483648 : W64) (0 : W64) tgT) hg (gH (2147483648 : W64) (0 : W64)) actH t0 tm0 (1 : SReg) g0 tgT ∧
    (gH (2147483648 : W64) (0 : W64)).out = [] ∧
    (∀ (u : UPart), u ∈ (sH (2147483648 : W64) (0 : W64) tgT).upart → ¬hg ∈ u.owners) ∧
    BitVec.toNat ((gH (2147483648 : W64) (0 : W64)).sreg (1 : SReg)) / 2 ^ 31 = 1 ∧
    (sH (2147483648 : W64) (0 : W64) tgT).group (t0.group actH.gid) = some tgT) ∧
    -- (HandlerResumeKillPark sHf hg gHf actH t0 tm0 1 g0 tgT).2.2.2.2.1 (((sHf.drain hg).group hg).getD gHf)
    HandlerAt sHf hg gHf actH t0 tm0 (1 : SReg) g0 tgT ∧
    (sHf.drain hg).group hg = some (((sHf.drain hg).group hg).getD gHf) ∧
    (((sHf.drain hg).group hg).getD gHf).unitCount ≠ 0 ∧
    BitVec.toNat (gHf.sreg (1 : SReg)) / 2 ^ 31 = 1 :=
  ⟨(by unfold HandlerAt ScalarAt; decide +kernel), (by unfold HandlerAt ScalarAt; decide +kernel),
    (by unfold HandlerAt ScalarAt; decide +kernel), (by unfold HandlerAt ScalarAt; decide +kernel)⟩

theorem meets_HandlerWordsElsewhere :
    -- HandlerWordsElsewhere (sS gr0) g0 gr0 1 2 .hpark
    ScalarAt (sS gr0) g0 gr0 ∧
    g0.isHandler = false ∧
    Instr.hpark ∈ [Instr.hread (1 : SReg) (2 : SReg), Instr.hwrite (1 : SReg) (2 : SReg), Instr.hresume (1 : SReg), Instr.hkill
      (1 : SReg), Instr.hpark, Instr.eret] :=
  by unfold ScalarAt; decide +kernel

theorem meets_FabricRequestResults_1 :
    -- ((FabricRequestResults.1 (sF ((rq 0x100 4 0 0 5).take 13 ++ [2, 9])) (arS (sF ((rq 0x100 4 0 0 5).take 13 ++ [2, 9])) …
    RequestArrives (sF (List.take 13 (rq 256 4 0 0 5) ++ [2, 9])) 1 (rqS (sF (List.take 13 (rq 256 4 0 0 5) ++ [2, 9])) 1) (arS
      (sF (List.take 13 (rq 256 4 0 0 5) ++ [2, 9])) 1).fst (arS (sF (List.take 13 (rq 256 4 0 0 5) ++ [2, 9])) 1).snd ∧
    ((1, Instr.fabricRead, 129) ∈ [(1, Instr.fabricRead, 129), (2, Instr.fabricWrite, 130), (3, Instr.fabricAtomic, 131), (4,
      Instr.fabricAtomicNoReturn, 130)] ∧
    NoObjectWaits (arS (sF (List.take 13 (rq 256 4 0 0 5) ++ [2, 9])) 1).snd ∧
    PlainHomes (arS (sF (List.take 13 (rq 256 4 0 0 5) ++ [2, 9])) 1).snd ∧
    (arS (sF (List.take 13 (rq 256 4 0 0 5) ++ [2, 9])) 1).fst = none) ∧
    -- ((((FabricRequestResults.1 sNJ (arS sNJ 1).2 1 (rqS sNJ 1) (arS sNJ 1).1 .fabricRead 0x81)).2 (rqS sNJ 1))).1
    RequestArrives sNJ 1 (rqS sNJ 1) (arS sNJ 1).fst (arS sNJ 1).snd ∧
    (NoObjectWaits (arS sNJ 1).snd ∧
    PlainHomes (arS sNJ 1).snd ∧
    (arS sNJ 1).fst = some (rqS sNJ 1).pkt ∧
    ((arS sNJ 1).snd.ctl.joined = false ∨ (arS sNJ 1).snd.lost.contains (rqS sNJ 1).pkt.src = true)) ∧
    -- ((((FabricRequestResults.1 sFk (arS sFk 1).2 1 (rqS sFk 1) (arS sFk 1).1 .fabricRead 0x81)).2 (rqS sFk 1))).2.1 kp
    RequestArrives sFk 1 (rqS sFk 1) (arS sFk 1).fst (arS sFk 1).snd ∧
    (NoObjectWaits (arS sFk 1).snd ∧
    PlainHomes (arS sFk 1).snd ∧
    (arS sFk 1).fst = some (rqS sFk 1).pkt ∧
    (arS sFk 1).snd.ctl.joined = true ∧
    (arS sFk 1).snd.lost.contains (rqS sFk 1).pkt.src = false ∧
    (arS sFk 1).snd.keptFor (rqS sFk 1).pkt = some kp) ∧
    -- ((((FabricRequestResults.1 (sF (rq 0x100 4 0 0 6)) (arS (sF (rq 0x100 4 0 0 6)) 1).2 1 (rqS (sF (rq 0x100 4 0 0 6)) 1)…
    RequestArrives (sF (rq 256 4 0 0 6)) 1 (rqS (sF (rq 256 4 0 0 6)) 1) (arS (sF (rq 256 4 0 0 6)) 1).fst (arS (sF (rq 256 4 0
      0 6)) 1).snd ∧
    (NoObjectWaits (arS (sF (rq 256 4 0 0 6)) 1).snd ∧
    PlainHomes (arS (sF (rq 256 4 0 0 6)) 1).snd ∧
    (arS (sF (rq 256 4 0 0 6)) 1).fst = some (rqS (sF (rq 256 4 0 0 6)) 1).pkt ∧
    (arS (sF (rq 256 4 0 0 6)) 1).snd.keptFor (rqS (sF (rq 256 4 0 0 6)) 1).pkt = none ∧
    ((arS (sF (rq 256 4 0 0 6)) 1).snd.inProgress (rqS (sF (rq 256 4 0 0 6)) 1).pkt = true ∨ (aget (arS (sF (rq 256 4 0 0 6))
      1).snd.fabIn ((rqS (sF (rq 256 4 0 0 6)) 1).pkt.src * 2 + (rqS (sF (rq 256 4 0 0 6)) 1).die)).getD 0 ≠ (rqS (sF (rq 256 4
      0 0 6)) 1).pkt.seq)) ∧
    -- ((((((FabricRequestResults.1 (sF (rq 0x1100 4 0 0 5)) (arS (sF (rq 0x1100 4 0 0 5)) 1).2 1 (rqS (sF (rq 0x1100 4 0 0 5…
    RequestArrives (sF (rq 4352 4 0 0 5)) 1 (rqS (sF (rq 4352 4 0 0 5)) 1) (arS (sF (rq 4352 4 0 0 5)) 1).fst (arS (sF (rq 4352
      4 0 0 5)) 1).snd ∧
    (NoObjectWaits (arS (sF (rq 4352 4 0 0 5)) 1).snd ∧
    PlainHomes (arS (sF (rq 4352 4 0 0 5)) 1).snd ∧
    (arS (sF (rq 4352 4 0 0 5)) 1).fst = some (rqS (sF (rq 4352 4 0 0 5)) 1).pkt ∧
    ItsTurn (arS (sF (rq 4352 4 0 0 5)) 1).snd (rqS (sF (rq 4352 4 0 0 5)) 1) ∧
    (arS (sF (rq 4352 4 0 0 5)) 1).snd.window (rqS (sF (rq 4352 4 0 0 5)) 1).pkt.ctx (rqS (sF (rq 4352 4 0 0 5)) 1).pkt.offset
      (rqS (sF (rq 4352 4 0 0 5)) 1).bytes ((rqS (sF (rq 4352 4 0 0 5)) 1).pkt.opc != 2) ((rqS (sF (rq 4352 4 0 0 5))
      1).pkt.opc != 1) = (((winS (sF (rq 4352 4 0 0 5)) 1).fst.fst, (winS (sF (rq 4352 4 0 0 5)) 1).fst.snd), (winS (sF (rq
      4352 4 0 0 5)) 1).snd) ∧
    (winS (sF (rq 4352 4 0 0 5)) 1).snd.fabOut = (arS (sF (rq 4352 4 0 0 5)) 1).snd.fabOut ∧
    (winS (sF (rq 4352 4 0 0 5)) 1).snd.clock = (arS (sF (rq 4352 4 0 0 5)) 1).snd.clock ∧
    (winS (sF (rq 4352 4 0 0 5)) 1).snd.ctl = (arS (sF (rq 4352 4 0 0 5)) 1).snd.ctl ∧
    (winS (sF (rq 4352 4 0 0 5)) 1).snd.fto = (arS (sF (rq 4352 4 0 0 5)) 1).snd.fto ∧
    (winS (sF (rq 4352 4 0 0 5)) 1).snd.mem = (arS (sF (rq 4352 4 0 0 5)) 1).snd.mem ∧
    PlainHomes (winS (sF (rq 4352 4 0 0 5)) 1).snd) ∧
    NoObjectWaits (winS (sF (rq 4352 4 0 0 5)) 1).snd ∧
    (winS (sF (rq 4352 4 0 0 5)) 1).fst.snd = none :=
  ⟨⟨_, rfl, rfl⟩, (by unfold NoObjectWaits PlainHomes; decide +kernel), ⟨_, rfl, rfl⟩,
    (by unfold NoObjectWaits PlainHomes; decide +kernel), ⟨_, rfl, rfl⟩, (by unfold NoObjectWaits PlainHomes; decide +kernel),
    ⟨_, rfl, rfl⟩, (by unfold NoObjectWaits PlainHomes; decide +kernel), ⟨_, rfl, rfl⟩,
    (by unfold ItsTurn NoObjectWaits PlainHomes; decide +kernel), (by unfold NoObjectWaits; decide +kernel)⟩

theorem meets_FabricRequestResults_2 :
    -- ((((((FabricRequestResults.1 {sF (rq 0x100 4 0 0 5) with migrations := [⟨0x40000, 0x50000, 0x10000, 1, 0x40000⟩]} (arS…
    RequestArrives
      { sF (rq 256 4 0 0 5) with migrations := [{ old := 262144, new := 327680, bytes := 65536, ctx := 1, va := 262144 : Migration }] }
      2 (rqS
      { sF (rq 256 4 0 0 5) with migrations := [{ old := 262144, new := 327680, bytes := 65536, ctx := 1, va := 262144 : Migration }] }
      2) (arS
      { sF (rq 256 4 0 0 5) with migrations := [{ old := 262144, new := 327680, bytes := 65536, ctx := 1, va := 262144 : Migration }] }
      2).fst (arS
      { sF (rq 256 4 0 0 5) with migrations := [{ old := 262144, new := 327680, bytes := 65536, ctx := 1, va := 262144 : Migration }] }
      2).snd ∧
    ((2, Instr.fabricWrite, 130) ∈ [(1, Instr.fabricRead, 129), (2, Instr.fabricWrite, 130), (3, Instr.fabricAtomic, 131), (4,
      Instr.fabricAtomicNoReturn, 130)] ∧
    NoObjectWaits (arS
      { sF (rq 256 4 0 0 5) with migrations := [{ old := 262144, new := 327680, bytes := 65536, ctx := 1, va := 262144 : Migration }] }
      2).snd ∧
    PlainHomes (arS
      { sF (rq 256 4 0 0 5) with migrations := [{ old := 262144, new := 327680, bytes := 65536, ctx := 1, va := 262144 : Migration }] }
      2).snd ∧
    (arS
      { sF (rq 256 4 0 0 5) with migrations := [{ old := 262144, new := 327680, bytes := 65536, ctx := 1, va := 262144 : Migration }] }
      2).fst = some (rqS
      { sF (rq 256 4 0 0 5) with migrations := [{ old := 262144, new := 327680, bytes := 65536, ctx := 1, va := 262144 : Migration }] }
      2).pkt ∧
    ItsTurn (arS
      { sF (rq 256 4 0 0 5) with migrations := [{ old := 262144, new := 327680, bytes := 65536, ctx := 1, va := 262144 : Migration }] }
      2).snd (rqS
      { sF (rq 256 4 0 0 5) with migrations := [{ old := 262144, new := 327680, bytes := 65536, ctx := 1, va := 262144 : Migration }] }
      2) ∧
    (arS
      { sF (rq 256 4 0 0 5) with migrations := [{ old := 262144, new := 327680, bytes := 65536, ctx := 1, va := 262144 : Migration }] }
      2).snd.window (rqS
      { sF (rq 256 4 0 0 5) with migrations := [{ old := 262144, new := 327680, bytes := 65536, ctx := 1, va := 262144 : Migration }] }
      2).pkt.ctx (rqS
      { sF (rq 256 4 0 0 5) with migrations := [{ old := 262144, new := 327680, bytes := 65536, ctx := 1, va := 262144 : Migration }] }
      2).pkt.offset (rqS
      { sF (rq 256 4 0 0 5) with migrations := [{ old := 262144, new := 327680, bytes := 65536, ctx := 1, va := 262144 : Migration }] }
      2).bytes ((rqS
      { sF (rq 256 4 0 0 5) with migrations := [{ old := 262144, new := 327680, bytes := 65536, ctx := 1, va := 262144 : Migration }] }
      2).pkt.opc != 2) ((rqS
      { sF (rq 256 4 0 0 5) with migrations := [{ old := 262144, new := 327680, bytes := 65536, ctx := 1, va := 262144 : Migration }] }
      2).pkt.opc != 1) = (((winS
      { sF (rq 256 4 0 0 5) with migrations := [{ old := 262144, new := 327680, bytes := 65536, ctx := 1, va := 262144 : Migration }] }
      2).fst.fst, (winS
      { sF (rq 256 4 0 0 5) with migrations := [{ old := 262144, new := 327680, bytes := 65536, ctx := 1, va := 262144 : Migration }] }
      2).fst.snd), (winS
      { sF (rq 256 4 0 0 5) with migrations := [{ old := 262144, new := 327680, bytes := 65536, ctx := 1, va := 262144 : Migration }] }
      2).snd) ∧
    (winS
      { sF (rq 256 4 0 0 5) with migrations := [{ old := 262144, new := 327680, bytes := 65536, ctx := 1, va := 262144 : Migration }] }
      2).snd.fabOut = (arS
      { sF (rq 256 4 0 0 5) with migrations := [{ old := 262144, new := 327680, bytes := 65536, ctx := 1, va := 262144 : Migration }] }
      2).snd.fabOut ∧
    (winS
      { sF (rq 256 4 0 0 5) with migrations := [{ old := 262144, new := 327680, bytes := 65536, ctx := 1, va := 262144 : Migration }] }
      2).snd.clock = (arS
      { sF (rq 256 4 0 0 5) with migrations := [{ old := 262144, new := 327680, bytes := 65536, ctx := 1, va := 262144 : Migration }] }
      2).snd.clock ∧
    (winS
      { sF (rq 256 4 0 0 5) with migrations := [{ old := 262144, new := 327680, bytes := 65536, ctx := 1, va := 262144 : Migration }] }
      2).snd.ctl = (arS
      { sF (rq 256 4 0 0 5) with migrations := [{ old := 262144, new := 327680, bytes := 65536, ctx := 1, va := 262144 : Migration }] }
      2).snd.ctl ∧
    (winS
      { sF (rq 256 4 0 0 5) with migrations := [{ old := 262144, new := 327680, bytes := 65536, ctx := 1, va := 262144 : Migration }] }
      2).snd.fto = (arS
      { sF (rq 256 4 0 0 5) with migrations := [{ old := 262144, new := 327680, bytes := 65536, ctx := 1, va := 262144 : Migration }] }
      2).snd.fto ∧
    (winS
      { sF (rq 256 4 0 0 5) with migrations := [{ old := 262144, new := 327680, bytes := 65536, ctx := 1, va := 262144 : Migration }] }
      2).snd.mem = (arS
      { sF (rq 256 4 0 0 5) with migrations := [{ old := 262144, new := 327680, bytes := 65536, ctx := 1, va := 262144 : Migration }] }
      2).snd.mem ∧
    PlainHomes (winS
      { sF (rq 256 4 0 0 5) with migrations := [{ old := 262144, new := 327680, bytes := 65536, ctx := 1, va := 262144 : Migration }] }
      2).snd) ∧
    (NoObjectWaits (winS
      { sF (rq 256 4 0 0 5) with migrations := [{ old := 262144, new := 327680, bytes := 65536, ctx := 1, va := 262144 : Migration }] }
      2).snd ∧
    2 ≠ 1 ∧
    (winS
      { sF (rq 256 4 0 0 5) with migrations := [{ old := 262144, new := 327680, bytes := 65536, ctx := 1, va := 262144 : Migration }] }
      2).fst.snd = some { pa := 262400, r := true, w := true, x := true, host := false, mor := false : Xl } ∧
    { pa := 262400, r := true, w := true, x := true, host := false, mor := false : Xl }.host = false ∧
    (winS
      { sF (rq 256 4 0 0 5) with migrations := [{ old := 262144, new := 327680, bytes := 65536, ctx := 1, va := 262144 : Migration }] }
      2).snd.unbuilt { pa := 262400, r := true, w := true, x := true, host := false, mor := false : Xl }.pa = false ∧
    (winS
      { sF (rq 256 4 0 0 5) with migrations := [{ old := 262144, new := 327680, bytes := 65536, ctx := 1, va := 262144 : Migration }] }
      2).snd.locked { pa := 262400, r := true, w := true, x := true, host := false, mor := false : Xl }.pa = true) ∧
    -- ((((((FabricRequestResults.1 (sF (rq 0x100 4 0 0 5)) (arS (sF (rq 0x100 4 0 0 5)) 1).2 1 (rqS (sF (rq 0x100 4 0 0 5)) …
    RequestArrives (sF (rq 256 4 0 0 5)) 1 (rqS (sF (rq 256 4 0 0 5)) 1) (arS (sF (rq 256 4 0 0 5)) 1).fst (arS (sF (rq 256 4 0
      0 5)) 1).snd ∧
    (NoObjectWaits (arS (sF (rq 256 4 0 0 5)) 1).snd ∧
    PlainHomes (arS (sF (rq 256 4 0 0 5)) 1).snd ∧
    (arS (sF (rq 256 4 0 0 5)) 1).fst = some (rqS (sF (rq 256 4 0 0 5)) 1).pkt ∧
    ItsTurn (arS (sF (rq 256 4 0 0 5)) 1).snd (rqS (sF (rq 256 4 0 0 5)) 1) ∧
    (arS (sF (rq 256 4 0 0 5)) 1).snd.window (rqS (sF (rq 256 4 0 0 5)) 1).pkt.ctx (rqS (sF (rq 256 4 0 0 5)) 1).pkt.offset
      (rqS (sF (rq 256 4 0 0 5)) 1).bytes ((rqS (sF (rq 256 4 0 0 5)) 1).pkt.opc != 2) ((rqS (sF (rq 256 4 0 0 5)) 1).pkt.opc
      != 1) = (((winS (sF (rq 256 4 0 0 5)) 1).fst.fst, (winS (sF (rq 256 4 0 0 5)) 1).fst.snd), (winS (sF (rq 256 4 0 0 5))
      1).snd) ∧
    (winS (sF (rq 256 4 0 0 5)) 1).snd.fabOut = (arS (sF (rq 256 4 0 0 5)) 1).snd.fabOut ∧
    (winS (sF (rq 256 4 0 0 5)) 1).snd.clock = (arS (sF (rq 256 4 0 0 5)) 1).snd.clock ∧
    (winS (sF (rq 256 4 0 0 5)) 1).snd.ctl = (arS (sF (rq 256 4 0 0 5)) 1).snd.ctl ∧
    (winS (sF (rq 256 4 0 0 5)) 1).snd.fto = (arS (sF (rq 256 4 0 0 5)) 1).snd.fto ∧
    (winS (sF (rq 256 4 0 0 5)) 1).snd.mem = (arS (sF (rq 256 4 0 0 5)) 1).snd.mem ∧
    PlainHomes (winS (sF (rq 256 4 0 0 5)) 1).snd) ∧
    NoObjectWaits (winS (sF (rq 256 4 0 0 5)) 1).snd ∧
    (winS (sF (rq 256 4 0 0 5)) 1).fst.snd = some
      { pa := 262400, r := true, w := true, x := true, host := false, mor := false : Xl } ∧
    (winS (sF (rq 256 4 0 0 5)) 1).snd.unbuilt
      { pa := 262400, r := true, w := true, x := true, host := false, mor := false : Xl }.pa = false ∧
    (winS (sF (rq 256 4 0 0 5)) 1).snd.locked
      { pa := 262400, r := true, w := true, x := true, host := false, mor := false : Xl }.pa = false ∧
    { pa := 262400, r := true, w := true, x := true, host := false, mor := false : Xl }.mor = false ∧
    (1 = 1 ∨ 0 < { pa := 262400, r := true, w := true, x := true, host := false, mor := false : Xl }.pa ∨
      { pa := 262400, r := true, w := true, x := true, host := false, mor := false : Xl }.pa + (rqS (sF (rq 256 4 0 0 5))
      1).bytes ≤ 0) :=
  ⟨⟨_, rfl, rfl⟩, (by unfold ItsTurn NoObjectWaits PlainHomes; decide +kernel), (by unfold NoObjectWaits; decide +kernel),
    ⟨_, rfl, rfl⟩, (by unfold ItsTurn NoObjectWaits PlainHomes; decide +kernel), (by unfold NoObjectWaits; decide +kernel)⟩

theorem meets_FabricRequestResults_3 :
    -- ((((((FabricRequestResults.1 (sF (rq 0x100 4 0 0x99 5)) (arS (sF (rq 0x100 4 0 0x99 5)) 2).2 2 (rqS (sF (rq 0x100 4 0 …
    RequestArrives (sF (rq 256 4 0 153 5)) 2 (rqS (sF (rq 256 4 0 153 5)) 2) (arS (sF (rq 256 4 0 153 5)) 2).fst (arS (sF (rq
      256 4 0 153 5)) 2).snd ∧
    (NoObjectWaits (arS (sF (rq 256 4 0 153 5)) 2).snd ∧
    PlainHomes (arS (sF (rq 256 4 0 153 5)) 2).snd ∧
    (arS (sF (rq 256 4 0 153 5)) 2).fst = some (rqS (sF (rq 256 4 0 153 5)) 2).pkt ∧
    ItsTurn (arS (sF (rq 256 4 0 153 5)) 2).snd (rqS (sF (rq 256 4 0 153 5)) 2) ∧
    (arS (sF (rq 256 4 0 153 5)) 2).snd.window (rqS (sF (rq 256 4 0 153 5)) 2).pkt.ctx (rqS (sF (rq 256 4 0 153 5))
      2).pkt.offset (rqS (sF (rq 256 4 0 153 5)) 2).bytes ((rqS (sF (rq 256 4 0 153 5)) 2).pkt.opc != 2) ((rqS (sF (rq 256 4 0
      153 5)) 2).pkt.opc != 1) = (((winS (sF (rq 256 4 0 153 5)) 2).fst.fst, (winS (sF (rq 256 4 0 153 5)) 2).fst.snd), (winS
      (sF (rq 256 4 0 153 5)) 2).snd) ∧
    (winS (sF (rq 256 4 0 153 5)) 2).snd.fabOut = (arS (sF (rq 256 4 0 153 5)) 2).snd.fabOut ∧
    (winS (sF (rq 256 4 0 153 5)) 2).snd.clock = (arS (sF (rq 256 4 0 153 5)) 2).snd.clock ∧
    (winS (sF (rq 256 4 0 153 5)) 2).snd.ctl = (arS (sF (rq 256 4 0 153 5)) 2).snd.ctl ∧
    (winS (sF (rq 256 4 0 153 5)) 2).snd.fto = (arS (sF (rq 256 4 0 153 5)) 2).snd.fto ∧
    (winS (sF (rq 256 4 0 153 5)) 2).snd.mem = (arS (sF (rq 256 4 0 153 5)) 2).snd.mem ∧
    PlainHomes (winS (sF (rq 256 4 0 153 5)) 2).snd) ∧
    (NoObjectWaits (winS (sF (rq 256 4 0 153 5)) 2).snd ∧
    (winS (sF (rq 256 4 0 153 5)) 2).fst.snd = some
      { pa := 262400, r := true, w := true, x := true, host := false, mor := false : Xl } ∧
    (winS (sF (rq 256 4 0 153 5)) 2).snd.unbuilt
      { pa := 262400, r := true, w := true, x := true, host := false, mor := false : Xl }.pa = false ∧
    (winS (sF (rq 256 4 0 153 5)) 2).snd.locked
      { pa := 262400, r := true, w := true, x := true, host := false, mor := false : Xl }.pa = false ∧
    (2 = 1 ∨ 0 < { pa := 262400, r := true, w := true, x := true, host := false, mor := false : Xl }.pa ∨
      { pa := 262400, r := true, w := true, x := true, host := false, mor := false : Xl }.pa + (rqS (sF (rq 256 4 0 153 5))
      2).bytes ≤ 0)) ∧
    -- ((((((FabricRequestResults.1 (sF (rq 0x104 4 0 0x99 5)) (arS (sF (rq 0x104 4 0 0x99 5)) 3).2 3 (rqS (sF (rq 0x104 4 0 …
    RequestArrives (sF (rq 260 4 0 153 5)) 3 (rqS (sF (rq 260 4 0 153 5)) 3) (arS (sF (rq 260 4 0 153 5)) 3).fst (arS (sF (rq
      260 4 0 153 5)) 3).snd ∧
    ((3, Instr.fabricAtomic, 131) ∈ [(1, Instr.fabricRead, 129), (2, Instr.fabricWrite, 130), (3, Instr.fabricAtomic, 131), (4,
      Instr.fabricAtomicNoReturn, 130)] ∧
    NoObjectWaits (arS (sF (rq 260 4 0 153 5)) 3).snd ∧
    PlainHomes (arS (sF (rq 260 4 0 153 5)) 3).snd ∧
    (arS (sF (rq 260 4 0 153 5)) 3).fst = some (rqS (sF (rq 260 4 0 153 5)) 3).pkt ∧
    ItsTurn (arS (sF (rq 260 4 0 153 5)) 3).snd (rqS (sF (rq 260 4 0 153 5)) 3) ∧
    (arS (sF (rq 260 4 0 153 5)) 3).snd.window (rqS (sF (rq 260 4 0 153 5)) 3).pkt.ctx (rqS (sF (rq 260 4 0 153 5))
      3).pkt.offset (rqS (sF (rq 260 4 0 153 5)) 3).bytes ((rqS (sF (rq 260 4 0 153 5)) 3).pkt.opc != 2) ((rqS (sF (rq 260 4 0
      153 5)) 3).pkt.opc != 1) = (((winS (sF (rq 260 4 0 153 5)) 3).fst.fst, (winS (sF (rq 260 4 0 153 5)) 3).fst.snd), (winS
      (sF (rq 260 4 0 153 5)) 3).snd) ∧
    (winS (sF (rq 260 4 0 153 5)) 3).snd.fabOut = (arS (sF (rq 260 4 0 153 5)) 3).snd.fabOut ∧
    (winS (sF (rq 260 4 0 153 5)) 3).snd.clock = (arS (sF (rq 260 4 0 153 5)) 3).snd.clock ∧
    (winS (sF (rq 260 4 0 153 5)) 3).snd.ctl = (arS (sF (rq 260 4 0 153 5)) 3).snd.ctl ∧
    (winS (sF (rq 260 4 0 153 5)) 3).snd.fto = (arS (sF (rq 260 4 0 153 5)) 3).snd.fto ∧
    (winS (sF (rq 260 4 0 153 5)) 3).snd.mem = (arS (sF (rq 260 4 0 153 5)) 3).snd.mem ∧
    PlainHomes (winS (sF (rq 260 4 0 153 5)) 3).snd) ∧
    NoObjectWaits (winS (sF (rq 260 4 0 153 5)) 3).snd ∧
    (winS (sF (rq 260 4 0 153 5)) 3).fst.snd = some
      { pa := 262404, r := true, w := true, x := true, host := false, mor := false : Xl } ∧
    { pa := 262404, r := true, w := true, x := true, host := false, mor := false : Xl }.host = false ∧
    (winS (sF (rq 260 4 0 153 5)) 3).snd.unbuilt
      { pa := 262404, r := true, w := true, x := true, host := false, mor := false : Xl }.pa = false ∧
    (winS (sF (rq 260 4 0 153 5)) 3).snd.locked
      { pa := 262404, r := true, w := true, x := true, host := false, mor := false : Xl }.pa = false ∧
    { pa := 262404, r := true, w := true, x := true, host := false, mor := false : Xl }.mor = false ∧
    (3 = 1 ∨ 0 < { pa := 262404, r := true, w := true, x := true, host := false, mor := false : Xl }.pa ∨
      { pa := 262404, r := true, w := true, x := true, host := false, mor := false : Xl }.pa + (rqS (sF (rq 260 4 0 153 5))
      3).bytes ≤ 0) ∧
    3 ≤ 3 :=
  ⟨⟨_, rfl, rfl⟩, (by unfold ItsTurn NoObjectWaits PlainHomes; decide +kernel), (by unfold NoObjectWaits; decide +kernel),
    ⟨_, rfl, rfl⟩, (by unfold ItsTurn NoObjectWaits PlainHomes; decide +kernel), (by unfold NoObjectWaits; decide +kernel)⟩

theorem meets_FabricRequestResults_4 :
    -- FabricRequestResults.2.1 (sF (rq 0x40104 3 0 0x123456789 5)) (arS (sF (rq 0x40104 3 0 0x123456789 5)) 5).2 (rqS (sF (r…
    RequestArrives (sF (rq 262404 3 0 4886718345 5)) 5 (rqS (sF (rq 262404 3 0 4886718345 5)) 5) (some (rqS (sF (rq 262404 3 0
      4886718345 5)) 5).pkt) (arS (sF (rq 262404 3 0 4886718345 5)) 5).snd ∧
    ItsTurn (arS (sF (rq 262404 3 0 4886718345 5)) 5).snd (rqS (sF (rq 262404 3 0 4886718345 5)) 5) ∧
    NoObjectWaits (arS (sF (rq 262404 3 0 4886718345 5)) 5).snd ∧
    (rqS (sF (rq 262404 3 0 4886718345 5)) 5).pkt.offset + (rqS (sF (rq 262404 3 0 4886718345 5)) 5).bytes ≤ memTop ∧
    (0 < (rqS (sF (rq 262404 3 0 4886718345 5)) 5).pkt.offset ∨ (rqS (sF (rq 262404 3 0 4886718345 5)) 5).pkt.offset + (rqS (sF
      (rq 262404 3 0 4886718345 5)) 5).bytes ≤ 0) :=
  ⟨⟨_, rfl, rfl⟩, (by unfold ItsTurn NoObjectWaits; decide +kernel)⟩

theorem meets_FabricReplyResults_1 :
    -- (FabricReplyResults.1 sNone .readReply [1]).1
    ((Instr.readReply, [1]) ∈ [(Instr.readReply, [1]), (Instr.atomicReply, [3]), (Instr.acknowledgement, [2, 4]),
      (Instr.deltaAcknowledgement, [5])] ∧
    (List.filter (fun t => t.busy && [1].contains t.pkt.opc) sNone.fabTags = []) ∧
    -- (((FabricReplyResults.1 {sL1 with choices := [0, 5, 0, 0, 0, 0, 2, 9]} .readReply [1]).2 (ftg 1 (.lane g0)) ({sL1 with…
    (List.filter (fun t => t.busy && [1].contains t.pkt.opc) { sL1 with choices := [0, 5, 0, 0, 0, 0, 2, 9] }.fabTags = [ftg 1
      (ReqFor.lane g0)]) ∧
    { sL1 with choices := [0, 5, 0, 0, 0, 0, 2, 9] }.drawReply (ftg 1 (ReqFor.lane g0)) =
      (({ sL1 with choices := [0, 5, 0, 0, 0, 0, 2, 9] }.drawReply (ftg 1 (ReqFor.lane g0))).fst,
      ({ sL1 with choices := [0, 5, 0, 0, 0, 0, 2, 9] }.drawReply (ftg 1 (ReqFor.lane g0))).snd) ∧
    ({ sL1 with choices := [0, 5, 0, 0, 0, 0, 2, 9] }.drawReply (ftg 1 (ReqFor.lane g0))).snd.linkArrival
      ({ sL1 with choices := [0, 5, 0, 0, 0, 0, 2, 9] }.drawReply (ftg 1 (ReqFor.lane g0))).fst = ((rpS
      { sL1 with choices := [0, 5, 0, 0, 0, 0, 2, 9] } (ftg 1 (ReqFor.lane g0))).fst, (rpS
      { sL1 with choices := [0, 5, 0, 0, 0, 0, 2, 9] } (ftg 1 (ReqFor.lane g0))).snd) ∧
    (rpS { sL1 with choices := [0, 5, 0, 0, 0, 0, 2, 9] } (ftg 1 (ReqFor.lane g0))).fst = none ∧
    -- (((FabricReplyResults.1 sL1 .readReply [1]).2 (ftg 1 (.lane g0)) (sL1.drawReply (ftg 1 (.lane g0))).1 (sL1.drawReply (…
    (List.filter (fun t => t.busy && [1].contains t.pkt.opc) sL1.fabTags = [ftg 1 (ReqFor.lane g0)]) ∧
    sL1.drawReply (ftg 1 (ReqFor.lane g0)) = ((sL1.drawReply (ftg 1 (ReqFor.lane g0))).fst, (sL1.drawReply (ftg 1 (ReqFor.lane
      g0))).snd) ∧
    (sL1.drawReply (ftg 1 (ReqFor.lane g0))).snd.linkArrival (sL1.drawReply (ftg 1 (ReqFor.lane g0))).fst = ((rpS sL1 (ftg 1
      (ReqFor.lane g0))).fst, (rpS sL1 (ftg 1 (ReqFor.lane g0))).snd) ∧
    (rpS sL1 (ftg 1 (ReqFor.lane g0))).fst = some (sL1.drawReply (ftg 1 (ReqFor.lane g0))).fst ∧
    ((sL1.drawReply (ftg 1 (ReqFor.lane g0))).fst.tag ≠ (ftg 1 (ReqFor.lane g0)).tag ∨ (sL1.drawReply (ftg 1 (ReqFor.lane
      g0))).fst.gen ≠ (ftg 1 (ReqFor.lane g0)).gen) ∧
    -- ((((FabricReplyResults.1 sL2 .readReply [1]).2 (ftg 1 (.lane g0)) (sL2.drawReply (ftg 1 (.lane g0))).1 (sL2.drawReply …
    (List.filter (fun t => t.busy && [1].contains t.pkt.opc) sL2.fabTags = [ftg 1 (ReqFor.lane g0)]) ∧
    sL2.drawReply (ftg 1 (ReqFor.lane g0)) = ((sL2.drawReply (ftg 1 (ReqFor.lane g0))).fst, (sL2.drawReply (ftg 1 (ReqFor.lane
      g0))).snd) ∧
    (sL2.drawReply (ftg 1 (ReqFor.lane g0))).snd.linkArrival (sL2.drawReply (ftg 1 (ReqFor.lane g0))).fst = ((rpS sL2 (ftg 1
      (ReqFor.lane g0))).fst, (rpS sL2 (ftg 1 (ReqFor.lane g0))).snd) ∧
    (rpS sL2 (ftg 1 (ReqFor.lane g0))).fst = some (sL2.drawReply (ftg 1 (ReqFor.lane g0))).fst ∧
    (sL2.drawReply (ftg 1 (ReqFor.lane g0))).fst.tag = (ftg 1 (ReqFor.lane g0)).tag ∧
    (sL2.drawReply (ftg 1 (ReqFor.lane g0))).fst.gen = (ftg 1 (ReqFor.lane g0)).gen ∧
    (sL2.drawReply (ftg 1 (ReqFor.lane g0))).fst.status ≠ 0 ∧
    -- ((((FabricReplyResults.1 sDl .deltaAcknowledgement [5]).2 (ftg 5 (.delta 0)) (sDl.drawReply (ftg 5 (.delta 0))).1 (sDl…
    (Instr.deltaAcknowledgement, [5]) ∈ [(Instr.readReply, [1]), (Instr.atomicReply, [3]), (Instr.acknowledgement, [2, 4]),
      (Instr.deltaAcknowledgement, [5])] ∧
    (List.filter (fun t => t.busy && [5].contains t.pkt.opc) sDl.fabTags = [ftg 5 (ReqFor.delta 0)]) ∧
    sDl.drawReply (ftg 5 (ReqFor.delta 0)) = ((sDl.drawReply (ftg 5 (ReqFor.delta 0))).fst, (sDl.drawReply (ftg 5 (ReqFor.delta
      0))).snd) ∧
    (sDl.drawReply (ftg 5 (ReqFor.delta 0))).snd.linkArrival (sDl.drawReply (ftg 5 (ReqFor.delta 0))).fst = ((rpS sDl (ftg 5
      (ReqFor.delta 0))).fst, (rpS sDl (ftg 5 (ReqFor.delta 0))).snd) ∧
    (rpS sDl (ftg 5 (ReqFor.delta 0))).fst = some (sDl.drawReply (ftg 5 (ReqFor.delta 0))).fst) ∧
    (sDl.drawReply (ftg 5 (ReqFor.delta 0))).fst.tag = (ftg 5 (ReqFor.delta 0)).tag ∧
    (sDl.drawReply (ftg 5 (ReqFor.delta 0))).fst.gen = (ftg 5 (ReqFor.delta 0)).gen ∧
    (sDl.drawReply (ftg 5 (ReqFor.delta 0))).fst.status = 0 ∧
    (ftg 5 (ReqFor.delta 0)).why = ReqFor.delta (ftg 5 (ReqFor.delta 0)).die ∧
    (rpS sDl (ftg 5 (ReqFor.delta 0))).snd.deltas.length = 1 ∧
    (∀ (d : Delta), d ∈ (rpS sDl (ftg 5 (ReqFor.delta 0))).snd.deltas → (ftg 5 (ReqFor.delta 0)).carries d = true) :=
  ⟨by decide +kernel, by decide +kernel⟩

theorem meets_FabricReplyResults_2 :
    -- (((((FabricReplyResults.1 sL3 .readReply [1]).2 (ftg 1 (.lane g0)) (sL3.drawReply (ftg 1 (.lane g0))).1 (sL3.drawReply…
    ((List.filter (fun t => t.busy && [1].contains t.pkt.opc) sL3.fabTags = [ftg 1 (ReqFor.lane g0)]) ∧
    sL3.drawReply (ftg 1 (ReqFor.lane g0)) = ((sL3.drawReply (ftg 1 (ReqFor.lane g0))).fst, (sL3.drawReply (ftg 1 (ReqFor.lane
      g0))).snd) ∧
    (sL3.drawReply (ftg 1 (ReqFor.lane g0))).snd.linkArrival (sL3.drawReply (ftg 1 (ReqFor.lane g0))).fst = ((rpS sL3 (ftg 1
      (ReqFor.lane g0))).fst, (rpS sL3 (ftg 1 (ReqFor.lane g0))).snd) ∧
    (rpS sL3 (ftg 1 (ReqFor.lane g0))).fst = some (sL3.drawReply (ftg 1 (ReqFor.lane g0))).fst ∧
    (sL3.drawReply (ftg 1 (ReqFor.lane g0))).fst.tag = (ftg 1 (ReqFor.lane g0)).tag ∧
    (sL3.drawReply (ftg 1 (ReqFor.lane g0))).fst.gen = (ftg 1 (ReqFor.lane g0)).gen ∧
    (sL3.drawReply (ftg 1 (ReqFor.lane g0))).fst.status = 0 ∧
    (ftg 1 (ReqFor.lane g0)).why = ReqFor.lane g0 ∧
    (ftg 1 (ReqFor.lane g0)).pkt.opc ≠ 4 ∧
    (rpS sL3 (ftg 1 (ReqFor.lane g0))).snd.group g0 = some gL3 ∧
    gL3.out = [oR (uR (UKind.load false) [some 40])] ∧
    (oR (uR (UKind.load false) [some 40])).sent = some (ftg 1 (ReqFor.lane g0)).tag ∧
    (oR (uR (UKind.load false) [some 40])).units = [uR (UKind.load false) [some 40]] ∧
    (uR (UKind.load false) [some 40]).isHost = false ∧
    NoObjectWaits (rpS sL3 (ftg 1 (ReqFor.lane g0))).snd ∧
    (uR (UKind.load false) [some 40]).kind ≠ UKind.load true ∧
    (uR (UKind.load false) [some 40]).bytes = 4 ∧
    (uR (UKind.load false) [some 40]).dst = [some 40] ∧
    -- (((((FabricReplyResults.1 sL4 .acknowledgement [2,4]).2 (ftg 2 (.lane g0)) (sL4.drawReply (ftg 2 (.lane g0))).1 (sL4.d…
    (Instr.acknowledgement, [2, 4]) ∈ [(Instr.readReply, [1]), (Instr.atomicReply, [3]), (Instr.acknowledgement, [2, 4]),
      (Instr.deltaAcknowledgement, [5])] ∧
    (List.filter (fun t => t.busy && [2, 4].contains t.pkt.opc) sL4.fabTags = [ftg 2 (ReqFor.lane g0)]) ∧
    sL4.drawReply (ftg 2 (ReqFor.lane g0)) = ((sL4.drawReply (ftg 2 (ReqFor.lane g0))).fst, (sL4.drawReply (ftg 2 (ReqFor.lane
      g0))).snd) ∧
    (sL4.drawReply (ftg 2 (ReqFor.lane g0))).snd.linkArrival (sL4.drawReply (ftg 2 (ReqFor.lane g0))).fst = ((rpS sL4 (ftg 2
      (ReqFor.lane g0))).fst, (rpS sL4 (ftg 2 (ReqFor.lane g0))).snd)) ∧
    (rpS sL4 (ftg 2 (ReqFor.lane g0))).fst = some (sL4.drawReply (ftg 2 (ReqFor.lane g0))).fst ∧
    (sL4.drawReply (ftg 2 (ReqFor.lane g0))).fst.tag = (ftg 2 (ReqFor.lane g0)).tag ∧
    (sL4.drawReply (ftg 2 (ReqFor.lane g0))).fst.gen = (ftg 2 (ReqFor.lane g0)).gen ∧
    (sL4.drawReply (ftg 2 (ReqFor.lane g0))).fst.status = 0 ∧
    (ftg 2 (ReqFor.lane g0)).why = ReqFor.lane g0 ∧
    (ftg 2 (ReqFor.lane g0)).pkt.opc ≠ 4 ∧
    (rpS sL4 (ftg 2 (ReqFor.lane g0))).snd.group g0 = some gL4 ∧
    gL4.out = [oR (uR UKind.store [])] ∧
    (oR (uR UKind.store [])).sent = some (ftg 2 (ReqFor.lane g0)).tag ∧
    (oR (uR UKind.store [])).units = [uR UKind.store []] ∧
    (uR UKind.store []).isHost = false ∧
    NoObjectWaits (rpS sL4 (ftg 2 (ReqFor.lane g0))).snd ∧
    (uR UKind.store []).dst = [] ∧
    fabTagW1 ∈ (nx (exec Instr.acknowledgement sL4)).fabTags ∧
    fabTagW1.die = (ftg 2 (ReqFor.lane g0)).die ∧
    fabTagW1.tag = (ftg 2 (ReqFor.lane g0)).tag ∧
    -- FabricReplyResults.2 (sTO 1 (9+36000)) {fTO with retries := 1}
    (sTO 1 (9 + 36000)).deltas = [] ∧
    (List.filter (fun t => t.busy && decide (t.sentAt + (sTO 1 (9 + 36000)).fto ≤ (sTO 1 (9 + 36000)).clock)) (sTO 1 (9 +
      36000)).fabTags = []) :=
  ⟨(by unfold NoObjectWaits; decide +kernel), (by unfold NoObjectWaits; decide +kernel)⟩

theorem meets_FabricReplyResults_3 :
    -- (FabricReplyResults.2 (sTO 1 (10+36000)) {fTO with retries := 1}).2
    (sTO 1 (10 + 36000)).deltas = [] ∧
    (sTO 1 (10 + 36000)).fabTags = [{ fTO with retries := 1 }] ∧
    { fTO with retries := 1 }.busy = true ∧
    { fTO with retries := 1 }.sentAt + (sTO 1 (10 + 36000)).fto ≤ (sTO 1 (10 + 36000)).clock ∧
    { fTO with retries := 1 }.retries < (sTO 1 (10 + 36000)).ctl.fretry ∧
    -- (FabricReplyResults.2 (sTO 3 (10+36000)) {fTO with retries := 3}).2
    (sTO 3 (10 + 36000)).deltas = [] ∧
    (sTO 3 (10 + 36000)).fabTags = [{ fTO with retries := 3 }] ∧
    { fTO with retries := 3 }.busy = true ∧
    { fTO with retries := 3 }.sentAt + (sTO 3 (10 + 36000)).fto ≤ (sTO 3 (10 + 36000)).clock ∧
    (sTO 3 (10 + 36000)).ctl.fretry ≤ { fTO with retries := 3 }.retries :=
  by decide +kernel

theorem meets_LossAndRebuildResults_1 :
    -- LossAndRebuildResults.1 base
    (base.accepted = [] ∧
    base.remoteHolders = [] ∧
    -- (LossAndRebuildResults.2.1 {sRe with choices := [2, 9]} ({sRe with choices := [2, 9]}.control 4).2 hR false).1
    { sRe with choices := [2, 9] }.accepted = [hR] ∧
    { sRe with choices := [2, 9] }.control hR.rank = (false, ({ sRe with choices := [2, 9] }.control 4).snd) ∧
    (false = false ∨ ({ sRe with choices := [2, 9] }.control 4).snd.ctl.joined = false) ∧
    -- (LossAndRebuildResults.2.1 sRe (sRe.control 4).2 hR true).2
    sRe.accepted = [hR] ∧
    sRe.control hR.rank = (true, (sRe.control 4).snd) ∧
    (sRe.control 4).snd.ctl.joined = true ∧
    -- (LossAndRebuildResults.2.2.1 {sF [2,9] with remoteHolders := [hR]} ({sF [2,9] with remoteHolders := [hR]}.control 4).2…
    { sF [2, 9] with remoteHolders := [hR] }.remoteHolders = [hR] ∧
    { sF [2, 9] with remoteHolders := [hR] }.control hR.rank = (false, ({ sF [2, 9] with remoteHolders := [hR] }.control
      4).snd) ∧
    NoObjectWaits ({ sF [2, 9] with remoteHolders := [hR] }.control 4).snd ∧
    -- (LossAndRebuildResults.2.2.1 {sF [0,9,0,1,2] with remoteHolders := [hR], lost := [4]} ({sF [0,9,0,1,2] with remoteHold…
    { sF [0, 9, 0, 1, 2] with remoteHolders := [hR], lost := [4] }.remoteHolders = [hR] ∧
    { sF [0, 9, 0, 1, 2] with remoteHolders := [hR], lost := [4] }.control hR.rank = (true,
      ({ sF [0, 9, 0, 1, 2] with remoteHolders := [hR], lost := [4] }.control 4).snd) ∧
    NoObjectWaits ({ sF [0, 9, 0, 1, 2] with remoteHolders := [hR], lost := [4] }.control 4).snd ∧
    ({ sF [0, 9, 0, 1, 2] with remoteHolders := [hR], lost := [4] }.control 4).snd.lost.contains hR.rank = true ∧
    -- LossAndRebuildResults.2.2.2.1 (sF [2,9,8,7]) ((sF [2,9,8,7]).control 0).2
    (sF [2, 9, 8, 7]).control 0 = (false, ((sF [2, 9, 8, 7]).control 0).snd) ∧
    -- LossAndRebuildResults.2.2.2.2.1 sLo (sLo.control 0).2 (sLo.control 0).2.draw.2 580
    sLo.control 0 = (true, (sLo.control 0).snd) ∧
    (sLo.control 0).snd.draw = (580, (sLo.control 0).snd.draw.snd) ∧
    sLo.ctl.joined = true) ∧
    580 % 576 ≠ sLo.ctl.rank ∧
    fabTagW1 ∈ (nx (exec Instr.lost sLo)).fabTags ∧
    fabTagW1.pkt.dst = 580 % 576 ∧
    (have __src := hR; { line := __src.line, rank := 5, die := __src.die : RemoteHolder }) ∈ (nx (exec Instr.lost
      sLo)).accepted ++ (nx (exec Instr.lost sLo)).remoteHolders ∧
    -- ((LossAndRebuildResults.2.2.2.2.2.1 sUnj (sUnj.control 0).2 (sUnj.control 0).2.draw.2 580)).1
    sUnj.control 0 = (true, (sUnj.control 0).snd) ∧
    (sUnj.control 0).snd.draw = (580, (sUnj.control 0).snd.draw.snd) ∧
    (sUnj.control 0).snd.draw.snd.ctl.joined = false ∧
    -- ((LossAndRebuildResults.2.2.2.2.2.1 {sLo with lost := [4]} ({sLo with lost := [4]}.control 0).2 ({sLo with lost := [4]…
    { sLo with lost := [4] }.control 0 = (true, ({ sLo with lost := [4] }.control 0).snd) ∧
    ({ sLo with lost := [4] }.control 0).snd.draw = (580, ({ sLo with lost := [4] }.control 0).snd.draw.snd) ∧
    ({ sLo with lost := [4] }.control 0).snd.draw.snd.ctl.joined = true ∧
    ({ sLo with lost := [4] }.control 0).snd.draw.snd.lost.contains (580 % 576) = true ∧
    -- ((LossAndRebuildResults.2.2.2.2.2.1 sLo (sLo.control 0).2 (sLo.control 0).2.draw.2 580)).2.2
    (sLo.control 0).snd.draw.snd.ctl.joined = true ∧
    (sLo.control 0).snd.draw.snd.lost.contains (580 % 576) = false ∧
    -- LossAndRebuildResults.2.2.2.2.2.2.1 base
    base.rebuilds = [] ∧
    -- LossAndRebuildResults.2.2.2.2.2.2.2.1 {sF [] with rebuilds := [⟨4, 576, [0x30000, 0x50000]⟩]} ⟨4, 576, [0x30000, 0x500…
    { sF [] with rebuilds := [{ lost := 4, spare := 576, frames := [196608, 327680] : Rebuild }] }.rebuilds =
      [{ lost := 4, spare := 576, frames := [196608, 327680] : Rebuild }] ∧
    { lost := 4, spare := 576, frames := [196608, 327680] : Rebuild }.spare ≠
      { sF [] with rebuilds := [{ lost := 4, spare := 576, frames := [196608, 327680] : Rebuild }] }.ctl.rank ∧
    { lost := 4, spare := 576, frames := [196608, 327680] : Rebuild }.frames = [196608, 327680] ∧
    { sF [] with rebuilds := [{ lost := 4, spare := 576, frames := [196608, 327680] : Rebuild }] }.deltas = [] ∧
    { sF [] with rebuilds := [{ lost := 4, spare := 576, frames := [196608, 327680] : Rebuild }] }.holds = [] ∧
    NoObjectWaits { sF [] with rebuilds := [{ lost := 4, spare := 576, frames := [196608, 327680] : Rebuild }] } :=
  ⟨(by unfold NoObjectWaits; decide +kernel), (by unfold NoObjectWaits; decide +kernel)⟩

theorem meets_LossAndRebuildResults_2 :
    -- LossAndRebuildResults.2.2.2.2.2.2.2.2.1 {sF [2, 5] with rebuilds := [⟨3, 3, []⟩]} ⟨3, 3, []⟩ 2 [5]
    { sF [2, 5] with rebuilds := [{ lost := 3, spare := 3, frames := [] : Rebuild }] }.rebuilds =
      [{ lost := 3, spare := 3, frames := [] : Rebuild }] ∧
    { lost := 3, spare := 3, frames := [] : Rebuild }.spare =
      { sF [2, 5] with rebuilds := [{ lost := 3, spare := 3, frames := [] : Rebuild }] }.ctl.rank ∧
    { lost := 3, spare := 3, frames := [] : Rebuild }.frames = [] ∧
    { sF [2, 5] with rebuilds := [{ lost := 3, spare := 3, frames := [] : Rebuild }] }.choices = [2, 5] ∧
    2 % 2 = 0 ∧
    -- LossAndRebuildResults.2.2.2.2.2.2.2.2.2.2 sRy (sRy.control 0).2
    sRy.control 0 = (true, (sRy.control 0).snd) ∧
    sRy.ctl.joined = true ∧
    (sRy.control 0).snd.unreachable = [] ∧
    PlainHomes (sRy.control 0).snd ∧
    NothingLocked (sRy.control 0).snd :=
  by unfold NothingLocked PlainHomes; decide +kernel

theorem meets_EngineFormsComplete :
    -- ((EngineFormsComplete (sE (gE 0x40100) cpyD) g0 (gE 0x40100) .dyn 1 2 0x40100)).1 (.cpy .dyn 1 2) .ce .cpy 64 false ((…
    ((sE (gE (262400 : W64)) cpyD).readDesc ((sE (gE (262400 : W64)) cpyD).ctxOf g0) 262400 64 false).fst = Except.ok ((rdE
      (262400 : W64) cpyD 64 false).fst.toOption.getD []) ∧
    (ScalarAt (sE (gE (262400 : W64)) cpyD) g0 (gE (262400 : W64)) ∧
    262400 = BitVec.toNat ((gE (262400 : W64)).sreg (1 : SReg)) ∧
    (Instr.cpy Bt.dyn (1 : SReg) (2 : SReg), EngCls.ce, EngOp.cpy, 64, false) ∈ [(Instr.cpy Bt.dyn (1 : SReg) (2 : SReg),
      EngCls.ce, EngOp.cpy, 64, false), (Instr.gath Bt.dyn (1 : SReg) (2 : SReg), EngCls.ce, EngOp.gath, 64, false),
      (Instr.coll Bt.dyn (1 : SReg) (2 : SReg), EngCls.co, EngOp.coll, 64, false), (Instr.kvalloc Bt.dyn (1 : SReg) (2 : SReg),
      EngCls.kv, EngOp.kvalloc, 32, true), (Instr.kvref Bt.dyn (1 : SReg) (2 : SReg), EngCls.kv, EngOp.kvref, 32, true),
      (Instr.kvunref Bt.dyn (1 : SReg) (2 : SReg), EngCls.kv, EngOp.kvunref, 32, true), (Instr.kvcow Bt.dyn (1 : SReg) (2 :
      SReg), EngCls.kv, EngOp.kvcow, 32, true), (Instr.kvtierCi Bt.dyn (1 : SReg) (2 : SReg), EngCls.kv, EngOp.kvtierCi, 32,
      true), (Instr.kvtierAq Bt.dyn (1 : SReg) (2 : SReg), EngCls.kv, EngOp.kvtierAq, 32, true), (Instr.kvsend Bt.dyn (1 :
      SReg) (2 : SReg), EngCls.kv, EngOp.kvsend, 32, true)]) ∧
    (engineChecks EngOp.cpy g0 262400 ((rdE (262400 : W64) cpyD 64 false).fst.toOption.getD []) ((sE (gE (262400 : W64))
      cpyD).readDesc ((sE (gE (262400 : W64)) cpyD).ctxOf g0) 262400 64 false).snd).fst = none ∧
    (engineChecks EngOp.cpy g0 262400 ((rdE (262400 : W64) cpyD 64 false).fst.toOption.getD []) ((sE (gE (262400 : W64))
      cpyD).readDesc ((sE (gE (262400 : W64)) cpyD).ctxOf g0) 262400 64 false).snd).snd.team g0.team = some tm0 ∧
    (engineChecks EngOp.cpy g0 262400 ((rdE (262400 : W64) cpyD 64 false).fst.toOption.getD []) ((sE (gE (262400 : W64))
      cpyD).readDesc ((sE (gE (262400 : W64)) cpyD).ctxOf g0) 262400 64 false).snd).snd.group g0 = some (gE (262400 : W64)) ∧
    ((List.filter (fun x => x.cls == EngCls.ce) tm0.cmds).length < 32) ∧
    -- ((EngineFormsComplete (sR (gR 5 7) inst0) g0 (gR 5 7) .dyn 1 2 5)).2 10 inst0 ⟨5, 0, 1, true, true, false, false, fals…
    ((inst0.emit (rec0.get 0 0 64) 0 rec0.gen (BitVec.toNat ((gR (5 : W64) (7 : W64)).sreg (2 : SReg))) ((BitVec.toNat ((gR (5
      : W64) (7 : W64)).sreg (2 : SReg))).testBit 32 || (rec0.gen + 1) % 2 ^ 32 == rec0.maxNew) ((((sR (gR (5 : W64) (7 : W64))
      inst0).acquire g0.core).onRec inst0.num 5 fun r => ((r.put 8 0 32 (BitVec.toNat ((gR (5 : W64) (7 : W64)).sreg (2 :
      SReg)))).put 3 32 32 ((rec0.gen + 1) % 2 ^ 32)).put 1 8 1 (if (BitVec.toNat ((gR (5 : W64) (7 : W64)).sreg (2 :
      SReg))).testBit 32 = true then 1 else 0)).onInst inst0.num fun x =>
      { x with batch := List.map (fun b => if b.idx = 5 then { b with emitted := true } else b) x.batch })).fst = Except.ok ()) ∧
    ScalarAt (sR (gR (5 : W64) (7 : W64)) inst0) g0 (gR (5 : W64) (7 : W64)) ∧
    5 = BitVec.toNat ((gR (5 : W64) (7 : W64)).sreg (1 : SReg)) ∧
    5 < 2 ^ 14 ∧
    (sR (gR (5 : W64) (7 : W64)) inst0).sampler ((sR (gR (5 : W64) (7 : W64)) inst0).teamRefOf g0) = some inst0 ∧
    (List.find? (fun e => e.idx == 5) inst0.batch = some bEntryW1) ∧
    (sR (gR (5 : W64) (7 : W64)) inst0).recOf inst0.num 5 = some rec0 ∧
    (↑(10 : Fin 32) : Nat) ∈ [10, 11, 12, 13, 14, 16, 17, 18, 19, 20, 21, 22, 23] ∧
    BitVec.toNat ((gR (5 : W64) (7 : W64)).sreg (2 : SReg)) < 2 ^ 33 ∧
    bEntryW1.sample = true ∧
    bEntryW1.emitted = false :=
  ⟨(except_of (by decide +kernel) (by decide +kernel)), (by unfold ScalarAt; decide +kernel), by decide +kernel,
    by decide +kernel, by decide +kernel, by decide +kernel, (except_of (by decide +kernel) (by decide +kernel)),
    (by unfold ScalarAt; decide +kernel)⟩

theorem meets_ObjectFormsComplete_1 :
    -- ((ObjectFormsComplete (sB (gB 4) (tmB bar32 [])) g0 (gB 4) .dyn 1 2 t0 (tmB bar32 []) 0x40 4)).1 3 2 0 false
    ((sB (gB (4 : W64)) (tmB bar32 [])).objPlace g0 ((gB (4 : W64)).sreg (1 : SReg)) 16 false !(gB (4 : W64)).skipS.wp) =
      (Except.ok (Place.scratch t0 64), sB (gB (4 : W64)) (tmB bar32 [])) ∧
    (ScalarAt (sB (gB (4 : W64)) (tmB bar32 [])) g0 (gB (4 : W64)) ∧
    (sB (gB (4 : W64)) (tmB bar32 [])).team t0 = some (tmB bar32 []) ∧
    4 = BitVec.toNat ((gB (4 : W64)).sreg (2 : SReg)) ∧
    NoObjectWaits (sB (gB (4 : W64)) (tmB bar32 [])) ∧
    NoWrap (sB (gB (4 : W64)) (tmB bar32 [])) g0.core 2 1 ∧
    (gB (4 : W64)).obj = [] ∧
    barOf (sgetLE (tmB bar32 []).scratch 64 16) = (3, 2, false, false, 0) ∧
    1 ≤ 4 ∧
    4 ≤ 65535 ∧
    4 < 2 ^ 48) ∧
    -- ((ObjectFormsComplete (sB (gBw true) (tmB bar32 [])) g0 (gBw true) .dyn 1 2 t0 (tmB bar32 []) 0x40 4)).2.1 3 2 0 false…
    ((sB (gBw true) (tmB bar32 [])).objPlace g0 ((gBw true).sreg (1 : SReg)) 16 false !(gBw true).skipS.wp) = (Except.ok
      (Place.scratch t0 64), sB (gBw true) (tmB bar32 [])) ∧
    (ScalarAt (sB (gBw true) (tmB bar32 [])) g0 (gBw true) ∧
    (sB (gBw true) (tmB bar32 [])).team t0 = some (tmB bar32 []) ∧
    4 = BitVec.toNat ((gBw true).sreg (2 : SReg)) ∧
    NoObjectWaits (sB (gBw true) (tmB bar32 [])) ∧
    NoWrap (sB (gBw true) (tmB bar32 [])) g0.core 2 1 ∧
    (gBw true).obj = [{ addr := (gBw true).sreg (1 : SReg), ring := false, phase := true : ObjEntry }] ∧
    true ≠ false) ∧
    -- ((ObjectFormsComplete (sB (gB 4) (tmB (ring 5 1 (2^32)) [])) g0 (gB 4) .dyn 1 2 t0 (tmB (ring 5 1 (2^32)) []) 0x40 4))…
    (sB (gB (4 : W64)) (tmB (ring 5 1 (2 ^ 32)) [])).objPlace g0 ((gB (4 : W64)).sreg (1 : SReg)) 16 true = (Except.ok
      (Place.scratch t0 64), sB (gB (4 : W64)) (tmB (ring 5 1 (2 ^ 32)) [])) ∧
    (sB (gB (4 : W64)) (tmB (ring 5 1 (2 ^ 32)) [])).objPlace g0 ((gB (4 : W64)).sreg (1 : SReg)) (16 + 4 * 4) true =
      (Except.ok (Place.scratch t0 64), sB (gB (4 : W64)) (tmB (ring 5 1 (2 ^ 32)) [])) ∧
    ScalarAt (sB (gB (4 : W64)) (tmB (ring 5 1 (2 ^ 32)) [])) g0 (gB (4 : W64)) ∧
    (sB (gB (4 : W64)) (tmB (ring 5 1 (2 ^ 32)) [])).team t0 = some (tmB (ring 5 1 (2 ^ 32)) []) ∧
    NoObjectWaits (sB (gB (4 : W64)) (tmB (ring 5 1 (2 ^ 32)) [])) ∧
    NoWrap (sB (gB (4 : W64)) (tmB (ring 5 1 (2 ^ 32)) [])) g0.core 2 1 ∧
    64 % 16 = 0 ∧
    4 ∈ [1, 2, 4, 8, 16, 32, 64] ∧
    1 = 5 % 4 ∧
    1 = (5 / 4 : Nat) % 2 ∧
    sgetLE (tmB (ring 5 1 (2 ^ 32)) []).scratch 64 4 = 4 ∧
    (sgetLE (tmB (ring 5 1 (2 ^ 32)) []).scratch (64 + 4) 4).testBit 1 = false ∧
    (gB (4 : W64)).ticket = none ∧
    sgetLE (tmB (ring 5 1 (2 ^ 32)) []).scratch (64 + 16 + 4 * 1) 4 % 2 = 1 ∧
    sgetLE (tmB (ring 5 1 (2 ^ 32)) []).scratch (64 + 8) 4 = 5 ∧
    (tmB (ring 5 1 (2 ^ 32)) []).tag (64 + 16 + 4 * 1) = false :=
  ⟨(ok_pair (by decide +kernel) (by decide +kernel)), (by unfold NoObjectWaits NoWrap ScalarAt; decide +kernel),
    (ok_pair (by decide +kernel) (by decide +kernel)), (by unfold NoObjectWaits NoWrap ScalarAt; decide +kernel),
    (ok_pair (by decide +kernel) (by decide +kernel)), (ok_pair (by decide +kernel) (by decide +kernel)),
    (by unfold NoObjectWaits NoWrap ScalarAt; decide +kernel)⟩

theorem meets_ObjectFormsComplete_2 :
    -- ((ObjectFormsComplete (sB (gB 5) (tmB (ring 5 1 (2^32)) [])) g0 (gB 5) .dyn 1 2 t0 (tmB (ring 5 1 (2^32)) []) 0x40 5))…
    (sB (gB (5 : W64)) (tmB (ring 5 1 (2 ^ 32)) [])).objPlace g0 ((gB (5 : W64)).sreg (1 : SReg)) 16 true = (Except.ok
      (Place.scratch t0 64), sB (gB (5 : W64)) (tmB (ring 5 1 (2 ^ 32)) [])) ∧
    (sB (gB (5 : W64)) (tmB (ring 5 1 (2 ^ 32)) [])).objPlace g0 ((gB (5 : W64)).sreg (1 : SReg)) (16 + 4 * 4) true =
      (Except.ok (Place.scratch t0 64), sB (gB (5 : W64)) (tmB (ring 5 1 (2 ^ 32)) [])) ∧
    (ScalarAt (sB (gB (5 : W64)) (tmB (ring 5 1 (2 ^ 32)) [])) g0 (gB (5 : W64)) ∧
    (sB (gB (5 : W64)) (tmB (ring 5 1 (2 ^ 32)) [])).team t0 = some (tmB (ring 5 1 (2 ^ 32)) []) ∧
    5 = BitVec.toNat ((gB (5 : W64)).sreg (2 : SReg)) ∧
    NoObjectWaits (sB (gB (5 : W64)) (tmB (ring 5 1 (2 ^ 32)) [])) ∧
    NoWrap (sB (gB (5 : W64)) (tmB (ring 5 1 (2 ^ 32)) [])) g0.core 2 1 ∧
    (gB (5 : W64)).ticket = none ∧
    (gB (5 : W64)).obj = [] ∧
    5 < 2 ^ 32) ∧
    -- ((ObjectFormsComplete (sB (gB 1) (tmB (ring 1 1 0) [(0x54/4,1)])) g0 (gB 1) .dyn 1 2 t0 (tmB (ring 1 1 0) [(0x54/4,1)]…
    (sB (gB (1 : W64)) (tmB (ring 1 1 0) [((84 / 4 : Nat), (1 : BitVec 1))])).objPlace g0 ((gB (1 : W64)).sreg (1 : SReg)) 16
      true = (Except.ok (Place.scratch t0 64), sB (gB (1 : W64)) (tmB (ring 1 1 0) [((84 / 4 : Nat), (1 : BitVec 1))])) ∧
    (sB (gB (1 : W64)) (tmB (ring 1 1 0) [((84 / 4 : Nat), (1 : BitVec 1))])).objPlace g0 ((gB (1 : W64)).sreg (1 : SReg)) (16
      + 4 * 4) true = (Except.ok (Place.scratch t0 64), sB (gB (1 : W64)) (tmB (ring 1 1 0) [((84 / 4 : Nat), (1 : BitVec
      1))])) ∧
    ScalarAt (sB (gB (1 : W64)) (tmB (ring 1 1 0) [((84 / 4 : Nat), (1 : BitVec 1))])) g0 (gB (1 : W64)) ∧
    (sB (gB (1 : W64)) (tmB (ring 1 1 0) [((84 / 4 : Nat), (1 : BitVec 1))])).team t0 = some (tmB (ring 1 1 0) [((84 / 4 :
      Nat), (1 : BitVec 1))]) ∧
    1 = BitVec.toNat ((gB (1 : W64)).sreg (2 : SReg)) ∧
    NoObjectWaits (sB (gB (1 : W64)) (tmB (ring 1 1 0) [((84 / 4 : Nat), (1 : BitVec 1))])) ∧
    NoWrap (sB (gB (1 : W64)) (tmB (ring 1 1 0) [((84 / 4 : Nat), (1 : BitVec 1))])) g0.core 2 1 ∧
    1 = 1 % 4 ∧
    0 = (1 / 4 : Nat) % 2 ∧
    sgetLE (tmB (ring 1 1 0) [((84 / 4 : Nat), (1 : BitVec 1))]).scratch 64 4 = 4 ∧
    (sgetLE (tmB (ring 1 1 0) [((84 / 4 : Nat), (1 : BitVec 1))]).scratch (64 + 4) 4).testBit 1 = false ∧
    (gB (1 : W64)).ticket = none ∧
    (gB (1 : W64)).obj = [] ∧
    sgetLE (tmB (ring 1 1 0) [((84 / 4 : Nat), (1 : BitVec 1))]).scratch (64 + 16 + 4 * 1) 4 % 2 = 0 ∧
    sgetLE (tmB (ring 1 1 0) [((84 / 4 : Nat), (1 : BitVec 1))]).scratch (64 + 12) 4 = 1 ∧
    (tmB (ring 1 1 0) [((84 / 4 : Nat), (1 : BitVec 1))]).tag (64 + 16 + 4 * 1) = true ∧
    1 < 2 ^ 32 :=
  ⟨(ok_pair (by decide +kernel) (by decide +kernel)), (ok_pair (by decide +kernel) (by decide +kernel)),
    (by unfold NoObjectWaits NoWrap ScalarAt; decide +kernel), (ok_pair (by decide +kernel) (by decide +kernel)),
    (ok_pair (by decide +kernel) (by decide +kernel)), (by unfold NoObjectWaits NoWrap ScalarAt; decide +kernel)⟩

theorem meets_ScalarFormsComplete_1 :
    -- (ScalarFormsComplete.2.1 (sS gr0) g0 gr0 .dyn 1 2 tm0)
    (∀ (f : FabTag), f ∈ (sS gr0).fabTags → f.busy = true → f.why ≠ ReqFor.lane g0 ∧ ∀ (os : List GRef), f.why =
      ReqFor.partial_ os → ¬g0 ∈ os) ∧
    (ScalarAt (sS gr0) g0 gr0 ∧
    g0.isHandler = false ∧
    (sS gr0).team g0.team = some tm0 ∧
    tm0.region gr0.role = none ∧
    gr0.enq ≤ gr0.ended ∧
    gr0.eng = [] ∧
    gr0.out = [] ∧
    gr0.obj = [] ∧
    NoWrap (sS gr0) g0.core 2 1 ∧
    gr0.waitS = none ∧
    (∀ (u : UPart), u ∈ (sS gr0).upart → ¬g0 ∈ u.owners) ∧
    tm0.issuedCe ≤ tm0.doneCe ∧
    tm0.issuedKv ≤ tm0.doneKv ∧
    tm0.issuedCo ≤ tm0.doneCo ∧
    gr0.mxIssued ≤ gr0.mxDone ∧
    (sS gr0).deltas = []) ∧
    (((sS gr0).core g0.core).staging = [] ∧
    (sS gr0).sends = [] ∧
    gr0.survDeg = false ∧
    tm0.survBad = [] ∧
    gr0.morFrames = [] ∧
    tm0.mor = []) ∧
    -- (ScalarFormsComplete.1 (sS gP2) g0 gP2 .dyn 1 2 5)
    ScalarAt (sS gP2) g0 gP2 ∧
    BitVec.toNat (gP2.sreg (1 : SReg)) < 3 ∧
    gP2.role ≠ Role.matrix ∧
    gP2.enq ≤ gP2.ended ∧
    gP2.skipS.nop = false ∧
    -- ((ScalarFormsComplete.1 (sT (sN 0x8001)) g0 (sN 0x8001) .dyn 2 2 5)).2.2.2.2.1 ((sT (sN 0x8001)).checkTarget 1 false f…
    ScalarAt (sT (sN (32769 : W64))) g0 (sN (32769 : W64)) ∧
    (sT (sN (32769 : W64))).checkTarget 1 false false 32800 = (sT (sN (32769 : W64))).checkTarget ((sT (sN (32769 :
      W64))).ctxOf g0) false false (BitVec.toNat ((sN (32769 : W64)).sreg (2 : SReg))) ∧
    ((sT (sN (32769 : W64))).checkTarget 1 false false 32800).fst = Reach.good ∧
    -- ((ScalarFormsComplete.2.1 (sJ gD) g0 (gJ 9) .dyn 1 2 (tmJ (some 4)))).2.2.1 ⟨9, some 4, false⟩ 4 gD
    ScalarAt (sJ gD) g0 (gJ (9 : W64)) ∧
    (sJ gD).team g0.team = some (tmJ (some 4)) ∧
    (List.find? (fun k => k.handle == (gJ (9 : W64)).sreg (1 : SReg)) (tmJ (some 4)).children = some
      { handle := (9 : W64), grid := some 4, joined := false : Child }) ∧
    { handle := (9 : W64), grid := some 4, joined := false : Child }.grid = some 4 ∧
    (sJ gD).grid 4 = some gD ∧
    gD.complete = true ∧
    gD.status = GridStatus.done :=
  ⟨(fun _ h => nomatch h), (by unfold NoWrap ScalarAt; decide +kernel), by decide +kernel,
    (by unfold ScalarAt; decide +kernel)⟩

theorem meets_ScalarFormsComplete_2 :
    -- ((ScalarFormsComplete.2.1 sSpw g0 gSpw .dyn 1 2 tm0)).2.2.2 (spV.1.toOption.getD 0) spN spI spT ((spS.group g0).getD g…
    (spI =
      { ctx := tm0.ctx, level := (Option.map (fun x => x.level) ((sSpw.vread tm0.ctx (BitVec.toNat (gSpw.sreg (1 : SReg))) 128 false).snd.grid tm0.grid)).getD 0, issuer := Issuer.spawn tm0.grid tm0.teamId, depth := tm0.depth + 1, inst := ((sSpw.vread tm0.ctx (BitVec.toNat (gSpw.sreg (1 : SReg))) 128 false).snd.grid tm0.grid).bind fun x => x.inst, seqBase := (0 : W64), step := (0 : W64) : LaunchBy }) ∧
    (sSpw.vread tm0.ctx (BitVec.toNat (gSpw.sreg (1 : SReg))) 128 false).fst = Except.ok (spV.fst.toOption.getD 0) ∧
    (ScalarAt sSpw g0 gSpw ∧
    sSpw.team g0.team = some tm0 ∧
    sSpw.liveChildren tm0 < 16 ∧
    tm0.depth < 4 ∧
    BitVec.toNat (gSpw.sreg (1 : SReg)) % 8 = 0 ∧
    ((sSpw.vread tm0.ctx (BitVec.toNat (gSpw.sreg (1 : SReg))) 128 false).snd.enterLaunch spI (spV.fst.toOption.getD 0)).fst =
      Entered.grid spN ∧
    ((sSpw.vread tm0.ctx (BitVec.toNat (gSpw.sreg (1 : SReg))) 128 false).snd.enterLaunch spI (spV.fst.toOption.getD
      0)).snd.team g0.team = some spT ∧
    ((((sSpw.vread tm0.ctx (BitVec.toNat (gSpw.sreg (1 : SReg))) 128 false).snd.enterLaunch spI (spV.fst.toOption.getD
      0)).snd.draw.snd.setTeam g0.team
      { spT with children := spT.children ++ [{ handle := handleOf spN ((sSpw.vread tm0.ctx (BitVec.toNat (gSpw.sreg (1 : SReg))) 128 false).snd.enterLaunch spI (spV.fst.toOption.getD 0)).snd.draw.fst, grid := some spN, joined := false : Child }] }).testDependence
      spN).group g0 = some ((spS.group g0).getD gSpw) ∧
    ((((sSpw.vread tm0.ctx (BitVec.toNat (gSpw.sreg (1 : SReg))) 128 false).snd.enterLaunch spI (spV.fst.toOption.getD
      0)).snd.draw.snd.setTeam g0.team
      { spT with children := spT.children ++ [{ handle := handleOf spN ((sSpw.vread tm0.ctx (BitVec.toNat (gSpw.sreg (1 : SReg))) 128 false).snd.enterLaunch spI (spV.fst.toOption.getD 0)).snd.draw.fst, grid := some spN, joined := false : Child }] }).testDependence
      spN).grid spN = some ((spS.grid spN).getD grid0) ∧
    ((spS.grid spN).getD grid0).phase ≠ LaunchPhase.specialise) ∧
    -- (ScalarFormsComplete.2.2 (sH (sel 0 3 0) 9 tgT) hg (gH (sel 0 3 0) 9) actH t0 tm0 1 2 g0 tgT 3)
    (HandlerAt (sH (sel 0 3 0) (9 : W64) tgT) hg (gH (sel 0 3 0) (9 : W64)) actH t0 tm0 (1 : SReg) g0 tgT ∧
    actH.slot < 16 ∧
    g0.gid < 32 ∧
    actH.gid < 32 ∧
    tgT.status = GStatus.trapped ∧
    BitVec.toNat ((gH (sel 0 3 0) (9 : W64)).sreg (1 : SReg)) / 2 ^ 31 = 0 ∧
    3 = BitVec.toNat ((gH (sel 0 3 0) (9 : W64)).sreg (1 : SReg)) / 2 ^ 12 % 4096 ∧
    BitVec.toNat ((gH (sel 0 3 0) (9 : W64)).sreg (1 : SReg)) / 2 ^ 8 % 16 = 0 ∧
    0 < 3 ∧
    3 < 64 ∧
    tgT.caused = some Cause.illegal ∧
    (gH (sel 0 3 0) (9 : W64)).out = []) ∧
    ((∀ (u : UPart), u ∈ (sH (sel 0 3 0) (9 : W64) tgT).upart → ¬hg ∈ u.owners) ∧
    (sH (sel 0 3 0) (9 : W64) tgT).group (t0.group actH.gid) = some tgT ∧
    tgT.status ≠ GStatus.exited ∧
    -- (ScalarFormsComplete.2.2 (sH (sel 0 3 0) 9 { tgT with trap := none }) hg (gH (sel 0 3 0) 9) actH t0 tm0 1 2 g0 { tgT w…
    HandlerAt (sH (sel 0 3 0) (9 : W64) { tgT with trap := none }) hg (gH (sel 0 3 0) (9 : W64)) actH t0 tm0 (1 : SReg) g0
      { tgT with trap := none } ∧
    { tgT with trap := none }.status = GStatus.trapped ∧
    { tgT with trap := none }.caused = none ∧
    (∀ (u : UPart), u ∈ (sH (sel 0 3 0) (9 : W64) { tgT with trap := none }).upart → ¬hg ∈ u.owners)) ∧
    (sH (sel 0 3 0) (9 : W64) { tgT with trap := none }).group (t0.group actH.gid) = some groupW1 ∧
    groupW1.status ≠ GStatus.exited :=
  ⟨(by unfold spI; rw [LaunchBy.mk.injEq]; decide +kernel), (except_of (by decide +kernel) (by decide +kernel)),
    (by unfold ScalarAt; decide +kernel), (by unfold HandlerAt ScalarAt; decide +kernel),
    (by unfold HandlerAt ScalarAt; decide +kernel), by decide +kernel⟩

theorem meets_LaneFormsComplete :
    -- LaneFormsComplete (sL gV) g0 gV h1 .i32 .f32 .i8 .f32 .lt .lt .idx .any .add 3 0x155 (.fixed 4 8) ⟨1, true⟩ 2 3 5 6 tr…
    LaneAt (sL gV) g0 gV ∧
    ((Instr.iadd h1 LType.i32 true (8 : VReg) (Sel.v (0 : VReg)) (Sel.v (1 : VReg)), [Sel.v (0 : VReg), Sel.v (1 : VReg)]) ∈ [(Instr.iadd h1 LType.i32 true (8 : VReg) (Sel.v (0 : VReg)) (Sel.v (1 : VReg)), [Sel.v (0 : VReg), Sel.v (1 : VReg)]), (Instr.isub h1 LType.i32 true (8 : VReg) (Sel.v (0 : VReg)) (Sel.v (1 : VReg)), [Sel.v (0 : VReg), Sel.v (1 : VReg)]), (Instr.imul h1 LType.i32 true (8 : VReg) (Sel.v (0 : VReg)) (Sel.v (1 : VReg)), [Sel.v (0 : VReg), Sel.v (1 : VReg)]), (Instr.imad h1 LType.i32 true (8 : VReg) (Sel.v (0 : VReg)) (Sel.v (1 : VReg)) (Sel.v (2 : VReg)), [Sel.v (0 : VReg), Sel.v (1 : VReg), Sel.v (2 : VReg)]), (Instr.imin h1 LType.i32 (8 : VReg) (Sel.v (0 : VReg)) (Sel.v (1 : VReg)), [Sel.v (0 : VReg), Sel.v (1 : VReg)]), (Instr.imax h1 LType.i32 (8 : VReg) (Sel.v (0 : VReg)) (Sel.v (1 : VReg)), [Sel.v (0 : VReg), Sel.v (1 : VReg)]), (Instr.iabs h1 LType.i32 true (8 : VReg) (Sel.v (0 : VReg)), [Sel.v (0 : VReg)]), (Instr.ineg h1 LType.i32 true (8 : VReg) (Sel.v (0 : VReg)), [Sel.v (0 : VReg)]), (Instr.shl h1 LType.i32 true (8 : VReg) (Sel.v (0 : VReg)) (Sel.v (1 : VReg)), [Sel.v (0 : VReg), Sel.v (1 : VReg)]), (Instr.shr h1 LType.i32 true (8 : VReg) (Sel.v (0 : VReg)) (Sel.v (1 : VReg)), [Sel.v (0 : VReg), Sel.v (1 : VReg)]), (Instr.sar h1 LType.i32 true (8 : VReg) (Sel.v (0 : VReg)) (Sel.v (1 : VReg)), [Sel.v (0 : VReg), Sel.v (1 : VReg)])] ++ [(Instr.and h1 LType.i32 (8 : VReg) (Sel.v (0 : VReg)) (Sel.v (1 : VReg)), [Sel.v (0 : VReg), Sel.v (1 : VReg)]), (Instr.or h1 LType.i32 (8 : VReg) (Sel.v (0 : VReg)) (Sel.v (1 : VReg)), [Sel.v (0 : VReg), Sel.v (1 : VReg)]), (Instr.xor h1 LType.i32 (8 : VReg) (Sel.v (0 : VReg)) (Sel.v (1 : VReg)), [Sel.v (0 : VReg), Sel.v (1 : VReg)]), (Instr.logic h1 LType.i32 (5 : Fin 8) (6 : Fin 8) true false (8 : VReg) (Sel.v (0 : VReg)) (Sel.v (1 : VReg)) (Sel.v (2 : VReg)), [Sel.v (0 : VReg), Sel.v (1 : VReg), Sel.v (2 : VReg)]), (Instr.popc h1 LType.i32 (8 : VReg) (Sel.v (0 : VReg)), [Sel.v (0 : VReg)]), (Instr.clz h1 LType.i32 (8 : VReg) (Sel.v (0 : VReg)), [Sel.v (0 : VReg)]), (Instr.brev h1 LType.i32 (8 : VReg) (Sel.v (0 : VReg)), [Sel.v (0 : VReg)]), (Instr.bfe h1 LType.i32 (BfPos.fixed (4 : Fin 32) (8 : Fin 33)) (8 : VReg) (Sel.v (0 : VReg)), Sel.v (0 : VReg) :: List.map (fun x => x.fst) (BfPos.fixed (4 : Fin 32) (8 : Fin 33)).sels), (Instr.bfi h1 (BfPos.fixed (4 : Fin 32) (8 : Fin 33)) (8 : VReg) (Sel.v (0 : VReg)) (Sel.v (2 : VReg)), Sel.v (0 : VReg) :: Sel.v (2 : VReg) :: List.map (fun x => x.fst) (BfPos.fixed (4 : Fin 32) (8 : Fin 33)).sels), (Instr.prmt h1 (8 : VReg) (Sel.v (0 : VReg)) (Sel.v (1 : VReg)) (Sel.v (2 : VReg)), [Sel.v (0 : VReg), Sel.v (1 : VReg), Sel.v (2 : VReg)]), (Instr.isetp h1 SetpTy.i8 ICond.lt (2 : PReg) (Sel.v (0 : VReg)) (Sel.v (1 : VReg)), [Sel.v (0 : VReg), Sel.v (1 : VReg)]), (Instr.sel h1 LType.i32 { p := (1 : PReg), inv := true : PSel } (8 : VReg) (Sel.v (0 : VReg)) (Sel.v (1 : VReg)), [Sel.v (0 : VReg), Sel.v (1 : VReg)]), (Instr.idot4 h1 LType.i32 true (8 : VReg) (Sel.v (0 : VReg)) (Sel.v (1 : VReg)) (Sel.v (2 : VReg)), [Sel.v (0 : VReg), Sel.v (1 : VReg), Sel.v (2 : VReg)])] ++ [(Instr.fadd h1 (8 : VReg) (Sel.v (0 : VReg)) (Sel.v (1 : VReg)), [Sel.v (0 : VReg), Sel.v (1 : VReg)]), (Instr.fmul h1 (8 : VReg) (Sel.v (0 : VReg)) (Sel.v (1 : VReg)), [Sel.v (0 : VReg), Sel.v (1 : VReg)]), (Instr.ffma h1 (8 : VReg) (Sel.v (0 : VReg)) (Sel.v (1 : VReg)) (Sel.v (2 : VReg)), [Sel.v (0 : VReg), Sel.v (1 : VReg), Sel.v (2 : VReg)]), (Instr.fmin h1 true (8 : VReg) (Sel.v (0 : VReg)) (Sel.v (1 : VReg)), [Sel.v (0 : VReg), Sel.v (1 : VReg)]), (Instr.fmax h1 true (8 : VReg) (Sel.v (0 : VReg)) (Sel.v (1 : VReg)), [Sel.v (0 : VReg), Sel.v (1 : VReg)]), (Instr.fsetp h1 FTy.f32 FCond.lt (2 : PReg) (Sel.v (0 : VReg)) (Sel.v (1 : VReg)), [Sel.v (0 : VReg), Sel.v (1 : VReg)]), (Instr.fclass h1 FTy.f32 (341 : BitVec 10) (2 : PReg) (Sel.v (0 : VReg)), [Sel.v (0 : VReg)]), (Instr.frnd h1 FTy.f32 true (8 : VReg) (Sel.v (0 : VReg)), [Sel.v (0 : VReg)]), (Instr.hadd2 h1 FTy.f32 (8 : VReg) (Sel.v (0 : VReg)) (Sel.v (1 : VReg)), [Sel.v (0 : VReg), Sel.v (1 : VReg)]), (Instr.hmul2 h1 FTy.f32 (8 : VReg) (Sel.v (0 : VReg)) (Sel.v (1 : VReg)), [Sel.v (0 : VReg), Sel.v (1 : VReg)]), (Instr.hfma2 h1 FTy.f32 (8 : VReg) (Sel.v (0 : VReg)) (Sel.v (1 : VReg)) (Sel.v (2 : VReg)), [Sel.v (0 : VReg), Sel.v (1 : VReg), Sel.v (2 : VReg)]), (Instr.cvt h1 LType.i32 LType.f32 (8 : VReg) (Sel.v (0 : VReg)), [Sel.v (0 : VReg)]), (Instr.pack h1 LType.i32 (8 : VReg) (Sel.v (0 : VReg)) (Sel.v (1 : VReg)) (Sel.v (2 : VReg)) (Sel.v (3 : VReg)), [Sel.v (0 : VReg), Sel.v (1 : VReg), Sel.v (2 : VReg), Sel.v (3 : VReg)]), (Instr.unpk h1 LType.i32 (3 : Fin 8) (8 : VReg) (Sel.v (0 : VReg)), [Sel.v (0 : VReg)])] ++ [(Instr.rcp h1 (8 : VReg) (Sel.v (0 : VReg)), [Sel.v (0 : VReg)]), (Instr.rsq h1 (8 : VReg) (Sel.v (0 : VReg)), [Sel.v (0 : VReg)]), (Instr.sqrt h1 (8 : VReg) (Sel.v (0 : VReg)), [Sel.v (0 : VReg)]), (Instr.ex2 h1 (8 : VReg) (Sel.v (0 : VReg)), [Sel.v (0 : VReg)]), (Instr.lg2 h1 (8 : VReg) (Sel.v (0 : VReg)), [Sel.v (0 : VReg)]), (Instr.sin h1 (8 : VReg) (Sel.v (0 : VReg)), [Sel.v (0 : VReg)]), (Instr.cos h1 (8 : VReg) (Sel.v (0 : VReg)), [Sel.v (0 : VReg)]), (Instr.tanh h1 (8 : VReg) (Sel.v (0 : VReg)), [Sel.v (0 : VReg)]), (Instr.mov h1 LType.i32 (8 : VReg) (Sel.v (0 : VReg)), [Sel.v (0 : VReg)])] ++ [(Instr.shfl h1 LType.i32 ShflMode.idx (8 : VReg) (0 : VReg) (Sel.v (1 : VReg)), [Sel.v (1 : VReg)]), (Instr.bcast h1 LType.i32 (8 : VReg) (0 : VReg) (Sel.v (1 : VReg)), [Sel.v (1 : VReg)]), (Instr.getl h1 (8 : VReg), []), (Instr.vote h1 VoteMode.any { p := (1 : PReg), inv := true : PSel } (8 : VReg), []), (Instr.matchLanes h1 LType.i32 true (8 : VReg) (Sel.v (0 : VReg)), [Sel.v (0 : VReg)]), (Instr.redux h1 LType.i32 RedOp.add (3 : YReg) true (8 : VReg) (Sel.v (0 : VReg)), [Sel.v (0 : VReg)]), (Instr.scan h1 LType.i32 RedOp.add true (8 : VReg) (Sel.v (0 : VReg)), [Sel.v (0 : VReg)]), (Instr.gsort h1 LType.i32 true (8 : VReg) (Sel.v (0 : VReg)) (Sel.v (1 : VReg)), [Sel.v (0 : VReg), Sel.v (1 : VReg)]), (Instr.elect h1 (2 : PReg), []), (Instr.exmget h1 (8 : VReg), []), (Instr.exmset h1 (Sel.v (0 : VReg)), [Sel.v (0 : VReg)]), (Instr.lnop h1, []), (Instr.pref h1 true (Sel.v (0 : VReg)) (Sel.v (1 : VReg)) (16 : W16), [Sel.v (0 : VReg), Sel.v (1 : VReg)]), (Instr.rand h1 (8 : VReg) (Sel.v (0 : VReg)) (Sel.v (1 : VReg)), [Sel.v (0 : VReg), Sel.v (1 : VReg)])]) :=
  by unfold LaneAt; decide +kernel

theorem meets_LaneControlFormsComplete :
    -- ((LaneControlFormsComplete (sLC gC0) g0 gC0 h0 1 2 0 2 e0 [])).1
    (LaneAt (sLC gC0) g0 gC0 ∧
    gC0.stack.length < 32 ∧
    laneMask (((sLC gC0).view gC0.endLook).fst.active h0) = (0 : W32) ∧
    -- (((LaneControlFormsComplete (sLC gC) g0 gC h0 1 2 0 2 e0 [])).1).2.1
    LaneAt (sLC gC) g0 gC ∧
    gC.stack.length < 32 ∧
    laneMask (((sLC gC).view gC.endLook).fst.active h0) ≠ (0 : W32) ∧
    gC.exmL &&& ~~~laneMask (((sLC gC).view gC.endLook).fst.active h0) = (0 : W32) ∧
    (((sLC gC).view gC.endLook).snd.checkTarget (((sLC gC).view gC.endLook).snd.ctxOf g0) true false (BitVec.ofInt 64
      (((↑(BitVec.toNat gC.lpc / 16) : Int) + BitVec.toInt (1 : BitVec 12)) * (16 : Int) + (↑(↑(2 : Fin 16) : Nat) :
      Int))).toNat).fst = Reach.good ∧
    -- (((LaneControlFormsComplete (sLC gC) g0 gC h0 1 2 0 2 e0 [])).1).2.2.1 1
    (((sLC gC).view gC.endLook).snd.checkTarget (((sLC gC).view gC.endLook).snd.ctxOf g0) true true (BitVec.ofInt 64
      (((↑(BitVec.toNat gC.lpc / 16) : Int) + BitVec.toInt (1 : W16)) * (16 : Int) + (↑0 : Int))).toNat).fst = Reach.good ∧
    -- (((LaneControlFormsComplete (sLC gCk) g0 gCk h0 1 2 0 2 e0 [])).1).2.2.2 1
    LaneAt (sLC gCk) g0 gCk ∧
    gCk.stack.length < 32 ∧
    laneMask (((sLC gCk).view gCk.endLook).fst.active h0) ≠ (0 : W32) ∧
    (((sLC gCk).view gCk.endLook).snd.checkTarget (((sLC gCk).view gCk.endLook).snd.ctxOf g0) true true (sget ((sLC gCk).view
      gCk.endLook).fst.k (↑(1 : KReg) : Nat)).toNat).fst = Reach.good ∧
    -- ((LaneControlFormsComplete (sLC gC0) g0 gC0 h0 1 2 0 2 {e0 with kind := .call} [])).2.1
    gC0.stack = [{ e0 with kind := StackKind.call }] ∧
    { e0 with kind := StackKind.call }.kind = StackKind.call ∧
    ((sLC gC0).checkTarget ((sLC gC0).ctxOf g0) true false (BitVec.toNat { e0 with kind := StackKind.call }.lpc)).fst =
      Reach.good) ∧
    -- ((LaneControlFormsComplete (sLC gC2) g0 gC2 h0 1 2 0 2 {e0 with pnd := false, lpc := 0x4001} [])).2.2.1
    LaneAt (sLC gC2) g0 gC2 ∧
    gC2.stack = [{ e0 with lpc := (16385 : W64), pnd := false }] ∧
    { e0 with lpc := (16385 : W64), pnd := false }.kind = StackKind.diverge ∧
    { e0 with lpc := (16385 : W64), pnd := false }.pnd = false ∧
    { e0 with lpc := (16385 : W64), pnd := false }.lpc = gC2.lpc ∧
    -- ((LaneControlFormsComplete (sLC gC) g0 gC h0 1 2 0 2 e0 [])).2.2.2.1 [(0, 0x40000), (1, 0x40000)]
    gC.run = some { k := [(0, (262144 : BitVec 64)), (1, (262144 : BitVec 64))], depth := gC.stack.length : Run } ∧
    (sLC gC).hostOf g0 gC = false ∧
    gC.out = [] ∧
    gC.mx = [] ∧
    gC.look = [] ∧
    -- ((LaneControlFormsComplete (sLC gC) g0 gC h0 1 2 0 2 e0 [])).2.2.2.2 2 3 tm0
    g0.isHandler = false ∧
    (sLC gC).team g0.team = some tm0 ∧
    tm0.region gC.role = none ∧
    (sLC gC).pushMeet g0 gC = none ∧
    gC.alt = [] ∧
    gC.status = GStatus.active ∧
    ((sLC gC).view gC).fst.active h0 ≠ [] ∧
    (sLC gC).participants g0.team gC.role = [(g0, gC)] :=
  ⟨(by unfold LaneAt; decide +kernel), (by unfold LaneAt; decide +kernel)⟩

theorem meets_LaneMemoryFormsComplete_1 :
    -- ((LaneMemoryFormsComplete (sL (gMx (some (2,5)) 0x42000)) g0 (gMx (some (2,5)) 0x42000) h0 (fn .b32) .fadd .w32 false …
    ((seen (sL (gMx (some (2, 5)) (270336 : W64))) (gMx (some (2, 5)) (270336 : W64)) [] []).snd.checkTile ((seen (sL (gMx
      (some (2, 5)) (270336 : W64))) (gMx (some (2, 5)) (270336 : W64)) [] []).snd.ctxOf g0) 270336 true true (some
      g0.core)).fst = .ok { pa := 270336, r := true, w := true, x := true, host := false, mor := false : Xl } ∧
    ((seen (sL (gMx (some (2, 5)) (270336 : W64))) (gMx (some (2, 5)) (270336 : W64)) [] []).snd.checkTile ((seen (sL (gMx
      (some (2, 5)) (270336 : W64))) (gMx (some (2, 5)) (270336 : W64)) [] []).snd.ctxOf g0) 270336 false true (some
      g0.core)).fst = .ok { pa := 270336, r := true, w := true, x := true, host := false, mor := false : Xl } ∧
    ((seen (sL (gMx (some (2, 5)) (270336 : W64))) (gMx (some (2, 5)) (270336 : W64)) [(↑(8 : VReg) : Nat)] []).snd.checkTile
      ((seen (sL (gMx (some (2, 5)) (270336 : W64))) (gMx (some (2, 5)) (270336 : W64)) [(↑(8 : VReg) : Nat)] []).snd.ctxOf g0)
      270336 true false (some g0.core)).fst = .ok
      { pa := 270336, r := true, w := true, x := true, host := false, mor := false : Xl } ∧
    (LaneAt (sL (gMx (some (2, 5)) (270336 : W64))) g0 (gMx (some (2, 5)) (270336 : W64)) ∧
    270336 = (sget (seen (sL (gMx (some (2, 5)) (270336 : W64))) (gMx (some (2, 5)) (270336 : W64)) [] []).fst.k (↑(2 : KReg) :
      Nat)).toNat ∧
    mxFmtOk (seen (sL (gMx (some (2, 5)) (270336 : W64))) (gMx (some (2, 5)) (270336 : W64)) [] []).fst.fmt = true ∧
    laneMask ((seen (sL (gMx (some (2, 5)) (270336 : W64))) (gMx (some (2, 5)) (270336 : W64)) [] []).fst.active h0) =
      (4294967295 : W32) ∧
    (gMx (some (2, 5)) (270336 : W64)).grant ≠ none ∧
    270336 % 8192 = 0 ∧
    ((seen (sL (gMx (some (2, 5)) (270336 : W64))) (gMx (some (2, 5)) (270336 : W64)) [(↑(8 : VReg) : Nat)] []).snd.checkTile
      ((seen (sL (gMx (some (2, 5)) (270336 : W64))) (gMx (some (2, 5)) (270336 : W64)) [(↑(8 : VReg) : Nat)] []).snd.ctxOf g0)
      270336 true false (some g0.core)).snd.poison = [] ∧
    ((seen (sL (gMx (some (2, 5)) (270336 : W64))) (gMx (some (2, 5)) (270336 : W64)) [(↑(8 : VReg) : Nat)] []).snd.checkTile
      ((seen (sL (gMx (some (2, 5)) (270336 : W64))) (gMx (some (2, 5)) (270336 : W64)) [(↑(8 : VReg) : Nat)] []).snd.ctxOf g0)
      270336 true false (some g0.core)).snd.chanDown = [] ∧
    (∀ (y : MxCmd), y ∈ (gMx (some (2, 5)) (270336 : W64)).mx → y.kind ≠ MxKind.mma ∨ y.pa ≠
      { pa := 270336, r := true, w := true, x := true, host := false, mor := false : Xl }.pa)) ∧
    -- ((LaneMemoryFormsComplete (sL gA) g0 gA h0 (fn .b32) .fadd .w32 false true 8 .gl (.k 0) (.v 0) (.v 1) (.v 2) 16)).1
    (LaneAt (sL gA) g0 gA ∧
    ((fn MWidth.b32).atomic = true → (fn MWidth.b32).width = MWidth.b64 ∨ (fn MWidth.b32).width = MWidth.b128) ∧
    (fn MWidth.b32).tag = TagMode.none ∧
    gA.pathCount PathClass.gl < 63 ∧
    (firstCause (checkLanes (fun s l => s.checkSpan (s.ctxOf g0) (globalVa h0 (Sel.k (0 : KReg)) (Sel.v (0 : VReg)) (16 : W16)
      (seen (sL gA) gA (List.map (fun x => (↑(8 : VReg) : Nat) + x) (List.range (((fn MWidth.b32).width.bytes + 3) / 4)))
      []).fst l) (fn MWidth.b32).width.bytes (ordUnit (fn MWidth.b32)) true false true (!gA.skipL.wp) (some g0.core)
      (s.teamIdOf g0)) ((seen (sL gA) gA (List.map (fun x => (↑(8 : VReg) : Nat) + x) (List.range (((fn MWidth.b32).width.bytes
      + 3) / 4))) []).fst.active h0) (seen (sL gA) gA (List.map (fun x => (↑(8 : VReg) : Nat) + x) (List.range (((fn
      MWidth.b32).width.bytes + 3) / 4))) []).snd).fst = none) ∧
    -- ((LaneMemoryFormsComplete (sL gA) g0 gA h0 (fn .b32) .fadd .w32 false true 8 .gl (.k 0) (.v 0) (.v 1) (.v 2) 16)).2.1
    gA.pathCount PathClass.st < 63 ∧
    (firstCause (checkLanes (fun s l => s.checkSpan (s.ctxOf g0) (globalVa h0 (Sel.k (0 : KReg)) (Sel.v (0 : VReg)) (16 : W16)
      (seen (sL gA) gA [] []).fst l) (fn MWidth.b32).width.bytes (ordUnit (fn MWidth.b32)) false true true (!gA.skipL.wp) (some
      g0.core) (s.teamIdOf g0)) ((seen (sL gA) gA [] []).fst.active h0) (seen (sL gA) gA [] []).snd).fst = none) ∧
    -- (LaneMemoryFormsComplete (sL gA) g0 gA h0 (fn .b32) .fadd .w32 false true 8 .gl (.k 1) (.v 0) (.v 1) (.v 2) 16).2.2.1
    gA.pathCount PathClass.sl < 63 ∧
    (firstCause (checkLanes (fun s l => s.checkLocal false (s.teamRefOf g0) (scratchVa h0 (Sel.k (1 : KReg)) (Sel.v (0 : VReg))
      (16 : W16) (seen (sL gA) gA (List.map (fun x => (↑(8 : VReg) : Nat) + x) (List.range (((fn MWidth.b32).width.bytes + 3) /
      4))) []).fst l) (fn MWidth.b32).width.bytes (ordUnit (fn MWidth.b32))) ((seen (sL gA) gA (List.map (fun x => (↑(8 : VReg)
      : Nat) + x) (List.range (((fn MWidth.b32).width.bytes + 3) / 4))) []).fst.active h0) (seen (sL gA) gA (List.map (fun x =>
      (↑(8 : VReg) : Nat) + x) (List.range (((fn MWidth.b32).width.bytes + 3) / 4))) []).snd).fst = none) ∧
    -- (LaneMemoryFormsComplete (sL gA) g0 gA h0 (fn .b32) .fadd .w32 false true 8 .gl (.k 1) (.v 0) (.v 1) (.v 2) 16).2.2.2.…
    (firstCause (checkLanes (fun s l => s.checkLocal false (s.teamRefOf g0) (scratchVa h0 (Sel.k (1 : KReg)) (Sel.v (0 : VReg))
      (16 : W16) (seen (sL gA) gA [] []).fst l) (fn MWidth.b32).width.bytes (ordUnit (fn MWidth.b32))) ((seen (sL gA) gA []
      []).fst.active h0) (seen (sL gA) gA [] []).snd).fst = none) ∧
    -- ((LaneMemoryFormsComplete (sL gA) g0 gA h0 (fn .b32) .fadd .w32 false true 8 .gl (.k 1) (.v 0) (.v 1) (.v 2) 16)).2.2.…
    (firstCause (checkLanes (fun s l => s.checkLocal true (s.teamRefOf g0) (scratchVa h0 (Sel.k (1 : KReg)) (Sel.v (0 : VReg))
      (16 : W16) (seen (sL gA) gA (List.map (fun x => (↑(8 : VReg) : Nat) + x) (List.range (((fn MWidth.b32).width.bytes + 3) /
      4))) []).fst l) (fn MWidth.b32).width.bytes (ordUnit (fn MWidth.b32))) ((seen (sL gA) gA (List.map (fun x => (↑(8 : VReg)
      : Nat) + x) (List.range (((fn MWidth.b32).width.bytes + 3) / 4))) []).fst.active h0) (seen (sL gA) gA (List.map (fun x =>
      (↑(8 : VReg) : Nat) + x) (List.range (((fn MWidth.b32).width.bytes + 3) / 4))) []).snd).fst = none) ∧
    -- ((LaneMemoryFormsComplete (sL gA) g0 gA h0 (fn .b32) .fadd .w32 false true 8 .gl (.k 1) (.v 0) (.v 1) (.v 2) 16)).2.2.…
    (firstCause (checkLanes (fun s l => s.checkLocal true (s.teamRefOf g0) (scratchVa h0 (Sel.k (1 : KReg)) (Sel.v (0 : VReg))
      (16 : W16) (seen (sL gA) gA [] []).fst l) (fn MWidth.b32).width.bytes (ordUnit (fn MWidth.b32))) ((seen (sL gA) gA []
      []).fst.active h0) (seen (sL gA) gA [] []).snd).fst = none) ∧
    -- (LaneMemoryFormsComplete (sL gA) g0 gA h0 (fn .b32) .fadd .w32 false true 8 .gl (.k 1) (.v 0) (.v 1) (.v 2) 16).2.2.2.…
    (firstCause (checkLanes (fun s l => s.checkLocal false (s.teamRefOf g0) (scratchVa h0 (Sel.k (1 : KReg)) (Sel.v (0 : VReg))
      (16 : W16) (seen (sL gA) gA [] []).fst l) 4 4) ((seen (sL gA) gA [] []).fst.active h0) (seen (sL gA) gA [] []).snd).fst =
      none) ∧
    -- (LaneMemoryFormsComplete (sL gA) g0 gA h0 (fn .b32) .fadd .w32 false true 8 .gl (.k 1) (.v 0) (.v 1) (.v 2) 16).2.2.2.…
    (firstCause (checkLanes (fun s l => s.checkLocal false (s.teamRefOf g0) (scratchVa h0 (Sel.k (1 : KReg)) (Sel.v (0 : VReg))
      (16 : W16) (seen (sL gA) gA [(↑(8 : VReg) : Nat)] []).fst l) 4 4) ((seen (sL gA) gA [(↑(8 : VReg) : Nat)] []).fst.active
      h0) (seen (sL gA) gA [(↑(8 : VReg) : Nat)] []).snd).fst = none) ∧
    -- (LaneMemoryFormsComplete sFab g0 gA h0 (fn .b32) .fadd .w32 false true 8 .gl (.k 1) (.v 1) (.v 2) (.v 0) 16).2.2.2.2.2…
    LaneAt sFab g0 gA ∧
    gA.pathCount PathClass.rm < 63 ∧
    (firstCause (checkLanes (fun s l => s.checkFabric (s.ctxOf g0) ((seen sFab gA (List.map (fun x => (↑(8 : VReg) : Nat) + x)
      (List.range (((fn MWidth.b32).width.bytes + 3) / 4))) []).fst.src h0 OTy.nat (Sel.v (1 : VReg)) l) (fabricVa (Sel.k (1 :
      KReg)) (16 : W16) (seen sFab gA (List.map (fun x => (↑(8 : VReg) : Nat) + x) (List.range (((fn MWidth.b32).width.bytes +
      3) / 4))) []).fst l) (fn MWidth.b32).width.bytes (ordUnit (fn MWidth.b32)) true false true (some g0.core)) ((seen sFab gA
      (List.map (fun x => (↑(8 : VReg) : Nat) + x) (List.range (((fn MWidth.b32).width.bytes + 3) / 4))) []).fst.active h0)
      (seen sFab gA (List.map (fun x => (↑(8 : VReg) : Nat) + x) (List.range (((fn MWidth.b32).width.bytes + 3) / 4)))
      []).snd).fst = none) ∧
    -- (LaneMemoryFormsComplete sFab g0 gA h0 (fn .b32) .fadd .w32 false true 8 .gl (.k 1) (.v 1) (.v 2) (.v 0) 16).2.2.2.2.2…
    (firstCause (checkLanes (fun s l => s.checkFabric (s.ctxOf g0) ((seen sFab gA [] []).fst.src h0 OTy.nat (Sel.v (1 : VReg))
      l) (fabricVa (Sel.k (1 : KReg)) (16 : W16) (seen sFab gA [] []).fst l) (fn MWidth.b32).width.bytes (ordUnit (fn
      MWidth.b32)) false true true (some g0.core)) ((seen sFab gA [] []).fst.active h0) (seen sFab gA [] []).snd).fst = none)) ∧
    -- (LaneMemoryFormsComplete sFab g0 gA h0 (fn .b32) .fadd .w32 false true 8 .gl (.k 1) (.v 1) (.v 2) (.v 0) 16).2.2.2.2.2…
    (firstCause (checkLanes (fun s l => s.checkFabric (s.ctxOf g0) ((seen sFab gA (if false = true then [] else if AWidth.w32 =
      AWidth.w64 then [(↑(8 : VReg) : Nat), (↑(8 : VReg) : Nat) + 1] else [(↑(8 : VReg) : Nat)]) []).fst.src h0 OTy.nat (Sel.v
      (1 : VReg)) l) (fabricVa (Sel.k (1 : KReg)) (16 : W16) (seen sFab gA (if false = true then [] else if AWidth.w32 =
      AWidth.w64 then [(↑(8 : VReg) : Nat), (↑(8 : VReg) : Nat) + 1] else [(↑(8 : VReg) : Nat)]) []).fst l) AWidth.w32.bytes
      AWidth.w32.bytes true true (AOp.fadd == AOp.add || AOp.fadd == AOp.xch || AOp.fadd == AOp.cas) (some g0.core)) ((seen
      sFab gA (if false = true then [] else if AWidth.w32 = AWidth.w64 then [(↑(8 : VReg) : Nat), (↑(8 : VReg) : Nat) + 1] else
      [(↑(8 : VReg) : Nat)]) []).fst.active h0) (seen sFab gA (if false = true then [] else if AWidth.w32 = AWidth.w64 then
      [(↑(8 : VReg) : Nat), (↑(8 : VReg) : Nat) + 1] else [(↑(8 : VReg) : Nat)]) []).snd).fst = none) ∧
    -- ((LaneMemoryFormsComplete (sL gA) g0 gA h0 (fn .b32) .fadd .w32 false true 8 .gl (.k 0) (.v 0) (.v 1) (.v 2) 16)).2.2.…
    (firstCause (checkLanes (fun s l => s.checkGlobal (s.ctxOf g0) (globalVa h0 (Sel.k (0 : KReg)) (Sel.v (0 : VReg)) (16 :
      W16) (seen (sL gA) gA (if false = true then [] else if AWidth.w32 = AWidth.w64 then [(↑(8 : VReg) : Nat), (↑(8 : VReg) :
      Nat) + 1] else [(↑(8 : VReg) : Nat)]) []).fst l) AWidth.w32.bytes AWidth.w32.bytes (!false) true (!false && (AOp.fadd ==
      AOp.add || AOp.fadd == AOp.xch || AOp.fadd == AOp.cas)) (!gA.skipL.wp) (some g0.core) (s.teamIdOf g0)) ((seen (sL gA) gA
      (if false = true then [] else if AWidth.w32 = AWidth.w64 then [(↑(8 : VReg) : Nat), (↑(8 : VReg) : Nat) + 1] else [(↑(8 :
      VReg) : Nat)]) []).fst.active h0) (seen (sL gA) gA (if false = true then [] else if AWidth.w32 = AWidth.w64 then [(↑(8 :
      VReg) : Nat), (↑(8 : VReg) : Nat) + 1] else [(↑(8 : VReg) : Nat)]) []).snd).fst = none) ∧
    -- ((LaneMemoryFormsComplete (sL gA) g0 gA h0 (fn .b32) .fadd .w32 false true 8 .gl (.k 0) (.v 0) (.v 1) (.v 2) 16)).2.2.…
    (firstCause (checkLanes (fun s l => s.checkGlobal (s.ctxOf g0) (globalVa h0 (Sel.k (0 : KReg)) (Sel.v (0 : VReg)) (16 :
      W16) (seen (sL gA) gA [] []).fst l) AWidth.w32.bytes AWidth.w32.bytes (!true) true (!true && (AOp.fadd == AOp.add ||
      AOp.fadd == AOp.xch || AOp.fadd == AOp.cas)) (!gA.skipL.wp) (some g0.core) (s.teamIdOf g0)) ((seen (sL gA) gA []
      []).fst.active h0) (seen (sL gA) gA [] []).snd).fst = none) ∧
    -- ((LaneMemoryFormsComplete (sL gA) g0 gA h0 (fn .b32) .fadd .w32 false true 8 .gl (.k 0) (.v 0) (.v 1) (.v 2) 16)).2.2.…
    gA.out = [] :=
  ⟨(ok_of (by decide +kernel)), (ok_of (by decide +kernel)), (ok_of (by decide +kernel)), (by unfold LaneAt; decide +kernel),
    (by unfold LaneAt; decide +kernel), by decide +kernel⟩

theorem meets_LaneMemoryFormsComplete_2 :
    -- (((LaneMemoryFormsComplete (sL gMx2) g0 gMx2 h0 (fn .b32) .fadd .w32 false true 8 .gl (.k 0) (.v 0) (.v 1) (.inl 0) 16…
    ((seen (sL gMx2) gMx2 [(↑(8 : VReg) : Nat)] []).snd.checkTile ((seen (sL gMx2) gMx2 [(↑(8 : VReg) : Nat)] []).snd.ctxOf g0)
      270336 true false (some g0.core)).fst = Except.ok
      { pa := 270336, r := true, w := true, x := true, host := false, mor := false : Xl } ∧
    (∃ l, (seen (sL gMx2) gMx2 [(↑(8 : VReg) : Nat)] []).fst.active h0 = [l]) ∧
    LaneAt (sL gMx2) g0 gMx2 ∧
    270336 = (sget (seen (sL gMx2) gMx2 [] []).fst.k (↑(2 : KReg) : Nat)).toNat ∧
    (∀ (y : MxCmd), y ∈ gMx2.mx → y.kind ≠ MxKind.mma ∨ y.pa ≠
      { pa := 270336, r := true, w := true, x := true, host := false, mor := false : Xl }.pa) ∧
    ((seen (sL gMx2) gMx2 [(↑(8 : VReg) : Nat)] []).snd.checkTile ((seen (sL gMx2) gMx2 [(↑(8 : VReg) : Nat)] []).snd.ctxOf g0)
      270336 true false (some g0.core)).snd.poison = [] ∧
    ((seen (sL gMx2) gMx2 [(↑(8 : VReg) : Nat)] []).snd.checkTile ((seen (sL gMx2) gMx2 [(↑(8 : VReg) : Nat)] []).snd.ctxOf g0)
      270336 true false (some g0.core)).snd.chanDown = [] :=
  ⟨(except_of (by decide +kernel) (by decide +kernel)), ⟨_, rfl⟩, (by unfold LaneAt; decide +kernel)⟩

theorem meets_HostFormsComplete_1 :
    -- ((HostFormsComplete { sbk with queues := [(3, qri)] } 3 qri 5 0 (2^63))).2.2.2.2.1 ⟨2^63+2^62+5, 1, 2, 3, 4⟩
    ({ sbk with queues := [(3, qri)] }.endpointUp = true ∧
    { sbk with queues := [(3, qri)] }.queue 3 = some qri ∧
    2 ^ 63 < 2 ^ 64 ∧
    aget { sbk with queues := [(3, qri)] }.banks 5 = some bankW1 ∧
    (2 ^ 63).testBit 63 = true ∧
    -- ((HostFormsComplete (sqs qdis qdN) 3 qdis 0x90000 0 0)).2.2.2.2.2.2.1 ((sqs qdis qdN).pread 0x90000 128)
    (sqs qdis qdN).endpointUp = true ∧
    (sqs qdis qdN).queue 3 = some qdis ∧
    0 < 2 ^ 64 ∧
    3 < 4096 ∧
    qdis.state = QState.disabled ∧
    589824 ≠ 0 ∧
    589824 % 128 = 0 ∧
    589824 + 128 ≤ memTop ∧
    queueDescOk ((sqs qdis qdN).pread 589824 128).fst = true ∧
    byteField ((sqs qdis qdN).pread 589824 128).fst 56 8 = 0 ∧
    -- (HostFormsComplete (sqs { qri with disabling := true } qdN) 3 { qri with disabling := true } 0 0 0)
    (sqs { qri with disabling := true } qdN).endpointUp = true ∧
    (sqs { qri with disabling := true } qdN).queue 3 = some { qri with disabling := true } ∧
    PlainHomes (sqs { qri with disabling := true } qdN) ∧
    NoObjectWaits (sqs { qri with disabling := true } qdN)) ∧
    0 + 0 ≤ memTop ∧
    NothingLocked (sqs { qri with disabling := true } qdN) ∧
    (sqs { qri with disabling := true } qdN).leftBy none 0 0 = [] ∧
    (sqs { qri with disabling := true } qdN).ctl.setLen = 0 ∧
    0 < memTop ∧
    0 < 4096 ∧
    0 / 2 ^ 32 % 32 ≤ 16 ∧
    0 < 384 ∧
    { qri with disabling := true }.state ≠ QState.disabled ∧
    { qri with disabling := true }.disabling = true ∧
    { qri with disabling := true }.packets = [] ∧
    { qri with disabling := true }.state = QState.idle ∧
    { qri with disabling := true }.resident = true ∧
    { qri with disabling := true }.busy = false :=
  ⟨(by unfold NoObjectWaits PlainHomes; decide +kernel), (by unfold NothingLocked; decide +kernel)⟩

theorem meets_HostFormsComplete_2 :
    -- (HostFormsComplete (sqs { qri with resident := false } qdN) 3 { qri with resident := false } 0 0 0)
    ((sqs { qri with resident := false } qdN).endpointUp = true ∧
    (sqs { qri with resident := false } qdN).queue 3 = some { qri with resident := false } ∧
    PlainHomes (sqs { qri with resident := false } qdN) ∧
    NoObjectWaits (sqs { qri with resident := false } qdN) ∧
    NothingLocked (sqs { qri with resident := false } qdN) ∧
    (sqs { qri with resident := false } qdN).leftBy none 0 0 = [] ∧
    (sqs { qri with resident := false } qdN).ctl.setLen = 0 ∧
    { qri with resident := false }.state ≠ QState.disabled ∧
    (List.filter (fun p => !p.snd.resident && p.snd.state != QState.disabled) (sqs { qri with resident := false } qdN).queues =
      [(3, { qri with resident := false })]) ∧
    (sqs { qri with resident := false } qdN).residents < 256 ∧
    -- ((HostFormsComplete (sqt qt (hdr 0 8 0)) 3 qt 0 0 0)).2.2.2.2.2.2.2.2.2.2.2.2.1
    (sqt qt (hdr 0 8 0)).endpointUp = true ∧
    (sqt qt (hdr 0 8 0)).queue 3 = some qt ∧
    qt.newProg = none ∧
    qt.takes = true ∧
    (((sqt qt (hdr 0 8 0)).pread (qt.seg + qt.offset) 8).snd.linkHeld (((sqt qt (hdr 0 8 0)).pread (qt.seg + qt.offset) 8).fst
      % 256)).fst = false ∧
    ((sqt qt (hdr 0 8 0)).pread (qt.seg + qt.offset) 8).fst / 2 ^ 32 = qt.seq ∧
    qt.headerOk ((sqt qt (hdr 0 8 0)).pread (qt.seg + qt.offset) 8).fst = true) ∧
    (sqt qt (hdr 0 8 0)).mayIssueKind qt (((sqt qt (hdr 0 8 0)).pread (qt.seg + qt.offset) 8).fst % 256) = true ∧
    -- ((HostFormsComplete (sqs qce 0) 3 qce 0 0 0)).2.2.2.2.2.2.2.2.2.2.2.2.2 (qce.packets.headD pk0) [] 3
    (sqs qce 0).endpointUp = true ∧
    (sqs qce 0).queue 3 = some qce ∧
    qce.packets = [qce.packets.headD pk0] ∧
    (qce.packets.headD pk0).status = some 3 ∧
    (qce.packets.headD pk0).waitGrids = [] ∧
    (qce.packets.headD pk0).dropped = none ∧
    (qce.packets.headD pk0).linkFrom = none ∧
    (qce.busy = true → ([] : List Packet) ≠ []) ∧
    qce.resident = true ∧
    (sqs qce 0).completionRoom qce = true :=
  ⟨(by unfold NoObjectWaits NothingLocked PlainHomes; decide +kernel), by decide +kernel⟩

theorem meets_PacketFormsComplete_1 :
    -- ((PacketFormsComplete.1 sld2 3 (qb lld) pk0)).2.2.2.1 (recOf recM) nmT
    (sld2.readRecord (qb lld).ctx ((qb lld).body.getD 2 0)).fst = Except.ok (recOf recM) ∧
    ((sld2.readRecord (qb lld).ctx ((qb lld).body.getD 2 0)).snd.vread (qb lld).ctx ((qb lld).body.getD 2 0 + (recOf
      recM).nameAt.fst) (recOf recM).nameAt.snd true).fst = Except.ok nmT ∧
    (((sld2.readRecord (qb lld).ctx ((qb lld).body.getD 2 0)).snd.vread (qb lld).ctx ((qb lld).body.getD 2 0 + (recOf
      recM).nameAt.fst) (recOf recM).nameAt.snd true).snd.vwrite (((sld2.readRecord (qb lld).ctx ((qb lld).body.getD 2
      0)).snd.vread (qb lld).ctx ((qb lld).body.getD 2 0 + (recOf recM).nameAt.fst) (recOf recM).nameAt.snd true).snd.agent 6
      0) (qb lld).ctx ((qb lld).body.getD 2 0 + 8) 8 ((sld2.readRecord (qb lld).ctx ((qb lld).body.getD 2 0)).snd.vread (qb
      lld).ctx ((qb lld).body.getD 2 0 + (recOf recM).nameAt.fst) (recOf recM).nameAt.snd true).snd.nextCodeId true).fst =
      Except.ok () ∧
    (PacketAt sld2 3 (qb lld) pk0 ∧
    recordOk (recOf recM) = true ∧
    nameOk nmT (recOf recM).nameAt.snd = true) ∧
    -- ((PacketFormsComplete.1 (sb lb) 3 (qb lb) pk0)).2.2.1 9
    (PacketAt (sb lb) 3 (qb lb) pk0 ∧
    ((sb lb).enterLaunch (queueLaunch (qb lb) 3 pk0 ((qb lb).body.getD 3 0)) (wordsNum (qb lb).body)).fst = Entered.grid 9 ∧
    ((sb lb).enterLaunch (queueLaunch (qb lb) 3 pk0 ((qb lb).body.getD 3 0)) (wordsNum (qb lb).body)).snd.queue 3 = some (qb
      lb) ∧
    -- (PacketFormsComplete.1 (sb lpr) 3 (qb lpr) pk0)
    PacketAt (sb lpr) 3 (qb lpr) pk0 ∧
    (qb lpr).body.getD 1 0 % (qb lpr).segBytes = 0 ∧
    (qb lpr).body.getD 1 0 + (qb lpr).segBytes ≤ memTop ∧
    ((sb lpr).ctx (qb lpr).ctx).isSome = true ∧
    (qb lpr).body.getD 1 0 = 0 ∧
    (qb lpr).prog ≠ 0 ∧
    (qb lpr).body.getD 2 0 / 2 ^ 12 = 0 ∧
    (qb lpr).body.getD 2 0 / 4 % 2 ^ 6 = 0 ∧
    -- ((PacketFormsComplete.1 (sb lct) 3 (qb lct) pk0)).2.2.2.2.2.2.2.2.1 1
    PacketAt (sb lct) 3 (qb lct) pk0 ∧
    1 = wordField (qb lct).body 8 4 ∧
    ((qb lct).func = 0 ∨ (sb lct).funcOf 1 = (qb lct).func)) ∧
    (contextOk (qb lct).body = true ∧
    (∀ (e : Nat × Ctx), e ∈ (sb lct).ctxs → e.fst % 4096 = 1 % 4096 → e.fst = 1) ∧
    wordField (qb lct).body 32 8 = 0 ∧
    -- ((PacketFormsComplete.1 (sb (lpe 5 6)) 3 (qb (lpe 5 6)) pk0)).2.2.2.2.2.2.2.2.2.1 (Ctx.fresh 0x10000)
    PacketAt (sb (lpe 5 6)) 3 (qb (lpe 5 6)) pk0 ∧
    (qb (lpe 5 6)).func = 0 ∧
    (sb (lpe 5 6)).ctx ((qb (lpe 5 6)).body.getD 1 0) = some (Ctx.fresh 65536) ∧
    (qb (lpe 5 6)).body.getD 2 0 % 2 ^ 32 ≤ 10 ^ 6 ∧
    (qb (lpe 5 6)).body.getD 2 0 / 2 ^ 32 ≤ 10 ^ 6 ∧
    (Ctx.fresh 65536).phase = Phase.running ∧
    -- ((PacketFormsComplete.1 srsV 3 (qb lrs) pk0)).2.2.2.2.2.2.2.2.2.2.1 { Ctx.fresh 0x10000 with parkN := 16, parkBase := …
    PacketAt srsV 3 (qb lrs) pk0 ∧
    srsV.ctx (qb lrs).ctx = some { Ctx.fresh 65536 with parkN := 16, parkBase := (8388608 : W64), usedSlots := [2] } ∧
    (List.find? (fun g => g.snd.ctx == (qb lrs).ctx && g.snd.parked.any fun p => p.slot == (qb lrs).body.getD 1 0) srsV.grids =
      some (1, { grid0 with parked := [pkd] })) ∧
    (List.find? (fun p => p.slot == (qb lrs).body.getD 1 0) { grid0 with parked := [pkd] }.parked = some pkd) ∧
    (qb lrs).body.getD 1 0 < { Ctx.fresh 65536 with parkN := 16, parkBase := (8388608 : W64), usedSlots := [2] }.parkN) ∧
    srsV.slotValid (qb lrs).ctx { Ctx.fresh 65536 with parkN := 16, parkBase := (8388608 : W64), usedSlots := [2] } ((qb
      lrs).body.getD 1 0) = true ∧
    srsV.placeAgain { grid0 with parked := [pkd] } pkd = true ∧
    { grid0 with parked := [pkd] }.cluster = false :=
  ⟨(except_of (by decide +kernel) (by decide +kernel)), (except_of (by decide +kernel) (by decide +kernel)),
    (except_of (by decide +kernel) (by decide +kernel)), (by unfold PacketAt; decide +kernel),
    (by unfold PacketAt; decide +kernel), (by unfold PacketAt; decide +kernel), by decide +kernel⟩

theorem meets_PacketFormsComplete_2 :
    -- ((((PacketFormsComplete.1 svr 3 (qb (svb 2 5)) pk0)).2.2.2.2.2.2.2.2.2.2.2.1 5).2.2 instH).2 svr1.2
    svr.vwrite svr.wellhead (qb (svb 2 5)).ctx (instH.desc + 104) 8 1 false = (Except.ok (), svr1.snd) ∧
    (PacketAt svr 3 (qb (svb 2 5)) pk0 ∧
    5 = (qb (svb 2 5)).body.getD 2 0 / 2 ^ 8 % 16 ∧
    (qb (svb 2 5)).body.getD 2 0 / 2 ^ 12 = 0 ∧
    (qb (svb 2 5)).body.getD 2 0 / 4 % 2 ^ 6 = 0 ∧
    svr.inst 5 = some instH ∧
    instH.ctx = (qb (svb 2 5)).ctx ∧
    instH.status = InstStatus.halted ∧
    svr1.snd.queue 3 = some (qb (svb 2 5)) ∧
    svr1.snd.insts = svr.insts) ∧
    -- ((PacketFormsComplete.1 (svS (svb 0 5)) 3 (qb (svb 0 5)) pk0)).2.2.2.2.2.2.2.2.2.2.2.1 5
    (PacketAt (svS (svb 0 5)) 3 (qb (svb 0 5)) pk0 ∧
    5 = (qb (svb 0 5)).body.getD 2 0 / 2 ^ 8 % 16 ∧
    (qb (svb 0 5)).body.getD 2 0 / 2 ^ 12 = 0 ∧
    (qb (svb 0 5)).body.getD 2 0 / 4 % 2 ^ 6 = 0 ∧
    ((svS (svb 0 5)).serveStart (qb (svb 0 5)).ctx ((qb (svb 0 5)).body.getD 1 0) 5).fst = true ∧
    ((svS (svb 0 5)).serveStart (qb (svb 0 5)).ctx ((qb (svb 0 5)).body.getD 1 0) 5).snd.queue 3 = some (qb (svb 0 5)) ∧
    -- (((PacketFormsComplete.1 (svi inst0_2 (svb 1 5)) 3 (qb (svb 1 5)) pk0)).2.2.2.2.2.2.2.2.2.2.2.1 5).2.2 inst0_2
    PacketAt (svi inst0_2 (svb 1 5)) 3 (qb (svb 1 5)) pk0 ∧
    5 = (qb (svb 1 5)).body.getD 2 0 / 2 ^ 8 % 16 ∧
    (qb (svb 1 5)).body.getD 2 0 / 2 ^ 12 = 0 ∧
    (qb (svb 1 5)).body.getD 2 0 / 4 % 2 ^ 6 = 0 ∧
    (svi inst0_2 (svb 1 5)).inst 5 = some inst0_2 ∧
    inst0_2.ctx = (qb (svb 1 5)).ctx ∧
    inst0_2.desc = (qb (svb 1 5)).body.getD 1 0 ∧
    inst0_2.status = InstStatus.running ∧
    inst0_2.phase ≠ StepPhase.start 1) ∧
    -- ((PacketFormsComplete.1 (sck cs0 .off 0) 3 { qb cs0 with func := 0 } pk0)).2.2.2.2.2.2.2.2.2.2.2.2
    (PacketAt (sck cs0 Phase.off 0) 3 { qb cs0 with func := 0 } pk0 ∧
    { qb cs0 with func := 0 }.func = 0 ∧
    (sck cs0 Phase.off 0).namedContexts.snd.allOff (sck cs0 Phase.off 0).namedContexts.fst = true ∧
    PlainHomes (sck cs0 Phase.off 0) ∧
    NothingLocked (sck cs0 Phase.off 0) ∧
    (sck cs0 Phase.off 0).ctl.setTab = 0 ∧
    (List.filter (fun k => (sck cs0 Phase.off 0).namedContexts.fst.contains k.ctx) (sck cs0 Phase.off
      0).namedContexts.snd.vault = [chunkW1]) ∧
    swf chunkW1.data = true ∧
    chunkW1.pa = some 262144 ∧
    (∀ (b : Nat × BitVec 8), b ∈ chunkW1.data → 262144 ≤ b.fst ∧ b.fst < 262144 + chunkW1.bytes) ∧
    ((sck cs0 Phase.off 0).namedContexts.snd.pick 2).fst = 0 ∧
    262144 ≤ 262144) ∧
    262144 < 262144 + chunkW1.bytes ∧
    -- PacketFormsComplete.2.1 sI vI
    sI.invals = [vI] ∧
    sI.rangeQuiet vI.ctx vI.base vI.bytes = true :=
  ⟨(ok_pair (by decide +kernel) (by decide +kernel)), (by unfold PacketAt; decide +kernel),
    (by unfold PacketAt; decide +kernel), (by unfold NothingLocked PacketAt PlainHomes; decide +kernel), by decide +kernel⟩

theorem meets_PacketFormsComplete_3 :
    -- PacketFormsComplete.2.2 scc scc1 ⟨3, 7, [1]⟩ []
    scc.checkpoints = [{ queue := 3, seq := 7, ctxs := [1] : Checkpoint }] ∧
    (scc1 = List.foldl (fun s c => s.sendContext c) { scc with checkpoints := [] }
      { queue := 3, seq := 7, ctxs := [1] : Checkpoint }.ctxs) ∧
    scc1.poison = [] ∧
    scc1.checkpoints = [] :=
  by decide +kernel

theorem meets_TeamFormsComplete_1 :
    -- ((TeamFormsComplete.1 (sRg gq) 1 gq)).2.1
    (∃ g k, gq.issuer = Issuer.spawn g k) ∧
    ((sRg gq).grid 1 = some gq ∧
    gq.complete = false ∧
    (sRg gq).gridEnded 1 gq = true ∧
    gq.sigAddr = (0 : W64) ∧
    ¬1 ∈ (sRg gq).childGrids 1 ∧
    gq.status = GridStatus.running) ∧
    -- ((TeamFormsComplete.1 (sG { grZ with krec := 0x8000000000 } 5) 1 { grZ with krec := 0x8000000000 })).1
    ((sG { grZ with krec := (549755813888 : W64) } 5).grid 1 = some { grZ with krec := (549755813888 : W64) } ∧
    { grZ with krec := (549755813888 : W64) }.phase = LaunchPhase.dependence ∧
    { grZ with krec := (549755813888 : W64) }.depAddr = (0 : W64) ∧
    ((sG { grZ with krec := (549755813888 : W64) } 5).keyFor 1 { grZ with krec := (549755813888 : W64) }).fst = none ∧
    ((sG { grZ with krec := (549755813888 : W64) } 5).keyFor 1 { grZ with krec := (549755813888 : W64) }).snd.grid 1 = some
      { grZ with krec := (549755813888 : W64) } ∧
    -- ((TeamFormsComplete.1 (sPl grP) 1 grP)).2.2.2.1 2 (((sPl grP).fit 2 grP.roles grP.scratch).getD []) []
    (sPl grP).grid 1 = some grP ∧
    (sPl grP).launchOrder = [(1, grP)] ∧
    (sPl grP).takes 2 = true ∧
    ((grP.parked.any fun p => p.wantResume) = false) ∧
    grP.next < grP.teams ∧
    grP.cluster = false ∧
    grP.coresident = false ∧
    (sPl grP).fit 2 grP.roles grP.scratch = some (((sPl grP).fit 2 grP.roles grP.scratch).getD []) ∧
    (sPl grP).freeSlots 2 ≠ [] ∧
    -- ((TeamFormsComplete.1 { sPl grP with clock := 1000000 } 1 grP)).2.2.2.2 [] (({ sPl grP with clock := 1000000 } : State…
    { sPl grP with clock := 1000000 }.grid 1 = some grP ∧
    { sPl grP with clock := 1000000 }.launchOrder = [(1, grP)] ∧
    { sPl grP with clock := 1000000 }.ageClocks 1 = { sPl grP with clock := 1000000 }.ageClocks grP.ctx ∧
    1 * { sPl grP with clock := 1000000 }.ageClocks 1 = max (grP.entered + grP.level *
      { sPl grP with clock := 1000000 }.ageClocks 1) (grP.zeroSince.getD 0) ∧
    { sPl grP with clock := 1000000 }.placeable grP = true ∧
    1 * { sPl grP with clock := 1000000 }.ageClocks 1 + 4 * { sPl grP with clock := 1000000 }.ageClocks 1 ≤
      { sPl grP with clock := 1000000 }.clock ∧
    -- (TeamFormsComplete.2.1 (sR_2 grE grid0) t0 tm0 grid0)
    (sR_2 grE grid0).team t0 = some tm0 ∧
    (sR_2 grE grid0).grid tm0.grid = some grid0 ∧
    (sR_2 grE grid0).retires t0 tm0 = true) ∧
    NoObjectWaits (sR_2 grE grid0) ∧
    ((sR_2 grE grid0).core t0.core).act = none ∧
    -- ((TeamFormsComplete.2.1 sJ_2 t0 tmJ_2 grid0)).2.1 2
    sJ_2.team t0 = some tmJ_2 ∧
    sJ_2.grid tmJ_2.grid = some grid0 ∧
    sJ_2.joinStuck t0 = some 2 ∧
    tmJ_2.parkWanted = none :=
  ⟨⟨_, _, rfl⟩, by decide +kernel, by decide +kernel, (by unfold NoObjectWaits; decide +kernel)⟩

theorem meets_TeamFormsComplete_2 :
    -- ((TeamFormsComplete.2.1 (sP_2 tw gr0 cxP) t0 tw grid0)).2.2.1 1 1 cxP
    ((((((sP_2 tw gr0 cxP).onTeam t0 fun t => { t with parkWanted := some 1 }).stopTeam t0).sendTeam t0).putRecord tw.ctx
      (BitVec.toNat cxP.parkBase + 2 ^ 20 * 1) (recordLen tw.scrSize (List.map (fun p => p.snd.allot) (sortBy (fun a b =>
      decide (a.fst.gid < b.fst.gid)) (((((sP_2 tw gr0 cxP).onTeam t0 fun t => { t with parkWanted := some 1 }).stopTeam
      t0).sendTeam t0).teamGroups t0)))) (((((sP_2 tw gr0 cxP).onTeam t0 fun t => { t with parkWanted := some 1 }).stopTeam
      t0).sendTeam t0).record tw (sortBy (fun a b => decide (a.fst.gid < b.fst.gid)) (((((sP_2 tw gr0 cxP).onTeam t0 fun t =>
      { t with parkWanted := some 1 }).stopTeam t0).sendTeam t0).teamGroups t0)) (parkInfo tw (((((sP_2 tw gr0 cxP).onTeam t0
      fun t => { t with parkWanted := some 1 }).stopTeam t0).sendTeam t0).teamGroups t0) 1))).fst = Except.ok ()) ∧
    ((sP_2 tw gr0 cxP).team t0 = some tw ∧
    (sP_2 tw gr0 cxP).grid tw.grid = some grid0 ∧
    tw.parkWanted = some 1 ∧
    1 ≠ 0 ∧
    tw.parkSlot = none ∧
    tw.cluster = false ∧
    ((sP_2 tw gr0 cxP).core t0.core).act = none ∧
    ((((sP_2 tw gr0 cxP).onTeam t0 fun t => { t with parkWanted := some 1 }).stopTeam t0).quiet t0 = true) ∧
    ((((sP_2 tw gr0 cxP).onTeam t0 fun t => { t with parkWanted := some 1 }).stopTeam t0).team t0 = some tw) ∧
    (((((sP_2 tw gr0 cxP).onTeam t0 fun t => { t with parkWanted := some 1 }).stopTeam t0).sendTeam t0).team t0 = some tw) ∧
    (((((sP_2 tw gr0 cxP).onTeam t0 fun t => { t with parkWanted := some 1 }).stopTeam t0).sendTeam t0).ctx tw.ctx = some cxP) ∧
    cxP.freeSlot = some 1 ∧
    ((((((sP_2 tw gr0 cxP).onTeam t0 fun t => { t with parkWanted := some 1 }).stopTeam t0).sendTeam t0).putRecord tw.ctx
      (BitVec.toNat cxP.parkBase + 2 ^ 20 * 1) (recordLen tw.scrSize (List.map (fun p => p.snd.allot) (sortBy (fun a b =>
      decide (a.fst.gid < b.fst.gid)) (((((sP_2 tw gr0 cxP).onTeam t0 fun t => { t with parkWanted := some 1 }).stopTeam
      t0).sendTeam t0).teamGroups t0)))) (((((sP_2 tw gr0 cxP).onTeam t0 fun t => { t with parkWanted := some 1 }).stopTeam
      t0).sendTeam t0).record tw (sortBy (fun a b => decide (a.fst.gid < b.fst.gid)) (((((sP_2 tw gr0 cxP).onTeam t0 fun t =>
      { t with parkWanted := some 1 }).stopTeam t0).sendTeam t0).teamGroups t0)) (parkInfo tw (((((sP_2 tw gr0 cxP).onTeam t0
      fun t => { t with parkWanted := some 1 }).stopTeam t0).sendTeam t0).teamGroups t0) 1))).snd.team t0 = some tw) ∧
    ((((((sP_2 tw gr0 cxP).onTeam t0 fun t => { t with parkWanted := some 1 }).stopTeam t0).sendTeam t0).putRecord tw.ctx
      (BitVec.toNat cxP.parkBase + 2 ^ 20 * 1) (recordLen tw.scrSize (List.map (fun p => p.snd.allot) (sortBy (fun a b =>
      decide (a.fst.gid < b.fst.gid)) (((((sP_2 tw gr0 cxP).onTeam t0 fun t => { t with parkWanted := some 1 }).stopTeam
      t0).sendTeam t0).teamGroups t0)))) (((((sP_2 tw gr0 cxP).onTeam t0 fun t => { t with parkWanted := some 1 }).stopTeam
      t0).sendTeam t0).record tw (sortBy (fun a b => decide (a.fst.gid < b.fst.gid)) (((((sP_2 tw gr0 cxP).onTeam t0 fun t =>
      { t with parkWanted := some 1 }).stopTeam t0).sendTeam t0).teamGroups t0)) (parkInfo tw (((((sP_2 tw gr0 cxP).onTeam t0
      fun t => { t with parkWanted := some 1 }).stopTeam t0).sendTeam t0).teamGroups t0) 1))).snd.ctx tw.ctx = some cxP)) ∧
    -- ((TeamFormsComplete.2.1 (sP_2 { tw with parkSlot := some 1 } gr0 cxP) t0 { tw with parkSlot := some 1 } grid0)).2.2.2 …
    ((sP_2 { tw with parkSlot := some 1 } gr0 cxP).team t0 = some { tw with parkSlot := some 1 } ∧
    (sP_2 { tw with parkSlot := some 1 } gr0 cxP).grid { tw with parkSlot := some 1 }.grid = some grid0 ∧
    { tw with parkSlot := some 1 }.parkSlot = some 1 ∧
    (sP_2 { tw with parkSlot := some 1 } gr0 cxP).ctx { tw with parkSlot := some 1 }.ctx = some cxP ∧
    ((sP_2 { tw with parkSlot := some 1 } gr0 cxP).translate { tw with parkSlot := some 1 }.ctx (BitVec.toNat cxP.parkBase + 2
      ^ 20 * 1 + 39)).fst = some { pa := 9437223, r := true, w := true, x := true, host := false, mor := false : Xl } ∧
    { pa := 9437223, r := true, w := true, x := true, host := false, mor := false : Xl }.w = true ∧
    { pa := 9437223, r := true, w := true, x := true, host := false, mor := false : Xl }.host = false ∧
    NoObjectWaits (sP_2 { tw with parkSlot := some 1 } gr0 cxP) ∧
    ((sP_2 { tw with parkSlot := some 1 } gr0 cxP).core t0.core).act = none ∧
    -- ((TeamFormsComplete.2.2.1 { sP_2 tm0 gr0 (cxd (.drain 100 50)) with clock := 100, teams := [tm0].map (fun t => (t0, t)…
    ({ sP_2 tm0 gr0 (cxd (Phase.drain 100 50)) with clock := 100, teams := List.map (fun t => (t0, t)) [tm0] }.ctx 1 = some
      (cxd (Phase.drain 100 50))) ∧
    (cxd (Phase.drain 100 50)).phase = Phase.drain 100 50 ∧
    (100 ≤ { sP_2 tm0 gr0 (cxd (Phase.drain 100 50)) with clock := 100, teams := List.map (fun t => (t0, t)) [tm0] }.clock) ∧
    -- (((TeamFormsComplete.2.2.1 { sP_2 tm0 gr0 (cxd (.park 100)) with clock := 100, teams := [tm0].map (fun t => (t0, t)) }…
    ({ sP_2 tm0 gr0 (cxd (Phase.park 100)) with clock := 100, teams := List.map (fun t => (t0, t)) [tm0] }.ctx 1 = some (cxd
      (Phase.park 100))) ∧
    (cxd (Phase.park 100)).phase = Phase.park 100 ∧
    (100 ≤ { sP_2 tm0 gr0 (cxd (Phase.park 100)) with clock := 100, teams := List.map (fun t => (t0, t)) [tm0] }.clock) ∧
    ({ sP_2 tm0 gr0 (cxd (Phase.park 100)) with clock := 100, teams := List.map (fun t => (t0, t)) [tm0] }.ctxTeams 1 = [(t0,
      tm0)]) ∧
    ({ sP_2 tm0 gr0 (cxd (Phase.park 100)) with clock := 100, teams := List.map (fun t => (t0, t)) [tm0] }.grid tm0.grid = some
      grid0) ∧
    grid0.status = GridStatus.running ∧
    (∀ (p : GRef × Group), p ∈
      { sP_2 tm0 gr0 (cxd (Phase.park 100)) with clock := 100, teams := List.map (fun t => (t0, t)) [tm0] }.groups →
      p.snd.waitS = none)) ∧
    -- (((TeamFormsComplete.2.2.1 { sP_2 tm0 gr0 (cxd (.park 100)) with clock := 100, teams := [].map (fun t => (t0, t)) } 1 …
    ({ sP_2 tm0 gr0 (cxd (Phase.park 100)) with clock := 100, teams := List.map (fun t => (t0, t)) [] }.ctx 1 = some (cxd
      (Phase.park 100))) ∧
    ({ sP_2 tm0 gr0 (cxd (Phase.park 100)) with clock := 100, teams := List.map (fun t => (t0, t)) [] }.ctxTeams 1 = []) ∧
    (cxd (Phase.park 100)).preemptQ = [] :=
  ⟨(except_of (by decide +kernel) (by decide +kernel)), by decide +kernel, (by unfold NoObjectWaits; decide +kernel),
    by decide +kernel⟩

theorem meets_TeamFormsComplete_3 :
    -- ((TeamFormsComplete.2.2.2 (sA (tmH 0x9000) grT { Core.fresh with trapQ := [(0, 0), (1, 1)] } 55) 0 0 0 [(1, 1)] grT (t…
    (sA (tmH 36864) grT { Core.fresh with trapQ := [(0, 0), (1, 1)] } 55).group { core := 0, slot := 0, gid := 0 : GRef } =
      some grT ∧
    (sA (tmH 36864) grT { Core.fresh with trapQ := [(0, 0), (1, 1)] } 55).team { core := 0, slot := 0 : TRef } = some (tmH
      36864) ∧
    0 < 16 ∧
    ((sA (tmH 36864) grT { Core.fresh with trapQ := [(0, 0), (1, 1)] } 55).core 0).act = none ∧
    ((sA (tmH 36864) grT { Core.fresh with trapQ := [(0, 0), (1, 1)] } 55).core 0).trapQ = [(0, 0), (1, 1)] ∧
    (tmH 36864).handler ≠ (0 : W64) ∧
    (tmH 36864).parkWanted = none ∧
    -- ((TeamFormsComplete.2.2.2 (sA (tmH 0x9000) grT { Core.fresh with act := some a0 } (55 + 180000)) 0 0 0 [] grT (tmH 0x9…
    (sA (tmH 36864) grT { Core.fresh with act := some a0 } (55 + 180000)).group { core := 0, slot := 0, gid := 0 : GRef } =
      some grT ∧
    (sA (tmH 36864) grT { Core.fresh with act := some a0 } (55 + 180000)).team { core := 0, slot := 0 : TRef } = some (tmH
      36864) ∧
    ((sA (tmH 36864) grT { Core.fresh with act := some a0 } (55 + 180000)).core 0).act = some a0 ∧
    a0.slot = 0 ∧
    a0.since + 1800 * (tmH 36864).hndwd ≤ (sA (tmH 36864) grT { Core.fresh with act := some a0 } (55 + 180000)).clock ∧
    -- ((TeamFormsComplete.2.2.2 (sA (tmH 0x9000) grBw Core.fresh (7 + 18000)) 0 0 0 [] grBw (tmH 0x9000))).2.2 0x55 true 3
    (sA (tmH 36864) grBw Core.fresh (7 + 18000)).group { core := 0, slot := 0, gid := 0 : GRef } = some grBw ∧
    (sA (tmH 36864) grBw Core.fresh (7 + 18000)).team { core := 0, slot := 0 : TRef } = some (tmH 36864) ∧
    grBw.status = GStatus.active ∧
    grBw.waitS = some (Wait.barrier (85 : W64) true (3 : SReg)) ∧
    (tmH 36864).tagwd ≠ 0 ∧
    grBw.sinceS + 1800 * (tmH 36864).tagwd ≤ (sA (tmH 36864) grBw Core.fresh (7 + 18000)).clock :=
  by decide +kernel

theorem meets_GroupFormsComplete_1 :
    -- (((GroupFormsComplete.1 {sW { gr0 with laneQ := [eB, eB] } with clock := 0} 0 0 0 g0 { gr0 with laneQ := [eB, eB] })).…
    (g0 = { core := 0, slot := 0, gid := 0 : GRef } ∧
    { sW { gr0 with laneQ := [eB, eB] } with clock := 0 }.group g0 = some { gr0 with laneQ := [eB, eB] } ∧
    { gr0 with laneQ := [eB, eB] }.status = GStatus.active ∧
    { gr0 with laneQ := [eB, eB] }.run = none ∧
    { gr0 with laneQ := [eB, eB] }.laneQ = [eB, eB] ∧
    -- (((GroupFormsComplete.1 {sW { gl0 with spilled := [eB, eB] } with clock := 0} 0 0 0 g0 { gl0 with spilled := [eB, eB] …
    { sW { gl0 with spilled := [eB, eB] } with clock := 0 }.group g0 = some { gl0 with spilled := [eB, eB] } ∧
    { gl0 with spilled := [eB, eB] }.status = GStatus.active ∧
    { gl0 with spilled := [eB, eB] }.spilled = [eB, eB] ∧
    { gl0 with spilled := [eB, eB] }.laneQ.length < 16 ∧
    -- (((GroupFormsComplete.1 {sW { gr0 with waitS := some .lsync, enq := 4, ended := 4, yL := [(1, 2)], gfL := 3, mxEnded :…
    { sW { gr0 with yL := [(1, (2 : BitVec 64))], gfL := (3 : W32), enq := 4, ended := 4, waitS := some Wait.lsync, mxEnded := 8 } with clock := 0 }.group
      g0 = some
      { gr0 with yL := [(1, (2 : BitVec 64))], gfL := (3 : W32), enq := 4, ended := 4, waitS := some Wait.lsync, mxEnded := 8 } ∧
    { gr0 with yL := [(1, (2 : BitVec 64))], gfL := (3 : W32), enq := 4, ended := 4, waitS := some Wait.lsync, mxEnded := 8 }.status
      = GStatus.active ∧
    { gr0 with yL := [(1, (2 : BitVec 64))], gfL := (3 : W32), enq := 4, ended := 4, waitS := some Wait.lsync, mxEnded := 8 }.waitS
      = some Wait.lsync ∧
    { gr0 with yL := [(1, (2 : BitVec 64))], gfL := (3 : W32), enq := 4, ended := 4, waitS := some Wait.lsync, mxEnded := 8 }.enq
      ≤
      { gr0 with yL := [(1, (2 : BitVec 64))], gfL := (3 : W32), enq := 4, ended := 4, waitS := some Wait.lsync, mxEnded := 8 }.ended ∧
    -- (((GroupFormsComplete.1 {sW { gr0 with waitS := some (.timeline .ce 0) } with clock := 0} 0 0 0 g0 { gr0 with waitS :=…
    { sW { gr0 with waitS := some (Wait.timeline TlClass.ce 0) } with clock := 0 }.group g0 = some
      { gr0 with waitS := some (Wait.timeline TlClass.ce 0) } ∧
    { gr0 with waitS := some (Wait.timeline TlClass.ce 0) }.status = GStatus.active ∧
    { gr0 with waitS := some (Wait.timeline TlClass.ce 0) }.waitS = some (Wait.timeline TlClass.ce 0) ∧
    0 ≤ { sW { gr0 with waitS := some (Wait.timeline TlClass.ce 0) } with clock := 0 }.timeline g0
      { gr0 with waitS := some (Wait.timeline TlClass.ce 0) } TlClass.ce ∧
    -- (((GroupFormsComplete.1 {sW { gl0 with waitL := some (.waitp .gl 0 1) } with clock := 0} 0 0 0 g0 { gl0 with waitL := …
    { sW { gl0 with waitL := some (Wait.waitp PathClass.gl 0 1) } with clock := 0 }.group g0 = some
      { gl0 with waitL := some (Wait.waitp PathClass.gl 0 1) } ∧
    { gl0 with waitL := some (Wait.waitp PathClass.gl 0 1) }.status = GStatus.active ∧
    { gl0 with waitL := some (Wait.waitp PathClass.gl 0 1) }.waitL = some (Wait.waitp PathClass.gl 0 1) ∧
    { gl0 with waitL := some (Wait.waitp PathClass.gl 0 1) }.pathCount PathClass.gl ≤ 0 ∧
    -- ((((GroupFormsComplete.1 {sW { gr0 with waitS := some .exitWait } with clock := 0} 0 0 0 g0 { gr0 with waitS := some .…
    { sW { gr0 with waitS := some Wait.exitWait } with clock := 0 }.group g0 = some { gr0 with waitS := some Wait.exitWait } ∧
    { gr0 with waitS := some Wait.exitWait }.status = GStatus.active ∧
    g0.isHandler = false) ∧
    { sW { gr0 with waitS := some Wait.exitWait } with clock := 0 }.team g0.team = some tm0 ∧
    { gr0 with waitS := some Wait.exitWait }.enq ≤ { gr0 with waitS := some Wait.exitWait }.ended ∧
    { gr0 with waitS := some Wait.exitWait }.out = [] ∧
    { gr0 with waitS := some Wait.exitWait }.waitS = some Wait.exitWait ∧
    tm0.region { gr0 with waitS := some Wait.exitWait }.role = none ∧
    { gr0 with waitS := some Wait.exitWait }.eng = [] ∧
    { gr0 with waitS := some Wait.exitWait }.obj = [] ∧
    NoWrap { sW { gr0 with waitS := some Wait.exitWait } with clock := 0 } 0 2 1 :=
  ⟨by decide +kernel, (by unfold NoWrap; decide +kernel)⟩

theorem meets_GroupFormsComplete_2 :
    -- ((((GroupFormsComplete.1 {sW { gr0 with waitS := some (.fence 0 0 0 0), c := [(0, 1), (1, 1)] } with clock := 0} 0 0 0…
    (∀ (f : FabTag), f ∈
      { sW { gr0 with c := [(0, (1 : BitVec 1)), (1, (1 : BitVec 1))], waitS := some (Wait.fence 0 0 0 0) } with clock := 0 }.fabTags
      → f.busy = true → f.why ≠ ReqFor.lane g0 ∧ ∀ (os : List GRef), f.why = ReqFor.partial_ os → ¬g0 ∈ os) ∧
    ({ sW { gr0 with c := [(0, (1 : BitVec 1)), (1, (1 : BitVec 1))], waitS := some (Wait.fence 0 0 0 0) } with clock := 0 }.group
      g0 = some { gr0 with c := [(0, (1 : BitVec 1)), (1, (1 : BitVec 1))], waitS := some (Wait.fence 0 0 0 0) } ∧
    { gr0 with c := [(0, (1 : BitVec 1)), (1, (1 : BitVec 1))], waitS := some (Wait.fence 0 0 0 0) }.status = GStatus.active ∧
    { sW { gr0 with c := [(0, (1 : BitVec 1)), (1, (1 : BitVec 1))], waitS := some (Wait.fence 0 0 0 0) } with clock := 0 }.team
      g0.team = some tm0 ∧
    { gr0 with c := [(0, (1 : BitVec 1)), (1, (1 : BitVec 1))], waitS := some (Wait.fence 0 0 0 0) }.enq ≤
      { gr0 with c := [(0, (1 : BitVec 1)), (1, (1 : BitVec 1))], waitS := some (Wait.fence 0 0 0 0) }.ended ∧
    { gr0 with c := [(0, (1 : BitVec 1)), (1, (1 : BitVec 1))], waitS := some (Wait.fence 0 0 0 0) }.out = [] ∧
    (∀ (u : UPart), u ∈
      { sW { gr0 with c := [(0, (1 : BitVec 1)), (1, (1 : BitVec 1))], waitS := some (Wait.fence 0 0 0 0) } with clock := 0 }.upart
      → ¬g0 ∈ u.owners) ∧
    { gr0 with c := [(0, (1 : BitVec 1)), (1, (1 : BitVec 1))], waitS := some (Wait.fence 0 0 0 0) }.waitS = some (Wait.fence 0
      0 0 0) ∧
    0 ≠ 2) ∧
    -- ((((GroupFormsComplete.1 {sW { gr0 with waitS := some (.fence 2 0 0 0), c := [(0, 1), (1, 1)] } with clock := 0} 0 0 0…
    (∀ (f : FabTag), f ∈
      { sW { gr0 with c := [(0, (1 : BitVec 1)), (1, (1 : BitVec 1))], waitS := some (Wait.fence 2 0 0 0) } with clock := 0 }.fabTags
      → f.busy = true → f.why ≠ ReqFor.lane g0 ∧ ∀ (os : List GRef), f.why = ReqFor.partial_ os → ¬g0 ∈ os) ∧
    { sW { gr0 with c := [(0, (1 : BitVec 1)), (1, (1 : BitVec 1))], waitS := some (Wait.fence 2 0 0 0) } with clock := 0 }.group
      g0 = some { gr0 with c := [(0, (1 : BitVec 1)), (1, (1 : BitVec 1))], waitS := some (Wait.fence 2 0 0 0) } ∧
    { gr0 with c := [(0, (1 : BitVec 1)), (1, (1 : BitVec 1))], waitS := some (Wait.fence 2 0 0 0) }.status = GStatus.active ∧
    { sW { gr0 with c := [(0, (1 : BitVec 1)), (1, (1 : BitVec 1))], waitS := some (Wait.fence 2 0 0 0) } with clock := 0 }.team
      g0.team = some tm0 ∧
    { gr0 with c := [(0, (1 : BitVec 1)), (1, (1 : BitVec 1))], waitS := some (Wait.fence 2 0 0 0) }.enq ≤
      { gr0 with c := [(0, (1 : BitVec 1)), (1, (1 : BitVec 1))], waitS := some (Wait.fence 2 0 0 0) }.ended ∧
    { gr0 with c := [(0, (1 : BitVec 1)), (1, (1 : BitVec 1))], waitS := some (Wait.fence 2 0 0 0) }.out = [] ∧
    (∀ (u : UPart), u ∈
      { sW { gr0 with c := [(0, (1 : BitVec 1)), (1, (1 : BitVec 1))], waitS := some (Wait.fence 2 0 0 0) } with clock := 0 }.upart
      → ¬g0 ∈ u.owners) ∧
    { gr0 with c := [(0, (1 : BitVec 1)), (1, (1 : BitVec 1))], waitS := some (Wait.fence 2 0 0 0) }.waitS = some (Wait.fence 2
      0 0 0) ∧
    0 ≤ tm0.doneCe ∧
    0 ≤ tm0.doneKv ∧
    0 ≤ tm0.doneCo ∧
    { gr0 with c := [(0, (1 : BitVec 1)), (1, (1 : BitVec 1))], waitS := some (Wait.fence 2 0 0 0) }.mxFence ≤
      { gr0 with c := [(0, (1 : BitVec 1)), (1, (1 : BitVec 1))], waitS := some (Wait.fence 2 0 0 0) }.mxDone ∧
    ({ sW { gr0 with c := [(0, (1 : BitVec 1)), (1, (1 : BitVec 1))], waitS := some (Wait.fence 2 0 0 0) } with clock := 0 }.core
      0).staging = [] ∧
    { sW { gr0 with c := [(0, (1 : BitVec 1)), (1, (1 : BitVec 1))], waitS := some (Wait.fence 2 0 0 0) } with clock := 0 }.sends
      = [] ∧
    { sW { gr0 with c := [(0, (1 : BitVec 1)), (1, (1 : BitVec 1))], waitS := some (Wait.fence 2 0 0 0) } with clock := 0 }.deltas
      = [] ∧
    { gr0 with c := [(0, (1 : BitVec 1)), (1, (1 : BitVec 1))], waitS := some (Wait.fence 2 0 0 0) }.survDeg = false ∧
    tm0.survBad = [] ∧
    { gr0 with c := [(0, (1 : BitVec 1)), (1, (1 : BitVec 1))], waitS := some (Wait.fence 2 0 0 0) }.morFrames = [] ∧
    tm0.mor = [] :=
  ⟨(fun _ h => nomatch h), by decide +kernel, (fun _ h => nomatch h), by decide +kernel⟩

theorem meets_GroupFormsComplete_3 :
    -- ((GroupFormsComplete.1 {sW gL1 with clock := 0} 0 0 0 g0 gL1)).2.2.1 oS uP1 []
    ({ sW gL1 with clock := 0 }.group g0 = some gL1 ∧
    gL1.out = [oS] ∧
    oS.units = [uP1] ∧
    uP1.bytes = 4 ∧
    uP1.pa % 4 = 0 ∧
    uP1.space = Space.global ∧
    uP1.kind = UKind.store ∧
    uP1.dst = [] ∧
    uP1.mor = false ∧
    { sW gL1 with clock := 0 }.locked uP1.pa = false ∧
    { sW gL1 with clock := 0 }.holds = [] ∧
    PlainHomes { sW gL1 with clock := 0 } ∧
    NoObjectWaits { sW gL1 with clock := 0 } ∧
    NoWrap { sW gL1 with clock := 0 } 0 6 1 ∧
    -- ((GroupFormsComplete.1 {sW { gr0 with mx := [mx .mma true [] []] } with clock := 0} 0 0 0 g0 { gr0 with mx := [mx .mma…
    { sW { gr0 with mx := [mx MxKind.mma true [] []] } with clock := 0 }.group g0 = some
      { gr0 with mx := [mx MxKind.mma true [] []] } ∧
    { gr0 with mx := [mx MxKind.mma true [] []] }.mx = [mx MxKind.mma true [] []]) ∧
    ((∀ (d : MxCmd), d ∈ [] → d.num ≠ (mx MxKind.mma true [] []).num) ∧
    (mx MxKind.mma true [] []).kind = MxKind.mma ∧
    (mx MxKind.mma true [] []).begun = true ∧
    ({ sW { gr0 with mx := [mx MxKind.mma true [] []] } with clock := 0 }.core 0).staging = [] ∧
    -- GroupFormsComplete.2.1 { sW gl0 with upart := [uP], mem := ssetLE base.mem 0x40000 16 0x112233445566778899AABBCC } uP …
    { sW gl0 with mem := ssetLE base.mem 262144 16 5302590746052724293842418636, upart := [uP] }.upart = [uP] ∧
    { sW gl0 with mem := ssetLE base.mem 262144 16 5302590746052724293842418636, upart := [uP] }.remoteHolders = [] ∧
    (∀ (p : Nat × ObsPage), p ∈
      { sW gl0 with mem := ssetLE base.mem 262144 16 5302590746052724293842418636, upart := [uP] }.obs → p.snd.hwPages = []) ∧
    NothingLocked { sW gl0 with mem := ssetLE base.mem 262144 16 5302590746052724293842418636, upart := [uP] } ∧
    uP.rank = none ∧
    uP.cells = [(262148, 4294967295)] ∧
    uP.op = AOp.add ∧
    uP.w = AWidth.w32 ∧
    uP.mor = false ∧
    4294967295 < 2 ^ 32 ∧
    -- GroupFormsComplete.2.2.1 (sM gr0 [stg] []) 0 stg
    ((sM gr0 [stg] []).core 0).staging = [stg] ∧
    -- GroupFormsComplete.2.2.2.1 sMx0 tsX 5 7 0
    sMx0.sends = [tsX]) ∧
    tsX.cells = [(5, (7 : W64))] ∧
    PlainHomes sMx0 ∧
    tsX.mor = false ∧
    tsX.pa % 8 = 0 ∧
    NothingLocked sMx0 :=
  ⟨(by unfold NoObjectWaits NoWrap PlainHomes; decide +kernel), (by unfold NothingLocked; decide +kernel),
    (by unfold NothingLocked PlainHomes; decide +kernel)⟩

theorem meets_GroupFormsComplete_4 :
    -- (GroupFormsComplete.2.2.2.2.2 (sK3 cK) t0 (tmK cK) cK).1 ((kr3 cK).1.toOption.getD 0) ((kr23 cK).1.toOption.getD []) p…
    ((sK3 cK).vread ((sK3 cK).ctxOf (t0.group 0)) (cK.w 1) (4 * kvCount cK.desc) true).fst = Except.ok ((kr3
      cK).fst.toOption.getD 0) ∧
    (checkPieces ((sK3 cK).ctxOf (t0.group 0)) true [(cK.w 2, 8)] ((sK3 cK).vread ((sK3 cK).ctxOf (t0.group 0)) (cK.w 1) (4 *
      kvCount cK.desc) true).snd).fst = Except.ok ((kr23 cK).fst.toOption.getD []) ∧
    ((sK3 cK).team t0 = some (tmK cK) ∧
    (tmK cK).cmds = [cK] ∧
    cK.cls = EngCls.kv ∧
    cK.landed = [] ∧
    cK.op ∈ [EngOp.kvref, EngOp.kvunref] ∧
    cK.w 1 % 4 = 0 ∧
    cK.w 2 % 8 = 0 ∧
    ((((checkPieces ((sK3 cK).ctxOf (t0.group 0)) true [(cK.w 2, 8)] ((sK3 cK).vread ((sK3 cK).ctxOf (t0.group 0)) (cK.w 1) (4
      * kvCount cK.desc) true).snd).snd.instOf t0).bind fun z => (checkPieces ((sK3 cK).ctxOf (t0.group 0)) true [(cK.w 2, 8)]
      ((sK3 cK).vread ((sK3 cK).ctxOf (t0.group 0)) (cK.w 1) (4 * kvCount cK.desc) true).snd).snd.poolOf z (kvPool cK.desc)) =
      some (plK, pK)) ∧
    (checkPieces ((sK3 cK).ctxOf (t0.group 0)) true [(cK.w 2, 8)] ((sK3 cK).vread ((sK3 cK).ctxOf (t0.group 0)) (cK.w 1) (4 *
      kvCount cK.desc) true).snd).snd.poolMoves t0 cK pK = false ∧
    (checkPieces ((sK3 cK).ctxOf (t0.group 0)) true [(cK.w 2, 8)] ((sK3 cK).vread ((sK3 cK).ctxOf (t0.group 0)) (cK.w 1) (4 *
      kvCount cK.desc) true).snd).snd.kvAct ((checkPieces ((sK3 cK).ctxOf (t0.group 0)) true [(cK.w 2, 8)] ((sK3 cK).vread
      ((sK3 cK).ctxOf (t0.group 0)) (cK.w 1) (4 * kvCount cK.desc) true).snd).snd.kvWriter t0 cK) pK cK.op (kvCount cK.desc)
      (unpackIds ((kr3 cK).fst.toOption.getD 0) (kvCount cK.desc)) false = (some ((a3 cK).fst.getD 0), (a3 cK).snd.fst, (a3
      cK).snd.snd)) ∧
    -- ((GroupFormsComplete.2.2.2.2.1 (sC (cpy 5 0x100 0x200 [0])) t0 (tmC_2 (cpy 5 0x100 0x200 [0])) (cpy 5 0x100 0x200 [0])…
    (CopyStands (sC (cpy 5 256 512 [0])) t0 (tmC_2 (cpy 5 256 512 [0])) (cpy 5 256 512 [0]) ∧
    2 = (cpy 5 256 512 [0]).w 3 % 2 ^ 32 / 4 ∧
    NoObjectWaits (sC (cpy 5 256 512 [0])) ∧
    1 < (cpy 5 256 512 [0]).w 3 / 2 ^ 32 * 2 ∧
    ¬1 ∈ (cpy 5 256 512 [0]).landed ∧
    ((cpy 5 256 512 [0]).w 2 + (1 / 2 : Nat) * ((cpy 5 256 512 [0]).w 4 / 2 ^ 32) + 1 % 2 * 4) % 4 = 0 ∧
    (cpy 5 256 512 [0]).w 0 % 16 = 5) ∧
    -- ((GroupFormsComplete.2.2.2.2.1 (sC (cpy 5 0x100 0x200 [0, 1, 2, 3])) t0 (tmC_2 (cpy 5 0x100 0x200 [0, 1, 2, 3])) (cpy …
    CopyStands (sC (cpy 5 256 512 [0, 1, 2, 3])) t0 (tmC_2 (cpy 5 256 512 [0, 1, 2, 3])) (cpy 5 256 512 [0, 1, 2, 3]) ∧
    2 = (cpy 5 256 512 [0, 1, 2, 3]).w 3 % 2 ^ 32 / 4 ∧
    (cpy 5 256 512 [0, 1, 2, 3]).w 6 = 0 ∧
    (cpy 5 256 512 [0, 1, 2, 3]).w 3 / 2 ^ 32 * 2 ≤ (cpy 5 256 512 [0, 1, 2, 3]).landed.length ∧
    (tmC_2 (cpy 5 256 512 [0, 1, 2, 3])).finCe = [] ∧
    -- (GroupFormsComplete.2.2.2.2.2 (sS1 cS 0) t0 (tmK cS) cS).2.1 iK ((sS1 cS 0).pick 3).2
    (sS1 cS 0).team t0 = some (tmK cS) ∧
    (tmK cS).cmds = [cS] ∧
    cS.op = EngOp.kvsend ∧
    cS.landed ≠ [] ∧
    (sS1 cS 0).instOf t0 = some iK ∧
    (sS1 cS 0).pick 3 = (0, ((sS1 cS 0).pick 3).snd) ∧
    (cS.landed.getD 1 0).testBit 16 = false :=
  ⟨(except_of (by decide +kernel) (by decide +kernel)), (except_of (by decide +kernel) (by decide +kernel)), by decide +kernel,
    (by unfold CopyStands NoObjectWaits; decide +kernel), (by unfold CopyStands; decide +kernel)⟩

theorem meets_GroupFormsComplete_5 :
    -- (GroupFormsComplete.2.2.2.2.2 (scd (cd 3 [9,7,5] [3]) []) t0 (tmO (coll [0] 3)) (coll [0] 3)).2.2 (cd 3 [9,7,5] [3]) (…
    (scd (cd 3 [9, 7, 5] [3]) []).team t0 = some (tmO (coll [0] 3)) ∧
    (tmO (coll [0] 3)).cmds = [coll [0] 3] ∧
    (coll [0] 3).cls = EngCls.co ∧
    (coll [0] 3).landed = [0] ∧
    (scd (cd 3 [9, 7, 5] [3]) []).colls = [cd 3 [9, 7, 5] [3]] ∧
    (cd 3 [9, 7, 5] [3]).collid = (coll [0] 3).w 5 ∧
    (cd 3 [9, 7, 5] [3]).ctx = (scd (cd 3 [9, 7, 5] [3]) []).ctxOf (t0.group 0) ∧
    (cd 3 [9, 7, 5] [3]).rank = (scd (cd 3 [9, 7, 5] [3]) []).ctl.rank ∧
    (cd 3 [9, 7, 5] [3]).ranks = [(scd (cd 3 [9, 7, 5] [3]) []).ctl.rank] ∧
    (scd (cd 3 [9, 7, 5] [3]) []).lost.contains (scd (cd 3 [9, 7, 5] [3]) []).ctl.rank = false ∧
    (cd 3 [9, 7, 5] [3]).hdr = [(coll [0] 3).w 0] ∧
    (cd 3 [9, 7, 5] [3]).fault = none ∧
    (cd 3 [9, 7, 5] [3]).elems.length = collCount (coll [0] 3).desc ∧
    collOp (coll [0] 3).desc = 0 ∧
    collWidth (coll [0] 3).desc = 4 ∧
    collWrite t0 (coll [0] 3) (cd 3 [9, 7, 5] [3]).ranks (cd 3 [9, 7, 5] [3]).elems 0 (scd (cd 3 [9, 7, 5] [3]) []) = (true,
      (collWrite t0 (coll [0] 3) [3] [9, 7, 5] 0 (scd (cd 3 [9, 7, 5] [3]) [])).snd) ∧
    (collWrite t0 (coll [0] 3) [3] [9, 7, 5] 0 (scd (cd 3 [9, 7, 5] [3]) [])).snd.colls = (scd (cd 3 [9, 7, 5] [3]) []).colls ∧
    -- (((GroupFormsComplete.1 {sW { gl0 with grant := some (3, 4), lastMma := 5 } with clock := 16389} 0 0 0 g0 { gl0 with g…
    { sW { gl0 with grant := some (3, 4), lastMma := 5 } with clock := 16389 }.group g0 = some
      { gl0 with grant := some (3, 4), lastMma := 5 } ∧
    { gl0 with grant := some (3, 4), lastMma := 5 }.status = GStatus.active ∧
    { gl0 with grant := some (3, 4), lastMma := 5 }.grant.isSome = true ∧
    { gl0 with grant := some (3, 4), lastMma := 5 }.lastMma + 16384 ≤
      { sW { gl0 with grant := some (3, 4), lastMma := 5 } with clock := 16389 }.clock :=
  by decide +kernel

theorem meets_PlatformFormsComplete_1 :
    -- PlatformFormsComplete.1 (sCfg 0)
    ((sCfg 0).endpointUp = false ∧
    (sCfg 0).inReset = true ∧
    (sCfg 0).excl.length ≤ 1 ∧
    -- PlatformFormsComplete.1 (sS gr0) |>.2.2.2.2.2.2.2.2 g0
    (sS gr0).cur = some (Who.scalar g0) ∧
    -- PlatformFormsComplete.1 (sL gl0) |>.2.2.2.2.2.2.2.2 g0
    (sL gl0).cur = some (Who.lane g0) ∧
    -- PlatformFormsComplete.2.1 (ttl [5, 8, 1]) 5 8 [1]
    (ttl [5, 8, 1]).choices = [5, 8, 1] ∧
    5 % 3 = 2 ∧
    (ttl [5, 8, 1]).endpointUp = true ∧
    ¬5 % 36 ∈ (ttl [5, 8, 1]).portsDown ∧
    -- PlatformFormsComplete.2.1 (ttl [9, 7, 1]) 9 7 [1]
    (ttl [9, 7, 1]).choices = [9, 7, 1] ∧
    9 % 5 = 4 ∧
    (ttl [9, 7, 1]).endpointUp = true ∧
    7 % 2 = 1 ∧
    ¬9 ∈ (ttl [9, 7, 1]).chanDown ∧
    ¬9 % 36 ∈ (ttl [9, 7, 1]).portsDown ∧
    -- PlatformFormsComplete.2.2.1 { sPw with groups := [(g0, gAsk)] } g0 gAsk []
    { sPw with groups := [(g0, gAsk)] }.powerAsks = [g0] ∧
    { sPw with groups := [(g0, gAsk)] }.group g0 = some gAsk ∧
    gAsk.asksPower = true ∧
    -- PlatformFormsComplete.2.2.2.1 (sT_2 1 1800000000 Core.fresh) 2 1 1 [5]
    1 = (aget (sT_2 1 1800000000 Core.fresh).testPeriods 2).getD 0 ∧
    (sT_2 1 1800000000 Core.fresh).reservation = none ∧
    1 ≠ 0 ∧
    ((sT_2 1 1800000000 Core.fresh).core 2).testAt + 1 * 1800000000 ≤ (sT_2 1 1800000000 Core.fresh).clock ∧
    ((sT_2 1 1800000000 Core.fresh).core 2).inService = true ∧
    -- (PlatformFormsComplete.2.2.2.1 { sT_2 1 5 crT with l1 := [⟨2, 5, [], ⟨0, 0⟩, none, 0, 0⟩, ⟨1, 5, [], ⟨0, 0⟩, none, 0, …
    1 = (aget
      { sT_2 1 5 crT with l1 := [{ holder := 2, line := 5, data := [], lease := { wts := 0, rts := 0 : Lease } : Copy }, { holder := 1, line := 5, data := [], lease := { wts := 0, rts := 0 : Lease } : Copy }] }.testPeriods
      2).getD 0) ∧
    { sT_2 1 5 crT with l1 := [{ holder := 2, line := 5, data := [], lease := { wts := 0, rts := 0 : Lease } : Copy }, { holder := 1, line := 5, data := [], lease := { wts := 0, rts := 0 : Lease } : Copy }] }.reservation
      = none ∧
    ({ sT_2 1 5 crT with l1 := [{ holder := 2, line := 5, data := [], lease := { wts := 0, rts := 0 : Lease } : Copy }, { holder := 1, line := 5, data := [], lease := { wts := 0, rts := 0 : Lease } : Copy }] }.core
      2).testDue = true ∧
    { sT_2 1 5 crT with l1 := [{ holder := 2, line := 5, data := [], lease := { wts := 0, rts := 0 : Lease } : Copy }, { holder := 1, line := 5, data := [], lease := { wts := 0, rts := 0 : Lease } : Copy }] }.coreTeams
      2 = [] ∧
    { sT_2 1 5 crT with l1 := [{ holder := 2, line := 5, data := [], lease := { wts := 0, rts := 0 : Lease } : Copy }, { holder := 1, line := 5, data := [], lease := { wts := 0, rts := 0 : Lease } : Copy }] }.upart
      = [] ∧
    { sT_2 1 5 crT with l1 := [{ holder := 2, line := 5, data := [], lease := { wts := 0, rts := 0 : Lease } : Copy }, { holder := 1, line := 5, data := [], lease := { wts := 0, rts := 0 : Lease } : Copy }] }.choices
      = [1, 5] ∧
    { holder := 1, line := 5, data := [], lease := { wts := 0, rts := 0 : Lease } : Copy } ∈ (nx (exec (Instr.selfTestSlot 2)
      { sT_2 1 5 crT with l1 := [{ holder := 2, line := 5, data := [], lease := { wts := 0, rts := 0 : Lease } : Copy }, { holder := 1, line := 5, data := [], lease := { wts := 0, rts := 0 : Lease } : Copy }] })).l1 ∧
    -- PlatformFormsComplete.2.2.2.2.1 { sS gr0 with obs := [(1, { ObsPage.fresh with lsPer := 5 })] } 0 1 g0 gr0
    ({ sS gr0 with obs := [(1, { ObsPage.fresh with lsPer := 5 })] }.obsPage (1 % 4096)).lsPer ≠ 0 ∧
    g0.gid < 32 ∧
    g0.slot < 16 ∧
    (List.filter (fun p => p.fst.core == 0 && !p.fst.isHandler && p.snd.status != GStatus.exited &&
      { sS gr0 with obs := [(1, { ObsPage.fresh with lsPer := 5 })] }.ctxOf p.fst == 1)
      { sS gr0 with obs := [(1, { ObsPage.fresh with lsPer := 5 })] }.groups = [(g0, gr0)]) :=
  ⟨by decide +kernel, by decide +kernel⟩

theorem meets_PlatformFormsComplete_2 :
    -- (PlatformFormsComplete.2.2.2.2.2.2.2.2.1 (sV i4) i4).1 ((i4.room (sV i4)).1.toOption.getD 0) (i4.room (sV i4)).2
    i4.room (sV i4) = (Except.ok ((i4.room (sV i4)).fst.toOption.getD 0), (i4.room (sV i4)).snd) ∧
    ((sV i4).insts = [i4] ∧
    i4.status = InstStatus.running ∧
    (∀ (y : Ctx), (sV i4).ctx i4.ctx = some y → y.phase = Phase.running) ∧
    i4.stops = [] ∧
    (sV i4).instMoves i4 = false ∧
    i4.phase = StepPhase.start 4 ∧
    2 * i4.maxSeq ≤ (i4.room (sV i4)).fst.toOption.getD 0) ∧
    -- PlatformFormsComplete.2.2.2.2.2.1 (sMg [0x40000000, 0x4001, 5]) 1 (Ctx.fresh 0x10000) 0x40000000 0x4001 0x14000 0x1000…
    ((sMg [1073741824, 16385, 5]).ctxs = [(1, Ctx.fresh 65536)] ∧
    (sMg [1073741824, 16385, 5]).choices = [1073741824, 16385, 5] ∧
    PlainHomes (sMg [1073741824, 16385, 5]) ∧
    (sMg [1073741824, 16385, 5]).sends = [] ∧
    (sMg [1073741824, 16385, 5]).cores = [] ∧
    leafAt (sMg [1073741824, 16385, 5]).mem (1073741824 % 2 ^ 57) walkLevels (Ctx.fresh 65536).ptRoot = some (81920, 1048635,
      16) ∧
    1048576 = 1048635 / 2 ^ 16 % 2 ^ 36 * 2 ^ 16 ∧
    1073807360 = 16385 % (memTop / 2 ^ 16) * 2 ^ 16 ∧
    Nat.testBit 1048635 6 = false ∧
    Nat.testBit 1048635 7 = false ∧
    (sMg [1073741824, 16385, 5]).rangeFree 1073807360 (2 ^ 16) = true ∧
    (sMg [1073741824, 16385, 5]).poolUses 1048576 (2 ^ 16) = false ∧
    (sMg [1073741824, 16385, 5]).locked 1048576 = false ∧
    -- PlatformFormsComplete.2.2.2.2.2.2.1 sSw mg (Ctx.fresh 0x10000) 0x14000 0x10003B 16
    sSw.migrations = [mg] ∧
    sSw.holds = [] ∧
    sSw.leftBy (some mg.ctx) mg.new mg.bytes = [] ∧
    sSw.mem.wf = true ∧
    sSw.ctx mg.ctx = some (Ctx.fresh 65536) ∧
    leafAt (splice sSw.mem mg.new mg.bytes mg.old sSw.mem) mg.va walkLevels (Ctx.fresh 65536).ptRoot = some (81920, 1048635,
      16) ∧
    1048635 / 2 ^ 16 % 2 ^ 36 * 2 ^ 16 = mg.old ∧
    mg.new < 2 ^ 52) ∧
    mg.new % 2 ^ 16 = 0 ∧
    (81920 + 8 ≤ mg.new ∨ mg.new + mg.bytes ≤ 81920) ∧
    0 < mg.bytes ∧
    -- PlatformFormsComplete.2.2.2.2.2.2.2.1 sBd (sBd.firn.headD (ke .building)) []
    sBd.builds = [(sBd.firn.headD (ke FirnState.building)).id] ∧
    sBd.firn = [sBd.firn.headD (ke FirnState.building)] ∧
    (sBd.firn.headD (ke FirnState.building)).state = FirnState.building :=
  ⟨(ok_pair (by decide +kernel) (by decide +kernel)), by decide +kernel, (by unfold PlainHomes; decide +kernel),
    by decide +kernel⟩

theorem meets_PlatformFormsComplete_3 :
    -- ((PlatformFormsComplete.2.2.2.2.2.2.2.2.1 (sGd 0 []) (iG 0 [])).2 0 1 gD).1
    ((sGd 0 []).insts = [iG 0 []] ∧
    (iG 0 []).status = InstStatus.running ∧
    (∀ (y : Ctx), (sGd 0 []).ctx (iG 0 []).ctx = some y → y.phase = Phase.running) ∧
    (iG 0 []).stops = [] ∧
    (sGd 0 []).instMoves (iG 0 []) = false ∧
    (iG 0 []).phase = StepPhase.grids 0 1 ∧
    (sGd 0 []).grid 1 = some gD ∧
    gD.complete = true ∧
    gD.status = GridStatus.done ∧
    0 + 1 < (iG 0 []).plan.length ∧
    -- ((PlatformFormsComplete.2.2.2.2.2.2.2.2.1 { sGd 1 [e1] with recs := [rc] } (iG 1 [e1])).2 1 1 gD).2 e1 rc
    { sGd 1 [e1] with recs := [rc] }.insts = [iG 1 [e1]] ∧
    (iG 1 [e1]).status = InstStatus.running ∧
    (∀ (y : Ctx), { sGd 1 [e1] with recs := [rc] }.ctx (iG 1 [e1]).ctx = some y → y.phase = Phase.running) ∧
    (iG 1 [e1]).stops = [] ∧
    { sGd 1 [e1] with recs := [rc] }.instMoves (iG 1 [e1]) = false ∧
    (iG 1 [e1]).phase = StepPhase.grids 1 1 ∧
    { sGd 1 [e1] with recs := [rc] }.grid 1 = some gD ∧
    1 + 1 = (iG 1 [e1]).plan.length) ∧
    (iG 1 [e1]).batch = [e1] ∧
    e1.counted = false ∧
    e1.ended = false ∧
    (e1.sample = true → e1.emitted = true) ∧
    { sGd 1 [e1] with recs := [rc] }.recOf (iG 1 [e1]).num e1.idx = some rc ∧
    rc.get 1 8 1 = 0 ∧
    rc.gen ≠ rc.maxNew ∧
    rc.state = 2 ∧
    -- PlatformFormsComplete.2.2.2.2.2.2.2.2.2 { sRc 1 with insts := [] } { sRc 1 with insts := [], choices := [1, 2] } 7 21 …
    { sRc 1 with insts := [] }.choices = 7 :: 21 :: words 1 ++ [4, 2, 64] ++ [1, 2] ∧
    (words 1).length = 32 ∧
    [4, 2, 64].length = 3 ∧
    { sRc 1 with choices := [1, 2], insts := [] } = { { sRc 1 with insts := [] } with choices := [1, 2] } ∧
    { sRc 1 with insts := [] }.inst (21 % 16) = none :=
  ⟨by decide +kernel, by decide +kernel⟩

theorem meets_FabricFormsComplete_1 :
    -- FabricFormsComplete.1 (sF (rq 0x100 4 0 0 5)) (arS (sF (rq 0x100 4 0 0 5)) 1).2 1 (rqS (sF (rq 0x100 4 0 0 5)) 1) (rqS…
    RequestArrives (sF (rq 256 4 0 0 5)) 1 (rqS (sF (rq 256 4 0 0 5)) 1) (some (rqS (sF (rq 256 4 0 0 5)) 1).pkt) (arS (sF (rq
      256 4 0 0 5)) 1).snd ∧
    ((1, Instr.fabricRead, 129) ∈ [(1, Instr.fabricRead, 129), (2, Instr.fabricWrite, 130), (3, Instr.fabricAtomic, 131), (4,
      Instr.fabricAtomicNoReturn, 130)] ∧
    NoObjectWaits (arS (sF (rq 256 4 0 0 5)) 1).snd ∧
    PlainHomes (arS (sF (rq 256 4 0 0 5)) 1).snd ∧
    ItsTurn (arS (sF (rq 256 4 0 0 5)) 1).snd (rqS (sF (rq 256 4 0 0 5)) 1) ∧
    (arS (sF (rq 256 4 0 0 5)) 1).snd.window (rqS (sF (rq 256 4 0 0 5)) 1).pkt.ctx (rqS (sF (rq 256 4 0 0 5)) 1).pkt.offset
      (rqS (sF (rq 256 4 0 0 5)) 1).bytes ((rqS (sF (rq 256 4 0 0 5)) 1).pkt.opc != 2) ((rqS (sF (rq 256 4 0 0 5)) 1).pkt.opc
      != 1) = (((winS (sF (rq 256 4 0 0 5)) 1).fst.fst, some
      { pa := 262400, r := true, w := true, x := true, host := false, mor := false : Xl }), (winS (sF (rq 256 4 0 0 5)) 1).snd) ∧
    (winS (sF (rq 256 4 0 0 5)) 1).snd.fabOut = (arS (sF (rq 256 4 0 0 5)) 1).snd.fabOut ∧
    (winS (sF (rq 256 4 0 0 5)) 1).snd.clock = (arS (sF (rq 256 4 0 0 5)) 1).snd.clock ∧
    (winS (sF (rq 256 4 0 0 5)) 1).snd.ctl = (arS (sF (rq 256 4 0 0 5)) 1).snd.ctl ∧
    (winS (sF (rq 256 4 0 0 5)) 1).snd.fto = (arS (sF (rq 256 4 0 0 5)) 1).snd.fto ∧
    (winS (sF (rq 256 4 0 0 5)) 1).snd.mem = (arS (sF (rq 256 4 0 0 5)) 1).snd.mem ∧
    PlainHomes (winS (sF (rq 256 4 0 0 5)) 1).snd) ∧
    (NoObjectWaits (winS (sF (rq 256 4 0 0 5)) 1).snd ∧
    { pa := 262400, r := true, w := true, x := true, host := false, mor := false : Xl }.host = false ∧
    (winS (sF (rq 256 4 0 0 5)) 1).snd.unbuilt
      { pa := 262400, r := true, w := true, x := true, host := false, mor := false : Xl }.pa = false ∧
    (winS (sF (rq 256 4 0 0 5)) 1).snd.locked
      { pa := 262400, r := true, w := true, x := true, host := false, mor := false : Xl }.pa = false ∧
    { pa := 262400, r := true, w := true, x := true, host := false, mor := false : Xl }.mor = false) ∧
    -- FabricFormsComplete.2.1 (sF (rq 0x40104 3 0 0x123456789 5)) (arS (sF (rq 0x40104 3 0 0x123456789 5)) 5).2 (rqS (sF (rq…
    RequestArrives (sF (rq 262404 3 0 4886718345 5)) 5 (rqS (sF (rq 262404 3 0 4886718345 5)) 5) (some (rqS (sF (rq 262404 3 0
      4886718345 5)) 5).pkt) (arS (sF (rq 262404 3 0 4886718345 5)) 5).snd ∧
    (ItsTurn (arS (sF (rq 262404 3 0 4886718345 5)) 5).snd (rqS (sF (rq 262404 3 0 4886718345 5)) 5) ∧
    NoObjectWaits (arS (sF (rq 262404 3 0 4886718345 5)) 5).snd ∧
    (rqS (sF (rq 262404 3 0 4886718345 5)) 5).pkt.offset + (rqS (sF (rq 262404 3 0 4886718345 5)) 5).bytes ≤ memTop) ∧
    -- (FabricFormsComplete.2.2.1 sL4 (sL4.drawReply (ftg 2 (.lane g0))).2 (rpS sL4 (ftg 2 (.lane g0))).2 .acknowledgement [2…
    (Instr.acknowledgement, [2, 4]) ∈ [(Instr.readReply, [1]), (Instr.atomicReply, [3]), (Instr.acknowledgement, [2, 4])] ∧
    (List.filter (fun t => t.busy && [2, 4].contains t.pkt.opc) sL4.fabTags = [ftg 2 (ReqFor.lane g0)]) ∧
    sL4.drawReply (ftg 2 (ReqFor.lane g0)) = ((sL4.drawReply (ftg 2 (ReqFor.lane g0))).fst, (sL4.drawReply (ftg 2 (ReqFor.lane
      g0))).snd) ∧
    (sL4.drawReply (ftg 2 (ReqFor.lane g0))).snd.linkArrival (sL4.drawReply (ftg 2 (ReqFor.lane g0))).fst = (some
      (sL4.drawReply (ftg 2 (ReqFor.lane g0))).fst, (rpS sL4 (ftg 2 (ReqFor.lane g0))).snd) ∧
    (sL4.drawReply (ftg 2 (ReqFor.lane g0))).fst.tag = (ftg 2 (ReqFor.lane g0)).tag ∧
    (sL4.drawReply (ftg 2 (ReqFor.lane g0))).fst.gen = (ftg 2 (ReqFor.lane g0)).gen ∧
    (sL4.drawReply (ftg 2 (ReqFor.lane g0))).fst.status = 0 ∧
    (ftg 2 (ReqFor.lane g0)).why = ReqFor.lane g0 ∧
    (ftg 2 (ReqFor.lane g0)).pkt.opc ≠ 4 ∧
    (rpS sL4 (ftg 2 (ReqFor.lane g0))).snd.group g0 = some gL4 ∧
    gL4.out = [oR (uR UKind.store [])] ∧
    (oR (uR UKind.store [])).sent = some (ftg 2 (ReqFor.lane g0)).tag ∧
    (oR (uR UKind.store [])).units = [uR UKind.store []] ∧
    (uR UKind.store []).isHost = false ∧
    NoObjectWaits (rpS sL4 (ftg 2 (ReqFor.lane g0))).snd ∧
    (uR UKind.store []).dst = [] :=
  ⟨⟨_, rfl, rfl⟩, (by unfold ItsTurn NoObjectWaits PlainHomes; decide +kernel), (by unfold NoObjectWaits; decide +kernel),
    ⟨_, rfl, rfl⟩, (by unfold ItsTurn NoObjectWaits; decide +kernel), (by unfold NoObjectWaits; decide +kernel)⟩

theorem meets_FabricFormsComplete_2 :
    -- (FabricFormsComplete.2.2.1 sL3 (sL3.drawReply (ftg 1 (.lane g0))).2 (rpS sL3 (ftg 1 (.lane g0))).2 .readReply [1] (ftg…
    ((Instr.readReply, [1]) ∈ [(Instr.readReply, [1]), (Instr.atomicReply, [3]), (Instr.acknowledgement, [2, 4])] ∧
    (List.filter (fun t => t.busy && [1].contains t.pkt.opc) sL3.fabTags = [ftg 1 (ReqFor.lane g0)]) ∧
    sL3.drawReply (ftg 1 (ReqFor.lane g0)) = ((sL3.drawReply (ftg 1 (ReqFor.lane g0))).fst, (sL3.drawReply (ftg 1 (ReqFor.lane
      g0))).snd) ∧
    (sL3.drawReply (ftg 1 (ReqFor.lane g0))).snd.linkArrival (sL3.drawReply (ftg 1 (ReqFor.lane g0))).fst = (some
      (sL3.drawReply (ftg 1 (ReqFor.lane g0))).fst, (rpS sL3 (ftg 1 (ReqFor.lane g0))).snd) ∧
    (sL3.drawReply (ftg 1 (ReqFor.lane g0))).fst.tag = (ftg 1 (ReqFor.lane g0)).tag ∧
    (sL3.drawReply (ftg 1 (ReqFor.lane g0))).fst.gen = (ftg 1 (ReqFor.lane g0)).gen ∧
    (sL3.drawReply (ftg 1 (ReqFor.lane g0))).fst.status = 0 ∧
    (ftg 1 (ReqFor.lane g0)).why = ReqFor.lane g0 ∧
    (ftg 1 (ReqFor.lane g0)).pkt.opc ≠ 4 ∧
    (rpS sL3 (ftg 1 (ReqFor.lane g0))).snd.group g0 = some gL3 ∧
    gL3.out = [oR (uR (UKind.load false) [some 40])] ∧
    (oR (uR (UKind.load false) [some 40])).sent = some (ftg 1 (ReqFor.lane g0)).tag ∧
    (oR (uR (UKind.load false) [some 40])).units = [uR (UKind.load false) [some 40]] ∧
    (uR (UKind.load false) [some 40]).isHost = false ∧
    NoObjectWaits (rpS sL3 (ftg 1 (ReqFor.lane g0))).snd ∧
    (uR (UKind.load false) [some 40]).kind ≠ UKind.load true ∧
    (uR (UKind.load false) [some 40]).bytes = 4 ∧
    (uR (UKind.load false) [some 40]).dst = [some 40] ∧
    -- FabricFormsComplete.2.2.2.1 sDl (sDl.drawReply (ftg 5 (.delta 0))).2 (rpS sDl (ftg 5 (.delta 0))).2 (ftg 5 (.delta 0))…
    (List.filter (fun t => t.busy && [5].contains t.pkt.opc) sDl.fabTags = [ftg 5 (ReqFor.delta 0)]) ∧
    sDl.drawReply (ftg 5 (ReqFor.delta 0)) = ((sDl.drawReply (ftg 5 (ReqFor.delta 0))).fst, (sDl.drawReply (ftg 5 (ReqFor.delta
      0))).snd) ∧
    (sDl.drawReply (ftg 5 (ReqFor.delta 0))).snd.linkArrival (sDl.drawReply (ftg 5 (ReqFor.delta 0))).fst = (some
      (sDl.drawReply (ftg 5 (ReqFor.delta 0))).fst, (rpS sDl (ftg 5 (ReqFor.delta 0))).snd) ∧
    (sDl.drawReply (ftg 5 (ReqFor.delta 0))).fst.tag = (ftg 5 (ReqFor.delta 0)).tag) ∧
    (sDl.drawReply (ftg 5 (ReqFor.delta 0))).fst.gen = (ftg 5 (ReqFor.delta 0)).gen ∧
    (sDl.drawReply (ftg 5 (ReqFor.delta 0))).fst.status = 0 ∧
    (ftg 5 (ReqFor.delta 0)).why = ReqFor.delta (ftg 5 (ReqFor.delta 0)).die ∧
    (rpS sDl (ftg 5 (ReqFor.delta 0))).snd.deltas.length = 1 ∧
    (∀ (d : Delta), d ∈ (rpS sDl (ftg 5 (ReqFor.delta 0))).snd.deltas → (ftg 5 (ReqFor.delta 0)).carries d = true) ∧
    -- FabricFormsComplete.2.2.2.2.1 (sTO 1 (10 + 36000)) { fTO with retries := 1 }
    (sTO 1 (10 + 36000)).deltas = [] ∧
    (sTO 1 (10 + 36000)).fabTags = [{ fTO with retries := 1 }] ∧
    { fTO with retries := 1 }.busy = true ∧
    { fTO with retries := 1 }.sentAt + (sTO 1 (10 + 36000)).fto ≤ (sTO 1 (10 + 36000)).clock ∧
    { fTO with retries := 1 }.retries < (sTO 1 (10 + 36000)).ctl.fretry ∧
    -- FabricFormsComplete.2.2.2.2.2.2.1 sRe (sRe.control hR.rank).2 hR
    sRe.control hR.rank = (true, (sRe.control hR.rank).snd) ∧
    sRe.accepted = [hR] ∧
    (sRe.control hR.rank).snd.ctl.joined = true ∧
    -- FabricFormsComplete.2.2.2.2.2.2.1 { sF [0, 9, 0, 1, 2] with remoteHolders := [hR], lost := [4] } (({ sF [0, 9, 0, 1, 2…
    { sF [0, 9, 0, 1, 2] with remoteHolders := [hR], lost := [4] }.control hR.rank = (true,
      ({ sF [0, 9, 0, 1, 2] with remoteHolders := [hR], lost := [4] }.control hR.rank).snd) ∧
    { sF [0, 9, 0, 1, 2] with remoteHolders := [hR], lost := [4] }.remoteHolders = [hR] ∧
    NoObjectWaits ({ sF [0, 9, 0, 1, 2] with remoteHolders := [hR], lost := [4] }.control hR.rank).snd ∧
    ({ sF [0, 9, 0, 1, 2] with remoteHolders := [hR], lost := [4] }.control hR.rank).snd.lost.contains hR.rank = true :=
  ⟨(by unfold NoObjectWaits; decide +kernel), (by unfold NoObjectWaits; decide +kernel)⟩

theorem meets_FabricFormsComplete_3 :
    -- FabricFormsComplete.2.2.2.2.2.2.2.1 sUnj (sUnj.control 0).2 (sUnj.control 0).2.draw.2 (sUnj.control 0).2.draw.1
    (sUnj.control 0 = (true, (sUnj.control 0).snd) ∧
    (sUnj.control 0).snd.draw = ((sUnj.control 0).snd.draw.fst, (sUnj.control 0).snd.draw.snd) ∧
    (sUnj.control 0).snd.draw.snd.ctl.joined = false ∧
    -- FabricFormsComplete.2.2.2.2.2.2.2.1 sRy (sRy.control 0).2 (sRy.control 0).2.draw.2 (sRy.control 0).2.draw.1
    sRy.control 0 = (true, (sRy.control 0).snd) ∧
    (sRy.control 0).snd.draw = ((sRy.control 0).snd.draw.fst, (sRy.control 0).snd.draw.snd) ∧
    sRy.ctl.joined = true ∧
    (sRy.control 0).snd.draw.fst % 576 ≠ sRy.ctl.rank ∧
    (sRy.control 0).snd.unreachable = [] ∧
    PlainHomes (sRy.control 0).snd ∧
    NothingLocked (sRy.control 0).snd ∧
    -- FabricFormsComplete.2.2.2.2.2.2.2.2.1 { sF [] with rebuilds := [⟨4, 576, [0x30000, 0x50000]⟩] } ⟨4, 576, [0x30000, 0x5…
    { sF [] with rebuilds := [{ lost := 4, spare := 576, frames := [196608, 327680] : Rebuild }] }.rebuilds =
      [{ lost := 4, spare := 576, frames := [196608, 327680] : Rebuild }] ∧
    { lost := 4, spare := 576, frames := [196608, 327680] : Rebuild }.spare ≠
      { sF [] with rebuilds := [{ lost := 4, spare := 576, frames := [196608, 327680] : Rebuild }] }.ctl.rank ∧
    { lost := 4, spare := 576, frames := [196608, 327680] : Rebuild }.frames = [196608, 327680] ∧
    { sF [] with rebuilds := [{ lost := 4, spare := 576, frames := [196608, 327680] : Rebuild }] }.deltas = [] ∧
    { sF [] with rebuilds := [{ lost := 4, spare := 576, frames := [196608, 327680] : Rebuild }] }.holds = [] ∧
    NoObjectWaits { sF [] with rebuilds := [{ lost := 4, spare := 576, frames := [196608, 327680] : Rebuild }] } ∧
    -- FabricFormsComplete.2.2.2.2.2.2.2.2.2.1 (sO (coll [] 3) [0] 7) ((sO (coll [] 3) [0] 7).pick 2).2 t0 (coll [] 3)
    (sO (coll [] 3) [0] 7).newColls = [(t0, coll [] 3)]) ∧
    (sO (coll [] 3) [0] 7).pick 2 = (0, ((sO (coll [] 3) [0] 7).pick 2).snd) ∧
    -- FabricFormsComplete.2.2.2.2.2.2.2.2.2.2 (scd (cd 7 [] [3, 7]) [0, 5, 6, 7, 8]) ((scd (cd 7 [] [3, 7]) [0, 5, 6, 7, 8])…
    (scd (cd 7 [] [3, 7]) [0, 5, 6, 7, 8]).colls = [cd 7 [] [3, 7]] ∧
    (cd 7 [] [3, 7]).rank ≠ (scd (cd 7 [] [3, 7]) [0, 5, 6, 7, 8]).ctl.rank ∧
    (cd 7 [] [3, 7]).elems = [] ∧
    (cd 7 [] [3, 7]).fault = none ∧
    (scd (cd 7 [] [3, 7]) [0, 5, 6, 7, 8]).collPacket 133 (cd 7 [] [3, 7]).rank = (true, ((scd (cd 7 [] [3, 7]) [0, 5, 6, 7,
      8]).collPacket 133 7).snd) :=
  ⟨(by unfold NoObjectWaits NothingLocked PlainHomes; decide +kernel), by decide +kernel⟩

/-! Hypotheses that the states above do not meet -/

theorem meets_move_to_c : ScalarAt (sS gr0) g0 gr0 ∧ gr0.sreg 9 = 0 := ⟨⟨rfl, rfl⟩, by decide⟩

theorem meets_queue_body_window :
    QueueAt (sQ_2 q0) 3 q0 pk0 ∧ (0x10 + 0xFFFFFFF8) % 1024 = ((sget q0.q 3).toNat + (0xFFFFFFF8 : W32).toNat) % 1024 :=
  ⟨by unfold QueueAt; decide, by decide⟩

def sWv : State := (q0.winRead 1 16 8 sm_2).2
theorem meets_qwaitv_met :
    QueueAt sm_2 3 q0 pk0 ∧ q0.winRead 1 16 8 sm_2 = (.ok 0xFFEEDDCCBBAA9988, sWv) ∧ (sget q0.q 1).toNat ≤ 0xFFEEDDCCBBAA9988 :=
  ⟨by unfold QueueAt; decide, ok_pair (by decide +kernel) rfl, by decide⟩

def fT1 : FabTag := { fTO with retries := 1 }
theorem meets_fabric_timeout_retry :
    (sTO 1 40000).deltas = [] ∧ (sTO 1 40000).fabTags = [fT1] ∧ fT1.busy = true ∧ fT1.sentAt + (sTO 1 40000).fto ≤ (sTO 1 40000).clock ∧
    fT1.retries < (sTO 1 40000).ctl.fretry := by decide +kernel

def sNoRec : State := sFb (feB 7 true)
theorem meets_build_without_record :
    sNoRec.builds = [(feB 7 true).id, 4] ∧ sNoRec.firn = [feB 7 true] ∧ (feB 7 true).state = .building ∧
    (sNoRec.readRecord (feB 7 true).ctx (feB 7 true).krec.toNat).1 = .error (⟨.translation, 0⟩, 393216) :=
  ⟨by decide, by decide, by decide, err_of (by decide +kernel)⟩

def sUp (r : Bool) (d : Nat) : State := { base with endpointUp := false, inReset := r, choices := [d] }
/-- A device in reset answers with retry status. -/
theorem meets_configuration_in_reset : (sUp true 0).endpointUp = false ∧ (sUp true 0).inReset = true := by decide
/-- Where the signatures hold, the endpoint comes up, or answers with retry status, as it is ready or not. -/
theorem meets_configuration (h : ∀ i s, Config.signatureValid i s = true) (d : Nat) (hd : d < 2) :
    (sUp false d).endpointUp = false ∧ (sUp false d).inReset = false ∧ (sUp false d).firmwareOk = true ∧
    ((sUp false d).pick 2).1 = d := by
  refine ⟨rfl, rfl, ?_, Nat.mod_eq_of_lt hd⟩
  simp [State.firmwareOk, h]

def sLkT : State := { sMx0_2 with sends := [tsX], migrations := [⟨tsX.pa / 65536 * 65536, 0x40010000, 65536, 1, 0⟩] }
theorem meets_tile_add_locked :
    sLkT.group g0 = some gl0 ∧ sLkT.sends = [tsX] ∧ tsX.cells = [(5, 7)] ∧ PlainHomes sLkT ∧ tsX.mor = false ∧ tsX.pa % 8 = 0 ∧
    sLkT.locked tsX.pa = true := by unfold PlainHomes; decide

end

end Sys2Proof.Tests
end

section
/-! Proofs about number formats (R114 to R118, R441). First what every scalar word with one result and every lane word with
one result per lane does, then the words of division, product and shift. -/

namespace Sys2Proof.Machine

/-! Scalar words of one result -/

/-- A scalar word that writes one register leaves its group with that register written, at the next word. -/
theorem scalarTo_at {s : State} {g : GRef} {gr : Group} (hat : ScalarAt s g gr) (d : SReg) (f : Group → W64) :
    scalarTo s d f = .next (s.scalarDone g (gr.setS d (f gr)) 1) :=
  onScalar_at hat.1 hat.2 _

section
variable {s : State} {g : GRef} {gr : Group} (hat : ScalarAt s g gr) (bt : Bt) (d a b : SReg) (imm : BitVec 12) (n : Fin 64)
include hat

theorem exec_sdivReg (uns rem : Bool) : exec (.sdivReg bt uns rem d a b) s =
    .next (s.scalarDone g (gr.setS d (sdivOp uns rem (gr.sreg a) (gr.sreg b))) 1) := scalarTo_at hat d _

theorem exec_sdivImm : exec (.sdivImm bt d a imm) s =
    .next (s.scalarDone g (gr.setS d (sdivOp false false (gr.sreg a) (imm.signExtend 64))) 1) := scalarTo_at hat d _

theorem exec_smulReg : exec (.smulReg bt d a b) s =
    .next (s.scalarDone g (gr.setS d (gr.sreg a * gr.sreg b)) 1) := scalarTo_at hat d _

theorem exec_smulImm : exec (.smulImm bt d a imm) s =
    .next (s.scalarDone g (gr.setS d (gr.sreg a * imm.signExtend 64)) 1) := scalarTo_at hat d _

theorem exec_sshlReg : exec (.sshlReg bt d a b) s =
    .next (s.scalarDone g (gr.setS d (gr.sreg a <<< ((gr.sreg b).toNat % 64))) 1) := scalarTo_at hat d _

theorem exec_sshrReg : exec (.sshrReg bt d a b) s =
    .next (s.scalarDone g (gr.setS d (gr.sreg a >>> ((gr.sreg b).toNat % 64))) 1) := scalarTo_at hat d _

theorem exec_ssarReg : exec (.ssarReg bt d a b) s =
    .next (s.scalarDone g (gr.setS d ((gr.sreg a).sshiftRight ((gr.sreg b).toNat % 64))) 1) := scalarTo_at hat d _

theorem exec_sshlImm : exec (.sshlImm bt d a n) s =
    .next (s.scalarDone g (gr.setS d (gr.sreg a <<< n.val)) 1) := scalarTo_at hat d _

theorem exec_sshrImm : exec (.sshrImm bt d a n) s =
    .next (s.scalarDone g (gr.setS d (gr.sreg a >>> n.val)) 1) := scalarTo_at hat d _

theorem exec_ssarImm : exec (.ssarImm bt d a n) s =
    .next (s.scalarDone g (gr.setS d ((gr.sreg a).sshiftRight n.val)) 1) := scalarTo_at hat d _

end

/-! Lane words of one result in each active lane -/

theorem interlockRegs_congr (gr : Group) {rs rs' : List Nat} (hrs : ∀ r, r ∈ rs ↔ r ∈ rs') (ps : List Nat) :
    gr.interlockRegs rs ps = gr.interlockRegs rs' ps := by
  have hc : ∀ r, rs.contains r = rs'.contains r := fun r => Bool.eq_iff_iff.mpr (by simpa using hrs r)
  simp only [Group.interlockRegs, hc]

theorem mem_pairRegs_fst (d : VReg) (wide : Bool) (l x r : Nat) :
    r ∈ (pairRegs d wide l x).map (·.1) ↔ r ∈ resultRegs d wide := by
  cases wide <;> simp [pairRegs, resultRegs]

/-- Over all 32 lanes, a word of one result names the registers of that result and no other. -/
theorem mem_mapOut_regs (d : VReg) (wide : Bool) (f : LaneView → Nat → Nat × W32) (w : LaneView) (r : Nat) :
    r ∈ (mapOut d wide f w laneList).regs.map (·.1) ↔ r ∈ resultRegs d wide := by
  simp only [mapOut, List.map_flatMap, List.mem_flatMap, mem_pairRegs_fst]
  exact ⟨fun ⟨_, _, h⟩ => h, fun h => ⟨0, by simp [laneList], h⟩⟩

/-- The interlock of a word of one result looks at its result registers alone (R81). -/
theorem interlock_mapOut (gr : Group) (d : VReg) (wide : Bool) (f : LaneView → Nat → Nat × W32) :
    gr.interlock (mapOut d wide f) = gr.interlockRegs (resultRegs d wide) [] := by
  unfold Group.interlock
  dsimp only
  split
  · rename_i hall
    exact (interlockRegs_paths (by simpa using hall) _ _).symm
  · exact interlockRegs_congr gr (mem_mapOut_regs d wide f _) []

/-- A lane word of one result gives what its function gives in each active lane. -/
theorem laneGives_of_laneMap {s : State} {g : GRef} {gr : Group} {h : LaneHdr} {sels : List Sel} {d : VReg} {wide : Bool}
    {i : Instr} {f f' : LaneView → Nat → Nat × W32} (hat : LaneAt s g gr) (hi : exec i s = laneMap s h sels d wide f')
    (hf : ∀ w l, f' w l = f w l) : LaneGives s g gr h sels d wide i f := by
  obtain rfl : f' = f := funext fun w => funext (hf w)
  unfold LaneGives seen
  rw [hi, ← interlock_mapOut gr d wide f']
  exact onLane_at hat.1 hat.2 _

/-! Widths of lane operands (Table FMT-5) -/

theorem inlineBits_lt (n : Fin 32) : inlineBits n < 2 ^ 32 := by
  revert n
  decide

theorem both_lt (x : Nat) : both x < 2 ^ 32 := by
  unfold both
  omega

/-- The columns of 64 bits, that a register pair or an extension word fills. -/
def OTy.isPair : OTy → Bool
  | .i64 | .n64 => true
  | _ => false

theorem src_lt_of_word (w : LaneView) (h : LaneHdr) {t : OTy} (ht : t.isPair = false) (x : Sel) (l : Nat) :
    w.src h t x l < 2 ^ 32 := by
  have hmod : ∀ n, n % 2 ^ 32 < 2 ^ 32 := fun n => Nat.mod_lt n (by decide)
  revert ht
  cases x with
  | v r => cases t <;> simp [-Nat.reducePow, OTy.isPair, LaneView.src, LaneView.reg, BitVec.isLt]
  | k _ | ext32 | ext64 => cases t <;> simp [-Nat.reducePow, OTy.isPair, LaneView.src, hmod]
  | inl n =>
    have hhalf : ∀ f, (if n.val < 16 then both (inlineBits n) else both (inlineTo16 f (inlineBits n))) < 2 ^ 32 := by
      intro f
      split <;> exact both_lt _
    cases t <;> simp [-Nat.reducePow, OTy.isPair, LaneView.src, inlineBits_lt, hhalf]
  | imm16 =>
    have himm : h.imm.toNat < 2 ^ 32 := Nat.lt_trans h.imm.isLt (by decide)
    have hhigh : h.imm.toNat * 2 ^ 16 < 2 ^ 32 := by omega
    cases t <;> simp [-Nat.reducePow, OTy.isPair, LaneView.src, sext16to32, both_lt, himm, hhigh, BitVec.isLt]

theorem src_lt_of_pair (w : LaneView) (h : LaneHdr) {t : OTy} (ht : t.isPair = true) (x : Sel) (l : Nat) :
    w.src h t x l < 2 ^ 64 := by
  revert ht
  cases x with
  | v r =>
    have hlow : w.reg r.val l < 2 ^ 32 := (sget w.v _).isLt
    have hhigh : w.reg (r.val + 1) l < 2 ^ 32 := (sget w.v _).isLt
    have hpair : w.reg r.val l + 2 ^ 32 * w.reg (r.val + 1) l < 2 ^ 64 := by omega
    cases t <;> simp [-Nat.reducePow, OTy.isPair, LaneView.src, hpair]
  | k _ | ext64 => cases t <;> simp [-Nat.reducePow, OTy.isPair, LaneView.src, BitVec.isLt]
  | inl n =>
    have hinl : inlineBits n < 2 ^ 64 := Nat.lt_trans (inlineBits_lt n) (by decide)
    have hsigned : (if n.val < 16 then sext32to64 (inlineBits n) else inlineBits n) < 2 ^ 64 := by
      split
      · exact BitVec.isLt _
      · exact hinl
    cases t <;> simp [-Nat.reducePow, OTy.isPair, LaneView.src, hinl, hsigned]
  | imm16 =>
    have himm : h.imm.toNat < 2 ^ 64 := Nat.lt_trans h.imm.isLt (by decide)
    cases t <;> simp [-Nat.reducePow, OTy.isPair, LaneView.src, sext16to64, himm, BitVec.isLt]
  | ext32 =>
    have hmod : h.ext.toNat % 2 ^ 32 < 2 ^ 64 := by omega
    cases t <;> simp [-Nat.reducePow, OTy.isPair, LaneView.src, sext32to64, hmod, BitVec.isLt]

/-! Integers of a type -/

/-- The model's reading of an integer operand is the one by width and sign (R115). -/
theorem intVal_eq_readInt (t : LType) (x : Nat) : t.intVal x = readInt t.intBits t.isSigned x := by
  unfold LType.intVal readInt
  cases t.isSigned with
  | false => rfl
  | true => simp [BitVec.toInt_eq_msb_cond, BitVec.msb_eq_decide]

/-! Division and products (R118) -/

/-- Truncated division: the two make the dividend, the remainder is smaller than the divisor and has the dividend's sign. -/
theorem tdiv_tmod_spec (x : Int) {y : Int} (hy : y ≠ 0) :
    x = x.tdiv y * y + x.tmod y ∧ (x.tmod y).natAbs < y.natAbs ∧ 0 ≤ x.tmod y * x := by
  refine ⟨(Int.tdiv_mul_add_tmod x y).symm, ?_, ?_⟩
  · rw [Int.natAbs_tmod]
    exact Nat.mod_lt _ (Int.natAbs_pos.mpr hy)
  · obtain hx | hx := Int.le_total 0 x
    · exact Int.mul_nonneg (Int.tmod_nonneg y hx) hx
    · have hr : x.tmod y ≤ 0 := by
        have hneg : 0 ≤ (-x).tmod y := Int.tmod_nonneg y (Int.neg_nonneg_of_nonpos hx)
        rw [Int.neg_tmod] at hneg
        omega
      exact Int.mul_nonneg_of_nonpos_of_nonpos hr hx

/-- The signed quotient and remainder of a divisor that is not zero. -/
theorem sdiv_truncates (x : W64) {y : W64} (hy : y ≠ 0) :
    ∃ q r : Int, x.toInt = q * y.toInt + r ∧ r.natAbs < y.toInt.natAbs ∧ 0 ≤ r * x.toInt ∧
      sdivOp false false x y = BitVec.ofInt 64 q ∧ sdivOp false true x y = BitVec.ofInt 64 r := by
  have hy' : y.toInt ≠ 0 := BitVec.toInt_zero (w := 64) ▸ BitVec.toInt_ne.mpr hy
  obtain ⟨hmake, hsmall, hsign⟩ := tdiv_tmod_spec x.toInt hy'
  exact ⟨_, _, hmake, hsmall, hsign, if_neg hy, if_neg hy⟩

theorem sdivOp_zero (uns : Bool) (x : W64) : sdivOp uns false x 0 = 0 ∧ sdivOp uns true x 0 = x := by
  cases uns <;> exact ⟨rfl, rfl⟩

theorem sdivOp_unsigned (x : W64) {y : W64} (hy : y ≠ 0) :
    sdivOp true false x y = BitVec.ofNat 64 (x.toNat / y.toNat) ∧
      sdivOp true true x y = BitVec.ofNat 64 (x.toNat % y.toNat) := by
  have hq : sdivOp true false x y = x / y := if_neg hy
  have hr : sdivOp true true x y = x % y := if_neg hy
  rw [hq, hr]
  exact ⟨by rw [← BitVec.toNat_udiv, BitVec.ofNat_toNat, BitVec.setWidth_eq],
    by rw [← BitVec.toNat_umod, BitVec.ofNat_toNat, BitVec.setWidth_eq]⟩

/-- The quotient that 64 bits do not hold: -2^63 by -1. -/
theorem sdivOp_overflow {x y : W64} (hx : x.toInt = -2 ^ 63) (hy : y.toInt = -1) :
    sdivOp false false x y = x ∧ sdivOp false true x y = 0 := by
  obtain rfl : x = BitVec.ofInt 64 (-2 ^ 63) := by rw [← hx, BitVec.ofInt_toInt]
  obtain rfl : y = BitVec.ofInt 64 (-1) := by rw [← hy, BitVec.ofInt_toInt]
  decide

theorem mul_eq_ofNat_mod (x y : W64) : x * y = BitVec.ofNat 64 (x.toNat * y.toNat % 2 ^ 64) := by
  rw [← BitVec.toNat_mul, BitVec.ofNat_toNat, BitVec.setWidth_eq]

/-- Bits 63 to 32 of a product. -/
theorem high_half (p : Int) : (p.fdiv (2 ^ 32) % 2 ^ 32).toNat = (BitVec.ofInt 64 p).toNat / 2 ^ 32 := by
  rw [BitVec.toNat_ofInt, Int.fdiv_eq_ediv_of_nonneg _ (by decide)]
  omega

/-- Settles O10: SDIV is truncated division of Lean's integers, and the products are those of exact integers. -/
theorem divisionAndProductRules : Obligations.DivisionAndProductRules := by
  unfold Obligations.DivisionAndProductRules
  constructor
  · intro s g gr bt d a b imm hat
    simp only [exec_sdivReg hat, exec_sdivImm hat, exec_smulReg hat, exec_smulImm hat]
    refine ⟨?_, ?_, ?_, ?_, ?_, ?_, ?_⟩
    · rintro y rfl hy
      obtain ⟨q, r, hmake, hsmall, hsign, hq, hr⟩ := sdiv_truncates (gr.sreg a) hy
      obtain ⟨huq, hur⟩ := sdivOp_unsigned (gr.sreg a) hy
      exact ⟨⟨q, r, hmake, hsmall, hsign, by rw [hq], by rw [hr]⟩, by rw [huq], by rw [hur]⟩
    · intro hb uns
      obtain ⟨hq, hr⟩ := sdivOp_zero uns (gr.sreg a)
      exact ⟨by rw [hb, hq], by rw [hb, hr]⟩
    · intro hx hy
      obtain ⟨hq, hr⟩ := sdivOp_overflow hx hy
      exact ⟨by rw [hq], by rw [hr]⟩
    · rintro y rfl hy
      obtain ⟨q, r, hmake, hsmall, hsign, hq, -⟩ := sdiv_truncates (gr.sreg a) hy
      exact ⟨q, r, hmake, hsmall, hsign, by rw [hq]⟩
    · rintro rfl
      have hzero : (0 : BitVec 12).signExtend 64 = 0 := by decide
      rw [hzero, (sdivOp_zero false _).1]
    · rw [mul_eq_ofNat_mod]
    · rw [mul_eq_ofNat_mod]
  · intro s g gr h t signed d a b hat ht
    have hty : t.wide = false ∧ t.intBits = 32 ∧ t.isSigned = signed := by
      simp only [List.mem_cons, Prod.mk.injEq, List.not_mem_nil, or_false] at ht
      obtain ⟨rfl, rfl⟩ | ⟨rfl, rfl⟩ := ht <;> exact ⟨rfl, rfl, rfl⟩
    obtain ⟨hwide, hbits, rfl⟩ := hty
    rw [← hwide]
    refine laneGives_of_laneMap hat rfl fun w l => ?_
    simp only [LaneView.int, intVal_eq_readInt, hbits, if_true, high_half]

/-! Shifts (R117, R441) -/

/-- The count of a lane shift: whole, or modulo the width with `.WRAP`. -/
def laneCount (bits : Nat) (wrap : Bool) (n : Nat) : Nat := if wrap then n % bits else n

theorem shiftOp_left (bits : Nat) (wrap : Bool) (x n : Nat) :
    shiftOp .left bits wrap x n = (BitVec.ofNat bits x <<< laneCount bits wrap n).toNat := by
  unfold shiftOp
  change (if bits ≤ laneCount bits wrap n then 0 else x * 2 ^ laneCount bits wrap n % 2 ^ bits) = _
  split
  case isTrue hn => simp [BitVec.shiftLeft_eq_zero hn]
  case isFalse => simp [Nat.shiftLeft_eq]

theorem shiftOp_right {bits x : Nat} (wrap : Bool) (hx : x < 2 ^ bits) (n : Nat) :
    shiftOp .right bits wrap x n = (BitVec.ofNat bits x >>> laneCount bits wrap n).toNat := by
  unfold shiftOp
  change (if bits ≤ laneCount bits wrap n then 0 else x / 2 ^ laneCount bits wrap n) = _
  split
  case isTrue hn => simp [BitVec.ushiftRight_eq_zero hn]
  case isFalse => simp [Nat.shiftRight_eq_div_pow, Nat.mod_eq_of_lt hx]

theorem shiftOp_arith {bits x : Nat} (wrap : Bool) (hx : x < 2 ^ bits) (n : Nat) :
    shiftOp .arith bits wrap x n = ((BitVec.ofNat bits x).sshiftRight (laneCount bits wrap n)).toNat := by
  unfold shiftOp
  change (if bits ≤ laneCount bits wrap n then (if decide (2 ^ (bits - 1) ≤ x) then 2 ^ bits - 1 else 0)
    else if decide (2 ^ (bits - 1) ≤ x) then 2 ^ bits - 1 - (2 ^ bits - 1 - x) / 2 ^ laneCount bits wrap n
      else x / 2 ^ laneCount bits wrap n) = _
  rw [BitVec.toNat_sshiftRight, BitVec.msb_eq_decide, BitVec.toNat_ofNat, Nat.mod_eq_of_lt hx]
  simp only [Nat.shiftRight_eq_div_pow]
  split
  case isTrue hn =>
    have hpow : 2 ^ bits ≤ 2 ^ laneCount bits wrap n := Nat.pow_le_pow_right (by decide) hn
    rw [Nat.div_eq_of_lt (by omega), Nat.div_eq_of_lt (by omega), Nat.sub_zero]
  case isFalse => rfl

theorem wide_eq_decide_widthOf (t : LType) : t.wide = decide (widthOf t = 64) := by
  unfold widthOf
  cases t.wide <;> rfl

/-- An operand fills no more than the width of its type. -/
theorem bits_lt (w : LaneView) (h : LaneHdr) (t : LType) (x : Sel) (l : Nat) : w.bits h t x l < 2 ^ widthOf t := by
  have hcolumn : (otyOf t).isPair = t.wide := by cases t <;> rfl
  unfold widthOf
  split
  case isTrue ht => exact src_lt_of_pair w h (hcolumn.trans ht) x l
  case isFalse ht => exact src_lt_of_word w h (hcolumn.trans (Bool.eq_false_iff.mpr ht)) x l

/-- A lane shift whose operation is `f` on bit vectors gives `f` of its operand and its count, read from 32 bits. -/
theorem laneGives_shift {s : State} {g : GRef} {gr : Group} {h : LaneHdr} {t : LType} {bits : Nat} {wrap : Bool} {d : VReg}
    {a b : Sel} {i : Instr} {dir : ShiftDir} {f : BitVec bits → Nat → BitVec bits} (hat : LaneAt s g gr)
    (hbits : widthOf t = bits) (hi : exec i s = shiftWord dir h t wrap d a b s)
    (hf : ∀ x n, x < 2 ^ bits → shiftOp dir bits wrap x n = (f (BitVec.ofNat bits x) (laneCount bits wrap n)).toNat) :
    LaneGives s g gr h [a, b] d (decide (bits = 64)) i (fun w l =>
      ((f (BitVec.ofNat bits (w.src h (otyOf t) a l)) (laneCount bits wrap (w.src h .nat b l % 2 ^ 32))).toNat, 0)) := by
  subst hbits
  rw [← wide_eq_decide_widthOf]
  refine laneGives_of_laneMap hat hi fun w l => ?_
  rw [hf _ _ (bits_lt w h t a l), Nat.mod_eq_of_lt (src_lt_of_word w h rfl b l)]
  rfl

/-- Settles O11: a lane shift is the shift of a bit vector of its width by its count, and a scalar one is such a shift as it
stands. -/
theorem shiftCountRules : Obligations.ShiftCountRules := by
  unfold Obligations.ShiftCountRules
  constructor
  · intro s g gr h t ti bits wrap d a b hat ht
    have hwidths : widthOf t = bits ∧ widthOf ti = bits := by
      simp only [List.mem_cons, Prod.mk.injEq, List.not_mem_nil, or_false] at ht
      obtain ⟨rfl, rfl, rfl⟩ | ⟨rfl, rfl, rfl⟩ := ht <;> exact ⟨rfl, rfl⟩
    obtain ⟨hbits, hbits'⟩ := hwidths
    exact ⟨laneGives_shift (f := (· <<< ·)) hat hbits rfl fun x n _ => shiftOp_left bits wrap x n,
      laneGives_shift (f := (· >>> ·)) hat hbits rfl fun _ n hx => shiftOp_right wrap hx n,
      laneGives_shift (f := BitVec.sshiftRight) hat hbits' rfl fun _ n hx => shiftOp_arith wrap hx n⟩
  · intro s g gr bt d a b n hat
    exact ⟨exec_sshlReg hat .., exec_sshrReg hat .., exec_ssarReg hat .., exec_sshlImm hat .., exec_sshrImm hat ..,
      exec_ssarImm hat ..⟩

end Sys2Proof.Machine
end

section
/-! Proofs about the moves of the scalar side (R453): what each form of SMOV does, then which words of op 0x10 decode to each. -/

namespace Sys2Proof.Machine

/-! What each form does -/

/-- A scalar word leaves its group as its function makes it, at the next word. -/
theorem scalarWord_at {s : State} {g : GRef} {gr : Group} (hat : ScalarAt s g gr) (f : Group → Group) :
    scalarWord s f = .next (s.scalarDone g (f gr) 1) :=
  onScalar_at hat.1 hat.2 _

section
variable {s : State} {g : GRef} {gr : Group} (hat : ScalarAt s g gr) (bt : Bt) (d a : SReg) (c : CReg)
include hat

theorem exec_smov : exec (.smov bt d a) s = .next (s.scalarDone g (gr.setS d (gr.sreg a)) 1) := scalarTo_at hat d _

theorem exec_smovFromC : exec (.smovFromC bt d c) s =
    .next (s.scalarDone g (gr.setS d (if gr.creg c then 1 else 0)) 1) := scalarTo_at hat d _

theorem exec_smovToC : exec (.smovToC bt c a) s = .next (s.scalarDone g (gr.setC c (gr.sreg a != 0)) 1) :=
  scalarWord_at hat _

end

/-! Fields of a word of the SR format (Table FMT-1) -/

theorem fin_val {k : Nat} [NeZero k] (x : Fin k) : fin x.val k = x := Fin.ofNat_val_eq_self x

theorem fin_of_lt {n k : Nat} [NeZero k] (hn : n < k) : fin n k = ⟨n, hn⟩ := fin_val ⟨n, hn⟩

section
variable {op bt d a b fn : Nat}

theorem field_encSR_op (hop : op < 64) (hbt : bt < 4) (hd : d < 64) (ha : a < 64) (hb : b < 64) (hfn : fn < 64) :
    field (encSR op bt d a b fn) 26 6 = op := by
  unfold field encSR
  omega

theorem field_encSR_bt (hbt : bt < 4) (hd : d < 64) (ha : a < 64) (hb : b < 64) (hfn : fn < 64) :
    field (encSR op bt d a b fn) 24 2 = bt := by
  unfold field encSR
  omega

theorem scalarFields_encSR_d (hd : d < 64) (ha : a < 64) (hb : b < 64) (hfn : fn < 64) :
    (scalarFields (encSR op bt d a b fn)).d = d := by
  change field (encSR op bt d a b fn) 18 6 = d
  unfold field encSR
  omega

theorem scalarFields_encSR_a (ha : a < 64) (hb : b < 64) (hfn : fn < 64) :
    (scalarFields (encSR op bt d a b fn)).a = a := by
  change field (encSR op bt d a b fn) 12 6 = a
  unfold field encSR
  omega

theorem scalarFields_encSR_b (hb : b < 64) (hfn : fn < 64) : (scalarFields (encSR op bt d a b fn)).b = b := by
  change field (encSR op bt d a b fn) 6 6 = b
  unfold field encSR
  omega

theorem scalarFields_encSR_fn (hfn : fn < 64) : (scalarFields (encSR op bt d a b fn)).fn = fn := by
  change field (encSR op bt d a b fn) 0 6 = fn
  unfold field encSR
  omega

/-- A dynamic word of the SR format decodes to what its op and its fields give, where the operand rules allow it. -/
theorem decodeScalar_encSR_dyn (hop : op < 64) (hd : d < 64) (ha : a < 64) (hb : b < 64) (hfn : fn < 64) (imm64 : Nat) :
    decodeScalar (encSR op 0 d a b fn) imm64 =
      decodeScalarOp .dyn op imm64 (scalarFields (encSR op 0 d a b fn)) >>= checked := by
  unfold decodeScalar
  rw [field_encSR_bt (by decide) hd ha hb hfn, field_encSR_op hop (by decide) hd ha hb hfn]
  rfl

end

/-! Decoding of op 0x10 by its fields -/

theorem zeroField_zero : zeroField 0 = .ok () := rfl

theorem zeroField_of_ne {n : Nat} (hn : n ≠ 0) : zeroField n = .error .reservedField := if_neg hn

section
variable (bt : Bt) (imm64 : Nat) {f : ScalarFields}

theorem decode_smov_reserved_b (hb : f.b ≠ 0) : decodeScalarOp bt 0x10 imm64 f = .error .reservedField := by
  simp only [decodeScalarOp, zeroField_of_ne hb]
  rfl

theorem decode_smov (hb : f.b = 0) (hfn : f.fn = 0) :
    decodeScalarOp bt 0x10 imm64 f = .ok (.smov bt (sreg f.d) (sreg f.a)) := by
  simp only [decodeScalarOp, hb, hfn, zeroField_zero]
  rfl

theorem decode_smovFromC (hb : f.b = 0) (hfn : f.fn = 1) (ha : f.a < 8) :
    decodeScalarOp bt 0x10 imm64 f = .ok (.smovFromC bt (sreg f.d) ⟨f.a, ha⟩) := by
  simp only [decodeScalarOp, hb, hfn, Nat.div_eq_of_lt ha, fin_of_lt ha, zeroField_zero]
  rfl

theorem decode_smovFromC_reserved_a (hb : f.b = 0) (hfn : f.fn = 1) (ha : ¬ f.a < 8) :
    decodeScalarOp bt 0x10 imm64 f = .error .reservedField := by
  have hhigh : f.a / 8 ≠ 0 := by omega
  simp only [decodeScalarOp, hb, hfn, zeroField_of_ne hhigh, zeroField_zero]
  rfl

theorem decode_smovToC (hb : f.b = 0) (hfn : f.fn = 2) (hd : f.d < 8) :
    decodeScalarOp bt 0x10 imm64 f = .ok (.smovToC bt ⟨f.d, hd⟩ (sreg f.a)) := by
  simp only [decodeScalarOp, hb, hfn, Nat.div_eq_of_lt hd, fin_of_lt hd, zeroField_zero]
  rfl

theorem decode_smovToC_reserved_d (hb : f.b = 0) (hfn : f.fn = 2) (hd : ¬ f.d < 8) :
    decodeScalarOp bt 0x10 imm64 f = .error .reservedField := by
  have hhigh : f.d / 8 ≠ 0 := by omega
  simp only [decodeScalarOp, hb, hfn, zeroField_of_ne hhigh, zeroField_zero]
  rfl

theorem decode_smov_undefined_fn (hb : f.b = 0) (hfn : 3 ≤ f.fn) :
    decodeScalarOp bt 0x10 imm64 f = .error .undefinedFn := by
  obtain ⟨n, hn⟩ := Nat.exists_eq_add_of_le' hfn
  simp only [decodeScalarOp, hb, hn, zeroField_zero]
  rfl

end

/-- The forms of SMOV are told apart by fn, with b zero and with the condition register's field below 8. -/
theorem decodeScalar_smov (D A B fn : Fin 64) : (decodeScalar (encSR 0x10 0 D A B fn) 0).toOption =
    if B.val ≠ 0 then none
    else if fn.val = 0 then some (.smov .dyn D A)
    else if h : fn.val = 1 ∧ A.val < 8 then some (.smovFromC .dyn D ⟨A.val, h.2⟩)
    else if h : fn.val = 2 ∧ D.val < 8 then some (.smovToC .dyn ⟨D.val, h.2⟩ A)
    else none := by
  rw [decodeScalar_encSR_dyn (by decide) D.isLt A.isLt B.isLt fn.isLt]
  have hd : (scalarFields (encSR 0x10 0 D A B fn)).d = D := scalarFields_encSR_d D.isLt A.isLt B.isLt fn.isLt
  have ha : (scalarFields (encSR 0x10 0 D A B fn)).a = A := scalarFields_encSR_a A.isLt B.isLt fn.isLt
  have hb : (scalarFields (encSR 0x10 0 D A B fn)).b = B := scalarFields_encSR_b B.isLt fn.isLt
  have hfn : (scalarFields (encSR 0x10 0 D A B fn)).fn = fn := scalarFields_encSR_fn fn.isLt
  generalize scalarFields (encSR 0x10 0 D A B fn) = f at hd ha hb hfn
  have hD : sreg f.d = D := by rw [hd]; exact fin_val D
  have hA : sreg f.a = A := by rw [ha]; exact fin_val A
  simp only [← hd, ← ha, ← hb, ← hfn]
  split
  case isTrue hset => rw [decode_smov_reserved_b .dyn 0 hset]; rfl
  case isFalse hset =>
  have hzero : f.b = 0 := Decidable.not_not.mp hset
  split
  case isTrue h0 => rw [decode_smov .dyn 0 hzero h0, hD, hA]; rfl
  case isFalse h0 =>
  split
  case isTrue h1 =>
    obtain ⟨h1, hlow⟩ := h1
    rw [decode_smovFromC .dyn 0 hzero h1 hlow, hD]; rfl
  case isFalse h1 =>
  split
  case isTrue h2 =>
    obtain ⟨h2, hlow⟩ := h2
    rw [decode_smovToC .dyn 0 hzero h2 hlow, hA]; rfl
  case isFalse h2 =>
  obtain hf | hf | hf : f.fn = 1 ∨ f.fn = 2 ∨ 3 ≤ f.fn := by omega
  · rw [decode_smovFromC_reserved_a .dyn 0 hzero hf fun h => h1 ⟨hf, h⟩]; rfl
  · rw [decode_smovToC_reserved_d .dyn 0 hzero hf fun h => h2 ⟨hf, h⟩]; rfl
  · rw [decode_smov_undefined_fn .dyn 0 hzero hf]; rfl

theorem encSR_smov_eq_sum (d a b fn : Nat) :
    encSR 0x10 0 d a b fn = 0x40000000 + d * 2 ^ 18 + a * 2 ^ 12 + b * 2 ^ 6 + fn := by
  unfold encSR
  omega

/-- Settles O8: each form writes its one register, and fn selects the form. -/
theorem scalarMoveForms : Obligations.ScalarMoveForms := by
  unfold Obligations.ScalarMoveForms
  intro s g gr bt d a c hat
  refine ⟨exec_smov hat .., exec_smovFromC hat .., ?_, ?_, ?_⟩
  · intro hne
    rw [exec_smovToC hat, bne_iff_ne.mpr hne]
  · intro hzero
    rw [exec_smovToC hat, hzero, bne_self_eq_false]
  · intro D A B fn
    rw [← encSR_smov_eq_sum, decodeScalar_smov]

end Sys2Proof.Machine
end
